-- ==== Sys2Proof/Word.lean ====
section
/-! DEFINITION. The words of the engine (R1, R2): registers, packet words and object words are 64 bits. -/
namespace Sys2Proof

/-- A 64-bit word: a register, a packet word, a value word or a metadata word. -/
abbrev Word := BitVec 64

/-- One byte of external memory, of a payload or of a result. -/
abbrev Byte := BitVec 8

end Sys2Proof
end

