-- ==== Sys2Proof/Machine/Types.lean ====
section
/-! DEFINITION. The records that commands and the state share: requesters, status codes, commands in flight,
replies, Viaduct messages, combine values. -/
namespace Sys2Proof

/-- Who makes a management access (R364, R487, R488): an initiator with its 16-bit requester ID, or the
bridge-keeper, whose accesses carry none. -/
inductive Requester where
  | port (id : Nat)
  | firmware
  deriving DecidableEq, Repr

/-- The status codes of R91. -/
inductive Status where
  | ok | timeout | cancelled | disabled | underflow | overflow | prot | resource | full | poison | degraded
  | nonmember | dataLate | epochStale | busyFw | badop | tenantBusy | participantLost | poolOverflow | overrun | chunked
  deriving DecidableEq, Repr

/-- The object kinds of R21. -/
inductive Kind where
  | count | seq | event | pool | barrier
  deriving DecidableEq, Repr

/-- The opcodes of R64. -/
inductive Op where
  | sigAdd | sigSub | poll | waitGe | waitTake | take | give | arrive | arriveCombine | fence | route | member
  | alloc | free | audit
  deriving DecidableEq, Repr

/-- A command a pier has issued: the stamp of R60 and R280 and the packet of R62, R72 or R75 (4 or 16 words).
`deadline` is the whole Deck Time that the 40-bit field names (R318); none is NOTO. `pier` is the issuing
pier's number (R240), known on the issuing die only. -/
structure Cmd where
  die : Nat
  agent : Nat
  queue : Nat
  entry : Nat
  pier : Nat
  tenant : Nat
  epoch : Nat
  words : List Word
  deadline : Option Nat
  issue : Nat
  deriving DecidableEq, Repr

/-- A reply (R76); QUEUE and ENTRY come from the command. `dt` is the whole completion Deck Time. -/
structure Reply where
  value : Word
  status : Status
  rflags : BitVec 8
  dt : Nat
  deriving DecidableEq, Repr

/-- The 24-bit ROUTE entry of R72 with its index in the packet. -/
structure REntry where
  idx : Nat
  count : Nat
  offset : Nat
  die : Nat
  deriving DecidableEq, Repr

/-- A tree-order position (R193): die, then PIDX. -/
structure Pos where
  die : Nat
  pidx : Nat
  deriving DecidableEq, Repr

/-- The internal floating form of R188. -/
inductive FVal where
  | zero (s : Bool)
  | fin (s : Bool) (e : Int) (m : Nat)
  | inf (s : Bool)
  | nan
  deriving DecidableEq, Repr

/-- A node value: floating (R188) or an exact integer (R206). -/
inductive NVal where
  | f (v : FVal)
  | i (v : Int)
  deriving DecidableEq, Repr

/-- One element of a node or a partial: the node's value, the position an ARGMAX carries (R198), and what R199 to
R201 decide from the leaves as a set. -/
structure Elem where
  val : NVal
  pos : Pos
  nanPos : Option Pos
  zxiPos : Option Pos
  pinf : Option Pos
  ninf : Option Pos
  flushed : Bool
  deriving DecidableEq, Repr

/-- The header of a Viaduct message (R280) as far as it acts. -/
structure Hdr where
  src : Nat
  dst : Nat
  tenant : Nat
  epoch : Nat
  qseq : Nat
  deriving DecidableEq, Repr

/-- The body of a remote ROUTE part (R170, R281): the issuing command, its route tag, DWCOUNT and entries. -/
structure RPart where
  cmd : Cmd
  tag : Nat
  dw : Option (BitVec 32)
  entries : List REntry
  deriving DecidableEq, Repr

/-- A part report (R177): failed-entry mask, the status of the lowest failed entry, and the Deck Time of the
part's commit, none when no entry was committed. -/
structure PReport where
  tag : Nat
  mask : Nat
  status : Status
  dt : Option Nat
  deriving DecidableEq, Repr

/-- A combine partial or result segment (R228, R231, R281). -/
structure CSeg where
  ctx : Nat
  phase : Bool
  chunk : Nat
  seg : Nat
  last : Bool
  deriving DecidableEq, Repr

/-- The abort record of R233. -/
structure Abort where
  code : Nat
  die : Nat
  pidx : Nat
  deriving DecidableEq, Repr

/-- A SYNC message (R327); stamps are in sixteenths of a dt. -/
structure Sync where
  aligned : Bool
  xseq : Nat
  t1 : Nat
  t2 : Nat
  t3 : Nat
  deriving DecidableEq, Repr

/-- A mirror record (R308): the object and its old and new words, and the changed member window. -/
structure MRec where
  serial : Nat
  obj : Nat
  oldV : Word
  oldM : Word
  newV : Word
  newM : Word
  win : Option (Nat × BitVec 512 × BitVec 512)
  deriving DecidableEq, Repr

/-- The Viaduct messages of R281. `rx` is the receive stamp that the receiving port adds (R328), `tx` the time at which a REQ's
answer leaves; a cancel (R350, R359) has no
message type in R281. -/
inductive Msg where
  | cmd (c : Cmd)
  | xcmd (c : Cmd)
  | rpart (p : RPart)
  | reply (c : Cmd) (r : Reply)
  | preport (c : Cmd) (p : PReport)
  | refuse (c : Cmd) (reason : Nat)
  | cpart (s : CSeg) (es : List Elem)
  | cres (s : CSeg) (off : Nat) (bytes : List Byte)
  | cclose (ctx : Nat) (phase : Bool) (n : Nat)
  | cabort (ctx : Nat) (phase : Bool) (a : Abort)
  | wire (lane : Nat) (phase : Bool)
  | lcomp (lane : Nat) (phase : Bool) (t : Option Nat)
  | time (obj : Nat) (phase : Bool) (t : Nat)
  | syncReq (m : Sync) (rx tx : Nat)
  | syncResp (m : Sync) (rx : Nat)
  | coarse (m : Sync)
  | epoch (origin : Nat) (resync : Bool)
  | mrec (r : MRec)
  | mack (serial : Nat) (ok : Bool)
  | cancel (c : Cmd) (code : Nat)
  deriving DecidableEq, Repr

/-- A message with its header. -/
structure Envelope where
  hdr : Hdr
  msg : Msg
  deriving DecidableEq, Repr

/-- The fields of an INIT flit (R292). -/
structure InitFlit where
  sgid : Nat
  die : Nat
  port : Nat
  mode : Nat
  mirror : Bool
  mside : Bool
  rate : Bool
  precode : Bool
  width2 : Bool
  deriving DecidableEq, Repr

/-- A NOTICE flit (R300): origin die, port and new state; no port and `aligned` for the notice of R330. -/
structure Notice where
  origin : Nat
  port : Option Nat
  state : Nat
  number : Nat
  deriving DecidableEq, Repr

/-- What a REPRESENT names (R126, R172, R175): a command held at the pier at a queue's head, or a staging entry of a
coordinated part. -/
inductive RepTarget where
  | head (agent queue : Nat)
  | entry (tag idx : Nat)
  deriving DecidableEq, Repr

/-- The destination of a commit (R174): a slice, or firmware. -/
inductive CommitTo where
  | slice (s : Nat)
  | firmware
  deriving DecidableEq, Repr

/-- What the master port answers (R489): a sample record, a trace record, a paging access of a tenant, other. -/
inductive MPort where
  | sample
  | trace
  | paging (tenant obj : Nat)
  | other
  deriving DecidableEq, Repr

/-- What firmware rebuilds after TAG_UE (R391). -/
inductive TagWord where
  | slotTag (slice slot : Nat)
  | tableEntry (index : Nat)
  deriving DecidableEq, Repr

/-- A notice of R221 to the issuing unit: accepted, rejected with a status, or refused without an answer. -/
inductive Verdict where
  | accepted (phase : Bool)
  | rejected (st : Status)
  | refused
  deriving DecidableEq, Repr

end Sys2Proof
end

