-- ==== Sys2Proof/Syntax.lean ====
section
/-! DEFINITION. The commands of the block: one constructor for each row of the table of operations and events. Each is one
whole step (95_what_each_step_holds.md). An operand names the unit, port, agent, queue, register index or message concerned. -/
namespace Sys2Proof

/-- A command of the block. -/
inductive Instr where
  /-- AQ_VALID: the client writes one 32-byte entry for queue `queue` of the pier's local agent `ag` (R477). -/
  | aqValid (pier ag queue : Nat) (data : BitVec 256)
  /-- SIG_ADD: the pier issues the SIG_ADD at the head of the queue (R59, R82). -/
  | sigAdd (agent queue : Nat)
  /-- SIG_SUB: the same for SIG_SUB. -/
  | sigSub (agent queue : Nat)
  /-- POLL: the same for POLL. -/
  | poll (agent queue : Nat)
  /-- WAIT_GE: the same for WAIT_GE (R102). -/
  | waitGe (agent queue : Nat)
  /-- WAIT_TAKE: the same for WAIT_TAKE (R106). -/
  | waitTake (agent queue : Nat)
  /-- TAKE: the same for TAKE (R26). -/
  | take (agent queue : Nat)
  /-- GIVE: the same for GIVE (R26). -/
  | give (agent queue : Nat)
  /-- ARRIVE: the same for an ARRIVE without LANE (R133). -/
  | arrive (agent queue : Nat)
  /-- ARRIVE_LANE: the same for an ARRIVE with LANE (R155). -/
  | arriveLane (agent queue : Nat)
  /-- ARRIVE_COMBINE: the same for ARRIVE_COMBINE (R220). -/
  | arriveCombine (agent queue : Nat)
  /-- FENCE: the same for FENCE (R88). -/
  | fence (agent queue : Nat)
  /-- ROUTE: the same for ROUTE (R168). -/
  | route (agent queue : Nat)
  /-- MEMBER: the same for MEMBER (R144). -/
  | member (agent queue : Nat)
  /-- ALLOC: the same for ALLOC (R38). -/
  | alloc (agent queue : Nat)
  /-- FREE: the same for FREE (R41). -/
  | free (agent queue : Nat)
  /-- AUDIT: the same for AUDIT (R43). -/
  | audit (agent queue : Nat)
  /-- TRANSLATION_FILL: the oldest fill under way to the pier arrives (R35). -/
  | translationFill (pier : Nat)
  /-- INVALIDATION: the oldest invalidation under way to the pier arrives (R36). -/
  | invalidation (pier : Nat)
  /-- WAKE: the oldest wake under way to the pier arrives (R108). -/
  | wake (pier : Nat)
  /-- WAKE_EMIT: the slice emits the wakes at its port, or takes a batch and emits it (R110, R115). -/
  | wakeEmit (slice : Nat)
  /-- PACING_WINDOW: a pacing window begins (R113, R114). -/
  | pacingWindow
  /-- EXPIRY: the deadline of the blocking command of that queue has come where it is held (R119). -/
  | expiry (die agent queue : Nat)
  /-- REPRESENT: a refused command or staging entry is presented again (R126, R172, R175). -/
  | represent (target : RepTarget)
  /-- TIMED_RELEASE: Deck Time has reached the TREL of an armed object (R148). -/
  | timedRelease (slice slot : Nat)
  /-- TIME_FRAME: a time frame arrives (R151). -/
  | timeFrame (port : Nat) (hdr : Hdr) (obj : Nat) (phase : Bool) (t : Nat)
  /-- COMBINE_REPORT: the root unit's report for the context reaches the barrier's slice (R138). -/
  | combineReport (ctx : Nat)
  /-- BACKING_OP: firmware applies the command at that place of the paging queue to its image (R48). -/
  | backingOp (index : Nat)
  /-- PAGE_IN: firmware ends the page-in in progress of that number, or, numbered on from those, begins that of the command at
  a place of the paging queue (R49). -/
  | pageIn (index : Nat)
  /-- STAGING_REPORT: the staging report of one entry reaches its part's coordinator (R172). -/
  | stagingReport (tag idx : Nat)
  /-- ROUTE_COMMIT: a commit reaches a slice or firmware (R174). -/
  | routeCommit (tag : Nat) (dest : CommitTo)
  /-- PREPORT: a part report arrives from another die (R177). -/
  | preport (port : Nat) (hdr : Hdr) (c : Cmd) (report : PReport)
  /-- RPART: a remote ROUTE part arrives (R170). -/
  | rpart (port : Nat) (hdr : Hdr) (part : RPart)
  /-- MREC: a mirror record arrives (R308). -/
  | mrec (port : Nat) (hdr : Hdr) (rec : MRec)
  /-- MACK: a mirror compare result arrives (R309, R310). -/
  | mack (port : Nat) (hdr : Hdr) (serial : Nat) (ok : Bool)
  /-- HOLD_RELEASE: the delivered-write counter of the die of the command held at a place of the port's hold table reads `dwc`, and the
  command is released if its comparison passes; an index of 128 and more names no place, but that of die `index - 128` (R260, R263,
  R264, R484; log entry 35). -/
  | holdRelease (port index : Nat) (dwc : BitVec 32)
  /-- HOLD_DISCARD: a held command reaches its hold limit (R266). -/
  | holdDiscard (port index : Nat)
  /-- REFUSE: a REFUSE arrives (R499). -/
  | refuse (port : Nat) (hdr : Hdr) (c : Cmd) (reason : Nat)
  /-- REPLY: a REPLY arrives from another die (R281). -/
  | reply (port : Nat) (hdr : Hdr) (c : Cmd) (r : Reply)
  /-- CMD: a command message arrives (R288). -/
  | cmd (port : Nat) (hdr : Hdr) (c : Cmd)
  /-- XCMD: an extended MEMBER command message arrives (R281). -/
  | xcmd (port : Nat) (hdr : Hdr) (c : Cmd)
  /-- CANCEL: a cancel with that cause code reaches the unit that holds the command (R350, R359, R461). -/
  | cancel (die agent queue code : Nat)
  /-- ARRIVAL_ACCEPTED: the oldest notice of an accepted or rejected arrival under way on this die, or one that the home
  die of the barrier sends, reaches the unit holding the entry (R221). -/
  | arrivalAccepted (ctx : Nat) (remote : Option (Cmd × Verdict))
  /-- CHUNK_COMPLETE: the unit completes the chunk in progress of the entry (R228). -/
  | chunkComplete (ctx : Nat)
  /-- CPART: a combine partial segment arrives at the root (R228). -/
  | cpart (port : Nat) (hdr : Hdr) (seg : CSeg) (es : List Elem)
  /-- CRES: a combine result segment arrives at a stage (R231). -/
  | cres (port : Nat) (hdr : Hdr) (seg : CSeg) (off : Nat) (bytes : List Byte)
  /-- CCLOSE: a close frame arrives (R226). -/
  | cclose (port : Nat) (hdr : Hdr) (ctx : Nat) (phase : Bool) (n : Nat)
  /-- CABORT: an abort frame arrives (R233). -/
  | cabort (port : Nat) (hdr : Hdr) (ctx : Nat) (phase : Bool) (a : Abort)
  /-- SP_RVALID: the client answers the oldest beat outstanding of the local agent (R482). -/
  | spRvalid (pier ag : Nat) (data : BitVec 512) (err : Bool)
  /-- DR_ACK: the client acknowledges a release drain (R243, R480). -/
  | drAck (pier tag : Nat) (err : Bool)
  /-- IV_ACK: the client acknowledges an acquire invalidation (R247, R480). -/
  | ivAck (pier tag : Nat) (err : Bool)
  /-- AR_RDY: the client accepts the reply presented (R478). -/
  | arRdy (pier : Nat)
  /-- WIRE: a wire frame arrives at the root (R163). -/
  | wire (port : Nat) (hdr : Hdr) (lane : Nat) (phase : Bool)
  /-- LCOMP: a lane completion frame arrives (R163). -/
  | lcomp (port : Nat) (hdr : Hdr) (lane : Nat) (phase : Bool) (t : Option Nat)
  /-- LANE_RELEASE: an armed lane reaches its release time (R162). -/
  | laneRelease (lane : Nat)
  /-- SYNC_REQ: a SYNC REQ arrives, received at `rx`; the answer leaves at `tx`, in sixteenths of a dt (R329, R330). -/
  | syncReq (port : Nat) (hdr : Hdr) (m : Sync) (rx tx : Nat)
  /-- SYNC_RESP: a SYNC RESP arrives at `rx` (R329, R331). -/
  | syncResp (port : Nat) (hdr : Hdr) (m : Sync) (rx : Nat)
  /-- COARSE: a COARSE message arrives (R330). -/
  | coarse (port : Nat) (hdr : Hdr) (m : Sync)
  /-- EXCHANGE: the exchange period has passed; the REQ leaves at `tx` (R330). -/
  | exchange (tx : Nat)
  /-- GLIM: the gather limit has passed on the master (R330). -/
  | glim
  /-- ALIM: the alignment limit has passed (R330). -/
  | alim
  /-- SLEW_STEP: the Deck Time unit moves the DTCLK phase by one sixteenth (R316). -/
  | slewStep
  /-- EPOCH: an EPOCH notice arrives (R358). -/
  | epoch (port : Nat) (hdr : Hdr) (origin : Nat) (resync : Bool)
  /-- NOTICE: a NOTICE flit arrives (R300). -/
  | notice (port : Nat) (n : Notice)
  /-- MARKER: a freeze MARKER is accepted (R305). -/
  | marker (port : Nat) (t : Nat)
  /-- MARKER_LOST: no MARKER has come within 10 us (R305). -/
  | markerLost (port : Nat)
  /-- DATA: one flit codeword is received, and one flit is sent (R276, R283). -/
  | data (port : Nat) (codeword : BitVec 1360)
  /-- NAK: a flit carrying NAK reaches the transmitter (R284). -/
  | nak (port : Nat) (ack : Nat)
  /-- RETRY_BOUND: a flit has stayed unacknowledged for 8 attempts or 2 us (R285). -/
  | retryBound (port : Nat)
  /-- RECEIVE_TIMEOUT: no flit has passed for 2 us (R286). -/
  | receiveTimeout (port : Nat)
  /-- LOCK_LOST: lock has been lost for 1 us (R276). -/
  | lockLost (port : Nat)
  /-- LOS: the PMA reports loss of signal (R286). -/
  | los (port : Nat)
  /-- TUNE_DONE: the PMA reports training done (R291). -/
  | tuneDone (port : Nat)
  /-- PMA_LIM: the PMA_TUNE limit expires (R291). -/
  | pmaLim (port : Nat)
  /-- ALIGN_LOCK: lock has held for 16 alignment codewords, with what ALIGN found (R273, R293). -/
  | alignLock (port : Nat) (width2 reversed : Bool) (polinv lanebad : BitVec 4)
  /-- ALIGN_LIM: the ALIGN limit expires (R291). -/
  | alignLim (port : Nat)
  /-- INIT: an INIT flit is received (R292). -/
  | init (port : Nat) (f : InitFlit)
  /-- INIT_LIM: the INIT limit expires (R291). -/
  | initLim (port : Nat)
  /-- LINK_UP: 16 codewords have passed since both ends accepted an INIT flit (R291). -/
  | linkUp (port : Nat)
  /-- REHOLD: the REHOLD time has passed (R291). -/
  | rehold (port : Nat)
  /-- OPEN: ABC_CMD OPEN (R217). -/
  | open (req : Requester) (ctx : Nat)
  /-- CLOSE: ABC_CMD CLOSE (R219). -/
  | close (req : Requester) (ctx : Nat)
  /-- READ: ABC_CMD READ (R219). -/
  | read (req : Requester) (ctx : Nat)
  /-- QUIESCE: TEN_CMD QUIESCE (R350). -/
  | quiesce (req : Requester) (tenant : Nat)
  /-- QUIESCED: the drain conditions hold (R350). -/
  | quiesced (tenant : Nat)
  /-- RESUME: TEN_CMD RESUME (R352). -/
  | resume (req : Requester) (tenant : Nat)
  /-- RESET: TEN_CMD RESET without FORCE (R353). -/
  | reset (req : Requester) (tenant : Nat) (freeall : Bool)
  /-- FORCED_RESET: TEN_CMD RESET with FORCE (R356). -/
  | forcedReset (req : Requester) (tenant : Nat) (freeall : Bool)
  /-- RESET_COMPLETE: the work of a reset is complete (R355). -/
  | resetComplete (tenant : Nat)
  /-- AGT_BIND: a write to AGT_BIND (R344). -/
  | agtBind (req : Requester) (agent : Nat) (data : Word)
  /-- DISABLE: a write that clears AGT_BIND.EN (R359). -/
  | disable (req : Requester) (agent : Nat)
  /-- DISABLED: no command of the agent remains outstanding (R359). -/
  | disabled (agent : Nat)
  /-- TEN_SHARE: a write to TEN_SHARE0 (word 0) or TEN_SHARE1 (word 1) (R348). -/
  | tenShare (req : Requester) (tenant word : Nat) (data : Word)
  /-- TEN_CFG: a write to TEN_CFG (R365). -/
  | tenCfg (req : Requester) (tenant : Nat) (data : Word)
  /-- TEN_IMP: a write to TEN_IMP (R361). -/
  | tenImp (req : Requester) (tenant win : Nat) (data : Word)
  /-- SEMA_HTW: a write to SEMA_HTW (R54). -/
  | semaHtw (req : Requester) (tenant : Nat) (data : Word)
  /-- SEMA_BACK: a write to SEMA_BACK (R55). -/
  | semaBack (req : Requester) (tenant : Nat) (data : Word)
  /-- SEMA_PAIR: a write to SEMA_PAIR (R57). -/
  | semaPair (req : Requester) (data : Word)
  /-- WAIT_CTL: a write to WAIT_CTL (R129). -/
  | waitCtl (req : Requester) (data : Word)
  /-- TRS_LEN: a write to TRS_LEN (R160). -/
  | trsLen (req : Requester) (lane w : Nat) (data : Word)
  /-- TRS_LCFG: a write to TRS_LCFG, or with `xdie` to TRS_LXDIE (R166). -/
  | trsLcfg (req : Requester) (lane : Nat) (xdie : Bool) (data : Word)
  /-- TRS_LSTAT: a write to TRS_LSTAT (R165). -/
  | trsLstat (req : Requester) (lane : Nat) (data : Word)
  /-- KEY_LOCK: a write of 1 to KEY_CTL.LOCK (R363). -/
  | keyLock (req : Requester)
  /-- CORE_STEP: a write to CORE_STEP (R423). -/
  | coreStep (req : Requester) (data : Word)
  /-- ALIGN: DT_CMD ALIGN; a COARSE leaves at `tx` (R330). -/
  | align (req : Requester) (tx : Nat)
  /-- REMEASURE_ALL: DT_CMD REMEASURE_ALL (R325). -/
  | remeasureAll (req : Requester)
  /-- REMEASURE_ONE: DT_CMD REMEASURE_ONE (R325). -/
  | remeasureOne (req : Requester) (pier : Nat)
  /-- PMEAS_DONE: the offset measurement completes, with the stamps S1, P, S2 of each pier's probes in sixteenths of a dt (R323). -/
  | pmeasDone (probes : List (Nat × List (Nat × Nat × Nat)))
  /-- PMEAS_FAIL: the pier has not answered its probes (R324). -/
  | pmeasFail (pier : Nat)
  /-- MULTIPLIER_LOCK: the Deck Time multiplier locks (R315). -/
  | multiplierLock
  /-- REF_LOST: loss of ZS_DTREF is detected (R333). -/
  | refLost
  /-- REF_RETURN: ZS_DTREF has returned (R333). -/
  | refReturn
  /-- RAMP: a write to CLK_CTL that changes DIV (R403). -/
  | ramp (req : Requester) (data : Word)
  /-- SOURCE_SWITCH: a write to CLK_CTL that changes SRC (R404). -/
  | sourceSwitch (req : Requester) (data : Word)
  /-- RAMP_STEP: one microsecond of a ramp or switch has passed (R402, R404). -/
  | rampStep
  /-- RAMP_FAULT: the new input has shown no edge within 64 dt (R405). -/
  | rampFault
  /-- ECLK_LOST: an ECLK input is lost (R407). -/
  | eclkLost (input : Bool)
  /-- INPUT_RETURN: an ECLK input is present again (R407). -/
  | inputReturn (input : Bool)
  /-- GATE_OPEN: CLK_GREQ open (R413). -/
  | gateOpen (req : Requester) (node : Nat)
  /-- GATE_CLOSE: CLK_GREQ close (R410). -/
  | gateClose (req : Requester) (node : Nat)
  /-- BUS_IDLE_ACK: the unit acknowledges the bus-idle handshake (R411). -/
  | busIdleAck
  /-- GATE_TIMEOUT: no acknowledgement has come within 1,000 dt (R411). -/
  | gateTimeout
  /-- CLK_OBS: a write to CLK_OBS (R415). -/
  | clkObs (req : Requester) (data : Word)
  /-- DROOP_WARN: DROOP_WARN changes level (R416). -/
  | droopWarn (level : Bool)
  /-- FW_IMG_DONE: a write of 1 to FW_IMG.DONE (R420). -/
  | fwImgDone (req : Requester)
  /-- MEASURED: the measurement of the image completes (R420). -/
  | measured
  /-- FIRMWARE_START: the bridge-keeper is released (R421). -/
  | firmwareStart
  /-- READY: firmware sets FW_STAT.READY after its start duties (R422). -/
  | ready
  /-- FW_HBEAT: a write to FW_HBEAT (R424). -/
  | fwHbeat (req : Requester)
  /-- FW_HANG: HBLIM has passed without a heartbeat or acknowledgement (R424, R427). -/
  | fwHang
  /-- BEGIN: FW_UPD BEGIN (R426). -/
  | begin (req : Requester)
  /-- SAFEPOINT_ACK: firmware acknowledges the safe point (R427). -/
  | safepointAck
  /-- COMMIT: FW_UPD COMMIT (R429). -/
  | commit (req : Requester)
  /-- MEASURE: a write of 1 to FW_MREQ.MEASURE (R425). -/
  | measure (req : Requester)
  /-- MEASURE_DONE: the measurement on request completes (R425). -/
  | measureDone
  /-- CLEAR: OBS_CCMD CLEAR (R439). -/
  | clear (req : Requester) (first last : Nat)
  /-- CLEARALL: OBS_CCMD CLEARALL (R439). -/
  | clearAll (req : Requester)
  /-- SAMPLE: a sample is due (R440). -/
  | sample
  /-- OBS_SAMP: a write to OBS_SAMP (R443). -/
  | obsSamp (req : Requester) (data : Word)
  /-- OBS_RING: a write to OBS_RING (R443). -/
  | obsRing (req : Requester) (data : Word)
  /-- OBS_TRRING: a write to OBS_TRRING (R463). -/
  | obsTrring (req : Requester) (data : Word)
  /-- ARM: OBS_FRZCMD ARM (R447). -/
  | arm (req : Requester) (holdto : Bool)
  /-- DISARM: OBS_FRZCMD DISARM (R447). -/
  | disarm (req : Requester)
  /-- FREEZE: Deck Time has reached the freeze tick (R448). -/
  | freeze
  /-- FROZEN: every unit has stopped and every port has its MARKER or MLOST (R447). -/
  | frozen
  /-- THAW: OBS_FRZCMD THAW (R447). -/
  | thaw (req : Requester)
  /-- THAWAT: OBS_FRZCMD THAWAT (R447). -/
  | thawat (req : Requester)
  /-- THAW_TICK: Deck Time has reached the thaw tick (R447). -/
  | thawTick
  /-- THAWING_DONE: the deadline walk is complete and the units resume (R451). -/
  | thawingDone
  /-- COPY: OBS_SNCMD COPY (R457). -/
  | copy (req : Requester)
  /-- HANGSCAN: OBS_SNCMD HANGSCAN (R458). -/
  | hangscan (req : Requester)
  /-- SETVAL: MAR_CMD SETVAL (R460). -/
  | setval (req : Requester)
  /-- CANCEL_Q: MAR_CMD CANCEL_Q (R461). -/
  | cancelQ (req : Requester)
  /-- CANCEL_W: MAR_CMD CANCEL_W (R461). -/
  | cancelW (req : Requester)
  /-- FORCELANE: MAR_CMD FORCELANE (R462). -/
  | forceLane (req : Requester)
  /-- MARIONETTE_READ: MAR_CMD READ (R460). -/
  | marRead (req : Requester)
  /-- FSTAT: a write to a block's FSTAT (R376). -/
  | fstat (req : Requester) (block : Nat) (data : Word)
  /-- FFIRST: a write to a block's FFIRST (R379). -/
  | ffirst (req : Requester) (block : Nat) (data : Word)
  /-- FSEV: a write to a block's FSEV (R400). -/
  | fsev (req : Requester) (block : Nat) (data : Word)
  /-- FRCT: a write to a block's FRCT (R400). -/
  | frct (req : Requester) (block : Nat) (data : Word)
  /-- FINJ: a write to a block's FINJ (R394). -/
  | finj (req : Requester) (block : Nat) (data : Word)
  /-- SHADOW_END: the shadow of a block's reset closes (R384). -/
  | shadowEnd (block : Nat)
  /-- WDOG: the watchdog walker visits an entry past its watchdog deadline (R386). -/
  | wdog (slice entry : Nat)
  /-- REPLY_GUARD: the reply guard of a blocking command fires (R389). -/
  | replyGuard (agent queue : Nat)
  /-- DRAIN_SLOW: a drain has been in progress for DRLIM (R245). -/
  | drainSlow (agent queue : Nat)
  /-- ARBITRATION_WINDOW: an Abacus arbitration window begins (R236). -/
  | arbitrationWindow
  /-- PORT_EN: a write to VIAn_CTL that sets or clears EN (R291). -/
  | portEn (req : Requester) (port : Nat) (data : Word)
  /-- PORT_DOWN: a write of 1 to VIAn_CTL.DOWN (R286). -/
  | portDown (req : Requester) (port : Nat)
  /-- COLD_RESET: ZS_RST_N falls (R417). -/
  | coldReset
  /-- POWER_ON_RESET: ZS_POR_N falls (R380). -/
  | powerOnReset
  /-- RESET_RELEASE: the later reset pin rises (R492). -/
  | resetRelease
  /-- REGISTER_WRITE: a management write of `width` bits at an offset of the aperture (R2, R4). -/
  | registerWrite (req : Requester) (offset width : Nat) (data : Word)
  /-- ALIGNMENT_CODEWORD: an alignment codeword is received, or missed, at its expected position (R276). -/
  | alignmentCodeword (port : Nat) (matched : Bool)
  /-- MASTER_PORT_RESPONSE: a response arrives on the management master port (R489). -/
  | masterPortResponse (kind : MPort) (err : Bool)
  /-- TAG_REBUILD: firmware has rebuilt a slot tag or handle-table entry (R391). -/
  | tagRebuild (word : TagWord)
  /-- FW_TRAP: the bridge-keeper takes an exception at `pc` (R398). -/
  | fwTrap (pc : Nat)
  /-- HTM_READY: the handle translation memory has been cleared (R56). -/
  | htmReady
  /-- PIER_CLOCK_RESTART: the pier's client clock starts or restarts (R321). -/
  | pierClockRestart (pier : Nat)
  /-- SP_RDY: the client accepts the scratchpad beat presented (R482). -/
  | spRdy (pier : Nat)
  /-- SNCMD_DONE: firmware finishes a COPY or HANGSCAN (R457). -/
  | sncmdDone
  deriving DecidableEq, Repr

end Sys2Proof
end

