-- ==== Sys2Proof/Machine/State.lean ====
section
/-! DEFINITION. The state of one engine (one die), as plain data, and its value after reset.
Registers of the aperture that hold a value of their own stand in `rf`, keyed by aperture offset (R464); an offset
`rf` does not list holds its reset value (Machine/Regs.lean). Registers that only report other state are computed
by `readReg` (Machine/RegRead.lean). Sparse tables are lists of (key, value) in rising key order. -/
namespace Sys2Proof.Machine

/-- A sparse table: keys strictly rising, no entry equal to the table's default. -/
abbrev SMap (α : Type) := List (Nat × α)

/-- Why an issued command stalls at its queue head (R89, R453): an in-flight bound, a full route pending table (R175), a bank or
paging refusal, its tenant, its die, a barrier's hold, the start-up step. -/
inductive Stall where
  | bound | table | bank | tenant | die | barrier | step5
  deriving DecidableEq, Repr

/-- What a generated reply still waits for at its pier (R232, R246, R247, R249): nothing, its result beats, its turn at the
invalidation interface, or the acknowledgement of the invalidation asked for at a scope. -/
inductive Await where
  | nothing | beats | inval
  | invalAsked (scope : Nat)
  deriving DecidableEq, Repr

/-- Where a command of a queue stands at its pier. -/
inductive ItemSt where
  /-- written, not yet issued (R59) -/
  | unissued
  /-- issued and stalled at the head (R89) -/
  | stalled (why : Stall)
  /-- a FENCE that waits for earlier replies (R88) -/
  | fenced
  /-- held until its release drain is acknowledged (R243) -/
  | draining
  /-- refused, to be presented again from `due` on (R37, R126, R137, R175, R499) -/
  | refused (why : Stall) (due : Nat)
  /-- has left the pier, reply outstanding -/
  | out
  /-- its reply is generated (R85) and not yet delivered -/
  | done (r : Reply) (w : Await)
  /-- its reply is discarded and it is passed over in delivery (R359) -/
  | skip
  deriving DecidableEq, Repr

/-- One command of a queue, with the entry index of its first entry. -/
structure Item where
  entry : Nat
  words : List Word
  st : ItemSt
  cmd : Option Cmd
  /-- Viaduct ports on which it holds a remote credit (R125, R289) -/
  credits : List Nat
  /-- the command is traced (R444) -/
  traced : Bool
  /-- QSEQ of its command message once sent (R288) -/
  qseq : Option Nat
  /-- by how much freezes have advanced its reply guard (R451) -/
  late : Nat
  /-- its place among the commands this die has issued (R88) -/
  ord : Nat
  /-- its place among the heads that have begun to stall (R349); once its reply has come, its place among the replies that have -/
  since : Nat
  deriving DecidableEq, Repr

/-- A release drain in progress for a queue (R244): start, scope, the command it is made for, and whether DRAIN_SLOW was
recorded. -/
structure Drain where
  start : Nat
  scope : Nat
  cmd : Cmd
  slow : Bool
  deriving DecidableEq, Repr

/-- One command queue (R58). `part` holds the entries of an extended packet not yet whole. -/
structure Queue where
  items : List Item
  part : List Word
  tail : Nat
  drain : Option Drain
  deriving DecidableEq, Repr

/-- The state of an agent's port (R343). -/
inductive PortSt where
  | open | disabling | disabled
  deriving DecidableEq, Repr

/-- An agent: four queues, its port, queue flushes counted, and the sequence numbers of R288 keyed by
64 x queue + die. -/
structure Agent where
  queues : SMap Queue
  port : PortSt
  flushes : Nat
  qseq : SMap Nat
  deriving DecidableEq, Repr

/-- A scratchpad beat (R482): agent, direction, beat number of the offset, byte enables and data, and the context
and PIDX it serves. -/
structure Beat where
  agent : Nat
  write : Bool
  addr : Nat
  be : BitVec 64
  data : BitVec 512
  ctx : Nat
  pidx : Nat
  deriving DecidableEq, Repr

/-- A translation (R35): tenant and object number to slice and slot, and its place in the pier's cache (0 while under way). -/
structure Xlat where
  tenant : Nat
  obj : Nat
  slice : Nat
  slot : Nat
  place : Nat
  deriving DecidableEq, Repr

/-- A pier: issue and reply pointers (R59, R478), translation cache (most recently used first), the reply presented
(agent, queue), scratchpad beats not yet accepted and outstanding, and those answered while no ECLK unit acts (R407, R448, R482),
whether its clock is stopped or its Deck Time not reloaded (R321, R492), and of its Deck Time the offset in dt it applied when O_p last changed, the time of that
change, and the last value read (R321, R325). -/
structure Pier where
  rrAgent : Nat
  rrQueue : SMap Nat
  dAgent : Nat
  dQueue : SMap Nat
  cache : List Xlat
  ar : Option (Nat × Nat)
  spq : List Beat
  spOut : List Beat
  answered : List (Beat × BitVec 512 × Bool)
  stopped : Bool
  ofs : Int
  ofsAt : Nat
  lastDt : Nat
  deriving DecidableEq, Repr

/-- What the netlist fixes of a pier (R9, R240, R320, R483, R496): number, router (8 x row + column), agents in local
order with SP_SIZE, privileged or not. -/
structure PierNet where
  pier : Nat
  router : Nat
  agents : List (Nat × Nat)
  priv : Bool
  deriving DecidableEq, Repr

/-- The netlist. -/
structure Netlist where
  piers : List PierNet
  bootId : Nat
  deriving DecidableEq, Repr

/-- A release record with RVALID set (R256). -/
structure RelRec where
  agent : Nat
  pier : Nat
  die : Nat
  scope : Nat
  deriving DecidableEq, Repr

/-- A signal record with SVALID set (R455). -/
structure SigRec where
  agent : Nat
  die : Nat
  dt : Nat
  mar : Bool
  deriving DecidableEq, Repr

/-- A waiter entry (R97) with the command it stands for, its table place, its segment (R502), the watchdog deadline of
a NOTO entry (R386) and the cause first recorded against it (R79). -/
structure Waiter where
  cmd : Cmd
  target : Word
  table : Nat
  entry : Nat
  seg : Nat
  wdog : Nat
  cause : Option (Nat × Nat)
  deriving DecidableEq, Repr

/-- What an import window has put in the place of a command's tenant, object number and epoch (R360). -/
structure Import where
  tenant : Nat
  obj : Nat
  epoch : Nat
  deriving DecidableEq, Repr

/-- What reaches a handle bank (R37): a command or a staging entry, whether its pier missed it in its translation cache (R35), and
what an import window has substituted in it (R360); a time frame; in the paging queue also the setting of CBOUND for OPEN and CLOSE
(R217, R219); at a slice also the value of a Marionette SETVAL (R460). -/
inductive HomeItem where
  | cmd (c : Cmd) (miss : Bool) (imp : Option Import)
  | stage (tag : Nat) (e : REntry) (c : Cmd) (miss : Bool) (imp : Option Import)
  | frame (h : Hdr) (obj : Nat) (phase : Bool) (t : Nat)
  | cbound (ctx : Nat) (set : Bool)
  | setval (v : Word)
  deriving DecidableEq, Repr

/-- An occupied slot: object record (R21), slot tag (R22), release record, signal record, last-signal time (R47),
waiters in age order (R100), member windows (R140), and the marks that hold it. -/
structure Slot where
  value : Word
  kind : Kind
  param : BitVec 48
  paired : Bool
  poison : Bool
  role : Bool
  cbound : Bool
  ovr : Nat
  tenant : Nat
  epoch : Nat
  obj : Nat
  rel : Option RelRec
  sig : Option SigRec
  lastSig : Nat
  waiters : List Waiter
  /-- segments that hold entries, oldest first: number, table, entries placed (R502) -/
  segs : List (Nat × Nat × Nat)
  members : List (BitVec 512 × BitVec 512)
  /-- route tags under which it is pending (R172) -/
  pend : List Nat
  /-- try-once waits held beside it (R173) -/
  tries : List Cmd
  /-- REL commands of staged entries, whose record is written at commit (R256) -/
  stagedRel : List (Nat × RelRec)
  /-- an ARRIVE_COMBINE is recorded in the open phase (R133) -/
  combine : Bool
  /-- an abort report is kept for the open phase (R138) -/
  aborted : Bool
  /-- what the combine report brought for the phase's replies: chunks and flags (R211, R229) -/
  result : Option (Nat × Nat)
  /-- on the release list, with the tick at which it completes: TREL, or later under R117 -/
  due : Option Nat
  /-- its pass is paused for want of pool room (R112) -/
  paused : Bool
  /-- what stands in the slice input queue behind the paused pass (R103), each with its word of the queue's memory -/
  inq : List (Nat × HomeItem)
  deriving DecidableEq, Repr

/-- Handle-table states (R33). -/
inductive HState where
  | unallocated | resident | backed | transit
  deriving DecidableEq, Repr

/-- A handle-table entry (R33). -/
structure HEntry where
  state : HState
  slice : Nat
  slot : Nat
  kind : Kind
  deriving DecidableEq, Repr

/-- What travels beside a BACKED object's image (R138, R172, R256): release record, route tags pending, an abort report kept. -/
structure ImgSide where
  rel : Option RelRec
  pend : List Nat
  stagedRel : List (Nat × RelRec)
  aborted : Bool
  deriving DecidableEq, Repr

/-- An entry of the paging queue: the handle-table index, its word of the queue's memory, the item, and whether a page-in was
attempted for it and found no unpinned slot (R50). -/
structure PgItem where
  index : Nat
  word : Nat
  item : HomeItem
  tried : Bool
  deriving DecidableEq, Repr

/-- A page-in in progress (R37, R49): handle-table index of the object coming in, its tenant and number, the slot and member
windows claimed for it, and the index of the object evicted for it. Both entries are in TRANSIT. -/
structure Move where
  index : Nat
  tenant : Nat
  obj : Nat
  key : Nat
  windows : Nat
  victim : Option Nat
  deriving DecidableEq, Repr

/-- Slices, banks and paging. -/
structure Sema where
  slots : SMap Slot
  htm : SMap HEntry
  imgs : SMap ImgSide
  /-- transit queues of the banks, in arrival order, with the handle-table index and the word of the queue's memory -/
  transit : List (Nat × Nat × HomeItem)
  /-- items held at the banks until HTM_READY (R56) -/
  early : List HomeItem
  paging : List PgItem
  /-- handle-table indices held for firmware after TAG_UE (R391) -/
  rebuild : List Nat
  /-- page-ins in progress, oldest first -/
  moves : List Move
  /-- words of the slice input queues (slice, word), by the time they were last taken, oldest first -/
  inqAge : List (Nat × Nat)
  deriving DecidableEq, Repr

/-- A wake or reply bound for a pier (R108), with the kind of its object (R435). -/
structure Wake where
  cmd : Cmd
  reply : Reply
  kind : Kind
  deriving DecidableEq, Repr

/-- A batch of the wake pool (R109): the slice that posted it, its word of the pool's memory, and its wakes. -/
structure Batch where
  slice : Nat
  word : Nat
  wakes : List Wake
  deriving DecidableEq, Repr

/-- Wake emission (R109 to R115): wakes at the slices' own ports, the pool (oldest first), the window's number and
what is left of its budget (none: no limit), and whether pacing held a wake back in it. -/
structure WakeU where
  ports : SMap (List Wake)
  pool : List Batch
  window : Nat
  budget : Option Nat
  heldBack : Bool
  deriving DecidableEq, Repr

/-- Messages under way on Girder that a command of the table delivers. -/
structure Girder where
  fills : List (Nat × Xlat)
  invs : List (Nat × Xlat)
  /-- wakes, with the slice that emitted each -/
  wakes : List (Nat × Wake)
  cancels : List (Cmd × Nat)
  notices : List (Nat × Cmd × Verdict)
  /-- combine reports: context, tenant with its epoch, object number, aborted or not (R138) -/
  reports : List (Nat × (Nat × Nat) × Nat × Bool)
  /-- staging reports: the slice that sent each (64: firmware), tag, entry and status -/
  sreports : List (Nat × Nat × Nat × Status)
  /-- commits: tag, destination and the router of the coordinator -/
  commits : List (Nat × CommitTo × Nat)
  /-- operations of other dies that wait for a place of a slice input queue (R125): the handle-table index, and the item -/
  stalled : List (Nat × HomeItem)
  deriving DecidableEq, Repr

/-- A part coordinated on this die (R168, R170): its tag, command, source of a remote part (port, die, the issuing
die's tag), entries with the report of each and whether it awaits re-presentation, and where they were staged. -/
structure Part where
  tag : Nat
  cmd : Cmd
  origin : Option (Nat × Nat × Nat)
  entries : List (REntry × Option Status)
  retry : List (Nat × Nat)
  staged : List (Nat × CommitTo × Nat)
  deriving DecidableEq, Repr

/-- A ROUTE whose part reports are being gathered at the issuing pier (R177): parts outstanding (die, tag), those to
be sent again after a REFUSE (die, due), failed entries with their status, latest commit time. -/
structure Gather where
  cmd : Cmd
  waiting : List (Nat × Nat)
  resend : List (Nat × Nat)
  failed : List (Nat × Status)
  dt : Option Nat
  /-- QSEQ of each remote part, by die (R288) -/
  qseqs : List (Nat × Nat)
  deriving DecidableEq, Repr

structure RouteU where
  parts : List Part
  gathers : List Gather
  nextTag : Nat
  deriving DecidableEq, Repr

/-- A Trestle lane (R155 to R165). Pending arrivals are held as their commands; a SPLIT arrival is not pending. -/
structure Lane where
  phase : Bool
  raised : List Nat
  waiting : List Cmd
  armed : Option Nat
  /-- completion tick of an armed lane, TREL or later under R117 -/
  due : Option Nat
  broken : Bool
  /-- this die's wire frame of the open phase is sent (R164) -/
  sent : Bool
  /-- dies whose wire frame of the open phase is held (R163) -/
  frames : List Nat
  /-- FORCELANE marked the local AND complete (R462) -/
  forced : Bool
  /-- TRS_LEN writes that wait for the next phase (R164): word and value -/
  lenNext : SMap Word
  deriving DecidableEq, Repr

/-- States of an open context entry (R224). -/
inductive CtxSt where
  | open | active | closed
  deriving DecidableEq, Repr

/-- A local participant of the current phase: its command, PIDX, SRC and DST, whether the home slice accepted it, the
payload beats read and asked for, and the result beats not yet confirmed. -/
structure Particip where
  cmd : Cmd
  pidx : Nat
  src : Nat
  dst : Nat
  accepted : Bool
  beats : SMap (BitVec 512)
  asked : List Nat
  left : Nat
  final : Bool
  deriving DecidableEq, Repr

/-- An open entry of the context table (R214, R215, R218) with the state of its phase. -/
structure Ctx where
  root : Bool
  desc : Word
  bhandle : Nat
  tenant : Nat
  n : Nat
  closed1 : Bool
  dies : Word
  eloc : Nat
  lmax : Nat
  pcap : Nat
  buf : Nat
  chunkSize : Nat
  chunks : Nat
  st : CtxSt
  phase : Bool
  parts : List Particip
  chunk : Nat
  /-- root: accepted arrivals of each die in the phase (R226) -/
  counts : SMap Nat
  /-- ROOTCLOSED: the close count of a stage, or the root's closing by the barrier -/
  closeAt : Option Nat
  /-- partial elements received for the chunk, by die, and the dies whose partial is whole (root) -/
  partials : SMap (List Elem)
  whole : List Nat
  /-- results of the phase so far: bytes of the region not yet written from the last whole beat on (with the offset of
  the first of them), index words, histogram bins -/
  carry : List Byte
  carryAt : Nat
  resPos : List Nat
  bins : List Nat
  /-- arithmetic status word of the phase so far (R210), with the first offender -/
  arith : Word
  offender : Option (Pos × Nat × Nat)
  /-- the last chunk's results are being written (R231) -/
  writing : Bool
  /-- the root has reported them written (R231) -/
  reported : Bool
  /-- the phase aborted and the barrier has not yet completed it (R138, R233) -/
  aborted : Bool
  deriving DecidableEq, Repr

/-- A unit's place in its arbitration (R236): the tenant whose quantum is being served, what is left of it, and the context each
tenant was last served for. -/
structure Arb where
  tenant : Nat
  left : Nat
  ctxs : SMap Nat
  deriving DecidableEq, Repr

/-- Abacus units: open entries, the window's arbitration weights (1 where none is listed), the payload beats each unit has yet to
pull, and its place in the arbitration (R236). -/
structure Abc where
  ctxs : SMap Ctx
  weights : SMap Nat
  window : Nat
  want : SMap (List Beat)
  /-- partial segments that have come to each unit and wait for their turn (R236), oldest first -/
  waitParts : SMap (List (Hdr × CSeg × List Elem))
  arb : SMap Arb
  /-- the OPEN (with the entry it opens) or CLOSE that waits for CBOUND to be written (R217, R219) -/
  pendCmd : Option (Nat × Option Ctx)
  deriving DecidableEq, Repr

/-- Link states (R291). -/
inductive LinkSt where
  | off | pmaTune | align | init | up | down | failed
  deriving DecidableEq, Repr

/-- A flit as sent (R278): type, sequence number of a sequenced flit, SSTART and body. -/
structure Flit where
  ftype : Nat
  seq : Nat
  sstart : Nat
  body : List Word
  deriving DecidableEq, Repr

/-- A flit in the replay buffer (R283): attempts made and Deck Time of the first. -/
structure Replay where
  flit : Flit
  attempts : Nat
  first : Nat
  deriving DecidableEq, Repr

/-- A held remote command (R263 to R266, R288): the message, arrival, hold limit, and whether it was held for its
delivered-write count (rather than behind another). -/
structure Held where
  env : Envelope
  arrival : Nat
  limit : Nat
  rdata : Bool
  deriving DecidableEq, Repr

/-- A Viaduct port. -/
structure Port where
  st : LinkSt
  since : Nat
  fails : Nat
  txSeq : Nat
  rxSeq : Nat
  nakOut : Bool
  /-- sequenced flits are discarded until the expected one arrives (R284) -/
  skipping : Bool
  replay : List Replay
  /-- flits to be sent again after a NAK (R284), as sequence numbers -/
  resend : List Nat
  /-- the message begun in an earlier flit (R280): sub-channel 2 x VC + SUB, destination die, words left -/
  txOpen : Option (Nat × Nat × List Word)
  /-- messages queued for this port at message level, oldest first -/
  sent : List Envelope
  rrVc : Nat
  /-- words of the message being received and messages received whole (R280) -/
  rxPart : List Word
  rxMsgs : List (List Word)
  /-- credits to return, by sub-channel, in 8-byte units (R287) -/
  owed : SMap Nat
  lastTx : Option (BitVec 1360)
  lastGood : Nat
  locked : Bool
  unlockedAt : Nat
  missed : Nat
  service : Bool
  /-- codewords since the last alignment codeword received and since the last one sent (R275) -/
  rxCw : Nat
  txCw : Nat
  initOk : Bool
  hold : List Held
  /-- expected QSEQ (R288), keyed by 8192 x die + 4 x agent + queue -/
  qexp : SMap Nat
  /-- QSEQ numbers of commands refused back under TRY, which will not come again (R90, R288), under the same keys -/
  gone : List (Nat × Nat)
  /-- messages held for the thaw (R305, R306), oldest first -/
  captured : List Envelope
  /-- messages held for the thaw that do not belong to the cut: what came after the MARKER, and at a port not UP at the freeze tick -/
  later : List Envelope
  /-- NOTICE flits and a MARKER to be sent (R300, R304) -/
  notes : List Notice
  mark : Option Nat
  deriving DecidableEq, Repr

/-- A mirror record outstanding (R308): its serial number, the object's slot, the command and reply it holds back, its port, and
for a staged ROUTE entry its part's tag and its index, whose staging report it holds back. -/
structure MirrorOut where
  serial : Nat
  key : Nat
  cmd : Option Cmd
  reply : Option Reply
  port : Nat
  stage : Option (Nat × Nat)
  /-- its object still stands in the slot -/
  live : Bool
  deriving DecidableEq, Repr

/-- Span group knowledge (R299, R300, R330): notices seen, port states of other dies (8 x die + port), next notice
number, dies known ALIGNED or FAILED, mirror records outstanding and the next serial number. -/
structure Span where
  seen : List (Nat × Nat)
  links : SMap Nat
  nextNotice : Nat
  aligned : List Nat
  mirror : List MirrorOut
  serial : Nat
  /-- broken tenants that this die has reset since (R311) -/
  mirDone : List Nat
  deriving DecidableEq, Repr

/-- The Deck Time unit beside its registers: residual to slew in sixteenths, last phase step, ALIGN time, exchanges in
a row within 0.25 ns, exchange number, last exchange time, largest COARSE stamp, measurement in progress (none, all or
one pier) with the time it began and the piers that have failed in it (R324), and the last jump of the counter, its values before
and after (R331, R337). -/
structure DtU where
  slew : Int
  lastSlew : Nat
  alignAt : Nat
  good : Nat
  xseq : Nat
  lastReq : Nat
  maxCoarse : Nat
  measure : Option (Option Nat)
  answered : Bool
  measAt : Nat
  failed : List Nat
  jump : Option (Nat × Nat)
  deriving DecidableEq, Repr

/-- A source switch in progress (R404): target input and whether the source has changed. -/
structure Switch where
  target : Bool
  changed : Bool
  deriving DecidableEq, Repr

/-- Clocks, reset and droop: cold reset in progress, initialisation done, DROOP_WARN, time of the last ramp step, the
switch, time of the gate request that waits for its handshake, ECLK inputs found lost and not back (R407). -/
structure ClkU where
  inReset : Bool
  memInit : Bool
  droop : Bool
  lastStep : Nat
  switch : Option Switch
  gateAt : Option Nat
  lost0 : Bool
  lost1 : Bool
  deriving DecidableEq, Repr

/-- Why the bridge-keeper is stopped (R421, R427, R391). -/
inductive FwStop where
  | running | unreleased | imemUe | update
  deriving DecidableEq, Repr

/-- The bridge-keeper: why it is stopped, whether it has been released since reset (R421), last heartbeat, image measurement running,
memories by word. -/
structure FwU where
  stop : FwStop
  released : Bool
  beatAt : Nat
  measuring : Bool
  imem : SMap Word
  dmem : SMap Word
  deriving DecidableEq, Repr

/-- A sample record being written (R441): ring bytes. -/
structure ObsU where
  /-- freeze tick in force, and thaw tick once given -/
  frzT : Nat
  /-- ports that were UP at the freeze tick and still owe a MARKER (R305) -/
  cut : List Nat
  thawH : Option Nat
  sampleNo : Nat
  lastSample : Nat
  lostFlag : Bool
  /-- a sample has been lost since the record being written was begun (R442) -/
  lostNext : Bool
  /-- bytes of the sample record being written -/
  writing : Option (List Byte)
  /-- start cycle of a clear: range whose reads return the value before it (R439) -/
  clearing : Option (Nat × Nat × SMap Word)
  wrapped : List Nat
  collector : List (List Word)
  trWriting : Bool
  sncmd : Option (Bool)
  /-- management commands accepted during a freeze, to be executed after thaw (R449) -/
  deferred : List Instr
  /-- commands a CANCEL_Q has sent a cancel for, by place in the queues and issue time (R461) -/
  marked : List (Nat × Nat)
  deriving DecidableEq, Repr

/-- Tenant states (R341). -/
inductive TenSt where
  | active | quiescing | quiesced | resetting
  deriving DecidableEq, Repr

/-- A tenant on this die: state, state to return to, epoch with the die on which the forced reset that gave it was commanded (R358),
FREEALL of the reset in progress. -/
structure Tenant where
  st : TenSt
  ret : TenSt
  epoch : Nat
  origin : Nat
  freeall : Bool
  deriving DecidableEq, Repr

/-- A word whose check bits were inverted by an injection (R394): block, target, unit, index, two bits or one. -/
structure BadWord where
  block : Nat
  target : Nat
  unit : Nat
  index : Nat
  two : Bool
  deriving DecidableEq, Repr

/-- The fault blocks beside their registers: level reactions of each sticky bit (key 16 x block + source), sealed sticky
bits, shadows not yet ended (block, opening and closing time) in order of opening, block resets asked for and not yet begun (block,
DETAIL + 2^30 x source), those put off by a freeze, FLT_CRQ, DEGRADED, inverted words. -/
structure FltU where
  levels : SMap Nat
  sealedBits : SMap Nat
  shadows : List (Nat × Nat × Nat)
  resets : List (Nat × Nat)
  putOff : List (Nat × Nat)
  crq : Bool
  degraded : Bool
  bad : List BadWord
  /-- slots of paired objects whose two copies differ (R393) -/
  differ : List Nat
  deriving DecidableEq, Repr

/-- The machine. -/
structure State where
  /-- commands that wait, first in, first out -/
  pending : List Instr
  /-- the Deck Time counter (R315) -/
  now : Nat
  net : Netlist
  rf : SMap Word
  agents : SMap Agent
  piers : SMap Pier
  sema : Sema
  wk : WakeU
  gir : Girder
  rt : RouteU
  lanes : SMap Lane
  abc : Abc
  ports : SMap Port
  span : Span
  dt : DtU
  clk : ClkU
  fw : FwU
  obs : ObsU
  tens : SMap Tenant
  flt : FltU
  /-- external memory as the master port sees it (R489) -/
  mem : List Host.Cell
  /-- MODEL'S OWN: counter of the free values (log entry 3) -/
  fresh : Nat
  /-- counter of the commands issued and of the heads that stalled (R88, R349) -/
  order : Nat
  /-- the pier whose stalled heads had the last turn at a router (R349) -/
  turn : SMap Nat
  deriving DecidableEq, Repr

/-- Reasons for a fault. No command of the block stops the machine: failures are statuses and fault records (R91,
R377). -/
inductive Fault where
  /-- Raised by nothing: safe, because no step can answer it. -/
  | unreachable
  deriving DecidableEq, Repr

/-- Reasons for a refusal. -/
inductive Refusal where
  /-- The command has no meaning in the model yet. Raised by an arm of exec alone; safe. -/
  | notModelled (mnemonic : String)
  deriving DecidableEq, Repr

/-- The reference netlist of log entry 4: 225 piers and 1,800 agents, as the Tamsen table of The Engine on Its Die
counts them. Pier p sits on router p mod 64; its agents are numbered on from 8 x p; SP_SIZE is 20. The first 32 piers
are privileged. -/
def Netlist.reference : Netlist :=
  { piers := (List.range 225).map fun p =>
      { pier := p, router := p % 64, agents := (List.range 8).map fun g => (8 * p + g, 20), priv := decide (p < 32) }
    bootId := 1 }

/-- The machine at the end of a power-on reset: every register at its reset value, every unit empty (R417). -/
def State.reset : State :=
  { pending := [], now := 0, net := Netlist.reference, rf := [], agents := [], piers := []
    sema := ⟨[], [], [], [], [], [], [], [], []⟩
    wk := ⟨[], [], 0, none, false⟩
    gir := ⟨[], [], [], [], [], [], [], [], []⟩
    rt := ⟨[], [], 0⟩
    lanes := []
    abc := ⟨[], [], 0, [], [], [], none⟩
    ports := []
    span := ⟨[], [], 0, [], [], 0, []⟩
    dt := ⟨0, 0, 0, 0, 0, 0, 0, none, false, 0, [], none⟩
    clk := ⟨false, false, false, 0, none, none, false, false⟩
    fw := ⟨.unreleased, false, 0, false, [], []⟩
    obs := ⟨0, [], none, 0, 0, false, false, none, none, [], [], false, none, [], []⟩
    tens := []
    flt := ⟨[], [], [], [], [], false, false, [], []⟩
    mem := [], fresh := 0, order := 0, turn := [] }

end Sys2Proof.Machine
end

