-- ==== Sys2Proof/Machine/Bits.lean ====
section
/-! DEFINITION. Bit fields of words, sparse tables, and the list helpers the meanings share. -/
namespace Sys2Proof.Machine

/-- Bits [lo + n - 1 : lo] of a word, as a number. -/
def wbits (w : Word) (lo n : Nat) : Nat := w.toNat / 2 ^ lo % 2 ^ n

/-- The word with bits [lo + n - 1 : lo] replaced by v (taken modulo 2^n). -/
def wput (w : Word) (lo n v : Nat) : Word :=
  (w &&& ~~~(BitVec.ofNat 64 ((2 ^ n - 1) * 2 ^ lo))) ||| BitVec.ofNat 64 (v % 2 ^ n * 2 ^ lo)

/-- Bit i of a number. -/
def nbit (x i : Nat) : Bool := x.testBit i

/-- A number of Bool. -/
def b2n (b : Bool) : Nat := if b then 1 else 0

/-- A word with the low bits of x. -/
abbrev w64 (x : Nat) : Word := BitVec.ofNat 64 x

/-- Two's complement reading of the low n bits of x. -/
def sext (n x : Nat) : Int :=
  let y := x % 2 ^ n
  if n = 0 then 0 else if y < 2 ^ (n - 1) then (y : Int) else (y : Int) - (2 ^ n : Nat)

/-- The word whose value is the integer, modulo 2^64. -/
def wOfInt (i : Int) : Word := BitVec.ofInt 64 i

/-- What a sparse table holds at a key. -/
def mget {α : Type} : SMap α → Nat → Option α
  | [], _ => none
  | (k', v) :: r, k => if k' = k then some v else mget r k

/-- A sparse table with a value put at a key, the keys kept rising. -/
def mput {α : Type} : SMap α → Nat → α → SMap α
  | [], k, v => [(k, v)]
  | (k', v') :: r, k, v =>
    if k < k' then (k, v) :: (k', v') :: r
    else if k = k' then (k, v) :: r
    else (k', v') :: mput r k v

/-- A sparse table without a key, wherever it stands. -/
def mdel {α : Type} : SMap α → Nat → SMap α
  | [], _ => []
  | (k', v') :: r, k => if k' = k then mdel r k else (k', v') :: mdel r k

/-- What a sparse table with a default holds at a key. -/
def mgetD {α : Type} (m : SMap α) (k : Nat) (d : α) : α := (mget m k).getD d

/-- A sparse table with a default: putting the default removes the entry. -/
def mset {α : Type} [DecidableEq α] (m : SMap α) (k : Nat) (d v : α) : SMap α :=
  if v = d then mdel m k else mput m k v

/-- A list of numbers without repeats, in rising order, with x in it. -/
def insNat : List Nat → Nat → List Nat
  | [], x => [x]
  | y :: r, x => if x < y then x :: y :: r else if x = y then y :: r else y :: insNat r x

/-- A list without its element at a place. -/
def dropAt {α : Type} (l : List α) (i : Nat) : List α := l.eraseIdx i

/-- The first element that meets a test, with the list without it. -/
def takeFirst {α : Type} (p : α → Bool) : List α → Option (α × List α)
  | [] => none
  | x :: r => if p x then some (x, r) else (takeFirst p r).map fun (y, r') => (y, x :: r')

/-- The same for messages under way: none where another goes before it on its way, from the same source to the same destination (R12). -/
def takeInOrder {α β : Type} [DecidableEq β] (way : α → β) (p : α → Bool) (l : List α) : Option (α × List α) :=
  match takeFirst p l with
  | none => none
  | some (x, rest) => if (l.takeWhile fun y => !p y).any fun y => decide (way y = way x) then none else some (x, rest)

/-- A list with the first element that meets a test changed. -/
def mapFirst {α : Type} (p : α → Bool) (f : α → α) : List α → List α
  | [] => []
  | x :: r => if p x then f x :: r else x :: mapFirst p f r

/-- How many elements meet a test. -/
def count {α : Type} (p : α → Bool) (l : List α) : Nat := (l.filter p).length

/-- The sum of a measure over a list. -/
def sumBy {α : Type} (f : α → Nat) (l : List α) : Nat := l.foldl (fun n x => n + f x) 0

/-- The greatest value of a measure over a list, 0 for none. -/
def maxBy {α : Type} (f : α → Nat) (l : List α) : Nat := l.foldl (fun n x => max n (f x)) 0

/-- Pieces of at most k + 1 elements, in order; the first argument bounds how many pieces. -/
def piecesAux {α : Type} (k : Nat) : Nat → List α → List (List α)
  | 0, _ => []
  | _ + 1, [] => []
  | n + 1, l => l.take (k + 1) :: piecesAux k n (l.drop (k + 1))

/-- Pieces of at most k elements (k > 0), in order. -/
def pieces {α : Type} (k : Nat) (l : List α) : List (List α) := piecesAux (k - 1) l.length l

/-- The bytes of a number, least significant first. -/
def bytesOf : Nat → Nat → List Byte
  | 0, _ => []
  | n + 1, x => BitVec.ofNat 8 x :: bytesOf n (x / 256)

/-- The number that bytes spell, least significant first. -/
def ofBytes : List Byte → Nat
  | [] => 0
  | b :: r => b.toNat + 256 * ofBytes r

/-- Elements of a member window set in a bit vector of 512 or of a word: the numbers below n whose bit is 1. -/
def bitsSet (n x : Nat) : List Nat := (List.range n).filter fun i => x.testBit i

/-- The number of ones among the low n bits. -/
def popc (n x : Nat) : Nat := (bitsSet n x).length

end Sys2Proof.Machine
end

