-- ==== Sys2Proof/Machine/Codec.lean ====
section
/-! DEFINITION. The codeword of a link (R274, R276, R277): RS(136,128) over GF(2^10) and the CRC-24 of a flit. Symbol i of a
codeword is the coefficient of x^(135 - i) (log entry 14). Polynomials are lists of coefficients, lowest first. -/
namespace Sys2Proof.Machine

/-- x a in the field of x^10 + x^3 + 1. -/
def gfDouble (a : Nat) : Nat := if 512 ≤ a then (2 * a) ^^^ 0x409 else 2 * a

def gfMulAux (a b : Nat) : Nat → Nat
  | 0 => 0
  | n + 1 => (if b.testBit (10 - (n + 1)) then a else 0) ^^^ gfMulAux (gfDouble a) b n

/-- The product of two field elements. -/
def gfMul (a b : Nat) : Nat := gfMulAux a b 10

/-- Powers. -/
def gfPow (a : Nat) : Nat → Nat
  | 0 => 1
  | n + 1 => gfMul a (gfPow a n)

/-- a^(2^k). -/
def gfSq (a : Nat) : Nat → Nat
  | 0 => a
  | k + 1 => gfSq (gfMul a a) k

/-- The inverse: a^1022 = a^2 a^4 ... a^512. -/
def gfInv (a : Nat) : Nat := (List.range 9).foldl (fun p k => gfMul p (gfSq a (k + 1))) 1

/-- Addition and scaling of polynomials. -/
def polyAdd : List Nat → List Nat → List Nat
  | [], b => b
  | a, [] => a
  | x :: a, y :: b => (x ^^^ y) :: polyAdd a b

def polyScale (c : Nat) (a : List Nat) : List Nat := a.map (gfMul c)

def polyMul : List Nat → List Nat → List Nat
  | [], _ => []
  | x :: a, b => polyAdd (polyScale x b) (0 :: polyMul a b)

/-- The value at a point. -/
def polyAt (a : List Nat) (x : Nat) : Nat := a.foldr (fun c acc => c ^^^ gfMul x acc) 0

/-- The generator g(x), its coefficients from x^7 down to x^0, the leading 1 left out. -/
def rsGen : List Nat :=
  ((List.range 8).foldl (fun g i => polyMul g [gfPow 2 i, 1]) [1]).reverse.drop 1

/-- One data symbol into the remainder register, highest coefficient first. -/
def rsShift (g r : List Nat) (d : Nat) : List Nat :=
  let f := d ^^^ r.headD 0
  List.zipWith (fun a b => a ^^^ gfMul f b) (r.drop 1 ++ [0]) g

/-- The 8 parity symbols of 128 data symbols. -/
def rsParity (data : List Nat) : List Nat :=
  let g := rsGen
  data.foldl (rsShift g) (List.replicate 8 0)

/-- The syndromes of 136 symbols. -/
def rsSyndromes (cw : List Nat) : List Nat :=
  (List.range 8).map fun j => let a := gfPow 2 j; cw.foldl (fun acc c => gfMul acc a ^^^ c) 0

/-- The state of the search for the error locator: locator, last locator, length, shift, last discrepancy. -/
structure RsBm where
  c : List Nat
  b : List Nat
  l : Nat
  m : Nat
  d : Nat
  deriving DecidableEq, Repr

/-- One step of the search, on syndrome n. -/
def rsBmStep (syn : List Nat) (x : RsBm) (n : Nat) : RsBm :=
  let disc := (List.range (x.l + 1)).foldl (fun acc i => acc ^^^ gfMul (x.c.getD i 0) (syn.getD (n - i) 0)) 0
  if disc = 0 then { x with m := x.m + 1 }
  else
    let c' := polyAdd x.c (List.replicate x.m 0 ++ polyScale (gfMul disc (gfInv x.d)) x.b)
    if 2 * x.l ≤ n then ⟨c', x.c, n + 1 - x.l, 1, disc⟩ else { x with c := c', m := x.m + 1 }

/-- What a codeword decodes to: its 128 data symbols and the symbols corrected, or none where it cannot be corrected. -/
def rsDecode (cw : List Nat) : Option (List Nat × List Nat) :=
  let syn := rsSyndromes cw
  if syn.all (fun x => decide (x = 0)) then some (cw.take 128, [])
  else
    let x := (List.range 8).foldl (rsBmStep syn) ⟨[1], [1], 0, 1, 1⟩
    let at_ (i : Nat) : Nat := gfInv (gfPow 2 (135 - i))
    let bad := (List.range 136).filter fun i => decide (polyAt x.c (at_ i) = 0)
    if 4 < x.l ∨ bad.length ≠ x.l then none
    else
      let omega := (polyMul syn x.c).take 8
      let deriv := (List.range x.c.length).drop 1 |>.map fun i => if i % 2 = 1 then x.c.getD i 0 else 0
      let fix (cw : List Nat) (i : Nat) : List Nat :=
        let z := at_ i
        let e := gfMul (gfPow 2 (135 - i)) (gfMul (polyAt omega z) (gfInv (polyAt deriv z)))
        cw.set i (cw.getD i 0 ^^^ e)
      let cw' := bad.foldl fix cw
      if (rsSyndromes cw').all (fun x => decide (x = 0)) then some (cw'.take 128, bad) else none

/-- The symbols of a number, and the number of symbols. -/
def symbolsOf (n x : Nat) : List Nat := (List.range n).map fun i => x / 2 ^ (10 * i) % 1024
def ofSymbols (l : List Nat) : Nat := l.foldr (fun s acc => s + 1024 * acc) 0

/-- One bit into the CRC register (R277). -/
def crcBit (r : Nat) (b : Bool) : Nat :=
  let top := r.testBit 23 != b
  let r' := 2 * r % 2 ^ 24
  if top then r' ^^^ 0x864CFB else r'

def crcByte (r x : Nat) : Nat := (List.range 8).foldl (fun r i => crcBit r (x.testBit (7 - i))) r

/-- The CRC of the first n bytes of a number. -/
def crcOf (n x : Nat) : Nat := (List.range n).foldl (fun r i => crcByte r (x / 2 ^ (8 * i) % 256)) 0xB704CE

end Sys2Proof.Machine
end

