-- ==== Sys2Proof/Machine/Arith.lean ====
section
/-! DEFINITION. The combine arithmetic (R183 to R213). A floating node carries, beside its value, what R199 to R201 decide
from the leaves as a set: the earliest NaN, zero-times-infinity, +INF and -INF positions, and whether a leaf was flushed. -/
namespace Sys2Proof.Machine

/-! The arithmetic descriptor (R183). -/
def dOp (d : Word) : Nat := wbits d 0 4
def dIfmt (d : Word) : Nat := wbits d 4 4
def dOfmt (d : Word) : Nat := wbits d 8 4
def dFin (d : Word) : Bool := nbit d.toNat 12
def dFout (d : Word) : Bool := nbit d.toNat 13
def dSat (d : Word) : Bool := nbit d.toNat 14
def dHist (d : Word) : Bool := nbit d.toNat 15
def dHbase (d : Word) : Int := sext 12 (wbits d 16 12)

abbrev oSum : Nat := 0
abbrev oWsum : Nat := 1
abbrev oMax : Nat := 2
abbrev oMin : Nat := 3
abbrev oAmax : Nat := 4
abbrev oArgmax : Nat := 5
abbrev oHisto : Nat := 9

/-- AND, OR or XOR. -/
def isBitwise (op : Nat) : Bool := decide (6 ≤ op) && decide (op ≤ 8)
/-- SUM, WSUM or HISTO. -/
def isAdding (op : Nat) : Bool := decide (op = 0) || decide (op = 1) || decide (op = 9)

/-- Floating format codes are 0 to 9, integer codes 0xA to 0xE (R184). -/
def isFloat (f : Nat) : Bool := decide (f ≤ 9)
def isInt (f : Nat) : Bool := decide (10 ≤ f) && decide (f ≤ 14)

/-- Bits of an element of a format (R186, R498). -/
def fmtBits (f : Nat) : Nat :=
  match f with
  | 0 => 64 | 1 => 32 | 2 => 16 | 3 => 16 | 4 => 8 | 5 => 8 | 6 => 6 | 7 => 6 | 8 => 4 | 9 => 8
  | 10 => 64 | 11 => 32 | 12 => 16 | 13 => 8 | 14 => 64 | _ => 8

/-- A descriptor and an element count obey R185. -/
def descLegal (d : Word) (n : Nat) : Bool :=
  let op := dOp d
  let i := dIfmt d
  let o := dOfmt d
  let int := isInt i
  decide (op ≤ 9) && decide (i ≠ 15) && decide (o ≠ 15) && (isFloat i == isFloat o)
    && (!isBitwise op || (int && decide (i = o)))
    && (!decide (op = oHisto) || (decide (i = 11) && decide (o = 11) && !dHist d && decide (n % 64 = 0)))
    && (!int || (!dFin d && !dFout d && decide (dHbase d = 0)))

/-! Formats (R186). -/

/-- A floating format: exponent bits, fraction bits, bias, infinities, largest exponent and largest significand there,
the NaN written. -/
structure Fmt where
  bits : Nat
  ebits : Nat
  fbits : Nat
  bias : Nat
  infs : Bool
  emax : Int
  qmax : Nat
  nan : Option Nat
  deriving DecidableEq, Repr

def fmtOf (f : Nat) : Fmt :=
  match f with
  | 0 => ⟨64, 11, 52, 1023, true, 1023, 2 ^ 53 - 1, some 0x7FF8000000000000⟩
  | 1 => ⟨32, 8, 23, 127, true, 127, 2 ^ 24 - 1, some 0x7FC00000⟩
  | 2 => ⟨16, 5, 10, 15, true, 15, 2 ^ 11 - 1, some 0x7E00⟩
  | 3 => ⟨16, 8, 7, 127, true, 127, 2 ^ 8 - 1, some 0x7FC0⟩
  | 4 => ⟨8, 4, 3, 7, false, 8, 14, some 0x7F⟩
  | 5 => ⟨8, 5, 2, 15, true, 15, 7, some 0x7E⟩
  | 6 => ⟨6, 3, 2, 3, false, 4, 7, none⟩
  | 7 => ⟨6, 2, 3, 1, false, 2, 15, none⟩
  | 8 => ⟨4, 2, 1, 1, false, 2, 3, none⟩
  | _ => ⟨8, 8, 0, 127, false, 127, 1, some 0xFF⟩

/-- Significand bits. -/
def Fmt.p (f : Fmt) : Nat := f.fbits + 1
/-- Least normal exponent; E8M0 holds 2^-127 with field 0 (R186). -/
def Fmt.emin (f : Fmt) : Int := if f.fbits = 0 then -127 else 1 - f.bias

/-- A number with its leading one brought to bit 63: value x * 2^e0. -/
def normal (s : Bool) (x : Nat) (e0 : Int) : FVal :=
  if x = 0 then .zero s else .fin s (e0 + (Nat.log2 x : Int)) (x * 2 ^ (63 - Nat.log2 x))

/-- An input element or weight in the internal form, and whether it was flushed (R186, R188, R189). -/
def decodeF (code : Nat) (flush : Bool) (raw : Nat) : FVal × Bool :=
  if code = 9 then
    if raw = 255 then (.nan, false) else (.fin false ((raw : Int) - 127) (2 ^ 63), false)
  else
    let f := fmtOf code
    let s := nbit raw (f.bits - 1)
    let e := raw / 2 ^ f.fbits % 2 ^ f.ebits
    let m := raw % 2 ^ f.fbits
    if e = 2 ^ f.ebits - 1 ∧ f.infs = true then (if m = 0 then .inf s else .nan, false)
    else if code = 4 ∧ e = 15 ∧ m = 7 then (.nan, false)
    else if e = 0 then
      if m = 0 then (.zero s, false)
      else if flush then (.zero s, true)
      else (normal s m (1 - (f.bias : Int) - f.fbits), false)
    else (normal s (2 ^ f.fbits + m) ((e : Int) - f.bias - f.fbits), false)

/-! Leaves (R191, R192). -/

/-- A product, and whether it is zero times infinity. Of two zeros it is the zero with the exclusive or of their signs, as of every other
finite product: R192 lists no such product (DESIGN CHOICE, log entry 133). -/
def mulF (x w : FVal) : FVal × Bool :=
  match x, w with
  | .nan, _ => (.nan, false)
  | _, .nan => (.nan, false)
  | .zero _, .inf _ => (.nan, true)
  | .inf _, .zero _ => (.nan, true)
  | .inf a, .inf b => (.inf (a != b), false)
  | .inf a, .fin b _ _ => (.inf (a != b), false)
  | .fin a _ _, .inf b => (.inf (a != b), false)
  | .zero a, .zero b => (.zero (a != b), false)
  | .zero a, .fin b _ _ => (.zero (a != b), false)
  | .fin a _ _, .zero b => (.zero (a != b), false)
  | .fin a e m, .fin b e' m' =>
    let p := m * m'
    if 2 ^ 127 ≤ p then (.fin (a != b) (e + e' + 1) (p / 2 ^ 64), false) else (.fin (a != b) (e + e') (p / 2 ^ 63), false)

/-- The sign of a value cleared (AMAX). -/
def absF (v : FVal) : FVal :=
  match v with
  | .zero _ => .zero false
  | .fin _ e m => .fin false e m
  | .inf _ => .inf false
  | .nan => .nan

/-- The element of one participant: its leaf with what it brings to the set rules. -/
def leafF (d : Word) (pos : Pos) (raw w : Nat) : Elem :=
  let (x, fl) := decodeF (dIfmt d) (dFin d) raw
  let (wv, wfl) := if dOp d = oWsum then decodeF 1 (dFin d) w else (.zero false, false)
  let (leaf, zxi) := if dOp d = oWsum then mulF x wv else (x, false)
  let at_ (b : Bool) : Option Pos := if b then some pos else none
  { val := .f (if dOp d = oAmax then absF leaf else leaf), pos := pos
    nanPos := at_ (decide (x = .nan) || decide (wv = .nan)), zxiPos := at_ zxi
    pinf := at_ (decide (leaf = .inf false)), ninf := at_ (decide (leaf = .inf true)), flushed := fl || wfl }

/-- An integer element extended (R206); for AND, OR and XOR the bits as they are (R208). -/
def intOf (code raw : Nat) : Int :=
  if code = 14 then ((raw % 2 ^ 64 : Nat) : Int) else sext (fmtBits code) raw

def leafI (d : Word) (pos : Pos) (raw w : Nat) : Elem :=
  let x : Int := if isBitwise (dOp d) then (raw : Int) else intOf (dIfmt d) raw
  let v := if dOp d = oWsum then x * sext 32 w else if dOp d = oAmax then (x.natAbs : Int) else x
  ⟨.i v, pos, none, none, none, none, false⟩

/-- One participant's leaf. -/
def leafOf (d : Word) (pos : Pos) (raw w : Nat) : Elem :=
  if isFloat (dIfmt d) then leafF d pos raw w else leafI d pos raw w

/-! Nodes (R193 to R198). -/

/-- Shift left until bit 66 is set, at most n times. -/
def normUp : Nat → Int → Nat → Int × Nat
  | 0, e, x => (e, x)
  | n + 1, e, x => if x < 2 ^ 66 then normUp n (e - 1) (2 * x) else (e, x)

/-- The sum of two values, the first with the larger exponent. -/
def addOrdered (s : Bool) (e : Int) (m : Nat) (s' : Bool) (e' : Int) (m' : Nat) : FVal :=
  let d := (e - e').toNat
  let a := m * 8
  let b := if 67 ≤ d then 0 else m' * 8 / 2 ^ d
  if s = s' then
    let x := a + b
    if 2 ^ 67 ≤ x then .fin s (e + 1) (x / 2 / 8) else .fin s e (x / 8)
  else if a = b then .zero false
  else
    let (t, x) := if b < a then (s, a - b) else (s', b - a)
    let (e1, y) := normUp 66 e x
    .fin t e1 (y / 8)

/-- R195. A node with an INF or NAN child is decided by R199 and keeps the left value here. -/
def nodeAdd (a b : FVal) : FVal :=
  match a, b with
  | .zero s, .zero s' => .zero (s && s')
  | .fin s e m, .zero _ => .fin s e m
  | .zero _, .fin s e m => .fin s e m
  | .fin s e m, .fin s' e' m' => if e < e' then addOrdered s' e' m' s e m else addOrdered s e m s' e' m'
  | a, _ => a

/-- Magnitude of a FINITE value as one number, for comparing. -/
def magLt (e : Int) (m : Nat) (e' : Int) (m' : Nat) : Bool := decide (e < e') || (decide (e = e') && decide (m < m'))

/-- The exact order of R197. -/
def ltF (a b : FVal) : Bool :=
  let rank (v : FVal) : Nat :=
    match v with
    | .inf true => 0
    | .fin true _ _ => 1
    | .zero true => 2
    | .zero false => 3
    | .fin false _ _ => 4
    | .inf false => 5
    | .nan => 6
  decide (rank a < rank b) || match a, b with
    | .fin true e m, .fin true e' m' => magLt e' m' e m
    | .fin false e m, .fin false e' m' => magLt e m e' m'
    | _, _ => false

/-- The right child is kept (R197, R198): the left stays among equals. -/
def takesRight (op : Nat) (a b : NVal) : Bool :=
  match a, b with
  | .f a, .f b => if op = oMin then ltF b a else ltF a b
  | .i a, .i b => if op = oMin then decide (b < a) else decide (a < b)
  | _, _ => false

/-- The values' node for adding and bitwise operations. -/
def nodeVal (op : Nat) (a b : NVal) : NVal :=
  match a, b with
  | .f a, .f b => .f (nodeAdd a b)
  | .i a, .i b =>
    match op with
    | 6 => .i ((a.toNat &&& b.toNat : Nat) : Int)
    | 7 => .i ((a.toNat ||| b.toNat : Nat) : Int)
    | 8 => .i ((a.toNat ^^^ b.toNat : Nat) : Int)
    | _ => .i (a + b)
  | a, _ => a

def firstOf (a b : Option Pos) : Option Pos :=
  match a with
  | some p => some p
  | none => b

/-- A node of the tree. The left child stands earlier in tree order. -/
def node (op : Nat) (a b : Elem) : Elem :=
  let right := !isAdding op && !isBitwise op && takesRight op a.val b.val
  { val := if isAdding op || isBitwise op then nodeVal op a.val b.val else if right then b.val else a.val
    pos := if right then b.pos else a.pos
    nanPos := firstOf a.nanPos b.nanPos, zxiPos := firstOf a.zxiPos b.zxiPos
    pinf := firstOf a.pinf b.pinf, ninf := firstOf a.ninf b.ninf, flushed := a.flushed || b.flushed }

/-- One level: elements 0 and 1, then 2 and 3; an unpaired last passes up (R193). -/
def level {α : Type} (f : α → α → α) : List α → List α
  | a :: b :: r => f a b :: level f r
  | l => l

/-- The levels repeat until one value is left; 12 levels serve 4,096 participants. -/
def treeAux {α : Type} (f : α → α → α) : Nat → List α → List α
  | 0, l => l
  | n + 1, l => treeAux f n (level f l)

/-- The tree of a sequence of vectors, element by element. -/
def treeVec (op : Nat) (l : List (List Elem)) : List Elem :=
  ((treeAux (fun a b => List.zipWith (node op) a b) 13 l).head?).getD []

/-! The root of a floating element (R199 to R201). -/

/-- The root's value and the position an ARGMAX carries. MAX over finite leaves and -INF is what step 4's table of R199 gives, also where
its closing sentence could be read otherwise (DESIGN CHOICE, log entry 134). -/
def rootF (op : Nat) (x : Elem) (v : FVal) : FVal × Pos :=
  let adding := isAdding op
  match x.nanPos with
  | some p => (.nan, p)
  | none =>
    if x.zxiPos.isSome then (.nan, x.pos)
    else
      match x.pinf, x.ninf with
      | some p, some n =>
        if adding then (.nan, x.pos) else if op = oMin then (.inf true, n) else (.inf false, p)
      | some p, none => (.inf false, p)
      | none, some n => (if op = oAmax then .inf false else .inf true, n)
      | none, none => (v, x.pos)

def posLt (a b : Pos) : Bool := decide (a.die < b.die) || (decide (a.die = b.die) && decide (a.pidx < b.pidx))

/-- The INVALID candidate of an element: position and cause (R201). -/
def offenderOf (op : Nat) (x : Elem) : Option (Pos × Nat) :=
  let opp : Option Pos := match x.pinf, x.ninf with
    | some p, some n => if isAdding op then some (if posLt p n then n else p) else none
    | _, _ => none
  match x.zxiPos, opp with
  | some z, some o => if posLt o z then some (o, 2) else some (z, 1)
  | some z, none => some (z, 1)
  | none, some o => some (o, 2)
  | none, none => none

/-! Final rounding and writing (R202 to R204, R213). -/

/-- The rounded exponent and significand. -/
def roundOut (p : Nat) (emin e : Int) (m : Nat) : Int × Nat :=
  let k := if emin ≤ e then 64 - p else 64 - p + (emin - e).toNat
  let (q, rb, st) : Nat × Bool × Bool :=
    if 65 ≤ k then (0, false, true) else (m / 2 ^ k, m.testBit (k - 1), decide (m % 2 ^ (k - 1) ≠ 0))
  let q := if rb && (st || decide (q % 2 = 1)) then q + 1 else q
  if emin ≤ e then (if q = 2 ^ p then (e + 1, 2 ^ (p - 1)) else (e, q))
  else (if q = 2 ^ (p - 1) then emin else e, q)

/-- Flag bits of the arithmetic status word (R210). -/
abbrev aNanIn : Nat := 1
abbrev aInvalid : Nat := 2
abbrev aOvf : Nat := 4
abbrev aFlushed : Nat := 8
abbrev aNsub : Nat := 16
abbrev aNegscale : Nat := 32

/-- The encoding of sign, exponent and significand; a significand without its hidden bit is subnormal. -/
def encF (f : Fmt) (s : Bool) (e : Int) (q : Nat) : Nat :=
  let sg := b2n s * 2 ^ (f.bits - 1)
  if 2 ^ f.fbits ≤ q then sg + (e + f.bias).toNat * 2 ^ f.fbits + (q - 2 ^ f.fbits) else sg + q

/-- The encoding of an overflow and whether it is written as NaN or infinity. -/
def overF (code : Nat) (sat s : Bool) : Nat × Bool :=
  let f := fmtOf code
  if code = 9 then (if sat then 0xFE else 0xFF, !sat)
  else if sat then (encF f s f.emax f.qmax, false)
  else if f.infs then (b2n s * 2 ^ (f.bits - 1) + (2 ^ f.ebits - 1) * 2 ^ f.fbits, true)
  else if code = 4 then (0x7F, true)
  else (encF f s f.emax f.qmax, false)

/-- The histogram bin of an exponent in a floating context. -/
def binOf (hbase e : Int) : Nat := 1 + (min (max (e - hbase) 0) 61).toNat

/-- A floating root written: bits, flags, histogram bin. -/
def writeF (d : Word) (v : FVal) : Nat × Nat × Nat :=
  let code := dOfmt d
  let f := fmtOf code
  let sg (s : Bool) : Nat := b2n s * 2 ^ (f.bits - 1)
  match v with
  | .nan =>
    match f.nan with
    | some b => (b, 0, 63)
    | none => (sg true, aNsub, 63)
  | .inf s =>
    if code = 9 then (0xFF, if s then aNegscale else 0, 63)
    else if f.infs then (sg s + (2 ^ f.ebits - 1) * 2 ^ f.fbits, 0, 63)
    else ((overF code (dSat d) s).1, 0, 63)
  | .zero s => if code = 9 then (0, aFlushed, 0) else (sg s, 0, 0)
  | .fin s0 e m =>
    let neg := if code = 9 ∧ s0 = true then aNegscale else 0
    let s := s0 && decide (code ≠ 9)
    let (e1, q) := roundOut f.p f.emin e m
    if q = 0 then (if code = 9 then 0 else sg s, if code = 9 then neg + aFlushed else 0, 0)
    else if f.emax < e1 ∨ (e1 = f.emax ∧ f.qmax < q) then
      let (b, special) := overF code (dSat d) s
      (b, neg + aOvf, if special then 63 else binOf (dHbase d) f.emax)
    else if q < 2 ^ (f.p - 1) then
      if dFout d then (sg s, aFlushed, 0)
      else (encF f s e1 q, 0, binOf (dHbase d) (f.emin - (f.p : Int) + 1 + (Nat.log2 q : Int)))
    else if code = 9 then ((e1 + 127).toNat, neg, binOf (dHbase d) e1)
    else (encF f s e1 q, 0, binOf (dHbase d) e1)

/-- An integer root written (R207, R208, R213). -/
def writeI (d : Word) (v : Int) : Nat × Nat × Nat :=
  let code := dOfmt d
  let w := fmtBits code
  let lo : Int := if code = 14 then 0 else -(2 ^ (w - 1) : Int)
  let hi : Int := if code = 14 then 2 ^ 64 - 1 else 2 ^ (w - 1) - 1
  let past := !isBitwise (dOp d) && (decide (v < lo) || decide (hi < v))
  let x := if past && dSat d then (if v < lo then lo else hi) else v
  let raw := (x % (2 ^ w : Int)).toNat
  let mag := (intOf code raw).natAbs
  (raw, if past then aOvf else 0, if mag = 0 then 0 else 1 + min (Nat.log2 mag) 61)

/-- The index word of an ARGMAX (R198). -/
def indexWord (p : Pos) : Nat := p.pidx % 4096 + 4096 * (p.die % 64)

/-- A root element written: bits, index word, flags, bin, INVALID candidate (R199 to R213). -/
def writeRoot (d : Word) (x : Elem) : Nat × Nat × Nat × Nat × Option (Pos × Nat) :=
  let op := dOp d
  match x.val with
  | .f v =>
    let (r, p) := rootF op x v
    let (b, fl, bin) := writeF d r
    let off := offenderOf op x
    let fl := fl ||| (if x.nanPos.isSome then aNanIn else 0) ||| (if off.isSome then aInvalid else 0)
      ||| (if x.flushed then aFlushed else 0)
    (b, indexWord p, fl, bin, off)
  | .i v =>
    let (b, fl, bin) := writeI d v
    (b, indexWord x.pos, fl, bin, none)

/-- The arithmetic status word (R210). -/
def arithWord (flags : Nat) (off : Option (Pos × Nat × Nat)) : Word :=
  match off with
  | none => w64 flags
  | some (p, elem, cause) =>
    w64 (flags + 64 * cause + 256 * (p.die % 64) + 2 ^ 14 * (p.pidx % 4096) + 2 ^ 26 * (elem % 2 ^ 14))

/-- The bits of n elements of width w, packed (R187, R205). -/
def packBits (w : Nat) (xs : List Nat) : Nat := ((xs.zipIdx).foldl (fun n x => n + x.1 % 2 ^ w * 2 ^ (w * x.2)) 0)

/-- Element i of width w in a payload taken as one number. -/
def elemAt (w payload i : Nat) : Nat := payload / 2 ^ (w * i) % 2 ^ w

end Sys2Proof.Machine
end

