-- ==== Sys2Proof/Config.lean ====
section
/-! DEFINITION. What an implementation fixes and the manual leaves open: the free values. -/
namespace Sys2Proof

/-- FREE VALUE (log entry 3). The manual says that a waiter takes a free entry of a table (R98) and not which one.
The n-th placement takes the free entry whose rank among the free ones is this number, modulo how many are free. -/
opaque Config.freeEntry : Nat → Nat

/-- FREE VALUE (log entry 7). The body length, in 8-byte units, of the messages whose layout the manual does not give
(R281), by message type. -/
opaque Config.bodyUnits : Nat → Nat

/-- FREE VALUE (log entry 7). The body words of those messages, by a running number. -/
opaque Config.bodyWord : Nat → Nat

/-- FREE VALUE (log entry 7). The layout of an INIT flit (R292), which the manual does not give: the word of a body slot, by the
values of the flit's fields and the slot's number. -/
opaque Config.initWord : List Nat → Nat → Nat

/-- FREE VALUE (log entry 12). What the snapshot shows where the manual gives a field no content (R452 to R456), by Deck Time and
word number: the memory words of an unoccupied slot, the stamp of a head not issued, a message's place in the routers and its
Girder form. Numbers 0 and 1 also stand for the bridge-keeper's requester ID (log entry 85) and the DETAIL of a refused write to
SEMA_PAIR (log entry 86). -/
opaque Config.openWord : Nat → Nat → Nat

/-- FREE VALUE (log entry 110). By how much the bits of the die counter that an ordinary pier has received lag it (R321, R324), by pier
number and Deck Time; at most 40 dt of it count. -/
opaque Config.pierLag : Nat → Nat → Nat

/-- FREE VALUE (log entry 119). The cycle of a pier's clock in dt (R322). -/
opaque Config.pierCycle : Nat → Nat

/-- FREE VALUE (log entry 120). Whether a pier's client drives no clock at the end of a cold reset (R492). -/
opaque Config.clockStopped : Nat → Bool

/-- FREE VALUE (log entry 122). The last signaller, 64 x agent + die, that the signal record of a mirror copy shows after a mirror record
(R308, R455), by Deck Time. -/
opaque Config.copySignaller : Nat → Nat

/-- FREE VALUE (log entry 140). The flit codeword that a port in ALIGN sends (R275), by the number of values drawn. -/
opaque Config.trainCodeword : Nat → BitVec 1360

/-- FREE VALUE (log entry 142). The lanes at fault in an ALIGN that fails at its limit (R293), by the number of values drawn. -/
opaque Config.laneFaults : Nat → BitVec 4

/-- FREE VALUE (log entry 11). Whether, when a reset completes, the pair die has reset the tenant too since the mirror broke
(R311): the manual gives no message that says so. -/
opaque Config.pairHasReset : Nat → Bool

end Sys2Proof
end

