-- ==== Sys2Proof/Machine/Regs.lean ====
section
/-! DEFINITION. The registers of the aperture (R464, R473): where each field stands, what each register holds after cold
reset, and which bits a management write can change. -/
namespace Sys2Proof.Machine

/-- A field of a register: aperture offset, lowest bit, width. -/
structure Fld where
  off : Nat
  lo : Nat
  w : Nat
  deriving DecidableEq, Repr

/-- A row of the map: base, first index (count, stride), second index (count, stride), reset value, and the bits a write
can set (RW, RWM), set before KEY_LOCK (RWK), clear (W1C), set (W1S). -/
structure RegRow where
  base : Nat
  n1 : Nat
  s1 : Nat
  n2 : Nat
  s2 : Nat
  reset : Nat
  rwm : Nat
  rwk : Nat
  w1c : Nat
  w1s : Nat
  deriving DecidableEq, Repr

/-- CORE_ID (R464). -/
abbrev rCoreId : Nat := 0x0
/-- CORE_ID.PART [15:0], RO. -/
abbrev fCoreIdPart : Fld := ⟨0x0, 0, 16⟩
/-- CORE_ID.MAJOR [23:16], RO. -/
abbrev fCoreIdMajor : Fld := ⟨0x0, 16, 8⟩
/-- CORE_ID.MINOR [31:24], RO. -/
abbrev fCoreIdMinor : Fld := ⟨0x0, 24, 8⟩
/-- CORE_ID.SLICES [47:40], RO. -/
abbrev fCoreIdSlices : Fld := ⟨0x0, 40, 8⟩
/-- CORE_ID.ABCU [52:48], RO. -/
abbrev fCoreIdAbcu : Fld := ⟨0x0, 48, 5⟩
/-- CORE_ID.VIAP [56:53], RO. -/
abbrev fCoreIdViap : Fld := ⟨0x0, 53, 4⟩
/-- CORE_STEP (R464). -/
abbrev rCoreStep : Nat := 0x10
/-- CORE_STEP.STEP [3:0], RWM. -/
abbrev fCoreStepStep : Fld := ⟨0x10, 0, 4⟩
/-- CORE_FCTL (R464). -/
abbrev rCoreFctl : Nat := 0x100
/-- CORE_FCTL.SHADOW [9:0], RWM. -/
abbrev fCoreFctlShadow : Fld := ⟨0x100, 0, 10⟩
/-- CORE_FSUM (R464). -/
abbrev rCoreFsum : Nat := 0x108
/-- CORE_FSUM.IRQ [16:0], RO. -/
abbrev fCoreFsumIrq : Fld := ⟨0x108, 0, 17⟩
/-- CORE_FSUM.DEGRADED [17], RO. -/
abbrev fCoreFsumDegraded : Fld := ⟨0x108, 17, 1⟩
/-- CORE_FSUM.ERR [18], RO. -/
abbrev fCoreFsumErr : Fld := ⟨0x108, 18, 1⟩
/-- CORE_FSUM.TRAP [19], RO. -/
abbrev fCoreFsumTrap : Fld := ⟨0x108, 19, 1⟩
/-- CORE_FSUM.CRQ [20], RO. -/
abbrev fCoreFsumCrq : Fld := ⟨0x108, 20, 1⟩
/-- CORE_FSUM.SEALED [21], RO. -/
abbrev fCoreFsumSealed : Fld := ⟨0x108, 21, 1⟩
/-- CORE_FSUM.SHADOW [22], RO. -/
abbrev fCoreFsumShadow : Fld := ⟨0x108, 22, 1⟩
/-- CORE_FSUM.SHBLK [27:23], RO. -/
abbrev fCoreFsumShblk : Fld := ⟨0x108, 23, 5⟩
/-- CORE_RDCTL (R464). -/
abbrev rCoreRdctl : Nat := 0x400
/-- CORE_RDCTL.HOLDLIM [9:0], RWM. -/
abbrev fCoreRdctlHoldlim : Fld := ⟨0x400, 0, 10⟩
/-- CORE_RDSTAT (R464). -/
abbrev rCoreRdstat : Nat := 0x408
/-- CORE_RDSTAT.HELD [10:0], RO. -/
abbrev fCoreRdstatHeld : Fld := ⟨0x408, 0, 11⟩
/-- CORE_RDSTAT.HELD_HWM [26:16], W1C. -/
abbrev fCoreRdstatHeldHwm : Fld := ⟨0x408, 16, 11⟩
/-- CORE_RDCNT0 (R464). -/
abbrev rCoreRdcnt0 : Nat := 0x410
/-- CORE_RDCNT0.HOLDS [31:0], RO. -/
abbrev fCoreRdcnt0Holds : Fld := ⟨0x410, 0, 32⟩
/-- CORE_RDCNT0.LATE [63:32], RO. -/
abbrev fCoreRdcnt0Late : Fld := ⟨0x410, 32, 32⟩
/-- CORE_RDCNT1 (R464). -/
abbrev rCoreRdcnt1 : Nat := 0x418
/-- CORE_RDCNT1.REFUSED [31:0], RO. -/
abbrev fCoreRdcnt1Refused : Fld := ⟨0x418, 0, 32⟩
/-- CORE_RDCNT1.DROPPED [63:32], RO. -/
abbrev fCoreRdcnt1Dropped : Fld := ⟨0x418, 32, 32⟩
/-- CORE_DWC (R464). -/
abbrev rCoreDwc (d : Nat) : Nat := 0x800 + 8 * d
/-- CORE_DWC.COUNT [31:0], RO. -/
abbrev fCoreDwcCount (d : Nat) : Fld := ⟨0x800 + 8 * d, 0, 32⟩
/-- CORE_SPANCFG (R464). -/
abbrev rCoreSpancfg : Nat := 0xc00
/-- CORE_SPANCFG.MODE [1:0], RWK. -/
abbrev fCoreSpancfgMode : Fld := ⟨0xc00, 0, 2⟩
/-- CORE_SPANCFG.DIE [7:2], RWK. -/
abbrev fCoreSpancfgDie : Fld := ⟨0xc00, 2, 6⟩
/-- CORE_SPANCFG.XS [9:8], RWK. -/
abbrev fCoreSpancfgXs : Fld := ⟨0xc00, 8, 2⟩
/-- CORE_SPANCFG.YS [11:10], RWK. -/
abbrev fCoreSpancfgYs : Fld := ⟨0xc00, 10, 2⟩
/-- CORE_SPANCFG.ZS [13:12], RWK. -/
abbrev fCoreSpancfgZs : Fld := ⟨0xc00, 12, 2⟩
/-- CORE_SPANCFG.DN3 [14], RWK. -/
abbrev fCoreSpancfgDn3 : Fld := ⟨0xc00, 14, 1⟩
/-- CORE_SPANCFG.SGID [30:15], RWK. -/
abbrev fCoreSpancfgSgid : Fld := ⟨0xc00, 15, 16⟩
/-- CORE_SPANCFG.MIRROR [31], RWK. -/
abbrev fCoreSpancfgMirror : Fld := ⟨0xc00, 31, 1⟩
/-- CORE_SPANCFG.MSIDE [32], RWK. -/
abbrev fCoreSpancfgMside : Fld := ⟨0xc00, 32, 1⟩
/-- CORE_SPANMEM (R464). -/
abbrev rCoreSpanmem : Nat := 0xc08
/-- CORE_SPANMEM.MEMB [63:0], RO. -/
abbrev fCoreSpanmemMemb : Fld := ⟨0xc08, 0, 64⟩
/-- CORE_REACH (R464). -/
abbrev rCoreReach : Nat := 0xc10
/-- CORE_REACH.REACH [63:0], RO. -/
abbrev fCoreReachReach : Fld := ⟨0xc10, 0, 64⟩
/-- CORE_LOST (R464). -/
abbrev rCoreLost : Nat := 0xc18
/-- CORE_LOST.LOST [63:0], RO. -/
abbrev fCoreLostLost : Fld := ⟨0xc18, 0, 64⟩
/-- CORE_MIRROLE (R464). -/
abbrev rCoreMirrole (w : Nat) : Nat := 0xc20 + 8 * w
/-- CORE_MIRROLE.PRIM [63:0], RWM. -/
abbrev fCoreMirrolePrim (w : Nat) : Fld := ⟨0xc20 + 8 * w, 0, 64⟩
/-- CORE_MIRBRK (R464). -/
abbrev rCoreMirbrk (w : Nat) : Nat := 0xc40 + 8 * w
/-- CORE_MIRBRK.BROKEN [63:0], RO. -/
abbrev fCoreMirbrkBroken (w : Nat) : Fld := ⟨0xc40 + 8 * w, 0, 64⟩
/-- CORE_MIRCNT (R464). -/
abbrev rCoreMircnt : Nat := 0xc60
/-- CORE_MIRCNT.MISMATCH [31:0], RO. -/
abbrev fCoreMircntMismatch : Fld := ⟨0xc60, 0, 32⟩
/-- CORE_MIRCNT.UNCHECKED [63:32], RO. -/
abbrev fCoreMircntUnchecked : Fld := ⟨0xc60, 32, 32⟩
/-- KEY_CTL (R464). -/
abbrev rKeyCtl : Nat := 0x10000
/-- KEY_CTL.LOCK [0], W1S. -/
abbrev fKeyCtlLock : Fld := ⟨0x10000, 0, 1⟩
/-- KEY_CTL.BOOTID [31:16], RO. -/
abbrev fKeyCtlBootid : Fld := ⟨0x10000, 16, 16⟩
/-- KEY_MGR (R464). -/
abbrev rKeyMgr (i : Nat) : Nat := 0x10010 + 8 * i
/-- KEY_MGR.ID [15:0], RWK. -/
abbrev fKeyMgrId (i : Nat) : Fld := ⟨0x10010 + 8 * i, 0, 16⟩
/-- KEY_MGR.VALID [16], RWK. -/
abbrev fKeyMgrValid (i : Nat) : Fld := ⟨0x10010 + 8 * i, 16, 1⟩
/-- KEY_MPOL (R464). -/
abbrev rKeyMpol : Nat := 0x10040
/-- KEY_MPOL.MODE [0], RWK. -/
abbrev fKeyMpolMode : Fld := ⟨0x10040, 0, 1⟩
/-- KEY_MPOL.LIVE [1], RWK. -/
abbrev fKeyMpolLive : Fld := ⟨0x10040, 1, 1⟩
/-- KEY_MEXP (R464). -/
abbrev rKeyMexp (j : Nat) : Nat := 0x10048 + 8 * j
/-- KEY_MEXP.DIGEST [63:0], RWK. -/
abbrev fKeyMexpDigest (j : Nat) : Fld := ⟨0x10048 + 8 * j, 0, 64⟩
/-- KEY_NODOWN (R464). -/
abbrev rKeyNodown (b : Nat) : Nat := 0x10100 + 8 * b
/-- KEY_NODOWN.SRC [63:0], RWK. -/
abbrev fKeyNodownSrc (b : Nat) : Fld := ⟨0x10100 + 8 * b, 0, 64⟩
/-- KEY_CAP0 (R464). -/
abbrev rKeyCap0 (t : Nat) : Nat := 0x11000 + 16 * t
/-- KEY_CAP0.RES [10:0], RWK. -/
abbrev fKeyCap0Res (t : Nat) : Fld := ⟨0x11000 + 16 * t, 0, 11⟩
/-- KEY_CAP0.WAITS [21:11], RWK. -/
abbrev fKeyCap0Waits (t : Nat) : Fld := ⟨0x11000 + 16 * t, 11, 11⟩
/-- KEY_CAP0.BUF [31:22], RWK. -/
abbrev fKeyCap0Buf (t : Nat) : Fld := ⟨0x11000 + 16 * t, 22, 10⟩
/-- KEY_CAP0.WEIGHT [39:32], RWK. -/
abbrev fKeyCap0Weight (t : Nat) : Fld := ⟨0x11000 + 16 * t, 32, 8⟩
/-- KEY_CAP0.CRED [46:40], RWK. -/
abbrev fKeyCap0Cred (t : Nat) : Fld := ⟨0x11000 + 16 * t, 40, 7⟩
/-- KEY_CAP0.LANES [53:47], RWK. -/
abbrev fKeyCap0Lanes (t : Nat) : Fld := ⟨0x11000 + 16 * t, 47, 7⟩
/-- KEY_CAP0.MIR [54], RWK. -/
abbrev fKeyCap0Mir (t : Nat) : Fld := ⟨0x11000 + 16 * t, 54, 1⟩
/-- KEY_CAP0.EXP [55], RWK. -/
abbrev fKeyCap0Exp (t : Nat) : Fld := ⟨0x11000 + 16 * t, 55, 1⟩
/-- KEY_CAP1 (R464). -/
abbrev rKeyCap1 (t : Nat) : Nat := 0x11008 + 16 * t
/-- KEY_CAP1.AGENTS [11:0], RWK. -/
abbrev fKeyCap1Agents (t : Nat) : Fld := ⟨0x11008 + 16 * t, 0, 12⟩
/-- TEN_CFG (R464). -/
abbrev rTenCfg (t : Nat) : Nat := 0x20000 + 256 * t
/-- TEN_CFG.MIRRORED [0], RWM. -/
abbrev fTenCfgMirrored (t : Nat) : Fld := ⟨0x20000 + 256 * t, 0, 1⟩
/-- TEN_CFG.EXPORT [1], RWM. -/
abbrev fTenCfgExport (t : Nat) : Fld := ⟨0x20000 + 256 * t, 1, 1⟩
/-- TEN_SHARE0 (R464). -/
abbrev rTenShare0 (t : Nat) : Nat := 0x20008 + 256 * t
/-- TEN_SHARE0.RES [10:0], RWM. -/
abbrev fTenShare0Res (t : Nat) : Fld := ⟨0x20008 + 256 * t, 0, 11⟩
/-- TEN_SHARE0.WAITS [21:11], RWM. -/
abbrev fTenShare0Waits (t : Nat) : Fld := ⟨0x20008 + 256 * t, 11, 11⟩
/-- TEN_SHARE0.BUF [31:22], RWM. -/
abbrev fTenShare0Buf (t : Nat) : Fld := ⟨0x20008 + 256 * t, 22, 10⟩
/-- TEN_SHARE0.WEIGHT [39:32], RWM. -/
abbrev fTenShare0Weight (t : Nat) : Fld := ⟨0x20008 + 256 * t, 32, 8⟩
/-- TEN_SHARE1 (R464). -/
abbrev rTenShare1 (t : Nat) : Nat := 0x20010 + 256 * t
/-- TEN_SHARE1.CRED [6:0], RWM. -/
abbrev fTenShare1Cred (t : Nat) : Fld := ⟨0x20010 + 256 * t, 0, 7⟩
/-- TEN_SHARE1.LANES [13:7], RWM. -/
abbrev fTenShare1Lanes (t : Nat) : Fld := ⟨0x20010 + 256 * t, 7, 7⟩
/-- TEN_SHARE1.AGENTS [25:14], RWM. -/
abbrev fTenShare1Agents (t : Nat) : Fld := ⟨0x20010 + 256 * t, 14, 12⟩
/-- TEN_STAT (R464). -/
abbrev rTenStat (t : Nat) : Nat := 0x20018 + 256 * t
/-- TEN_STAT.STATE [1:0], RO. -/
abbrev fTenStatState (t : Nat) : Fld := ⟨0x20018 + 256 * t, 0, 2⟩
/-- TEN_STAT.EPOCH [15:8], RO. -/
abbrev fTenStatEpoch (t : Nat) : Fld := ⟨0x20018 + 256 * t, 8, 8⟩
/-- TEN_STAT.OVERDRAWN [21:16], RO. -/
abbrev fTenStatOverdrawn (t : Nat) : Fld := ⟨0x20018 + 256 * t, 16, 6⟩
/-- TEN_USE (R464). -/
abbrev rTenUse (t : Nat) : Nat := 0x20020 + 256 * t
/-- TEN_USE.LANES [6:0], RO. -/
abbrev fTenUseLanes (t : Nat) : Fld := ⟨0x20020 + 256 * t, 0, 7⟩
/-- TEN_USE.AGENTS [18:7], RO. -/
abbrev fTenUseAgents (t : Nat) : Fld := ⟨0x20020 + 256 * t, 7, 12⟩
/-- TEN_USE.CREDMAX [29:19], RO. -/
abbrev fTenUseCredmax (t : Nat) : Fld := ⟨0x20020 + 256 * t, 19, 11⟩
/-- TEN_CMD (R464). -/
abbrev rTenCmd (t : Nat) : Nat := 0x20028 + 256 * t
/-- TEN_CMD.OP [1:0], WO. -/
abbrev fTenCmdOp (t : Nat) : Fld := ⟨0x20028 + 256 * t, 0, 2⟩
/-- TEN_CMD.FORCE [2], WO. -/
abbrev fTenCmdForce (t : Nat) : Fld := ⟨0x20028 + 256 * t, 2, 1⟩
/-- TEN_CMD.FREEALL [3], WO. -/
abbrev fTenCmdFreeall (t : Nat) : Fld := ⟨0x20028 + 256 * t, 3, 1⟩
/-- TEN_CMDST (R464). -/
abbrev rTenCmdst (t : Nat) : Nat := 0x20030 + 256 * t
/-- TEN_CMDST.STATUS [7:0], RO. -/
abbrev fTenCmdstStatus (t : Nat) : Fld := ⟨0x20030 + 256 * t, 0, 8⟩
/-- TEN_CMDST.BUSY [8], RO. -/
abbrev fTenCmdstBusy (t : Nat) : Fld := ⟨0x20030 + 256 * t, 8, 1⟩
/-- TEN_CMDST.OP [10:9], RO. -/
abbrev fTenCmdstOp (t : Nat) : Fld := ⟨0x20030 + 256 * t, 9, 2⟩
/-- TEN_CMDST.DT [51:12], RO. -/
abbrev fTenCmdstDt (t : Nat) : Fld := ⟨0x20030 + 256 * t, 12, 40⟩
/-- TEN_EPCNT (R464). -/
abbrev rTenEpcnt (t : Nat) : Nat := 0x20038 + 256 * t
/-- TEN_EPCNT.STALE [31:0], RO. -/
abbrev fTenEpcntStale (t : Nat) : Fld := ⟨0x20038 + 256 * t, 0, 32⟩
/-- TEN_EPCNT.FLUSHED [63:32], RO. -/
abbrev fTenEpcntFlushed (t : Nat) : Fld := ⟨0x20038 + 256 * t, 32, 32⟩
/-- TEN_IMP (R464). -/
abbrev rTenImp (t : Nat) (i : Nat) : Nat := 0x20040 + 256 * t + 8 * i
/-- TEN_IMP.BASE [19:0], RWM. -/
abbrev fTenImpBase (t : Nat) (i : Nat) : Fld := ⟨0x20040 + 256 * t + 8 * i, 0, 20⟩
/-- TEN_IMP.SRCBASE [39:20], RWM. -/
abbrev fTenImpSrcbase (t : Nat) (i : Nat) : Fld := ⟨0x20040 + 256 * t + 8 * i, 20, 20⟩
/-- TEN_IMP.CNT [45:40], RWM. -/
abbrev fTenImpCnt (t : Nat) (i : Nat) : Fld := ⟨0x20040 + 256 * t + 8 * i, 40, 6⟩
/-- TEN_IMP.SRCT [53:46], RWM. -/
abbrev fTenImpSrct (t : Nat) (i : Nat) : Fld := ⟨0x20040 + 256 * t + 8 * i, 46, 8⟩
/-- TEN_IMP.PERM [55:54], RWM. -/
abbrev fTenImpPerm (t : Nat) (i : Nat) : Fld := ⟨0x20040 + 256 * t + 8 * i, 54, 2⟩
/-- TEN_IMP.VALID [56], RWM. -/
abbrev fTenImpValid (t : Nat) (i : Nat) : Fld := ⟨0x20040 + 256 * t + 8 * i, 56, 1⟩
/-- AGT_BIND (R464). -/
abbrev rAgtBind (a : Nat) : Nat := 0x30000 + 16 * a
/-- AGT_BIND.TENANT [7:0], RWM. -/
abbrev fAgtBindTenant (a : Nat) : Fld := ⟨0x30000 + 16 * a, 0, 8⟩
/-- AGT_BIND.BOUND [8], RWM. -/
abbrev fAgtBindBound (a : Nat) : Fld := ⟨0x30000 + 16 * a, 8, 1⟩
/-- AGT_BIND.EN [9], RWM. -/
abbrev fAgtBindEn (a : Nat) : Fld := ⟨0x30000 + 16 * a, 9, 1⟩
/-- AGT_STAT (R464). -/
abbrev rAgtStat (a : Nat) : Nat := 0x30008 + 16 * a
/-- AGT_STAT.STATE [1:0], RO. -/
abbrev fAgtStatState (a : Nat) : Fld := ⟨0x30008 + 16 * a, 0, 2⟩
/-- AGT_STAT.PRESENT [2], RO. -/
abbrev fAgtStatPresent (a : Nat) : Fld := ⟨0x30008 + 16 * a, 2, 1⟩
/-- AGT_STAT.QOCC [22:3], RO. -/
abbrev fAgtStatQocc (a : Nat) : Fld := ⟨0x30008 + 16 * a, 3, 20⟩
/-- AGT_STAT.FLUSHES [63:32], RO. -/
abbrev fAgtStatFlushes (a : Nat) : Fld := ⟨0x30008 + 16 * a, 32, 32⟩
/-- SEMA_HTW (R464). -/
abbrev rSemaHtw (t : Nat) : Nat := 0x40000 + 8 * t
/-- SEMA_HTW.BASE [9:0], RWM. -/
abbrev fSemaHtwBase (t : Nat) : Fld := ⟨0x40000 + 8 * t, 0, 10⟩
/-- SEMA_HTW.LEN [26:16], RWM. -/
abbrev fSemaHtwLen (t : Nat) : Fld := ⟨0x40000 + 8 * t, 16, 11⟩
/-- SEMA_BACK (R464). -/
abbrev rSemaBack (t : Nat) : Nat := 0x40800 + 8 * t
/-- SEMA_BACK.EN [0], RWM. -/
abbrev fSemaBackEn (t : Nat) : Fld := ⟨0x40800 + 8 * t, 0, 1⟩
/-- SEMA_BACK.AUDN [7:4], RWM. -/
abbrev fSemaBackAudn (t : Nat) : Fld := ⟨0x40800 + 8 * t, 4, 4⟩
/-- SEMA_BACK.ADDR [47:12], RWM. -/
abbrev fSemaBackAddr (t : Nat) : Fld := ⟨0x40800 + 8 * t, 12, 36⟩
/-- SEMA_CTL (R464). -/
abbrev rSemaCtl : Nat := 0x41000
/-- SEMA_CTL.PAGE_EN [0], RWM. -/
abbrev fSemaCtlPageEn : Fld := ⟨0x41000, 0, 1⟩
/-- SEMA_CTL.EVICT [2:1], RWM. -/
abbrev fSemaCtlEvict : Fld := ⟨0x41000, 1, 2⟩
/-- SEMA_STAT (R464). -/
abbrev rSemaStat : Nat := 0x41008
/-- SEMA_STAT.RESIDENT [18:0], RO. -/
abbrev fSemaStatResident : Fld := ⟨0x41008, 0, 19⟩
/-- SEMA_STAT.PAGEQ [44:32], RO. -/
abbrev fSemaStatPageq : Fld := ⟨0x41008, 32, 13⟩
/-- SEMA_STAT.HTM_READY [48], RO. -/
abbrev fSemaStatHtmReady : Fld := ⟨0x41008, 48, 1⟩
/-- SEMA_PAIR (R464). -/
abbrev rSemaPair : Nat := 0x41010
/-- SEMA_PAIR.PAIR [31:0], RWM. -/
abbrev fSemaPairPair : Fld := ⟨0x41010, 0, 32⟩
/-- SEMA_PGCNT (R464). -/
abbrev rSemaPgcnt : Nat := 0x41018
/-- SEMA_PGCNT.PAGEIN [31:0], RO. -/
abbrev fSemaPgcntPagein : Fld := ⟨0x41018, 0, 32⟩
/-- SEMA_PGCNT.PAGEOUT [63:32], RO. -/
abbrev fSemaPgcntPageout : Fld := ⟨0x41018, 32, 32⟩
/-- SEMA_BSCNT (R464). -/
abbrev rSemaBscnt : Nat := 0x41020
/-- SEMA_BSCNT.BACKOPS [47:0], RO. -/
abbrev fSemaBscntBackops : Fld := ⟨0x41020, 0, 48⟩
/-- SEMA_SLOTFREE (R464). -/
abbrev rSemaSlotfree (s : Nat) : Nat := 0x41100 + 8 * s
/-- SEMA_SLOTFREE.FREE [12:0], RO. -/
abbrev fSemaSlotfreeFree (s : Nat) : Fld := ⟨0x41100 + 8 * s, 0, 13⟩
/-- SEMA_TUSE (R464). -/
abbrev rSemaTuse (t : Nat) : Nat := 0x41800 + 8 * t
/-- SEMA_TUSE.RES [18:0], RO. -/
abbrev fSemaTuseRes (t : Nat) : Fld := ⟨0x41800 + 8 * t, 0, 19⟩
/-- SEMA_TUSE.ALLOCATED [40:20], RO. -/
abbrev fSemaTuseAllocated (t : Nat) : Fld := ⟨0x41800 + 8 * t, 20, 21⟩
/-- SEMA_RTCNT0 (R464). -/
abbrev rSemaRtcnt0 : Nat := 0x42000
/-- SEMA_RTCNT0.PARTS [31:0], RO. -/
abbrev fSemaRtcnt0Parts : Fld := ⟨0x42000, 0, 32⟩
/-- SEMA_RTCNT0.STAGED [63:32], RO. -/
abbrev fSemaRtcnt0Staged : Fld := ⟨0x42000, 32, 32⟩
/-- SEMA_RTCNT1 (R464). -/
abbrev rSemaRtcnt1 : Nat := 0x42008
/-- SEMA_RTCNT1.NOROOM [31:0], RO. -/
abbrev fSemaRtcnt1Noroom : Fld := ⟨0x42008, 0, 32⟩
/-- SEMA_RTCNT1.FAILED [63:32], RO. -/
abbrev fSemaRtcnt1Failed : Fld := ⟨0x42008, 32, 32⟩
/-- SEMA_RTPEND (R464). -/
abbrev rSemaRtpend : Nat := 0x42010
/-- SEMA_RTPEND.INUSE [14:0], RO. -/
abbrev fSemaRtpendInuse : Fld := ⟨0x42010, 0, 15⟩
/-- SEMA_RTPEND.SLHWM [23:15], W1C. -/
abbrev fSemaRtpendSlhwm : Fld := ⟨0x42010, 15, 9⟩
/-- SEMA_SMCNT (R464). -/
abbrev rSemaSmcnt : Nat := 0x42018
/-- SEMA_SMCNT.MISMATCH [31:0], RO. -/
abbrev fSemaSmcntMismatch : Fld := ⟨0x42018, 0, 32⟩
/-- WAIT_CTL (R464). -/
abbrev rWaitCtl : Nat := 0x50000
/-- WAIT_CTL.PACE_EN [0], RWM. -/
abbrev fWaitCtlPaceEn : Fld := ⟨0x50000, 0, 1⟩
/-- WAIT_CTL.STEAL_EN [1], RWM. -/
abbrev fWaitCtlStealEn : Fld := ⟨0x50000, 1, 1⟩
/-- WAIT_CTL.PACE_MAX [15:4], RWM. -/
abbrev fWaitCtlPaceMax : Fld := ⟨0x50000, 4, 12⟩
/-- WAIT_CTL.DROOP_MAX [27:16], RWM. -/
abbrev fWaitCtlDroopMax : Fld := ⟨0x50000, 16, 12⟩
/-- WAIT_CTL.DROOP_DEFER [31:28], RWM. -/
abbrev fWaitCtlDroopDefer : Fld := ⟨0x50000, 28, 4⟩
/-- WAIT_STAT (R464). -/
abbrev rWaitStat : Nat := 0x50008
/-- WAIT_STAT.BLOCKED [16:0], RO. -/
abbrev fWaitStatBlocked : Fld := ⟨0x50008, 0, 17⟩
/-- WAIT_STAT.POOLB [30:17], RO. -/
abbrev fWaitStatPoolb : Fld := ⟨0x50008, 17, 14⟩
/-- WAIT_STAT.DROOP [31], RO. -/
abbrev fWaitStatDroop : Fld := ⟨0x50008, 31, 1⟩
/-- WAIT_STAT.PACED [32], RO. -/
abbrev fWaitStatPaced : Fld := ⟨0x50008, 32, 1⟩
/-- WAIT_STAT.BUDGET [44:33], RO. -/
abbrev fWaitStatBudget : Fld := ⟨0x50008, 33, 12⟩
/-- WAIT_HWM (R464). -/
abbrev rWaitHwm : Nat := 0x50010
/-- WAIT_HWM.BLOCKED_HWM [16:0], W1C. -/
abbrev fWaitHwmBlockedHwm : Fld := ⟨0x50010, 0, 17⟩
/-- WAIT_HWM.POOLB_HWM [30:17], W1C. -/
abbrev fWaitHwmPoolbHwm : Fld := ⟨0x50010, 17, 14⟩
/-- WAIT_WDOG (R464). -/
abbrev rWaitWdog : Nat := 0x50018
/-- WAIT_WDOG.EN [0], RWM. -/
abbrev fWaitWdogEn : Fld := ⟨0x50018, 0, 1⟩
/-- WAIT_WDOG.END [1], RWM. -/
abbrev fWaitWdogEnd : Fld := ⟨0x50018, 1, 1⟩
/-- WAIT_WDOG.LIMIT [17:2], RWM. -/
abbrev fWaitWdogLimit : Fld := ⟨0x50018, 2, 16⟩
/-- WAIT_SLUSE (R464). -/
abbrev rWaitSluse (s : Nat) : Nat := 0x50100 + 8 * s
/-- WAIT_SLUSE.USED [10:0], RO. -/
abbrev fWaitSluseUsed (s : Nat) : Fld := ⟨0x50100 + 8 * s, 0, 11⟩
/-- WAIT_SLUSE.SPILLIN [26:16], RO. -/
abbrev fWaitSluseSpillin (s : Nat) : Fld := ⟨0x50100 + 8 * s, 16, 11⟩
/-- WAIT_TUSE (R464). -/
abbrev rWaitTuse (t : Nat) : Nat := 0x50800 + 8 * t
/-- WAIT_TUSE.USED [16:0], RO. -/
abbrev fWaitTuseUsed (t : Nat) : Fld := ⟨0x50800 + 8 * t, 0, 17⟩
/-- WAIT_TUSE.REFUSED [63:32], RO. -/
abbrev fWaitTuseRefused (t : Nat) : Fld := ⟨0x50800 + 8 * t, 32, 32⟩
/-- WAIT_CNT0 (R464). -/
abbrev rWaitCnt0 : Nat := 0x51000
/-- WAIT_CNT0.WAKES [31:0], RO. -/
abbrev fWaitCnt0Wakes : Fld := ⟨0x51000, 0, 32⟩
/-- WAIT_CNT0.STOLEN [63:32], RO. -/
abbrev fWaitCnt0Stolen : Fld := ⟨0x51000, 32, 32⟩
/-- WAIT_CNT1 (R464). -/
abbrev rWaitCnt1 : Nat := 0x51008
/-- WAIT_CNT1.PACEDWIN [31:0], RO. -/
abbrev fWaitCnt1Pacedwin : Fld := ⟨0x51008, 0, 32⟩
/-- WAIT_CNT1.EXPIRED [63:32], RO. -/
abbrev fWaitCnt1Expired : Fld := ⟨0x51008, 32, 32⟩
/-- WAIT_CNT2 (R464). -/
abbrev rWaitCnt2 : Nat := 0x51010
/-- WAIT_CNT2.REFUSED [31:0], RO. -/
abbrev fWaitCnt2Refused : Fld := ⟨0x51010, 0, 32⟩
/-- WAIT_CNT2.SPILLED [63:32], RO. -/
abbrev fWaitCnt2Spilled : Fld := ⟨0x51010, 32, 32⟩
/-- WAIT_CNT3 (R464). -/
abbrev rWaitCnt3 : Nat := 0x51018
/-- WAIT_CNT3.DEFERRED [31:0], RO. -/
abbrev fWaitCnt3Deferred : Fld := ⟨0x51018, 0, 32⟩
/-- WAIT_CNT3.MOVED [63:32], RO. -/
abbrev fWaitCnt3Moved : Fld := ⟨0x51018, 32, 32⟩
/-- ABC_CTL (R464). -/
abbrev rAbcCtl : Nat := 0x60000
/-- ABC_CTL.ARB_EN [0], RWM. -/
abbrev fAbcCtlArbEn : Fld := ⟨0x60000, 0, 1⟩
/-- ABC_CMD (R464). -/
abbrev rAbcCmd : Nat := 0x60008
/-- ABC_CMD.OP [1:0], WO. -/
abbrev fAbcCmdOp : Fld := ⟨0x60008, 0, 2⟩
/-- ABC_CMD.CTX [11:2], WO. -/
abbrev fAbcCmdCtx : Fld := ⟨0x60008, 2, 10⟩
/-- ABC_CMDST (R464). -/
abbrev rAbcCmdst : Nat := 0x60010
/-- ABC_CMDST.STATUS [7:0], RO. -/
abbrev fAbcCmdstStatus : Fld := ⟨0x60010, 0, 8⟩
/-- ABC_CMDST.BUSY [8], RO. -/
abbrev fAbcCmdstBusy : Fld := ⟨0x60010, 8, 1⟩
/-- ABC_CMDST.CTX [18:9], RO. -/
abbrev fAbcCmdstCtx : Fld := ⟨0x60010, 9, 10⟩
/-- ABC_CTXD0 (R464). -/
abbrev rAbcCtxd0 : Nat := 0x60020
/-- ABC_CTXD0.DESC [63:0], RWM. -/
abbrev fAbcCtxd0Desc : Fld := ⟨0x60020, 0, 64⟩
/-- ABC_CTXD1 (R464). -/
abbrev rAbcCtxd1 : Nat := 0x60028
/-- ABC_CTXD1.BHANDLE [31:0], RWM. -/
abbrev fAbcCtxd1Bhandle : Fld := ⟨0x60028, 0, 32⟩
/-- ABC_CTXD1.TENANT [39:32], RWM. -/
abbrev fAbcCtxd1Tenant : Fld := ⟨0x60028, 32, 8⟩
/-- ABC_CTXD1.NM1 [52:40], RWM. -/
abbrev fAbcCtxd1Nm1 : Fld := ⟨0x60028, 40, 13⟩
/-- ABC_CTXD1.CMODE [53], RWM. -/
abbrev fAbcCtxd1Cmode : Fld := ⟨0x60028, 53, 1⟩
/-- ABC_CTXD2 (R464). -/
abbrev rAbcCtxd2 : Nat := 0x60030
/-- ABC_CTXD2.DIES [63:0], RWM. -/
abbrev fAbcCtxd2Dies : Fld := ⟨0x60030, 0, 64⟩
/-- ABC_CTXD3 (R464). -/
abbrev rAbcCtxd3 : Nat := 0x60038
/-- ABC_CTXD3.ELOC [11:0], RWM. -/
abbrev fAbcCtxd3Eloc : Fld := ⟨0x60038, 0, 12⟩
/-- ABC_CTXD3.LMAX [23:12], RWM. -/
abbrev fAbcCtxd3Lmax : Fld := ⟨0x60038, 12, 12⟩
/-- ABC_CTXD3.PCAP [36:24], RWM. -/
abbrev fAbcCtxd3Pcap : Fld := ⟨0x60038, 24, 13⟩
/-- ABC_CTXD3.BUF [46:37], RWM. -/
abbrev fAbcCtxd3Buf : Fld := ⟨0x60038, 37, 10⟩
/-- ABC_UBUF (R464). -/
abbrev rAbcUbuf (u : Nat) : Nat := 0x60100 + 8 * u
/-- ABC_UBUF.FREE [5:0], RO. -/
abbrev fAbcUbufFree (u : Nat) : Fld := ⟨0x60100 + 8 * u, 0, 6⟩
/-- ABC_TUSE (R464). -/
abbrev rAbcTuse (t : Nat) : Nat := 0x60800 + 8 * t
/-- ABC_TUSE.BUFUSED [9:0], RO. -/
abbrev fAbcTuseBufused (t : Nat) : Fld := ⟨0x60800 + 8 * t, 0, 10⟩
/-- ABC_TUSE.OPENED [20:10], RO. -/
abbrev fAbcTuseOpened (t : Nat) : Fld := ⟨0x60800 + 8 * t, 10, 11⟩
/-- ABC_CNT0 (R464). -/
abbrev rAbcCnt0 : Nat := 0x61000
/-- ABC_CNT0.PHASES [31:0], RO. -/
abbrev fAbcCnt0Phases : Fld := ⟨0x61000, 0, 32⟩
/-- ABC_CNT0.CHUNKPH [63:32], RO. -/
abbrev fAbcCnt0Chunkph : Fld := ⟨0x61000, 32, 32⟩
/-- ABC_CNT1 (R464). -/
abbrev rAbcCnt1 : Nat := 0x61008
/-- ABC_CNT1.ABORTS [31:0], RO. -/
abbrev fAbcCnt1Aborts : Fld := ⟨0x61008, 0, 32⟩
/-- ABC_CNT1.HELD [63:32], RO. -/
abbrev fAbcCnt1Held : Fld := ⟨0x61008, 32, 32⟩
/-- ABC_CSR (R464). -/
abbrev rAbcCsr (c : Nat) (k : Nat) : Nat := 0x62000 + 32 * c + 8 * k
/-- ABC_CSR.STATE [1:0], RO. -/
abbrev fAbcCsr0State (c : Nat) : Fld := ⟨0x62000 + 32 * c + 0, 0, 2⟩
/-- ABC_CSR.ROOT [2], RO. -/
abbrev fAbcCsr0Root (c : Nat) : Fld := ⟨0x62000 + 32 * c + 0, 2, 1⟩
/-- ABC_CSR.C [16:3], RO. -/
abbrev fAbcCsr0C (c : Nat) : Fld := ⟨0x62000 + 32 * c + 0, 3, 14⟩
/-- ABC_CSR.K [24:17], RO. -/
abbrev fAbcCsr0K (c : Nat) : Fld := ⟨0x62000 + 32 * c + 0, 17, 8⟩
/-- ABC_CSR.ACC [36:25], RO. -/
abbrev fAbcCsr0Acc (c : Nat) : Fld := ⟨0x62000 + 32 * c + 0, 25, 12⟩
/-- ABC_CSR.PHASE [37], RO. -/
abbrev fAbcCsr0Phase (c : Nat) : Fld := ⟨0x62000 + 32 * c + 0, 37, 1⟩
/-- ABC_CSR.ASTAT [63:0], RO. -/
abbrev fAbcCsr1Astat (c : Nat) : Fld := ⟨0x62000 + 32 * c + 8, 0, 64⟩
/-- ABC_CSR.PHASES [31:0], RO. -/
abbrev fAbcCsr2Phases (c : Nat) : Fld := ⟨0x62000 + 32 * c + 16, 0, 32⟩
/-- ABC_CSR.CHUNKEDPH [63:32], RO. -/
abbrev fAbcCsr2Chunkedph (c : Nat) : Fld := ⟨0x62000 + 32 * c + 16, 32, 32⟩
/-- ABC_CSR.CODE [7:0], RO. -/
abbrev fAbcCsr3Code (c : Nat) : Fld := ⟨0x62000 + 32 * c + 24, 0, 8⟩
/-- ABC_CSR.DIE [13:8], RO. -/
abbrev fAbcCsr3Die (c : Nat) : Fld := ⟨0x62000 + 32 * c + 24, 8, 6⟩
/-- ABC_CSR.PIDX [25:14], RO. -/
abbrev fAbcCsr3Pidx (c : Nat) : Fld := ⟨0x62000 + 32 * c + 24, 14, 12⟩
/-- ABC_CSR.VALID [26], RO. -/
abbrev fAbcCsr3Valid (c : Nat) : Fld := ⟨0x62000 + 32 * c + 24, 26, 1⟩
/-- TRS_LEN (R464). -/
abbrev rTrsLen (l : Nat) (w : Nat) : Nat := 0x70000 + 256 * l + 8 * w
/-- TRS_LEN.EN [63:0], RWM. -/
abbrev fTrsLenEn (l : Nat) (w : Nat) : Fld := ⟨0x70000 + 256 * l + 8 * w, 0, 64⟩
/-- TRS_LCFG (R464). -/
abbrev rTrsLcfg (l : Nat) : Nat := 0x74000 + 8 * l
/-- TRS_LCFG.TENANT [7:0], RWM. -/
abbrev fTrsLcfgTenant (l : Nat) : Fld := ⟨0x74000 + 8 * l, 0, 8⟩
/-- TRS_LCFG.EN [8], RWM. -/
abbrev fTrsLcfgEn (l : Nat) : Fld := ⟨0x74000 + 8 * l, 8, 1⟩
/-- TRS_LCFG.TIMED [9], RWM. -/
abbrev fTrsLcfgTimed (l : Nat) : Fld := ⟨0x74000 + 8 * l, 9, 1⟩
/-- TRS_LCFG.GRID [14:10], RWM. -/
abbrev fTrsLcfgGrid (l : Nat) : Fld := ⟨0x74000 + 8 * l, 10, 5⟩
/-- TRS_LCFG.XEN [15], RWM. -/
abbrev fTrsLcfgXen (l : Nat) : Fld := ⟨0x74000 + 8 * l, 15, 1⟩
/-- TRS_LCFG.XROOT [21:16], RWM. -/
abbrev fTrsLcfgXroot (l : Nat) : Fld := ⟨0x74000 + 8 * l, 16, 6⟩
/-- TRS_LCFG.LEAD [37:22], RWM. -/
abbrev fTrsLcfgLead (l : Nat) : Fld := ⟨0x74000 + 8 * l, 22, 16⟩
/-- TRS_LXDIE (R464). -/
abbrev rTrsLxdie (l : Nat) : Nat := 0x74200 + 8 * l
/-- TRS_LXDIE.DIES [63:0], RWM. -/
abbrev fTrsLxdieDies (l : Nat) : Fld := ⟨0x74200 + 8 * l, 0, 64⟩
/-- TRS_LSTAT (R464). -/
abbrev rTrsLstat (l : Nat) : Nat := 0x74400 + 8 * l
/-- TRS_LSTAT.PHASE [0], RO. -/
abbrev fTrsLstatPhase (l : Nat) : Fld := ⟨0x74400 + 8 * l, 0, 1⟩
/-- TRS_LSTAT.ARRIVED [12:1], RO. -/
abbrev fTrsLstatArrived (l : Nat) : Fld := ⟨0x74400 + 8 * l, 1, 12⟩
/-- TRS_LSTAT.COUNTED [25:14], RO. -/
abbrev fTrsLstatCounted (l : Nat) : Fld := ⟨0x74400 + 8 * l, 14, 12⟩
/-- TRS_LSTAT.LOCAL [26], RO. -/
abbrev fTrsLstatLocal (l : Nat) : Fld := ⟨0x74400 + 8 * l, 26, 1⟩
/-- TRS_LSTAT.ARMED [27], RO. -/
abbrev fTrsLstatArmed (l : Nat) : Fld := ⟨0x74400 + 8 * l, 27, 1⟩
/-- TRS_LSTAT.BROKEN [28], W1C. -/
abbrev fTrsLstatBroken (l : Nat) : Fld := ⟨0x74400 + 8 * l, 28, 1⟩
/-- TRS_LTREL (R464). -/
abbrev rTrsLtrel (l : Nat) : Nat := 0x74600 + 8 * l
/-- TRS_LTREL.TREL [39:0], RO. -/
abbrev fTrsLtrelTrel (l : Nat) : Fld := ⟨0x74600 + 8 * l, 0, 40⟩
/-- TRS_LARR (R464). -/
abbrev rTrsLarr (l : Nat) (w : Nat) : Nat := 0x78000 + 256 * l + 8 * w
/-- TRS_LARR.ARR [63:0], RO. -/
abbrev fTrsLarrArr (l : Nat) (w : Nat) : Fld := ⟨0x78000 + 256 * l + 8 * w, 0, 64⟩
/-- TRS_CNT0 (R464). -/
abbrev rTrsCnt0 : Nat := 0x7c000
/-- TRS_CNT0.LANECOMP [31:0], RO. -/
abbrev fTrsCnt0Lanecomp : Fld := ⟨0x7c000, 0, 32⟩
/-- TRS_CNT0.BARCOMP [63:32], RO. -/
abbrev fTrsCnt0Barcomp : Fld := ⟨0x7c000, 32, 32⟩
/-- TRS_CNT1 (R464). -/
abbrev rTrsCnt1 : Nat := 0x7c008
/-- TRS_CNT1.NONMEMB [31:0], RO. -/
abbrev fTrsCnt1Nonmemb : Fld := ⟨0x7c008, 0, 32⟩
/-- TRS_CNT1.LATE [63:32], RO. -/
abbrev fTrsCnt1Late : Fld := ⟨0x7c008, 32, 32⟩
/-- TRS_CNT2 (R464). -/
abbrev rTrsCnt2 : Nat := 0x7c010
/-- TRS_CNT2.REPRES [31:0], RO. -/
abbrev fTrsCnt2Repres : Fld := ⟨0x7c010, 0, 32⟩
/-- TRS_CNT2.FRAMEDROP [63:32], RO. -/
abbrev fTrsCnt2Framedrop : Fld := ⟨0x7c010, 32, 32⟩
/-- TRS_MWFREE (R464). -/
abbrev rTrsMwfree (s : Nat) : Nat := 0x7c100 + 8 * s
/-- TRS_MWFREE.FREE [7:0], RO. -/
abbrev fTrsMwfreeFree (s : Nat) : Fld := ⟨0x7c100 + 8 * s, 0, 8⟩
/-- VIA_CTL (R464). -/
abbrev rViaCtl (n : Nat) : Nat := 0x80000 + 65536 * n
/-- VIA_CTL.EN [0], RWM. -/
abbrev fViaCtlEn (n : Nat) : Fld := ⟨0x80000 + 65536 * n, 0, 1⟩
/-- VIA_CTL.RATE [1], RWM. -/
abbrev fViaCtlRate (n : Nat) : Fld := ⟨0x80000 + 65536 * n, 1, 1⟩
/-- VIA_CTL.PRECODE [2], RWM. -/
abbrev fViaCtlPrecode (n : Nat) : Fld := ⟨0x80000 + 65536 * n, 2, 1⟩
/-- VIA_CTL.W2_EN [3], RWM. -/
abbrev fViaCtlW2En (n : Nat) : Fld := ⟨0x80000 + 65536 * n, 3, 1⟩
/-- VIA_CTL.AUTO [4], RWM. -/
abbrev fViaCtlAuto (n : Nat) : Fld := ⟨0x80000 + 65536 * n, 4, 1⟩
/-- VIA_CTL.DOWN [5], RWM. -/
abbrev fViaCtlDown (n : Nat) : Fld := ⟨0x80000 + 65536 * n, 5, 1⟩
/-- VIA_TCTL (R464). -/
abbrev rViaTctl (n : Nat) : Nat := 0x80008 + 65536 * n
/-- VIA_TCTL.PMA_LIM [9:0], RWM. -/
abbrev fViaTctlPmaLim (n : Nat) : Fld := ⟨0x80008 + 65536 * n, 0, 10⟩
/-- VIA_TCTL.ALIGN_LIM [19:10], RWM. -/
abbrev fViaTctlAlignLim (n : Nat) : Fld := ⟨0x80008 + 65536 * n, 10, 10⟩
/-- VIA_TCTL.INIT_LIM [29:20], RWM. -/
abbrev fViaTctlInitLim (n : Nat) : Fld := ⟨0x80008 + 65536 * n, 20, 10⟩
/-- VIA_TCTL.REHOLD [39:30], RWM. -/
abbrev fViaTctlRehold (n : Nat) : Fld := ⟨0x80008 + 65536 * n, 30, 10⟩
/-- VIA_TCTL.TRIES [43:40], RWM. -/
abbrev fViaTctlTries (n : Nat) : Fld := ⟨0x80008 + 65536 * n, 40, 4⟩
/-- VIA_LSTAT (R464). -/
abbrev rViaLstat (n : Nat) : Nat := 0x80010 + 65536 * n
/-- VIA_LSTAT.STATE [2:0], RO. -/
abbrev fViaLstatState (n : Nat) : Fld := ⟨0x80010 + 65536 * n, 0, 3⟩
/-- VIA_LSTAT.WIDTH [3], RO. -/
abbrev fViaLstatWidth (n : Nat) : Fld := ⟨0x80010 + 65536 * n, 3, 1⟩
/-- VIA_LSTAT.REVERSED [4], RO. -/
abbrev fViaLstatReversed (n : Nat) : Fld := ⟨0x80010 + 65536 * n, 4, 1⟩
/-- VIA_LSTAT.POLINV [8:5], RO. -/
abbrev fViaLstatPolinv (n : Nat) : Fld := ⟨0x80010 + 65536 * n, 5, 4⟩
/-- VIA_LSTAT.LANEBAD [12:9], RO. -/
abbrev fViaLstatLanebad (n : Nat) : Fld := ⟨0x80010 + 65536 * n, 9, 4⟩
/-- VIA_LSTAT.PEERDIE [18:13], RO. -/
abbrev fViaLstatPeerdie (n : Nat) : Fld := ⟨0x80010 + 65536 * n, 13, 6⟩
/-- VIA_LSTAT.PEERPORT [21:19], RO. -/
abbrev fViaLstatPeerport (n : Nat) : Fld := ⟨0x80010 + 65536 * n, 19, 3⟩
/-- VIA_LSTAT.RETRY [22], RO. -/
abbrev fViaLstatRetry (n : Nat) : Fld := ⟨0x80010 + 65536 * n, 22, 1⟩
/-- VIA_LSTAT.WIRING [23], W1C. -/
abbrev fViaLstatWiring (n : Nat) : Fld := ⟨0x80010 + 65536 * n, 23, 1⟩
/-- VIA_RSTAT (R464). -/
abbrev rViaRstat (n : Nat) : Nat := 0x80018 + 65536 * n
/-- VIA_RSTAT.RPLOCC [8:0], RO. -/
abbrev fViaRstatRplocc (n : Nat) : Fld := ⟨0x80018 + 65536 * n, 0, 9⟩
/-- VIA_RSTAT.REMCRED [18:9], RO. -/
abbrev fViaRstatRemcred (n : Nat) : Fld := ⟨0x80018 + 65536 * n, 9, 10⟩
/-- VIA_RSTAT.REMFULL [19], RO. -/
abbrev fViaRstatRemfull (n : Nat) : Fld := ⟨0x80018 + 65536 * n, 19, 1⟩
/-- VIA_RSTAT.MAXATT [23:20], W1C. -/
abbrev fViaRstatMaxatt (n : Nat) : Fld := ⟨0x80018 + 65536 * n, 20, 4⟩
/-- VIA_FECCNT (R464). -/
abbrev rViaFeccnt (n : Nat) : Nat := 0x80020 + 65536 * n
/-- VIA_FECCNT.CORR [47:0], RO. -/
abbrev fViaFeccntCorr (n : Nat) : Fld := ⟨0x80020 + 65536 * n, 0, 48⟩
/-- VIA_FECCNT.UNCORR [63:48], RO. -/
abbrev fViaFeccntUncorr (n : Nat) : Fld := ⟨0x80020 + 65536 * n, 48, 16⟩
/-- VIA_LNKCNT (R464). -/
abbrev rViaLnkcnt (n : Nat) : Nat := 0x80028 + 65536 * n
/-- VIA_LNKCNT.CRCERR [23:0], RO. -/
abbrev fViaLnkcntCrcerr (n : Nat) : Fld := ⟨0x80028 + 65536 * n, 0, 24⟩
/-- VIA_LNKCNT.REPLAYS [47:24], RO. -/
abbrev fViaLnkcntReplays (n : Nat) : Fld := ⟨0x80028 + 65536 * n, 24, 24⟩
/-- VIA_LNKCNT.DOWNS [55:48], RO. -/
abbrev fViaLnkcntDowns (n : Nat) : Fld := ⟨0x80028 + 65536 * n, 48, 8⟩
/-- VIA_LNKCNT.BADTYPE [63:56], RO. -/
abbrev fViaLnkcntBadtype (n : Nat) : Fld := ⟨0x80028 + 65536 * n, 56, 8⟩
/-- VIA_SYMERR (R464). -/
abbrev rViaSymerr (n : Nat) (l : Nat) : Nat := 0x80040 + 65536 * n + 8 * l
/-- VIA_SYMERR.SYM [47:0], RO. -/
abbrev fViaSymerrSym (n : Nat) (l : Nat) : Fld := ⟨0x80040 + 65536 * n + 8 * l, 0, 48⟩
/-- VIA_LCRED (R464). -/
abbrev rViaLcred (n : Nat) (v : Nat) : Nat := 0x80080 + 65536 * n + 8 * v
/-- VIA_LCRED.CRED [11:0], RO. -/
abbrev fViaLcredCred (n : Nat) (v : Nat) : Fld := ⟨0x80080 + 65536 * n + 8 * v, 0, 12⟩
/-- VIA_FRZ (R464). -/
abbrev rViaFrz (n : Nat) : Nat := 0x80100 + 65536 * n
/-- VIA_FRZ.CAPB [15:0], RO. -/
abbrev fViaFrzCapb (n : Nat) : Fld := ⟨0x80100 + 65536 * n, 0, 16⟩
/-- VIA_FRZ.MARK [16], RO. -/
abbrev fViaFrzMark (n : Nat) : Fld := ⟨0x80100 + 65536 * n, 16, 1⟩
/-- VIA_FRZ.OVF [17], RO. -/
abbrev fViaFrzOvf (n : Nat) : Fld := ⟨0x80100 + 65536 * n, 17, 1⟩
/-- VIA_FRZ.MLOST [18], RO. -/
abbrev fViaFrzMlost (n : Nat) : Fld := ⟨0x80100 + 65536 * n, 18, 1⟩
/-- DT_NOW (R464). -/
abbrev rDtNow : Nat := 0x100000
/-- DT_NOW.NOW [63:0], RO. -/
abbrev fDtNowNow : Fld := ⟨0x100000, 0, 64⟩
/-- DT_STAT (R464). -/
abbrev rDtStat : Nat := 0x100008
/-- DT_STAT.LOCK [0], RO. -/
abbrev fDtStatLock : Fld := ⟨0x100008, 0, 1⟩
/-- DT_STAT.HOLDOVER [1], RO. -/
abbrev fDtStatHoldover : Fld := ⟨0x100008, 1, 1⟩
/-- DT_STAT.STEPPED [2], RO. -/
abbrev fDtStatStepped : Fld := ⟨0x100008, 2, 1⟩
/-- DT_STAT.OOB [3], RO. -/
abbrev fDtStatOob : Fld := ⟨0x100008, 3, 1⟩
/-- DT_ALCTL (R464). -/
abbrev rDtAlctl : Nat := 0x100010
/-- DT_ALCTL.GLIM [9:0], RWM. -/
abbrev fDtAlctlGlim : Fld := ⟨0x100010, 0, 10⟩
/-- DT_ALCTL.ALIM [19:10], RWM. -/
abbrev fDtAlctlAlim : Fld := ⟨0x100010, 10, 10⟩
/-- DT_ALCTL.STEPTHR [27:20], RWM. -/
abbrev fDtAlctlStepthr : Fld := ⟨0x100010, 20, 8⟩
/-- DT_ALCTL.PER [31:28], RWM. -/
abbrev fDtAlctlPer : Fld := ⟨0x100010, 28, 4⟩
/-- DT_ALCTL.SLEW [35:32], RWM. -/
abbrev fDtAlctlSlew : Fld := ⟨0x100010, 32, 4⟩
/-- DT_ALCTL.DRIFTTHR [43:36], RWM. -/
abbrev fDtAlctlDriftthr : Fld := ⟨0x100010, 36, 8⟩
/-- DT_CMD (R464). -/
abbrev rDtCmd : Nat := 0x100018
/-- DT_CMD.OP [1:0], WO. -/
abbrev fDtCmdOp : Fld := ⟨0x100018, 0, 2⟩
/-- DT_CMD.PIER [12:2], WO. -/
abbrev fDtCmdPier : Fld := ⟨0x100018, 2, 11⟩
/-- DT_ALSTAT (R464). -/
abbrev rDtAlstat : Nat := 0x100020
/-- DT_ALSTAT.STATE [2:0], RO. -/
abbrev fDtAlstatState : Fld := ⟨0x100020, 0, 3⟩
/-- DT_ALSTAT.MASTER [3], RO. -/
abbrev fDtAlstatMaster : Fld := ⟨0x100020, 3, 1⟩
/-- DT_ALSTAT.PPORT [6:4], RO. -/
abbrev fDtAlstatPport : Fld := ⟨0x100020, 4, 3⟩
/-- DT_ALSTAT.PDIE [12:7], RO. -/
abbrev fDtAlstatPdie : Fld := ⟨0x100020, 7, 6⟩
/-- DT_ALSTAT.THETA [31:16], RO. -/
abbrev fDtAlstatTheta : Fld := ⟨0x100020, 16, 16⟩
/-- DT_ALSTAT.DELAY [47:32], RO. -/
abbrev fDtAlstatDelay : Fld := ⟨0x100020, 32, 16⟩
/-- DT_STEP (R464). -/
abbrev rDtStep : Nat := 0x100028
/-- DT_STEP.STEP [63:0], RO. -/
abbrev fDtStepStep : Fld := ⟨0x100028, 0, 64⟩
/-- DT_HEARD (R464). -/
abbrev rDtHeard : Nat := 0x100030
/-- DT_HEARD.HEARD [63:0], RO. -/
abbrev fDtHeardHeard : Fld := ⟨0x100030, 0, 64⟩
/-- DT_PMSTAT (R464). -/
abbrev rDtPmstat : Nat := 0x100038
/-- DT_PMSTAT.DONE [0], RO. -/
abbrev fDtPmstatDone : Fld := ⟨0x100038, 0, 1⟩
/-- DT_PMSTAT.BUSY [1], RO. -/
abbrev fDtPmstatBusy : Fld := ⟨0x100038, 1, 1⟩
/-- DT_PMSTAT.FAILED [12:2], RO. -/
abbrev fDtPmstatFailed : Fld := ⟨0x100038, 2, 11⟩
/-- DT_CNT (R464). -/
abbrev rDtCnt : Nat := 0x100040
/-- DT_CNT.SYNCX [31:0], RO. -/
abbrev fDtCntSyncx : Fld := ⟨0x100040, 0, 32⟩
/-- DT_CNT.DRIFT [63:32], RO. -/
abbrev fDtCntDrift : Fld := ⟨0x100040, 32, 32⟩
/-- DT_PORTCAL (R464). -/
abbrev rDtPortcal (n : Nat) : Nat := 0x100100 + 8 * n
/-- DT_PORTCAL.TXLAT [11:0], RWK. -/
abbrev fDtPortcalTxlat (n : Nat) : Fld := ⟨0x100100 + 8 * n, 0, 12⟩
/-- DT_PORTCAL.RXLAT [23:12], RWK. -/
abbrev fDtPortcalRxlat (n : Nat) : Fld := ⟨0x100100 + 8 * n, 12, 12⟩
/-- DT_PRIVP (R464). -/
abbrev rDtPrivp (i : Nat) : Nat := 0x100200 + 8 * i
/-- DT_PRIVP.PIER [10:0], RO. -/
abbrev fDtPrivpPier (i : Nat) : Fld := ⟨0x100200 + 8 * i, 0, 11⟩
/-- DT_PRIVP.VALID [11], RO. -/
abbrev fDtPrivpValid (i : Nat) : Fld := ⟨0x100200 + 8 * i, 11, 1⟩
/-- DT_POFS (R464). -/
abbrev rDtPofs (p : Nat) : Nat := 0x101000 + 8 * p
/-- DT_POFS.OFS [31:0], RO. -/
abbrev fDtPofsOfs (p : Nat) : Fld := ⟨0x101000 + 8 * p, 0, 32⟩
/-- DT_POFS.VALID [32], RO. -/
abbrev fDtPofsValid (p : Nat) : Fld := ⟨0x101000 + 8 * p, 32, 1⟩
/-- DT_POFS.PRIV [33], RO. -/
abbrev fDtPofsPriv (p : Nat) : Fld := ⟨0x101000 + 8 * p, 33, 1⟩
/-- PIER_ORDCTL (R464). -/
abbrev rPierOrdctl : Nat := 0x110000
/-- PIER_ORDCTL.DRLIM [9:0], RWM. -/
abbrev fPierOrdctlDrlim : Fld := ⟨0x110000, 0, 10⟩
/-- PIER_ORDCNT0 (R464). -/
abbrev rPierOrdcnt0 : Nat := 0x110008
/-- PIER_ORDCNT0.DRAINS [31:0], RO. -/
abbrev fPierOrdcnt0Drains : Fld := ⟨0x110008, 0, 32⟩
/-- PIER_ORDCNT0.INVALS [63:32], RO. -/
abbrev fPierOrdcnt0Invals : Fld := ⟨0x110008, 32, 32⟩
/-- PIER_ORDCNT1 (R464). -/
abbrev rPierOrdcnt1 : Nat := 0x110010
/-- PIER_ORDCNT1.DRSLOW [31:0], RO. -/
abbrev fPierOrdcnt1Drslow : Fld := ⟨0x110010, 0, 32⟩
/-- PIER_ORDHWM (R464). -/
abbrev rPierOrdhwm : Nat := 0x110018
/-- PIER_ORDHWM.DRAIN_HWM [23:0], W1C. -/
abbrev fPierOrdhwmDrainHwm : Fld := ⟨0x110018, 0, 24⟩
/-- PIER_GUARD (R464). -/
abbrev rPierGuard : Nat := 0x110020
/-- PIER_GUARD.GUARD [9:0], RWM. -/
abbrev fPierGuardGuard : Fld := ⟨0x110020, 0, 10⟩
/-- PIER_GUARD.EN [10], RWM. -/
abbrev fPierGuardEn : Fld := ⟨0x110020, 10, 1⟩
/-- CLK_CTL (R464). -/
abbrev rClkCtl : Nat := 0x120000
/-- CLK_CTL.SRC [0], RWM. -/
abbrev fClkCtlSrc : Fld := ⟨0x120000, 0, 1⟩
/-- CLK_CTL.DIV [4:1], RWM. -/
abbrev fClkCtlDiv : Fld := ⟨0x120000, 1, 4⟩
/-- CLK_CTL.FAILOVER [5], RWM. -/
abbrev fClkCtlFailover : Fld := ⟨0x120000, 5, 1⟩
/-- CLK_STAT (R464). -/
abbrev rClkStat : Nat := 0x120008
/-- CLK_STAT.SEL [0], RO. -/
abbrev fClkStatSel : Fld := ⟨0x120008, 0, 1⟩
/-- CLK_STAT.CDIV [4:1], RO. -/
abbrev fClkStatCdiv : Fld := ⟨0x120008, 1, 4⟩
/-- CLK_STAT.RAMP [5], RO. -/
abbrev fClkStatRamp : Fld := ⟨0x120008, 5, 1⟩
/-- CLK_STAT.IN0OK [6], RO. -/
abbrev fClkStatIn0ok : Fld := ⟨0x120008, 6, 1⟩
/-- CLK_STAT.IN1OK [7], RO. -/
abbrev fClkStatIn1ok : Fld := ⟨0x120008, 7, 1⟩
/-- CLK_STAT.STOPPED [8], RO. -/
abbrev fClkStatStopped : Fld := ⟨0x120008, 8, 1⟩
/-- CLK_STAT.WIGN [9], W1C. -/
abbrev fClkStatWign : Fld := ⟨0x120008, 9, 1⟩
/-- CLK_GREQ (R464). -/
abbrev rClkGreq : Nat := 0x120010
/-- CLK_GREQ.NODE [6:0], WO. -/
abbrev fClkGreqNode : Fld := ⟨0x120010, 0, 7⟩
/-- CLK_GREQ.OPEN [7], WO. -/
abbrev fClkGreqOpen : Fld := ⟨0x120010, 7, 1⟩
/-- CLK_GREQST (R464). -/
abbrev rClkGreqst : Nat := 0x120018
/-- CLK_GREQST.BUSY [0], RO. -/
abbrev fClkGreqstBusy : Fld := ⟨0x120018, 0, 1⟩
/-- CLK_GREQST.RESULT [2:1], RO. -/
abbrev fClkGreqstResult : Fld := ⟨0x120018, 1, 2⟩
/-- CLK_GREQST.NODE [9:3], RO. -/
abbrev fClkGreqstNode : Fld := ⟨0x120018, 3, 7⟩
/-- CLK_GOPEN0 (R464). -/
abbrev rClkGopen0 : Nat := 0x120020
/-- CLK_GOPEN0.OPEN [63:0], RO. -/
abbrev fClkGopen0Open : Fld := ⟨0x120020, 0, 64⟩
/-- CLK_GOPEN1 (R464). -/
abbrev rClkGopen1 : Nat := 0x120028
/-- CLK_GOPEN1.OPEN [33:0], RO. -/
abbrev fClkGopen1Open : Fld := ⟨0x120028, 0, 34⟩
/-- CLK_OBS (R464). -/
abbrev rClkObs : Nat := 0x120030
/-- CLK_OBS.EN [0], RWM. -/
abbrev fClkObsEn : Fld := ⟨0x120030, 0, 1⟩
/-- CLK_OBS.SEL [6:1], RWM. -/
abbrev fClkObsSel : Fld := ⟨0x120030, 1, 6⟩
/-- CLK_OBS.N [10:7], RWM. -/
abbrev fClkObsN : Fld := ⟨0x120030, 7, 4⟩
/-- CLK_OBSTAP (R464). -/
abbrev rClkObstap (k : Nat) : Nat := 0x120040 + 8 * k
/-- CLK_OBSTAP.PIER [10:0], RWM. -/
abbrev fClkObstapPier (k : Nat) : Fld := ⟨0x120040 + 8 * k, 0, 11⟩
/-- CLK_CNT (R464). -/
abbrev rClkCnt : Nat := 0x1200c0
/-- CLK_CNT.SWITCHES [31:0], RO. -/
abbrev fClkCntSwitches : Fld := ⟨0x1200c0, 0, 32⟩
/-- CLK_CNT.FAILOVERS [63:32], RO. -/
abbrev fClkCntFailovers : Fld := ⟨0x1200c0, 32, 32⟩
/-- FW_STAT (R464). -/
abbrev rFwStat : Nat := 0x130000
/-- FW_STAT.MEASURED [0], RO. -/
abbrev fFwStatMeasured : Fld := ⟨0x130000, 0, 1⟩
/-- FW_STAT.RUN [1], RO. -/
abbrev fFwStatRun : Fld := ⟨0x130000, 1, 1⟩
/-- FW_STAT.READY [2], RO. -/
abbrev fFwStatReady : Fld := ⟨0x130000, 2, 1⟩
/-- FW_CTL (R464). -/
abbrev rFwCtl : Nat := 0x130008
/-- FW_CTL.HBEN [0], RWM. -/
abbrev fFwCtlHben : Fld := ⟨0x130008, 0, 1⟩
/-- FW_CTL.HBLIM [10:1], RWM. -/
abbrev fFwCtlHblim : Fld := ⟨0x130008, 1, 10⟩
/-- FW_IMG (R464). -/
abbrev rFwImg : Nat := 0x130010
/-- FW_IMG.LEN [11:0], RWM. -/
abbrev fFwImgLen : Fld := ⟨0x130010, 0, 12⟩
/-- FW_IMG.DONE [12], W1S. -/
abbrev fFwImgDone : Fld := ⟨0x130010, 12, 1⟩
/-- FW_HBEAT (R464). -/
abbrev rFwHbeat : Nat := 0x130018
/-- FW_HBEAT.BEAT [63:0], WO. -/
abbrev fFwHbeatBeat : Fld := ⟨0x130018, 0, 64⟩
/-- FW_UPD (R464). -/
abbrev rFwUpd : Nat := 0x130020
/-- FW_UPD.OP [1:0], WO. -/
abbrev fFwUpdOp : Fld := ⟨0x130020, 0, 2⟩
/-- FW_UPDST (R464). -/
abbrev rFwUpdst : Nat := 0x130028
/-- FW_UPDST.STATE [2:0], RO. -/
abbrev fFwUpdstState : Fld := ⟨0x130028, 0, 3⟩
/-- FW_UPDST.STATUS [15:8], RO. -/
abbrev fFwUpdstStatus : Fld := ⟨0x130028, 8, 8⟩
/-- FW_UPDST.DT [55:16], RO. -/
abbrev fFwUpdstDt : Fld := ⟨0x130028, 16, 40⟩
/-- FW_MREQ (R464). -/
abbrev rFwMreq : Nat := 0x130030
/-- FW_MREQ.MEASURE [0], WO. -/
abbrev fFwMreqMeasure : Fld := ⟨0x130030, 0, 1⟩
/-- FW_MSTAT (R464). -/
abbrev rFwMstat : Nat := 0x130038
/-- FW_MSTAT.BUSY [0], RO. -/
abbrev fFwMstatBusy : Fld := ⟨0x130038, 0, 1⟩
/-- FW_MSTAT.DONE [1], RO. -/
abbrev fFwMstatDone : Fld := ⟨0x130038, 1, 1⟩
/-- FW_MSTAT.MATCH [2], RO. -/
abbrev fFwMstatMatch : Fld := ⟨0x130038, 2, 1⟩
/-- FW_MEAS (R464). -/
abbrev rFwMeas (j : Nat) : Nat := 0x130040 + 8 * j
/-- FW_MEAS.DIGEST [63:0], RO. -/
abbrev fFwMeasDigest (j : Nat) : Fld := ⟨0x130040 + 8 * j, 0, 64⟩
/-- FW_MNOW (R464). -/
abbrev rFwMnow (j : Nat) : Nat := 0x130080 + 8 * j
/-- FW_MNOW.DIGEST [63:0], RO. -/
abbrev fFwMnowDigest (j : Nat) : Fld := ⟨0x130080 + 8 * j, 0, 64⟩
/-- FW_CNT (R464). -/
abbrev rFwCnt : Nat := 0x1300c0
/-- FW_CNT.UPDATES [31:0], RO. -/
abbrev fFwCntUpdates : Fld := ⟨0x1300c0, 0, 32⟩
/-- FW_CNT.RESTARTS [63:32], RO. -/
abbrev fFwCntRestarts : Fld := ⟨0x1300c0, 32, 32⟩
/-- OBS_SAMP (R464). -/
abbrev rObsSamp : Nat := 0x140000
/-- OBS_SAMP.EN [0], RWM. -/
abbrev fObsSampEn : Fld := ⟨0x140000, 0, 1⟩
/-- OBS_SAMP.K [6:1], RWM. -/
abbrev fObsSampK : Fld := ⟨0x140000, 1, 6⟩
/-- OBS_SAMP.FIX [7], RWM. -/
abbrev fObsSampFix : Fld := ⟨0x140000, 7, 1⟩
/-- OBS_RING (R464). -/
abbrev rObsRing : Nat := 0x140008
/-- OBS_RING.LOG2 [5:0], RWM. -/
abbrev fObsRingLog2 : Fld := ⟨0x140008, 0, 6⟩
/-- OBS_RING.ADDR [47:12], RWM. -/
abbrev fObsRingAddr : Fld := ⟨0x140008, 12, 36⟩
/-- OBS_RHEAD (R464). -/
abbrev rObsRhead : Nat := 0x140010
/-- OBS_RHEAD.HEAD [47:0], RO. -/
abbrev fObsRheadHead : Fld := ⟨0x140010, 0, 48⟩
/-- OBS_RTAIL (R464). -/
abbrev rObsRtail : Nat := 0x140018
/-- OBS_RTAIL.TAIL [47:0], RWM. -/
abbrev fObsRtailTail : Fld := ⟨0x140018, 0, 48⟩
/-- OBS_STAT (R464). -/
abbrev rObsStat : Nat := 0x140020
/-- OBS_STAT.SLOST [31:0], RO. -/
abbrev fObsStatSlost : Fld := ⟨0x140020, 0, 32⟩
/-- OBS_STAT.TRDROP [63:32], RO. -/
abbrev fObsStatTrdrop : Fld := ⟨0x140020, 32, 32⟩
/-- OBS_CCMD (R464). -/
abbrev rObsCcmd : Nat := 0x140028
/-- OBS_CCMD.OP [1:0], WO. -/
abbrev fObsCcmdOp : Fld := ⟨0x140028, 0, 2⟩
/-- OBS_CCMD.FIRST [10:2], WO. -/
abbrev fObsCcmdFirst : Fld := ⟨0x140028, 2, 9⟩
/-- OBS_CCMD.LAST [19:11], WO. -/
abbrev fObsCcmdLast : Fld := ⟨0x140028, 11, 9⟩
/-- OBS_TRCTL (R464). -/
abbrev rObsTrctl : Nat := 0x140030
/-- OBS_TRCTL.EN [0], RWM. -/
abbrev fObsTrctlEn : Fld := ⟨0x140030, 0, 1⟩
/-- OBS_TRCTL.ALL [1], RWM. -/
abbrev fObsTrctlAll : Fld := ⟨0x140030, 1, 1⟩
/-- OBS_TRRING (R464). -/
abbrev rObsTrring : Nat := 0x140038
/-- OBS_TRRING.LOG2 [5:0], RWM. -/
abbrev fObsTrringLog2 : Fld := ⟨0x140038, 0, 6⟩
/-- OBS_TRRING.ADDR [47:12], RWM. -/
abbrev fObsTrringAddr : Fld := ⟨0x140038, 12, 36⟩
/-- OBS_TRHEAD (R464). -/
abbrev rObsTrhead : Nat := 0x140040
/-- OBS_TRHEAD.HEAD [47:0], RO. -/
abbrev fObsTrheadHead : Fld := ⟨0x140040, 0, 48⟩
/-- OBS_TRTAIL (R464). -/
abbrev rObsTrtail : Nat := 0x140048
/-- OBS_TRTAIL.TAIL [47:0], RWM. -/
abbrev fObsTrtailTail : Fld := ⟨0x140048, 0, 48⟩
/-- OBS_FRZT (R464). -/
abbrev rObsFrzt : Nat := 0x140050
/-- OBS_FRZT.T [63:0], RWM. -/
abbrev fObsFrztT : Fld := ⟨0x140050, 0, 64⟩
/-- OBS_THAWT (R464). -/
abbrev rObsThawt : Nat := 0x140058
/-- OBS_THAWT.H [63:0], RWM. -/
abbrev fObsThawtH : Fld := ⟨0x140058, 0, 64⟩
/-- OBS_FRZCMD (R464). -/
abbrev rObsFrzcmd : Nat := 0x140060
/-- OBS_FRZCMD.OP [2:0], WO. -/
abbrev fObsFrzcmdOp : Fld := ⟨0x140060, 0, 3⟩
/-- OBS_FRZCMD.HOLDTO [3], WO. -/
abbrev fObsFrzcmdHoldto : Fld := ⟨0x140060, 3, 1⟩
/-- OBS_FRZST (R464). -/
abbrev rObsFrzst : Nat := 0x140068
/-- OBS_FRZST.STATE [2:0], RO. -/
abbrev fObsFrzstState : Fld := ⟨0x140068, 0, 3⟩
/-- OBS_FRZST.HOLDTO [3], RO. -/
abbrev fObsFrzstHoldto : Fld := ⟨0x140068, 3, 1⟩
/-- OBS_FRZST.LATE [4], RO. -/
abbrev fObsFrzstLate : Fld := ⟨0x140068, 4, 1⟩
/-- OBS_FRZST.UNALIGNED [5], RO. -/
abbrev fObsFrzstUnaligned : Fld := ⟨0x140068, 5, 1⟩
/-- OBS_FRZST.INCOMPLETE [6], RO. -/
abbrev fObsFrzstIncomplete : Fld := ⟨0x140068, 6, 1⟩
/-- OBS_FRZST.MARKS [14:7], RO. -/
abbrev fObsFrzstMarks : Fld := ⟨0x140068, 7, 8⟩
/-- OBS_FRZST.FDT [62:23], RO. -/
abbrev fObsFrzstFdt : Fld := ⟨0x140068, 23, 40⟩
/-- OBS_SNPAGE (R464). -/
abbrev rObsSnpage : Nat := 0x140070
/-- OBS_SNPAGE.PAGE [3:0], RWM. -/
abbrev fObsSnpagePage : Fld := ⟨0x140070, 0, 4⟩
/-- OBS_SNCMD (R464). -/
abbrev rObsSncmd : Nat := 0x140078
/-- OBS_SNCMD.OP [1:0], WO. -/
abbrev fObsSncmdOp : Fld := ⟨0x140078, 0, 2⟩
/-- OBS_SNARG (R464). -/
abbrev rObsSnarg : Nat := 0x140080
/-- OBS_SNARG.ADDR [47:6], RWM. -/
abbrev fObsSnargAddr : Fld := ⟨0x140080, 6, 42⟩
/-- OBS_SNARG.LEN [63:48], RWM. -/
abbrev fObsSnargLen : Fld := ⟨0x140080, 48, 16⟩
/-- OBS_SNST (R464). -/
abbrev rObsSnst : Nat := 0x140088
/-- OBS_SNST.STATUS [7:0], RO. -/
abbrev fObsSnstStatus : Fld := ⟨0x140088, 0, 8⟩
/-- OBS_SNST.BUSY [8], RO. -/
abbrev fObsSnstBusy : Fld := ⟨0x140088, 8, 1⟩
/-- OBS_SNST.NREC [40:9], RO. -/
abbrev fObsSnstNrec : Fld := ⟨0x140088, 9, 32⟩
/-- OBS_SNST.TRUNC [41], RO. -/
abbrev fObsSnstTrunc : Fld := ⟨0x140088, 41, 1⟩
/-- OBS_TREN (R464). -/
abbrev rObsTren (w : Nat) : Nat := 0x140100 + 8 * w
/-- OBS_TREN.EN [63:0], RWM. -/
abbrev fObsTrenEn (w : Nat) : Fld := ⟨0x140100 + 8 * w, 0, 64⟩
/-- OBS_CFG0 (R464). -/
abbrev rObsCfg0 (i : Nat) : Nat := 0x141000 + 8 * i
/-- OBS_CFG0.EVENT [7:0], RWM. -/
abbrev fObsCfg0Event (i : Nat) : Fld := ⟨0x141000 + 8 * i, 0, 8⟩
/-- OBS_CFG0.EN [8], RWM. -/
abbrev fObsCfg0En (i : Nat) : Fld := ⟨0x141000 + 8 * i, 8, 1⟩
/-- OBS_CFG0.SAMP [9], RWM. -/
abbrev fObsCfg0Samp (i : Nat) : Fld := ⟨0x141000 + 8 * i, 9, 1⟩
/-- OBS_CFG0.TENF [10], RWM. -/
abbrev fObsCfg0Tenf (i : Nat) : Fld := ⟨0x141000 + 8 * i, 10, 1⟩
/-- OBS_CFG0.TENANT [18:11], RWM. -/
abbrev fObsCfg0Tenant (i : Nat) : Fld := ⟨0x141000 + 8 * i, 11, 8⟩
/-- OBS_CFG0.LAYF [19], RWM. -/
abbrev fObsCfg0Layf (i : Nat) : Fld := ⟨0x141000 + 8 * i, 19, 1⟩
/-- OBS_CFG0.LAYER [35:20], RWM. -/
abbrev fObsCfg0Layer (i : Nat) : Fld := ⟨0x141000 + 8 * i, 20, 16⟩
/-- OBS_CFG0.OPERF [36], RWM. -/
abbrev fObsCfg0Operf (i : Nat) : Fld := ⟨0x141000 + 8 * i, 36, 1⟩
/-- OBS_CFG0.OPER [52:37], RWM. -/
abbrev fObsCfg0Oper (i : Nat) : Fld := ⟨0x141000 + 8 * i, 37, 16⟩
/-- OBS_CFG1 (R464). -/
abbrev rObsCfg1 (i : Nat) : Nat := 0x142000 + 8 * i
/-- OBS_CFG1.OPMASK [14:0], RWM. -/
abbrev fObsCfg1Opmask (i : Nat) : Fld := ⟨0x142000 + 8 * i, 0, 15⟩
/-- OBS_CFG1.KINDMASK [19:15], RWM. -/
abbrev fObsCfg1Kindmask (i : Nat) : Fld := ⟨0x142000 + 8 * i, 15, 5⟩
/-- OBS_CFG1.FMTMASK [34:20], RWM. -/
abbrev fObsCfg1Fmtmask (i : Nat) : Fld := ⟨0x142000 + 8 * i, 20, 15⟩
/-- OBS_CFG1.STMASK [55:35], RWM. -/
abbrev fObsCfg1Stmask (i : Nat) : Fld := ⟨0x142000 + 8 * i, 35, 21⟩
/-- OBS_CVAL (R464). -/
abbrev rObsCval (i : Nat) : Nat := 0x143000 + 8 * i
/-- OBS_CVAL.VALUE [47:0], RO. -/
abbrev fObsCvalValue (i : Nat) : Fld := ⟨0x143000 + 8 * i, 0, 48⟩
/-- OBS_CVAL.BOUNDARY [48], RO. -/
abbrev fObsCvalBoundary (i : Nat) : Fld := ⟨0x143000 + 8 * i, 48, 1⟩
/-- OBS_FIX (R464). -/
abbrev rObsFix (k : Nat) : Nat := 0x144000 + 8 * k
/-- OBS_FIX.VALUE [47:0], RO. -/
abbrev fObsFixValue (k : Nat) : Fld := ⟨0x144000 + 8 * k, 0, 48⟩
/-- MAR_CMD (R464). -/
abbrev rMarCmd : Nat := 0x150000
/-- MAR_CMD.OP [2:0], WO. -/
abbrev fMarCmdOp : Fld := ⟨0x150000, 0, 3⟩
/-- MAR_ARG0 (R464). -/
abbrev rMarArg0 : Nat := 0x150008
/-- MAR_ARG0.TENANT [7:0], RWM. -/
abbrev fMarArg0Tenant : Fld := ⟨0x150008, 0, 8⟩
/-- MAR_ARG0.OBJ [33:8], RWM. -/
abbrev fMarArg0Obj : Fld := ⟨0x150008, 8, 26⟩
/-- MAR_ARG0.LANE [39:34], RWM. -/
abbrev fMarArg0Lane : Fld := ⟨0x150008, 34, 6⟩
/-- MAR_ARG0.AGENT [50:40], RWM. -/
abbrev fMarArg0Agent : Fld := ⟨0x150008, 40, 11⟩
/-- MAR_ARG0.QUEUE [52:51], RWM. -/
abbrev fMarArg0Queue : Fld := ⟨0x150008, 51, 2⟩
/-- MAR_ARG0.SLICE [58:53], RWM. -/
abbrev fMarArg0Slice : Fld := ⟨0x150008, 53, 6⟩
/-- MAR_ARG1 (R464). -/
abbrev rMarArg1 : Nat := 0x150010
/-- MAR_ARG1.ARG [63:0], RWM. -/
abbrev fMarArg1Arg : Fld := ⟨0x150010, 0, 64⟩
/-- MAR_ST (R464). -/
abbrev rMarSt : Nat := 0x150018
/-- MAR_ST.STATUS [7:0], RO. -/
abbrev fMarStStatus : Fld := ⟨0x150018, 0, 8⟩
/-- MAR_ST.BUSY [8], RO. -/
abbrev fMarStBusy : Fld := ⟨0x150018, 8, 1⟩
/-- MAR_ST.OP [11:9], RO. -/
abbrev fMarStOp : Fld := ⟨0x150018, 9, 3⟩
/-- MAR_ST.DT [51:12], RO. -/
abbrev fMarStDt : Fld := ⟨0x150018, 12, 40⟩
/-- MAR_OLD (R464). -/
abbrev rMarOld : Nat := 0x150020
/-- MAR_OLD.VALUE [63:0], RO. -/
abbrev fMarOldValue : Fld := ⟨0x150020, 0, 64⟩
/-- MAR_CNT (R464). -/
abbrev rMarCnt : Nat := 0x150028
/-- MAR_CNT.OPS [31:0], RO. -/
abbrev fMarCntOps : Fld := ⟨0x150028, 0, 32⟩
/-- MAR_CNT.CANCELS [63:32], RO. -/
abbrev fMarCntCancels : Fld := ⟨0x150028, 32, 32⟩

/-- Rows of the register map (R464), offsets 0x00000 to 0x0FFFF. -/
def regRows0 : List RegRow :=
  [⟨0x0, 1, 4194304, 1, 4194304, 0x110400000025c02, 0x0, 0x0, 0x0, 0x0⟩,
   ⟨0x10, 1, 4194304, 1, 4194304, 0x2, 0xf, 0x0, 0x0, 0x0⟩,
   ⟨0x100, 1, 4194304, 1, 4194304, 0x2, 0x3ff, 0x0, 0x0, 0x0⟩,
   ⟨0x108, 1, 4194304, 1, 4194304, 0x0, 0x0, 0x0, 0x0, 0x0⟩,
   ⟨0x400, 1, 4194304, 1, 4194304, 0x10, 0x3ff, 0x0, 0x0, 0x0⟩,
   ⟨0x408, 1, 4194304, 1, 4194304, 0x0, 0x0, 0x0, 0x7ff0000, 0x0⟩,
   ⟨0x410, 1, 4194304, 1, 4194304, 0x0, 0x0, 0x0, 0x0, 0x0⟩,
   ⟨0x418, 1, 4194304, 1, 4194304, 0x0, 0x0, 0x0, 0x0, 0x0⟩,
   ⟨0x800, 64, 8, 1, 8, 0x0, 0x0, 0x0, 0x0, 0x0⟩,
   ⟨0xc00, 1, 4194304, 1, 4194304, 0x0, 0x0, 0x1ffffffff, 0x0, 0x0⟩,
   ⟨0xc08, 1, 4194304, 1, 4194304, 0x1, 0x0, 0x0, 0x0, 0x0⟩,
   ⟨0xc10, 1, 4194304, 1, 4194304, 0x0, 0x0, 0x0, 0x0, 0x0⟩,
   ⟨0xc18, 1, 4194304, 1, 4194304, 0x0, 0x0, 0x0, 0x0, 0x0⟩,
   ⟨0xc20, 4, 8, 1, 8, 0x0, 0xffffffffffffffff, 0x0, 0x0, 0x0⟩,
   ⟨0xc40, 4, 8, 1, 8, 0x0, 0x0, 0x0, 0x0, 0x0⟩,
   ⟨0xc60, 1, 4194304, 1, 4194304, 0x0, 0x0, 0x0, 0x0, 0x0⟩]
/-- Rows of the register map (R464), offsets 0x10000 to 0x1FFFF. -/
def regRows1 : List RegRow :=
  [⟨0x10000, 1, 4194304, 1, 4194304, 0x0, 0x0, 0x0, 0x0, 0x1⟩,
   ⟨0x10010, 4, 8, 1, 8, 0x0, 0x0, 0x1ffff, 0x0, 0x0⟩,
   ⟨0x10040, 1, 4194304, 1, 4194304, 0x2, 0x0, 0x3, 0x0, 0x0⟩,
   ⟨0x10048, 6, 8, 1, 8, 0x0, 0x0, 0xffffffffffffffff, 0x0, 0x0⟩,
   ⟨0x10100, 17, 8, 1, 8, 0x0, 0x0, 0xffffffffffffffff, 0x0, 0x0⟩,
   ⟨0x11000, 256, 16, 1, 16, 0xe040ff80200400, 0x0, 0xffffffffffffff, 0x0, 0x0⟩,
   ⟨0x11008, 256, 16, 1, 16, 0x800, 0x0, 0xfff, 0x0, 0x0⟩]
/-- Rows of the register map (R464), offsets 0x20000 to 0x2FFFF. -/
def regRows2 : List RegRow :=
  [⟨0x20000, 256, 256, 1, 256, 0x0, 0x3, 0x0, 0x0, 0x0⟩,
   ⟨0x20008, 256, 256, 1, 256, 0x100000000, 0xffffffffff, 0x0, 0x0, 0x0⟩,
   ⟨0x20010, 256, 256, 1, 256, 0x0, 0x3ffffff, 0x0, 0x0, 0x0⟩,
   ⟨0x20018, 256, 256, 1, 256, 0x0, 0x0, 0x0, 0x0, 0x0⟩,
   ⟨0x20020, 256, 256, 1, 256, 0x0, 0x0, 0x0, 0x0, 0x0⟩,
   ⟨0x20028, 256, 256, 1, 256, 0x0, 0x0, 0x0, 0x0, 0x0⟩,
   ⟨0x20030, 256, 256, 1, 256, 0x0, 0x0, 0x0, 0x0, 0x0⟩,
   ⟨0x20038, 256, 256, 1, 256, 0x0, 0x0, 0x0, 0x0, 0x0⟩,
   ⟨0x20040, 256, 256, 4, 8, 0x0, 0x1ffffffffffffff, 0x0, 0x0, 0x0⟩]
/-- Rows of the register map (R464), offsets 0x30000 to 0x3FFFF. -/
def regRows3 : List RegRow :=
  [⟨0x30000, 2048, 16, 1, 16, 0x200, 0x3ff, 0x0, 0x0, 0x0⟩,
   ⟨0x30008, 2048, 16, 1, 16, 0x0, 0x0, 0x0, 0x0, 0x0⟩]
/-- Rows of the register map (R464), offsets 0x40000 to 0x4FFFF. -/
def regRows4 : List RegRow :=
  [⟨0x40000, 256, 8, 1, 8, 0x0, 0x7ff03ff, 0x0, 0x0, 0x0⟩,
   ⟨0x40800, 256, 8, 1, 8, 0x0, 0xfffffffff0f1, 0x0, 0x0, 0x0⟩,
   ⟨0x41000, 1, 4194304, 1, 4194304, 0x0, 0x7, 0x0, 0x0, 0x0⟩,
   ⟨0x41008, 1, 4194304, 1, 4194304, 0x0, 0x0, 0x0, 0x0, 0x0⟩,
   ⟨0x41010, 1, 4194304, 1, 4194304, 0x0, 0xffffffff, 0x0, 0x0, 0x0⟩,
   ⟨0x41018, 1, 4194304, 1, 4194304, 0x0, 0x0, 0x0, 0x0, 0x0⟩,
   ⟨0x41020, 1, 4194304, 1, 4194304, 0x0, 0x0, 0x0, 0x0, 0x0⟩,
   ⟨0x41100, 64, 8, 1, 8, 0x1000, 0x0, 0x0, 0x0, 0x0⟩,
   ⟨0x41800, 256, 8, 1, 8, 0x0, 0x0, 0x0, 0x0, 0x0⟩,
   ⟨0x42000, 1, 4194304, 1, 4194304, 0x0, 0x0, 0x0, 0x0, 0x0⟩,
   ⟨0x42008, 1, 4194304, 1, 4194304, 0x0, 0x0, 0x0, 0x0, 0x0⟩,
   ⟨0x42010, 1, 4194304, 1, 4194304, 0x0, 0x0, 0x0, 0xff8000, 0x0⟩,
   ⟨0x42018, 1, 4194304, 1, 4194304, 0x0, 0x0, 0x0, 0x0, 0x0⟩]
/-- Rows of the register map (R464), offsets 0x50000 to 0x5FFFF. -/
def regRows5 : List RegRow :=
  [⟨0x50000, 1, 4194304, 1, 4194304, 0x11008002, 0xfffffff3, 0x0, 0x0, 0x0⟩,
   ⟨0x50008, 1, 4194304, 1, 4194304, 0x0, 0x0, 0x0, 0x0, 0x0⟩,
   ⟨0x50010, 1, 4194304, 1, 4194304, 0x0, 0x0, 0x0, 0x7fffffff, 0x0⟩,
   ⟨0x50018, 1, 4194304, 1, 4194304, 0xfa3, 0x3ffff, 0x0, 0x0, 0x0⟩,
   ⟨0x50100, 64, 8, 1, 8, 0x0, 0x0, 0x0, 0x0, 0x0⟩,
   ⟨0x50800, 256, 8, 1, 8, 0x0, 0x0, 0x0, 0x0, 0x0⟩,
   ⟨0x51000, 1, 4194304, 1, 4194304, 0x0, 0x0, 0x0, 0x0, 0x0⟩,
   ⟨0x51008, 1, 4194304, 1, 4194304, 0x0, 0x0, 0x0, 0x0, 0x0⟩,
   ⟨0x51010, 1, 4194304, 1, 4194304, 0x0, 0x0, 0x0, 0x0, 0x0⟩,
   ⟨0x51018, 1, 4194304, 1, 4194304, 0x0, 0x0, 0x0, 0x0, 0x0⟩]
/-- Rows of the register map (R464), offsets 0x60000 to 0x6FFFF. -/
def regRows6 : List RegRow :=
  [⟨0x60000, 1, 4194304, 1, 4194304, 0x1, 0x1, 0x0, 0x0, 0x0⟩,
   ⟨0x60008, 1, 4194304, 1, 4194304, 0x0, 0x0, 0x0, 0x0, 0x0⟩,
   ⟨0x60010, 1, 4194304, 1, 4194304, 0x0, 0x0, 0x0, 0x0, 0x0⟩,
   ⟨0x60020, 1, 4194304, 1, 4194304, 0x0, 0xfffffff, 0x0, 0x0, 0x0⟩,
   ⟨0x60028, 1, 4194304, 1, 4194304, 0x0, 0x3fffffffffffff, 0x0, 0x0, 0x0⟩,
   ⟨0x60030, 1, 4194304, 1, 4194304, 0x0, 0xffffffffffffffff, 0x0, 0x0, 0x0⟩,
   ⟨0x60038, 1, 4194304, 1, 4194304, 0x0, 0x7fffffffffff, 0x0, 0x0, 0x0⟩,
   ⟨0x60100, 16, 8, 1, 8, 0x20, 0x0, 0x0, 0x0, 0x0⟩,
   ⟨0x60800, 256, 8, 1, 8, 0x0, 0x0, 0x0, 0x0, 0x0⟩,
   ⟨0x61000, 1, 4194304, 1, 4194304, 0x0, 0x0, 0x0, 0x0, 0x0⟩,
   ⟨0x61008, 1, 4194304, 1, 4194304, 0x0, 0x0, 0x0, 0x0, 0x0⟩,
   ⟨0x62000, 1024, 32, 4, 8, 0x0, 0x0, 0x0, 0x0, 0x0⟩]
/-- Rows of the register map (R464), offsets 0x70000 to 0x7FFFF. -/
def regRows7 : List RegRow :=
  [⟨0x70000, 64, 256, 32, 8, 0x0, 0xffffffffffffffff, 0x0, 0x0, 0x0⟩,
   ⟨0x74000, 64, 8, 1, 8, 0x1800, 0x3fffffffff, 0x0, 0x0, 0x0⟩,
   ⟨0x74200, 64, 8, 1, 8, 0x0, 0xffffffffffffffff, 0x0, 0x0, 0x0⟩,
   ⟨0x74400, 64, 8, 1, 8, 0x0, 0x0, 0x0, 0x10000000, 0x0⟩,
   ⟨0x74600, 64, 8, 1, 8, 0x0, 0x0, 0x0, 0x0, 0x0⟩,
   ⟨0x78000, 64, 256, 32, 8, 0x0, 0x0, 0x0, 0x0, 0x0⟩,
   ⟨0x7c000, 1, 4194304, 1, 4194304, 0x0, 0x0, 0x0, 0x0, 0x0⟩,
   ⟨0x7c008, 1, 4194304, 1, 4194304, 0x0, 0x0, 0x0, 0x0, 0x0⟩,
   ⟨0x7c010, 1, 4194304, 1, 4194304, 0x0, 0x0, 0x0, 0x0, 0x0⟩,
   ⟨0x7c100, 64, 8, 1, 8, 0x80, 0x0, 0x0, 0x0, 0x0⟩]
/-- Rows of the register map (R464), offsets 0x80000 to 0xFFFFF. -/
def regRows8 : List RegRow :=
  [⟨0x80000, 8, 65536, 1, 65536, 0x18, 0x3f, 0x0, 0x0, 0x0⟩,
   ⟨0x80008, 8, 65536, 1, 65536, 0x419014028c8, 0xfffffffffff, 0x0, 0x0, 0x0⟩,
   ⟨0x80010, 8, 65536, 1, 65536, 0x0, 0x0, 0x0, 0x800000, 0x0⟩,
   ⟨0x80018, 8, 65536, 1, 65536, 0x0, 0x0, 0x0, 0xf00000, 0x0⟩,
   ⟨0x80020, 8, 65536, 1, 65536, 0x0, 0x0, 0x0, 0x0, 0x0⟩,
   ⟨0x80028, 8, 65536, 1, 65536, 0x0, 0x0, 0x0, 0x0, 0x0⟩,
   ⟨0x80040, 8, 65536, 4, 8, 0x0, 0x0, 0x0, 0x0, 0x0⟩,
   ⟨0x80080, 8, 65536, 12, 8, 0x0, 0x0, 0x0, 0x0, 0x0⟩,
   ⟨0x80100, 8, 65536, 1, 65536, 0x0, 0x0, 0x0, 0x0, 0x0⟩]
/-- Rows of the register map (R464), offsets 0x100000 to 0x10FFFF. -/
def regRows10 : List RegRow :=
  [⟨0x100000, 1, 4194304, 1, 4194304, 0x0, 0x0, 0x0, 0x0, 0x0⟩,
   ⟨0x100008, 1, 4194304, 1, 4194304, 0x0, 0x0, 0x0, 0x0, 0x0⟩,
   ⟨0x100010, 1, 4194304, 1, 4194304, 0x206640190c8, 0xfffffffffff, 0x0, 0x0, 0x0⟩,
   ⟨0x100018, 1, 4194304, 1, 4194304, 0x0, 0x0, 0x0, 0x0, 0x0⟩,
   ⟨0x100020, 1, 4194304, 1, 4194304, 0x0, 0x0, 0x0, 0x0, 0x0⟩,
   ⟨0x100028, 1, 4194304, 1, 4194304, 0x0, 0x0, 0x0, 0x0, 0x0⟩,
   ⟨0x100030, 1, 4194304, 1, 4194304, 0x0, 0x0, 0x0, 0x0, 0x0⟩,
   ⟨0x100038, 1, 4194304, 1, 4194304, 0x0, 0x0, 0x0, 0x0, 0x0⟩,
   ⟨0x100040, 1, 4194304, 1, 4194304, 0x0, 0x0, 0x0, 0x0, 0x0⟩,
   ⟨0x100100, 8, 8, 1, 8, 0x0, 0x0, 0xffffff, 0x0, 0x0⟩,
   ⟨0x100200, 32, 8, 1, 8, 0x0, 0x0, 0x0, 0x0, 0x0⟩,
   ⟨0x101000, 2048, 8, 1, 8, 0x0, 0x0, 0x0, 0x0, 0x0⟩]
/-- Rows of the register map (R464), offsets 0x110000 to 0x11FFFF. -/
def regRows11 : List RegRow :=
  [⟨0x110000, 1, 4194304, 1, 4194304, 0xa, 0x3ff, 0x0, 0x0, 0x0⟩,
   ⟨0x110008, 1, 4194304, 1, 4194304, 0x0, 0x0, 0x0, 0x0, 0x0⟩,
   ⟨0x110010, 1, 4194304, 1, 4194304, 0x0, 0x0, 0x0, 0x0, 0x0⟩,
   ⟨0x110018, 1, 4194304, 1, 4194304, 0x0, 0x0, 0x0, 0xffffff, 0x0⟩,
   ⟨0x110020, 1, 4194304, 1, 4194304, 0x440, 0x7ff, 0x0, 0x0, 0x0⟩]
/-- Rows of the register map (R464), offsets 0x120000 to 0x12FFFF. -/
def regRows12 : List RegRow :=
  [⟨0x120000, 1, 4194304, 1, 4194304, 0x22, 0x3f, 0x0, 0x0, 0x0⟩,
   ⟨0x120008, 1, 4194304, 1, 4194304, 0x30, 0x0, 0x0, 0x200, 0x0⟩,
   ⟨0x120010, 1, 4194304, 1, 4194304, 0x0, 0x0, 0x0, 0x0, 0x0⟩,
   ⟨0x120018, 1, 4194304, 1, 4194304, 0x0, 0x0, 0x0, 0x0, 0x0⟩,
   ⟨0x120020, 1, 4194304, 1, 4194304, 0xffffffffffffffff, 0x0, 0x0, 0x0, 0x0⟩,
   ⟨0x120028, 1, 4194304, 1, 4194304, 0x3ffffffff, 0x0, 0x0, 0x0, 0x0⟩,
   ⟨0x120030, 1, 4194304, 1, 4194304, 0x0, 0x7ff, 0x0, 0x0, 0x0⟩,
   ⟨0x120040, 16, 8, 1, 8, 0x0, 0x7ff, 0x0, 0x0, 0x0⟩,
   ⟨0x1200c0, 1, 4194304, 1, 4194304, 0x0, 0x0, 0x0, 0x0, 0x0⟩]
/-- Rows of the register map (R464), offsets 0x130000 to 0x13FFFF. -/
def regRows13 : List RegRow :=
  [⟨0x130000, 1, 4194304, 1, 4194304, 0x0, 0x0, 0x0, 0x0, 0x0⟩,
   ⟨0x130008, 1, 4194304, 1, 4194304, 0xc9, 0x7ff, 0x0, 0x0, 0x0⟩,
   ⟨0x130010, 1, 4194304, 1, 4194304, 0x0, 0xfff, 0x0, 0x0, 0x1000⟩,
   ⟨0x130018, 1, 4194304, 1, 4194304, 0x0, 0x0, 0x0, 0x0, 0x0⟩,
   ⟨0x130020, 1, 4194304, 1, 4194304, 0x0, 0x0, 0x0, 0x0, 0x0⟩,
   ⟨0x130028, 1, 4194304, 1, 4194304, 0x0, 0x0, 0x0, 0x0, 0x0⟩,
   ⟨0x130030, 1, 4194304, 1, 4194304, 0x0, 0x0, 0x0, 0x0, 0x0⟩,
   ⟨0x130038, 1, 4194304, 1, 4194304, 0x0, 0x0, 0x0, 0x0, 0x0⟩,
   ⟨0x130040, 6, 8, 1, 8, 0x0, 0x0, 0x0, 0x0, 0x0⟩,
   ⟨0x130080, 6, 8, 1, 8, 0x0, 0x0, 0x0, 0x0, 0x0⟩,
   ⟨0x1300c0, 1, 4194304, 1, 4194304, 0x0, 0x0, 0x0, 0x0, 0x0⟩]
/-- Rows of the register map (R464), offsets 0x140000 to 0x14FFFF. -/
def regRows14 : List RegRow :=
  [⟨0x140000, 1, 4194304, 1, 4194304, 0x30, 0xff, 0x0, 0x0, 0x0⟩,
   ⟨0x140008, 1, 4194304, 1, 4194304, 0x10, 0xfffffffff03f, 0x0, 0x0, 0x0⟩,
   ⟨0x140010, 1, 4194304, 1, 4194304, 0x0, 0x0, 0x0, 0x0, 0x0⟩,
   ⟨0x140018, 1, 4194304, 1, 4194304, 0x0, 0xffffffffffff, 0x0, 0x0, 0x0⟩,
   ⟨0x140020, 1, 4194304, 1, 4194304, 0x0, 0x0, 0x0, 0x0, 0x0⟩,
   ⟨0x140028, 1, 4194304, 1, 4194304, 0x0, 0x0, 0x0, 0x0, 0x0⟩,
   ⟨0x140030, 1, 4194304, 1, 4194304, 0x0, 0x3, 0x0, 0x0, 0x0⟩,
   ⟨0x140038, 1, 4194304, 1, 4194304, 0x10, 0xfffffffff03f, 0x0, 0x0, 0x0⟩,
   ⟨0x140040, 1, 4194304, 1, 4194304, 0x0, 0x0, 0x0, 0x0, 0x0⟩,
   ⟨0x140048, 1, 4194304, 1, 4194304, 0x0, 0xffffffffffff, 0x0, 0x0, 0x0⟩,
   ⟨0x140050, 1, 4194304, 1, 4194304, 0x0, 0xffffffffffffffff, 0x0, 0x0, 0x0⟩,
   ⟨0x140058, 1, 4194304, 1, 4194304, 0x0, 0xffffffffffffffff, 0x0, 0x0, 0x0⟩,
   ⟨0x140060, 1, 4194304, 1, 4194304, 0x0, 0x0, 0x0, 0x0, 0x0⟩,
   ⟨0x140068, 1, 4194304, 1, 4194304, 0x0, 0x0, 0x0, 0x0, 0x0⟩,
   ⟨0x140070, 1, 4194304, 1, 4194304, 0x0, 0xf, 0x0, 0x0, 0x0⟩,
   ⟨0x140078, 1, 4194304, 1, 4194304, 0x0, 0x0, 0x0, 0x0, 0x0⟩,
   ⟨0x140080, 1, 4194304, 1, 4194304, 0x0, 0xffffffffffffffc0, 0x0, 0x0, 0x0⟩,
   ⟨0x140088, 1, 4194304, 1, 4194304, 0x0, 0x0, 0x0, 0x0, 0x0⟩,
   ⟨0x140100, 32, 8, 1, 8, 0x0, 0xffffffffffffffff, 0x0, 0x0, 0x0⟩,
   ⟨0x141000, 512, 8, 1, 8, 0x0, 0x1fffffffffffff, 0x0, 0x0, 0x0⟩,
   ⟨0x142000, 512, 8, 1, 8, 0x0, 0xffffffffffffff, 0x0, 0x0, 0x0⟩,
   ⟨0x143000, 512, 8, 1, 8, 0x0, 0x0, 0x0, 0x0, 0x0⟩,
   ⟨0x144000, 64, 8, 1, 8, 0x0, 0x0, 0x0, 0x0, 0x0⟩]
/-- Rows of the register map (R464), offsets 0x150000 to 0x15FFFF. -/
def regRows15 : List RegRow :=
  [⟨0x150000, 1, 4194304, 1, 4194304, 0x0, 0x0, 0x0, 0x0, 0x0⟩,
   ⟨0x150008, 1, 4194304, 1, 4194304, 0x0, 0x7ffffffffffffff, 0x0, 0x0, 0x0⟩,
   ⟨0x150010, 1, 4194304, 1, 4194304, 0x0, 0xffffffffffffffff, 0x0, 0x0, 0x0⟩,
   ⟨0x150018, 1, 4194304, 1, 4194304, 0x0, 0x0, 0x0, 0x0, 0x0⟩,
   ⟨0x150020, 1, 4194304, 1, 4194304, 0x0, 0x0, 0x0, 0x0, 0x0⟩,
   ⟨0x150028, 1, 4194304, 1, 4194304, 0x0, 0x0, 0x0, 0x0, 0x0⟩]
/-- The register map of R464, the fault registers and windows apart: the rows of 64 KiB of offsets. -/
def regRowsOf (page : Nat) : List RegRow :=
  match page with
  | 0 => regRows0
  | 1 => regRows1
  | 2 => regRows2
  | 3 => regRows3
  | 4 => regRows4
  | 5 => regRows5
  | 6 => regRows6
  | 7 => regRows7
  | 8 | 9 | 10 | 11 | 12 | 13 | 14 | 15 => regRows8
  | 16 => regRows10
  | 17 => regRows11
  | 18 => regRows12
  | 19 => regRows13
  | 20 => regRows14
  | 21 => regRows15
  | _ => []
/-- Fault base of block b (R473). -/
def faultBase (b : Nat) : Nat :=
  match b with
  | 0 => 0xF000 | 1 => 0x4F000 | 2 => 0x5F000 | 3 => 0x6F000 | 4 => 0x7F000 | 5 => 0x10F000 | 6 => 0x11F000
  | 7 => 0x13F000 | 8 => 0x12F000
  | b => 0x8F000 + 0x10000 * (b - 9)

/-- FSEV of block b after cold reset (R473). -/
def fsevReset (b : Nat) : Nat :=
  match b with
  | 0 => 0x2484464
  | 1 => 0x2499491
  | 2 => 0x91
  | 3 => 0x91
  | 4 => 0x3492
  | 5 => 0x848a
  | 6 => 0x12491
  | 7 => 0x4db28a
  | 8 => 0x220c
  | _ => 0x652252292

/-- FRCT of block b after cold reset (R473). -/
def frctReset (b : Nat) : Nat :=
  match b with
  | 0 => 0x10841308273
  | 1 => 0x10842008420
  | 2 => 0x420
  | 3 => 0x420
  | 4 => 0x108421
  | 5 => 0x8421
  | 6 => 0x2108420
  | 7 => 0x842100c03
  | 8 => 0x10803b
  | _ => 0x80210842100421

/-- FSTAT, FFIRST, FSEV, FRCT and FINJ of block b. -/
abbrev rFstat (b : Nat) : Nat := faultBase b
abbrev rFfirst (b : Nat) : Nat := faultBase b + 8
abbrev rFsev (b : Nat) : Nat := faultBase b + 16
abbrev rFrct (b : Nat) : Nat := faultBase b + 24
abbrev rFinj (b : Nat) : Nat := faultBase b + 32

/-- The block whose fault registers stand in 64 KiB of offsets (R473): the inverse of `faultBase`. -/
def faultPage (page : Nat) : Option Nat :=
  match page with
  | 0 => some 0 | 4 => some 1 | 5 => some 2 | 6 => some 3 | 7 => some 4 | 16 => some 5 | 17 => some 6 | 19 => some 7 | 18 => some 8
  | 8 => some 9 | 9 => some 10 | 10 => some 11 | 11 => some 12 | 12 => some 13 | 13 => some 14 | 14 => some 15 | 15 => some 16
  | _ => none

/-- The block and register (0 FSTAT to 4 FINJ) at a fault register's offset: the last 4 KiB of the block's offsets begin with them. -/
def faultRegAt (off : Nat) : Option (Nat × Nat) :=
  let r := off % 65536
  if r < 61440 ∨ 61472 < r ∨ r % 8 ≠ 0 then none else (faultPage (off / 65536)).map fun b => (b, (r - 61440) / 8)

/-- Whether the row gives a register at the offset. -/
def RegRow.covers (r : RegRow) (off : Nat) : Bool :=
  Nat.ble r.base off && decide ((off - r.base) / r.s1 < r.n1)
    && decide ((off - r.base) % r.s1 / r.s2 < r.n2) && decide ((off - r.base) % r.s1 % r.s2 = 0)

/-- The row of a register's offset; none where the offset is unassigned (R465) or a fault register. -/
def regRow (off : Nat) : Option RegRow := (regRowsOf (off / 65536)).find? fun r => r.covers off

/-- What a register holds after cold reset (R473 for the fault registers). -/
def regReset (off : Nat) : Nat :=
  match faultRegAt off with
  | some (b, 2) => fsevReset b
  | some (b, 3) => frctReset b
  | some _ => 0
  | none => ((regRow off).map (·.reset)).getD 0

end Sys2Proof.Machine
end

