-- ==== Sys2Proof/Machine/Ops.lean ====
section
/-! DEFINITION. The named operations over registers, tables and external memory, and the conditions under which units act. -/
namespace Sys2Proof.Machine

/-- What a register holds (R464, R473). -/
def rd (s : State) (off : Nat) : Word := mgetD s.rf off (w64 (regReset off))

/-- The state with a register's value replaced. -/
def wr (s : State) (off : Nat) (v : Word) : State := { s with rf := mset s.rf off (w64 (regReset off)) v }

/-- A field of a register. -/
def get (s : State) (f : Fld) : Nat := wbits (rd s f.off) f.lo f.w

/-- The state with a field replaced, modulo its width. -/
def put (s : State) (f : Fld) (v : Nat) : State := wr s f.off (wput (rd s f.off) f.lo f.w v)

/-- A counter field advanced, wrapping at its width. -/
def bump (s : State) (f : Fld) (n : Nat := 1) : State := put s f (get s f + n)

/-- A high-water mark raised to a value. -/
def hwm (s : State) (f : Fld) (v : Nat) : State := if get s f < v then put s f v else s

/-- A field that is one bit, set. -/
def on (s : State) (f : Fld) : Bool := decide (get s f = 1)

/-- This die's index. -/
def dieOf (s : State) : Nat := get s fCoreSpancfgDie

/-- A microsecond in dt (R314: the tick is 1 ns). -/
def us (n : Nat) : Nat := 1000 * n

/-- OBS_FRZST.STATE is STOPPING, FROZEN or THAWING: the units of R448 stand. -/
def frozen (s : State) : Bool := decide (2 ≤ get s fObsFrzstState)

/-- STOPPING or FROZEN (R449). -/
def freezing (s : State) : Bool := decide (get s fObsFrzstState = 2) || decide (get s fObsFrzstState = 3)

/-- The units clocked by ECLK act: no cold reset, ECLK runs, no freeze (R407, R417, R448). -/
def coreRuns (s : State) : Bool := !s.clk.inReset && !on s fClkStatStopped && !frozen s

/-- A pier and its client exchange entries, replies and beats: their clock is the client's, and they go on while ECLK is stopped (R407,
R409), but not in a freeze (R448). -/
def pierRuns (s : State) : Bool := !s.clk.inReset && !frozen s

/-- The units that a freeze does not stop act. -/
def eclkRuns (s : State) : Bool := !s.clk.inReset && !on s fClkStatStopped

/-- A node of the gate tree is open (R409). Nodes 0 to 63 are in CLK_GOPEN0, 64 to 97 in CLK_GOPEN1. -/
def gateOn (s : State) (n : Nat) : Bool :=
  if n < 64 then nbit (rd s rClkGopen0).toNat n else nbit (rd s rClkGopen1).toNat (n - 64)

/-- The state with a gate opened or closed. -/
def setGate (s : State) (n : Nat) (v : Bool) : State :=
  if n < 64 then put s ⟨rClkGopen0, n, 1⟩ (b2n v) else put s ⟨rClkGopen1, n - 64, 1⟩ (b2n v)

/-- The parent of a gate node (R409). -/
def gateParent (n : Nat) : Option Nat :=
  if n = 0 then none else if 9 ≤ n ∧ n ≤ 72 then some (1 + (n - 9) / 8) else some 0

/-- A node and its ancestors are opened (R413). -/
def openGate (s : State) (n : Nat) : State :=
  let s := setGate s n true
  match gateParent n with
  | none => s
  | some p =>
    let s := setGate s p true
    match gateParent p with
    | none => s
    | some q => setGate s q true

/-- Slice i's clock runs. A closed slice offers no slot, member window or waiter entry (R413). -/
def sliceOn (s : State) (i : Nat) : Bool := gateOn s (9 + i)

/-- Firmware serves: released, its start duties done (R422), and no live update begun (R426). -/
def fwRuns (s : State) : Bool := on s fFwStatRun && on s fFwStatReady && decide (get s fFwUpdstState ≠ 1)

/-- The netlist's entry of a pier number. -/
def pierNet (s : State) (p : Nat) : Option PierNet := s.net.piers.find? fun x => decide (x.pier = p)

/-- The pier that serves an agent (R8, R9). -/
def pierOf (s : State) (a : Nat) : Option PierNet :=
  s.net.piers.find? fun x => x.agents.any fun g => decide (g.1 = a)

/-- The agent of a pier's local index (R476). -/
def agentAt (p : PierNet) (ag : Nat) : Option Nat := p.agents[ag]?.map (·.1)

/-- The local index of an agent at its pier. -/
def localIdx (p : PierNet) (a : Nat) : Nat := p.agents.findIdx fun g => decide (g.1 = a)

def Agent.zero : Agent := ⟨[], .open, 0, []⟩
def Queue.zero : Queue := ⟨[], [], 0, none⟩
def Pier.zero : Pier := ⟨0, [], 0, [], [], none, [], [], [], false, 0, 0, 0⟩
def Tenant.zero : Tenant := ⟨.active, .active, 0, 0, false⟩
def Port.zero : Port :=
  ⟨.off, 0, 0, 0, 0, false, false, [], [], none, [], 0, [], [], [], none, 0, false, 0, 0, false, 0, 0, false, [], [], [], [], [], [], none⟩
def Lane.zero : Lane := ⟨false, [], [], none, none, false, false, [], false, []⟩
def HEntry.zero : HEntry := ⟨.unallocated, 0, 0, .count⟩

def agentSt (s : State) (a : Nat) : Agent := mgetD s.agents a Agent.zero
def setAgent (s : State) (a : Nat) (g : Agent) : State := { s with agents := mset s.agents a Agent.zero g }
def queueOf (s : State) (a q : Nat) : Queue := mgetD (agentSt s a).queues q Queue.zero
def setQueue (s : State) (a q : Nat) (x : Queue) : State :=
  let g := agentSt s a
  setAgent s a { g with queues := mset g.queues q Queue.zero x }
def pierSt (s : State) (p : Nat) : Pier := mgetD s.piers p Pier.zero
def setPier (s : State) (p : Nat) (x : Pier) : State := { s with piers := mset s.piers p Pier.zero x }
def tenSt (s : State) (t : Nat) : Tenant := mgetD s.tens t Tenant.zero
def setTen (s : State) (t : Nat) (x : Tenant) : State := { s with tens := mset s.tens t Tenant.zero x }
def epochOf (s : State) (t : Nat) : Nat := (tenSt s t).epoch
def portSt (s : State) (n : Nat) : Port := mgetD s.ports n Port.zero
def setPort (s : State) (n : Nat) (x : Port) : State := { s with ports := mset s.ports n Port.zero x }
def laneSt (s : State) (l : Nat) : Lane := mgetD s.lanes l Lane.zero
def setLane (s : State) (l : Nat) (x : Lane) : State := { s with lanes := mset s.lanes l Lane.zero x }
def slotAt (s : State) (key : Nat) : Option Slot := mget s.sema.slots key
def setSlot (s : State) (key : Nat) (x : Slot) : State :=
  { s with sema := { s.sema with slots := mput s.sema.slots key x } }
def delSlot (s : State) (key : Nat) : State := { s with sema := { s.sema with slots := mdel s.sema.slots key } }
def htmAt (s : State) (i : Nat) : HEntry := mgetD s.sema.htm i HEntry.zero
def setHtm (s : State) (i : Nat) (e : HEntry) : State :=
  { s with sema := { s.sema with htm := mset s.sema.htm i HEntry.zero e } }
def ctxAt (s : State) (c : Nat) : Option Ctx := mget s.abc.ctxs c
def setCtx (s : State) (c : Nat) (x : Ctx) : State := { s with abc := { s.abc with ctxs := mput s.abc.ctxs c x } }

/-- Key of a slot: slice and slot number. -/
def slotKey (slice slot : Nat) : Nat := slice * 4096 + slot
def sliceOf (key : Nat) : Nat := key / 4096
def slotOf (key : Nat) : Nat := key % 4096

/-- Column and row distance between two routers, dx + dy (R17, R98). Router and slice numbers are 8 x row + column. -/
def dist (a b : Nat) : Nat :=
  let d (x y : Nat) : Nat := if x < y then y - x else x - y
  d (a % 8) (b % 8) + d (a / 8) (b / 8)

/-- The router of a Viaduct port (R501). -/
def portRouter (n : Nat) : Nat :=
  let at_ (col row : Nat) : Nat := 8 * row + col
  match n with
  | 0 => at_ 7 3 | 1 => at_ 0 4 | 2 => at_ 3 7 | 3 => at_ 4 0 | 4 => at_ 7 4 | 5 => at_ 0 3 | 6 => at_ 4 7
  | _ => at_ 3 0

/-- The router of an Abacus unit (R501). -/
def abacusRouter (u : Nat) : Nat := 8 * (2 * (u / 4) + 1) + (2 * (u % 4) + 1)

/-- From x to y by single steps, both ends included. -/
def stepsTo (x y : Nat) : List Nat :=
  if x ≤ y then (List.range (y + 1 - x)).map (x + ·) else (List.range (x + 1 - y)).map (x - ·)

/-- The routers that a message passes, its source's and its destination's included: along the row to the destination's
column, then along the column (R12). -/
def girderPath (a b : Nat) : List Nat :=
  ((stepsTo (a % 8) (b % 8)).map (8 * (a / 8) + ·)) ++ ((stepsTo (a / 8) (b / 8)).drop 1).map (8 * · + b % 8)

/-- The lowest number below a bound that a list does not hold; the bound where it holds them all. -/
def freeWord (n : Nat) (used : List Nat) : Nat := ((List.range n).find? fun i => !used.contains i).getD n

/-- The first of the numbers below 64 that is nearest to a router by dx + dy and meets a test (R38, R98). -/
def nearest (r : Nat) (p : Nat → Bool) : Option Nat :=
  (List.range 15).findSome? fun d => (List.range 64).find? fun i => decide (dist r i = d) && p i

/-! External memory as the master port sees it (R489): a list of cells in rising address order; an unlisted address reads
0 (log entry 5), and no cell holds 0. -/

/-- What one byte of external memory reads as. -/
def memByte : List Host.Cell → Nat → Byte
  | [], _ => 0
  | (a', b) :: r, a => if a' = a then b else memByte r a

/-- External memory without an address listed. -/
def memDrop : List Host.Cell → Nat → List Host.Cell
  | [], _ => []
  | (a', b) :: r, a => if a' = a then r else (a', b) :: memDrop r a

/-- External memory with a byte listed at an address. -/
def memIns : List Host.Cell → Nat → Byte → List Host.Cell
  | [], a, b => [(a, b)]
  | (a', b') :: r, a, b =>
    if a < a' then (a, b) :: (a', b') :: r
    else if a = a' then (a, b) :: r
    else (a', b') :: memIns r a b

/-- External memory with one byte written: writing 0 removes the entry. -/
def memPut (m : List Host.Cell) (a : Nat) (b : Byte) : List Host.Cell :=
  if b = 0 then memDrop m a else memIns m a b

/-- External memory with bytes written at rising addresses. -/
def memPuts (m : List Host.Cell) (a : Nat) : List Byte → List Host.Cell
  | [] => m
  | b :: r => memPuts (memPut m a b) (a + 1) r

/-- n bytes of external memory. -/
def memBytes (m : List Host.Cell) (a n : Nat) : List Byte := (List.range n).map fun i => memByte m (a + i)

/-- The canonical form of external memory: addresses strictly rising, no byte that an unlisted address reads as. -/
def Memory.wf : List Host.Cell → Bool
  | [] => true
  | (a, b) :: r => decide (b ≠ 0) && (r.all fun c => decide (a < c.1)) && Memory.wf r

/-- A 64-bit word of external memory. -/
def mem64 (s : State) (a : Nat) : Word := w64 (ofBytes (memBytes s.mem a 8))

/-- A 64-bit word of external memory written. -/
def setMem64 (s : State) (a : Nat) (v : Word) : State := { s with mem := memPuts s.mem a (bytesOf 8 v.toNat) }

end Sys2Proof.Machine
end

