-- ==== Sys2Proof/Machine/Flags.lean ====
section
/-! DEFINITION. Status and fault flags: the codes of R91, and how a fault source is raised, recorded and reacted to
(R371 to R388). -/
namespace Sys2Proof.Machine

/-- The code of a status (R91). -/
def stCode : Status → Nat
  | .ok => 0x00 | .timeout => 0x01 | .cancelled => 0x02 | .disabled => 0x03 | .underflow => 0x04 | .overflow => 0x05
  | .prot => 0x06 | .resource => 0x07 | .full => 0x08 | .poison => 0x09 | .degraded => 0x0A | .nonmember => 0x0B
  | .dataLate => 0x0C | .epochStale => 0x0D | .busyFw => 0x0E | .badop => 0x0F | .tenantBusy => 0x10
  | .participantLost => 0x11 | .poolOverflow => 0x12 | .overrun => 0x13 | .chunked => 0x14

/-- The status of a code. -/
def statusOf (n : Nat) : Option Status :=
  [Status.ok, .timeout, .cancelled, .disabled, .underflow, .overflow, .prot, .resource, .full, .poison, .degraded,
   .nonmember, .dataLate, .epochStale, .busyFw, .badop, .tenantBusy, .participantLost, .poolOverflow, .overrun,
   .chunked][n]?

/-- The number of a kind (R21). -/
def kdCode : Kind → Nat
  | .count => 0 | .seq => 1 | .event => 2 | .pool => 3 | .barrier => 4

/-- The kind of a number; 5 to 7 are none. -/
def kindOf (n : Nat) : Option Kind := [Kind.count, .seq, .event, .pool, .barrier][n]?

/-- The fault blocks of R369. -/
abbrev bCore : Nat := 0
abbrev bSema : Nat := 1
abbrev bWait : Nat := 2
abbrev bAbc : Nat := 3
abbrev bTrs : Nat := 4
abbrev bTime : Nat := 5
abbrev bPier : Nat := 6
abbrev bFw : Nat := 7
abbrev bClk : Nat := 8
abbrev bVia (n : Nat) : Nat := 9 + n

/-! The DETAIL layouts of R399. -/
def dAgt (agent queue die : Nat) : Nat := agent % 2048 + 2048 * (queue % 4) + 8192 * (die % 64)
def dObj (slice slot tenant : Nat) : Nat := slice % 64 + 64 * (slot % 4096) + 262144 * (tenant % 256)
def dMem (target word : Nat) : Nat := target % 16 + 16 * (word % 2 ^ 26)
def dPmem (pier target word : Nat) : Nat := pier % 2048 + 2048 * (target % 16) + 32768 * (word % 2 ^ 15)
def dTen (tenant agent : Nat) : Nat := tenant % 256 + 256 * (agent % 2048)
def dSrc (block source req : Nat) : Nat := block % 32 + 32 * (source % 16) + 512 * (req % 65536)
def dCtx (ctx : Nat) (phase : Bool) : Nat := ctx % 1024 + 1024 * b2n phase
def dLane (lane die : Nat) : Nat := lane % 64 + 64 * (die % 64)

/-- Source s's programmed severity; 5 to 7 are treated as 4. -/
def sevOf (s : State) (b src : Nat) : Nat := min 4 (wbits (rd s (rFsev b)) (3 * src) 3)

/-- Source s's programmed reactions: bit 0 INT, 1 TRAP, 2 BRST, 3 CRST, 4 ERR (R373). -/
def rctOf (s : State) (b src : Nat) : Nat := wbits (rd s (rFrct b)) (5 * src) 5

/-- Whether any port is in link retry (R285, R388). -/
def anyRetry (s : State) : Bool := (List.range 8).any fun n => on s (fViaLstatRetry n)

/-- The reactions of R371 for a severity and a mask. -/
def reactions (sev mask : Nat) : Nat :=
  if sev = 0 then 0 else if sev = 3 then mask ||| 4 else if sev = 4 then mask ||| 18 else mask

/-- The shadow that makes an event of block b consequential: the block whose shadow opened first among those of other
blocks still open. No event of a block whose own reset is in progress is consequential (R384); a reset's work is done in the
tick in which its shadow opens (log entry 94). -/
def shadowOver (s : State) (b : Nat) : Option Nat :=
  if s.flt.shadows.any fun x => decide (x.1 = b) && decide (x.2.1 = s.now) then none
  else (s.flt.shadows.find? fun x => decide (x.1 ≠ b) && decide (s.now < x.2.2)).map (·.1)

/-! FFIRST and FSTAT fields (R400, Registers). -/
abbrev fFirstSrc (b : Nat) : Fld := ⟨rFfirst b, 0, 4⟩
abbrev fFirstValid (b : Nat) : Fld := ⟨rFfirst b, 4, 1⟩
abbrev fFirstConseq (b : Nat) : Fld := ⟨rFfirst b, 5, 1⟩
abbrev fFirstRetry (b : Nat) : Fld := ⟨rFfirst b, 6, 1⟩
abbrev fFirstCblk (b : Nat) : Fld := ⟨rFfirst b, 7, 5⟩
abbrev fFirstSev (b : Nat) : Fld := ⟨rFfirst b, 12, 3⟩
abbrev fFirstCount (b : Nat) : Fld := ⟨rFfirst b, 16, 6⟩
abbrev fFirstLater (b : Nat) : Fld := ⟨rFfirst b, 22, 12⟩
abbrev fFirstDetail (b : Nat) : Fld := ⟨rFfirst b, 34, 30⟩
abbrev fStatSticky (b : Nat) : Fld := ⟨rFstat b, 0, 12⟩
abbrev fStatFdt (b : Nat) : Fld := ⟨rFstat b, 32, 32⟩

/-- Bits [37:6] of a Deck Time (FSTAT.FDT). -/
def fdtOf (t : Nat) : Nat := t / 64 % 2 ^ 32

/-- A first-fault record as R377 writes it. -/
def firstWord (src sev : Nat) (conseq : Option Nat) (retry : Bool) (count later detail : Nat) : Word :=
  w64 (src + 16 + 32 * b2n conseq.isSome + 64 * b2n retry + 128 * conseq.getD 0 + 4096 * sev + 65536 * count
    + 2 ^ 22 * later + 2 ^ 34 * (detail % 2 ^ 30))

/-- How an event is recorded (R377, R385). -/
def recordEvent (s : State) (b src sev : Nat) (conseq : Option Nat) (retry : Bool) (detail : Nat) : State :=
  if !on s (fFirstValid b) then
    put (wr s (rFfirst b) (firstWord src sev conseq retry 0 0 detail)) (fStatFdt b) (fdtOf s.now)
  else if conseq.isNone && on s (fFirstConseq b) then
    let count := min 63 (get s (fFirstCount b) + 1)
    let later := get s (fFirstLater b) ||| 2 ^ get s (fFirstSrc b)
    put (wr s (rFfirst b) (firstWord src sev none retry count later detail)) (fStatFdt b) (fdtOf s.now)
  else
    let s := put s (fFirstLater b) (get s (fFirstLater b) ||| 2 ^ src)
    let s := put s (fFirstCount b) (min 63 (get s (fFirstCount b) + 1))
    if sev = 4 then put s (fFirstSev b) 4 else s

/-- A fault source is raised: recorded, its sticky bit set and its reactions taken (R374 to R388). BRST asks for a block
reset, which Machine/Reset.lean carries out in the cycle after. -/
def raise (s : State) (b src detail : Nat) : State :=
  let retry := decide (b = 2) && decide (src = 2) && anyRetry s
  let protected_ := nbit (rd s (rKeyNodown b)).toNat src
  let sev := if retry && !protected_ then sevOf s b src - 1 else sevOf s b src
  let conseq := if sev = 4 then none else shadowOver s b
  let s1 := recordEvent s b src sev conseq retry detail
  match conseq with
  | some _ => s1
  | none =>
    let rct := reactions sev (rctOf s b src)
    let s2 := put s1 (fStatSticky b) (get s1 (fStatSticky b) ||| 2 ^ src)
    let k := 16 * b + src
    let f := s2.flt
    let f := { f with levels := mset f.levels k 0 (mgetD f.levels k 0 ||| (rct &&& 19)) }
    let f := if nbit rct 3 then { f with crq := true } else f
    let f := if sev = 4 then { f with sealedBits := mset f.sealedBits b 0 (mgetD f.sealedBits b 0 ||| 2 ^ src) } else f
    let f := if nbit rct 2 && decide (b ≠ bCore) then { f with resets := f.resets ++ [(b, detail % 2 ^ 30 + 2 ^ 30 * src)] } else f
    { s2 with flt := f }

/-- Several events of one block raised in the same cycle: the one of highest effective severity first, among equal
severities the lowest source (R378). -/
def raiseAll (s : State) (b : Nat) (evs : List (Nat × Nat)) : State :=
  let byRank := [4, 3, 2, 1, 0].flatMap fun v =>
    (List.range 12).flatMap fun src => evs.filter fun e => decide (e.1 = src) && decide (sevOf s b src = v)
  byRank.foldl (fun s e => raise s b e.1 e.2) s

/-- The level of interrupt line FLT_IRQ[b] (R374). -/
def irqLevel (s : State) (b : Nat) : Bool :=
  (List.range 12).any fun src => nbit (get s (fStatSticky b)) src && nbit (mgetD s.flt.levels (16 * b + src) 0) 0

/-- Whether any sticky bit holds a level reaction (bit 1 TRAP, bit 4 ERR). -/
def anyLevel (s : State) (bit : Nat) : Bool :=
  (List.range 17).any fun b => (List.range 12).any fun src =>
    nbit (get s (fStatSticky b)) src && nbit (mgetD s.flt.levels (16 * b + src) 0) bit

/-! Check bits (R390, R394). -/

/-- Whether the table of R394 gives a block's injections no UNIT: the bridge-keeper and the Viaduct ports. -/
def noUnit (b : Nat) : Bool := decide (b = bFw) || decide (9 ≤ b)

/-- Whether FINJ of block b is armed for a target and unit. -/
def finjHits (s : State) (b target unit : Nat) : Bool :=
  let w := rd s (rFinj b)
  decide (wbits w 12 1 = 1) && decide (wbits w 0 4 = target) && (noUnit b || decide (wbits w 14 11 = unit))

/-- The injection is made: ARM clears, DONE sets. -/
def finjDone (s : State) (b : Nat) : State := wr s (rFinj b) (wput (wput (rd s (rFinj b)) 12 1 0) 13 1 1)

/-- Whether an armed injection inverts two bits. -/
def finjTwo (s : State) (b : Nat) : Bool :=
  let w := rd s (rFinj b)
  decide (wbits w 11 1 = 1) && decide (wbits w 5 3 ≠ wbits w 8 3)

/-- A check word is written: an armed injection inverts its bits, and any other write makes it good (R394). -/
def chkWrite (s : State) (b target unit index : Nat) : State :=
  let keep := s.flt.bad.filter fun x =>
    !(decide (x.block = b) && decide (x.target = target) && decide (x.unit = unit) && decide (x.index = index))
  if finjHits s b target unit then
    let two := finjTwo s b
    let s := finjDone s b
    { s with flt := { s.flt with bad := keep ++ [⟨b, target, unit, index, two⟩] } }
  else { s with flt := { s.flt with bad := keep } }

/-- What a read of a check word finds: good, corrected, or uncorrectable. -/
inductive Ecc where
  | good | ce | ue
  deriving DecidableEq, Repr

/-- A check word is read; a word found bad is mended or left to its handling (R390, R391). -/
def chkRead (s : State) (b target unit index : Nat) : State × Ecc :=
  match takeFirst (fun x : BadWord =>
      decide (x.block = b) && decide (x.target = target) && decide (x.unit = unit) && decide (x.index = index))
      s.flt.bad with
  | none => (s, .good)
  | some (x, rest) => ({ s with flt := { s.flt with bad := rest } }, if x.two then .ue else .ce)

/-- A word that passes on a bus: an armed injection strikes this word and is found at once (R390, R394). -/
def busWord (s : State) (b target unit : Nat) : State × Ecc :=
  if finjHits s b target unit then (finjDone s b, if finjTwo s b then .ue else .ce) else (s, .good)

/-- How a message comes through Girder (R391, R392). -/
inductive Passage where
  | whole | poisoned | lost
  deriving DecidableEq, Repr

/-- A message passes a router: one payload word, and the header word in its two copies (R390 to R392). A copy that no injection
strikes is bad where the state lists it so. -/
def routerPass (s : State) (r : Nat) : State × Passage :=
  let (s, a) := busWord s bCore 1 r
  let (s, h) := busWord s bCore 2 r
  let (s, h0) := chkRead s bCore 2 r 0
  let (s, h1) := chkRead s bCore 2 r 1
  if (h = .ue ∨ h0 = .ue) ∧ h1 = .ue then (raise s bCore 4 (dMem 2 r), .lost)
  else
    let header := decide (h ≠ .good) || decide (h0 ≠ .good) || decide (h1 ≠ .good)
    let s := if a = .ce ∨ header = true then raise s bCore 2 (dMem (if a = .ce then 1 else 2) r) else s
    if a = .ue then (raise s bCore 3 (dMem 1 r), .poisoned) else (s, .whole)

/-- A message passes routers in turn; one that is lost goes no further. -/
def passRouters : List Nat → State → State × Passage
  | [], s => (s, .whole)
  | r :: rest, s =>
    match routerPass s r with
    | (s, .lost) => (s, .lost)
    | (s, .whole) => passRouters rest s
    | (s, .poisoned) =>
      match passRouters rest s with
      | (s, .lost) => (s, .lost)
      | (s, _) => (s, .poisoned)

/-- A message crosses Girder from router to router (R12). -/
def girderPass (s : State) (a b : Nat) : State × Passage := passRouters (girderPath a b) s

/-- DEGRADED mode is entered (R395, R396): what it ends stands in Machine/Reset.lean. -/
def degradedOn (s : State) : Bool := s.flt.degraded

end Sys2Proof.Machine
end

