-- ==== Sys2Proof/Machine/Operands.lean ====
section
/-! DEFINITION. The fields of command packets (R62 to R75), the words of replies (R76, R79) and of the records of a slot
(R21, R22, R130, R131, R256, R455). -/
namespace Sys2Proof.Machine

/-- Word i of a packet; a packet has 4 or 16. -/
def pw (ws : List Word) (i : Nat) : Word := ws.getD i 0

def pOpcode (ws : List Word) : Nat := wbits (pw ws 0) 0 8
def pFlags (ws : List Word) : Nat := wbits (pw ws 0) 8 16
def pScope (ws : List Word) : Nat := wbits (pw ws 0) 24 3
def pNent (ws : List Word) : Nat := wbits (pw ws 0) 27 5
def pLayer (ws : List Word) : Nat := wbits (pw ws 0) 32 16
def pOper (ws : List Word) : Nat := wbits (pw ws 0) 48 16
def pHandle (ws : List Word) : Nat := wbits (pw ws 1) 0 32
def pDie (ws : List Word) : Nat := wbits (pw ws 1) 26 6
def pObj (ws : List Word) : Nat := wbits (pw ws 1) 0 26
def pAux (ws : List Word) : Nat := wbits (pw ws 1) 32 32
def pOperand (ws : List Word) : Word := pw ws 2
def pTimeout (ws : List Word) : Nat := wbits (pw ws 3) 0 32
def pDwcount (ws : List Word) : Nat := wbits (pw ws 3) 32 32

/-- A handle of a die and an object number (R31). -/
def handleOf (die obj : Nat) : Nat := die * 2 ^ 26 + obj % 2 ^ 26

/-- The flags of R65. -/
def fREL (ws : List Word) : Bool := nbit (pFlags ws) 0
def fACQ (ws : List Word) : Bool := nbit (pFlags ws) 1
def fRDATA (ws : List Word) : Bool := nbit (pFlags ws) 2
def fTRY (ws : List Word) : Bool := nbit (pFlags ws) 3
def fSPLIT (ws : List Word) : Bool := nbit (pFlags ws) 4
def fLANE (ws : List Word) : Bool := nbit (pFlags ws) 5
def fANY (ws : List Word) : Bool := nbit (pFlags ws) 6
def fPREF (ws : List Word) : Bool := nbit (pFlags ws) 7
def fALLQ (ws : List Word) : Bool := nbit (pFlags ws) 8
def fTRACE (ws : List Word) : Bool := nbit (pFlags ws) 9

/-- The opcode of a value (R64); every other value is undefined. -/
def opOf (v : Nat) : Option Op :=
  match v with
  | 0x01 => some .sigAdd | 0x02 => some .sigSub | 0x03 => some .poll | 0x04 => some .waitGe | 0x05 => some .waitTake
  | 0x06 => some .take | 0x07 => some .give | 0x08 => some .arrive | 0x09 => some .arriveCombine | 0x0A => some .fence
  | 0x10 => some .route | 0x11 => some .member | 0x18 => some .alloc | 0x19 => some .free | 0x1A => some .audit
  | _ => none

/-- The place of an opcode in the table of R64: its bit of OPMASK (R436). -/
def opBit : Op → Nat
  | .sigAdd => 0 | .sigSub => 1 | .poll => 2 | .waitGe => 3 | .waitTake => 4 | .take => 5 | .give => 6 | .arrive => 7
  | .arriveCombine => 8 | .fence => 9 | .route => 10 | .member => 11 | .alloc => 12 | .free => 13 | .audit => 14

/-- The opcode of a packet. -/
def pOp (ws : List Word) : Option Op := opOf (pOpcode ws)

/-- Whether an opcode value denotes an extended packet (R64). -/
def isExt (v : Nat) : Bool := decide (0x10 ≤ v) && decide (v ≤ 0x17)

/-- A blocking command (R69): it may wait, and holds its queue. -/
def blocking (ws : List Word) : Bool :=
  match pOp ws with
  | some .waitGe => true
  | some .waitTake => true
  | some .take => true
  | some .arrive => !fSPLIT ws
  | some .arriveCombine => !fSPLIT ws
  | _ => false

/-- A command that holds its queue until its reply is generated (R85, R88). -/
def holdsQueue (ws : List Word) : Bool := blocking ws || decide (pOp ws = some .fence)

/-- A lane arrival (R65). -/
def isLane (ws : List Word) : Bool := decide (pOp ws = some .arrive) && fLANE ws

/-- Whether a flag may be set on an opcode (R65). -/
def flagsLegal (op : Op) (ws : List Word) : Bool :=
  let split := (op = .arrive ∨ op = .arriveCombine) ∧ fSPLIT ws = true
  (!fREL ws || [Op.sigAdd, .sigSub, .give, .route, .arrive, .arriveCombine, .member, .fence].contains op)
    && (!fACQ ws || [Op.waitGe, .waitTake, .take, .poll, .fence].contains op
        || ([Op.arrive, .arriveCombine].contains op && !decide split))
    && (!fRDATA ws || ((([Op.sigAdd, .sigSub, .give, .route].contains op)
        || (decide (op = .arrive) && !fLANE ws)) && fREL ws))
    && (!fSPLIT ws || [Op.arrive, .arriveCombine].contains op)
    && (!fLANE ws || decide (op = .arrive))
    && (!fANY ws || decide (op = .alloc))
    && (!fPREF ws || decide (op = .alloc))
    && (!fALLQ ws || decide (op = .fence))
    && decide (pFlags ws / 1024 = 0)

/-- Entry i of a ROUTE packet (R72): bytes [16+3i+2 : 16+3i]. -/
def routeEntry (ws : List Word) (i : Nat) : REntry :=
  let b (k : Nat) : Nat := wbits (pw ws ((16 + 3 * i + k) / 8)) (8 * ((16 + 3 * i + k) % 8)) 8
  let v := b 0 + 256 * b 1 + 65536 * b 2
  ⟨i, v % 1024, v / 1024 % 256, v / 2 ^ 18 % 64⟩

/-- The entries in use: NENT + 1 (R73). -/
def routeEntries (ws : List Word) : List REntry := (List.range (pNent ws + 1)).map fun i => routeEntry ws i

/-- Count slot j of a ROUTE: valid, its die, its DWCOUNT (R72). -/
def routeSlot (ws : List Word) (j : Nat) : Bool × Nat × Nat :=
  (nbit (pAux ws) (24 + j), pAux ws / 2 ^ (6 * j) % 64, wbits (pw ws (14 + j / 2)) (32 * (j % 2)) 32)

/-- The valid count slots: die and DWCOUNT. -/
def routeSlots (ws : List Word) : List (Nat × Nat) :=
  ((List.range 4).map fun j => routeSlot ws j).filterMap fun x => if x.1 then some x.2 else none

/-- MODE, WIN and MASK of a MEMBER packet (R75): the mask is bytes [79:16]. -/
def memberMode (ws : List Word) : Nat := pAux ws % 4
def memberWin (ws : List Word) : Nat := pAux ws / 4 % 8
def memberMask (ws : List Word) : BitVec 512 :=
  BitVec.ofNat 512 ((List.range 8).foldl (fun n i => n + (pw ws (2 + i)).toNat * 2 ^ (64 * i)) 0)

/-- Must-be-zero bits clear, MODE defined and scope defined (R63, R66, R67, R72, R75), for the checks of R92 step 3 that
look at the packet alone. -/
def operandsLegal (op : Op) (ws : List Word) : Bool :=
  match op with
  | .take => decide (wbits (pOperand ws) 48 16 = 0)
  | .give => decide (wbits (pOperand ws) 48 16 = 0)
  | .alloc => decide (pAux ws / 512 = 0) && decide (wbits (pOperand ws) 48 16 = 0)
  | .route => decide (pAux ws / 2 ^ 28 = 0)
  | .member => decide (pAux ws / 32 = 0) && decide (memberMode ws ≠ 3)
  | _ => true

/-- SCOPE defined where it is read (R66). -/
def scopeLegal (ws : List Word) : Bool := !(fREL ws || fACQ ws) || decide (pScope ws ≤ 4)

/-- The deadline of R118: none is NOTO or a command that does not block. -/
def deadlineOf (ws : List Word) (now : Nat) : Option Nat :=
  if blocking ws && decide (pTimeout ws ≠ 2 ^ 32 - 1) then some (now + 16 * pTimeout ws) else none

/-- Try once (R69): TIMEOUT 0. -/
def tryOnce (ws : List Word) : Bool := blocking ws && decide (pTimeout ws = 0)

/-- The delivered-write count a command must find (R71, R263), none without RDATA. -/
def dwOf (ws : List Word) : Option (BitVec 32) :=
  if fRDATA ws && decide (pOp ws ≠ some .route) then some (BitVec.ofNat 32 (pDwcount ws)) else none

/-- The Girder virtual channel of a command (R11, R64). -/
def vcOf (ws : List Word) : Nat :=
  match pOp ws with
  | some .waitGe => 1
  | some .waitTake => 1
  | some .take => 1
  | _ => 0

/-- A cause record (R79). -/
def causeWord (code die vlow : Nat) : Word := w64 (code % 256 + 256 * (die % 64) + 2 ^ 32 * (vlow % 2 ^ 32))

/-- Cause codes of R79. -/
abbrev cExpired : Nat := 1
abbrev cDataLate : Nat := 2
abbrev cLinkDown : Nat := 3
abbrev cQuiesce : Nat := 4
abbrev cMarionette : Nat := 5
abbrev cEpoch : Nat := 6
abbrev cPaging : Nat := 7
abbrev cDisable : Nat := 8

/-- The status a cause ends a blocking command with (R79, R91). -/
def causeStatus (code : Nat) : Status :=
  match code with
  | 3 => .resource
  | 4 => .cancelled
  | 5 => .cancelled
  | 6 => .cancelled
  | 7 => .resource
  | 8 => .disabled
  | _ => .timeout

/-- A reply generated now without a cause (R78). -/
def plain (s : State) (v : Word) (st : Status) (flags : Nat := 0) : Reply := ⟨v, st, BitVec.ofNat 8 flags, s.now⟩

/-- A reply with a cause record (R79): RFLAGS.CAUSE is bit 6. -/
def caused (s : State) (st : Status) (code die vlow : Nat) : Reply := ⟨causeWord code die vlow, st, 64, s.now⟩

/-- The second word of a reply (R76). -/
def replyWord1 (queue entry : Nat) (r : Reply) : Word :=
  w64 (stCode r.status + 256 * r.rflags.toNat + 2 ^ 16 * (queue % 4) + 2 ^ 18 * (entry % 16) + 2 ^ 24 * (r.dt % 2 ^ 40))

/-! The metadata word (R21), slot tag (R22) and records of a slot. -/

def metaWord (kind : Kind) (param : BitVec 48) (paired poison role cbound : Bool) (ovr : Nat) : Word :=
  w64 (param.toNat + 2 ^ 48 * kdCode kind + 2 ^ 51 * b2n paired + 2 ^ 52 * b2n poison + 2 ^ 53 * b2n role
    + 2 ^ 54 * b2n cbound + 2 ^ 56 * (ovr % 256))

def Slot.metaOf (x : Slot) : Word := metaWord x.kind x.param x.paired x.poison x.role x.cbound x.ovr

/-- An object's metadata taken from its word. -/
def Slot.ofMeta (x : Slot) (w : Word) : Slot :=
  { x with
    kind := (kindOf (wbits w 48 3)).getD .count, param := BitVec.ofNat 48 (wbits w 0 48), paired := nbit w.toNat 51
    poison := nbit w.toNat 52, role := nbit w.toNat 53, cbound := nbit w.toNat 54, ovr := wbits w 56 8 }

/-- Waiter entries of an object in its home table (R22, R99). -/
def Slot.homeWaiters (x : Slot) (key : Nat) : Nat := count (fun w : Waiter => decide (w.table = sliceOf key)) x.waiters

def Slot.tag (x : Slot) (key : Nat) : Word :=
  w64 (x.tenant % 256 + 256 * (x.epoch % 256) + 2 ^ 16 * (x.obj % 2 ^ 26) + 2 ^ 42 * (x.homeWaiters key % 2048) + 2 ^ 53)

def relWord (r : Option RelRec) : Word :=
  match r with
  | none => 0
  | some r => w64 (r.agent % 2048 + 2048 * (r.pier % 2048) + 2 ^ 22 * (r.die % 64) + 2 ^ 28 * (r.scope % 8) + 2 ^ 31)

def sigWord (r : Option SigRec) : Word :=
  match r with
  | none => 0
  | some r => w64 (r.agent % 2048 + 2048 * (r.die % 64) + 2 ^ 17 * (r.dt % 2 ^ 40) + 2 ^ 57 + 2 ^ 58 * b2n r.mar)

/-! A barrier's value word (R130) and PARAM (R131). -/
def barPhase (v : Word) : Bool := nbit v.toNat 0
def barArrived (v : Word) : Nat := wbits v 1 13
def barArmed (v : Word) : Bool := nbit v.toNat 14
def barChold (v : Word) : Bool := nbit v.toNat 15
def barTrel (v : Word) : Nat := wbits v 16 40
def barWord (phase : Bool) (arrived : Nat) (armed chold : Bool) (trel : Nat) : Word :=
  w64 (b2n phase + 2 * (arrived % 8192) + 2 ^ 14 * b2n armed + 2 ^ 15 * b2n chold + 2 ^ 16 * (trel % 2 ^ 40))
def parExpect (p : BitVec 48) : Nat := p.toNat % 8192
def parMode (p : BitVec 48) : Nat := p.toNat / 2 ^ 13 % 4
def parMwin (p : BitVec 48) : Nat := p.toNat / 2 ^ 15 % 8
def parTimed (p : BitVec 48) : Bool := nbit p.toNat 18
def parGrid (p : BitVec 48) : Nat := p.toNat / 2 ^ 19 % 32
def parLead (p : BitVec 48) : Nat := p.toNat / 2 ^ 24 % 2 ^ 16
def parSpan (p : BitVec 48) : Bool := nbit p.toNat 40

/-- PARAM in range for the kind (R39, R132). -/
def paramLegal (k : Kind) (p : BitVec 48) : Bool :=
  match k with
  | .count => true
  | .seq => true
  | .event => decide (p.toNat ≤ 1)
  | .pool => decide (p.toNat ≠ 0)
  | .barrier =>
    let mode := parMode p
    decide (mode ≠ 3) && decide (p.toNat / 2 ^ 41 = 0)
      && (decide (mode = 0) || decide (parExpect p = 0)) && (decide (mode = 1) || decide (parMwin p = 0))
      && !(decide (mode = 0) && decide (parExpect p = 0))
      && !(parTimed p && decide (parGrid p < 6))
      && (parTimed p || (decide (parGrid p = 0) && decide (parLead p = 0) && !parSpan p))
      && !(parTimed p && decide (mode = 2))

/-- The rest value an object is given (R38, R42): a BARRIER's value word 0. -/
def restValue (k : Kind) (p : BitVec 48) : Word :=
  match k with
  | .barrier => 0
  | _ => w64 p.toNat

/-- Whether a value is at rest (R41, R43, R130). -/
def atRest (k : Kind) (p : BitVec 48) (v : Word) : Bool :=
  match k with
  | .barrier => decide (barArrived v = 0) && !barArmed v && !barChold v && decide (barTrel v = 0)
  | .event => decide (v.toNat % 2 = p.toNat % 2)
  | _ => decide (v = w64 p.toNat)

/-- The release time of R147. -/
def trelOf (d lead grid : Nat) : Nat := (d + 64 * lead + 2 ^ grid - 1) / 2 ^ grid * 2 ^ grid

end Sys2Proof.Machine
end

