-- ==== Sys2Proof/Machine/Count.lean ====
section
/-! DEFINITION. Counter events (R433 to R438). -/
namespace Sys2Proof.Machine

/-- An event with the attributes it carries (R435): tenant, layer, operator, opcode bit, kind, format, status code. -/
structure Ev where
  code : Nat
  t : Option Nat
  l : Option Nat
  o : Option Nat
  c : Option Nat
  k : Option Nat
  f : Option Nat
  st : Option Nat
  deriving DecidableEq, Repr

/-- An event with a tenant and nothing else. -/
def Ev.ten (code t : Nat) : Ev := ⟨code, some t, none, none, none, none, none, none⟩

/-- An event of a command: T L O C, with kind and status where given. -/
def Ev.ofCmd (code : Nat) (c : Cmd) (k : Option Kind) (st : Option Status) : Ev :=
  ⟨code, some c.tenant, some (pLayer c.words), some (pOper c.words), (pOp c.words).map opBit, k.map kdCode, none,
   st.map stCode⟩

/-- An event of a command that carries no opcode: T L O (R435). -/
def Ev.ofPart (code : Nat) (c : Cmd) : Ev := { Ev.ofCmd code c none none with c := none }

/-- Value filter: off, or equal to an attribute the event carries. -/
def filtEq (en : Bool) (want : Nat) (a : Option Nat) : Bool := !en || decide (a = some want)

/-- Mask filter: 0 is off; else the attribute's bit is set. -/
def filtMask (mask : Nat) (a : Option Nat) : Bool :=
  decide (mask = 0) || match a with
    | none => false
    | some i => nbit mask i

/-- Whether programmable counter i counts an event (R436). -/
def counts (s : State) (i : Nat) (e : Ev) : Bool :=
  on s (fObsCfg0En i) && decide (get s (fObsCfg0Event i) = e.code)
    && filtEq (on s (fObsCfg0Tenf i)) (get s (fObsCfg0Tenant i)) e.t
    && filtEq (on s (fObsCfg0Layf i)) (get s (fObsCfg0Layer i)) e.l
    && filtEq (on s (fObsCfg0Operf i)) (get s (fObsCfg0Oper i)) e.o
    && filtMask (get s (fObsCfg1Opmask i)) e.c && filtMask (get s (fObsCfg1Kindmask i)) e.k
    && filtMask (get s (fObsCfg1Fmtmask i)) e.f && filtMask (get s (fObsCfg1Stmask i)) e.st

/-- The programmable counters whose OBS_CFG0 is not 0, in rising order. -/
def configured (s : State) : List Nat :=
  (s.rf.filter fun x => decide (rObsCfg0 0 ≤ x.1) && decide (x.1 ≤ rObsCfg0 511)).map fun x => (x.1 - rObsCfg0 0) / 8

/-- Programmable counter i counts once; a wrap is noted for the next sample (R441). In the start cycle of a clear the event
belongs to the old count (R439). -/
def tickCounter (s : State) (i : Nat) : State :=
  let fresh (s : State) : State :=
    let v := get s (fObsCvalValue i)
    let s := put s (fObsCvalValue i) (v + 1)
    if v + 1 = 2 ^ 48 then { s with obs := { s.obs with wrapped := insNat s.obs.wrapped i } } else s
  match s.obs.clearing with
  | some (lo, hi, old) =>
    if lo ≤ i ∧ i ≤ hi then
      let v := (mgetD old i 0).toNat
      let wrapped := if v + 1 = 2 ^ 48 then insNat s.obs.wrapped i else s.obs.wrapped
      { s with obs := { s.obs with clearing := some (lo, hi, mset old i 0 (w64 ((v + 1) % 2 ^ 48))), wrapped := wrapped } }
    else fresh s
  | none => fresh s

/-- Fixed counter k advances (R438); a wrap is noted under 512 + k. -/
def tickFixed (s : State) (k : Nat) (n : Nat := 1) : State :=
  let v := get s (fObsFixValue k)
  let s := put s (fObsFixValue k) (v + n)
  if 2 ^ 48 ≤ v + n then { s with obs := { s.obs with wrapped := insNat s.obs.wrapped (512 + k) } } else s

/-- The fixed counter of an event (R438). -/
def fixedOf (e : Ev) : Option Nat :=
  match e.code with
  | 0x03 => e.st
  | 0x01 => e.c.map (21 + ·)
  | 0x04 => e.k.map (36 + ·)
  | 0x13 => e.f.map (41 + ·)
  | 0x05 => some 56
  | 0x11 => some 57
  | 0x0A => some 58
  | 0x0B => some 59
  | 0x0C => some 60
  | _ => none

/-- An event is counted (R434, R436, R438). -/
def countEv (s : State) (e : Ev) : State :=
  let s := ((configured s).filter fun i => counts s i e).foldl tickCounter s
  match fixedOf e with
  | some k => tickFixed s k
  | none => s

end Sys2Proof.Machine
end

