-- ==== Sys2Proof/Machine/Net.lean ====
section
/-! DEFINITION. The span group (R294 to R301): members, routes, reach states; messages handed to ports; remote credits. -/
namespace Sys2Proof.Machine

/-- CORE_SPANCFG.MODE, 3 treated as 0: 0 SINGLE, 1 TORUS, 2 DIRECT. -/
def spanMode (s : State) : Nat := let m := get s fCoreSpancfgMode; if m = 3 then 0 else m

/-- A coded size: 1, 2 or 4; 3 is treated as 0. -/
def sizeOf_ (c : Nat) : Nat := match c with | 1 => 2 | 2 => 4 | _ => 1
def spanX (s : State) : Nat := sizeOf_ (get s fCoreSpancfgXs)
def spanY (s : State) : Nat := sizeOf_ (get s fCoreSpancfgYs)
def spanZ (s : State) : Nat := sizeOf_ (get s fCoreSpancfgZs)

/-- Mirror pairing is in force: MIRROR set, in TORUS mode (R307). -/
def mirrorOn (s : State) : Bool := on s fCoreSpancfgMirror && decide (spanMode s = 1)

/-- The member dies of the span group (CORE_SPANMEM): a die alone in SINGLE mode (R294, R295, R298). -/
def members (s : State) : List Nat :=
  match spanMode s with
  | 1 => List.range (spanX s * spanY s * spanZ s)
  | 2 => List.range (if on s fCoreSpancfgDn3 then 3 else 2)
  | _ => [dieOf s]

def isMember (s : State) (d : Nat) : Bool := (members s).contains d

/-- One step round a ring of n from a to b: none at the target, else whether the + direction is taken (R296). -/
def ringStep (n a b : Nat) : Option Bool :=
  if n ≤ 1 ∨ a = b then none
  else
    let up := (b + n - a) % n
    some (decide (up ≤ n - up) || decide (n = 2))

/-- The port that a die gives a message for another die (R296, R298). -/
def nextPort (s : State) (a b : Nat) : Option Nat :=
  if a = b then none else
  match spanMode s with
  | 1 =>
    let x := spanX s
    let y := spanY s
    match ringStep x (a % x) (b % x) with
    | some up => some (if up then 0 else 1)
    | none =>
      match ringStep y (a / x % y) (b / x % y) with
      | some up => some (if up then 2 else 3)
      | none =>
        match ringStep (spanZ s) (a / (x * y)) (b / (x * y)) with
        | some up => some (if up then 4 else 5)
        | none => none
  | 2 =>
    if on s fCoreSpancfgDn3 then some (if b = (a + 1) % 3 then 6 else 7) else some 6
  | _ => none

/-- The die at the other end of a port of a die in its span group. -/
def neighbour (s : State) (a p : Nat) : Nat :=
  match spanMode s with
  | 1 =>
    let x := spanX s
    let y := spanY s
    let z := spanZ s
    let cx := a % x
    let cy := a / x % y
    let cz := a / (x * y)
    let at_ (cx cy cz : Nat) : Nat := cx + x * cy + x * y * cz
    match p with
    | 0 => at_ ((cx + 1) % x) cy cz
    | 1 => at_ ((cx + x - 1) % x) cy cz
    | 2 => at_ cx ((cy + 1) % y) cz
    | 3 => at_ cx ((cy + y - 1) % y) cz
    | 4 => at_ cx cy ((cz + 1) % z)
    | 5 => at_ cx cy ((cz + z - 1) % z)
    | _ => a
  | 2 => if on s fCoreSpancfgDn3 then (if p = 6 then (a + 1) % 3 else (a + 2) % 3) else 1 - a
  | _ => a

/-- The port of the die at the other end that a port faces. In a ring of size 2 the + ports face each other (R295). -/
def facingPort (s : State) (p : Nat) : Nat :=
  match spanMode s with
  | 1 =>
    let two (n : Nat) : Nat := if n = 2 then p else if p % 2 = 0 then p + 1 else p - 1
    match p / 2 with
    | 0 => two (spanX s)
    | 1 => two (spanY s)
    | 2 => two (spanZ s)
    | _ => p
  | 2 => if on s fCoreSpancfgDn3 then (if p = 6 then 7 else 6) else 6
  | _ => p

/-- The first port towards a die. -/
def firstPort (s : State) (d : Nat) : Nat := (nextPort s (dieOf s) d).getD 0

/-- The hops of a route, as (die, port), with at most n of them. -/
def routeAux (s : State) : Nat → Nat → Nat → List (Nat × Nat)
  | 0, _, _ => []
  | n + 1, a, b =>
    match nextPort s a b with
    | none => []
    | some p => (a, p) :: routeAux s n (neighbour s a p) b

/-- The route of R296: at most 6 hops. -/
def route (s : State) (a b : Nat) : List (Nat × Nat) := routeAux s 6 a b

/-- The port on which messages from a die arrive: the one that the last hop of its route faces. -/
def recvPort (s : State) (d : Nat) : Nat := ((route s d (dieOf s)).getLast?.map fun h => facingPort s h.2).getD 0

def linkCode : LinkSt → Nat
  | .off => 0 | .pmaTune => 1 | .align => 2 | .init => 3 | .up => 4 | .down => 5 | .failed => 6

/-- The state known of a port of a die: its own ports as they are, others' by the last notice (R300). -/
def linkOf (s : State) (d p : Nat) : Nat :=
  if d = dieOf s then linkCode (portSt s p).st else mgetD s.span.links (8 * d + p) 0

/-- The links of the route to a die and of its reply path, both ends of each (R299). -/
def pathPorts (s : State) (d : Nat) : List (Nat × Nat) :=
  let hops := route s (dieOf s) d ++ route s d (dieOf s)
  hops.flatMap fun h => [h, (neighbour s h.1 h.2, facingPort s h.2)]

def inReach (s : State) (d : Nat) : Bool := nbit (rd s rCoreReach).toNat d
def inLost (s : State) (d : Nat) : Bool := nbit (rd s rCoreLost).toNat d

/-- A member die neither reached nor lost (R299). -/
def isPending (s : State) (d : Nat) : Bool := !inReach s d && !inLost s d

/-- A message handed to a port's transmitter. -/
def sendOn (s : State) (p : Nat) (e : Envelope) : State :=
  let x := portSt s p
  setPort s p { x with sent := x.sent ++ [e] }

/-- A message for a die of the span group, handed to the port on its route (R296). -/
def sendTo (s : State) (d : Nat) (h : Hdr) (m : Msg) : State :=
  match nextPort s (dieOf s) d with
  | some p => sendOn s p ⟨{ h with src := dieOf s, dst := d }, m⟩
  | none => s

/-- The header of a message about a command. -/
def hdrOf (s : State) (c : Cmd) (d : Nat) : Hdr := ⟨dieOf s, d, c.tenant, c.epoch, 0⟩

/-- d = (c - e) mod 256 of R357. -/
def epochDist (cur e : Nat) : Nat := (cur + 256 - e % 256) % 256
def isOlder (cur e : Nat) : Bool := decide (1 ≤ epochDist cur e) && decide (epochDist cur e ≤ 127)
def isNewer (cur e : Nat) : Bool := decide (128 ≤ epochDist cur e)

/-- A message or reply of an older epoch is discarded and counted (R356). -/
def staleDrop (s : State) (t : Nat) : State := countEv (bump s (fTenEpcntStale t)) (Ev.ten 0x21 t)

/-- Every command of every queue: agent, queue, command. -/
def allItems (s : State) : List (Nat × Nat × Item) :=
  s.agents.flatMap fun g => g.2.queues.flatMap fun q => q.2.items.map fun i => (g.1, q.1, i)

/-- Remote credits in use on a port (R125). -/
def creditsUsed (s : State) (p : Nat) : Nat := sumBy (fun x : Nat × Nat × Item => count (fun c => decide (c = p)) x.2.2.credits) (allItems s)

/-- Remote credits of a tenant in use on a port (R346). -/
def tenCredits (s : State) (t p : Nat) : Nat :=
  sumBy (fun x : Nat × Nat × Item =>
    if (x.2.2.cmd.map (·.tenant)) = some t then count (fun c => decide (c = p)) x.2.2.credits else 0) (allItems s)

/-- Whether a tenant's command can take n credits on a port (R125, R346). An OVERDRAWN tenant's use is at or above its
share (R348). -/
def creditFree (s : State) (t p n : Nat) : Bool :=
  decide (creditsUsed s p + n ≤ 1024) && decide (tenCredits s t p + n ≤ 16 * get s (fTenShare1Cred t))

end Sys2Proof.Machine
end

