-- ==== Sys2Proof/Machine/Reply.lean ====
section
/-! DEFINITION. Replies (R76 to R81, R93): how the reply of a command is generated, reaches its pier, waits for an
invalidation and is presented. -/
namespace Sys2Proof.Machine

/-! The Deck Time of a pier (R319 to R325). -/

/-- O_p as a pier adds it: whole dt, halves up (R323). -/
def ofsTarget (s : State) (p : Nat) : Int :=
  let o := get s (fDtPofsOfs p)
  (((if o < 2 ^ 31 then (o : Int) else (o : Int) - 2 ^ 32)) + 8) / 16

/-- The offset a pier applies: a changed O_p comes into it by at most 1 dt in every 16 dt (R325). -/
def ofsNow (s : State) (p : Nat) : Int :=
  let x := pierSt s p
  let n : Int := ((s.now - x.ofsAt) / 16 : Nat)
  if x.ofs ≤ ofsTarget s p then min (ofsTarget s p) (x.ofs + n) else max (ofsTarget s p) (x.ofs - n)

/-- What an ordinary pier has received of the die counter, up to 40 dt late (R321, R324). Bits it received before a jump of the
counter show the counter of before it, and never a value between (R337). -/
def heardNow (s : State) (p : Nat) : Nat :=
  let v := s.now - min 40 (Config.pierLag p s.now)
  match s.dt.jump with
  | some (before, after) => if v < after then before - (after - v) else v
  | none => v

/-- By how much an ordinary pier whose offset is measured may differ from this die's counter while the die is ALIGNED and not in
holdover: 20 dt, or 15 and a cycle of a pier clock below 200 MHz; on a die other than the master's the 4 dt of its own counter come to
it (R322). -/
def pierBound (s : State) (p : Nat) : Nat :=
  let own := if Config.pierCycle p ≤ 5 then 20 else 15 + Config.pierCycle p
  if get s fDtAlstatState = 4 ∧ on s fDtStatHoldover = false ∧ on s fDtStatOob = false then
    (if spanMode s = 0 || (decide (dieOf s = 0) && !(mirrorOn s && on s fCoreSpancfgMside)) then own else own + 4)
  else 2 ^ 64

/-- What an ordinary pier makes of what it hears (R321, R322, R324). -/
def pierReads (s : State) (p : Nat) : Nat :=
  let v := ((heardNow s p : Int) + ofsNow s p).toNat
  if on s (fDtPofsValid p) then max (s.now - pierBound s p) (min (s.now + pierBound s p) v) else v

/-- Deck Time as a pier reads it (R319, R321, R324): a privileged pier its replica; an ordinary one never less than it read
before. -/
def pierNow (s : State) (p : PierNet) : Nat := if p.priv then s.now else max (pierSt s p.pier).lastDt (pierReads s p.pier)

/-- The Deck Time of a pier by number. -/
def pierTime (s : State) (p : Nat) : Nat :=
  match pierNet s p with
  | some n => pierNow s n
  | none => s.now

/-- A pier has read its Deck Time: it will not read less (R321). -/
def timeRead (s : State) (p : Nat) : State :=
  match pierNet s p with
  | some n => if n.priv then s else setPier s p { pierSt s p with lastDt := pierNow s n }
  | none => s

/-- The router of a pier. -/
def pierRouter (s : State) (p : Nat) : Nat := ((pierNet s p).map (·.router)).getD 0

/-- Where a reply or a refusal arises: at the issuing pier itself, at a unit on a Girder router, or at a unit that the manual puts on
none, which are Trestle and firmware (log entry 118). -/
inductive Origin where
  | pier
  | router (r : Nat)
  | apart
  deriving DecidableEq, Repr

/-- The router to which what concerns a command goes back: its pier's, or that of the port towards its die. -/
def backRouter (s : State) (c : Cmd) : Nat := if c.die = dieOf s then pierRouter s c.pier else portRouter (firstPort s c.die)

/-- A message crosses Girder from where it arises to a router (R12, R390 to R392). -/
def cross (s : State) (o : Origin) (dest : Nat) : State × Passage :=
  match o with
  | .router r => girderPass s r dest
  | _ => (s, .whole)

/-- A message that the manual gives no effect when it is poisoned crosses Girder: it is acted on as usual, or lost (log entry 105). -/
def crossed (s : State) (o : Origin) (dest : Nat) (f : State → State) : State :=
  match cross s o dest with
  | (s, .lost) => s
  | (s, _) => f s

/-- A message for another die crosses Girder to the first port on its way. -/
def sendFrom (s : State) (o : Origin) (d : Nat) (h : Hdr) (m : Msg) : State :=
  crossed s o (portRouter (firstPort s d)) fun s => sendTo s d h m

/-- What concerns a command goes back towards its pier. -/
def crossBack (s : State) (o : Origin) (c : Cmd) : State × Passage := cross s o (backRouter s c)

/-- Whether a command of a queue has its reply generated, or none to come (R85). -/
def ItemSt.finished : ItemSt → Bool
  | .done _ _ => true
  | .skip => true
  | _ => false

/-- Index of a queue entry among a pier's check words: local agent, queue and entry. -/
def entryIdx (ag q e : Nat) : Nat := (4 * ag + q) * 16 + e

/-- The first item of a queue that meets a test, changed. -/
def mapItem (s : State) (a q : Nat) (p : Item → Bool) (f : Item → Item) : State :=
  let x := queueOf s a q
  setQueue s a q { x with items := mapFirst p f x.items }

/-- The item holds exactly this command and is not finished. -/
def holds (c : Cmd) (i : Item) : Bool := decide (i.cmd = some c) && !i.st.finished

/-- The unfinished item of a command on its own die. -/
def itemOf (s : State) (c : Cmd) : Option Item := (queueOf s c.agent c.queue).items.find? (holds c)

/-- An acquire invalidation is made before delivery: ACQ, or a combine (R246), with OK, OVERRUN or CHUNKED (R247). -/
def needsInval (ws : List Word) (st : Status) : Bool :=
  (fACQ ws || decide (pOp ws = some .arriveCombine))
    && [Status.ok, .overrun, .chunked].contains st

/-- The scope of a command's acquire invalidation: SCOPE with ACQ (R247), AGENT for a combine without it (R246). -/
def invalScope (ws : List Word) : Nat := if fACQ ws then pScope ws else 0

/-- A combine participant of this agent has result beats not yet written, which hold this reply: the arrival's own, or
that of a WAIT_GE on the phase of a SPLIT arrival (R232). -/
def beatsOut (s : State) (c : Cmd) (st : Status) : Bool :=
  [Status.ok, .chunked].contains st &&
    s.abc.ctxs.any fun x => x.2.parts.any fun p =>
      decide (p.cmd.agent = c.agent) && decide (p.cmd.die = c.die) && !(p.final && decide (p.left = 0)) &&
        ((decide (p.cmd = c) && !fSPLIT c.words)
          || (decide (pOp c.words = some .waitGe) && fSPLIT p.cmd.words && decide (pHandle c.words = pHandle p.cmd.words)
              && (nbit (pOperand c.words).toNat 0 == x.2.phase)))

/-- What a generated reply waits for: unconfirmed result beats (R232), then its invalidation (R247). One invalidation
of a queue is outstanding at a time (R480). -/
def awaitOf (s : State) (items : List Item) (c : Cmd) (st : Status) : Await :=
  if beatsOut s c st then .beats
  else if !needsInval c.words st then .nothing
  else if items.any (fun j => match j.st with | .done _ (.invalAsked _) => true | _ => false) then .inval
  else .invalAsked (invalScope c.words)

/-- A trace record of R446; without a reply it carries FLUSHED. -/
def traceWords (i : Item) (c : Cmd) (r : Option Reply) : List Word :=
  let st := match r with | some r => stCode r.status + 256 * r.rflags.toNat | none => 0
  let dt := match r with | some r => r.dt % 2 ^ 40 + 2 ^ 40 * (r.value.toNat % 2 ^ 24) | none => 0
  [w64 (c.issue % 2 ^ 40 + 2 ^ 40 * c.agent + 2 ^ 51 * c.queue + 2 ^ 53 * i.entry + 2 ^ 63 * b2n r.isNone),
   pw i.words 0, w64 (pHandle i.words + 2 ^ 32 * st + 2 ^ 48 * c.tenant + 2 ^ 56 * c.epoch), w64 dt]

/-- LOG2 of a ring, values outside 16 to 32 treated as the nearer bound. -/
def ringLog (v : Nat) : Nat := max 16 (min 32 v)

/-- The room of the trace ring: 2^LOG2 - (HEAD - TAIL). -/
def trRoom (s : State) : Nat :=
  2 ^ ringLog (get s fObsTrringLog2) - (get s fObsTrheadHead - get s fObsTrtailTail)

/-- A trace record reaches the collector of 256; one that finds the collector or the ring full is dropped (R446). -/
def traceSend (s : State) (rec : List Word) : State :=
  let o := s.obs
  if 256 ≤ o.collector.length ∨ trRoom s < 32 * (o.collector.length + 1) then bump s fObsStatTrdrop
  else { s with obs := { o with collector := o.collector ++ [rec], trWriting := true } }

/-- A traced command ends without a reply (R446). -/
def traceFlushed (s : State) (i : Item) : State :=
  match i.traced, i.cmd with
  | true, some c => traceSend s (traceWords i c none)
  | _, _ => s

/-! Presentation of replies (R81, R478). -/

/-- The head of a queue's deliveries, items to be passed over dropped (R359). -/
def dropSkips : List Item → List Item
  | [] => []
  | i :: r => if i.st = .skip then dropSkips r else i :: r

/-- Whether a queue has a reply ready to present. -/
def deliverable (s : State) (a q : Nat) : Bool :=
  match dropSkips (queueOf s a q).items with
  | i :: _ => match i.st with | .done _ .nothing => true | _ => false
  | [] => false

/-- The pointer rule of R59 and R478: the first agent at or after the agent pointer with a ready queue, and its first
ready queue at or after its own pointer. Answers local index and queue. -/
def rrPick (n pa : Nat) (pq : SMap Nat) (ready : Nat → Nat → Bool) : Option (Nat × Nat) :=
  (List.range n).findSome? fun k =>
    let g := (pa + k) % n
    ((List.range 4).find? fun j => ready g ((mgetD pq g 0 + j) % 4)).map fun j => (g, (mgetD pq g 0 + j) % 4)

/-- RFLAGS.REMOTE (R77): the command's home die is not the issuing die. A ROUTE sets its own (R177). -/
def withRemote (c : Cmd) (r : Reply) : Reply :=
  if !isLane c.words && decide (pOp c.words ≠ some .route) && decide (pDie c.words ≠ c.die) then
    { r with rflags := r.rflags ||| 128#8 }
  else r

/-- VALUE and flags of a reply that carries neither a result nor a cause (R78, R177): a ROUTE that ends whole has failed in every
entry, and sets REMOTE when one named another die. -/
def failValue (c : Cmd) : Word × Nat :=
  if pOp c.words = some .route then
    (w64 (2 ^ (pNent c.words + 1) - 1), 128 * b2n ((routeEntries c.words).any fun e => decide (e.die ≠ c.die)))
  else (0, 0)

/-- The reply of a command that ends with a status and carries no cause. -/
def failReply (s : State) (c : Cmd) (st : Status) : Reply := withRemote c (plain s (failValue c).1 st (failValue c).2)

/-- The reply-buffer word of the reply about to be presented is read: a corrected error is recorded, and with an
uncorrectable one the command completes with POISON (R390, R391). `base` is the index of the queue's entry 0. -/
def readReply (s : State) (p base : Nat) (y : Queue) : State × Queue :=
  match y.items with
  | [] => (s, y)
  | i :: rest =>
    let (s, e) := chkRead s bPier 2 p (base + i.entry)
    match e, i.st with
    | .good, _ => (s, y)
    | .ce, _ => (raise s bPier 0 (dPmem p 2 (base + i.entry)), y)
    | .ue, .done r w =>
      let lost := match i.cmd with
        | some c => { failReply s c .poison with dt := r.dt }
        | none => plain s 0 .poison
      (raise s bPier 1 (dPmem p 2 (base + i.entry)), { y with items := { i with st := .done lost w } :: rest })
    | .ue, _ => (s, y)

/-- The pier presents a reply when it presents none (R478). -/
def present (s : State) (p : PierNet) : State :=
  let x := pierSt s p.pier
  if x.ar.isSome ∨ x.stopped = true ∨ pierRuns s = false then s else
  match rrPick p.agents.length x.dAgent x.dQueue (fun g q => match agentAt p g with
      | some a => deliverable s a q
      | none => false) with
  | none => s
  | some (g, q) =>
    match agentAt p g with
    | none => s
    | some a =>
      let y := queueOf s a q
      let (s, y) := readReply s p.pier (entryIdx g q 0) { y with items := dropSkips y.items }
      let s := setQueue s a q y
      setPier s p.pier
        { x with
          ar := some (a, q), dAgent := (g + 1) % p.agents.length
          dQueue := mset x.dQueue g 0 ((q + 1) % 4) }

/-- The pier of an agent presents what it can. -/
def presentOf (s : State) (a : Nat) : State :=
  match pierOf s a with
  | some p => present s p
  | none => s

/-! Generation and arrival of replies. -/

/-- A command's mark for CANCEL_Q: its place in the queues and its issue time. -/
def markOf (c : Cmd) : Nat × Nat := ((c.agent * 4 + c.queue) * 16 + c.entry, c.issue)

/-- A command that CANCEL_Q marked has its reply: MAR_CNT counts the ones it ended (R461). -/
def markEnds (s : State) (c : Cmd) (r : Reply) : State :=
  if s.obs.marked.contains (markOf c) then
    let s := { s with obs := { s.obs with marked := s.obs.marked.erase (markOf c) } }
    if r.status = .cancelled ∧ r.value.toNat % 256 ≠ cQuiesce ∧ r.value.toNat % 256 ≠ cEpoch then bump s fMarCntCancels else s
  else s

/-- A reply shows a stage that the phase it saw aborted is over (R138, R224): PARTICIPANT_LOST of an arrival that waited for it, or OK
of a WAIT_GE on it, whose barrier is another die's. No frame tells a stage so (DEDUCED, log entry 137). -/
def abortOver (s : State) (c : Cmd) (r : Reply) : State :=
  let ended (x : Ctx) : Bool := decide (pDie c.words ≠ dieOf s) && !x.root && x.aborted && decide (x.bhandle = pHandle c.words) &&
    ((decide (pOp c.words = some .arriveCombine) && !fSPLIT c.words && decide (r.status = .participantLost))
      || (decide (pOp c.words = some .waitGe) && decide (r.status = .ok) && (nbit (pOperand c.words).toNat 0 == x.phase)))
  let ctxs := s.abc.ctxs.map fun y => if ended y.2 then (y.1, { y.2 with aborted := false, phase := !y.2.phase }) else y
  { s with abc := { s.abc with ctxs := ctxs } }

/-- The reply of a command of this die reaches its pier: a reply of an older epoch is discarded (R93), one for a command
no longer held too (R124); the credits return (R289); DATA_LATE is recorded, for a ROUTE as each part's report comes (R266
step 3); the reply's word of the reply buffer is written (R394). -/
def settle (s : State) (c : Cmd) (r : Reply) : State :=
  if isOlder (epochOf s c.tenant) c.epoch then staleDrop s c.tenant
  else
    match itemOf s c with
    | none => s
    | some _ =>
      let s := markEnds (abortOver s c r) c r
      let items := (queueOf s c.agent c.queue).items
      let n := s.order + 1
      let s := mapItem { s with order := n } c.agent c.queue (holds c) fun i =>
        { i with st := .done (withRemote c r) (awaitOf s items c r.status), credits := [], since := n }
      let s := match pierOf s c.agent with
        | some p => chkWrite s bPier 2 p.pier (entryIdx (localIdx p c.agent) c.queue c.entry)
        | none => s
      let s := if r.status = .dataLate ∧ pOp c.words ≠ some .route then
          countEv (raise s bPier 3 (dAgt c.agent c.queue c.die)) (Ev.ofCmd 0x1D c none none)
        else s
      presentOf s c.agent

/-- The reply of a command leaves the unit that generated it, for the pier or over Viaduct: one poisoned on Girder completes its
command with POISON, one lost is no more (R391, R392). A reply that the pier makes itself carries its own Deck Time (R80). -/
def sendReply (s : State) (o : Origin) (c : Cmd) (r : Reply) : State :=
  if o = .pier then settle (timeRead s c.pier) c { r with dt := pierTime s c.pier }
  else
    match crossBack s o c with
    | (s, .lost) => s
    | (s, p) =>
      let r := if p = .poisoned then { failReply s c .poison with dt := r.dt } else withRemote c r
      if c.die = dieOf s then settle s c r else sendTo s c.die (hdrOf s c c.die) (.reply c r)

/-- A reply is generated for a command on this die (R80): COMPLETE is counted, with the kind of its object where it has one (R435). -/
def answer (s : State) (o : Origin) (c : Cmd) (k : Option Kind) (r : Reply) : State :=
  sendReply (countEv s (Ev.ofCmd 0x02 c k (some r.status))) o c r

/-- A command ends with a status that carries no cause. -/
def failPlain (s : State) (o : Origin) (c : Cmd) (k : Option Kind) (st : Status) : State :=
  answer s o c k (plain s (failValue c).1 st (failValue c).2)

/-- A command ends with a failure status for a cause that arose on a die: a cause record where R79 asks for one (CODE, DIE and
the low half of the value word read, 0 where none was). -/
def failFrom (s : State) (o : Origin) (c : Cmd) (k : Option Kind) (st : Status) (code die vlow : Nat) : State :=
  if blocking c.words && [Status.timeout, .cancelled, .disabled, .resource].contains st then
    answer s o c k (caused s st code die vlow)
  else failPlain s o c k st

/-- The same for a cause that arose on this die. DIE of a LINK_DOWN cause is the issuing die, which saw the loss, and not the lost
home die: R79 does not say which (DESIGN CHOICE, log entry 95). -/
def failWith (s : State) (o : Origin) (c : Cmd) (k : Option Kind) (st : Status) (code vlow : Nat) : State :=
  failFrom s o c k st code (dieOf s) vlow

/-- A pier holds a refused command for a delay of its own Deck Time (R126, R334). -/
def holdRefused (s : State) (c : Cmd) (why : Stall) (delay : Nat) : State :=
  mapItem (timeRead s c.pier) c.agent c.queue (holds c) fun i => { i with st := .refused why (pierTime s c.pier + delay) }

/-- A refusal reaches the pier (R90): with TRY the command ends with FULL, unless the refusal is a barrier's hold (R137); otherwise
it is presented again after a delay (R37, R126, R137, R175). -/
def refused (s : State) (c : Cmd) (why : Stall) (reason delay : Nat) : State :=
  if fTRY c.words && decide (reason ≠ 5) then failPlain s .pier c none .full else holdRefused s c why delay

/-- A refusal of a command where it met the engine, on its way back over Girder; another die's pier is told by a REFUSE (R499). -/
def refuseCmd (s : State) (o : Origin) (c : Cmd) (why : Stall) (reason delay : Nat) : State :=
  crossed s o (backRouter s c) fun s =>
    if c.die = dieOf s then refused s c why reason delay else sendTo s c.die (hdrOf s c c.die) (.refuse c reason)

end Sys2Proof.Machine
end

