-- ==== Sys2Proof/Machine/Waiters.lean ====
section
/-! DEFINITION. Waiter entries (R96 to R100, R502), mirror records (R307 to R309), evaluation passes (R101 to R103), how the wakes
of a pass are posted (R108, R109, R112), and the check words of slots (R390 to R394). -/
namespace Sys2Proof.Machine

/-- Every waiter entry on the die with the key of its object's slot. -/
def allWaiters (s : State) : List (Nat × Waiter) := s.sema.slots.flatMap fun x => x.2.waiters.map fun w => (x.1, w)

/-- Entries in use in slice i's table (R97). -/
def tableUse (s : State) (i : Nat) : Nat := count (fun x : Nat × Waiter => decide (x.2.table = i)) (allWaiters s)

/-- Entries in use by a tenant's commands: an imported command counts for the importing tenant (R361). -/
def tenWaits (s : State) (t : Nat) : Nat := count (fun x : Nat × Waiter => decide (x.2.cmd.tenant = t)) (allWaiters s)

/-- The entries of a table that are free, in rising order. -/
def freeEntries (s : State) (table : Nat) : List Nat :=
  (List.range 1024).filter fun e => !((allWaiters s).any fun x => decide (x.2.table = table) && decide (x.2.entry = e))

/-- The table in which a new entry of an object is placed (R98): none is a refusal. -/
def placeTable (s : State) (key : Nat) (x : Slot) (t : Nat) : Option Nat :=
  let home := sliceOf key
  if 64 * get s (fTenShare0Waits t) ≤ tenWaits s t then none
  else if tableUse s home < 1024 ∧ sliceOn s home = true then some home
  else if x.waiters.any (fun w => decide (w.table = home)) then nearest home fun i => sliceOn s i && decide (tableUse s i < 1024)
  else none

/-- Freed entries are reported to the piers of the die: their waits refused for want of one are due (R126). A try-once wait
returned for want of pending-table room waits out its 64 dt (R175). -/
def reportFreed (s : State) : State :=
  { s with agents := s.agents.map fun g =>
      (g.1, { g.2 with queues := g.2.queues.map fun q =>
        (q.1, { q.2 with items := q.2.items.map fun i =>
          match i.st with
          | .refused .bound due => if pDie i.words = dieOf s then { i with st := .refused .bound (min due s.now) } else i
          | _ => i }) }) }

/-- Segments whose entries have all been removed are freed (R502). -/
def keptSegs (ws : List Waiter) (segs : List (Nat × Nat × Nat)) : List (Nat × Nat × Nat) :=
  segs.filter fun g => ws.any fun w => decide (w.seg = g.1)

/-- A segment number not in use. -/
def newSeg (segs : List (Nat × Nat × Nat)) : Nat := segs.foldl (fun n g => max n g.1) 0 + 1

/-- The home-table entry that removing waiters freed last: old entries, and those left. -/
def freedHome (key : Nat) (old left : List Waiter) : Option Nat :=
  ((old.filter fun w => decide (w.table = sliceOf key) && !left.contains w).getLast?).map (·.entry)

/-- The words of a waiter entry are read, its three words and its segment link (R97, R390, R391): answers whether one was
uncorrectable. -/
def readEntry (s : State) (w : Waiter) : State × Bool :=
  (List.range 4).foldl (fun (a : State × Bool) k =>
    let (s, e) := chkRead a.1 bWait k w.table w.entry
    match e with
    | .good => (s, a.2)
    | .ce => (raise s bWait 0 (dMem k w.entry), a.2)
    | .ue => (raise s bWait 1 (dMem k w.entry), true)) (s, false)

/-- The words of a waiter entry are written (R394). -/
def writeEntry (s : State) (table entry : Nat) : State := (List.range 4).foldl (fun s k => chkWrite s bWait k table entry) s

/-- The oldest of an object's spilled entries that can be read moves into home entry `e`, and forms a segment of its own at the head
(R99, R502); one that cannot is dropped (R391). -/
def moveOldest (key e : Nat) (x : Slot) : List Waiter → State → State × Slot
  | [], s => (s, { x with waiters := [], segs := [] })
  | w :: r, s =>
    match readEntry s w with
    | (s, true) => moveOldest key e x r s
    | (s, false) =>
      let g := newSeg x.segs
      (writeEntry (bump s fWaitCnt3Moved) (sliceOf key) e,
        { x with
          waiters := { w with table := sliceOf key, entry := e, seg := g } :: r
          segs := (g, sliceOf key, 1) :: keptSegs r x.segs })

/-- A spilled entry moves home when the object's last home entry is gone (R99). -/
def moveHome (s : State) (key : Nat) (old : List Waiter) (x : Slot) : State × Slot :=
  if x.waiters.any (fun w => decide (w.table = sliceOf key)) then (s, x)
  else
    match freedHome key old x.waiters with
    | some e => moveOldest key e x x.waiters s
    | none => (s, x)

/-- An object's slot written with some of its waiter entries removed: `old` are those it had. -/
def putShrunk (s : State) (key : Nat) (old : List Waiter) (x : Slot) : State :=
  let x := { x with segs := keptSegs x.waiters x.segs }
  let (s, y) := moveHome s key old x
  let s := setSlot s key y
  if x.waiters.length < old.length then reportFreed s else s

/-- A waiter entry is created for a command (R96, R98, R502); the caller has found the table. TARGET is the operand, or
for an arrival its phase (R136). -/
def addWaiter (s : State) (key : Nat) (x : Slot) (c : Cmd) (target : Word) (table : Nat) : State :=
  let free := freeEntries s table
  let e := free.getD (Config.freeEntry s.fresh % free.length) 0
  let fresh := x.segs ++ [(newSeg x.segs, table, 1)]
  let segs := match x.segs.getLast? with
    | some (g, t, n) => if t = table ∧ n < 8 then x.segs.dropLast ++ [(g, table, n + 1)] else fresh
    | none => fresh
  let limit := us (max 10 (get s fWaitWdogLimit))
  let w : Waiter := ⟨c, target, table, e, ((segs.getLast?).map (·.1)).getD 0, s.now + limit, none⟩
  let s := writeEntry s table e
  let s := setSlot { s with fresh := s.fresh + 1 } key { x with waiters := x.waiters ++ [w], segs := segs }
  let s := hwm s fWaitHwmBlockedHwm (allWaiters s).length
  let s := if table = sliceOf key then s else bump s fWaitCnt2Spilled
  countEv s (Ev.ofCmd 0x06 c (some x.kind) none)

/-- A wait is refused for want of an entry at a slice (R125 to R127). -/
def refuseWait (s : State) (slice : Nat) (c : Cmd) (k : Kind) : State :=
  let s := bump (bump s fWaitCnt2Refused) (fWaitTuseRefused c.tenant)
  refuseCmd (countEv s (Ev.ofCmd 0x07 c (some k) none)) (.router slice) c .bound 4 256

/-! Satisfaction (R101). -/

/-- A take waiter: WAIT_TAKE or TAKE on a COUNT or a POOL. -/
def isTake (k : Kind) (ws : List Word) : Bool :=
  (decide (pOp ws = some .waitTake) || decide (pOp ws = some .take)) && (decide (k = .count) || decide (k = .pool))

/-- Whether a wait is satisfied by the running value v, and what it leaves of it (R101). -/
def satisfies (k : Kind) (v : Word) (ws : List Word) (target : Word) : Option Word :=
  match k with
  | .count => if target.toNat ≤ v.toNat then some (if isTake k ws then v - target else v) else none
  | .seq => if (v - target).toNat < 2 ^ 63 then some v else none
  | .event => if v.toNat % 2 = 1 then some 0 else none
  | .pool => if target.toNat ≤ v.toNat then some (if isTake k ws then v - target else v) else none
  | .barrier => if barPhase v ≠ nbit target.toNat 0 then some v else none

/-- VALUE, STATUS and flags of a satisfied wait's reply (R78, R138, R211, R229): v is the value before it, v' after. A WAIT_TAKE on
an EVENT carries 1, as a WAIT_GE does (R82), and not the word after the take (R78): DESIGN CHOICE, log entry 96. -/
def satReply (s : State) (x : Slot) (ws : List Word) (target v v' : Word) (imm : Bool) : Reply :=
  if x.poison then plain s 0 .poison
  else
    let i := b2n imm
    match pOp ws with
    | some .arrive => plain s (w64 (target.toNat % 2)) .ok i
    | some .arriveCombine =>
      match x.result with
      | none => plain s (w64 (target.toNat % 2)) .participantLost i
      | some (n, fl) =>
        plain s (w64 (target.toNat % 2 + 2 ^ 16 * n)) (if 1 < n then .chunked else .ok) (fl + i)
    | some .waitGe => plain s v .ok i
    | _ => plain s (if x.kind = .event then v else v') .ok i

/-- A walk over waiters in age order from a running value (R101): the value left, the satisfied with their replies, those
left. `stop` says that an older take is unsatisfied. A poisoned object's waiters all end with POISON (R391). -/
def passWalk (s : State) (x : Slot) : Word → Bool → List Waiter → Word × List (Waiter × Reply) × List Waiter
  | v, _, [] => (v, [], [])
  | v, stop, w :: r =>
    if x.poison then
      let (v', a, b) := passWalk s x v stop r
      (v', (w, satReply s x w.cmd.words w.target v v false) :: a, b)
    else
      let take := isTake x.kind w.cmd.words
      match (if take && stop then none else satisfies x.kind v w.cmd.words w.target) with
      | some v1 =>
        let (v', a, b) := passWalk s x v1 stop r
        (v', (w, satReply s x w.cmd.words w.target v v1 false) :: a, b)
      | none =>
        let (v', a, b) := passWalk s x v (stop || take) r
        (v', a, w :: b)

/-- Groups of satisfied waiters by segment, in order (R109). -/
def segGroups (k : Kind) : List (Waiter × Reply) → List (Nat × List Wake)
  | [] => []
  | (w, r) :: rest =>
    match segGroups k rest with
    | (g, ws) :: more => if g = w.seg then (g, ⟨w.cmd, r, k⟩ :: ws) :: more else (w.seg, [⟨w.cmd, r, k⟩]) :: (g, ws) :: more
    | [] => [(w.seg, [⟨w.cmd, r, k⟩])]

/-- Whether a scope contains two agents, each given by agent, pier and die (R239). -/
def scopeHolds (scope : Nat) (a p d a' p' d' : Nat) : Bool :=
  match scope with
  | 0 => decide (a = a') && decide (d = d')
  | 1 => decide (p = p') && decide (d = d')
  | 2 => decide (d = d')
  | _ => true

/-- The scope check of an acquire against the object's release record (R257). -/
def scopeCheck (s : State) (rel : Option RelRec) (c : Cmd) : State :=
  match rel with
  | none => s
  | some r =>
    if fACQ c.words && !scopeHolds (min r.scope (pScope c.words)) r.agent r.pier r.die c.agent c.pier c.die then
      let s := countEv (bump s fSemaSmcntMismatch) (Ev.ofCmd 0x1C c none none)
      raise s bSema 9 (dAgt c.agent c.queue c.die)
    else s

/-- What is counted and checked for each satisfied waiter (R257, R435). -/
def countDone (s : State) (x : Slot) (ws : List Wake) : State :=
  ws.foldl (fun s w =>
    let s := countEv s (Ev.ofCmd 0x02 w.cmd (some x.kind) (some w.reply.status))
    if w.reply.status = .poison then s else scopeCheck s x.rel w.cmd) s

/-- Wakes at a slice's own emission port (R110). -/
def toPort (s : State) (slice : Nat) (ws : List Wake) : State :=
  { s with wk := { s.wk with ports := mset s.wk.ports slice [] (mgetD s.wk.ports slice [] ++ ws) } }

/-- A batch posted to the wake pool, at the lowest free word of its slice's share of the pool's memory (log entry 37). -/
def postBatch (slice : Nat) (s : State) (g : List Wake) : State :=
  let w := freeWord 8192 ((s.wk.pool.filter fun b => decide (b.slice = slice)).map (·.word))
  chkWrite { s with wk := { s.wk with pool := s.wk.pool ++ [⟨slice, w, g⟩] } } bWait 4 slice w

/-- Batches posted to the wake pool (R109). -/
def toPool (s : State) (slice : Nat) (gs : List (List Wake)) : State :=
  let s := gs.foldl (postBatch slice) s
  hwm s fWaitHwmPoolbHwm s.wk.pool.length

/-- The pool's capacity in batches (R112). -/
abbrev poolCap : Nat := 8192

/-! Mirror records (R307 to R309). -/

/-- The tenant is served here and mirrored: MIRRORED, this die primary, the pair not broken (R307, R311). -/
def mirrored (s : State) (t : Nat) : Bool :=
  on s (fTenCfgMirrored t) && mirrorOn s && nbit (rd s (rCoreMirrole (t / 64))).toNat (t % 64)
    && !nbit (rd s (rCoreMirbrk (t / 64))).toNat (t % 64)

/-- The port of a tenant's mirror records (R308). -/
def mirPort (t : Nat) : Nat := 6 + t % 2

/-- What stands for the slot of a BACKED object, whose image firmware changes, in a mirror record outstanding (log entry 121). -/
abbrev imgKey (i : Nat) : Nat := 2 ^ 20 + i

/-- The unit that holds a mirror record outstanding: a slice, or firmware as 64. -/
def recUnit (key : Nat) : Nat := if key < 2 ^ 20 then sliceOf key else 64

/-- Where the messages about a slot or an image arise. -/
def keyOrigin (key : Nat) : Origin := if key < 2 ^ 20 then .router (sliceOf key) else .apart

/-- Records of a unit outstanding on a mirror port (R309). -/
def mirUse (s : State) (p unit : Nat) : Nat :=
  count (fun m : MirrorOut => decide (m.port = p) && decide (recUnit m.key = unit)) s.span.mirror

/-- The records that one read-modify-write of a slot's object may make: one for each member window, and at least one (R308). -/
def recordsOf (s : State) (key : Nat) : Nat := max 1 (((slotAt s key).map (·.members.length)).getD 0)

/-- A mirrored tenant's object finds no room for the records of an operation (R309). A record carries one member window, and an
operation that would make several needs room for them all (DESIGN CHOICE, log entry 121). -/
def mirFull (s : State) (key t : Nat) : Bool :=
  mirrored s t && decide (1024 < mirUse s (mirPort t) (recUnit key) + recordsOf s key)

/-- The member windows that changed (R308), with their numbers. -/
def winChanges (a b : List (BitVec 512 × BitVec 512)) : List (Nat × BitVec 512 × BitVec 512) :=
  (List.range 8).filterMap fun i => if a[i]? = b[i]? then none else b[i]?.map fun w => (i, w.1, w.2)

/-- Whether a read-modify-write changed what a mirror record carries. -/
def rmwChanged (a b : Slot) : Bool :=
  decide (a.value ≠ b.value) || decide (a.metaOf ≠ b.metaOf) || decide (a.members ≠ b.members)

/-- What a mirror record holds back until its MACK (R309): a command's reply, or the staging report of a ROUTE entry. -/
structure HeldBack where
  cmd : Option Cmd
  reply : Option Reply
  stage : Option (Nat × Nat)
  deriving DecidableEq, Repr

def HeldBack.none : HeldBack := ⟨.none, .none, .none⟩

/-- One mirror record leaves for the pair. -/
def sendRecord (s : State) (key : Nat) (old new : Slot) (win : Option (Nat × BitVec 512 × BitVec 512)) (h : HeldBack) : State :=
  let p := mirPort new.tenant
  let n := s.span.serial
  let rec_ : MRec := ⟨n, new.obj, old.value, old.metaOf, new.value, new.metaOf, win⟩
  let s := { s with span := { s.span with serial := n + 1, mirror := s.span.mirror ++ [⟨n, key, h.cmd, h.reply, p, h.stage, true⟩] } }
  crossed s (keyOrigin key) (portRouter p) fun s => sendOn s p ⟨⟨dieOf s, dieOf s, new.tenant, new.epoch, 0⟩, .mrec rec_⟩

/-- The mirror record of a read-modify-write (R308, R309); a change of several member windows makes one record for each, and the
last holds back what waits. -/
def sendMirror (s : State) (key : Nat) (old new : Slot) (h : HeldBack) : State :=
  match winChanges old.members new.members with
  | [] => sendRecord s key old new none h
  | [w] => sendRecord s key old new (some w) h
  | w :: more =>
    let s := sendRecord s key old new (some w) HeldBack.none
    let s := (more.dropLast).foldl (fun s w => sendRecord s key new new (some w) HeldBack.none) s
    sendRecord s key new new more.getLast? h

/-- Whether a mirror record for a slot's object is outstanding (R308). -/
def mirrorOut (s : State) (key : Nat) : Bool := s.span.mirror.any fun m => m.live && decide (m.key = key)

/-- The object of a slot is gone: its records hold no later object of the slot pending (R308, R310). -/
def unmirror (s : State) (key : Nat) : State :=
  { s with span := { s.span with mirror := s.span.mirror.map fun m => if m.key = key then { m with live := false } else m } }

/-- An object is pending: under an uncommitted route tag (R172) or a mirror record (R308). -/
def isPendingObj (s : State) (key : Nat) (x : Slot) : Bool := decide (x.pend ≠ []) || mirrorOut s key

/-- A slot with the value that a pass left it: a change is a signal for R47, and writes the signal record, which keeps its agent and
takes the time of the change (R455 does not say whose change it is; DESIGN CHOICE, log entry 122). -/
def passValue (x : Slot) (now : Nat) (v : Word) : Slot :=
  if v = x.value then x else { x with value := v, lastSig := now, sig := x.sig.map fun r => { r with dt := now } }

/-- Try-once waits held beside an object are evaluated after its deferred pass (R173); none was satisfied when applied, so
that none sets IMMED (R77). -/
def runTries (s : State) (key : Nat) (x : Slot) : State :=
  let home : Origin := .router (sliceOf key)
  let step (sv : State × Word × Bool) (c : Cmd) : State × Word × Bool :=
    let (s, v, stop) := sv
    let take := isTake x.kind c.words
    if x.poison then (answer s home c (some x.kind) (plain s 0 .poison), v, stop)
    else
      match (if take && stop then none else satisfies x.kind v c.words (pOperand c.words)) with
      | some v' =>
        let s := scopeCheck s x.rel c
        (answer s home c (some x.kind) (satReply s x c.words (pOperand c.words) v v' false), v', stop)
      | none => (failWith s home c (some x.kind) .timeout cExpired (v.toNat % 2 ^ 32), v, stop)
  let stop0 := x.waiters.any fun w => isTake x.kind w.cmd.words
  let (s, v, _) := x.tries.foldl step (setSlot s key { x with tries := [] }, x.value, stop0)
  match slotAt s key with
  | some y => setSlot s key (passValue y s.now v)
  | none => s

/-- The check words of an object's waiters are read: an uncorrectable entry is dropped (R391). -/
def readWaiters (s : State) (key : Nat) : State :=
  match slotAt s key with
  | none => s
  | some x =>
    if s.flt.bad = [] then s
    else x.waiters.foldl (fun s w =>
      let (s, ue) := readEntry s w
      if ue then
        match slotAt s key with
        | some y => putShrunk s key y.waiters { y with waiters := y.waiters.filter fun v => decide (v ≠ w) }
        | none => s
      else s) s

/-- What ends a pass: the try-once waits held beside the object, and the mirror record of a value the pass changed (R103, R173,
R308); `old` is the slot before it. -/
def passEnds (s : State) (key : Nat) (old : Slot) : State :=
  match slotAt s key with
  | none => s
  | some y =>
    let s := if y.tries = [] ∨ y.paused = true then s else runTries s key y
    match slotAt s key with
    | none => s
    | some z => if mirrored s z.tenant && decide (z.value ≠ old.value) then sendMirror s key old z HeldBack.none else s

/-- An evaluation pass (R101): deferred while the object is pending (R173, R308) or a record of what it changes would find no
room (R309); at most 8 wakes leave by the slice's own port, more are posted by segment, and a full pool pauses the pass (R109,
R112). -/
def runPass (s : State) (key : Nat) : State :=
  let s := readWaiters s key
  match slotAt s key with
  | none => s
  | some x =>
    if isPendingObj s key x || (mirFull s key x.tenant && (decide (x.waiters ≠ []) || decide (x.tries ≠ []))) then s
    else
      let (v, sat, rest) := passWalk s x x.value false x.waiters
      let groups := segGroups x.kind sat
      let room := poolCap - s.wk.pool.length
      if (sat.length ≤ 8 ∧ x.paused = false) then
        let s := countDone s x (sat.map fun y => ⟨y.1.cmd, y.2, x.kind⟩)
        let s := putShrunk s key x.waiters { passValue x s.now v with waiters := rest }
        let s := if sat = [] then s else toPort s (sliceOf key) (sat.map fun z => ⟨z.1.cmd, z.2, x.kind⟩)
        passEnds s key x
      else if groups.length ≤ room then
        let s := countDone s x (sat.map fun y => ⟨y.1.cmd, y.2, x.kind⟩)
        let s := putShrunk s key x.waiters { passValue x s.now v with waiters := rest, paused := false }
        passEnds (toPool s (sliceOf key) (groups.map (·.2))) key x
      else
        let cut := (groups.map (·.1)).getD room 0
        let before := x.waiters.takeWhile fun w => decide (w.seg ≠ cut)
        let (v1, sat1, rest1) := passWalk s x x.value false before
        let s := countDone s x (sat1.map fun y => ⟨y.1.cmd, y.2, x.kind⟩)
        let y := { passValue x s.now v1 with waiters := rest1 ++ x.waiters.drop before.length, paused := true }
        passEnds (toPool (putShrunk s key x.waiters y) (sliceOf key) ((segGroups x.kind sat1).map (·.2))) key x

/-- A waiter entry is ended otherwise than by satisfaction: the cause first recorded against it, or the one given with the die on
which it arose, stands in the reply (R79, R119). An entry that cannot be read is dropped (R391). -/
def endWaiterFrom (s : State) (key : Nat) (w : Waiter) (st : Status) (code die : Nat) : State :=
  match slotAt s key with
  | none => s
  | some x =>
    let (s, bad) := readEntry s w
    let s := putShrunk s key x.waiters { x with waiters := x.waiters.filter fun y => decide (y ≠ w) }
    let (code, die) := w.cause.getD (code, die)
    if bad then s else answer s (.router (sliceOf key)) w.cmd (some x.kind) (caused s st code die (x.value.toNat % 2 ^ 32))

/-- The same for a cause that arises on this die. -/
def endWaiter (s : State) (key : Nat) (w : Waiter) (st : Status) (code : Nat) : State := endWaiterFrom s key w st code (dieOf s)

/-- A waiter entry is removed without a reply (R124, R356). -/
def dropWaiter (s : State) (key : Nat) (w : Waiter) : State :=
  match slotAt s key with
  | none => s
  | some x => putShrunk s key x.waiters { x with waiters := x.waiters.filter fun y => decide (y ≠ w) }

/-- The waiter entry that stands for a command, with its object's slot. -/
def waiterOf (s : State) (die agent queue : Nat) : Option (Nat × Waiter) :=
  (allWaiters s).find? fun x => decide (x.2.cmd.die = die) && decide (x.2.cmd.agent = agent) && decide (x.2.cmd.queue = queue)

/-- A wait that gains its entry while its tenant or its object's is QUIESCING ends as the entries present at QUIESCE did
(R350). -/
def quiesceNew (s : State) (key : Nat) (t : Nat) (c : Cmd) : State :=
  if decide ((tenSt s t).st = .quiescing) || (decide (c.die = dieOf s) && decide ((tenSt s c.tenant).st = .quiescing)) then
    match (slotAt s key).bind fun x => x.waiters.find? fun w => decide (w.cmd = c) with
    | some w => endWaiter s key w .cancelled cQuiesce
    | none => s
  else s

/-! Check words of slots (R390 to R394). -/

/-- The slot of the other slice of a pair that holds an object's second copy (R57, R393). -/
def partnerKey (key : Nat) : Nat := slotKey (if sliceOf key % 2 = 0 then sliceOf key + 1 else sliceOf key - 1) (slotOf key)

/-- An uncorrectable value or metadata word stands in one copy of a slot. -/
def copyBad (s : State) (key : Nat) : Bool :=
  s.flt.bad.any fun b => decide (b.block = bSema) && [0, 1].contains b.target && decide (b.unit = sliceOf key)
    && decide (b.index = slotOf key) && b.two

/-- The word of the release records that holds a slot's: two records share one (R256). -/
def relIndex (key : Nat) : Nat := slotOf key / 2

/-- The slot whose release record shares the word. -/
def relTwin (key : Nat) : Nat := slotKey (sliceOf key) (if slotOf key % 2 = 0 then slotOf key + 1 else slotOf key - 1)

/-- The release record of a slot is lost (R391). -/
def dropRel (s : State) (key : Nat) : State :=
  match slotAt s key with
  | some x => setSlot s key { x with rel := none }
  | none => s

/-- What the check words of one copy of a slot are found to be: of its value, its metadata, its member windows and its release
record. -/
structure CopyRead where
  value : Ecc
  info : Ecc
  window : Ecc
  rel : Ecc
  deriving DecidableEq, Repr

/-- The value or metadata word of a copy is uncorrectable. -/
def copyLost (r : CopyRead) : Bool := decide (r.value = .ue) || decide (r.info = .ue)

/-- The events of a copy's reading: OBJ_CE for each word corrected and for release records lost (R391). -/
def copyEvents (key : Nat) (r : CopyRead) : List (Nat × Nat) :=
  ([(0, r.value), (1, r.info), (5, r.window)].filterMap fun x => if x.2 = .ce then some (0, dMem x.1 (slotOf key)) else none)
    ++ (if r.rel = .good then [] else [(0, dMem 4 (relIndex key))])

/-- One copy of a slot is read (R390, R391). -/
def readCopy (s : State) (key : Nat) : State × CopyRead :=
  let (s, v) := chkRead s bSema 0 (sliceOf key) (slotOf key)
  let (s, m) := chkRead s bSema 1 (sliceOf key) (slotOf key)
  let (s, w) := chkRead s bSema 5 (sliceOf key) (slotOf key)
  let (s, r) := chkRead s bSema 4 (sliceOf key) (relIndex key)
  (s, ⟨v, m, w, r⟩)

/-- An object is lost: its metadata word is rewritten from the kind the handle table holds, with POISON set and every other field
0 but PAIRED, and its waiters end with POISON (R391; log entry 97). -/
def poisonObj (s : State) (key : Nat) (x : Slot) : State :=
  runPass (setSlot s key { x with poison := true, param := 0, role := false, cbound := false, ovr := 0, due := none }) key

/-- A mismatch of a pair: POISON is set in both copies, and the waiters end with POISON (R393). -/
def mismatchObj (s : State) (key : Nat) (x : Slot) : State :=
  let s := { s with flt := { s.flt with differ := s.flt.differ.filter fun k => decide (k ≠ key) } }
  runPass (setSlot s key { x with poison := true }) key

/-- The copies of an object that an operation reads: both of a paired object, to compare them; under DROOP_WARN, where one of them is
bad, the other alone (R393). -/
def copiesRead (s : State) (key : Nat) (x : Slot) : List Nat :=
  if !x.paired then [key]
  else if s.clk.droop && (copyBad s key != copyBad s (partnerKey key)) then [if copyBad s key then partnerKey key else key]
  else [key, partnerKey key]

/-- An object is read before an operation on it (R390, R391, R393): a word of its release records that is lost takes both records with
it, a lost member window poisons the barrier, a lost value or metadata word too where no copy is good. -/
def readSlot (s : State) (key : Nat) (x : Slot) : State :=
  let detail := dObj (sliceOf key) (slotOf key) x.tenant
  let (s, rs) := (copiesRead s key x).foldl (fun (a : State × List (Nat × CopyRead)) k =>
    let (s, r) := readCopy a.1 k
    (s, a.2 ++ [(k, r)])) (s, [])
  let relLost := rs.any fun r => decide (r.2.rel = .ue)
  let s := if relLost then dropRel (dropRel s key) (relTwin key) else s
  let x := if relLost then { x with rel := none } else x
  let evs := rs.flatMap fun r => copyEvents r.1 r.2
  if rs.any (fun r => decide (r.2.window = .ue)) || rs.all (fun r => copyLost r.2) then
    raiseAll (poisonObj s key x) bSema (evs ++ [(1, detail)])
  else if rs.any fun r => copyLost r.2 then raiseAll s bSema (evs ++ [(4, detail)])
  else if decide (1 < rs.length) && s.flt.differ.contains key then raiseAll (mismatchObj s key x) bSema (evs ++ [(3, detail)])
  else raiseAll s bSema evs

/-- The word of the release records that holds a slot's is written: it is read first, for the record of the other slot stays in it, and
is lost where the word is (R256, R391). -/
def writeRel (s : State) (key : Nat) : State :=
  let (s, e) := chkRead s bSema 4 (sliceOf key) (relIndex key)
  let s := if e = .good then s else raise s bSema 0 (dMem 4 (relIndex key))
  let s := if e = .ue then dropRel s (relTwin key) else s
  chkWrite s bSema 4 (sliceOf key) (relIndex key)

/-- The check words of one copy are written. -/
def writeCopy (s : State) (key : Nat) : State :=
  writeRel ([0, 1, 5].foldl (fun s t => chkWrite s bSema t (sliceOf key) (slotOf key)) s) key

/-- The check words of a slot are written after an operation, of a paired object in both copies (R393, R394). A copy that waits
for its resynchronisation under DROOP_WARN is not written. -/
def writeSlotChk (s : State) (key : Nat) : State :=
  let write (s : State) (k : Nat) : State := if s.clk.droop && copyBad s k then s else writeCopy s k
  match slotAt s key with
  | some x => if x.paired then write (write s key) (partnerKey key) else writeCopy s key
  | none => writeCopy s key

end Sys2Proof.Machine
end

