-- ==== Sys2Proof/Machine/Barrier.lean ====
section
/-! DEFINITION. What follows a read-modify-write (passes, mirror records, signal and release records), and barrier objects
(R130 to R154). -/
namespace Sys2Proof.Machine

/-- What follows a read-modify-write of an object: a mirror record where the tenant is mirrored and something changed;
else the reply, and the pass where the value changed (R101, R309). -/
def afterRmw (s : State) (key : Nat) (old : Slot) (cr : Option (Cmd × Reply)) (pass : Bool) : State :=
  match slotAt s key with
  | none => s
  | some x =>
    if mirrored s x.tenant && rmwChanged old x then sendMirror s key old x ⟨cr.map (·.1), cr.map (·.2), none⟩
    else
      let s := match cr with
        | some (c, r) => answer s (.router (sliceOf key)) c (some x.kind) r
        | none => s
      if pass then runPass s key else s

/-- The signal record and last-signal time of a change (R47, R455). -/
def signedBy (x : Slot) (now : Nat) (c : Cmd) : Slot :=
  { x with sig := some ⟨c.agent, c.die, now, false⟩, lastSig := now }

/-- A change that no command made keeps the last signaller and takes its own time. -/
def signedAuto (x : Slot) (now : Nat) : Slot :=
  { x with sig := x.sig.map fun r => { r with dt := now }, lastSig := now }

/-- The release record of a command with REL that took effect (R256). -/
def released (x : Slot) (c : Cmd) : Slot :=
  if fREL c.words then { x with rel := some ⟨c.agent, c.pier, c.die, pScope c.words⟩ } else x

/-- OBJ_RMW is counted for an operation applied to an object (R435). -/
def countRmw (s : State) (c : Cmd) (k : Kind) : State := countEv s (Ev.ofCmd 0x04 c (some k) none)

/-! Phases (R133, R134). -/

/-- Members of a conditional barrier. -/
def memberCount (x : Slot) : Nat := sumBy (fun w : BitVec 512 × BitVec 512 => popc 512 w.1.toNat) x.members

/-- Arrivals that complete the open phase (R133, R143). -/
def needed (x : Slot) : Nat := if parMode x.param = 1 then memberCount x else parExpect x.param

/-- A completed phase (R134). -/
def phaseDone (x : Slot) : Slot :=
  { x with
    value := barWord (!barPhase x.value) 0 false false 0, role := false
    members := x.members.map fun w => (w.1, 0#512), combine := false, aborted := false, due := none
    result := if x.aborted then none else x.result }

/-- A completion is counted (R435, TRS_CNT0). -/
def countPhase (s : State) (t : Nat) : State := countEv (bump s fTrsCnt0Barcomp) (Ev.ten 0x0E t)

/-! The end of a combined phase at its root entry (R210, R224, R229). -/

/-- An entry's phase state cleared. -/
def clearPhase (x : Ctx) : Ctx :=
  { x with
    st := .open, parts := [], chunk := 0, counts := [], closeAt := none, partials := [], whole := [], carry := []
    carryAt := 0, resPos := [], bins := [], arith := 0, offender := none, writing := false, reported := false }

/-- An event of the combine counters. -/
def cmbEv (code : Nat) (x : Ctx) (f : Nat) (st : Option Status) : Ev :=
  ⟨code, some x.tenant, none, none, none, none, some f, st.map stCode⟩

/-- PHASES and CHUNKEDPH of an entry whose phase has completed. -/
def countEntry (s : State) (c : Nat) (x : Ctx) : State :=
  let s := bump s (fAbcCsr2Phases c)
  if 1 < x.chunks then bump s (fAbcCsr2Chunkedph c) else s

/-- A root entry's phase completes: it returns to OPEN for the next phase, its arithmetic status word is stored, and the phase is
counted. -/
def rootPhaseEnds (s : State) (c : Nat) (x : Ctx) : State :=
  let many := decide (1 < x.chunks)
  let s := bump (countEntry (wr s (rAbcCsr c 1) (arithWord x.arith.toNat x.offender)) c x) fAbcCnt0Phases
  let s := if many then countEv (bump s fAbcCnt0Chunkph) (cmbEv 0x15 x (dOfmt x.desc) none) else s
  let s := countEv s (cmbEv 0x13 x (dOfmt x.desc) (some (if many then .chunked else .ok)))
  let s := if dOp x.desc = oHisto then countEv s (Ev.ten 0x1B x.tenant) else s
  setCtx s c { clearPhase x with phase := !x.phase }

/-- The root entries bound to a barrier of a tenant on this die. -/
def boundRoots (s : State) (t obj : Nat) : List (Nat × Ctx) :=
  s.abc.ctxs.filter fun y => y.2.root && decide (y.2.tenant = t) && decide (y.2.bhandle = handleOf (dieOf s) obj)

/-- A phase of a barrier completes: the root entry that combined it has completed its phase too (R224), and one whose phase was
aborted is done with it. -/
def rootDone (s : State) (x : Slot) : State :=
  (boundRoots s x.tenant x.obj).foldl (fun s y =>
    if y.2.phase != barPhase x.value then s
    else if y.2.aborted then setCtx s y.1 { y.2 with aborted := false, phase := !y.2.phase }
    else if x.combine && x.result.isSome && decide (y.2.st = .closed) then rootPhaseEnds s y.1 y.2
    else s) s

/-- A step made as of a Deck Time: what it stamps carries that time. -/
def asOf (t : Nat) (f : State → State) (s : State) : State := { f { s with now := t } with now := s.now }

/-- The phase of a slot's barrier completes without a command (R138, R148, R151), in the read-modify-write that found the slot as
`old` and has made `x` of it. -/
def completeFrom (s : State) (key : Nat) (old x : Slot) : State :=
  let s := setSlot (rootDone (countPhase s x.tenant) x) key (signedAuto (phaseDone x) s.now)
  afterRmw s key old none true

/-- The phase of a slot's barrier completes. -/
def completePhase (s : State) (key : Nat) (x : Slot) : State := completeFrom s key x x

/-- Time frames of a SPAN barrier that arms go to every other die of the span group (R150). -/
def sendFrames (s : State) (key : Nat) (x : Slot) (phase : Bool) (t : Nat) : State :=
  ((members s).filter fun d => decide (d ≠ dieOf s)).foldl
    (fun s d => sendFrom s (.router (sliceOf key)) d ⟨0, d, x.tenant, epochOf s x.tenant, 0⟩ (.time x.obj phase t)) s

/-- What the last required arrival makes of a slot (R133, R138, R147): the slot, and whether the phase completes. -/
def lastArrival (s : State) (x : Slot) (arrived : Nat) : Slot × Bool :=
  let ph := barPhase x.value
  let chold := x.combine && !x.aborted
  if parTimed x.param then
    let t := trelOf s.now (parLead x.param) (parGrid x.param)
    ({ x with value := barWord ph arrived true chold t, due := some t }, false)
  else if chold then ({ x with value := barWord ph arrived false true 0 }, false)
  else (phaseDone x, true)

/-- Frames are sent for a slot that has just armed. -/
def framesIfArmed (s : State) (key : Nat) (old new : Slot) : State :=
  match new.due with
  | some t => if old.due.isNone && parSpan new.param then sendFrames s key new (barPhase new.value) t else s
  | none => s

/-- A notice of an arrival leaves for the unit that holds its context (R221). -/
def postNotice (s : State) (o : Origin) (ctx : Nat) (c : Cmd) (v : Verdict) : State :=
  crossed s o (abacusRouter (ctx % 16)) fun s => { s with gir := { s.gir with notices := s.gir.notices ++ [(ctx, c, v)] } }

/-- The context of an ARRIVE_COMBINE (R67). -/
def pCtx (ws : List Word) : Nat := pAux ws % 1024
def pPidx (ws : List Word) : Nat := pAux ws / 1024 % 4096

/-- The notice that a combine arrival's fate asks for. -/
def noticeIf (s : State) (o : Origin) (c : Cmd) (v : Verdict) : State :=
  if pOp c.words = some .arriveCombine then postNotice s o (pCtx c.words) c v else s

/-- A command ends with a status at a unit; the unit of a combine arrival has notice of it. -/
def rejectCmd (s : State) (o : Origin) (c : Cmd) (k : Option Kind) (st : Status) : State :=
  failPlain (noticeIf s o c (.rejected st)) o c k st

/-- A command is refused without an answer; the unit of a combine arrival has notice of it. -/
def turnAway (s : State) (o : Origin) (c : Cmd) (why : Stall) (reason delay : Nat) : State :=
  refuseCmd (noticeIf s o c .refused) o c why reason delay

/-- A ROOTCLOSED root entry bound to a barrier on this die learns that the barrier has set CHOLD in its open phase (R226). An
entry whose phase has aborted takes no part in it. -/
def closeRoot (s : State) (x : Slot) : State :=
  (boundRoots s x.tenant x.obj).foldl (fun s y =>
    if y.2.closed1 && !y.2.aborted && (decide (y.2.st = .open) || (y.2.phase == barPhase x.value))
    then setCtx s y.1 { y.2 with closeAt := some 0 } else s) s

/-- The chunk count that a combine arrival's SPLIT reply names (R229): that of its root entry. -/
def chunksOf (s : State) (c : Cmd) : Nat :=
  if pOp c.words = some .arriveCombine then ((ctxAt s (pCtx c.words)).map (·.chunks)).getD 1 else 0

/-- The reply to a SPLIT arrival that is recorded (R78, R229). -/
def splitReply (s : State) (c : Cmd) (ph aborted : Bool) : Reply :=
  let k := chunksOf s c
  if aborted && decide (pOp c.words = some .arriveCombine) then plain s (w64 (b2n ph)) .participantLost else
  plain s (w64 (b2n ph + 2 ^ 16 * k)) (if 1 < k then .chunked else .ok)

/-- The member index of an arrival (R142). -/
def memberIdx (ws : List Word) : Nat := if pOp ws = some .arriveCombine then pPidx ws else pAux ws % 4096

/-- The wait has no more time where it is applied: it tries once, or its deadline is past (R70, R121). -/
def outOfTime (s : State) (c : Cmd) : Bool :=
  match c.deadline with
  | some d => decide (d < s.now) || tryOnce c.words
  | none => false

/-- An arrival that passes the checks is recorded (R133, R136). -/
def recordArrival (s : State) (key : Nat) (x : Slot) (c : Cmd) (members : List (BitVec 512 × BitVec 512)) : State :=
  let home : Origin := .router (sliceOf key)
  let comb := decide (pOp c.words = some .arriveCombine)
  let ph := barPhase x.value
  let arrived := barArrived x.value + 1
  let x1 := { x with members := members, role := true, combine := x.combine || comb }
  let last := decide (arrived = needed x1) && decide (1 ≤ needed x1)
  let (x2, completes) :=
    if last then lastArrival s x1 arrived
    else ({ x1 with value := barWord ph arrived false false 0 }, false)
  let late := outOfTime s c
  let wantsEntry := !fSPLIT c.words && !completes && !late
  match (if wantsEntry then placeTable s key x c.tenant else some 0) with
  | none => refuseWait (noticeIf s home c .refused) (sliceOf key) c .barrier
  | some table =>
    let s := noticeIf (countRmw s c .barrier) home c (.accepted ph)
    let x3 := released (signedBy x2 s.now c) c
    let s := framesIfArmed (if completes then rootDone (countPhase s x.tenant) x else s) key x x3
    let s := if last && x1.combine && !x1.aborted then closeRoot s x else s
    let s := if completes && !fSPLIT c.words then scopeCheck s x.rel c else s
    let val : Word := w64 (b2n ph)
    if wantsEntry then
      let s := addWaiter (setSlot s key x3) key x3 c val table
      quiesceNew (afterRmw s key x none false) key x.tenant c
    else
      let reply : Reply :=
        if completes then satReply s x2 c.words val x2.value x2.value (!fSPLIT c.words)
        else if fSPLIT c.words then splitReply s c ph x.aborted
        else caused s .timeout cExpired (dieOf s) (x3.value.toNat % 2 ^ 32)
      afterRmw (setSlot s key x3) key x (some (c, reply)) completes

/-- ARRIVE and ARRIVE_COMBINE on an object (R133, R137, R142). The hold of R137 comes before every other check of the barrier
(DESIGN CHOICE, log entry 98). -/
def applyArrive (s : State) (key : Nat) (x : Slot) (c : Cmd) : State :=
  let home : Origin := .router (sliceOf key)
  let reject (s : State) (st : Status) : State := rejectCmd s home c (some .barrier) st
  if barArmed x.value || barChold x.value then turnAway (bump s fTrsCnt2Repres) home c .barrier 5 256
  else if parMode x.param = 2 then reject s .badop
  else if parMode x.param = 1 then
    let i := memberIdx c.words
    match x.members[i / 512]? with
    | none => reject (countEv (bump s fTrsCnt1Nonmemb) (Ev.ofPart 0x0F c)) .nonmember
    | some (m, a) =>
      if !nbit m.toNat (i % 512) then reject (countEv (bump s fTrsCnt1Nonmemb) (Ev.ofPart 0x0F c)) .nonmember
      else if nbit a.toNat (i % 512) then reject s .badop
      else recordArrival s key x c (x.members.set (i / 512) (m, a ||| BitVec.ofNat 512 (2 ^ (i % 512))))
  else recordArrival s key x c x.members

/-- MEMBER (R144, R146): the membership changes, and the pass that follows completes the phase when every remaining
member has arrived. The hold of R137 comes before the BADOP of a barrier that is not CONDITIONAL, an armed FOLLOWER
among them (DESIGN CHOICE, log entry 98). -/
def applyMember (s : State) (key : Nat) (x : Slot) (c : Cmd) : State :=
  let home : Origin := .router (sliceOf key)
  let n := memberCount x
  if barArmed x.value || barChold x.value then refuseCmd (bump s fTrsCnt2Repres) home c .barrier 5 256
  else if parMode x.param ≠ 1 then failPlain s home c (some .barrier) .badop
  else
    let no (s : State) : State := answer s home c (some .barrier) (plain s (w64 n) .badop)
    match x.members[memberWin c.words]? with
    | none => no s
    | some (m, a) =>
      let k := memberMask c.words
      let m' := match memberMode c.words with
        | 0 => k
        | 1 => m ||| k
        | _ => m &&& ~~~k
      if a &&& ~~~m' ≠ 0#512 then no s
      else
        let s := countRmw s c .barrier
        let x1 := { x with members := x.members.set (memberWin c.words) (m', a) }
        let changed := decide (m' ≠ m)
        let arrived := barArrived x.value
        let last := changed && decide (arrived = needed x1) && decide (1 ≤ needed x1)
        let (x2, completes) := if last then lastArrival s x1 arrived else (x1, false)
        let x3 := released (if decide (x2.value ≠ x.value) then signedBy x2 s.now c else x2) c
        let s := framesIfArmed (if completes then rootDone (countPhase s x.tenant) x else s) key x x3
        let s := if last && x.combine && !x.aborted then closeRoot s x else s
        afterRmw (setSlot s key x3) key x (some (c, plain s (w64 (memberCount x1)) .ok)) changed

/-! Release times (R147 to R153). -/

/-- The pacing window that contains a Deck Time, and a window's start (R113). -/
def windowOf (t : Nat) : Nat := (3 * (t + 1) + 159) / 160 - 1
def windowStart (n : Nat) : Nat := 160 * n / 3

/-- WAIT_CTL.DROOP_DEFER, 0 treated as 1. -/
def droopDefer (s : State) : Nat := max 1 (get s fWaitCtlDroopDefer)

/-- The deferral of a timed release due at t under DROOP_WARN (R117): none when it is not deferred. -/
def deferral (s : State) (t : Nat) : Option Nat :=
  if s.clk.droop then some (windowStart (windowOf t + droopDefer s)) else none

/-! Events due in one tick at one unit (R331, R335): an event takes effect only when none that comes before it is due there. The
order is by Deck Time value, then window boundary, timed releases in slot order, expiries, freeze, counter sample. -/

/-- The first multiple of n at or after t. -/
def ceilTo (n t : Nat) : Nat := (t + n - 1) / n * n

/-- When a command held at a grain expires: none without a deadline, and none for a try-once command, which ends when it is
evaluated, however long it is held before (R69, R119, R175). -/
def expiryOf (c : Cmd) (grain : Nat) : Option Nat :=
  if tryOnce c.words then none else c.deadline.map (ceilTo grain)

/-- A command that has reached its deadline may expire at the first multiple of the grain. -/
def expired (s : State) (c : Cmd) (grain : Nat) : Bool := (expiryOf c grain).any fun e => decide (e ≤ s.now)

/-- A boundary changes the pacing budget: pacing or DROOP_WARN limits the window before or after it (R114). -/
def pacingOn (s : State) : Bool := on s fWaitCtlPaceEn || s.clk.droop || s.wk.budget.isSome

/-- The boundary of a window that begins at or before t has yet to be acted on (R113). -/
def windowDue (s : State) (t : Nat) : Bool := pacingOn s && decide (s.wk.window < windowOf t)

/-- When an armed object's release is due: none while its pass is paused or its record would find no room. -/
def releaseTime (s : State) (y : Nat × Slot) : Option Nat :=
  if y.2.paused || mirFull s y.1 y.2.tenant then none else y.2.due.filter fun d => decide (d ≤ s.now)

/-- A release of a slice is due before t, or at t in a slot below n. -/
def releaseBefore (s : State) (slice t n : Nat) : Bool :=
  s.sema.slots.any fun y => decide (sliceOf y.1 = slice) &&
    (releaseTime s y).any fun d => decide (d < t) || (decide (d = t) && decide (slotOf y.1 < n))

/-- A waiter of a slice expires before t. -/
def expiryBefore (s : State) (slice t : Nat) : Bool :=
  (allWaiters s).any fun x => decide (sliceOf x.1 = slice) && (expiryOf x.2.cmd 16).any fun e => decide (e < t)

/-- The earliest release or expiry that is due at a slice, or now. -/
def firstDue (s : State) : Nat :=
  let l := s.sema.slots.filterMap (releaseTime s) ++ (allWaiters s).filterMap fun x => expiryOf x.2.cmd 16
  l.foldl min s.now

/-- The release list of a slice acts on an armed object (R117, R148): deferred, unlinked under CHOLD, or completed. A completion
that DROOP_WARN deferred is stamped at the start of its window. -/
def releaseSlot (s : State) (key : Nat) (x : Slot) (d : Nat) : State :=
  if barChold x.value then setSlot s key { x with due := none }
  else if d % 2 ^ 40 ≠ barTrel x.value then asOf d (fun s => completePhase s key x) s
  else
    match deferral s d with
    | some d' => setSlot (bump s fWaitCnt3Deferred) key { x with due := some d' }
    | none => completePhase s key x

/-- Deck Time has reached the release time of an armed object. An object whose pass is paused, or whose record would find no room,
waits (R103, R309), and so does a release before which another event of the slice is due (R335). -/
def timedRelease_ (s : State) (key : Nat) : State :=
  if !coreRuns s then s else
  match slotAt s key with
  | none => s
  | some x =>
    match releaseTime s (key, x) with
    | none => s
    | some d =>
      let slice := sliceOf key
      if windowDue s d || releaseBefore s slice d (slotOf key) || expiryBefore s slice d then s
      else
        let s := readSlot s key x
        match slotAt s key with
        | none => s
        | some y => writeSlotChk (if y.due = some d then releaseSlot s key y d else s) key

/-- A time frame at a RESIDENT follower (R151, R152). -/
def frameAtSlot (s : State) (key : Nat) (x : Slot) (src : Nat) (phase : Bool) (t : Nat) : State :=
  if x.kind ≠ .barrier ∨ parMode x.param ≠ 2 then bump s fTrsCnt2Framedrop
  else if barPhase x.value ≠ phase then raise s bTrs 1 src
  else
    let x1 := { x with value := barWord phase (barArrived x.value) true false t, due := some t }
    if s.now < t then afterRmw (setSlot s key (signedAuto x1 s.now)) key x none false
    else
      let s := countEv (bump s fTrsCnt1Late) (Ev.ten 0x10 x.tenant)
      let s := raise s bTrs 0 (dObj (sliceOf key) (slotOf key) x.tenant)
      completeFrom s key x x1

/-- The root unit's report reaches the barrier (R138): chunks and flags of the result, or an abort. With ARMED it clears CHOLD,
and the phase completes at its release time, or now where that has passed. An abort that comes before CHOLD is kept. -/
def reportAtSlot (s : State) (key : Nat) (x : Slot) (result : Option (Nat × Nat)) : State :=
  if barChold x.value then
    let x1 := { x with result := result, aborted := result.isNone }
    if barArmed x.value && x.due.any fun d => decide (s.now < d) then
      let x2 := { x1 with value := barWord (barPhase x.value) (barArrived x.value) true false (barTrel x.value) }
      afterRmw (setSlot s key (signedAuto x2 s.now)) key x none false
    else completePhase s key x1
  else if result.isNone then setSlot s key { x with aborted := true, result := none }
  else s

end Sys2Proof.Machine
end

