-- ==== Sys2Proof/Machine/Slice.lean ====
section
/-! DEFINITION. What a slice does with a command on an object it holds (R23 to R30, R82, R83, R92 steps 8 to 13, R102, R173),
and with a staged ROUTE entry (R172, R175). -/
namespace Sys2Proof.Machine

/-- What a signal, GIVE or read does to an object: new value, new OVR, status, and VALUE of the reply (R78). -/
structure Effect where
  value : Word
  ovr : Nat
  status : Status
  out : Word
  deriving DecidableEq, Repr

/-- SIG_ADD, SIG_SUB and GIVE on each kind (R23 to R28, R82). -/
def signalEffect (op : Op) (k : Kind) (param : BitVec 48) (v : Word) (ovr : Nat) (n : Word) : Effect :=
  let keep (st : Status) (out : Word) : Effect := ⟨v, ovr, st, out⟩
  match op, k with
  | .sigAdd, .count => if 2 ^ 63 ≤ v.toNat + n.toNat then keep .overflow v else ⟨v + n, ovr, .ok, v + n⟩
  | .sigSub, .count => if v.toNat < n.toNat then keep .underflow v else ⟨v - n, ovr, .ok, v - n⟩
  | .sigAdd, .seq => ⟨v + n, ovr, .ok, v + n⟩
  | .sigSub, .seq => ⟨v - n, ovr, .ok, v - n⟩
  | .sigAdd, .event =>
    if n = 0 then keep .ok v
    else if v.toNat % 2 = 1 then ⟨v, min 255 (ovr + 1), .overrun, v⟩
    else ⟨1, ovr, .ok, 1⟩
  | .sigSub, .event => if n = 0 then keep .ok v else ⟨0, ovr, .ok, 0⟩
  | .give, .pool => if param.toNat < v.toNat + n.toNat then keep .poolOverflow v else ⟨v + n, ovr, .ok, v + n⟩
  | _, _ => keep .badop 0

/-- A ROUTE entry's add (R82): as SIG_ADD on COUNT and SEQ, as GIVE on a POOL; else BADOP. -/
def entryEffect (k : Kind) (param : BitVec 48) (v : Word) (n : Nat) : Effect :=
  match k with
  | .count => signalEffect .sigAdd .count param v 0 (w64 n)
  | .seq => signalEffect .sigAdd .seq param v 0 (w64 n)
  | .pool => signalEffect .give .pool param v 0 (w64 n)
  | _ => ⟨v, 0, .badop, 0⟩

/-- A wait is legal on the kind with its operand in range (R23, R26, R67, R82). -/
def waitLegal (op : Op) (k : Kind) (param : BitVec 48) (n : Word) : Bool :=
  match op, k with
  | .waitGe, .count => decide (n.toNat < 2 ^ 63)
  | .waitGe, .seq => true
  | .waitGe, .event => true
  | .waitGe, .pool => decide (n.toNat ≤ param.toNat)
  | .waitGe, .barrier => true
  | .waitTake, .count => decide (n.toNat < 2 ^ 63)
  | .waitTake, .event => true
  | .waitTake, .pool => decide (n.toNat ≤ param.toNat)
  | .take, .pool => decide (n.toNat ≤ param.toNat)
  | _, _ => false

/-- Satisfied whatever the value and state (R83): a wait for 0 on a COUNT, a take of 0 tokens on a POOL. A WAIT_GE of 0 on a
POOL, which the rule's list does not hold, is none of them (DESIGN CHOICE, log entry 99). -/
def zeroWait (op : Op) (k : Kind) (n : Word) : Bool :=
  decide (n = 0) && (match op, k with
    | .waitGe, .count => true
    | .waitTake, .count => true
    | .waitTake, .pool => true
    | .take, .pool => true
    | _, _ => false)

/-- Pending-table entries in use in a slice (R175): (slot, tag) pairs and held try-once waits. -/
def pendUse (s : State) (slice : Nat) : Nat :=
  sumBy (fun x : Nat × Slot => if sliceOf x.1 = slice then x.2.pend.length + x.2.tries.length else 0) s.sema.slots

/-- High-water mark of the pending tables (SEMA_RTPEND.SLHWM). -/
def markPend (s : State) (slice : Nat) : State := hwm s fSemaRtpendSlhwm (pendUse s slice)

/-- FREE's conditions (R41). -/
def freeable (x : Slot) : Bool :=
  decide (x.waiters = []) && !x.role && !x.cbound && atRest x.kind x.param x.value

/-- SIG_ADD, SIG_SUB and GIVE at a slot. -/
def applySignal (s : State) (key : Nat) (x : Slot) (c : Cmd) (op : Op) : State :=
  let home : Origin := .router (sliceOf key)
  let n := if op = .give then w64 (wbits (pOperand c.words) 0 48) else pOperand c.words
  let e := signalEffect op x.kind x.param x.value x.ovr n
  if e.status = .badop then failPlain s home c (some x.kind) .badop
  else
    let s := countRmw s c x.kind
    let s := if e.status = .overrun then countEv s (Ev.ofPart 0x0D c) else s
    let changed := decide (e.value ≠ x.value)
    let y := { x with value := e.value, ovr := e.ovr }
    let y := if changed then signedBy y s.now c else y
    let y := if (e.status = .ok ∧ (changed = true ∨ n = 0)) ∨ e.status = .overrun then released y c else y
    afterRmw (setSlot s key y) key x (some (c, plain s e.out e.status)) changed

/-- POLL and FENCE read an object (R82, R88, R257). -/
def applyRead (s : State) (key : Nat) (x : Slot) (c : Cmd) (op : Op) : State :=
  let s := scopeCheck (countRmw s c x.kind) x.rel c
  let y := if op = .fence then released x c else x
  answer (setSlot s key y) (.router (sliceOf key)) c (some x.kind) (plain s (if op = .fence then 0 else x.value) .ok)

/-- The try-once waits held beside an object that goes end unsatisfied (R41, R173; DESIGN CHOICE, log entry 100). -/
def endTries (s : State) (key : Nat) (x : Slot) : State :=
  x.tries.foldl (fun s c => failWith s (.router (sliceOf key)) c (some x.kind) .timeout cExpired (x.value.toNat % 2 ^ 32)) s

/-- FREE at a slot (R41). -/
def applyFree (s : State) (key : Nat) (x : Slot) (c : Cmd) (index : Nat) : State :=
  let home : Origin := .router (sliceOf key)
  if freeable x then
    let s := unmirror (endTries (countRmw s c x.kind) key x) key
    let s := setHtm (delSlot s key) index HEntry.zero
    answer s home c (some x.kind) (plain s 0 .ok)
  else failPlain s home c (some x.kind) .badop

/-- WAIT_GE, WAIT_TAKE and TAKE at a slot (R83, R102, R121, R173). -/
def applyWait (s : State) (key : Nat) (x : Slot) (c : Cmd) (op : Op) : State :=
  let home : Origin := .router (sliceOf key)
  let n := if op = .take then w64 (wbits (pOperand c.words) 0 48) else pOperand c.words
  if !waitLegal op x.kind x.param n then failPlain s home c (some x.kind) .badop
  else
    let zero := zeroWait op x.kind n
    let pending := isPendingObj s key x && !zero
    let takesWait := isTake x.kind c.words && x.waiters.any (fun w => isTake x.kind w.cmd.words) && !zero
    match (if pending || takesWait then none else satisfies x.kind x.value c.words n) with
    | some v =>
      let s := scopeCheck (countRmw s c x.kind) x.rel c
      let changed := decide (v ≠ x.value)
      let y := { x with value := v }
      let y := if changed then signedBy y s.now c else y
      let r := satReply s x c.words n x.value v true
      afterRmw (setSlot s key y) key x (some (c, r)) changed
    | none =>
      if pending && tryOnce c.words then
        if 256 ≤ pendUse s (sliceOf key) then
          refuseCmd (if fTRY c.words then s else bump s fSemaRtcnt1Noroom) home c .table 6 64
        else markPend (setSlot s key { x with tries := x.tries ++ [c] }) (sliceOf key)
      else if outOfTime s c then
        failWith (countRmw s c x.kind) home c (some x.kind) .timeout cExpired (x.value.toNat % 2 ^ 32)
      else
        match placeTable s key x c.tenant with
        | none => refuseWait s (sliceOf key) c x.kind
        | some table => quiesceNew (addWaiter (countRmw s c x.kind) key x c n table) key x.tenant c

/-- A command of an older epoch at its object (R36, R92 step 8). Imported commands carry the exporter's current epoch
(R360). -/
def staleAt (s : State) (t : Nat) (c : Cmd) : Bool := decide (c.tenant = t) && isOlder (epochOf s t) c.epoch

/-- A command is applied to the object in a slot (R92 steps 8 to 13). -/
def applyOp (s : State) (key : Nat) (x : Slot) (c : Cmd) (index : Nat) : State :=
  let home : Origin := .router (sliceOf key)
  if staleAt s x.tenant c then rejectCmd s home c (some x.kind) .epochStale
  else if x.poison then rejectCmd s home c (some x.kind) .poison
  else
    match pOp c.words with
    | some .sigAdd => applySignal s key x c .sigAdd
    | some .sigSub => applySignal s key x c .sigSub
    | some .give => applySignal s key x c .give
    | some .poll => applyRead s key x c .poll
    | some .fence => applyRead s key x c .fence
    | some .waitGe => applyWait s key x c .waitGe
    | some .waitTake => applyWait s key x c .waitTake
    | some .take => applyWait s key x c .take
    | some .arrive =>
      if x.kind = .barrier then applyArrive s key x c else failPlain s home c (some x.kind) .badop
    | some .arriveCombine =>
      if x.kind = .barrier then applyArrive s key x c
      else rejectCmd s home c (some x.kind) .badop
    | some .member =>
      if x.kind = .barrier then applyMember s key x c else failPlain s home c (some x.kind) .badop
    | some .free => applyFree s key x c index
    | _ => failPlain s home c (some x.kind) .badop

/-- A block's memory or queue word is read: a corrected error and an uncorrectable one are raised as the given sources of
SEMA (R390, R391); answers whether it was uncorrectable. -/
def semaRead (s : State) (target unit index ceSrc ueSrc : Nat) : State × Bool :=
  let (s, e) := chkRead s bSema target unit index
  match e with
  | .good => (s, false)
  | .ce => (raise s bSema ceSrc (dMem target index), false)
  | .ue => (raise s bSema ueSrc (dMem target index), true)

/-- The slot tag of an object is read; an uncorrectable one holds its commands at the bank (R391). -/
def tagRead (s : State) (key i : Nat) : State × Bool :=
  let (s, bad) := semaRead s 2 (sliceOf key) (slotOf key) 0 2
  (if bad then { s with sema := { s.sema with rebuild := insNat s.sema.rebuild i } } else s, bad)

/-- The other handle-table entry of entry i's word: two entries of one bank share a word (R33, log entry 37). -/
def htmTwin (i : Nat) : Nat := if i / 64 % 2 = 0 then i + 64 else i - 64

/-- The handle-table entry i is read with its word; an uncorrectable word holds the commands of its two entries at the bank
(R33, R391). -/
def htmRead (s : State) (i : Nat) : State × Bool :=
  let (s, bad) := semaRead s 3 (i % 64) (i / 128) 0 2
  let held := insNat (insNat s.sema.rebuild i) (htmTwin i)
  (if bad then { s with sema := { s.sema with rebuild := held } } else s, bad)

/-- The word of handle-table entry i is written. -/
def htmWrite (s : State) (i : Nat) : State := chkWrite s bSema 3 (i % 64) (i / 128)

/-! The slice input queue (R16, R103, R125). -/

/-- Places in use of a slice's input queue. -/
def inqUse (s : State) (slice : Nat) : Nat :=
  sumBy (fun x : Nat × Slot => if sliceOf x.1 = slice then x.2.inq.length else 0) s.sema.slots

/-- The input queue of a slice is full: no Girder credit towards it is left (R125). -/
def noCredit (s : State) (slice : Nat) : Bool := decide (32 ≤ inqUse s slice)

/-- An item waits in the slice input queue behind the paused pass of its object (R103). -/
def pushInq (s : State) (key : Nat) (x : Slot) (item : HomeItem) : State :=
  let used := s.sema.slots.flatMap fun y => if sliceOf y.1 = sliceOf key then y.2.inq.map (·.1) else []
  let w := freeWord 32 used
  let age := s.sema.inqAge.filter (fun y => decide (y ≠ (sliceOf key, w))) ++ [(sliceOf key, w)]
  let s := { s with sema := { s.sema with inqAge := age } }
  chkWrite (setSlot s key { x with inq := x.inq ++ [(w, item)] }) bSema 6 (sliceOf key) w

/-- A message waits in Girder for a credit towards a slice (R125); it names the handle-table index of its object. -/
def girderWait (s : State) (i : Nat) (item : HomeItem) : State :=
  { s with gir := { s.gir with stalled := s.gir.stalled ++ [(i, item)] } }

/-- The router at which a command came onto Girder: its pier's, or that of the port on which it arrived. -/
def entryRouter (s : State) (c : Cmd) : Nat := if c.die = dieOf s then pierRouter s c.pier else portRouter (recvPort s c.die)

/-- What an import window has substituted in an item that waits at a slot (R360): none where the slot's object is the one that the item
names itself, by tenant and number. -/
def slotImport (s : State) (x : Slot) (t n : Nat) : Option Import :=
  if x.tenant = t ∧ x.obj = n then none else some ⟨x.tenant, x.obj, epochOf s x.tenant⟩

/-- A command finds no credit towards its slice: with TRY it ends with FULL; else it stalls at its queue's head, and one of
another die waits in Girder (R125; log entry 102). -/
def noRoom (s : State) (c : Cmd) (index : Nat) (imp : Option Import) : State :=
  let o : Origin := .router (entryRouter s c)
  if fTRY c.words then failPlain (noticeIf s o c .refused) (if c.die = dieOf s then .pier else o) c none .full
  else if c.die = dieOf s then
    mapItem (noticeIf s o c .refused) c.agent c.queue (holds c) fun i => { i with st := .stalled .bound }
  else girderWait s index (.cmd c false imp)

/-- A command reaches the slot that holds its object. It needs a place of the slice input queue (R125); while the object's pass
is paused it waits there (R103, R112). A mirrored tenant's command finds room for its records (R309). -/
def toSlot (s : State) (key : Nat) (c : Cmd) (index : Nat) : State :=
  let home : Origin := .router (sliceOf key)
  match slotAt s key with
  | none => rejectCmd s home c none .badop
  | some x =>
    let imp := slotImport s x c.tenant (pObj c.words)
    if noCredit s (sliceOf key) then noRoom s c index imp
    else if x.paused then pushInq s key x (.cmd c false imp)
    else if mirFull s key x.tenant then turnAway s home c .bank 3 256
    else
      let s := readSlot s key x
      match slotAt s key with
      | none => s
      | some y => writeSlotChk (applyOp s key y c index) key

/-! Staging (R172, R175, R178). -/

/-- The object number of a ROUTE entry (R73). -/
def entryObj (c : Cmd) (e : REntry) : Nat := pObj c.words + e.offset

/-- The coordinator's record of a part, changed. -/
def updPart (s : State) (tag : Nat) (f : Part → Part) : State :=
  let parts := mapFirst (fun p : Part => decide (p.tag = tag)) f s.rt.parts
  { s with rt := { s.rt with parts := parts } }

/-- The record of a part. -/
def partOf (s : State) (tag : Nat) : Option Part := s.rt.parts.find? fun p => decide (p.tag = tag)

/-- The router of a part's coordinator: the issuing pier's, or that of the port that received it (R170). -/
def coordRouter (s : State) (p : Part) : Nat :=
  match p.origin with
  | none => pierRouter s p.cmd.pier
  | some (n, _, _) => portRouter n

/-- The Deck Time of a part's coordinator (R334). -/
def coordTime (s : State) (p : Part) : Nat :=
  match p.origin with
  | none => pierTime s p.cmd.pier
  | some _ => s.now

/-- The number by which a staging report names its source: a router, or 64 for firmware. -/
def Origin.number : Origin → Nat
  | .router r => r
  | _ => 64

/-- A staging report on its way to the coordinator (R172). -/
def sendReport (s : State) (o : Origin) (tag idx : Nat) (st : Status) : State :=
  match partOf s tag with
  | none => s
  | some p => crossed s o (coordRouter s p) fun s =>
    { s with gir := { s.gir with sreports := s.gir.sreports ++ [(o.number, tag, idx, st)] } }

/-- A staging entry is to be presented again from a time on (R172, R175). -/
def deferEntry (s : State) (tag idx due : Nat) : State :=
  updPart s tag fun p => { p with retry := p.retry.filter (fun r => decide (r.1 ≠ idx)) ++ [(idx, due)] }

/-- A staging entry is turned away where it met the engine: its coordinator presents it again after a delay (R172, R175). -/
def retryEntry (s : State) (o : Origin) (tag idx delay : Nat) : State :=
  match partOf s tag with
  | none => s
  | some p => crossed s o (coordRouter s p) fun s => deferEntry s tag idx (coordTime s p + delay)

/-- ROUTE_STAGE is counted for an entry staged or failed (R435). -/
def countStage (s : State) (c : Cmd) (k : Option Kind) (st : Status) : State :=
  let s := if st = .ok then bump s fSemaRtcnt0Staged else bump s fSemaRtcnt1Failed
  let e := Ev.ofCmd 0x12 c k (some st)
  countEv s { e with c := none }

/-- An entry is staged, or fails with a status (R172, R178): it is counted and reported. -/
def reportEntry (s : State) (o : Origin) (tag idx : Nat) (c : Cmd) (k : Option Kind) (st : Status) : State :=
  sendReport (countStage s c k st) o tag idx st

/-- An entry is applied at a slot, or finds no room (R172, R175). On a mirrored tenant's object its report waits for the MACK
(R309). -/
def applyEntry (s : State) (key : Nat) (x : Slot) (tag : Nat) (e : REntry) (c : Cmd) : State :=
  let home : Origin := .router (sliceOf key)
  let f := entryEffect x.kind x.param x.value e.count
  if staleAt s x.tenant c then reportEntry s home tag e.idx c (some x.kind) .epochStale
  else if x.poison then reportEntry s home tag e.idx c (some x.kind) .poison
  else if f.status ≠ .ok then reportEntry s home tag e.idx c (some x.kind) f.status
  else if !x.pend.contains tag && decide (256 ≤ pendUse s (sliceOf key)) then
    retryEntry (bump s fSemaRtcnt1Noroom) home tag e.idx 64
  else
    let y := { x with value := f.value, pend := if x.pend.contains tag then x.pend else x.pend ++ [tag] }
    let y := if f.value ≠ x.value then signedBy y s.now c else y
    let y := if fREL c.words then { y with stagedRel := y.stagedRel ++ [(tag, ⟨c.agent, c.pier, c.die, pScope c.words⟩)] } else y
    let s := updPart s tag fun p => { p with staged := p.staged ++ [(e.idx, .slice (sliceOf key), key)] }
    let s := markPend (setSlot (countRmw s c x.kind) key y) (sliceOf key)
    let s := chkWrite s bSema 9 (sliceOf key) (slotOf key)
    if mirrored s x.tenant && rmwChanged x y then sendMirror s key x y ⟨none, none, some (tag, e.idx)⟩
    else reportEntry s home tag e.idx c (some x.kind) .ok

/-- A staging entry reaches the slot that holds its object: it waits there as a command does (R30, R103, R125), and one that would
find no room for a mirror record is presented again (R309; log entry 101). `i` is the object's handle-table index. -/
def stageAtSlot (s : State) (key i : Nat) (tag : Nat) (e : REntry) (c : Cmd) : State :=
  let home : Origin := .router (sliceOf key)
  match slotAt s key with
  | none => reportEntry s home tag e.idx c none .badop
  | some x =>
    let imp := slotImport s x c.tenant (entryObj c e)
    if noCredit s (sliceOf key) then girderWait s i (.stage tag e c false imp)
    else if x.paused then pushInq s key x (.stage tag e c false imp)
    else if mirFull s key x.tenant then retryEntry s home tag e.idx 256
    else
      let s := readSlot s key x
      match slotAt s key with
      | none => s
      | some y => writeSlotChk (applyEntry s key y tag e c) key

/-! Marionette at a slice (R459, R460). -/

abbrev mSetval : Nat := 1

/-- An operation completes with a status: MAR_ST, and MAR_CNT for one that is applied (R459). -/
def marDone (s : State) (op : Nat) (st : Status) : State :=
  let s := put (put (put (put s fMarStStatus (stCode st)) fMarStBusy 0) fMarStOp op) fMarStDt s.now
  if st = .ok then bump s fMarCntOps else s

/-- MAR_OP is counted for a tenant (R435). -/
def marApplied (s : State) (op t : Nat) : State := marDone (countEv s (Ev.ten 0x23 t)) op .ok

/-- An operation is executing (R459). -/
def marWaits (s : State) (op : Nat) : State := put (put s fMarStBusy 1) fMarStOp op

/-- A value word that SETVAL may not give an object of a kind (R460). -/
def setvalBad (k : Kind) (p : BitVec 48) (v : Word) : Bool :=
  match k with
  | .count => decide (2 ^ 63 ≤ v.toNat)
  | .seq => false
  | .event => decide (1 < v.toNat)
  | .pool => decide (p.toNat < v.toNat)
  | .barrier => barArmed v || barChold v || decide (wbits v 56 8 ≠ 0)

/-- An object as SETVAL leaves it: value, no release record, the signal record of Marionette; off the release list. ROLE stays as it
was, whatever ARRIVED becomes: R460 does not say (DESIGN CHOICE, log entry 117). -/
def setvalSlot (s : State) (x : Slot) (v : Word) : Slot :=
  { x with
    value := v, rel := none, sig := some ⟨0x7FF, dieOf s, s.now, true⟩, lastSig := s.now
    due := if x.kind = .barrier then none else x.due }

/-- SETVAL on the object that a slot holds, once it is read (R460). -/
def applySetval (s : State) (key : Nat) (x : Slot) (v : Word) : State :=
  if x.poison then marDone s mSetval .poison
  else if setvalBad x.kind x.param v then marDone s mSetval .badop
  else
    let s := writeSlotChk (setSlot (wr s rMarOld x.value) key (setvalSlot s x v)) key
    afterRmw (marApplied s mSetval x.tenant) key x none true

/-- SETVAL at a slot. Between two operations of the slice it has to wait as they do: for a place of the input queue, behind a paused
pass, and for room for its records (R103, R125, R309, R460; DESIGN CHOICE, log entry 123). `i` is the object's handle-table index. -/
def setvalAt (s : State) (key i : Nat) (v : Word) : State :=
  match slotAt s key with
  | none => marDone s mSetval .badop
  | some x =>
    if noCredit s (sliceOf key) || mirFull s key x.tenant then girderWait (marWaits s mSetval) i (.setval v)
    else if x.paused then pushInq (marWaits s mSetval) key x (.setval v)
    else
      let s := readSlot s key x
      match slotAt s key with
      | none => marDone s mSetval .badop
      | some y => applySetval s key y v

/-- An item is lost with its word of a queue's memory (R391). A SETVAL ends with POISON (DESIGN CHOICE, log entry 123). -/
def loseItem (s : State) : HomeItem → State
  | .setval _ => marDone s mSetval .poison
  | _ => s

end Sys2Proof.Machine
end

