-- ==== Sys2Proof/Machine/Bank.lean ====
section
/-! DEFINITION. Handle banks: translation, import windows, the transit and paging queues (R33 to R37, R51, R52, R56, R360),
ALLOC (R38 to R40), AUDIT (R43 to R45), backing images (R46). -/
namespace Sys2Proof.Machine

/-- The handle-table entry of object number n of tenant t: none outside the window (R34). -/
def htmIdx (s : State) (t n : Nat) : Option Nat :=
  if n < 1024 * get s (fSemaHtwLen t) then some (1024 * get s (fSemaHtwBase t) + n) else none

/-- The import window that maps a number of a tenant: exporter, mapped number, PERM (R360). -/
def importOf (s : State) (t n : Nat) : Option (Nat × Nat × Nat) :=
  (List.range 4).findSome? fun i =>
    let lo := 64 * get s (fTenImpBase t i)
    if on s (fTenImpValid t i) ∧ lo ≤ n ∧ n < lo + 64 * (get s (fTenImpCnt t i) + 1) then
      some (get s (fTenImpSrct t i), 64 * get s (fTenImpSrcbase t i) + (n - lo), get s (fTenImpPerm t i))
    else none

/-- The checks of R360 on an imported command: none passes. -/
def importCheck (s : State) (c : Cmd) (op : Op) (srct perm : Nat) : Option Status :=
  let sig := [Op.sigAdd, .sigSub, .give, .route, .arrive].contains op
  let wait := [Op.waitGe, .waitTake, .take].contains op
  if c.die ≠ dieOf s then some .prot
  else if !on s (fTenCfgExport srct) then some .prot
  else if [Op.alloc, .free, .member, .arriveCombine].contains op then some .prot
  else if sig && !nbit perm 0 then some .prot
  else if wait && !nbit perm 1 then some .prot
  else if !sig && !wait && decide (perm = 0) then some .prot
  else if isOlder (epochOf s c.tenant) c.epoch then some .epochStale
  else none

/-- The entry a command's object number leads to: handle-table index and what an import window has substituted; or the status it
fails with. -/
def resolve (s : State) (c : Cmd) (op : Op) (n : Nat) : Except Status (Nat × Option Import) :=
  match htmIdx s c.tenant n with
  | none => .error .prot
  | some i =>
    match importOf s c.tenant n with
    | none => .ok (i, none)
    | some (srct, m, perm) =>
      match importCheck s c op srct perm with
      | some st => .error st
      | none =>
        match htmIdx s srct m with
        | none => .error .prot
        | some j => .ok (j, some ⟨srct, m, epochOf s srct⟩)

/-- The entry of a substituted command that goes on from where it waited (R360): the substitution stands, and the command is stale once
the exporter's epoch has gone on (R36). -/
def resolveImport (s : State) (y : Import) : Except Status Nat :=
  if isOlder (epochOf s y.tenant) y.epoch then .error .epochStale
  else
    match htmIdx s y.tenant y.obj with
    | none => .error .prot
    | some i => .ok i

/-- The bank, and so the router, of the entry that an object number of a tenant names. -/
def bankOf (s : State) (t n : Nat) : Nat := ((htmIdx s t n).getD 0) % 64

/-- The router where an object of a tenant is found: its slice's where it is RESIDENT, else its bank's. -/
def homeRouter (s : State) (t n : Nat) : Nat :=
  let i := (htmIdx s t n).getD 0
  if (htmAt s i).state = .resident then (htmAt s i).slice else i % 64

/-- Items in a bank's transit queue (R37), with the time frames that wait at its input. -/
def transitUse (s : State) (bank : Nat) : Nat :=
  count (fun x : Nat × Nat × HomeItem => decide (x.1 % 64 = bank)) s.sema.transit

/-- An item enters its bank's transit queue at the lowest free word (log entry 37). A time frame that finds the queue full waits at
the bank's input, in no word of it (R37). -/
def pushTransit (s : State) (i : Nat) (x : HomeItem) : State :=
  let w := freeWord 64 ((s.sema.transit.filter fun y => decide (y.1 % 64 = i % 64)).map (·.2.1))
  let s := { s with sema := { s.sema with transit := s.sema.transit ++ [(i, w, x)] } }
  if w < 64 then chkWrite s bSema 7 (i % 64) w else s

/-- An item enters the paging queue at the lowest free word (log entry 37). -/
def pushPaging (s : State) (i : Nat) (x : HomeItem) : State :=
  let w := freeWord 4096 (s.sema.paging.map (·.word))
  chkWrite { s with sema := { s.sema with paging := s.sema.paging ++ [⟨i, w, x, false⟩] } } bSema 8 0 w

/-- A fresh slot of an object. -/
def newSlot (k : Kind) (p : BitVec 48) (v : Word) (t epoch n now : Nat) (paired : Bool) : Slot :=
  { value := v, kind := k, param := p, paired := paired, poison := false, role := false, cbound := false, ovr := 0
    tenant := t, epoch := epoch, obj := n, rel := none, sig := none, lastSig := now, waiters := [], segs := []
    members := if k = .barrier ∧ parMode p = 1 then List.replicate (parMwin p + 1) (0#512, 0#512) else []
    pend := [], tries := [], stagedRel := [], combine := false, aborted := false, result := none, due := none
    paused := false, inq := [] }

/-- Slots in use or claimed in a slice, and member windows (R140). A slot that a page-in in progress has claimed counts as occupied, for
SEMA_PAIR too (R57 does not say; DESIGN CHOICE, log entry 124). -/
def slotsIn (s : State) (i : Nat) : Nat :=
  count (fun x : Nat × Slot => decide (sliceOf x.1 = i)) s.sema.slots + count (fun m : Move => decide (sliceOf m.key = i)) s.sema.moves
def windowsIn (s : State) (i : Nat) : Nat :=
  sumBy (fun x : Nat × Slot => if sliceOf x.1 = i then x.2.members.length else 0) s.sema.slots
    + sumBy (fun m : Move => if sliceOf m.key = i then m.windows else 0) s.sema.moves

/-- A slot is neither occupied nor claimed by a page-in. -/
def slotFree (s : State) (key : Nat) : Bool :=
  (slotAt s key).isNone && !s.sema.moves.any fun m => decide (m.key = key)

/-- Member windows an object needs. -/
def windowsOf (k : Kind) (p : BitVec 48) : Nat := if k = .barrier ∧ parMode p = 1 then parMwin p + 1 else 0

/-- A slice can take an object (R38, R140). -/
def canTake (s : State) (k : Kind) (p : BitVec 48) (i : Nat) : Bool :=
  sliceOn s i && decide (slotsIn s i < 4096) && decide (windowsIn s i + windowsOf k p ≤ 128)

/-- Slice and slot for an object, from its preferred slice (R38 step 3). A paired object leaves the same-numbered slot of the partner
slice to other objects: only its check words stand for its second copy (R57 does not say whether it occupies that slot; DESIGN CHOICE,
log entry 125). -/
def chooseSlot (s : State) (k : Kind) (p : BitVec 48) (pref : Nat) : Option Nat :=
  match (if canTake s k p pref then some pref else nearest pref (canTake s k p)) with
  | none => none
  | some i => ((List.range 4096).find? fun j => slotFree s (slotKey i j)).map fun j => slotKey i j

/-- Resident objects of a tenant (SEMA_TUSE). -/
def residentOf (s : State) (t : Nat) : Nat := count (fun x : Nat × Slot => decide (x.2.tenant = t)) s.sema.slots

/-- The resident share is used up (R345), by objects in slots and on their way in. -/
def shareFull (s : State) (t : Nat) : Bool :=
  decide (256 * get s (fTenShare0Res t) ≤ residentOf s t + count (fun m : Move => decide (m.tenant = t)) s.sema.moves)

/-- Allocated numbers of a tenant's window, with their entries, in rising order. -/
def allocatedOf (s : State) (t : Nat) : List (Nat × HEntry) :=
  let lo := 1024 * get s (fSemaHtwBase t)
  let hi := lo + 1024 * get s (fSemaHtwLen t)
  (s.sema.htm.filter fun x => decide (lo ≤ x.1) && decide (x.1 < hi) && decide (x.2.state ≠ .unallocated)).map
    fun x => (x.1 - lo, x.2)

/-- The lowest UNALLOCATED number of a window (R38). The allocated numbers stand in rising order. -/
def lowestFree (s : State) (t : Nat) : Option Nat :=
  let n := (allocatedOf s t).foldl (fun n x => if x.1 = n then n + 1 else n) 0
  if n < 1024 * get s (fSemaHtwLen t) then some n else none

/-! Backing images (R46). -/
def imgAddr (s : State) (t n : Nat) : Nat := 4096 * get s (fSemaBackAddr t) + 16 * n
def imgWrite (s : State) (t n : Nat) (v m : Word) : State :=
  setMem64 (setMem64 s (imgAddr s t n) v) (imgAddr s t n + 8) m
def ImgSide.empty : ImgSide := ⟨none, [], [], false⟩
def sideAt (s : State) (i : Nat) : ImgSide := mgetD s.sema.imgs i ImgSide.empty
def setSide (s : State) (i : Nat) (x : ImgSide) : State :=
  { s with sema := { s.sema with imgs := mset s.sema.imgs i ImgSide.empty x } }

/-- The tenant whose window holds a handle-table entry, and its object number. -/
def ownerOf (s : State) (i : Nat) : Option (Nat × Nat) :=
  (List.range 256).findSome? fun t =>
    let lo := 1024 * get s (fSemaHtwBase t)
    if lo ≤ i ∧ i < lo + 1024 * get s (fSemaHtwLen t) then some (t, i - lo) else none

/-- ALLOC at the home engine (R38 to R40). `pref` is the slice on the issuing pier's router or the receiving port's. -/
def doAlloc (s : State) (c : Cmd) (pref : Nat) : State :=
  let t := c.tenant
  let ws := c.words
  let number : Except Status Nat :=
    if fANY ws then
      match lowestFree s t with
      | some n => .ok n
      | none => .error .resource
    else
      match htmIdx s t (pObj ws) with
      | none => .error .prot
      | some i =>
        if (importOf s t (pObj ws)).isSome then .error .prot
        else if (htmAt s i).state ≠ .unallocated then .error .badop
        else .ok (pObj ws)
  let outside := match number with
    | .error .prot => true
    | _ => false
  let home : Origin := .router (bankOf s t (pObj ws))
  if isOlder (epochOf s t) c.epoch && !outside then failPlain s home c none .epochStale
  else
    let param : BitVec 48 := BitVec.ofNat 48 (wbits (pOperand ws) 0 48)
    match kindOf (pAux ws % 8), number with
    | _, .error .prot => failPlain s home c none .prot
    | none, _ => failPlain s home c none .badop
    | some k, number =>
      if !paramLegal k param then failPlain s home c (some k) .badop
      else
        match number with
        | .error st => failPlain s home c (some k) st
        | .ok n =>
          let i := 1024 * get s (fSemaHtwBase t) + n
          let p := if fPREF ws then pAux ws / 8 % 64 else pref
          let v := restValue k param
          let reply := plain s (w64 (handleOf (dieOf s) n)) .ok
          match (if shareFull s t then none else chooseSlot s k param p) with
          | some key =>
            let paired := nbit (rd s rSemaPair).toNat (sliceOf key / 2)
            let x := newSlot k param v t (epochOf s t) n s.now paired
            let s := setHtm (setSlot s key x) i ⟨.resident, sliceOf key, slotOf key, k⟩
            let s := htmWrite (chkWrite (writeSlotChk s key) bSema 2 (sliceOf key) (slotOf key)) i
            answer s home c (some k) reply
          | none =>
            if on s (fSemaBackEn t) then
              let s := imgWrite s t n v (metaWord k param false false false false 0)
              answer (htmWrite (setHtm s i ⟨.backed, p, 0, k⟩) i) home c (some k) reply
            else failPlain s home c (some k) .resource

/-- The value and rest test of an allocated object, where it lives (R43). -/
def auditOne (s : State) (t : Nat) (x : Nat × HEntry) : Option (Nat × Kind × Word) :=
  let (v, m) := match s.sema.slots.find? fun y => decide (y.2.tenant = t) && decide (y.2.obj = x.1) with
    | some y => (y.2.value, y.2.metaOf)
    | none => (mem64 s (imgAddr s t x.1), mem64 s (imgAddr s t x.1 + 8))
  if atRest x.2.kind (BitVec.ofNat 48 (wbits m 0 48)) v then none else some (x.1, x.2.kind, v)

/-- The slots of a tenant's resident objects are read (R390, R391). -/
def auditReads (s : State) (t : Nat) : State :=
  (allocatedOf s t).foldl (fun s x =>
    let key := slotKey x.2.slice x.2.slot
    match (if x.2.state = .resident then slotAt s key else none) with
    | some y => readSlot s key y
    | none => s) s

/-- AUDIT (R43 to R45). What it writes to external memory stands as written once the command completes, its responses received (R489;
log entry 136). -/
def doAudit (s : State) (c : Cmd) : State :=
  let t := c.tenant
  if isOlder (epochOf s t) c.epoch then failPlain s .apart c none .epochStale
  else if !fwRuns s then failPlain s .apart c none .busyFw
  else if !on s (fSemaBackEn t) then failPlain s .apart c none .resource
  else
    let s := auditReads s t
    let found := (allocatedOf s t).filterMap (auditOne s t)
    let cap := 256 * get s (fSemaBackAudn t)
    let area := 4096 * get s (fSemaBackAddr t) + 16384 * get s (fSemaHtwLen t)
    let s := ((found.take cap).zipIdx).foldl (fun s y =>
      let s := setMem64 s (area + 16 * y.2) (w64 (handleOf (dieOf s) y.1.1 + 2 ^ 32 * kdCode y.1.2.1))
      setMem64 s (area + 16 * y.2 + 8) y.1.2.2) s
    answer s .apart c none (plain s (w64 found.length) .ok (2 * b2n (decide (cap < found.length))))

/-- Whether commands to an entry are held at the bank: TRANSIT, or held for its rebuilding (R37, R391). -/
def heldAtBank (s : State) (i : Nat) : Bool := decide ((htmAt s i).state = .transit) || s.sema.rebuild.contains i

/-- The slot of an entry that a bank finds RESIDENT, once the words that name it are read (R390). -/
def bankRead (s : State) (i : Nat) : State :=
  let s := (htmRead s i).1
  let e := htmAt s i
  if e.state = .resident then (tagRead s (slotKey e.slice e.slot) i).1 else s

/-- A fill on its way from a bank to the pier that missed (R35). -/
def sendFill (s : State) (bank : Nat) (c : Cmd) (n : Nat) (e : HEntry) : State :=
  crossed s (.router bank) (pierRouter s c.pier) fun s =>
    { s with gir := { s.gir with fills := s.gir.fills ++ [(c.pier, ⟨c.tenant, n, e.slice, e.slot, 0⟩)] } }

/-- An invalidation on its way from a bank to the pier whose translation was stale (R36). -/
def sendInv (s : State) (bank : Nat) (c : Cmd) (ret : Option Xlat) : State :=
  match ret with
  | some y => crossed s (.router bank) (pierRouter s c.pier) fun s =>
      { s with gir := { s.gir with invs := s.gir.invs ++ [(c.pier, y)] } }
  | none => s

/-- A command goes on from a bank to the slice that holds its object (R12, R391, R392). -/
def forward (s : State) (c : Cmd) (key i : Nat) : State :=
  match girderPass s (i % 64) (sliceOf key) with
  | (s, .whole) => toSlot s key c i
  | (s, .poisoned) => rejectCmd s (.router (sliceOf key)) c none .poison
  | (s, .lost) => s

/-- A command at the bank of the entry that it leads to (R35 to R37, R52, R92 steps 6 and 7). `imp` is what an import window has
substituted: such a command that its pier missed gets no fill (DESIGN CHOICE, log entry 103). -/
def bankAt (s : State) (c : Cmd) (i : Nat) (imp : Option Import) (miss : Bool) (ret : Option Xlat) : State :=
  let bank := i % 64
  let o : Origin := .router bank
  let s := bankRead s i
  let e := htmAt s i
  if heldAtBank s i then
    if transitUse s bank < 64 then sendInv (pushTransit s i (.cmd c miss imp)) bank c ret else turnAway s o c .bank 2 1000
  else
    match e.state with
    | .backed =>
      if s.sema.paging.length < 4096 then sendInv (pushPaging s i (.cmd c miss imp)) bank c ret else turnAway s o c .bank 2 1000
    | .resident =>
      let s := if miss && imp.isNone && decide (c.die = dieOf s) then sendFill s bank c (pObj c.words) e else s
      forward (sendInv s bank c ret) c (slotKey e.slice e.slot) i
    | _ => rejectCmd (sendInv s bank c ret) o c (some e.kind) .badop

/-- A command reaches the bank of its entry (R34 to R37, R92 steps 6 and 7). `miss` says that its pier missed it (R35), `ret` is the
translation by which a slice returned it (R36): once the bank has accepted the command, its pier gets the invalidation. -/
def bankCmd (s : State) (c : Cmd) (pref : Nat) (miss : Bool) (ret : Option Xlat) : State :=
  let o : Origin := .router (bankOf s c.tenant (pObj c.words))
  if !on s fSemaStatHtmReady then { s with sema := { s.sema with early := s.sema.early ++ [.cmd c miss none] } }
  else
    match pOp c.words with
    | none => failPlain s o c none .badop
    | some .alloc => doAlloc s c pref
    | some .audit => doAudit s c
    | some op =>
      match resolve s c op (pObj c.words) with
      | .error st => rejectCmd s o c none st
      | .ok (i, imp) => bankAt s c i imp miss ret

/-- A staging entry goes on from a bank to the slice that holds its object (R12, R391, R392). -/
def forwardStage (s : State) (tag : Nat) (e : REntry) (c : Cmd) (key i : Nat) : State :=
  match girderPass s (i % 64) (sliceOf key) with
  | (s, .whole) => stageAtSlot s key i tag e c
  | (s, .poisoned) => reportEntry s (.router (sliceOf key)) tag e.idx c none .poison
  | (s, .lost) => s

/-- A staging entry at the bank of the entry that it leads to (R172, R178), as for a command. -/
def stageAt (s : State) (tag : Nat) (e : REntry) (c : Cmd) (i : Nat) (imp : Option Import) (miss : Bool) (ret : Option Xlat) : State :=
  let bank := i % 64
  let o : Origin := .router bank
  let s := bankRead s i
  let h := htmAt s i
  if heldAtBank s i then
    if transitUse s bank < 64 then sendInv (pushTransit s i (.stage tag e c miss imp)) bank c ret
    else retryEntry s o tag e.idx 1000
  else
    match h.state with
    | .backed =>
      if s.sema.paging.length < 4096 then sendInv (pushPaging s i (.stage tag e c miss imp)) bank c ret
      else retryEntry s o tag e.idx 1000
    | .resident =>
      let s := if miss && imp.isNone then sendFill s bank c (entryObj c e) h else s
      forwardStage (sendInv s bank c ret) tag e c (slotKey h.slice h.slot) i
    | _ => reportEntry (sendInv s bank c ret) o tag e.idx c none .badop

/-- A staging entry reaches the bank (R172, R178); `miss` and `ret` as for a command. -/
def bankStage (s : State) (tag : Nat) (e : REntry) (c : Cmd) (miss : Bool) (ret : Option Xlat) : State :=
  if !on s fSemaStatHtmReady then { s with sema := { s.sema with early := s.sema.early ++ [.stage tag e c miss none] } }
  else
    match resolve s c .route (entryObj c e) with
    | .error st => reportEntry s (.router (bankOf s c.tenant (entryObj c e))) tag e.idx c none st
    | .ok (i, imp) => stageAt s tag e c i imp miss ret

/-! What a mirror record holds back (R309, R310). -/

/-- A staged entry of a mirrored object fails after all (R310): its part counts it no more as staged there, and the tag's mark goes
with the last of the part's entries on the object, in its slot or beside its image. -/
def unstage (s : State) (key tag idx : Nat) : State :=
  let place := if key < 2 ^ 20 then key else key - 2 ^ 20
  let s := updPart s tag fun p => { p with staged := p.staged.filter fun x => decide (x.1 ≠ idx) }
  if s.rt.parts.any fun p => decide (p.tag = tag) && p.staged.any fun x => decide (x.2.2 = place) then s
  else if key < 2 ^ 20 then
    match slotAt s key with
    | some x => setSlot s key { x with pend := x.pend.filter fun g => decide (g ≠ tag) }
    | none => s
  else
    let y := sideAt s place
    setSide s place { y with pend := y.pend.filter fun g => decide (g ≠ tag) }

/-- The staging report that a record held back goes to the coordinator (R309, R310). -/
def stageEnds (s : State) (key tag idx : Nat) (ok : Bool) : State :=
  match partOf s tag with
  | none => s
  | some p =>
    let k := (slotAt s key).map (·.kind)
    if ok then reportEntry s (keyOrigin key) tag idx p.cmd k .ok
    else reportEntry (unstage s key tag idx) (keyOrigin key) tag idx p.cmd k .poison

/-- What a record held back goes out: the reply of its command, or the report of its staged entry (R309, R310). -/
def deliverHeld (s : State) (m : MirrorOut) (ok : Bool) : State :=
  let s := match m.cmd, m.reply with
    | some c, some r => answer s (keyOrigin m.key) c ((slotAt s m.key).map (·.kind)) (if ok then r else plain s 0 .poison)
    | _, _ => s
  match m.stage with
  | some (tag, idx) => stageEnds s m.key tag idx ok
  | none => s

/-- A time frame at the slot of the object it names (R151). It waits for a credit (R125), behind a paused pass (R103), and for room
for a mirror record (R309); it is never refused. -/
def frameSlot (s : State) (key i : Nat) (h : Hdr) (obj : Nat) (phase : Bool) (t : Nat) : State :=
  match slotAt s key with
  | none => bump s fTrsCnt2Framedrop
  | some x =>
    if noCredit s (sliceOf key) || mirFull s key x.tenant then girderWait s i (.frame h obj phase t)
    else if x.paused then pushInq s key x (.frame h obj phase t)
    else
      let s := readSlot s key x
      match slotAt s key with
      | none => s
      | some y => writeSlotChk (frameAtSlot s key y h.src phase t) key

/-- CBOUND is written in the slot of a barrier (R217, R219, R308); the write waits as a time frame does. -/
def cboundAt (s : State) (key i ctx : Nat) (set : Bool) : State :=
  match slotAt s key with
  | none => s
  | some x =>
    if noCredit s (sliceOf key) || mirFull s key x.tenant then girderWait s i (.cbound ctx set)
    else if x.paused then pushInq s key x (.cbound ctx set)
    else
      let s := readSlot s key x
      match slotAt s key with
      | none => s
      | some y => writeSlotChk (afterRmw (setSlot s key { y with cbound := set }) key y none false) key

/-- A time frame reaches the bank of the named number (R37, R151, R153). A number outside the tenant's window has no entry: the
frame counts as one without a follower (DESIGN CHOICE, log entry 104). One that finds the paging queue full enters it beyond its 4,096
places, as a setting of CBOUND does: R52 refuses commands and staging entries only (DESIGN CHOICE, log entry 127). -/
def bankFrame (s : State) (h : Hdr) (obj : Nat) (phase : Bool) (t : Nat) : State :=
  if !on s fSemaStatHtmReady then { s with sema := { s.sema with early := s.sema.early ++ [.frame h obj phase t] } }
  else if isOlder (epochOf s h.tenant) h.epoch then staleDrop s h.tenant
  else
    match htmIdx s h.tenant obj with
    | none => bump s fTrsCnt2Framedrop
    | some i =>
      let s := bankRead s i
      let e := htmAt s i
      if heldAtBank s i then pushTransit s i (.frame h obj phase t)
      else
        match e.state with
        | .backed => pushPaging s i (.frame h obj phase t)
        | .resident => crossed s (.router (i % 64)) e.slice fun s => frameSlot s (slotKey e.slice e.slot) i h obj phase t
        | _ => bump s fTrsCnt2Framedrop

/-- The slice an ALLOC without PREF chooses (R40): the issuing pier's router, or for another die's command the router of
the port on the way to it. -/
def prefOf (s : State) (c : Cmd) : Nat :=
  if c.die = dieOf s then ((pierNet s c.pier).map (·.router)).getD 0
  else portRouter (recvPort s c.die)

/-- An item held at a bank goes on: TRANSIT has ended, or the translation memory is ready. -/
def bankItem (s : State) (x : HomeItem) : State :=
  match x with
  | .cmd c miss none => bankCmd s c (prefOf s c) miss none
  | .cmd c miss (some y) =>
    match resolveImport s y with
    | .error st => rejectCmd s (.router (bankOf s y.tenant y.obj)) c none st
    | .ok i => bankAt s c i (some y) miss none
  | .stage tag e c miss none => bankStage s tag e c miss none
  | .stage tag e c miss (some y) =>
    match resolveImport s y with
    | .error st => reportEntry s (.router (bankOf s y.tenant y.obj)) tag e.idx c none st
    | .ok i => stageAt s tag e c i (some y) miss none
  | .frame h obj ph t => bankFrame s h obj ph t
  | .cbound _ _ => s
  | .setval _ => s

/-- TRANSIT has ended for an entry: its held items go on in arrival order (R37). An item whose word is uncorrectable is lost
(R391). -/
def releaseTransit (s : State) (i : Nat) : State :=
  let mine := s.sema.transit.filter fun x => decide (x.1 = i)
  let rest := s.sema.transit.filter fun x => decide (x.1 ≠ i)
  mine.foldl (fun s x =>
    let (s, bad) := semaRead s 7 (i % 64) x.2.1 0 5
    if bad then s else bankItem s x.2.2) { s with sema := { s.sema with transit := rest } }

/-- A substituted item that waited is stale: the exporter's epoch has gone on (R36, R360). -/
def importStale (s : State) (imp : Option Import) : Bool := imp.any fun y => isOlder (epochOf s y.tenant) y.epoch

/-- An item goes on to the slot of its object. -/
def slotItem (s : State) (key i : Nat) (x : HomeItem) : State :=
  let home : Origin := .router (sliceOf key)
  match x with
  | .cmd c _ imp => if importStale s imp then rejectCmd s home c none .epochStale else toSlot s key c i
  | .stage tag e c _ imp => if importStale s imp then reportEntry s home tag e.idx c none .epochStale else stageAtSlot s key i tag e c
  | .frame h obj ph t => frameSlot s key i h obj ph t
  | .cbound ctx set => cboundAt s key i ctx set
  | .setval v => setvalAt s key i v

/-- Messages that waited in Girder for a credit towards their slice go on in arrival order, as far as places are free; where the
object has moved, by the bank (R36, R125). -/
def drainGirder (s : State) : State :=
  s.gir.stalled.foldl (fun s x =>
    let e := htmAt s x.1
    if e.state = .resident then slotItem s (slotKey e.slice e.slot) x.1 x.2
    else
      match x.2 with
      | .cbound ctx set => pushPaging s x.1 (.cbound ctx set)
      | .setval v => if e.state = .unallocated then marDone s mSetval .badop else pushPaging s x.1 (.setval v)
      | item => bankItem s item)
    { s with gir := { s.gir with stalled := [] } }

/-- What waited in the slice input queue behind a paused pass is applied in arrival order (R103); what meets a new pause waits on.
An item whose word is uncorrectable is lost (R391). -/
def drainInq (s : State) (key : Nat) : State :=
  match slotAt s key with
  | none => s
  | some x =>
    if x.paused || decide (x.inq = []) then s
    else
      let i := (htmIdx s x.tenant x.obj).getD 0
      drainGirder (x.inq.foldl (fun s y =>
        let (s, bad) := semaRead s 6 (sliceOf key) y.1 0 5
        if bad then loseItem s y.2 else slotItem s key i y.2) (setSlot s key { x with inq := [] }))

end Sys2Proof.Machine
end

