-- ==== Sys2Proof/Machine/Combine.lean ====
section
/-! DEFINITION. Combine contexts (R214 to R238): opening and closing entries, arrivals at a unit, pulling payloads, chunks,
partials and results, aborts. -/
namespace Sys2Proof.Machine

/-! The record of an entry (R215, R218). -/

abbrev rootDie (x : Ctx) : Nat := x.bhandle / 2 ^ 26
def nDies (d : Word) : Nat := popc 64 d.toNat
/-- SMAX (R217). -/
def smaxOf (lmax : Nat) (dies : Word) : Nat := lmax + nDies dies - 1
/-- Bytes of n elements of a format. -/
def fmtBytes (f n : Nat) : Nat := (n * fmtBits f + 7) / 8
/-- Payload bytes of a participant, the weight header included (R222). -/
def payLen (x : Ctx) : Nat := fmtBytes (dIfmt x.desc) x.n + (if dOp x.desc = oWsum then 8 else 0)
def up8 (n : Nat) : Nat := (n + 7) / 8 * 8
/-- Offset of the index words, of the histogram, and length of the result region (R205). -/
def idxAt (x : Ctx) : Nat := up8 (fmtBytes (dOfmt x.desc) x.n)
def histAt (x : Ctx) : Nat := if dOp x.desc = oArgmax then up8 (idxAt x + 4 * x.n) else idxAt x
def resLen (x : Ctx) : Nat :=
  if dHist x.desc then histAt x + 256 else if dOp x.desc = oArgmax then idxAt x + 4 * x.n else idxAt x

/-- The record as READ loads it (R215, R219). -/
def ctxd1 (x : Ctx) : Word := w64 (x.bhandle + 2 ^ 32 * x.tenant + 2 ^ 40 * (x.n - 1) + 2 ^ 53 * b2n x.closed1)
def ctxd3 (x : Ctx) : Word := w64 (x.eloc + 2 ^ 12 * x.lmax + 2 ^ 24 * x.pcap + 2 ^ 37 * x.buf)

/-- The entry that ABC_CTXD0 to ABC_CTXD3 describe (R215, R218). -/
def ctxFrom (s : State) : Ctx :=
  let desc := rd s rAbcCtxd0
  let n := get s fAbcCtxd1Nm1 + 1
  let lmax := get s fAbcCtxd3Lmax
  let dies := rd s rAbcCtxd2
  let buf := get s fAbcCtxd3Buf
  let size := min n (64 * (buf * 16 / smaxOf lmax dies))
  { root := decide (get s fAbcCtxd1Bhandle / 2 ^ 26 = dieOf s), desc := desc, bhandle := get s fAbcCtxd1Bhandle
    tenant := get s fAbcCtxd1Tenant, n := n, closed1 := on s fAbcCtxd1Cmode, dies := dies, eloc := get s fAbcCtxd3Eloc
    lmax := lmax, pcap := get s fAbcCtxd3Pcap, buf := buf, chunkSize := size, chunks := (n + size - 1) / size
    st := .open, phase := false, parts := [], chunk := 0, counts := [], closeAt := none, partials := [], whole := []
    carry := [], carryAt := 0, resPos := [], bins := [], arith := 0, offender := none, writing := false, reported := false, aborted := false }

/-- Buffer units in use in a unit, and by a tenant; open entries of a tenant (ABC_UBUF, ABC_TUSE). -/
def unitUse (s : State) (u : Nat) : Nat := sumBy (fun x : Nat × Ctx => if x.1 % 16 = u then x.2.buf else 0) s.abc.ctxs
def tenBuf (s : State) (t : Nat) : Nat := sumBy (fun x : Nat × Ctx => if x.2.tenant = t then x.2.buf else 0) s.abc.ctxs

/-- The fields of a record are in range (R215, R217). -/
def ctxInRange (s : State) (x : Ctx) : Bool :=
  decide (1 ≤ x.lmax) && decide (x.lmax ≤ 2048) && decide (1 ≤ x.pcap) && decide (x.pcap ≤ 4096)
    && decide (1 ≤ x.buf) && decide (x.buf ≤ 32)
    && nbit x.dies.toNat (dieOf s) && nbit x.dies.toNat (rootDie x)
    && (if x.closed1 then decide (x.eloc = 0) else decide (1 ≤ x.eloc) && decide (x.eloc ≤ x.lmax))

/-- The bound barrier of a root entry: its handle-table index, its PARAM and CBOUND, where it is resident its slot's key. -/
def boundBarrier (s : State) (x : Ctx) : Option (Nat × BitVec 48 × Bool × Option Nat) :=
  match htmIdx s x.tenant (x.bhandle % 2 ^ 26) with
  | none => none
  | some i =>
    let e := htmAt s i
    if e.kind ≠ .barrier then none
    else
      match e.state with
      | .unallocated => none
      | .resident => (slotAt s (slotKey e.slice e.slot)).map fun o => (i, o.param, o.cbound, some (slotKey e.slice e.slot))
      | _ =>
        let m := mem64 s (imgAddr s x.tenant (x.bhandle % 2 ^ 26) + 8)
        some (i, BitVec.ofNat 48 (wbits m 0 48), nbit m.toNat 54, none)

/-- The first failing check of R217. -/
def openCheck (s : State) (c : Nat) (x : Ctx) : Status :=
  if degradedOn s then .degraded
  else if (ctxAt s c).isSome || !descLegal x.desc x.n || !ctxInRange s x then .badop
  else if 4096 < fmtBytes (dIfmt x.desc) x.n ∨ (dOp x.desc = oHisto ∧ 1024 < x.n) then .badop
  else if x.buf * 16 < smaxOf x.lmax x.dies then .badop
  else if x.root && (match boundBarrier s x with
      | none => true
      | some (_, p, bound, _) => decide (1 < parMode p) || bound) then .badop
  else if get s (fSemaHtwLen x.tenant) = 0 then .prot
  else if 32 < unitUse s (c % 16) + x.buf ∨ get s (fTenShare0Buf x.tenant) < tenBuf s x.tenant + x.buf then .resource
  else .ok

/-- ABC_CMDST. -/
def setCmdst (s : State) (c : Nat) (st : Status) (busy : Bool) : State :=
  put (put (put s fAbcCmdstCtx c) fAbcCmdstStatus (stCode st)) fAbcCmdstBusy (b2n busy)

/-- An entry opens: the records of the last use are cleared (R238), a closed unit's gate opens (R413). -/
def openEntry (s : State) (c : Nat) (x : Ctx) : State :=
  let s := wr (wr (wr s (rAbcCsr c 1) 0) (rAbcCsr c 2) 0) (rAbcCsr c 3) 0
  chkWrite (setCtx (openGate s (73 + c % 16)) c x) bAbc 1 (c % 16) c

/-- The item is the writing of CBOUND. -/
def isCbound : HomeItem → Bool
  | .cbound _ _ => true
  | _ => false

/-- Partials that wait at a unit for its arbitration are dropped with the phase or the entry they belong to. -/
def dropWaitParts (s : State) (c : Nat) : State :=
  let rest := (mgetD s.abc.waitParts (c % 16) []).filter fun p => decide (p.2.1.ctx ≠ c)
  { s with abc := { s.abc with waitParts := mset s.abc.waitParts (c % 16) [] rest } }

/-- A writing of CBOUND waits in the paging queue, at a bank, in Girder or behind a paused pass. -/
def cboundWaits (s : State) : Bool :=
  (s.sema.paging.any fun x => isCbound x.item) || (s.sema.transit.any fun x => isCbound x.2.2)
    || (s.gir.stalled.any fun x => isCbound x.2) || s.sema.slots.any fun x => x.2.inq.any fun y => isCbound y.2

/-- The OPEN or CLOSE that waited for CBOUND is complete once it is written. -/
def openEnds (s : State) : State :=
  match s.abc.pendCmd with
  | none => s
  | some (c, x) =>
    if cboundWaits s then s
    else
      let s := { s with abc := { s.abc with pendCmd := none } }
      match x with
      | some x => setCmdst (openEntry s c x) c .ok false
      | none => setCmdst s c .ok false

/-- The OPEN or CLOSE waits for CBOUND to be written in its barrier (R217, R219). -/
def openWaits (s : State) (c : Nat) (x : Option Ctx) : State :=
  { setCmdst s c .ok true with abc := { s.abc with pendCmd := some (c, x) } }

/-- ABC_CMD OPEN (R217). -/
def doOpen (s : State) (c : Nat) : State :=
  let x := ctxFrom s
  let st := openCheck s c x
  if st ≠ .ok then setCmdst s c st false
  else
    match (if x.root then boundBarrier s x else none) with
    | some (i, _, _, none) =>
      if !fwRuns s then setCmdst s c .busyFw false
      else pushPaging (openWaits s c (some x)) i (.cbound c true)
    | some (i, _, _, some key) => openEnds (cboundAt (openWaits s c (some x)) key i c true)
    | none => setCmdst (openEntry s c x) c .ok false

/-- An entry becomes FREE: its buffer units return, and partials that waited for it are no more. -/
def entryGone (s : State) (c : Nat) : State :=
  let s := dropWaitParts s c
  { s with abc := { s.abc with ctxs := mdel s.abc.ctxs c } }

/-- ABC_CMD CLOSE (R219). -/
def doClose (s : State) (c : Nat) : State :=
  if degradedOn s then setCmdst s c .degraded false
  else
  match ctxAt s c with
  | none => setCmdst s c .badop false
  | some x =>
    if x.st ≠ .open ∨ x.parts.any (·.accepted) = true then setCmdst s c .badop false
    else
      let s := entryGone s c
      match (if x.root then boundBarrier s x else none) with
      | some (i, _, _, some key) => openEnds (cboundAt (openWaits s c none) key i c false)
      | some (i, _, _, none) => pushPaging (openWaits s c none) i (.cbound c false)
      | none => setCmdst s c .ok false

/-! Pulling payloads (R222, R228, R482). -/

def pSrc (ws : List Word) : Nat := wbits (pOperand ws) 0 32
def pDst (ws : List Word) : Nat := wbits (pOperand ws) 32 32

/-- A region lies inside the scratchpad of an agent of its pier (R483). -/
def inScratch (s : State) (a off len : Nat) : Bool :=
  match pierOf s a with
  | none => false
  | some p =>
    let size := ((p.agents.find? fun g => decide (g.1 = a)).map (·.2)).getD 0
    decide (size ≠ 0) && decide (off + len ≤ 2 ^ size)

/-- Elements of chunk j: first and one past the last. -/
def chunkLo (x : Ctx) (j : Nat) : Nat := min (j * x.chunkSize) x.n
def chunkHi (x : Ctx) (j : Nat) : Nat := min ((j + 1) * x.chunkSize) x.n

/-- Bit offset in the scratchpad of element i of a payload. -/
def elemBit (x : Ctx) (src i : Nat) : Nat := 8 * (src + if dOp x.desc = oWsum then 8 else 0) + fmtBits (dIfmt x.desc) * i

/-- The beats that hold chunk j of a payload, the weight's among them. -/
def beatsOf (x : Ctx) (src j : Nat) : List Nat :=
  let lo := elemBit x src (chunkLo x j) / 512
  let hi := (elemBit x src (chunkHi x j) + 511) / 512
  let l := (List.range (hi - lo)).map fun k => lo + k
  if dOp x.desc = oWsum ∧ ¬ (l.contains (src / 64) = true) then src / 64 :: l else l

/-- Beats presented to a pier. -/
def pushBeats (s : State) (a : Nat) (bs : List Beat) : State :=
  match pierOf s a with
  | none => s
  | some p => let x := pierSt s p.pier; setPier s p.pier { x with spq := x.spq ++ bs }

/-- The beats of chunk j of a participant not yet read or asked for are wanted by its unit; answers the participant. -/
def askBeats (s : State) (c : Nat) (x : Ctx) (p : Particip) (j : Nat) : State × Particip :=
  let new := (beatsOf x p.src j).filter fun b => !p.asked.contains b && (mget p.beats b).isNone
  let beats : List Beat := new.map fun b => ⟨p.cmd.agent, false, b, 0#64, 0#512, c, p.pidx⟩
  let u := c % 16
  ({ s with abc := { s.abc with want := mset s.abc.want u [] (mgetD s.abc.want u [] ++ beats) } }, { p with asked := p.asked ++ new })

/-! Arbitration between tenants (R236). -/

def Arb.zero : Arb := ⟨0, 0, []⟩

/-- The pier of an agent presents no scratchpad beat, so that a unit may have it present one. -/
def spqFree (s : State) (a : Nat) : Bool :=
  match pierOf s a with
  | some p => decide ((pierSt s p.pier).spq = [])
  | none => false

/-- A tenant's quantum in beats. A WEIGHT of 0 is treated as 1 (R345). -/
def quantum (s : State) (t : Nat) : Nat := if on s fAbcCtlArbEn then max 1 (mgetD s.abc.weights t 1) else 1

/-- The tenant a unit serves next, among those for which `work` holds, and what is left of its quantum after one beat: the tenant in
turn while its quantum lasts, else the next in order of number. One without work forfeits its quantum. -/
def nextTenant (s : State) (a : Arb) (work : Nat → Bool) : Option (Nat × Nat) :=
  if 0 < a.left ∧ work a.tenant = true then some (a.tenant, a.left - 1)
  else
    (((List.range 256).map fun k => (a.tenant + 1 + k) % 256).find? work).map fun t => (t, quantum s t - 1)

/-- The context served next for a tenant: the last one while beats of its chunk are wanted, else the next in order of number. -/
def nextCtx (last : Nat) (work : Nat → Bool) : Nat :=
  ((last :: (List.range 1024).map fun k => (last + 1 + k) % 1024).find? work).getD last

/-- Chunk j is asked for from every participant of an entry. -/
def askAll (s : State) (c : Nat) (x : Ctx) : State × Ctx :=
  let (s, ps) := x.parts.foldl (fun (a : State × List Particip) p =>
    let (s, q) := askBeats a.1 c x p x.chunk
    (s, a.2 ++ [q])) (s, [])
  (s, { x with parts := ps })

/-- Beats of a participant that are no longer wanted: those not accepted are dropped, answers to the others are ignored. -/
def voidBeats (s : State) (c : Nat) (p : Particip) : State :=
  let mine (b : Beat) : Bool := decide (b.agent = p.cmd.agent) && decide (b.ctx = c) && decide (b.pidx = p.pidx)
  let u := c % 16
  let s := { s with abc := { s.abc with want := mset s.abc.want u [] ((mgetD s.abc.want u []).filter fun b => !mine b) } }
  match pierOf s p.cmd.agent with
  | none => s
  | some n =>
    let y := pierSt s n.pier
    let gone (b : Beat) : Beat := if mine b then { b with ctx := 1024 } else b
    setPier s n.pier { y with
      spq := y.spq.filter (fun b => !mine b), spOut := y.spOut.map gone, answered := y.answered.map fun r => (gone r.1, r.2) }

/-- A participant leaves an entry (R221). -/
def dropPart (s : State) (c : Nat) (x : Ctx) (cmd : Cmd) : State × Ctx :=
  let gone := x.parts.filter fun p => decide (p.cmd = cmd)
  (gone.foldl (fun s p => voidBeats s c p) s, { x with parts := x.parts.filter fun p => decide (p.cmd ≠ cmd) })

/-- Replies that waited for result beats are looked at again (R232). -/
def recheckQueue (s : State) (a q : Nat) : State :=
  let x := queueOf s a q
  if x.items.any (fun i => match i.st with | .done _ .beats => true | _ => false) then
    let items := x.items.foldl (fun acc i =>
      acc ++ [match i.st, i.cmd with
        | .done r .beats, some c => { i with st := .done r (awaitOf s (acc ++ x.items) c r.status) }
        | _, _ => i]) []
    setQueue s a q { x with items := items }
  else s

def beatsFreed (s : State) (a : Nat) : State := presentOf ((List.range 4).foldl (fun s q => recheckQueue s a q) s) a

/-! Aborts (R233). -/

/-- The phase state of an entry is discarded: its beats are no longer wanted and replies no longer wait for them. -/
def discardPhase (s : State) (c : Nat) (x : Ctx) (aborted : Bool) : State :=
  let s := dropWaitParts (x.parts.foldl (fun s p => voidBeats s c p) s) c
  let s := setCtx s c { clearPhase x with aborted := aborted }
  x.parts.foldl (fun s p => beatsFreed s p.cmd.agent) s

def ctxHdr (s : State) (x : Ctx) (d : Nat) : Hdr := ⟨dieOf s, d, x.tenant, epochOf s x.tenant, 0⟩

/-- The other dies that take part. -/
def otherCtxDies (s : State) (x : Ctx) : List Nat := (bitsSet 64 x.dies.toNat).filter fun d => decide (d ≠ dieOf s)

/-- The abort record (ABC_CSR[c][3]). -/
def abortWord (a : Abort) : Word := w64 (a.code + 256 * a.die + 2 ^ 14 * a.pidx + 2 ^ 26)

/-- A phase is in progress at an entry. -/
def inPhase (x : Ctx) : Bool := decide (x.st ≠ .open) || decide (x.parts ≠ [])

/-- The unit of an entry, on its router. -/
def unitOrigin (c : Nat) : Origin := .router (abacusRouter (c % 16))

/-- The root's report to the barrier's slice, or to the bank that knows where the barrier is, goes on its way (R138, R231): its tenant's
epoch goes with it. -/
def postReport (s : State) (c : Nat) (x : Ctx) (aborted : Bool) : State :=
  let obj := x.bhandle % 2 ^ 26
  crossed s (unitOrigin c) (homeRouter s x.tenant obj) fun s =>
    { s with gir := { s.gir with reports := s.gir.reports ++ [(c, (x.tenant, epochOf s x.tenant), obj, aborted)] } }

/-- An abort or close frame goes to another die. -/
def sendFrame (s : State) (c : Nat) (x : Ctx) (d : Nat) (m : Msg) : State := sendFrom s (unitOrigin c) d (ctxHdr s x d) m

/-- The root aborts a phase and reports it to the barrier (R233). Once it writes the last chunk's results no loss does so any more (R234),
but an error of the buffer or of a write does (R391, R482), until the root has reported. -/
def abortRoot (s : State) (c : Nat) (x : Ctx) (a : Abort) : State :=
  if x.reported || (x.writing && decide (a.code ≠ 5)) then s
  else
    let s := bump (wr s (rAbcCsr c 3) (abortWord a)) fAbcCnt1Aborts
    let s := countEv s (cmbEv 0x13 x (dOfmt x.desc) (some .participantLost))
    let s := (otherCtxDies s x).foldl (fun s d => sendFrame s c x d (.cabort c x.phase a)) s
    postReport (discardPhase s c x true) c x true

/-- A cause of an abort arises on this die: the root aborts, a stage tells its root. -/
def abortHere (s : State) (c : Nat) (x : Ctx) (a : Abort) : State :=
  if x.root then abortRoot s c x a
  else sendFrame s c x (rootDie x) (.cabort c x.phase a)

/-- A partial or result frame goes to another die. Poisoned on Girder it aborts its phase (R391), and lost it is no more (R392). -/
def sendBeats (s : State) (c : Nat) (x : Ctx) (d : Nat) (m : Msg) : State :=
  match cross s (unitOrigin c) (portRouter (firstPort s d)), ctxAt s c with
  | (s, .whole), _ => sendTo s d (ctxHdr s x d) m
  | (s, .poisoned), some y => abortHere s c y ⟨5, dieOf s, 0⟩
  | (s, _), _ => s

/-- An abort frame (R233): from a stage at the root, from the root at a stage. -/
def cabortAt (s : State) (h : Hdr) (c : Nat) (phase : Bool) (a : Abort) : State :=
  if isOlder (epochOf s h.tenant) h.epoch then staleDrop s h.tenant
  else
    match ctxAt s c with
    | none => s
    | some x =>
      if x.aborted ∧ x.phase = phase then s
      else if x.root then (if x.phase = phase ∧ inPhase x = true then abortRoot s c x a else s)
      else discardPhase s c { x with phase := phase } true

/-- A die is LOST: root phases with a partial of it still to come abort, and stages of that root are cleared (R233, R234). -/
def lostInCtxs (s : State) (d : Nat) : State :=
  s.abc.ctxs.foldl (fun s y =>
    match ctxAt s y.1 with
    | none => s
    | some x =>
      if x.root then
        let takes := if x.closed1 then decide (0 < mgetD x.counts d 0) else nbit x.dies.toNat d && decide (x.st ≠ .open)
        if takes && decide (d ≠ dieOf s) && !x.whole.contains (64 * (x.chunks - 1) + d) then abortRoot s y.1 x ⟨2, d, 0⟩ else s
      else if rootDie x = d then discardPhase s y.1 x false else s) s

/-- QUIESCE aborts the phases not yet CLOSED at their root (R235). -/
def quiesceCtxs (s : State) (t : Nat) : State :=
  s.abc.ctxs.foldl (fun s y =>
    match ctxAt s y.1 with
    | none => s
    | some x => if x.tenant = t ∧ x.root = true ∧ x.st ≠ .closed ∧ inPhase x = true then abortRoot s y.1 x ⟨3, dieOf s, 0⟩ else s) s

/-- A forced reset discards every phase state of the tenant's entries (R235). Roots hold the abort record and are counted. -/
def forceCtxs (s : State) (t : Nat) : State :=
  s.abc.ctxs.foldl (fun s y =>
    match ctxAt s y.1 with
    | none => s
    | some x =>
      if x.tenant ≠ t then s
      else
        let s := if inPhase x && x.root then bump (wr s (rAbcCsr y.1 3) (abortWord ⟨4, dieOf s, 0⟩)) fAbcCnt1Aborts else s
        discardPhase s y.1 { x with phase := false } false) s

/-- The context record of an entry is read (R390, R391); answers whether the entry stands. With an uncorrectable record the phase aborts
and the entry becomes FREE. CBOUND of its barrier stays set: R27 ties it to the entry, and R391 names CBOUND nowhere (DESIGN CHOICE, log
entry 128). -/
def readRecord (s : State) (c : Nat) (x : Ctx) : State × Bool :=
  let (s, e) := chkRead s bAbc 1 (c % 16) c
  match e with
  | .good => (s, true)
  | .ce => (raise s bAbc 0 (dMem 1 c), true)
  | .ue => (entryGone (abortHere (raise s bAbc 2 (dCtx c x.phase)) c x ⟨5, dieOf s, 0⟩) c, false)

/-- An entry's buffer word and its context record are read (R390, R391); answers whether the phase goes on. -/
def readCtxChk (s : State) (c : Nat) (x : Ctx) : State × Bool :=
  let (s, e) := chkRead s bAbc 0 (c % 16) c
  match e with
  | .good => readRecord s c x
  | .ce => readRecord (raise s bAbc 0 (dMem 0 c)) c x
  | .ue => (abortHere (raise s bAbc 1 (dCtx c x.phase)) c x ⟨5, dieOf s, 0⟩, false)

/-- ABC_CMD READ (R219). -/
def doRead (s : State) (c : Nat) : State :=
  if degradedOn s then setCmdst s c .degraded false
  else
  match ctxAt s c with
  | none => setCmdst s c .badop false
  | some x =>
    let (s, stands) := readRecord s c x
    if stands then
      setCmdst (wr (wr (wr (wr s rAbcCtxd0 x.desc) rAbcCtxd1 (ctxd1 x)) rAbcCtxd2 x.dies) rAbcCtxd3 (ctxd3 x)) c .ok false
    else setCmdst s c .badop false

/-! Arrivals at the unit (R220, R221, R225). -/

/-- What the unit does with an arrival: a status it ends with, a hold, or a place. -/
inductive Admit where
  | fails (st : Status)
  | held
  | placed (s : State)

/-- The unit's checks (R220), and the place reserved for an arrival that passes them. -/
def unitAdmit (s : State) (c : Cmd) : Admit :=
  let k := pCtx c.words
  let pidx := pPidx c.words
  match ctxAt s k with
  | none => .fails .badop
  | some x =>
    if x.tenant ≠ c.tenant ∨ x.bhandle ≠ pHandle c.words then .fails .badop
    else if isOlder (epochOf s c.tenant) c.epoch then .fails .epochStale
    else if x.pcap ≤ pidx ∨ pSrc c.words % 64 ≠ 0 ∨ pDst c.words % 64 ≠ 0 then .fails .badop
    else if x.parts.any (fun p => decide (p.pidx = pidx)) then .fails .badop
    else if x.st = .closed then .held
    else if x.lmax ≤ x.parts.length then .fails .badop
    else
      let p : Particip := ⟨c, pidx, pSrc c.words, pDst c.words, false, [], [], 0, false⟩
      let (s, p) := if x.aborted then (s, p) else askBeats s k x p 0
      .placed (setCtx s k { x with parts := x.parts ++ [p] })

/-! Chunks, partials and results (R228 to R231). -/

/-- Accepted arrivals of this die in the phase. -/
def accepted (x : Ctx) : Nat := count (fun p : Particip => p.accepted) x.parts

/-- The participants of the local sequence, in ascending PIDX (R193). -/
def localSeq (x : Ctx) : List Particip :=
  (x.parts.filter (·.accepted)).foldl (fun l p =>
    l.takeWhile (fun q => decide (q.pidx < p.pidx)) ++ p :: l.dropWhile fun q => decide (q.pidx < p.pidx)) []

/-- w bits of a payload at a bit offset of the scratchpad. -/
def bitsAt (beats : SMap (BitVec 512)) (pos w : Nat) : Nat :=
  let b (k : Nat) : Nat := ((mget beats k).map (·.toNat)).getD 0
  (b (pos / 512) + 2 ^ 512 * b (pos / 512 + 1)) / 2 ^ (pos % 512) % 2 ^ w

/-- One participant's leaves of chunk j. -/
def leavesOf (d : Nat) (x : Ctx) (p : Particip) (j : Nat) : List Elem :=
  let w := fmtBits (dIfmt x.desc)
  let weight := bitsAt p.beats (8 * p.src) 32
  (List.range (chunkHi x j - chunkLo x j)).map fun i =>
    leafOf x.desc ⟨d, p.pidx⟩ (bitsAt p.beats (elemBit x p.src (chunkLo x j + i)) w) weight

/-- Every accepted payload of chunk j has been read. -/
def chunkRead (x : Ctx) (j : Nat) : Bool :=
  (x.parts.filter (·.accepted)).all fun p => (beatsOf x p.src j).all fun b => (mget p.beats b).isSome

/-- Result bytes go to the local participants in beats (R222, R482); beats for an agent whose port is not open are
discarded at its pier (R234). `off` is a whole number of beats. -/
def writeOut (s : State) (c : Nat) (x : Ctx) (off : Nat) (bytes : List Byte) (last : Bool) : State × Ctx :=
  let (s, ps) := x.parts.foldl (fun (a : State × List Particip) p =>
    if !p.accepted then (a.1, a.2 ++ [p])
    else
      let bs := ((pieces 64 bytes).zipIdx).map fun y : List Byte × Nat =>
        Beat.mk p.cmd.agent true ((p.dst + off) / 64 + y.2) (BitVec.ofNat 64 (2 ^ y.1.length - 1)) (BitVec.ofNat 512 (ofBytes y.1)) c p.pidx
      let q := { p with final := p.final || last }
      if (agentSt a.1 p.cmd.agent).port = .open then
        (pushBeats a.1 p.cmd.agent bs, a.2 ++ [{ q with left := q.left + bs.length }])
      else (a.1, a.2 ++ [q])) (s, [])
  (s, { x with parts := ps })

/-- Every result beat of the local participants is written. -/
def allWritten (x : Ctx) : Bool := (x.parts.filter (·.accepted)).all fun p => p.final && decide (p.left = 0)

/-- The end of a stage's phase: its results are written (R224), and the phase is counted at the entry (R229). -/
def endStage (s : State) (c : Nat) (x : Ctx) : State :=
  let s := setCtx (countEntry s c x) c { clearPhase x with phase := !x.phase }
  x.parts.foldl (fun s p => beatsFreed s p.cmd.agent) s

/-- What follows when result beats have been written: the root reports (R231), a stage's phase ends (R224), and replies
that waited are looked at (R232). -/
def afterWrites (s : State) (c : Nat) (a : Nat) : State :=
  match ctxAt s c with
  | none => s
  | some x =>
    if x.root then
      let s := if x.writing && allWritten x && !x.reported then
          postReport (setCtx s c { x with reported := true }) c x false
        else s
      beatsFreed s a
    else if x.st = .closed ∧ x.parts.any (·.accepted) = true ∧ allWritten x = true then endStage s c x
    else beatsFreed s a

/-- The port of an agent is disabled (R233, R234): its phases abort; once the root writes the last chunk's results, the agent's
results are discarded at its pier and the phase goes on. A stage does not know which, and its root decides. -/
def disableInCtxs (s : State) (a : Nat) : State :=
  s.abc.ctxs.foldl (fun s y =>
    match ctxAt s y.1 with
    | none => s
    | some x =>
      let mine := x.parts.filter fun p => decide (p.cmd.agent = a) && p.accepted
      match mine with
      | [] => s
      | p :: _ =>
        let s := if x.root && x.writing then s else abortHere s y.1 x ⟨1, dieOf s, p.pidx⟩
        match ctxAt s y.1 with
        | none => s
        | some z =>
          if z.parts = [] then s
          else
            let ps := z.parts.map fun q => if q.cmd.agent = a ∧ q.accepted = true then { q with left := 0 } else q
            afterWrites (setCtx (mine.foldl (fun s p => voidBeats s y.1 p) s) y.1 { z with parts := ps }) y.1 a) s

/-- Partials or results in segments of at most n items, each with its number and whether it is the last. -/
def segments {α : Type} (n : Nat) (l : List α) : List (Nat × Bool × List α) :=
  let ps := pieces n l
  (ps.zipIdx).map fun y => (y.2, decide (y.2 + 1 = ps.length), y.1)

/-- The dies whose partials the root reduces (R227). -/
def partialDies (s : State) (x : Ctx) : List Nat :=
  (bitsSet 64 x.dies.toNat).filter fun d =>
    if d = dieOf s then decide (0 < accepted x) else if x.closed1 then decide (0 < mgetD x.counts d 0) else true

/-- Histogram bins with one more in each of the given bins. -/
def addBins (bins : List Nat) (l : List Nat) : List Nat :=
  l.foldl (fun b i => b.modify i (· + 1)) (if bins = [] then List.replicate 64 0 else bins)

/-- The offender of two, by position and then element (R201). -/
def earlier (a b : Option (Pos × Nat × Nat)) : Option (Pos × Nat × Nat) :=
  match a, b with
  | some (p, e, c), some (q, f, d) => if posLt q p || (!posLt p q && decide (f < e)) then some (q, f, d) else some (p, e, c)
  | none, b => b
  | a, none => a

/-- The bytes that end a result region: padding, index words, histogram (R205). -/
def tailBytes (x : Ctx) (pos : List Nat) (bins : List Nat) : List Byte :=
  let pad (n : Nat) : List Byte := List.replicate (up8 n - n) 0
  let vals := fmtBytes (dOfmt x.desc) x.n
  let idx := if dOp x.desc = oArgmax then pos.flatMap (bytesOf 4) else []
  let hist := if dHist x.desc then pad (vals + (up8 vals - vals) + idx.length) ++ bins.flatMap (bytesOf 4) else []
  pad vals ++ idx ++ hist

/-- The root reduces the chunk in progress when its own sequence is closed and every partial is whole, rounds it and writes
its result (R228, R231). What the arithmetic status word of the phase counts is counted with its last chunk, so a phase that aborts
counts nothing (R212 does not say; DESIGN CHOICE, log entry 135). -/
def tryReduce (s : State) (c : Nat) : State :=
  match ctxAt s c with
  | none => s
  | some x =>
    let j := x.chunk
    let ds := partialDies s x
    let (s, ok) :=
      if !x.root || decide (x.st ≠ .closed) || decide (x.chunks ≤ j) || !ds.all (fun d => x.whole.contains (64 * j + d)) then (s, false)
      else readCtxChk s c x
    if !ok then s
    else
      let roots := treeVec (dOp x.desc) (ds.map fun d => mgetD x.partials (64 * j + d) [])
      let outs := roots.map (writeRoot x.desc)
      let w := fmtBits (dOfmt x.desc)
      let lo := chunkLo x j
      let last := decide (j + 1 = x.chunks)
      let vals := bytesOf ((outs.length * w + 7) / 8) (packBits w (outs.map (·.1)))
      let flags := outs.foldl (fun n o => n ||| o.2.2.1) x.arith.toNat
      let off := ((outs.zipIdx).filterMap fun y => y.1.2.2.2.2.map fun p => (p.1, lo + y.2, p.2)).foldl
        (fun a b => earlier a (some b)) x.offender
      let pos := x.resPos ++ outs.map (·.2.1)
      let bins := addBins x.bins (outs.map (·.2.2.2.1))
      let all := x.carry ++ vals ++ (if last then tailBytes x pos bins else [])
      let n := if last then all.length else all.length / 64 * 64
      let out := all.take n
      let y := { x with
        chunk := j + 1, carry := all.drop n, carryAt := x.carryAt + n, resPos := pos, bins := bins, arith := w64 flags
        offender := off, writing := last, partials := x.partials.filter (fun p => decide (64 * (j + 1) ≤ p.1))
        whole := x.whole.filter fun p => decide (64 * (j + 1) ≤ p) }
      let (s, y) := writeOut s c y x.carryAt out last
      let (s, y) := if last then (s, y) else askAll s c y
      let s := (ds.filter fun d => decide (d ≠ dieOf s)).foldl (fun s d =>
        (segments 4032 out).foldl (fun s g =>
          sendBeats s c x d (.cres ⟨c, x.phase, j, g.1, g.2.1⟩ (x.carryAt + 4032 * g.1) g.2.2)) s) (setCtx s c y)
      if last then
        afterWrites (((List.range 5).filter fun b => nbit flags b).foldl
          (fun s b => countEv s (cmbEv (0x16 + b) x (dOfmt x.desc) none)) s) c 0
      else s

/-- The chunk in progress is complete on this die (R228): a stage sends its partial, a root enters its own. -/
def chunkDone (s : State) (c : Nat) : State :=
  if !coreRuns s then s else
  match ctxAt s c with
  | none => s
  | some x =>
    let j := x.chunk
    if x.st ≠ .closed ∨ x.chunks ≤ j ∨ chunkRead x j = false then s
    else
      let (s, ok) := readCtxChk s c x
      if !ok then s
      else
        let mine := treeVec (dOp x.desc) ((localSeq x).map fun p => leavesOf (dieOf s) x p j)
        if x.root then
          let key := 64 * j + dieOf s
          let y := if accepted x = 0 ∨ x.whole.contains key = true then x
            else { x with partials := mput x.partials key mine, whole := x.whole ++ [key] }
          tryReduce (setCtx s c y) c
        else if accepted x = 0 then s
        else
          let y := { x with chunk := j + 1 }
          let (s, y) := if j + 1 < x.chunks then askAll s c y else (s, y)
          (segments 252 mine).foldl (fun s g => sendBeats s c x (rootDie x) (.cpart ⟨c, x.phase, j, g.1, g.2.1⟩ g.2.2)) (setCtx s c y)

/-- The local sequence closes on the rule of CMODE (R226): the root's close frames leave, a stage with a count of 0 returns
to OPEN (R227). -/
def tryClose (s : State) (c : Nat) : State :=
  match ctxAt s c with
  | none => s
  | some x =>
    let pending := s.gir.notices.any fun n => decide (n.1 = c)
    if x.st = .closed then s
    else if !x.closed1 then
      if accepted x = x.eloc then setCtx s c { x with st := .closed } else s
    else if x.root then
      if x.closeAt.isSome && !pending && decide (x.st = .active) then
        let s := (otherCtxDies s x).foldl (fun s d => sendFrame s c x d (.cclose c x.phase (mgetD x.counts d 0))) s
        setCtx s c { x with st := .closed }
      else s
    else
      match x.closeAt with
      | some 0 => setCtx s c { clearPhase x with parts := x.parts, phase := !x.phase }
      | some n => if accepted x = n then setCtx s c { x with st := .closed } else s
      | none => s

/-- Root entries whose barrier has closed their phase close once no notice is under way to them (R226). -/
def closeReady (s : State) : State :=
  s.abc.ctxs.foldl (fun s y => if y.2.root && y.2.closed1 && y.2.closeAt.isSome then tryClose s y.1 else s) s

/-- A notice of R221 reaches the unit; one of an older epoch is discarded (R356). -/
def noticeAt (s : State) (k : Nat) (c : Cmd) (v : Verdict) : State :=
  if isOlder (epochOf s c.tenant) c.epoch then staleDrop s c.tenant
  else
  match ctxAt s k with
  | none => s
  | some x =>
    let (s, stands) := readRecord s k x
    if !stands then s
    else
      match v with
      | .accepted ph =>
        if x.aborted && (x.phase == ph) then
          let (s, x) := dropPart s k x c
          setCtx s k x
        else
          let fresh := decide (x.st = .open)
          let counts := if x.root then mput x.counts c.die (mgetD x.counts c.die 0 + 1) else x.counts
          let y := { x with
            aborted := false, phase := if fresh then ph else x.phase, counts := counts
            st := if fresh then .active else x.st
            parts := x.parts.map fun p => if p.cmd = c then { p with accepted := true } else p }
          let (s, y) := if y.chunk < y.chunks then askAll s k y else (s, y)
          tryClose (setCtx s k y) k
      | _ =>
        let (s, x) := dropPart s k x c
        tryClose (setCtx s k x) k

/-- ARRIVAL_ACCEPTED: a notice from another die, or the oldest under way on this one. -/
def arrivalNotice (s : State) (k : Nat) (remote : Option (Cmd × Verdict)) : State :=
  if !coreRuns s then s else
  match remote with
  | some (c, v) => noticeAt s k c v
  | none =>
    match takeInOrder (fun n : Nat × Cmd × Verdict => (homeRouter s n.2.1.tenant (pObj n.2.1.words), n.1 % 16))
        (fun n => decide (n.1 = k)) s.gir.notices with
    | none => s
    | some ((_, c, v), rest) => noticeAt { s with gir := { s.gir with notices := rest } } k c v

/-- A combine arrival of this die ends at its pier without having been accepted: its place is released (R221). -/
def releasePlace (s : State) (c : Cmd) : State :=
  if pOp c.words ≠ some .arriveCombine then s
  else
    match ctxAt s (pCtx c.words) with
    | none => s
    | some x =>
      if x.parts.any (fun p => decide (p.cmd = c) && !p.accepted) then
        let (s, x) := dropPart s (pCtx c.words) x c
        setCtx s (pCtx c.words) x
      else s

/-- The root has no use for a partial segment: of another phase, of a chunk that it has reduced, or of a partial that is whole. -/
def partRefused (x : Ctx) (h : Hdr) (g : CSeg) : Bool :=
  !x.root || x.aborted || (x.phase != g.phase && decide (x.st ≠ .open)) || decide (g.chunk < x.chunk)
    || x.whole.contains (64 * g.chunk + h.src % 64)

/-- A partial segment reaches the root's unit (R228), where it waits for its turn (R236). -/
def cpartAt (s : State) (h : Hdr) (g : CSeg) (es : List Elem) : State :=
  if isOlder (epochOf s h.tenant) h.epoch then staleDrop s h.tenant
  else
    match ctxAt s g.ctx with
    | none => s
    | some x =>
      let (s, stands) := readRecord s g.ctx x
      if !stands || partRefused x h g then s
      else
        let u := g.ctx % 16
        { s with abc := { s.abc with waitParts := mset s.abc.waitParts u [] (mgetD s.abc.waitParts u [] ++ [(h, g, es)]) } }

/-- The unit takes elements of a partial, the last of it among them or not (R228). -/
def partTaken (s : State) (h : Hdr) (g : CSeg) (es : List Elem) : State :=
  match ctxAt s g.ctx with
  | none => s
  | some x =>
    if partRefused x h g then s
    else
      let key := 64 * g.chunk + h.src % 64
      let y := { x with
        partials := mput x.partials key (mgetD x.partials key [] ++ es)
        whole := if g.last then x.whole ++ [key] else x.whole }
      tryReduce (chkWrite (setCtx s g.ctx y) bAbc 0 (g.ctx % 16) g.ctx) g.ctx

/-- A result segment reaches a stage (R231). -/
def cresAt (s : State) (h : Hdr) (g : CSeg) (off : Nat) (bytes : List Byte) : State :=
  if isOlder (epochOf s h.tenant) h.epoch then staleDrop s h.tenant
  else
    match ctxAt s g.ctx with
    | none => s
    | some x =>
      if x.root || x.aborted || (x.phase != g.phase) || decide (x.st ≠ .closed) then s
      else
        let last := g.last && decide (g.chunk + 1 = x.chunks)
        let (s, y) := writeOut s g.ctx x off bytes last
        afterWrites (setCtx s g.ctx y) g.ctx 0

/-- A close frame reaches a stage (R226). -/
def ccloseAt (s : State) (h : Hdr) (c : Nat) (phase : Bool) (n : Nat) : State :=
  if isOlder (epochOf s h.tenant) h.epoch then staleDrop s h.tenant
  else
    match ctxAt s c with
    | none => s
    | some x =>
      if x.root || !x.closed1 || (x.aborted && (x.phase == phase)) then s
      else tryClose (setCtx s c { x with closeAt := some n, phase := phase, aborted := false }) c

/-- A beat crosses Girder between an agent's pier and its unit (R12, R391): a beat lost is no more, and one poisoned aborts its
phase. -/
def beatPass (s : State) (b : Beat) (toUnit : Bool) : State × Bool :=
  let p := ((pierOf s b.agent).map (·.router)).getD 0
  let u := abacusRouter (b.ctx % 16)
  match (if toUnit then girderPass s p u else girderPass s u p), ctxAt s b.ctx with
  | (s, .whole), _ => (s, true)
  | (s, .poisoned), some x => (abortHere s b.ctx x ⟨5, dieOf s, 0⟩, true)
  | (s, .poisoned), none => (s, true)
  | (s, .lost), _ => (s, false)

/-- A payload beat has been read for a participant (R222). -/
def beatRead (s : State) (b : Beat) (data : BitVec 512) : State :=
  let (s, arrives) := beatPass s b true
  if !arrives then s else
  match ctxAt s b.ctx with
  | none => s
  | some x =>
    let s := countEv s (cmbEv 0x14 x (dIfmt x.desc) none)
    let ps := x.parts.map fun p =>
      if p.pidx = b.pidx ∧ p.cmd.agent = b.agent ∧ p.asked.contains b.addr = true then
        { p with beats := mput p.beats b.addr data, asked := p.asked.filter fun k => decide (k ≠ b.addr) }
      else p
    chkWrite (setCtx s b.ctx { x with parts := ps }) bAbc 0 (b.ctx % 16) b.ctx

/-- A result beat of a participant is no longer outstanding (R231, R232). -/
def beatOver (s : State) (b : Beat) : State :=
  match ctxAt s b.ctx with
  | none => s
  | some x =>
    let ps := x.parts.map fun p => if p.pidx = b.pidx ∧ p.cmd.agent = b.agent then { p with left := p.left - 1 } else p
    afterWrites (setCtx s b.ctx { x with parts := ps }) b.ctx b.agent

/-- A result beat has been written. -/
def beatWritten (s : State) (b : Beat) : State :=
  let (s, arrives) := beatPass s b false
  if arrives then beatOver s b else s

/-! Serving the units (R236). -/

/-- A unit takes the next beat of a partial segment that waits for it beside others: four elements, or what is left of it. -/
def takePart (s : State) (u : Nat) (h : Hdr) (g : CSeg) (es : List Elem) (others : List (Hdr × CSeg × List Elem)) : State :=
  let parts := if es.length ≤ 4 then others else (h, g, es.drop 4) :: others
  partTaken { s with abc := { s.abc with waitParts := mset s.abc.waitParts u [] parts } } h
    { g with last := g.last && decide (es.length ≤ 4) } (es.take 4)

/-- A unit takes one input beat, as the arbitration gives it: it has a wanted payload beat presented to its pier, or takes four elements
of a partial; none when it can serve none. Of a context's two kinds payload comes first (DESIGN CHOICE, log entry 106). -/
def serveOne (s : State) (u : Nat) : Option State :=
  let want := mgetD s.abc.want u []
  let parts := mgetD s.abc.waitParts u []
  let a := mgetD s.abc.arb u Arb.zero
  let ctxs := (want.filter fun b => spqFree s b.agent).map (·.ctx) ++ parts.map (·.2.1.ctx)
  let ofTenant (t c : Nat) : Bool := decide ((ctxAt s c).map (·.tenant) = some t)
  if ctxs = [] then none
  else
    match nextTenant s a fun t => ctxs.any (ofTenant t) with
    | none => none
    | some (t, left) =>
      let c := nextCtx (mgetD a.ctxs t 0) fun c => ofTenant t c && ctxs.contains c
      let s := { s with abc := { s.abc with arb := mset s.abc.arb u Arb.zero ⟨t, left, mset a.ctxs t 0 c⟩ } }
      match takeFirst (fun b : Beat => decide (b.ctx = c) && spqFree s b.agent) want with
      | some (b, rest) => some (pushBeats { s with abc := { s.abc with want := mset s.abc.want u [] rest } } b.agent [b])
      | none => (takeFirst (fun p => decide (p.2.1.ctx = c)) parts).map fun (y : (Hdr × CSeg × List Elem) × List _) =>
        takePart s u y.1.1 y.1.2.1 y.1.2.2 y.2

/-- A unit serves what it can, at most n beats. -/
def serveUnit (u : Nat) : Nat → State → State
  | 0, s => s
  | n + 1, s =>
    match serveOne s u with
    | some s' => serveUnit u n s'
    | none => s

/-- Input beats that a unit may have to serve: what it wants, what waits for it, and what it may come to want as it serves them. -/
def unitBeats (s : State) (u : Nat) : Nat :=
  (mgetD s.abc.want u []).length + sumBy (fun p : Hdr × CSeg × List Elem => p.2.2.length / 4 + 1) (mgetD s.abc.waitParts u []) + 256

/-- Every unit serves what it can: a unit pulls a beat where the scratchpad interface of its pier is free (DESIGN CHOICE, log
entry 106). -/
def serveBeats (s : State) : State :=
  if coreRuns s then
    (s.abc.want.map (·.1) ++ s.abc.waitParts.map (·.1)).foldl (fun s u => serveUnit u (unitBeats s u) s) s
  else s

/-! The root's report at the barrier (R138). -/

/-- The root's report is at the slot of the barrier (R138). It waits while no operation may be applied there (R103, R125, R309). -/
def reportSlot (s : State) (key : Nat) (k flags : Nat) (aborted : Bool) : Option State :=
  match slotAt s key with
  | none => some s
  | some o =>
    if o.paused || noCredit s (sliceOf key) || mirFull s key o.tenant then none
    else if o.kind ≠ .barrier then some s
    else
      let s := readSlot s key o
      some (match slotAt s key with
        | none => s
        | some y => writeSlotChk (reportAtSlot s key y (if aborted then none else some (k, 4 * flags))) key)

/-- The root's report reaches the barrier (R138): in its slot, or an early abort in the image of a BACKED one. A report of an older
epoch is discarded (R356). -/
def combineReportAt (s : State) (c : Nat) : State :=
  if !coreRuns s then s else
  match takeInOrder (fun r : Nat × (Nat × Nat) × Nat × Bool => (r.1 % 16, homeRouter s r.2.1.1 r.2.2.1))
      (fun r => decide (r.1 = c)) s.gir.reports with
  | none => s
  | some ((_, (t, ep), obj, aborted), rest) =>
    let gone := { s with gir := { s.gir with reports := rest } }
    if isOlder (epochOf s t) ep then staleDrop gone t
    else
      let k := ((ctxAt s c).map (·.chunks)).getD 1
      let flags := ((ctxAt s c).map fun x => x.arith.toNat % 16).getD 0
      match htmIdx s t obj with
      | none => gone
      | some i =>
        let e := htmAt s i
        match e.state with
        | .resident => (reportSlot gone (slotKey e.slice e.slot) k flags aborted).getD s
        | .unallocated => gone
        | _ => if aborted then setSide gone i { sideAt gone i with aborted := true } else gone

/-- An arbitration window has begun (R236, R348): weights are taken as they stand. -/
def arbWindow (s : State) : State :=
  if s.now / 1000 ≤ s.abc.window || !coreRuns s then s
  else
    let ws := (List.range 256).foldl (fun m t => mset m t 1 (get s (fTenShare0Weight t))) []
    { s with abc := { s.abc with window := s.now / 1000, weights := ws } }

end Sys2Proof.Machine
end

