-- ==== Sys2Proof/Machine/RouteOps.lean ====
section
/-! DEFINITION. ROUTE parts and their coordination (R168 to R180). -/
namespace Sys2Proof.Machine

/-- The dies of a ROUTE's parts, in order of first appearance: members of the span group (R168). -/
def routeDies (s : State) (ws : List Word) : List Nat :=
  (routeEntries ws).foldl (fun l e => if isMember s e.die && !l.contains e.die then l ++ [e.die] else l) []

/-- The count slots' checks of a ROUTE with RDATA (R73, R168): true when they break a rule. -/
def routeSlotsBad (s : State) (ws : List Word) : Bool :=
  let ds := (routeSlots ws).map (·.1)
  fRDATA ws &&
    (ds.contains (dieOf s) || !decide ds.Nodup
      || (routeDies s ws).any fun d => decide (d ≠ dieOf s) && !ds.contains d)

/-- The next QSEQ of a queue towards a die (R288). -/
def qseqOf (s : State) (a q d : Nat) : Nat := mgetD (agentSt s a).qseq (64 * q + d) 0
def bumpQseq (s : State) (a q d : Nat) : State :=
  let g := agentSt s a
  setAgent s a { g with qseq := mset g.qseq (64 * q + d) 0 ((qseqOf s a q d + 1) % 65536) }

def updGather (s : State) (c : Cmd) (f : Gather → Gather) : State :=
  let gs := mapFirst (fun g : Gather => decide (g.cmd = c)) f s.rt.gathers
  { s with rt := { s.rt with gathers := gs } }

/-- The ROUTE's reply once every part's report is held (R177). -/
def gatherDone (s : State) (c : Cmd) : State :=
  match s.rt.gathers.find? fun g => decide (g.cmd = c) with
  | none => s
  | some g =>
    if g.waiting ≠ [] ∨ g.resend ≠ [] then s
    else
      let s := { s with rt := { s.rt with gathers := s.rt.gathers.filter fun h => decide (h.cmd ≠ c) } }
      let mask := g.failed.foldl (fun n x => n ||| 2 ^ x.1) 0
      let low := (List.range 32).findSome? fun i => (g.failed.find? fun x => decide (x.1 = i)).map (·.2)
      let remote := (routeEntries c.words).any fun e => decide (e.die ≠ dieOf s)
      let st := low.getD .ok
      let s := countEv (timeRead s c.pier) (Ev.ofCmd 0x02 c none (some st))
      settle s c ⟨w64 mask, st, BitVec.ofNat 8 (128 * b2n remote), g.dt.getD (pierTime s c.pier)⟩

/-- The message of a remote part (R170). -/
def rpartMsg (c : Cmd) (tag d : Nat) : RPart :=
  { cmd := c, tag := tag
    dw := if fRDATA c.words then ((routeSlots c.words).find? fun x => decide (x.1 = d)).map fun x => BitVec.ofNat 32 x.2 else none
    entries := (routeEntries c.words).filter fun e => decide (e.die = d) }

/-- One remote credit of a command on a port returns (R289). -/
def freeCredit (s : State) (c : Cmd) (p : Nat) : State :=
  mapItem s c.agent c.queue (fun i => decide (i.cmd = some c)) fun i => { i with credits := i.credits.erase p }

/-- Part reports merge into the gathering of a ROUTE (R177, R179). -/
def gatherReport (s : State) (c : Cmd) (d tag : Nat) (mask : Nat) (entries : List Nat) (st : Status) (dt : Option Nat) : State :=
  let failed := (entries.filter fun i => nbit mask i).map fun i => (i, st)
  gatherDone (updGather s c fun g =>
    { g with
      waiting := g.waiting.filter fun w => decide (w ≠ (d, tag)), resend := g.resend.filter fun w => decide (w.1 ≠ d)
      failed := g.failed ++ failed
      dt := match g.dt, dt with
        | some a, some b => some (max a b)
        | none, b => b
        | a, none => a }) c

/-- The indices of a packet's entries on a die. -/
def idxOn (ws : List Word) (d : Nat) : List Nat :=
  ((routeEntries ws).filter fun e => decide (e.die = d)).map (·.idx)

/-- A remote part leaves (R170, R288): REMOTE_TX is counted. One poisoned on Girder fails in every entry, with POISON (R391). -/
def sendRpart (s : State) (c : Cmd) (tag d : Nat) (fresh : Bool) (q : Nat) : State :=
  let s := countEv s (Ev.ofCmd 0x22 c none none)
  match cross s (.router (pierRouter s c.pier)) (portRouter (firstPort s d)) with
  | (s, .whole) =>
    let s := if fresh then bumpQseq s c.agent c.queue d else s
    sendTo s d { hdrOf s c d with qseq := q } (.rpart (rpartMsg c tag d))
  | (s, .poisoned) => freeCredit (gatherReport s c d tag (2 ^ 32 - 1) (idxOn c.words d) .poison none) c (firstPort s d)
  | (s, .lost) => s

/-- The parts of a ROUTE whose re-sending is due leave again whole, with their QSEQ (R169, R499). -/
def resendParts (s : State) (a q : Nat) : State :=
  (s.rt.gathers.filter fun g => decide (g.cmd.agent = a) && decide (g.cmd.queue = q)).foldl (fun s g =>
    let now := pierTime s g.cmd.pier
    let due := g.resend.filter fun r => decide (r.2 ≤ now)
    let s := updGather (timeRead s g.cmd.pier) g.cmd fun g => { g with resend := g.resend.filter fun r => decide (now < r.2) }
    due.foldl (fun s r =>
      let tag := ((g.waiting.find? fun w => decide (w.1 = r.1)).map (·.2)).getD 0
      let n := ((g.qseqs.find? fun w => decide (w.1 = r.1)).map (·.2)).getD 0
      sendRpart s g.cmd tag r.1 false n) s) s

/-- A part's report is made: to the issuing pier on this die, or as a PREPORT (R177). The status is that of the part's
lowest-numbered failed entry. -/
def partReport (s : State) (p : Part) (dt : Option Nat) : State :=
  let bad := p.entries.filterMap fun e => match e.2 with
    | some .ok => none
    | some st => some (e.1.idx, st)
    | none => none
  match p.origin with
  | none =>
    let s := updGather s p.cmd fun g => { g with failed := g.failed ++ bad }
    gatherReport s p.cmd (dieOf s) p.tag 0 [] .ok dt
  | some (_, d, tag) =>
    let mask := bad.foldl (fun n x => n ||| 2 ^ x.1) 0
    sendFrom s (.router (coordRouter s p)) d (hdrOf s p.cmd d) (.preport p.cmd ⟨tag, mask, ((bad.map (·.2)).head?).getD .ok, dt⟩)

/-- The distinct destinations of a part's commit, in the order of its entries. -/
def commitDests (p : Part) : List CommitTo :=
  p.staged.foldl (fun l x => if l.contains x.2.1 then l else l ++ [x.2.1]) []

/-- A commit leaves the coordinator for a slice, over Girder, or for firmware. -/
def sendCommit (r tag : Nat) (s : State) (d : CommitTo) : State :=
  let go (s : State) : State := { s with gir := { s.gir with commits := s.gir.commits ++ [(tag, d, r)] } }
  match d with
  | .slice i => crossed s (.router r) i go
  | .firmware => go s

/-- A part is done once none of its commits is under way. -/
def partDone (s : State) (tag : Nat) : State :=
  if s.gir.commits.any fun x => decide (x.1 = tag) then s
  else { s with rt := { s.rt with parts := s.rt.parts.filter fun x => decide (x.tag ≠ tag) } }

/-- The part commits once every entry is reported (R174, R177). A part with no success sends no commit. -/
def partCommit (s : State) (tag : Nat) : State :=
  match partOf s tag with
  | none => s
  | some p =>
    if p.entries.any (fun e => e.2.isNone) then s
    else
      let dests := commitDests p
      let s := dests.foldl (sendCommit (coordRouter s p) tag) (if p.origin.isNone then timeRead s p.cmd.pier else s)
      partReport (partDone s tag) p (if dests = [] then none else some (coordTime s p))

/-- A staging report reaches the coordinator (R172, R180). -/
def reportArrives (s : State) (tag idx : Nat) (st : Status) : State :=
  match partOf s tag with
  | none => s
  | some p =>
    if isOlder (epochOf s p.cmd.tenant) p.cmd.epoch then staleDrop s p.cmd.tenant
    else
      let s := updPart s tag fun p =>
        { p with
          entries := p.entries.map fun e => if e.1.idx = idx then (e.1, some st) else e
          retry := p.retry.filter fun r => decide (r.1 ≠ idx) }
      partCommit s tag

/-- A translation put first in a pier's cache (R35): at the place it has, a free one, or that of the least recently used. -/
def cachePut (l : List Xlat) (x : Xlat) : List Xlat :=
  let same (y : Xlat) : Bool := decide (y.tenant = x.tenant) && decide (y.obj = x.obj)
  let rest := l.filter fun y => !same y
  let place := match l.find? same with
    | some y => y.place
    | none =>
      if rest.length < 256 then freeWord 256 (rest.map (·.place)) else ((rest.getLast?).map (·.place)).getD 0
  ({ x with place := place } :: rest).take 256

/-- A pier looks a handle up in its translation cache (R35): a hit makes its entry the most recently used; an uncorrectable entry
is invalidated, and is a miss (R391). -/
def lookUp (s : State) (p t n : Nat) : State × Option Xlat :=
  let x := pierSt s p
  match x.cache.find? fun y => decide (y.tenant = t) && decide (y.obj = n) with
  | none => (s, none)
  | some y =>
    let (s, e) := chkRead s bPier 1 p y.place
    let s := if e = .good then s else raise s bPier 0 (dPmem p 1 y.place)
    if e = .ue then (setPier s p { x with cache := x.cache.filter fun z => decide (z ≠ y) }, none)
    else (setPier s p { x with cache := cachePut x.cache y }, some y)

/-- Whether the slot that a translation names still holds its object (R36), once the slot tag is read. -/
def slotHolds (s : State) (y : Xlat) (i : Nat) : Bool :=
  match slotAt s (slotKey y.slice y.slot) with
  | some o => decide (o.tenant = y.tenant) && decide (o.obj = y.obj) && !s.sema.rebuild.contains i
  | none => false

/-- A staging entry goes from a router to the bank of its object's entry (R172), as one that its pier missed, or with the translation by
which a slice returned it (R36). -/
def stageByBank (s : State) (router tag : Nat) (e : REntry) (c : Cmd) (miss : Bool) (ret : Option Xlat) : State :=
  let bank := bankOf s c.tenant (entryObj c e)
  match girderPass s router bank with
  | (s, .whole) => bankStage s tag e c miss ret
  | (s, .poisoned) => reportEntry s (.router bank) tag e.idx c none .poison
  | (s, .lost) => s

/-- The coordinator sends a staging entry to its object's home (R172): the issuing pier with its translation (R35, R36), a
receiving port by the bank. -/
def stageHome (s : State) (p : Part) (e : REntry) : State :=
  let c := p.cmd
  match p.origin with
  | some (n, _, _) => stageByBank s (portRouter n) p.tag e c false none
  | none =>
    match lookUp s c.pier c.tenant (entryObj c e) with
    | (s, none) => stageByBank s (pierRouter s c.pier) p.tag e c true none
    | (s, some y) =>
      let key := slotKey y.slice y.slot
      let i := (htmIdx s c.tenant y.obj).getD 0
      match girderPass s (pierRouter s c.pier) y.slice with
      | (s, .whole) =>
        let s := (tagRead s key i).1
        if slotHolds s y i then stageAtSlot s key i p.tag e c else stageByBank s y.slice p.tag e c false (some y)
      | (s, .poisoned) => reportEntry s (.router y.slice) p.tag e.idx c none .poison
      | (s, .lost) => s

/-- The due time of an earlier entry of the part on the same object that waits to be presented again: entries on one object are
applied in entry order (R172). -/
def entryBehind (p : Part) (e : REntry) : Option Nat :=
  (p.retry.find? fun r => p.entries.any fun x =>
    decide (x.1.idx = r.1) && decide (x.1.idx < e.idx) && decide (x.1.offset = e.offset)).map (·.2)

/-- The coordinator presents an entry for the first time. -/
def stageFirst (tag : Nat) (s : State) (e : REntry) : State :=
  match partOf s tag with
  | none => s
  | some p =>
    match entryBehind p e with
    | some due => deferEntry s tag e.idx due
    | none => stageHome s p e

/-- The coordinator begins a part: every entry is sent to its object's home (R168, R172). -/
def startPart (s : State) (tag : Nat) (c : Cmd) (origin : Option (Nat × Nat × Nat)) (es : List REntry) : State :=
  let p : Part := ⟨tag, c, origin, es.map fun e => (e, none), [], []⟩
  let s := { s with rt := { s.rt with parts := s.rt.parts ++ [p] } }
  es.foldl (stageFirst tag) (bump s fSemaRtcnt0Parts)

/-- A fresh route tag (log entry 8). -/
def newTag (s : State) : State × Nat := ({ s with rt := { s.rt with nextTag := s.rt.nextTag + 1 } }, s.rt.nextTag)

/-- The credits a ROUTE needs: ports and how many parts take them (R169). -/
def routeCredits (s : State) (ds : List Nat) : List Nat := (ds.filter fun d => decide (d ≠ dieOf s) && inReach s d).map (firstPort s)

/-- The home slices that the local entries of a ROUTE lead to, one for each entry. -/
def localHomes (s : State) (c : Cmd) : List Nat :=
  (routeEntries c.words).filterMap fun e =>
    if e.die ≠ dieOf s then none
    else
      match resolve s c .route (entryObj c e) with
      | .ok (i, _) => if (htmAt s i).state = .resident then some (htmAt s i).slice else none
      | .error _ => none

/-- The Girder credits that a ROUTE needs can be held: towards every home slice of its local part, one for each entry (R125, R169). -/
def localCredits (s : State) (c : Cmd) : Bool :=
  let homes := localHomes s c
  homes.all fun i => decide (inqUse s i + count (fun j => decide (j = i)) homes ≤ 32)

/-- Whether the ROUTE's remote credits can be held together (R125, R169, R346). -/
def routeCreditsFree (s : State) (t : Nat) (ps : List Nat) : Bool :=
  (List.range 8).all fun p => let n := count (fun x => decide (x = p)) ps; decide (n = 0) || creditFree s t p n

/-- The ROUTE splits and its parts leave (R168, R169). Entries of dies not in the group fail with PROT, those of LOST dies
with RESOURCE. The caller has taken the credits. -/
def routeDepart (s : State) (c : Cmd) : State :=
  let ws := c.words
  let es := routeEntries ws
  let ds := routeDies s ws
  let bad := es.filterMap fun e =>
    if !isMember s e.die then some (e.idx, Status.prot)
    else if decide (e.die ≠ dieOf s) && inLost s e.die then some (e.idx, Status.resource) else none
  let live := ds.filter fun d => decide (d = dieOf s) || !inLost s d
  let (s, tags) := live.foldl (fun (a : State × List (Nat × Nat)) d =>
    let (s, t) := newTag a.1
    (s, a.2 ++ [(d, t)])) (s, [])
  let qs := (tags.filter fun x => decide (x.1 ≠ dieOf s)).map fun x => (x.1, qseqOf s c.agent c.queue x.1)
  let s := bad.foldl (fun s x => countStage s c none x.2) s
  let s := { s with rt := { s.rt with gathers := s.rt.gathers ++ [⟨c, tags, [], bad, none, qs⟩] } }
  let s := tags.foldl (fun s x =>
    if x.1 = dieOf s then startPart s x.2 c none (es.filter fun e => decide (e.die = x.1))
    else sendRpart s c x.2 x.1 true (qseqOf s c.agent c.queue x.1)) s
  gatherDone s c

/-- A commit reaches a slice: the tag's marks go, release records are written, and a deferred pass runs for each object no
longer pending, in the order of the entries (R174, R256). -/
def commitAtSlice (s : State) (tag slice : Nat) (p : Part) : State :=
  let keys := p.entries.filterMap fun e =>
    (p.staged.find? fun x => decide (x.1 = e.1.idx) && decide (x.2.1 = .slice slice)).map (·.2.2)
  let keys := keys.foldl (fun l k => if l.contains k then l else l ++ [k]) []
  let unmark (s : State) (key : Nat) : State :=
    match slotAt s key with
    | none => s
    | some x =>
      let r := ((x.stagedRel.filter fun y => decide (y.1 = tag)).getLast?).map (·.2)
      let y := { x with
        pend := x.pend.filter fun g => decide (g ≠ tag)
        stagedRel := x.stagedRel.filter fun y => decide (y.1 ≠ tag)
        rel := match r with
          | some r => some r
          | none => x.rel }
      let s := setSlot s key y
      if r.isSome then writeRel s key else s
  let s := keys.foldl (fun s k => unmark (semaRead s 9 slice (slotOf k) 0 5).1 k) s
  keys.foldl runPass s

/-- A commit reaches firmware: the tag's marks go from the images (R174). -/
def commitAtImages (s : State) (tag : Nat) (p : Part) : State :=
  let idx := (p.staged.filter fun x => decide (x.2.1 = .firmware)).map fun x => x.2.2
  idx.foldl (fun s i =>
    let x := sideAt s i
    let r := ((x.stagedRel.filter fun y => decide (y.1 = tag)).getLast?).map (·.2)
    let rel := match r with
      | some r => some r
      | none => x.rel
    setSide s i
      { x with rel := rel, pend := x.pend.filter (fun g => decide (g ≠ tag)), stagedRel := x.stagedRel.filter fun y => decide (y.1 ≠ tag) }) s

/-- A commit under way arrives (R174, R180). The part is done when its last commit has arrived. -/
def commitArrives (s : State) (tag : Nat) (d : CommitTo) : State :=
  if !coreRuns s then s else
  match takeInOrder (fun x : Nat × CommitTo × Nat => (x.2.2, x.2.1)) (fun x => decide (x.1 = tag) && decide (x.2.1 = d)) s.gir.commits with
  | none => s
  | some (_, rest) =>
    let s := { s with gir := { s.gir with commits := rest } }
    match partOf s tag with
    | none => s
    | some p =>
      partDone (if isOlder (epochOf s p.cmd.tenant) p.cmd.epoch then staleDrop s p.cmd.tenant
        else match d with
          | .slice i => commitAtSlice s tag i p
          | .firmware => commitAtImages s tag p) tag

end Sys2Proof.Machine
end

