-- ==== Sys2Proof/Machine/Paging.lean ====
section
/-! DEFINITION. Firmware at the paging queue: commands applied to backing images (R48, R51, R70, R153), page-in and eviction
(R47, R49, R141), and rebuilding after TAG_UE (R391). -/
namespace Sys2Proof.Machine

/-- Firmware serves the paging queue. -/
def servesPaging (s : State) : Bool := coreRuns s && fwRuns s && on s fSemaCtlPageEn

/-- Firmware finishes a paging command in progress: while it serves, and at a live update until it has come to its safe point
(R426). -/
def finishesPaging (s : State) : Bool :=
  servesPaging s || (coreRuns s && on s fFwStatRun && on s fFwStatReady && decide (get s fFwUpdstState = 1))

/-- A command that needs its object in a slot (R49, R70, R141). -/
def needsSlot (k : Kind) (ws : List Word) : Bool :=
  match pOp ws with
  | some .waitGe => !tryOnce ws
  | some .waitTake => !tryOnce ws
  | some .take => !tryOnce ws
  | some .arrive => decide (k = .barrier)
  | some .arriveCombine => decide (k = .barrier)
  | some .member => decide (k = .barrier)
  | _ => false

/-- The image of an object as a slot record, and the record written back. -/
def imgSlot (s : State) (t n i : Nat) : Slot :=
  let v := mem64 s (imgAddr s t n)
  let m := mem64 s (imgAddr s t n + 8)
  let x := Slot.ofMeta (newSlot .count 0 v t (epochOf s t) n s.now false) m
  { x with rel := (sideAt s i).rel, pend := (sideAt s i).pend, aborted := (sideAt s i).aborted }

def imgPut (s : State) (i : Nat) (x : Slot) : State :=
  let s := imgWrite s x.tenant x.obj x.value x.metaOf
  setSide s i { sideAt s i with rel := x.rel, aborted := x.aborted }

/-- The image of a mirrored object finds no room for a mirror record (R309; log entry 121). -/
def imgFull (s : State) (i t : Nat) : Bool := mirFull s (imgKey i) t

/-- Firmware stores in an image what it has made of the object. Of a mirrored tenant's object that changed a record goes to the pair, and
holds back what is to follow (R308, R309; log entry 121). What an image write changes in external memory stands as written when the
step ends (R489; log entry 136). -/
def imgRmw (s : State) (i : Nat) (old new : Slot) (h : HeldBack) (follow : State → State) : State :=
  let s := imgPut s i new
  if mirrored s new.tenant && rmwChanged old new then sendMirror s (imgKey i) old new h else follow s

/-- An object that is BACKED is pending: under a route tag, or under a mirror record (R172, R308). -/
def imgPending (s : State) (i : Nat) (x : Slot) : Bool := decide (x.pend ≠ []) || mirrorOut s (imgKey i)

/-- BACKING_OP is counted (R435, SEMA_BSCNT). -/
def countBacking (s : State) (c : Cmd) (k : Kind) (st : Status) : State :=
  countEv (countRmw (bump s fSemaBscntBackops) c k) (Ev.ofCmd 0x0C c (some k) (some st))

/-- A command on a BACKED object, applied to the image (R48, R70): none when it must wait. A try-once wait on a pending image waits in
the paging queue for the commit, where it holds back what came after it: R173 names a slice's table only (DESIGN CHOICE, log entry
132). -/
def imgCmd (s : State) (i : Nat) (x : Slot) (c : Cmd) : Option State :=
  let ws := c.words
  let done (s : State) (st : Status) (r : Reply) : Option State := some (answer (countBacking s c x.kind st) .apart c (some x.kind) r)
  let store (s : State) (y : Slot) (st : Status) (r : Reply) : Option State :=
    some (imgRmw (countBacking s c x.kind st) i x y ⟨some c, some r, none⟩ fun s => answer s .apart c (some x.kind) r)
  let fail (st : Status) : Option State :=
    some (rejectCmd (countEv (bump s fSemaBscntBackops) (Ev.ofCmd 0x0C c (some x.kind) (some st))) .apart c (some x.kind) st)
  if staleAt s x.tenant c then fail .epochStale
  else if x.poison then fail .poison
  else
    let signal (op : Op) : Option State :=
      let n := if op = .give then w64 (wbits (pOperand ws) 0 48) else pOperand ws
      let e := signalEffect op x.kind x.param x.value x.ovr n
      if e.status = .badop then fail .badop
      else
        let y := { x with value := e.value, ovr := e.ovr }
        let y := if (e.status = .ok ∧ (e.value ≠ x.value ∨ n = 0)) ∨ e.status = .overrun then released y c else y
        let s := if e.status = .overrun then countEv s (Ev.ofPart 0x0D c) else s
        store s y e.status (plain s e.out e.status)
    let wait (op : Op) : Option State :=
      let n := if op = .take then w64 (wbits (pOperand ws) 0 48) else pOperand ws
      if !waitLegal op x.kind x.param n then fail .badop
      else if imgPending s i x && !zeroWait op x.kind n then none
      else
        match satisfies x.kind x.value ws n with
        | some v =>
          let s := scopeCheck s x.rel c
          store s { x with value := v } .ok (satReply s x ws n x.value v true)
        | none => done s .timeout (caused s .timeout cExpired (dieOf s) (x.value.toNat % 2 ^ 32))
    match pOp ws with
    | some .sigAdd => signal .sigAdd
    | some .sigSub => signal .sigSub
    | some .give => signal .give
    | some .poll => done (scopeCheck s x.rel c) .ok (plain s x.value .ok)
    | some .fence => store (scopeCheck s x.rel c) (released x c) .ok (plain s 0 .ok)
    | some .waitGe => wait .waitGe
    | some .waitTake => wait .waitTake
    | some .take => wait .take
    | some .free =>
      if freeable x then
        done (setSide (htmWrite (setHtm (unmirror s (imgKey i)) i HEntry.zero) i) i ImgSide.empty) .ok (plain s 0 .ok)
      else fail .badop
    | _ => fail .badop

/-- A ROUTE entry on a BACKED object (R172, R178). -/
def imgStage (s : State) (i : Nat) (x : Slot) (tag : Nat) (e : REntry) (c : Cmd) : State :=
  let f := entryEffect x.kind x.param x.value e.count
  if staleAt s x.tenant c then reportEntry s .apart tag e.idx c (some x.kind) .epochStale
  else if x.poison then reportEntry s .apart tag e.idx c (some x.kind) .poison
  else if f.status ≠ .ok then reportEntry s .apart tag e.idx c (some x.kind) f.status
  else
    let y := sideAt s i
    let rel := if fREL c.words then y.stagedRel ++ [(tag, ⟨c.agent, c.pier, c.die, pScope c.words⟩)] else y.stagedRel
    let s := setSide s i { y with pend := if y.pend.contains tag then y.pend else y.pend ++ [tag], stagedRel := rel }
    let s := updPart s tag fun p => { p with staged := p.staged ++ [(e.idx, .firmware, i)] }
    imgRmw (countBacking s c x.kind .ok) i x { x with value := f.value } ⟨none, none, some (tag, e.idx)⟩
      fun s => reportEntry s .apart tag e.idx c (some x.kind) .ok

/-- A time frame at a BACKED follower (R151, R153). -/
def imgFrame (s : State) (i : Nat) (x : Slot) (h : Hdr) (phase : Bool) (t : Nat) : State :=
  if x.kind ≠ .barrier ∨ parMode x.param ≠ 2 then bump s fTrsCnt2Framedrop
  else if barPhase x.value ≠ phase then raise s bTrs 1 h.src
  else imgRmw s i x { x with value := barWord phase (barArrived x.value) true false t } HeldBack.none id

/-- SETVAL on a BACKED object (R460): its release record goes with its old value. -/
def imgSetval (s : State) (i : Nat) (x : Slot) (v : Word) : State :=
  if x.poison then marDone s mSetval .poison
  else if setvalBad x.kind x.param v then marDone s mSetval .badop
  else imgRmw (marApplied (wr s rMarOld x.value) mSetval x.tenant) i x { x with value := v, rel := none } HeldBack.none id

/-- A SETVAL that waited goes on, as its object stands now. -/
def setvalOn (s : State) (i : Nat) (v : Word) : State :=
  let e := htmAt s i
  match e.state with
  | .resident => setvalAt s (slotKey e.slice e.slot) i v
  | .unallocated => marDone s mSetval .badop
  | _ => pushPaging s i (.setval v)

/-- Firmware writes CBOUND for an OPEN or CLOSE (R217, R219), in the image or, if the barrier has come back, its slot. -/
def cboundDone (s : State) (i : Nat) (ctx : Nat) (set : Bool) : State :=
  let e := htmAt s i
  match e.state with
  | .resident => openEnds (cboundAt s (slotKey e.slice e.slot) i ctx set)
  | .unallocated =>
    match s.abc.pendCmd with
    | some (c, some _) => setCmdst { s with abc := { s.abc with pendCmd := none } } c .badop false
    | _ => openEnds s
  | _ =>
    match ownerOf s i with
    | some (t, n) =>
      let x := imgSlot s t n i
      openEnds (imgRmw s i x { x with cbound := set } HeldBack.none id)
    | none => openEnds s

/-- An item of the paging queue needs its object in a slot. -/
def waitItem (k : Kind) : HomeItem → Bool
  | .cmd c _ _ => needsSlot k c.words
  | _ => false

/-- No earlier item of the paging queue on the same object holds this one back (R51). Behind a wait held for want of a slot a later wait
stays; what is no wait passes it, and with it the waits that stay behind it (R51 does not say of these; DESIGN CHOICE, log entry
126). -/
def pagingTurn (s : State) (k : Nat) (isWait : Bool) : Bool :=
  match s.sema.paging[k]? with
  | none => false
  | some x =>
    match (s.sema.paging.take k).filter fun y => decide (y.index = x.index) with
    | [] => true
    | y :: more => !isWait && y.tried && (y :: more).all fun z => waitItem (htmAt s x.index).kind z.item

/-- Firmware takes an item that needs no slot, applied to the image of a BACKED object; the item stays where it must wait: for the commit
of a pending object (R173), or, where a refusal cannot bring it back, for room for a mirror record (R309). One whose word is
uncorrectable is lost (R391). -/
def imgItem (s : State) (k : Nat) (x : PgItem) : State :=
  let i := x.index
  let e := htmAt s i
  let (s, bad) := semaRead s 8 0 x.word 0 5
  let gone := { s with sema := { s.sema with paging := dropAt s.sema.paging k } }
  if bad then loseItem gone x.item
  else if e.state ≠ .backed then
    match x.item with
    | .cbound ctx set => cboundDone gone i ctx set
    | .setval v => setvalOn gone i v
    | item => bankItem gone item
  else
    match ownerOf s i with
    | none => s
    | some (t, n) =>
      let y := imgSlot s t n i
      match x.item with
      | .cmd c _ imp =>
        if needsSlot e.kind c.words then s
        else if importStale s imp then rejectCmd gone .apart c (some e.kind) .epochStale
        else if imgFull s i t then turnAway gone .apart c .bank 3 256
        else (imgCmd gone i y c).getD s
      | .stage tag e c _ imp =>
        if importStale s imp then reportEntry gone .apart tag e.idx c none .epochStale
        else if imgFull s i t then retryEntry gone .apart tag e.idx 256
        else imgStage gone i y tag e c
      | .frame h _ ph tm => if imgFull s i t then s else imgFrame gone i y h ph tm
      | .cbound ctx set => if imgFull s i t then s else cboundDone gone i ctx set
      | .setval v => if imgFull s i t then s else imgSetval gone i y v

/-- Firmware serves an item of the paging queue: what a management command in progress waits for, a writing of CBOUND for an OPEN or CLOSE
or a SETVAL, also on the way to its safe point (R426). -/
def servesItem (s : State) : HomeItem → Bool
  | .cbound _ _ => finishesPaging s
  | .setval _ => finishesPaging s
  | _ => servesPaging s

/-- Firmware takes the item at a place of the paging queue that needs no slot (R48, R51). What stands there for an object in
TRANSIT waits for the end of its move. -/
def backingOp_ (s : State) (k : Nat) : State :=
  match s.sema.paging[k]? with
  | none => s
  | some x =>
    let e := htmAt s x.index
    if !servesItem s x.item || decide (e.state = .transit) || !pagingTurn s k (waitItem e.kind x.item) then s else imgItem s k x

/-! Page-in and eviction (R47, R49, R141). -/

/-- An object firmware may not evict. -/
def pinned (s : State) (key : Nat) (x : Slot) : Bool :=
  decide (x.waiters ≠ []) || x.role || x.cbound || x.paired || decide (x.pend ≠ []) || decide (x.tries ≠ [])
    || mirrorOut s key || x.paused || decide (x.inq ≠ [])
    || (decide (x.kind = .barrier) && (!atRest x.kind x.param x.value || decide (0 < memberCount x)))

/-- An object's eviction begins: it is read, and leaves its slot for its image, its entry in TRANSIT (R37, R47, R390). -/
def evict (s : State) (key : Nat) (x : Slot) (i : Nat) : State :=
  let s := readSlot s key x
  match slotAt s key with
  | none => s
  | some y => setHtm (htmWrite (imgPut (delSlot s key) i y) i) i ⟨.transit, sliceOf key, 0, y.kind⟩

/-- An eviction is complete. -/
def evicted (s : State) (i t : Nat) : State :=
  let e := htmAt s i
  let s := htmWrite (setHtm s i { e with state := .backed }) i
  let s := countEv (bump s fSemaPgcntPageout) { Ev.ten 0x0B t with k := some (kdCode e.kind) }
  releaseTransit s i

/-- The policy's choice among candidates (R47): EVICT 0 the oldest last signal, then the lowest object number; 1 the lowest
number; 2 the highest; 3 as 0. -/
def better (policy : Nat) (a b : Nat × Slot) : Bool :=
  match policy with
  | 1 => decide (a.2.obj < b.2.obj)
  | 2 => decide (b.2.obj < a.2.obj)
  | _ => decide (a.2.lastSig < b.2.lastSig) || (decide (a.2.lastSig = b.2.lastSig) && decide (a.2.obj < b.2.obj))

def chooseVictim (policy : Nat) (l : List (Nat × Slot)) : Option (Nat × Slot) :=
  l.foldl (fun best x => match best with
    | none => some x
    | some b => if better policy x b then some x else some b) none

/-- The Deck Time that a 40-bit release time names: the nearest to now. -/
def fullTime (now t : Nat) : Nat :=
  let base := now / 2 ^ 40 * 2 ^ 40 + t
  if base + 2 ^ 39 < now then base + 2 ^ 40 else if now + 2 ^ 39 < base ∧ 2 ^ 40 ≤ base then base - 2 ^ 40 else base

/-- An image is loaded into a slot (R49). -/
def loadSlot (s : State) (key i t n : Nat) (k : Kind) : State :=
  let x := imgSlot s t n i
  let paired := nbit (rd s rSemaPair).toNat (sliceOf key / 2)
  let members := if x.kind = .barrier ∧ parMode x.param = 1 then List.replicate (parMwin x.param + 1) (0#512, 0#512) else []
  let due := if x.kind = .barrier ∧ barArmed x.value = true then some (fullTime s.now (barTrel x.value)) else none
  let s := setSlot s key { x with paired := paired, members := members, due := due, pend := [], lastSig := s.now }
  let s := setSide (setHtm s i ⟨.resident, sliceOf key, slotOf key, k⟩) i ImgSide.empty
  let s := htmWrite (chkWrite (writeSlotChk s key) bSema 2 (sliceOf key) (slotOf key)) i
  countEv (bump s fSemaPgcntPagein) { Ev.ten 0x0A t with k := some (kdCode k) }

/-- The slice of an armed follower that has come in after its release time completes the phase in its first read-modify-write, with
no fault (R153); for want of room for its records it does so later (R309). -/
def lateRelease (s : State) (key : Nat) : State :=
  match slotAt s key with
  | some x => if !mirFull s key x.tenant && x.due.any fun d => decide (d ≤ s.now) then completePhase s key x else s
  | none => s

/-- What firmware has accepted for an object past a wait held for want of a slot, before it begins the page-in, is applied to the
image first (R51): the items from place `k` on that need no slot, in arrival order; the last argument bounds how many. -/
def applyAccepted (i : Nat) : Nat → Nat → State → State
  | 0, _, s => s
  | f + 1, k, s =>
    match s.sema.paging[k]? with
    | none => s
    | some x =>
      if x.index ≠ i ∨ waitItem (htmAt s i).kind x.item = true then applyAccepted i f (k + 1) s
      else
        let s' := imgItem s k x
        applyAccepted i f (if s'.sema.paging.length < s.sema.paging.length then k else k + 1) s'

/-- A page-in was attempted for the wait at a place of the paging queue, and found no unpinned slot (R50). -/
def noteTried (s : State) (k : Nat) : State :=
  { s with sema := { s.sema with paging := s.sema.paging.modify k fun x => { x with tried := true } } }

/-- A page-in for an object has begun: its waits are no longer held for want of a slot (R50). -/
def clearTried (s : State) (i : Nat) : State :=
  { s with sema := { s.sema with paging := s.sema.paging.map fun x => if x.index = i then { x with tried := false } else x } }

/-- The slot for a page-in (R49): a free one below the tenant's share. -/
def freeSlotFor (s : State) (i t n : Nat) : Option Nat :=
  let e := htmAt s i
  if shareFull s t then none else chooseSlot s e.kind (imgSlot s t n i).param e.slice

/-- The objects of the tenant that firmware may evict for a page-in (R47, R49). -/
def victimsFor (s : State) (i t n : Nat) : List (Nat × Slot) :=
  let e := htmAt s i
  s.sema.slots.filter fun y =>
    decide (y.2.tenant = t) && !pinned s y.1 y.2 && (chooseSlot (delSlot s y.1) e.kind (imgSlot s t n i).param e.slice).isSome

/-- A page-in for the wait at place k begins (R37, R49): slot and victim are chosen, both entries go to TRANSIT; or there is no unpinned
slot (R50). -/
def beginMove (s : State) (k i t n : Nat) : State :=
  let e := htmAt s i
  let param := (imgSlot s t n i).param
  let go (s : State) (key : Nat) (victim : Option Nat) : State :=
    let s := clearTried (htmWrite (setHtm s i { e with state := .transit }) i) i
    { s with sema := { s.sema with moves := s.sema.moves ++ [⟨i, t, n, key, windowsOf e.kind param, victim⟩] } }
  match freeSlotFor s i t n with
  | some key => go s key none
  | none =>
    let victim := (chooseVictim (get s fSemaCtlEvict) (victimsFor s i t n)).bind fun y =>
      (htmIdx s t y.2.obj).map fun v => (y.1, y.2, v)
    match victim with
    | some (vk, y, v) =>
      let s := evict s vk y v
      match chooseSlot s e.kind param e.slice with
      | some key => go s key (some v)
      | none => s
    | none => noteTried s k

/-- An earlier item of the paging queue waits for a slot of the same tenant and could have one now: commands blocked on resident
objects proceed in the queue's arrival order (R349). -/
def slotTaken (s : State) (k t : Nat) : Bool :=
  (s.sema.paging.take k).any fun y =>
    y.tried && waitItem (htmAt s y.index).kind y.item && decide ((htmAt s y.index).state = .backed) &&
      (match ownerOf s y.index with
        | some (u, n) => decide (u = t) && ((freeSlotFor s y.index t n).isSome || !(victimsFor s y.index t n).isEmpty)
        | none => false)

/-- Firmware rewrites the image of a BACKED object at rest, or releases it (R354). -/
def restImage (s : State) (t n i : Nat) (freeall : Bool) : State :=
  if freeall then setSide (setHtm s i HEntry.zero) i ImgSide.empty
  else
    let m := mem64 s (imgAddr s t n + 8)
    let k := (kindOf (wbits m 48 3)).getD .count
    let p : BitVec 48 := BitVec.ofNat 48 (wbits m 0 48)
    setSide (imgWrite s t n (restValue k p) (metaWord k p false false false (nbit m.toNat 54) 0)) i ImgSide.empty

/-- A page-in is complete (R37, R49): the victim is BACKED, the object RESIDENT, and the waits held for it, then what the bank
held, go on. Under a reset the object comes in at rest, and with FREEALL the entry becomes UNALLOCATED (R354). -/
def endMove (s : State) (m : Move) : State :=
  let s := { s with sema := { s.sema with moves := s.sema.moves.filter fun x => decide (x ≠ m) } }
  let s := match m.victim with
    | some v => evicted s v m.tenant
    | none => s
  let x := tenSt s m.tenant
  let s :=
    if x.st = .resetting ∧ x.freeall = true then setSide (setHtm s m.index HEntry.zero) m.index ImgSide.empty
    else
      let s := if x.st = .resetting then restImage s m.tenant m.obj m.index false else s
      lateRelease (loadSlot s m.key m.index m.tenant m.obj (htmAt s m.index).kind) m.key
  let mine := s.sema.paging.filter fun y => decide (y.index = m.index)
  let s := { s with sema := { s.sema with paging := s.sema.paging.filter fun y => decide (y.index ≠ m.index) } }
  let s := mine.foldl (fun s y => match y.item with
    | .cbound ctx set => cboundDone s m.index ctx set
    | .setval v => setvalOn s m.index v
    | item => bankItem s item) s
  releaseTransit s m.index

/-- Firmware pages in: the move in progress of that number ends, or, past the moves in progress, the page-in for the command
at that place of the paging queue begins (R49 to R51). -/
def pageIn_ (s : State) (j : Nat) : State :=
  if !finishesPaging s then s
  else
    match s.sema.moves[j]? with
    | some m => endMove s m
    | none =>
      if !servesPaging s then s else
      let k := j - s.sema.moves.length
      match s.sema.paging[k]? with
      | none => s
      | some x =>
        let i := x.index
        let e := htmAt s i
        match x.item, ownerOf s i with
        | .cmd c _ imp, some (t, n) =>
          if !needsSlot e.kind c.words || !pagingTurn s k true || decide (e.state = .transit) then s
          else
            let gone (s : State) : State := { s with sema := { s.sema with paging := dropAt s.sema.paging k } }
            if e.state ≠ .backed then bankItem (gone s) x.item
            else if staleAt s t c || importStale s imp then rejectCmd (gone s) .apart c (some e.kind) .epochStale
            else
              let s := if x.tried then applyAccepted i s.sema.paging.length 0 s else s
              if (htmAt s i).state ≠ .backed ∨ imgPending s i (imgSlot s t n i) = true ∨ slotTaken s k t = true then s
              else beginMove s k i t n
        | _, _ => s

/-- What firmware finds of a handle-table entry from slot tags and images: the slot that holds its object, its image, a move in
progress; else the entry becomes UNALLOCATED (R391). -/
def rebuildEntry (s : State) (i : Nat) : State :=
  let e := htmAt s i
  match ownerOf s i with
  | none => htmWrite (setHtm s i HEntry.zero) i
  | some (t, n) =>
    match s.sema.slots.find? fun y => decide (y.2.tenant = t) && decide (y.2.obj = n) with
    | some (key, x) =>
      htmWrite (chkWrite (setHtm s i ⟨.resident, sliceOf key, slotOf key, x.kind⟩) bSema 2 (sliceOf key) (slotOf key)) i
    | none => if e.state = .backed ∨ e.state = .transit then htmWrite s i else htmWrite (setHtm s i HEntry.zero) i

/-- Firmware has rebuilt a word lost to TAG_UE: a slot tag, or a handle-table word with its two entries; the items held for it go on
(R391). -/
def rebuilt (s : State) (w : TagWord) : State :=
  if !coreRuns s || !fwRuns s then s
  else
    let is : List Nat := match w with
      | .tableEntry i => [i, htmTwin i]
      | .slotTag sl st => s.sema.rebuild.filter fun i =>
          let e := htmAt s i
          decide (e.state = .resident) && decide (e.slice = sl) && decide (e.slot = st)
    (is.filter fun i => s.sema.rebuild.contains i).foldl (fun s i =>
      releaseTransit (rebuildEntry { s with sema := { s.sema with rebuild := s.sema.rebuild.filter fun j => decide (j ≠ i) } } i) i) s

/-- A paging access met an error response: PAGE_IO, and the object is poisoned in its image (R398, R489). -/
def pageIo (s : State) (t n : Nat) : State :=
  let s := raise s bSema 6 (dTen t 0)
  match htmIdx s t n with
  | none => s
  | some i => match (htmAt s i).state with
    | .backed => imgPut s i { imgSlot s t n i with poison := true }
    | .transit => imgPut s i { imgSlot s t n i with poison := true }
    | _ => s

end Sys2Proof.Machine
end

