-- ==== Sys2Proof/Machine/Lanes.lean ====
section
/-! DEFINITION. Trestle lanes (R155 to R165, R500). -/
namespace Sys2Proof.Machine

/-- The agents whose enable bit is set for a lane (TRS_LEN). -/
def enabledOn (s : State) (l : Nat) : List Nat :=
  (List.range 32).flatMap fun w =>
    let v := rd s (rTrsLen l w)
    if v = 0 then [] else (bitsSet 64 v.toNat).map fun i => 64 * w + i

/-- The agent is bound to a tenant (AGT_BIND). -/
def boundTo (s : State) (a t : Nat) : Bool := on s (fAgtBindBound a) && decide (get s (fAgtBindTenant a) = t)

/-- The agents counted on a lane (R155). -/
def counted (s : State) (l : Nat) : List Nat :=
  if on s (fTrsLcfgEn l) then (enabledOn s l).filter fun a => boundTo s a (get s (fTrsLcfgTenant l)) else []

/-- An agent's arrival is raised, or treated so while its port is disabled (R161). -/
def raisedOn (s : State) (x : Lane) (a : Nat) : Bool :=
  x.raised.contains a || decide ((agentSt s a).port ≠ .open)

/-- The lane's local AND is complete: every counted agent raised, and an ARRIVE of the open phase raised or pending; or
FORCELANE marked it (R155, R462). -/
def localAnd (s : State) (l : Nat) : Bool :=
  let x := laneSt s l
  x.forced || (((counted s l).all fun a => raisedOn s x a) && (decide (x.raised ≠ []) || decide (x.waiting ≠ [])))

/-- The lane spans dies (R163). -/
def spanning (s : State) (l : Nat) : Bool := on s (fTrsLcfgXen l)
def isRoot (s : State) (l : Nat) : Bool := decide (get s (fTrsLcfgXroot l) = dieOf s)

/-- The other dies a lane names. -/
def otherDies (s : State) (l : Nat) : List Nat :=
  (bitsSet 64 (rd s (rTrsLxdie l)).toNat).filter fun d => decide (d ≠ dieOf s)

/-- The header of a lane's frames (R302). -/
def laneHdr (s : State) (l d : Nat) : Hdr :=
  let t := get s (fTrsLcfgTenant l)
  ⟨dieOf s, d, t, epochOf s t, 0⟩

/-- The TRS_LEN writes that waited for the next phase take effect (R164). -/
def applyLen (s : State) (l : Nat) (x : Lane) : State := x.lenNext.foldl (fun s w => wr s (rTrsLen l w.1) w.2) s

/-- A lane completes: raised arrivals clear, PHASE inverts, pending arrivals are released, waiting TRS_LEN writes take
effect (R155, R164). -/
def completeLane (s : State) (l : Nat) : State :=
  let x := laneSt s l
  let s := countEv (bump s fTrsCnt0Lanecomp) (Ev.ten 0x11 (get s (fTrsLcfgTenant l)))
  let s := applyLen s l x
  let s := setLane s l { x with phase := !x.phase, raised := [], waiting := [], armed := none, due := none, sent := false, frames := [], forced := false, lenNext := [] }
  x.waiting.foldl (fun s c => answer s .apart c none (plain s (w64 (b2n x.phase)) .ok)) s

/-- The root tells every other named die of its decision (R163). -/
def sendLcomp (s : State) (l : Nat) (t : Option Nat) : State :=
  (otherDies s l).foldl (fun s d => sendTo s d (laneHdr s l d) (.lcomp l (laneSt s l).phase t)) s

/-- GRID of a lane; values below 6 are treated as 6. -/
def laneGrid (s : State) (l : Nat) : Nat := max 6 (get s (fTrsLcfgGrid l))

/-- The decision of cycle 12: the lane arms when TIMED, completes otherwise (R156, R162). -/
def decideNow (s : State) (l : Nat) : State :=
  let xen := spanning s l
  if on s (fTrsLcfgTimed l) then
    let t := trelOf s.now (get s (fTrsLcfgLead l)) (laneGrid s l)
    let s := if xen then sendLcomp s l (some t) else s
    setLane s l { laneSt s l with armed := some t, due := some t }
  else completeLane (if xen then sendLcomp s l none else s) l

/-- A lane's wire frame goes to its root, once in a phase (R163). -/
def sendWire (s : State) (l : Nat) : State :=
  let x := laneSt s l
  if x.sent then s
  else
    let r := get s (fTrsLcfgXroot l)
    setLane (sendTo s r (laneHdr s l r) (.wire l x.phase)) l { x with sent := true }

/-- Trestle's clock runs (R409). -/
def trestleOn (s : State) : Bool := gateOn s 97

/-- Trestle evaluates a lane (R155, R163). During a freeze, and while its gate is closed, it decides nothing (R409, R448). -/
def decideLane (s : State) (l : Nat) : State :=
  let x := laneSt s l
  if frozen s || !trestleOn s || !on s (fTrsLcfgEn l) || x.armed.isSome || x.broken || !localAnd s l then s
  else if !spanning s l then decideNow s l
  else if isRoot s l then
    if (otherDies s l).all x.frames.contains then decideNow s l else s
  else sendWire s l

/-- Every lane is evaluated, as after a change of an agent's port. -/
def decideLanes (s : State) : State := (List.range 64).foldl decideLane s

/-- A pending lane arrival ends without the lane completing (R107, R119, R165, R350, R359). -/
def endLaneWait (s : State) (l : Nat) (c : Cmd) (st : Status) (code die : Nat) : State :=
  let x := laneSt s l
  let s := setLane s l { x with waiting := x.waiting.filter fun y => decide (y ≠ c) }
  answer s .apart c none (caused s st code die 0)

/-- FORCELANE on a lane in use (R462). -/
def forceLane_ (s : State) (l : Nat) : State :=
  if !spanning s l then completeLane s l
  else if isRoot s l then completeLane (sendLcomp s l none) l
  else sendWire (setLane s l { laneSt s l with forced := true }) l

/-- The lane of an ARRIVE with LANE (R67). -/
def pLane (ws : List Word) : Nat := pAux ws % 64

/-- A try-once lane arrival that the decision left pending ends with TIMEOUT (R500). -/
def tryOnceLane (s : State) (l : Nat) (c : Cmd) : State :=
  if tryOnce c.words && (laneSt s l).waiting.contains c then endLaneWait s l c .timeout cExpired (dieOf s) else s

/-- A lane ARRIVE raises the agent's arrival (R155, R157, R158, R162, R165). The caller has found the agent counted; an arrival
refused while the lane was armed is not checked for it again when it is presented again (DESIGN CHOICE, log entry 107). -/
def laneArrive (s : State) (c : Cmd) : State :=
  let l := pLane c.words
  let x := laneSt s l
  let again := x.raised.contains c.agent
  if x.broken then failWith s .apart c none .resource cLinkDown 0
  else if x.armed.isSome && !again then refuseCmd (bump s fTrsCnt2Repres) .apart c .barrier 5 256
  else
    let y := { x with raised := insNat x.raised c.agent, waiting := if fSPLIT c.words then x.waiting else x.waiting ++ [c] }
    let s := setLane s l y
    let s := if fSPLIT c.words then answer s .apart c none (plain s (w64 (b2n x.phase)) .ok) else s
    tryOnceLane (decideLane s l) l c

/-- A wire frame at the root (R163, R302). It acts as usual on a lane whose EN or XEN is clear or whose BROKEN is set, and is
dropped while Trestle's gate is closed (R409; DESIGN CHOICE, log entry 108). -/
def wireAt (s : State) (h : Hdr) (l : Nat) (phase : Bool) : State :=
  let x := laneSt s l
  if !trestleOn s then s
  else if isOlder (epochOf s h.tenant) h.epoch then staleDrop s h.tenant
  else if x.phase ≠ phase then raise s bTrs 1 h.src
  else decideLane (setLane s l { x with frames := insNat x.frames h.src }) l

/-- A lane completion frame (R163, R302), of which the same holds (DESIGN CHOICE, log entry 108). -/
def lcompAt (s : State) (h : Hdr) (l : Nat) (phase : Bool) (t : Option Nat) : State :=
  let x := laneSt s l
  if !trestleOn s then s
  else if isOlder (epochOf s h.tenant) h.epoch then staleDrop s h.tenant
  else if x.phase ≠ phase then raise s bTrs 1 h.src
  else
    match t with
    | none => completeLane s l
    | some t => setLane s l { x with armed := some t, due := some t }

/-- A release of a lane is due before t, or at t on a lane below n. -/
def laneDueBefore (s : State) (t n : Nat) : Bool :=
  s.lanes.any fun y => y.2.armed.isSome &&
    y.2.due.any fun d => decide (d ≤ s.now) && (decide (d < t) || (decide (d = t) && decide (y.1 < n)))

/-- A pending lane arrival expires before t. -/
def laneExpiryBefore (s : State) (t : Nat) : Bool :=
  s.lanes.any fun y => y.2.waiting.any fun c => (expiryOf c 16).any fun e => decide (e < t)

/-- An armed lane's release time has come (R117, R162); what is due at Trestle before it comes first (R335). -/
def laneRelease_ (s : State) (l : Nat) : State :=
  if !coreRuns s || !trestleOn s then s else
  let x := laneSt s l
  match x.armed, x.due with
  | some t, some d =>
    if s.now < d || laneDueBefore s d l || laneExpiryBefore s d then s
    else
      match (if d = t then deferral s t else none) with
      | some d' => setLane (bump s fWaitCnt3Deferred) l { x with due := some d' }
      | none => completeLane s l
  | _, _ => s

/-- A spanning lane breaks for want of a die (R165). Three things R164 and R165 leave open: TRS_LEN writes that wait for the next phase
take effect (DESIGN CHOICE, log entry 129), a lane that is armed stays so and completes at its time (DESIGN CHOICE, log entry 130), and
wire frames held, and the mark that this die sent its own, go (DESIGN CHOICE, log entry 131). -/
def breakLane (s : State) (l lost : Nat) : State :=
  let x := laneSt s l
  if x.broken then s
  else
    let s := applyLen s l x
    let s := setLane s l { x with broken := true, raised := [], waiting := [], sent := false, frames := [], lenNext := [] }
    let s := raise s bTrs 2 (dLane l lost)
    x.waiting.foldl (fun s c => answer s .apart c none (caused s .resource cLinkDown (dieOf s) 0)) s

/-- A tenant reset of the lane's tenant: raised arrivals clear, PHASE 0, disarmed (R161). -/
def resetLane (s : State) (l : Nat) : State :=
  let x := laneSt s l
  setLane (applyLen s l x) l
    { x with phase := false, raised := [], armed := none, due := none, sent := false, frames := [], forced := false, lenNext := [] }

/-- Lanes whose agents' pending arrivals belong to a command. -/
def laneOf (s : State) (die agent queue : Nat) : Option (Nat × Cmd) :=
  (List.range 64).findSome? fun l =>
    ((laneSt s l).waiting.find? fun c => decide (c.die = die) && decide (c.agent = agent) && decide (c.queue = queue)).map
      fun c => (l, c)

end Sys2Proof.Machine
end

