-- ==== Sys2Proof/Machine/Pier.lean ====
section
/-! DEFINITION. Piers: how entries enter queues (R477), how commands are issued, checked, drained and sent (R58 to R61, R86
to R92, R243, R244), and how replies and acknowledgements come back. -/
namespace Sys2Proof.Machine

/-! Queue entries (R58, R477). -/

/-- Queue entries in use. -/
def occupied (x : Queue) : Nat :=
  sumBy (fun i : Item => if i.words.length = 16 then 4 else 1) x.items + x.part.length / 4

/-- AQ_RDY (R477). -/
def aqReady (s : State) (a q : Nat) : Bool :=
  decide ((agentSt s a).port ≠ .disabling) && decide (occupied (queueOf s a q) < 16)

/-- The words of a queue entry. -/
def entryWords (d : BitVec 256) : List Word := (List.range 4).map fun i => w64 (d.toNat / 2 ^ (64 * i))

/-- The client writes one entry (R477). -/
def aqWrite (s : State) (p ag q : Nat) (d : BitVec 256) : State :=
  match (pierNet s p).bind fun n => agentAt n ag with
  | none => s
  | some a =>
    let q := q % 4
    if !pierRuns s || (pierSt s p).stopped || !aqReady s a q then s
    else
      let x := queueOf s a q
      let ws := x.part ++ entryWords d
      let whole := !isExt (pOpcode ws) || decide (ws.length = 16)
      let first := if isExt (pOpcode ws) then (x.tail + 13) % 16 else x.tail
      let y := if whole then { x with items := x.items ++ [⟨first, ws, .unissued, none, [], false, none, 0, 0, 0⟩], part := [] }
        else { x with part := ws }
      chkWrite (setQueue s a q { y with tail := (x.tail + 1) % 16 }) bPier 0 p (entryIdx ag q x.tail)

/-! Issue (R59, R60). -/

/-- The command at the head of a queue: the first not finished, where no command before it holds the queue (R85, R86). -/
def headOf : List Item → Option Item
  | [] => none
  | i :: r => if i.st.finished then headOf r else if i.st = .out then (if holdsQueue i.words then none else headOf r) else some i

/-- The stamp of an issued command (R60, R118). -/
def stamp (s : State) (p : PierNet) (a q : Nat) (i : Item) : Cmd :=
  let t := get s (fAgtBindTenant a)
  let dt := pierNow s p
  { die := dieOf s, agent := a, queue := q, entry := i.entry, pier := p.pier, tenant := t, epoch := epochOf s t
    words := i.words, deadline := deadlineOf i.words dt, issue := dt }

/-- A command is traced (R444). -/
def isTraced (s : State) (a : Nat) (ws : List Word) : Bool :=
  on s fObsTrctlEn && nbit (rd s (rObsTren (a / 64))).toNat (a % 64) && (fTRACE ws || on s fObsTrctlAll)

/-- The item of a command gets a state. -/
def setItem (s : State) (c : Cmd) (st : ItemSt) : State :=
  mapItem s c.agent c.queue (holds c) fun i => { i with st := st }

/-- Whether an item stalls at its queue's head. -/
def ItemSt.isStalled : ItemSt → Bool
  | .stalled _ => true
  | _ => false

/-- A command stalls at its queue's head (R89); one that begins to stall takes its place among those that do (R349). -/
def stallItem (s : State) (c : Cmd) (why : Stall) : State :=
  let n := s.order
  mapItem { s with order := n + 1 } c.agent c.queue (holds c) fun i =>
    { i with st := .stalled why, since := if i.st.isStalled && decide (i.since ≠ 0) then i.since else n + 1 }

/-- The die a command goes to, none for a lane arrival and a ROUTE. -/
def targetDie (ws : List Word) : Option Nat :=
  if isLane ws ∨ pOp ws = some .route then none else some (pDie ws)

/-- Steps 1 to 4 of R92, with R168's count slots and R312: the status of the first check that fails. -/
def pierCheck (s : State) (c : Cmd) : Option Status :=
  let ws := c.words
  if degradedOn s && !isLane ws then some .degraded
  else if (agentSt s c.agent).port ≠ .open then some .disabled
  else
    match pOp ws with
    | none => some .badop
    | some op =>
      if !flagsLegal op ws || !scopeLegal ws || !operandsLegal op ws then some .badop
      else if fRDATA ws && decide (op ≠ .route) && decide (pDie ws = dieOf s) then some .badop
      else if op = .route ∧ routeSlotsBad s ws = true then some .badop
      else if !on s (fAgtBindBound c.agent) then some .prot
      else if (match targetDie ws with
        | some d => !isMember s d
        | none => false) then some .prot
      else if isLane ws && !(counted s (pLane ws)).contains c.agent then some .prot
      else if on s (fTenCfgMirrored c.tenant) && mirrorOn s
          && !nbit (rd s (rCoreMirrole (c.tenant / 64))).toNat (c.tenant % 64) then some .prot
      else none

/-- The refusals of step 5 that are known at the pier (R89, R90, R92): why the command would stall, none when it would
not. -/
def pierStall (s : State) (c : Cmd) : Option Stall :=
  let ws := c.words
  if get s fCoreStepStep < 5 then some .step5
  else
    match targetDie ws with
    | some d =>
      if d = dieOf s ∨ inLost s d = true then none
      else if !inReach s d then some .die
      else if creditFree s c.tenant (firstPort s d) 1 then none else some .bound
    | none =>
      if pOp ws = some .route then
        let ds := routeDies s ws
        if ds.any (fun d => decide (d ≠ dieOf s) && isPending s d) then some .die
        else if routeCreditsFree s c.tenant (routeCredits s ds) && localCredits s c then none else some .bound
      else none

/-- The router from which a command of this die goes home: its pier's, or its unit's for a combine arrival (R220). -/
def startRouter (s : State) (c : Cmd) : Nat :=
  if pOp c.words = some .arriveCombine then abacusRouter (pCtx c.words % 16) else pierRouter s c.pier

/-- A command goes from a router to the bank of its object's entry (R34, R35), as one that its pier missed, or with the translation by
which a slice returned it (R36). -/
def toBank (s : State) (router : Nat) (c : Cmd) (miss : Bool) (ret : Option Xlat) : State :=
  let bank := bankOf s c.tenant (pObj c.words)
  match girderPass s router bank with
  | (s, .whole) => bankCmd s c (prefOf s c) miss ret
  | (s, .poisoned) => rejectCmd s (.router bank) c none .poison
  | (s, .lost) => s

/-- A command of this die goes to its object's home (R12, R35, R36, R92 steps 6 on): by its pier's translation straight to the slice,
which returns it to the bank where the slot holds another object. -/
def toHome (s : State) (c : Cmd) : State :=
  let router := startRouter s c
  if pOp c.words = some .alloc ∨ pOp c.words = some .audit then toBank s router c false none
  else
    match lookUp s c.pier c.tenant (pObj c.words) with
    | (s, none) => toBank s router c true none
    | (s, some y) =>
      let key := slotKey y.slice y.slot
      let i := (htmIdx s c.tenant y.obj).getD 0
      match girderPass s router y.slice with
      | (s, .whole) =>
        let s := (tagRead s key i).1
        if slotHolds s y i then toSlot s key c i else toBank s y.slice c false (some y)
      | (s, .poisoned) => rejectCmd s (.router y.slice) c none .poison
      | (s, .lost) => s

/-- A command message leaves for another die with its credit and QSEQ (R288, R289, R32), over Girder to the port. One that does not
reach the port takes no QSEQ number (DEDUCED, log entry 139). -/
def toDie (s : State) (c : Cmd) (d : Nat) : State :=
  let held := (itemOf s c).bind (·.qseq)
  let n := held.getD (qseqOf s c.agent c.queue d)
  let s := mapItem s c.agent c.queue (holds c) fun i =>
    { i with st := .out, credits := if i.credits = [] then [firstPort s d] else i.credits }
  let s := countEv s (Ev.ofCmd 0x22 c none none)
  let port := portRouter (firstPort s d)
  match girderPass s (startRouter s c) port with
  | (s, .whole) =>
    let s := if held.isNone then bumpQseq s c.agent c.queue d else s
    let s := mapItem s c.agent c.queue (holds c) fun i => { i with qseq := some n }
    sendTo s d { hdrOf s c d with qseq := n } (if isExt (pOpcode c.words) then .xcmd c else .cmd c)
  | (s, .poisoned) => rejectCmd s (.router port) c none .poison
  | (s, .lost) => s

/-- The command goes on to its home: on this die, or by a message. -/
def goHome (s : State) (c : Cmd) : State :=
  if pDie c.words = dieOf s then toHome (setItem s c .out) c else toDie s c (pDie c.words)

/-- A notice that a slice has refused this arrival is still on its way to the unit, which holds its place (R221). -/
def noticeDue (s : State) (c : Cmd) : Bool :=
  s.gir.notices.any fun n => decide (n.2.1 = c) && decide (n.2.2 = .refused)

/-- The checks of an ARRIVE_COMBINE between pier and home (R220, R222, R225, R483). It waits for the notice of its last refusal. -/
def combineDepart (s : State) (c : Cmd) : State :=
  if noticeDue s c then stallItem s c .bound
  else
  let k := pCtx c.words
  let unit := unitOrigin k
  -- without an entry the lengths are not known: the least region is checked
  let (src, dst) := match ctxAt s k with
    | some x => (payLen x, resLen x)
    | none => (1, 1)
  if !inScratch s c.agent (pSrc c.words) src || !inScratch s c.agent (pDst c.words) dst then failPlain s .pier c none .prot
  else
    match girderPass s (pierRouter s c.pier) (abacusRouter (k % 16)) with
    | (s, .lost) => setItem s c .out
    | (s, .poisoned) => failPlain s unit c none .poison
    | (s, .whole) =>
      let (s, stands) := match ctxAt s k with
        | some x => readRecord s k x
        | none => (s, true)
      match (if stands then unitAdmit s c else .fails .badop) with
      | .fails st => failPlain s unit c none st
      | .held =>
        let again : Bool := match itemOf s c with
          | some i => decide (i.st = .stalled .barrier)
          | none => false
        if fTRY c.words then failPlain s unit c none .full
        else stallItem (if again then s else bump s fAbcCnt1Held) c .barrier
      | .placed s' => goHome s' c

/-- A command leaves its pier, or stalls at its queue head (R89, R90, R124). -/
def depart (s : State) (c : Cmd) : State :=
  let ws := c.words
  let has := match itemOf s c with
    | some i => decide (i.credits ≠ [])
    | none => false
  if degradedOn s && !isLane ws then failPlain s .pier c none .degraded
  else if (tenSt s c.tenant).st ≠ .active then stallItem s c .tenant
  else
    match (if has then none else pierStall s c) with
    | some why => if fTRY ws then failPlain s .pier c none .full else stallItem s c why
    | none =>
      match targetDie ws with
      | none =>
        if isLane ws then laneArrive (setItem s c .out) c
        else
          let ps := routeCredits s (routeDies s ws)
          routeDepart (mapItem s c.agent c.queue (holds c) fun i => { i with st := .out, credits := ps }) c
      | some d =>
        if d ≠ dieOf s ∧ inLost s d = true then failWith s .pier c none .resource cLinkDown 0
        else if pOp ws = some .arriveCombine then combineDepart s c
        else goHome s c

/-! Release drains (R243, R244, R246). -/

/-- The scope of the drain that a command makes before it leaves. -/
def drainScope (ws : List Word) : Option Nat :=
  if fREL ws then some (pScope ws) else if pOp ws = some .arriveCombine then some 0 else none

/-- The drain of a command begins, unless one of its queue is still in progress. -/
def startDrain (s : State) (c : Cmd) (scope : Nat) : State :=
  let x := queueOf s c.agent c.queue
  let s := if x.drain.isNone then setQueue s c.agent c.queue { x with drain := some ⟨s.now, scope, c, false⟩ } else s
  setItem s c .draining

/-- The replies that a FENCE waits for are generated (R88). -/
def fenceClear (s : State) (c : Cmd) : Bool :=
  let before := (queueOf s c.agent c.queue).items.takeWhile fun i => decide (i.cmd ≠ some c)
  let mine := ((itemOf s c).map (·.ord)).getD 0
  let others := if fALLQ c.words then
      ((List.range 4).filter fun q => decide (q ≠ c.queue)).flatMap fun q =>
        (queueOf s c.agent q).items.filter fun i => i.cmd.isSome && decide (i.ord < mine)
    else []
  (before ++ others).all fun i => i.st.finished

/-- After the FENCE's wait, the drain, and then the command leaves. -/
def afterFence (s : State) (c : Cmd) : State :=
  match drainScope c.words with
  | some sc => startDrain s c sc
  | none => depart s c

/-- An issued command begins its processing. -/
def begin_ (s : State) (c : Cmd) : State :=
  match pierCheck s c with
  | some .disabled => failWith s .pier c none .disabled cDisable 0
  | some st => failPlain s .pier c none st
  | none =>
    if fTRY c.words && decide ((tenSt s c.tenant).st = .active) && (pierStall s c).isSome then failPlain s .pier c none .full
    else if pOp c.words = some .fence ∧ fenceClear s c = false then setItem s c .fenced
    else afterFence s c

/-- The check words of a packet's queue entries are read (R390, R391): answers whether one was uncorrectable. -/
def readEntries (s : State) (p base : Nat) (i : Item) : State × Bool :=
  (List.range (i.words.length / 4)).foldl (fun (a : State × Bool) k =>
    let n := base + (i.entry + k) % 16
    let (s, e) := chkRead a.1 bPier 0 p n
    match e with
    | .good => (s, a.2)
    | .ce => (raise s bPier 0 (dPmem p 0 n), a.2)
    | .ue => (raise s bPier 1 (dPmem p 0 n), true)) (s, false)

/-- The pointers of a pier pass on from a queue it has served (R59). -/
def passPointers (s : State) (p : PierNet) (g q : Nat) : State :=
  let x := pierSt s p.pier
  setPier s p.pier { x with rrAgent := (g + 1) % p.agents.length, rrQueue := mset x.rrQueue g 0 ((q + 1) % 4) }

/-- The head of a queue is issued (R59): counted, traced, and its queue entries' check bits read. -/
def issueHead (s : State) (p : PierNet) (g a q : Nat) (i : Item) : State :=
  let c := stamp s p a q i
  let tr := isTraced s a i.words
  let n := s.order + 1
  let s := mapItem { s with order := n } a q (fun j => decide (j = i)) fun j =>
    { j with st := .stalled .bound, cmd := some c, traced := tr, ord := n }
  let s := passPointers s p g q
  let s := if p.priv then s else setPier s p.pier { pierSt s p.pier with lastDt := c.issue }
  let s := countEv s (Ev.ofCmd 0x01 c none none)
  let s := if tr then countEv s (Ev.ofCmd 0x24 c none none) else s
  match readEntries s p.pier (entryIdx g q 0) i with
  | (s, true) => failPlain s .pier c none .poison
  | (s, false) => begin_ s c

/-! Which head goes (R59, R349, R352). -/

/-- A stalled command waits for remote credits. -/
def wantsCredits (s : State) (c : Cmd) (why : Stall) : Bool :=
  decide (why = .bound) &&
    match targetDie c.words with
    | some d => decide (d ≠ dieOf s)
    | none => decide (pOp c.words = some .route) && decide (routeCredits s (routeDies s c.words) ≠ [])

/-- The cause of a stall known at the pier is gone. A command that still holds its credits needs no others (R352). -/
def stallGone (s : State) (c : Cmd) (why : Stall) : Bool :=
  decide ((tenSt s c.tenant).st = .active) && ((pierStall s c).isNone || (itemOf s c).any fun i => decide (i.credits ≠ [])) &&
    match why with
    | .barrier => (ctxAt s (pCtx c.words)).all fun x => decide (x.st ≠ .closed)
    | _ => !noticeDue s c

/-- A head that the pier may serve: one not yet issued, or one whose stall, other than for remote credits, is over. -/
def readyHead (s : State) (a q : Nat) : Bool :=
  match headOf (queueOf s a q).items with
  | some i =>
    match i.st, i.cmd with
    | .unissued, _ => true
    | .stalled why, some c => !wantsCredits s c why && stallGone s c why
    | _, _ => false
  | none => false

/-- The queue whose head a pier serves next, by the pointers of R59: its agent's local index, and the queue. -/
def nextToIssue (s : State) (p : PierNet) : Option (Nat × Nat) :=
  rrPick p.agents.length (pierSt s p.pier).rrAgent (pierSt s p.pier).rrQueue fun g q =>
    match agentAt p g with
    | some b => readyHead s b q
    | none => false

/-- The heads of a pier that stalled for remote credits and could have them now, each with its place among the stalled heads. -/
def creditHeads (s : State) (p : PierNet) : List (Nat × Nat × Nat) :=
  p.agents.flatMap fun g => (List.range 4).filterMap fun q =>
    match headOf (queueOf s g.1 q).items with
    | some i =>
      match i.st, i.cmd with
      | .stalled why, some c => if wantsCredits s c why && stallGone s c why then some (i.since, g.1, q) else none
      | _, _ => none
    | none => none

/-- Credits that come free go at each pier in the order in which the heads stalled, and round robin across the piers of a router
(R349). -/
def creditTurn (s : State) (p : PierNet) (a q : Nat) : Bool :=
  let mine := creditHeads s p
  let first := mine.any fun x => decide (x.2 = (a, q)) && mine.all fun y => decide (x.1 ≤ y.1)
  let ready := (s.net.piers.filter fun n => decide (n.router = p.router) && !(creditHeads s n).isEmpty).map (·.pier)
  let last := mgetD s.turn p.router 0
  let next : Option Nat := match ready.find? fun n => decide (last < n) with
    | some n => some n
    | none => ready.head?
  first && decide (next = some p.pier)

/-- A stalled head goes on when its cause is gone and its turn has come. -/
def resumeHead (s : State) (p : PierNet) (a q : Nat) (c : Cmd) (why : Stall) : State :=
  if wantsCredits s c why then
    if creditTurn s p a q then depart { s with turn := mset s.turn p.router 0 p.pier } c else s
  else if nextToIssue s p = some (localIdx p a, q) then depart (passPointers s p (localIdx p a) q) c
  else s

/-- The pier issues the head of a queue whose packet meets the row's test; a head already issued and stalled goes on when
its cause is gone. A head that the pointers of R59, or the order of R349, do not choose waits. -/
def issueOp (want : List Word → Bool) (a q : Nat) (s : State) : State :=
  let q := q % 4
  match pierOf s a, headOf (queueOf s a q).items with
  | some p, some i =>
    if !coreRuns s || (pierSt s p.pier).stopped || !want i.words then s
    else
      match i.st, i.cmd with
      | .unissued, _ =>
        let g := localIdx p a
        if nextToIssue s p = some (g, q) then issueHead s p g a q i else s
      | .stalled why, some c => resumeHead s p a q c why
      | .fenced, some c => if fenceClear s c then afterFence s c else s
      | _, _ => s
  | _, _ => s

/-- The packet's opcode is this one; ARRIVE splits on LANE. Undefined opcodes go with SIG_ADD (log entry 10). -/
def wants (op : Op) (ws : List Word) : Bool :=
  match pOp ws with
  | none => decide (op = .sigAdd)
  | some o => decide (o = op)

/-- A refused command is presented again (R126, R334, R499); the parts of a ROUTE too. -/
def representHead (s : State) (a q : Nat) : State :=
  if !coreRuns s then s
  else
    let s := resendParts s a q
    match headOf (queueOf s a q).items with
    | some i =>
      match i.st, i.cmd with
      | .refused _ due, some c =>
        if due ≤ pierTime s c.pier then depart (setItem (timeRead s c.pier) c (.stalled .bound)) c else s
      | _, _ => s
    | none => s

/-- A staging entry is presented again by its coordinator (R172, R175), after those before it on its object; in DEGRADED mode the
bank takes none (R396). -/
def representEntry (s : State) (tag idx : Nat) : State :=
  if !coreRuns s then s
  else
    match partOf s tag with
    | none => s
    | some p =>
      match p.retry.find? (fun r => decide (r.1 = idx)), p.entries.find? (fun e => decide (e.1.idx = idx)) with
      | some r, some e =>
        if coordTime s p < r.2 ∨ (entryBehind p e.1).isSome = true then s
        else
          let s := if p.origin.isNone then timeRead s p.cmd.pier else s
          let s := updPart s tag fun p => { p with retry := p.retry.filter fun r => decide (r.1 ≠ idx) }
          if degradedOn s then reportEntry s (.router (bankOf s p.cmd.tenant (entryObj p.cmd e.1))) tag idx p.cmd none .degraded
          else stageHome s p e.1
      | _, _ => s

/-! Acknowledgements, fills and wakes. -/

/-- A drain acknowledgement (R243, R244, R480, R481). -/
def drainAck (s : State) (p tag : Nat) (err : Bool) : State :=
  match (pierNet s p).bind fun n => agentAt n (tag / 4) with
  | none => s
  | some a =>
    let q := tag % 4
    let x := queueOf s a q
    match x.drain with
    | none => s
    | some d =>
      let s := if err then raise s bPier 5 (dAgt a q (dieOf s)) else s
      let s := bump s fPierOrdcnt0Drains
      let s := hwm s fPierOrdhwmDrainHwm (min (2 ^ 24 - 1) (s.now - d.start))
      let s := countEv s (Ev.ofCmd 0x1F d.cmd none none)
      let s := setQueue s a q { x with drain := none }
      match (queueOf s a q).items.find? fun i => decide (i.st = .draining) with
      | some i =>
        match i.cmd with
        | some c =>
          if c = d.cmd then
            if coreRuns s then depart s c else setItem s c (.stalled .bound)
          else startDrain s c ((drainScope c.words).getD 0)
        | none => s
      | none => s

/-- The region that the invalidation of a combine without ACQ covers (R246): the results at DST; none where it covers all that the
scope shares. The interface of R480 carries the scope alone. -/
def invalRegion (s : State) (c : Cmd) : Option (Nat × Nat) :=
  if pOp c.words = some .arriveCombine ∧ fACQ c.words = false then
    (ctxAt s (pCtx c.words)).map fun x => (pDst c.words, resLen x)
  else none

/-- An invalidation acknowledgement (R247, R249, R480, R481). -/
def invalAck (s : State) (p tag : Nat) (err : Bool) : State :=
  match (pierNet s p).bind fun n => agentAt n (tag / 4) with
  | none => s
  | some a =>
    let q := tag % 4
    let x := queueOf s a q
    let asked (i : Item) : Bool := match i.st with | .done _ (.invalAsked _) => true | _ => false
    let waits (i : Item) : Bool := match i.st with | .done _ .inval => true | _ => false
    match x.items.find? asked with
    | none => s
    | some i =>
      let s := if err then raise s bPier 5 (dAgt a q (dieOf s)) else s
      let s := bump s fPierOrdcnt0Invals
      let s := match i.cmd with
        | some c => countEv s (Ev.ofCmd 0x20 c none none)
        | none => s
      let put_ (w : Await) (i : Item) : Item := match i.st with | .done r _ => { i with st := .done r w } | _ => i
      let ask (i : Item) : Item := put_ (.invalAsked (invalScope i.words)) i
      let items := mapFirst waits ask (mapFirst asked (put_ .nothing) x.items)
      presentOf (setQueue s a q { x with items := items }) a

/-- The client accepts the reply presented (R478): it is delivered, and traced (R446). -/
def replyTaken (s : State) (p : Nat) : State :=
  match pierNet s p, (pierSt s p).ar with
  | some n, some (a, q) =>
    if !pierRuns s then s
    else
      let x := queueOf s a q
      match x.items with
      | i :: rest =>
        match i.st, i.cmd with
        | .done r .nothing, some c =>
          let s := countEv s (Ev.ofCmd 0x03 c none (some r.status))
          let s := if i.traced then traceSend s (traceWords i c (some r)) else s
          let s := setQueue s a q { x with items := rest }
          present (setPier s p { pierSt s p with ar := none }) n
        | _, _ => s
      | [] => s
  | _, _ => s

/-- The oldest fill for a pier arrives (R35). -/
def fillArrives (s : State) (p : Nat) : State :=
  if !coreRuns s then s
  else
    match takeFirst (fun f : Nat × Xlat => decide (f.1 = p)) s.gir.fills with
    | none => s
    | some ((_, x), rest) =>
      let s := { s with gir := { s.gir with fills := rest } }
      let cache := cachePut (pierSt s p).cache x
      chkWrite (setPier s p { pierSt s p with cache := cache }) bPier 1 p ((cache.head?.map (·.place)).getD 0)

/-- The oldest invalidation for a pier arrives (R36). -/
def invArrives (s : State) (p : Nat) : State :=
  if !coreRuns s then s
  else
    match takeFirst (fun f : Nat × Xlat => decide (f.1 = p)) s.gir.invs with
    | none => s
    | some ((_, x), rest) =>
      let s := { s with gir := { s.gir with invs := rest } }
      let y := pierSt s p
      setPier s p { y with cache := y.cache.filter fun z => decide ({ z with place := 0 } ≠ { x with place := 0 }) }

/-- The oldest wake for a pier arrives (R108). Wakes that different slices sent to one pier arrive in the order in which they were
sent, which R12 leaves open; so do fills and invalidations (DESIGN CHOICE, log entry 111). -/
def wakeArrives (s : State) (p : Nat) : State :=
  if !coreRuns s then s
  else
    match takeFirst (fun w : Nat × Wake => decide (w.2.cmd.pier = p)) s.gir.wakes with
    | none => s
    | some ((_, w), rest) =>
      settle { s with gir := { s.gir with wakes := rest } } w.cmd w.reply

/-! Wake emission and pacing (R108 to R117). -/

/-- One wake leaves a slice: over Girder to a pier of this die, or to the port of a REPLY (R12). One lost on Girder is no more; one
whose payload is lost completes its command with POISON (R391, R392). -/
def emit (slice : Nat) (s : State) (w : Wake) : State :=
  let s := bump (countEv s (Ev.ofCmd 0x05 w.cmd (some w.kind) none)) fWaitCnt0Wakes
  match crossBack s (.router slice) w.cmd with
  | (s, .lost) => s
  | (s, p) =>
    let r := if p = .poisoned then { failReply s w.cmd .poison with dt := w.reply.dt } else withRemote w.cmd w.reply
    if w.cmd.die = dieOf s then { s with gir := { s.gir with wakes := s.gir.wakes ++ [(slice, { w with reply := r })] } }
    else sendTo s w.cmd.die (hdrOf s w.cmd w.cmd.die) (.reply w.cmd r)

/-- Wakes already at ports. -/
def heldWakes (s : State) : Nat := sumBy (fun x : Nat × List Wake => x.2.length) s.wk.ports

/-- How many wakes at other ports became ready before a slice's wake of Deck Time t (R115); ties go to the lower slice. -/
def readyBefore (s : State) (slice t : Nat) : Nat :=
  sumBy (fun y : Nat × List Wake =>
    if y.1 = slice then 0
    else count (fun w : Wake => decide (w.reply.dt < t) || (decide (w.reply.dt = t) && decide (y.1 < slice))) y.2) s.wk.ports

/-- How many of a slice's wakes the window's budget covers: it goes to the wakes at the ports in the order in which they became
ready (R115). -/
def granted (s : State) (slice : Nat) (ws : List Wake) : Nat :=
  match s.wk.budget with
  | none => ws.length
  | some b => ((ws.zipIdx).takeWhile fun x => decide (x.2 + readyBefore s slice x.1.reply.dt < b)).length

/-- A slice emits what the budget covers of the wakes at its port; the rest waits there (R115). The rest of a batch that a spent
budget left at a port goes before the wakes that the slice has posted since (R110 gives no order; DESIGN CHOICE, log entry 112). -/
def emitPort (s : State) (slice : Nat) : State :=
  let ws := mgetD s.wk.ports slice []
  let n := granted s slice ws
  let s := (ws.take n).foldl (emit slice) s
  { s with wk := { s.wk with
      ports := mset s.wk.ports slice [] (ws.drop n), budget := s.wk.budget.map (· - n)
      heldBack := s.wk.heldBack || decide (n < ws.length) } }

/-- Passes paused for want of pool room go on (R112), and the operations that waited behind them are applied (R103). -/
def resumePasses (s : State) : State :=
  (s.sema.slots.filter fun x => x.2.paused).foldl (fun s x => drainInq (runPass s x.1) x.1) s

/-- A slice that may take a batch: its clock runs, and no wake stands at its port (R110, R413). -/
def sliceFree (s : State) (i : Nat) : Bool := sliceOn s i && decide (mgetD s.wk.ports i [] = [])

/-- The batch a free slice takes (R110): with STEAL_EN the oldest goes to the lowest-numbered free slice, the next to the next;
otherwise the oldest of its own. Answers its place in the pool. -/
def batchFor (s : State) (slice : Nat) : Option Nat :=
  if on s fWaitCtlStealEn then
    let k := count (sliceFree s) (List.range slice)
    if k < s.wk.pool.length then some k else none
  else (s.wk.pool.zipIdx.find? fun b => decide (b.1.slice = slice)).map (·.2)

/-- A slice takes a batch into its port (R110, R112); one whose word is uncorrectable is dropped (R391). -/
def takeBatch (s : State) (slice k : Nat) : State :=
  match s.wk.pool[k]? with
  | none => s
  | some b =>
    let s := bump { s with wk := { s.wk with pool := dropAt s.wk.pool k } } fWaitCnt0Stolen
    let (s, e) := chkRead s bWait 4 b.slice b.word
    match e with
    | .good => toPort s slice b.wakes
    | .ce => toPort (raise s bWait 0 (dMem 4 b.word)) slice b.wakes
    | .ue => raise s bWait 1 (dMem 4 b.word)

/-- A slice emits its own wakes, or takes a batch and emits it (R110, R115). A boundary that is due comes first (R335). -/
def wakeEmit_ (s : State) (slice : Nat) : State :=
  if !coreRuns s || windowDue s s.now then s
  else if mgetD s.wk.ports slice [] ≠ [] then emitPort s slice
  else
    let room := match s.wk.budget with
      | some b => decide (heldWakes s < b)
      | none => true
    if !sliceFree s slice || !room then s
    else
      match batchFor s slice with
      | none => s
      | some k => resumePasses (emitPort (takeBatch s slice k) slice)

/-- A budget field: 0 as 1, more than 2,048 as 2,048. -/
def paceVal (n : Nat) : Nat := max 1 (min 2048 n)

/-- The wakes that pacing has held back when a window ends: those at ports and in the pool once its budget is spent (R115). -/
def heldBackNow (s : State) : List Wake :=
  if s.wk.heldBack || decide (s.wk.budget = some 0) then s.wk.ports.flatMap (·.2) ++ s.wk.pool.flatMap (·.wakes) else []

/-- A window n begins (R113 to R115). -/
def beginWindow (s : State) (n : Nat) : State :=
  let held := heldBackNow s
  let s := if held = [] then s
    else held.foldl (fun s w => countEv s (Ev.ten 0x09 w.cmd.tenant)) (bump s fWaitCnt1Pacedwin)
  let pace := if on s fWaitCtlPaceEn then some (paceVal (get s fWaitCtlPaceMax)) else none
  let droop := if s.clk.droop then some (paceVal (get s fWaitCtlDroopMax)) else none
  let b := match pace, droop with
    | some a, some b => some (min a b)
    | some a, none => some a
    | none, b => b
  { s with wk := { s.wk with window := n, budget := b, heldBack := false } }

/-- A pacing window has begun: that of now, or, where a release or an expiry of a slice is due before it, the window of that event
(R335). -/
def paceWindow (s : State) : State :=
  let n := windowOf (firstDue s)
  if !coreRuns s || decide (n ≤ s.wk.window) then s else beginWindow s n

/-! The scratchpad interface (R482). -/

/-- The client accepts the beat presented. -/
def beatTaken (s : State) (p : Nat) : State :=
  let x := pierSt s p
  match x.spq with
  | b :: rest => if x.spOut.length < 16 ∧ pierRuns s = true ∧ x.stopped = false then setPier s p { x with spq := rest, spOut := x.spOut ++ [b] } else s
  | [] => s

/-- An answered beat is at its unit: an error response aborts the phase (R482), and the beat is outstanding no longer. -/
def beatDone (s : State) (r : Beat × BitVec 512 × Bool) : State :=
  let (b, data, err) := r
  if err then
    let s := match ctxAt s b.ctx with
      | none => s
      | some x => abortHere s b.ctx x ⟨5, dieOf s, 0⟩
    if b.write then beatOver s b else s
  else if b.write then beatWritten s b
  else beatRead s b data

/-- The client answers the oldest beat of an agent, in its own clock: an error response is recorded at once. While no ECLK unit acts the
answer waits in the pier (R407, R448). -/
def beatAnswered (s : State) (p ag : Nat) (data : BitVec 512) (err : Bool) : State :=
  match (pierNet s p).bind fun n => agentAt n ag with
  | none => s
  | some a =>
    let x := pierSt s p
    match takeFirst (fun b : Beat => decide (b.agent = a)) x.spOut with
    | none => s
    | some (b, rest) =>
      let q := (((ctxAt s b.ctx).bind fun c => c.parts.find? fun y => decide (y.pidx = b.pidx)).map (·.cmd.queue)).getD 0
      let s := setPier s p { x with spOut := rest }
      let s := if err then raise s bPier 5 (dAgt a q (dieOf s)) else s
      if coreRuns s then beatDone s (b, data, err)
      else setPier s p { pierSt s p with answered := (pierSt s p).answered ++ [(b, data, err)] }

/-- Answers that waited in the piers reach their units once these act again. -/
def heldAnswers (s : State) : State :=
  if coreRuns s then
    (s.piers.filter fun x => decide (x.2.answered ≠ [])).foldl (fun s x =>
      x.2.answered.foldl beatDone (setPier s x.1 { pierSt s x.1 with answered := [] })) s
  else s

/-! Ends of commands: expiry, cancellation, watchdog, guard (R79, R119, R359, R386, R389). -/

/-- The command is this queue's. -/
def isOf (die a q : Nat) (c : Cmd) : Bool := decide (c.die = die) && decide (c.agent = a) && decide (c.queue = q)

/-- An expiry is counted (R119). -/
def countExpiry (s : State) (c : Cmd) : State := countEv (bump s fWaitCnt1Expired) (Ev.ofCmd 0x08 c none none)

/-- Where a blocking command is held away from its pier: at a slice with its entry, at a bank, in the paging queue (and whether a
page-in was attempted for it), at Trestle, behind a paused pass or in Girder, or beside a pending object. What holds it has a router,
where it is no slice of its own. -/
inductive HeldAt where
  | waiter (key : Nat) (w : Waiter)
  | bank (c : Cmd) (r : Nat)
  | paging (c : Cmd) (tried : Bool)
  | lane (l : Nat) (c : Cmd)
  | queued (c : Cmd) (r : Nat)
  | beside (c : Cmd) (r : Nat)
  deriving DecidableEq, Repr

def HeldAt.cmd : HeldAt → Cmd
  | .waiter _ w => w.cmd
  | .bank c _ => c
  | .paging c _ => c
  | .lane _ c => c
  | .queued c _ => c
  | .beside c _ => c

/-- Where its reply arises. -/
def HeldAt.origin : HeldAt → Origin
  | .waiter key _ => .router (sliceOf key)
  | .bank _ r => .router r
  | .queued _ r => .router r
  | .beside _ r => .router r
  | .paging _ _ => .apart
  | .lane _ _ => .apart

/-- The command of an item that meets a test. -/
def itemCmd (p : Cmd → Bool) : HomeItem → Option Cmd
  | .cmd c _ _ => if p c then some c else none
  | _ => none

/-- The command of a queue that is held away from its pier. -/
def findHeld (s : State) (die a q : Nat) : Option HeldAt :=
  let mine (c : Cmd) : Bool := isOf die a q c && blocking c.words
  let waiter := ((allWaiters s).find? fun x => mine x.2.cmd).map fun x => HeldAt.waiter x.1 x.2
  let bank := s.sema.transit.findSome? fun x => (itemCmd mine x.2.2).map fun c => HeldAt.bank c (x.1 % 64)
  let early := s.sema.early.findSome? fun x => (itemCmd mine x).map fun c => HeldAt.bank c (bankOf s c.tenant (pObj c.words))
  let paging := s.sema.paging.findSome? fun x => (itemCmd mine x.item).map fun c => HeldAt.paging c x.tried
  let lane := (laneOf s die a q).map fun x => HeldAt.lane x.1 x.2
  let queued := s.sema.slots.findSome? fun x => x.2.inq.findSome? fun y => (itemCmd mine y.2).map fun c => HeldAt.queued c (sliceOf x.1)
  let waiting := s.gir.stalled.findSome? fun x => (itemCmd mine x.2).map fun c => HeldAt.queued c (entryRouter s c)
  let beside := s.sema.slots.findSome? fun x => (x.2.tries.find? mine).map fun c => HeldAt.beside c (sliceOf x.1)
  [waiter, bank, early, paging, lane, queued, waiting, beside].findSome? id

/-- A command leaves the bank, queue or table that holds it. -/
def dropHeld (s : State) (c : Cmd) : State :=
  let other (x : HomeItem) : Bool := match x with
    | .cmd d _ _ => decide (d ≠ c)
    | _ => true
  let m := s.sema
  let slots := m.slots.map fun x =>
    (x.1, { x.2 with inq := x.2.inq.filter (fun y => other y.2), tries := x.2.tries.filter fun d => decide (d ≠ c) })
  { s with
    sema := { m with
      slots := slots, transit := m.transit.filter (fun x => other x.2.2), early := m.early.filter other
      paging := m.paging.filter fun x => other x.item }
    gir := { s.gir with stalled := s.gir.stalled.filter fun x => other x.2 } }

/-- A command held away from its pier ends with a status and a cause that arose on a die. Where no value was read, VLOW is 0 (R79). -/
def endHeld (s : State) (h : HeldAt) (st : Status) (code die : Nat) : State :=
  match h with
  | .waiter key w => endWaiterFrom s key w st code die
  | .lane l c => endLaneWait s l c st code die
  | .paging c tried =>
    let s := noticeIf (dropHeld s c) .apart c (.rejected st)
    if st = .timeout ∧ tried = true then failWith s .apart c none .resource cPaging 0 else failFrom s .apart c none st code die 0
  | h => failFrom (noticeIf (dropHeld s h.cmd) h.origin h.cmd (.rejected st)) h.origin h.cmd none st code die 0

/-- Whether a held command's expiry is due (R119), and its turn has come among what is due at its unit (R335). What waits behind a
paused pass or beside a pending object ends when it is evaluated (R121, R173). -/
def expiryDue (s : State) : HeldAt → Bool
  | .waiter key w => expired s w.cmd 16 &&
      (expiryOf w.cmd 16).all fun e => !windowDue s e && !releaseBefore s (sliceOf key) (e + 1) 0
  | .bank c _ => expired s c 16
  | .paging c _ => expired s c 256
  | .lane _ c => expired s c 16 && trestleOn s && (expiryOf c 16).all fun e => !laneDueBefore s (e + 1) 0
  | .queued _ _ => false
  | .beside _ _ => false

/-- A command held at its own pier. -/
def heldAtPier (s : State) (a q : Nat) : Option Cmd :=
  match headOf (queueOf s a q).items with
  | some i => match i.st with
    | .unissued => none
    | _ => i.cmd
  | none => none

/-- The cause codes of the cancels under way to a command of this die. -/
def cancelsOf (s : State) (a q : Nat) : List Nat :=
  (s.gir.cancels.filter fun x => isOf (dieOf s) a q x.1).map (·.2)

/-- The cancel that wins among a cancel of the given code and those under way: a disable comes before any other (R122). -/
def strongest (s : State) (a q code : Nat) : Nat := if (cancelsOf s a q).contains cDisable then cDisable else code

/-- A cancel crosses Girder from a router to what holds the command (R12, R392). -/
def cancelHeld (s : State) (r : Nat) (h : HeldAt) (code die : Nat) : State :=
  let go (s : State) : State := endHeld s h (causeStatus code) code die
  match h.origin with
  | .router dest => crossed s (.router r) dest go
  | _ => go s

/-- A cancel with a cause code reaches the unit that holds the command (R79, R350, R359, R461); its cause arose on the issuing die. A
cancel for a command of this die must be under way, and is not before those that its pier sent to the same place ahead of it. -/
def cancelAt (s : State) (die a q code : Nat) : State :=
  if !coreRuns s then s
  else
    let go (s : State) (r code : Nat) : State :=
      match findHeld s die a q with
      | some h => cancelHeld s r h code die
      | none => s
    if die = dieOf s then
      match takeInOrder (fun x : Cmd × Nat => (x.1.pier, (findHeld s die x.1.agent x.1.queue).map HeldAt.origin))
          (fun x => isOf die a q x.1 && decide (x.2 = code)) s.gir.cancels with
      | some ((c, _), rest) => go { s with gir := { s.gir with cancels := rest } } (pierRouter s c.pier) (strongest s a q code)
      | none => s
    else go s (portRouter (recvPort s die)) code

/-- The deadline of a blocking command has come where it is held (R119, R120). A cancel under way to it reaches it in the same cycle,
and wins (R122; log entry 109). -/
def expire (s : State) (die a q : Nat) : State :=
  if !coreRuns s then s
  else
    match (if die = dieOf s then heldAtPier s a q else none) with
    | some c =>
      if (expiryOf c 16).any fun e => decide (e ≤ pierTime s c.pier) then failWith (countExpiry s c) .pier c none .timeout cExpired 0 else s
    | none =>
      match findHeld s die a q with
      | none => s
      | some h =>
        if !expiryDue s h then s
        else
          match (if die = dieOf s then (cancelsOf s a q).head? else none) with
          | some code => cancelAt s die a q code
          | none => endHeld (countExpiry s h.cmd) h .timeout cExpired (dieOf s)

/-- WAIT_WDOG.LIMIT in dt. -/
def wdogLimit (s : State) : Nat := us (max 10 (get s fWaitWdogLimit))

/-- The walker of a slice visits an entry (R386). -/
def wdogVisit (s : State) (slice entry : Nat) : State :=
  if !coreRuns s || !on s fWaitWdogEn then s
  else
    let at_ (s : State) : Option (Nat × Waiter) :=
      (allWaiters s).find? fun x => decide (x.2.table = slice) && decide (x.2.entry = entry)
    let s := match at_ s with
      | some (key, _) => readWaiters s key
      | none => s
    match at_ s with
    | none => s
    | some (key, w) =>
      if w.cmd.deadline.isSome || decide (s.now ≤ w.wdog) then s
      else
        let s := raise s bWait 2 (dAgt w.cmd.agent w.cmd.queue w.cmd.die)
        if on s fWaitWdogEnd then endWaiter s key w .timeout cExpired
        else
          match slotAt s key with
          | none => s
          | some x =>
            let ws := x.waiters.map fun y => if y = w then { y with wdog := y.wdog + wdogLimit s } else y
            chkWrite (setSlot s key { x with waiters := ws }) bWait 2 w.table w.entry

/-- The reply guard of a blocking command fires (R389). -/
def guardFires (s : State) (a q : Nat) : State :=
  if !coreRuns s || !on s (fPierGuardEn) then s
  else
    match ((queueOf s a q).items.find? fun i => decide (i.st = .out) && blocking i.words).bind (fun i => i.cmd.map fun c => (c, i.late)) with
    | none => s
    | some (c, late) =>
      let g := us (max 16 (get s fPierGuardGuard))
      let at_ : Option Nat := match c.deadline with
        | some d => some (d + g)
        | none => if on s fWaitWdogEn && on s fWaitWdogEnd then some (c.issue + wdogLimit s + g + late) else none
      match at_ with
      | some t =>
        if pierTime s c.pier < t then s
        else failWith (raise s bPier 4 (dAgt a q (dieOf s))) .pier c none .timeout cExpired 0
      | none => s

/-- A drain has been in progress for DRLIM (R245). -/
def drainSlow_ (s : State) (a q : Nat) : State :=
  let x := queueOf s a q
  match x.drain with
  | none => s
  | some d =>
    if !eclkRuns s || d.slow || decide (s.now < d.start + us (max 1 (get s fPierOrdctlDrlim))) then s
    else
      let s := setQueue s a q { x with drain := some { d with slow := true } }
      raise (bump s fPierOrdcnt1Drslow) bPier 2 (dAgt a q (dieOf s))

end Sys2Proof.Machine
end

