-- ==== Sys2Proof/Machine/Tenant.lean ====
section
/-! DEFINITION. Tenants and agents: quiesce, resets and epochs (R341 to R358), bindings and disabling (R343, R344, R359),
shares and their caps (R345 to R349, R365), import windows (R361). -/
namespace Sys2Proof.Machine

/-! TEN_CMDST (Registers). -/

/-- A tenant command is executing. -/
def tenBusy (s : State) (t op : Nat) : State := put (put s (fTenCmdstBusy t) 1) (fTenCmdstOp t) op

/-- A tenant command has completed with a status. -/
def tenDone (s : State) (t op : Nat) (st : Status) : State :=
  put (put (put (put s (fTenCmdstStatus t) (stCode st)) (fTenCmdstBusy t) 0) (fTenCmdstOp t) op) (fTenCmdstDt t) s.now

/-! Quiesce (R350 to R352). -/

/-- A cancel for a blocking command of this die that has left its pier goes to the unit that holds it (R350, R359): on this
die one is under way; to another die a message leaves. -/
def sendCancel (s : State) (c : Cmd) (code : Nat) : State :=
  if isLane c.words || decide (pDie c.words = dieOf s) then { s with gir := { s.gir with cancels := s.gir.cancels ++ [(c, code)] } }
  else sendFrom s (.router (pierRouter s c.pier)) (pDie c.words) (hdrOf s c (pDie c.words)) (.cancel c code)

/-- Blocking commands that have left their piers and meet a test. -/
def outBlocking (s : State) (p : Cmd → Bool) : List Cmd :=
  (allItems s).filterMap fun x => match x.2.2.st, x.2.2.cmd with
    | .out, some c => if blocking c.words && p c then some c else none
    | _, _ => none

/-- Pending lane arrivals that meet a test end with a status (R350, R359). -/
def endLanes (s : State) (p : Cmd → Bool) (st : Status) (code : Nat) : State :=
  (List.range 64).foldl (fun s l =>
    ((laneSt s l).waiting.filter p).foldl (fun s c => endLaneWait s l c st code (dieOf s)) s) s

/-- The waiter entries that a quiesce or reset of a tenant ends: those of its objects and those of its agents. -/
def tenWaiters (s : State) (t : Nat) : List (Nat × Waiter) :=
  (allWaiters s).filter fun x => decide (((slotAt s x.1).map (·.tenant)) = some t) || decide (x.2.cmd.tenant = t)

/-- QUIESCE from ACTIVE (R350). -/
def beginQuiesce (s : State) (t : Nat) : State :=
  let s := tenBusy (setTen s t { tenSt s t with st := .quiescing }) t 1
  let s := (tenWaiters s t).foldl (fun s x => endWaiter s x.1 x.2 .cancelled cQuiesce) s
  let s := endLanes s (fun c => decide (c.tenant = t)) .cancelled cQuiesce
  let away := outBlocking s fun c => decide (c.tenant = t) && !isLane c.words && decide (pDie c.words ≠ dieOf s)
  quiesceCtxs (away.foldl (fun s c => sendCancel s c cQuiesce) s) t

/-- TEN_CMD QUIESCE (R350). -/
def doQuiesce (s : State) (t : Nat) : State :=
  match (tenSt s t).st with
  | .active => beginQuiesce s t
  | .quiescing => tenDone s t 1 .ok
  | .quiesced => tenDone s t 1 .ok
  | .resetting => tenDone s t 1 .tenantBusy

/-- The tenant whose command an item of a queue of firmware or a bank is. -/
def HomeItem.tenant : HomeItem → Option Nat
  | .cmd c _ _ => some c.tenant
  | .stage _ _ c _ _ => some c.tenant
  | .frame h _ _ _ => some h.tenant
  | .cbound _ _ => none
  | .setval _ => none

/-- The exporter whose tenant ID an import window has put in the place of an item's own (R360). -/
def HomeItem.exporter : HomeItem → Option Nat
  | .cmd _ _ imp => imp.map (·.tenant)
  | .stage _ _ _ _ imp => imp.map (·.tenant)
  | _ => none

/-- The drain conditions of R350. -/
def drained (s : State) (t : Nat) : Bool :=
  decide (tenWaiters s t = [])
    && !((allItems s).any fun x => decide (x.2.2.st = .out) && decide ((x.2.2.cmd.map (·.tenant)) = some t))
    && !(s.ports.any fun p => p.2.hold.any fun h => decide (h.env.hdr.tenant = t))
    && !(s.sema.paging.any fun p => decide (p.item.tenant = some t) || decide (p.item.exporter = some t))
    && !(s.rt.parts.any fun p => decide (p.cmd.tenant = t) && decide (p.cmd.epoch = epochOf s t))
    && !(s.abc.ctxs.any fun c => decide (c.2.tenant = t) && decide (c.2.st ≠ .open))

/-- The drain conditions hold: the tenant is QUIESCED. -/
def quiesced_ (s : State) (t : Nat) : State :=
  if eclkRuns s = true ∧ (tenSt s t).st = .quiescing ∧ drained s t = true then
    tenDone (setTen s t { tenSt s t with st := .quiesced }) t 1 .ok
  else s

/-- TEN_CMD RESUME (R352). -/
def doResume (s : State) (t : Nat) : State :=
  if (tenSt s t).st = .quiesced then tenDone (setTen s t { tenSt s t with st := .active }) t 2 .ok
  else tenDone s t 2 .badop

/-! Queue flushes (R356 step 2, R383, R479). -/

/-- An agent's four queues are emptied; answers the state, and how many commands were ended or discarded. What a traced command leaves
is a record without a reply, also where its reply was not yet delivered (R446). -/
def flushAgent (s : State) (a : Nat) : State × Nat :=
  let g := agentSt s a
  let items := g.queues.flatMap fun q => q.2.items
  let live := items.filter fun i => !i.st.finished
  let n := live.length + count (fun q : Nat × Queue => decide (q.2.part ≠ [])) g.queues
  let s := (items.filter fun i => decide (i.st ≠ .skip)).foldl traceFlushed s
  let gone := live.filterMap (·.cmd)
  let s := gone.foldl releasePlace s
  let s := { s with rt := { s.rt with gathers := s.rt.gathers.filter fun h => decide (h.cmd.agent ≠ a) } }
  let s := setAgent s a { g with queues := g.queues.map fun q => (q.1, { q.2 with items := [], part := [], drain := none }) }
  let s := setAgent s a { agentSt s a with flushes := g.flushes + 1 }
  let s := match pierOf s a with
    | some p =>
      let x := pierSt s p.pier
      if (x.ar.map (·.1)) = some a then present (setPier s p.pier { x with ar := none }) p else s
    | none => s
  (s, n)

/-- The agents bound to a tenant. -/
def boundAgents (s : State) (t : Nat) : List Nat :=
  (s.net.piers.flatMap fun p => p.agents.map (·.1)).filter fun a => boundTo s a t

/-! Resets (R353 to R356). -/

/-- A slot at its rest value, under the current epoch (R354), without a signal record (R455); a change of the value is a signal for R47. -/
def restSlot (x : Slot) (epoch now : Nat) : Slot :=
  { passValue x now (restValue x.kind x.param) with
    poison := false, role := false, ovr := 0, epoch := epoch, rel := none, due := none
    members := x.members.map fun _ => (0#512, 0#512), pend := [], stagedRel := [], combine := false, aborted := false
    result := none, paused := false, sig := none }

/-- A mirror record outstanding is of an object of the tenant. -/
def recordOf (s : State) (t : Nat) (m : MirrorOut) : Bool :=
  m.live && decide ((if m.key < 2 ^ 20 then (slotAt s m.key).map (·.tenant) else (ownerOf s (m.key - 2 ^ 20)).map (·.1)) = some t)

/-- What the outstanding mirror records of a reset tenant's objects hold back goes out, as it stands (R309); they hold nothing pending
any longer (R354). -/
def releaseRecords (s : State) (t : Nat) : State :=
  let mine := s.span.mirror.filter (recordOf s t)
  let out := s.span.mirror.map fun m => if recordOf s t m then { m with live := false, cmd := none, reply := none, stage := none } else m
  mine.foldl (fun s m => deliverHeld s m true) { s with span := { s.span with mirror := out } }

/-- The slice walk of a reset with FREEALL at one slot: it is released, what waits behind its pass meets the bank again, and try-once
waits beside it end (R354). -/
def freeSlot (t : Nat) (s : State) (key : Nat) : State :=
  match slotAt s key with
  | none => s
  | some x =>
    let i := (htmIdx s t x.obj).getD 0
    let s := delSlot (endTries s key x) key
    let s := if (htmAt s i).state = .resident then htmWrite (setHtm s i HEntry.zero) i else s
    drainGirder (x.inq.foldl (fun s y => bankItem s y.2) s)

/-- A slot is set to rest (R354). -/
def restAt (t : Nat) (s : State) (key : Nat) : State :=
  match slotAt s key with
  | none => s
  | some x => writeSlotChk (setSlot s key (restSlot x (epochOf s t) s.now)) key

/-- The slice walk: every slot of the tenant is set to rest, and then their deferred passes run (R180, R354), or with FREEALL every
slot is released. -/
def walkSlots (s : State) (t : Nat) (freeall : Bool) : State :=
  let keys := (s.sema.slots.filter fun x => decide (x.2.tenant = t)).map (·.1)
  let s := releaseRecords s t
  if freeall then keys.foldl (freeSlot t) s
  else keys.foldl (fun s key => drainInq (runPass s key) key) (keys.foldl (restAt t) s)

/-- Waits that stand on the tenant's objects when a reset begins end with CANCELLED (R361): those of importers. A reset without FORCE
gives CAUSE QUIESCE, as the quiesce before it did (DESIGN CHOICE, log entry 113). -/
def endImporters (s : State) (t : Nat) : State :=
  ((allWaiters s).filter fun x => decide (((slotAt s x.1).map (·.tenant)) = some t)).foldl
    (fun s x => endWaiter s x.1 x.2 .cancelled cQuiesce) s

/-- Combine reports and notices of the tenant's current epoch that are under way go with the phase state (R354, R235); those of an
older epoch are discarded where they arrive (R356). -/
def dropReports (s : State) (t : Nat) : State :=
  { s with gir := { s.gir with
      reports := s.gir.reports.filter fun r => decide (r.2.1 ≠ (t, epochOf s t))
      notices := s.gir.notices.filter fun n => decide ((n.2.1.tenant, n.2.1.epoch) ≠ (t, epochOf s t)) } }

/-- The work of a reset on slices, lanes and Abacus units. -/
def resetWork (s : State) (t : Nat) (freeall : Bool) : State :=
  let s := walkSlots (endImporters s t) t freeall
  let s := (List.range 64).foldl (fun s l => if get s (fTrsLcfgTenant l) = t then resetLane s l else s) s
  dropReports (forceCtxs s t) t

/-- A reset begins: RESETTING, to return to the state it was entered from, QUIESCING becoming QUIESCED (R341). -/
def enterReset (s : State) (t : Nat) (freeall : Bool) : State :=
  let x := tenSt s t
  let ret := match x.st with
    | .resetting => x.ret
    | .quiescing => .quiesced
    | st => st
  setTen s t { x with st := .resetting, ret := ret, freeall := freeall || (decide (x.st = .resetting) && x.freeall) }

/-- Pending marks of the tenant's parts of older epochs go, on whatever objects they stand, and the deferred passes run at once, on the
tenant's own objects once these are at rest (R180, R354). -/
def dropMarks (s : State) (t : Nat) : State :=
  let tags := (s.rt.parts.filter fun p => decide (p.cmd.tenant = t) && isOlder (epochOf s t) p.cmd.epoch).map (·.tag)
  let keys := (s.sema.slots.filter fun x => decide (x.2.tenant ≠ t) && x.2.pend.any tags.contains).map (·.1)
  let slots := s.sema.slots.map fun x =>
    (x.1, { x.2 with pend := x.2.pend.filter (!tags.contains ·), stagedRel := x.2.stagedRel.filter fun r => !tags.contains r.1 })
  let s := { s with sema := { s.sema with slots := slots } }
  let s := s.sema.imgs.foldl (fun s x => setSide s x.1 { x.2 with
    pend := x.2.pend.filter (!tags.contains ·), stagedRel := x.2.stagedRel.filter fun r => !tags.contains r.1 }) s
  keys.foldl runPass s

/-- What a forced reset discards beside the queues: waiter entries, held remote commands, commands in the paging queue
(R356 step 3); importers' waits end with CANCELLED (R361). -/
def forceDiscard (s : State) (t : Nat) : State :=
  let ws := tenWaiters s t
  let s := ws.foldl (fun s x => if x.2.cmd.tenant = t then dropWaiter s x.1 x.2 else endWaiter s x.1 x.2 .cancelled cEpoch) s
  let s := { s with sema := { s.sema with slots := s.sema.slots.map fun x => (x.1, { x.2 with tries := x.2.tries.filter fun c => decide (c.tenant ≠ t) }) } }
  let s := (List.range 64).foldl (fun s l =>
    let x := laneSt s l
    setLane s l { x with waiting := x.waiting.filter fun c => decide (c.tenant ≠ t) }) s
  let s := (List.range 8).foldl (fun s n =>
    let x := portSt s n
    let old (h : Held) : Bool := decide (h.env.hdr.tenant = t) && isOlder (epochOf s t) h.env.hdr.epoch
    bump (setPort s n { x with hold := x.hold.filter fun h => !old h }) fCoreRdcnt1Dropped (count old x.hold)) s
  dropMarks { s with sema := { s.sema with paging := s.sema.paging.filter fun p => decide (p.item.tenant ≠ some t) } } t

/-- The epoch advances and the tenant's queues are flushed (R356 steps 1 to 3); then the work of a reset. `origin` is the die on which the
reset was commanded (R358). -/
def forceWork (s : State) (t epoch origin : Nat) (freeall : Bool) : State :=
  let s := enterReset s t freeall
  let s := setTen s t { tenSt s t with epoch := epoch, origin := origin }
  let s := (boundAgents s t).foldl (fun s a =>
    let (s, n) := flushAgent s a
    bump s (fTenEpcntFlushed t) n) s
  resetWork (forceDiscard s t) t freeall

/-- The header of an EPOCH notice (R358). -/
def epochHdr (s : State) (t d : Nat) : Hdr := ⟨dieOf s, d, t, epochOf s t, 0⟩

/-- EPOCH notices to every other member die in REACH. -/
def notifyGroup (s : State) (t origin : Nat) (resync : Bool) : State :=
  ((members s).filter fun d => decide (d ≠ dieOf s) && inReach s d).foldl
    (fun s d => sendTo s d (epochHdr s t d) (.epoch origin resync)) s

/-- TEN_CMD RESET without FORCE (R353, R355). -/
def doReset (s : State) (t : Nat) (freeall : Bool) : State :=
  if !fwRuns s then tenDone s t 3 .busyFw
  else if degradedOn s then tenDone s t 3 .degraded
  else if (tenSt s t).st ≠ .quiesced then tenDone s t 3 .tenantBusy
  else resetWork (tenBusy (enterReset s t freeall) t 3) t freeall

/-- TEN_CMD RESET with FORCE (R355, R356, R358). -/
def doForced (s : State) (t : Nat) (freeall : Bool) : State :=
  if !fwRuns s then tenDone s t 3 .busyFw
  else if degradedOn s then tenDone s t 3 .degraded
  else if (tenSt s t).st = .resetting then tenDone s t 3 .tenantBusy
  else
    let s := forceWork (tenBusy s t 3) t ((epochOf s t + 1) % 256) (dieOf s) freeall
    let s := notifyGroup s t (dieOf s) false
    if on s fCoreSpancfgMirror then sendOn s (6 + t % 2) ⟨epochHdr s t (dieOf s), .epoch (dieOf s) false⟩ else s

/-- A TEN_CMD RESET's busy bit is that of this die's own command. -/
def ownReset (s : State) (t : Nat) : Bool := on s (fTenCmdstBusy t) && decide (get s (fTenCmdstOp t) = 3)

/-- A broken mirror pair's tenant has been reset here; once it has been on the pair's die too, its bit clears (R311; log entry 11). -/
def mirrorReset (s : State) (t : Nat) : State :=
  if on s ⟨rCoreMirbrk (t / 64), t % 64, 1⟩ then { s with span := { s.span with mirDone := insNat s.span.mirDone t } } else s

/-- Firmware finishes a management command in progress: while it runs, and at a live update until its safe point (R426). -/
def fwFinishes (s : State) : Bool := on s fFwStatRun && on s fFwStatReady

/-- A QUIESCE of this die is still executing. -/
def ownQuiesce (s : State) (t : Nat) : Bool := on s (fTenCmdstBusy t) && decide (get s (fTenCmdstOp t) = 1)

/-- The work of a reset is complete (R354, R355). A QUIESCE that an epoch notice overtook completes with the tenant QUIESCED
(R350). -/
def resetDone (s : State) (t : Nat) : State :=
  let x := tenSt s t
  if x.st ≠ .resetting ∨ fwFinishes s = false ∨ coreRuns s = false then s
  else if x.freeall && s.sema.moves.any fun m => decide (m.tenant = t) then s
  else
    let lo := 1024 * get s (fSemaHtwBase t)
    let s := (allocatedOf s t).foldl (fun s e =>
      match e.2.state with
      | .backed => restImage s t e.1 (lo + e.1) x.freeall
      | .transit => restImage s t e.1 (lo + e.1) false
      | _ => s) s
    let s := setTen (mirrorReset s t) t { x with st := x.ret, freeall := false }
    if ownReset s t then tenDone s t 3 .ok
    else if x.ret = .quiesced ∧ ownQuiesce s t = true then tenDone s t 1 .ok
    else s

/-- An EPOCH notice (R358). -/
def epochNotice (s : State) (port : Nat) (h : Hdr) (origin : Nat) (resync : Bool) : State :=
  let t := h.tenant
  if isNewer (epochOf s t) h.epoch then
    let busy := decide ((tenSt s t).st = .resetting) && (tenSt s t).freeall
    let s := forceWork s t h.epoch origin busy
    if mirrorOn s && decide (6 ≤ port) then notifyGroup s t origin resync else s
  else s

/-- A die has entered REACH: it is told every epoch that is not 0, with the die on which its reset was commanded (R358). -/
def resync (s : State) (d : Nat) : State :=
  s.tens.foldl (fun s x => if x.2.epoch = 0 then s else sendTo s d (epochHdr s x.1 d) (.epoch x.2.origin true)) s

/-! Agents (R343, R344, R359). -/

/-- A command at a disabled agent's pier that has not left it completes with DISABLED (R359 step 1). -/
def disableItem (s : State) (p : PierNet) (a q : Nat) (i : Item) : State :=
  match i.st with
  | .unissued =>
    let c := stamp s p a q i
    failWith (mapItem s a q (fun j => decide (j = i)) fun j => { j with st := .stalled .bound, cmd := some c }) .pier c none .disabled cDisable 0
  | .stalled _ | .fenced | .draining | .refused _ _ =>
    match i.cmd with
    | some c => failWith s .pier c none .disabled cDisable 0
    | none => s
  | _ => s

/-- A non-blocking command that has left a disabled agent's pier: its reply is discarded (R359 step 3). -/
def skipItem (s : State) (a q : Nat) (i : Item) : State :=
  match i.st, i.cmd with
  | .out, some c =>
    if holdsQueue i.words then s
    else
      let s := { s with rt := { s.rt with gathers := s.rt.gathers.filter fun h => decide (h.cmd ≠ c) } }
      mapItem (traceFlushed s i) a q (holds c) fun j => { j with st := .skip, credits := [] }
  | _, _ => s

/-- AGT_BIND.EN is cleared (R359). -/
def beginDisable (s : State) (a : Nat) : State :=
  match pierOf s a with
  | none => s
  | some p =>
    let g := agentSt s a
    let s := setAgent s a { g with port := .disabling, queues := g.queues.map fun q => (q.1, { q.2 with drain := none }) }
    let each (s : State) (f : State → Nat → Item → State) : State :=
      g.queues.foldl (fun s q => q.2.items.foldl (fun s i => f s q.1 i) s) s
    let s := each s fun s q i => disableItem s p a q i
    let s := each s fun s q i => skipItem s a q i
    let away := outBlocking s fun c => decide (c.agent = a) && !isLane c.words
    let s := away.foldl (fun s c => sendCancel s c cDisable) s
    let s := endLanes s (fun c => decide (c.agent = a)) .disabled cDisable
    presentOf (disableInCtxs (decideLanes s) a) a

/-- No command of the agent remains outstanding: it is DISABLED (R359). -/
def disabled_ (s : State) (a : Nat) : State :=
  let g := agentSt s a
  if eclkRuns s = true ∧ g.port = .disabling ∧ g.queues.all (fun q => q.2.items.all fun i => i.st.finished) = true then
    setAgent s a { g with port := .disabled }
  else s

/-- Agents bound to a tenant (TEN_USE.AGENTS). -/
def agentsOf (s : State) (t : Nat) : Nat := (boundAgents s t).length

/-- A write to AGT_BIND[a] from a manager (R344, R359). -/
def bindWrite (s : State) (a : Nat) (w : Word) : State :=
  let t := wbits w 0 8
  let b := wbits w 8 1
  let e := wbits w 9 1
  let chT := decide (t ≠ get s (fAgtBindTenant a))
  let chB := decide (b ≠ get s (fAgtBindBound a))
  let setEn := decide (e = 1) && !on s (fAgtBindEn a)
  let clrEn := decide (e = 0) && on s (fAgtBindEn a)
  let idle := decide ((agentSt s a).port = .disabled) || (decide ((agentSt s a).port = .open) && !on s (fAgtBindBound a))
  let full := decide (b = 1) && (chT || chB) && decide (get s (fTenShare1Agents t) ≤ agentsOf s t)
  if ((chT || chB) && !idle) || (setEn && decide ((agentSt s a).port ≠ .disabled)) || full then raise s bCore 7 (dTen t a)
  else
    let s := put (put (put s (fAgtBindTenant a) t) (fAgtBindBound a) b) (fAgtBindEn a) e
    let s := if setEn then setAgent s a { agentSt s a with port := .open } else s
    if clrEn then beginDisable s a else if chT || chB || setEn then decideLanes s else s

/-! Shares and flags (R348, R365), import windows (R361). -/

/-- A write to TEN_SHARE0 (word 0) or TEN_SHARE1 (word 1) from a manager. -/
def shareWrite (s : State) (t word : Nat) (w : Word) : State :=
  let past (f c : Fld) : Bool := decide (get s c < wbits w f.lo f.w)
  if word = 0 then
    if past (fTenShare0Res t) (fKeyCap0Res t) || past (fTenShare0Waits t) (fKeyCap0Waits t)
        || past (fTenShare0Buf t) (fKeyCap0Buf t) || past (fTenShare0Weight t) (fKeyCap0Weight t)
    then raise s bCore 6 (dTen t 0)
    else wr s (rTenShare0 t) (w64 (w.toNat % 2 ^ 40))
  else if past (fTenShare1Cred t) (fKeyCap0Cred t) || past (fTenShare1Lanes t) (fKeyCap0Lanes t)
      || past (fTenShare1Agents t) (fKeyCap1Agents t)
  then raise s bCore 6 (dTen t 0)
  else wr s (rTenShare1 t) (w64 (w.toNat % 2 ^ 26))

/-- A write to TEN_CFG from a manager (R365). -/
def cfgWrite (s : State) (t : Nat) (w : Word) : State :=
  if (nbit w.toNat 0 && !on s (fKeyCap0Mir t)) || (nbit w.toNat 1 && !on s (fKeyCap0Exp t)) then raise s bCore 6 (dTen t 0)
  else wr s (rTenCfg t) (w64 (w.toNat % 4))

/-- A write to TEN_IMP[t][i] from a manager (R361). -/
def impWrite (s : State) (t i : Nat) (w : Word) : State :=
  let new : Word := w64 (w.toNat % 2 ^ 57)
  let cur := rd s (rTenImp t i)
  let touches := decide (new ≠ cur) && (on s (fTenImpValid t i) || nbit new.toNat 56)
  let busy := (allWaiters s).any fun x => decide (x.2.cmd.tenant = t) && decide (((slotAt s x.1).map (·.tenant)) ≠ some t)
  if touches && busy then raise s bCore 7 (dTen t 0) else wr s (rTenImp t i) new

/-! OVERDRAWN and TEN_USE (R345, R348). -/

def lanesOf (s : State) (t : Nat) : Nat :=
  count (fun l => on s (fTrsLcfgEn l) && decide (get s (fTrsLcfgTenant l) = t)) (List.range 64)

def credMax (s : State) (t : Nat) : Nat := maxBy (fun p => tenCredits s t p) (List.range 8)

/-- TEN_STAT.OVERDRAWN: bit k set when the use of share k is above it. -/
def overdrawn (s : State) (t : Nat) : Nat :=
  b2n (decide (256 * get s (fTenShare0Res t) < residentOf s t))
    + 2 * b2n (decide (64 * get s (fTenShare0Waits t) < tenWaits s t))
    + 4 * b2n (decide (get s (fTenShare0Buf t) < tenBuf s t))
    + 8 * b2n (decide (16 * get s (fTenShare1Cred t) < credMax s t))
    + 16 * b2n (decide (get s (fTenShare1Lanes t) < lanesOf s t))
    + 32 * b2n (decide (get s (fTenShare1Agents t) < agentsOf s t))

end Sys2Proof.Machine
end

