-- ==== Sys2Proof/Machine/Reach.lean ====
section
/-! DEFINITION. Knowledge of links and dies: NOTICE flits (R300), reach states and what changing them does (R124, R165, R179,
R233, R267, R288, R299, R301, R358), and the alignment tree's parent and route (R326, R330). -/
namespace Sys2Proof.Machine

/-- The ports that serve the span group: 0 to 5 in TORUS mode, 6 and 7 in DIRECT mode (R295, R298). -/
def groupPort (s : State) (p : Nat) : Bool :=
  match spanMode s with
  | 1 => decide (p < 6)
  | 2 => decide (6 ≤ p ∧ p < 8)
  | _ => false

/-- The ports that are UP. -/
def isUp (s : State) (p : Nat) : Bool := decide ((portSt s p).st = .up)

/-- A notice is sent on every UP port of the group but one. -/
def flood (s : State) (n : Notice) (except : Nat) : State :=
  ((List.range 8).filter fun p => decide (p ≠ except) && groupPort s p && isUp s p).foldl (fun s p =>
    let x := portSt s p
    setPort s p { x with notes := x.notes ++ [n] }) s

/-- This die's own notice of a port's new state, or with no port that it is ALIGNED (R300, R330). -/
def ownNotice (s : State) (port : Option Nat) (code : Nat) : State :=
  let k := s.span.nextNotice
  let s := { s with span := { s.span with nextNotice := (k + 1) % 65536, seen := (dieOf s, k) :: s.span.seen } }
  flood s ⟨dieOf s, port, code, k⟩ (port.getD 8)

/-- This die's own port of the link whose far end a port of another die is. -/
def ownEnd (s : State) (x : Nat × Nat) : Option Nat :=
  (List.range 8).find? fun p => groupPort s p && decide (neighbour s (dieOf s) p = x.1) && decide (facingPort s p = x.2)

/-- The state known of a port on a route. Of the far end of this die's own link no notice comes over that link (R300): the link is what
its own end is. -/
def knownState (s : State) (x : Nat × Nat) : Nat :=
  match ownEnd s x with
  | some p => linkOf s (dieOf s) p
  | none => linkOf s x.1 x.2

/-! Alignment tree (R326). -/

/-- This die is the time master. -/
def isMaster (s : State) : Bool :=
  decide (spanMode s = 0) || (decide (dieOf s = 0) && !(mirrorOn s && on s fCoreSpancfgMside))

/-- The port towards the parent, and the parent die. -/
def parentOf (s : State) : Option (Nat × Nat) :=
  if isMaster s then none
  else if dieOf s = 0 then some (6, 0)
  else (nextPort s (dieOf s) 0).map fun p => (p, neighbour s (dieOf s) p)

/-- The port towards the time master. -/
def masterPort (s : State) : Nat := ((parentOf s).map (·.1)).getD 0

/-- DT_ALSTAT.STATE codes (R330). -/
abbrev alIdle : Nat := 0
abbrev alGather : Nat := 1
abbrev alWait : Nat := 2
abbrev alFine : Nat := 3
abbrev alAligned : Nat := 4
abbrev alHold : Nat := 5
abbrev alFailed : Nat := 6

def alState (s : State) : Nat := get s fDtAlstatState
def setAl (s : State) (st : Nat) : State := put s fDtAlstatState st

/-- The ports of the route to the master: on side B by side B's die 0 and its port 6, and of side A's as far as this die sees it. -/
def masterRoute (s : State) : List (Nat × Nat) :=
  let hops := route s (dieOf s) 0 ++ (if mirrorOn s && on s fCoreSpancfgMside then [(0, 6)] else [])
  hops.flatMap fun h => if h.2 = 6 ∧ spanMode s = 1 then [h] else [h, (neighbour s h.1 h.2, facingPort s h.2)]

/-- A port is DOWN or FAILED. -/
def isBroken (s : State) (x : Nat × Nat) : Bool := decide (knownState s x = 5) || decide (knownState s x = 6)

/-- ALIGNED becomes HOLD while the route to the master is broken, and HOLD becomes FINE when it is UP (R330). -/
def timeLinks (s : State) : State :=
  if isMaster s then s
  else if alState s = alAligned ∧ (masterRoute s).any (isBroken s) = true then setAl s alHold
  else if alState s = alHold ∧ (masterRoute s).all (fun x => decide (knownState s x = 4)) = true then
    let s := setAl s alFine
    { s with dt := { s.dt with good := 0 } }
  else s

/-! Reach states (R299). -/

/-- Alignment between this die and another has completed: this die has reached ALIGNED and has the other's NOTICE. -/
def alignedWith (s : State) (d : Nat) : Bool := s.span.aligned.contains (dieOf s) && s.span.aligned.contains d

/-- Every link of the route to a die and of its reply path is UP. -/
def pathUp (s : State) (d : Nat) : Bool := (pathPorts s d).all fun x => decide (knownState s x = 4)

def setReach (s : State) (d : Nat) (reach lost : Bool) : State :=
  put (put s ⟨rCoreReach, d, 1⟩ (b2n reach)) ⟨rCoreLost, d, 1⟩ (b2n lost)

/-- A die enters REACH: numbering restarts on both sides, and every epoch is sent (R288, R358). -/
def enterReach (s : State) (d : Nat) : State :=
  let s := setReach s d true false
  let fa (g : Nat × Agent) : Nat × Agent := (g.1, { g.2 with qseq := g.2.qseq.filter fun x => decide (x.1 % 64 ≠ d) })
  let fp (p : Nat × Port) : Nat × Port := (p.1, { p.2 with
      hold := p.2.hold.filter fun h => decide (h.env.hdr.src ≠ d), qexp := p.2.qexp.filter fun x => decide (x.1 / 8192 ≠ d)
      gone := p.2.gone.filter fun x => decide (x.1 / 8192 ≠ d) })
  resync { s with agents := s.agents.map fa, ports := s.ports.map fp } d

/-- The blocking commands that piers hold towards a lost die end with RESOURCE (R124). A non-blocking one that has left its
pier stays without a reply (R389). -/
def endLostCmds (s : State) (d : Nat) : State :=
  (allItems s).foldl (fun s x =>
    match x.2.2.st, x.2.2.cmd with
    | .skip, _ => s
    | .done _ _, _ => s
    | .unissued, _ => s
    | _, some c =>
      if isLane c.words || !blocking c.words || decide (pDie c.words ≠ d) then s
      else failWith (releasePlace s c) .pier c none .resource cLinkDown 0
    | _, none => s) s

/-- The ROUTE parts whose reports a lost die still owes fail with RESOURCE (R179). -/
def endLostParts (s : State) (d : Nat) : State :=
  s.rt.gathers.foldl (fun s g =>
    match g.waiting.find? fun w => decide (w.1 = d) with
    | none => s
    | some w =>
      let s := (idxOn g.cmd.words d).foldl (fun s _ => countStage s g.cmd none .resource) s
      gatherReport s g.cmd d w.2 (2 ^ 32 - 1) (idxOn g.cmd.words d) .resource none) s

/-! Messages to a lost die in the port buffers (R301). -/

/-- Destination die and length of a message by its header word (R280). -/
def headDst (w : Word) : Nat := wbits w 9 6
def headLen (w : Word) : Nat := max 1 (wbits w 21 10)

/-- The slots of a flit body without the messages to a die, from slot i on: `open_` says whether the message that goes on is one of
them and how many of its words are left. Their words become padding, and their starts are no starts (R280). Answers the starts,
the words and what stays open. -/
def stripSlots (d sstart : Nat) : Nat → Bool × Nat → List Word → Nat × List Word × (Bool × Nat)
  | _, o, [] => (0, [], o)
  | i, o, w :: rest =>
    let (cut, left) := if sstart.testBit i then (decide (headDst w = d), headLen w) else o
    let cut := cut && decide (0 < left)
    let (st, ws, o) := stripSlots d sstart (i + 1) (cut, left - 1) rest
    (st + (if sstart.testBit i && !cut then 2 ^ i else 0), (if cut then 0 else w) :: ws, o)

/-- The replay buffer without the messages to a die. A message begun in a flit already acknowledged goes on. -/
def stripReplay (d : Nat) : Bool × Nat → List Replay → List Replay
  | _, [] => []
  | o, r :: rest =>
    if r.flit.ftype = 1 then
      let (st, ws, o) := stripSlots d r.flit.sstart 0 o r.flit.body
      { r with flit := { r.flit with sstart := st, body := ws } } :: stripReplay d o rest
    else r :: stripReplay d o rest

/-- The messages to a die leave a port's transmit queue, replay buffer, receive buffer and capture share (R301). The credits of words
received go back (R287); those spent on words now padding stay spent until the link restarts (log entry 49). -/
def discardTo (d : Nat) (x : Port) : Port :=
  let mine (ws : List Word) : Bool := decide (headDst (pw ws 0) = d)
  let gone := x.rxMsgs.filter mine
  let owed := gone.foldl (fun m ws =>
    let v := 2 * wbits (pw ws 0) 0 3 + wbits (pw ws 0) 3 1
    mset m v 0 (mgetD m v 0 + ws.length)) x.owed
  { x with
    sent := x.sent.filter fun e => decide (e.hdr.dst ≠ d), replay := stripReplay d (false, 0) x.replay
    txOpen := x.txOpen.filter (fun o => decide (o.2.1 ≠ d)), rxMsgs := x.rxMsgs.filter (fun ws => !mine ws), owed := owed
    captured := x.captured.filter (fun e => decide (e.hdr.dst ≠ d)), later := x.later.filter fun e => decide (e.hdr.dst ≠ d) }

/-- A die is declared LOST (R301): what this die does about it. -/
def loseDie (s : State) (d : Nat) : State :=
  let s := setReach s d false true
  let s := endLostParts (endLostCmds s d) d
  let ws := (allWaiters s).filter fun x => decide (x.2.cmd.die = d)
  let s := ws.foldl (fun s x => dropWaiter s x.1 x.2) s
  let s := (List.range 64).foldl (fun s l =>
    if on s (fTrsLcfgEn l) && spanning s l
        && (decide (get s (fTrsLcfgXroot l) = d) || (isRoot s l && nbit (rd s (rTrsLxdie l)).toNat d))
    then breakLane s l d else s) s
  let s := lostInCtxs s d
  (List.range 8).foldl (fun s n =>
    let x := portSt s n
    let gone := count (fun h : Held => decide (h.env.hdr.src = d)) x.hold
    let hold := x.hold.filter fun h => decide (h.env.hdr.src ≠ d)
    bump (setPort s n (discardTo d { x with hold := hold })) fCoreRdcnt1Dropped gone) s

/-- Reach states are recomputed (R299). -/
def reachUpdate (s : State) : State :=
  ((members s).filter fun d => decide (d ≠ dieOf s)).foldl (fun s d =>
    if inReach s d then (if pathUp s d then s else loseDie s d)
    else if pathUp s d && alignedWith s d then enterReach s d
    else s) s

/-- A port of some die has a new state: PENDING dies behind one that FAILED or went OFF are LOST, and the rest is recomputed
(R299). -/
def linkChanged (s : State) (d p code : Nat) : State :=
  let s := if d = dieOf s then s else { s with span := { s.span with links := mset s.span.links (8 * d + p) 0 code } }
  let s := if code = 6 ∨ code = 0 then
      ((members s).filter fun e => decide (e ≠ dieOf s) && isPending s e && (pathPorts s e).contains (d, p)).foldl loseDie s
    else s
  timeLinks (reachUpdate s)

/-- A NOTICE flit is accepted on a port (R300). -/
def noticeFlit (s : State) (port : Nat) (n : Notice) : State :=
  if !eclkRuns s || !isUp s port || s.span.seen.contains (n.origin, n.number) then s
  else
    let s := { s with span := { s.span with seen := (n.origin, n.number) :: s.span.seen } }
    let s := flood s n port
    match n.port with
    | some p => linkChanged s n.origin p n.state
    | none =>
      let s := if n.state = alAligned then { s with span := { s.span with aligned := insNat s.span.aligned n.origin } } else s
      reachUpdate s

end Sys2Proof.Machine
end

