-- ==== Sys2Proof/Machine/DeckTime.lean ====
section
/-! DEFINITION. Deck Time: alignment of the span group (R326 to R333), the phase slew (R316), pier offsets (R323 to R325). -/
namespace Sys2Proof.Machine

/-- The header of a SYNC message: no tenant's. -/
def syncHdr (s : State) (d : Nat) : Hdr := ⟨dieOf s, d, 0, 0, 0⟩

/-- Transmit and receive stamps (R328): the codeword's Deck Time at the PMA with the port's latency. -/
def txStamp (s : State) (p tx : Nat) : Nat := tx + get s (fDtPortcalTxlat p)
def rxStamp (s : State) (p rx : Nat) : Nat := rx - get s (fDtPortcalRxlat p)

/-- FAILED is entered (R330). -/
def alignFails (s : State) : State := raise (setAl s alFailed) bTime 2 (((parentOf s).map (·.2)).getD 0)

/-- ALIGNED is entered: the first time a NOTICE leaves; it is left at once where the route to the master is broken (R330). -/
def reachAligned (s : State) : State :=
  let s := setAl s alAligned
  if s.span.aligned.contains (dieOf s) then timeLinks s
  else
    let s := { s with span := { s.span with aligned := insNat s.span.aligned (dieOf s) } }
    timeLinks (reachUpdate (ownNotice s none alAligned))

/-- The one forward step of a cold reset (R331). What reads the counter later sees it before the step or after it (R337). -/
def stepTo (s : State) (t : Nat) : State :=
  let s := put (put s fDtStepStep (t - s.now)) fDtStatStepped 1
  { s with now := t, dt := { s.dt with jump := some (s.now, t) } }

/-- GATHER ends: the master steps to M and is ALIGNED (R330, R331). -/
def gatherEnd (s : State) : State :=
  let cmax := max s.now (s.dt.maxCoarse / 16)
  reachAligned (stepTo s ((cmax / 2 ^ 20 + 2) * 2 ^ 20))

/-- DT_CMD ALIGN (R330, R339). In SINGLE mode the die is ALIGNED at once (R326). A COARSE leaves at tx. -/
def doAlign (s : State) (tx : Nat) : State :=
  if alState s ≠ alIdle then s
  else
    let s := { s with dt := { s.dt with alignAt := s.now, maxCoarse := 0, good := 0, lastReq := s.now, answered := true } }
    if spanMode s = 0 then reachAligned s
    else if isMaster s then
      let s := setAl s alGather
      if (members s).length ≤ 1 then gatherEnd s else s
    else
      let p := masterPort s
      setAl (sendOn s p ⟨syncHdr s 0, .coarse ⟨false, 0, txStamp s p tx, 0, 0⟩⟩) alWait

/-- A COARSE reaches the master (R330). -/
def coarseAt (s : State) (h : Hdr) (m : Sync) : State :=
  if alState s ≠ alGather then s
  else
    let s := put s ⟨rDtHeard, h.src, 1⟩ 1
    let s := { s with dt := { s.dt with maxCoarse := max s.dt.maxCoarse m.t1 } }
    if ((members s).filter fun d => decide (d ≠ dieOf s)).all (fun d => nbit (rd s rDtHeard).toNat d) then gatherEnd s else s

/-- GLIM, 0 as 1, above 1,000 as 1,000. -/
def glimOf (s : State) : Nat := us (max 1 (min 1000 (get s fDtAlctlGlim)))

/-- GLIM has passed on the master. -/
def glimPasses (s : State) : State :=
  if alState s = alGather ∧ s.dt.alignAt + glimOf s ≤ s.now then gatherEnd s else s

/-- ALIM has passed without the die reaching ALIGNED (R330). -/
def alimPasses (s : State) : State :=
  let st := alState s
  if st ≠ alIdle ∧ st ≠ alFailed ∧ s.span.aligned.contains (dieOf s) = false
      ∧ s.dt.alignAt + us (100 * max 1 (get s fDtAlctlAlim)) ≤ s.now
  then alignFails s else s

/-- The exchange period of a state (R330): none where the die makes no exchange. -/
def period (s : State) : Option Nat :=
  let st := alState s
  if st = alWait ∨ st = alFine then some (us 1)
  else if st = alAligned ∧ isMaster s = false then some (us (2 ^ max 4 (get s fDtAlctlPer)))
  else none

/-- A REQ to the parent (R330). -/
def doExchange (s : State) (tx : Nat) : State :=
  match period s, parentOf s with
  | some n, some (p, d) =>
    if s.now < s.dt.lastReq + n ∨ isUp s p = false ∨ eclkRuns s = false then s
    else
      let k := (s.dt.xseq + 1) % 65536
      let m : Sync := ⟨decide (alState s = alAligned), k, txStamp s p tx, 0, 0⟩
      sendOn { s with dt := { s.dt with xseq := k, lastReq := s.now, answered := false } } p ⟨syncHdr s d, .syncReq m 0 0⟩
  | _, _ => s

/-- A REQ of a child is answered in every state (R330). -/
def answerReq (s : State) (port : Nat) (h : Hdr) (m : Sync) (rx tx : Nat) : State :=
  let r : Sync := ⟨decide (alState s = alAligned), m.xseq, m.t1, rxStamp s port rx, txStamp s port tx⟩
  sendOn s port ⟨syncHdr s h.src, .syncResp r 0⟩

/-- theta and delta of an exchange (R329), halves rounded down. -/
def thetaOf (t1 t2 t3 t4 : Nat) : Int := (((t2 : Int) - t1) - ((t4 : Int) - t3)) / 2
def deltaOf (t1 t2 t3 t4 : Nat) : Int := (((t2 : Int) - t1) + ((t4 : Int) - t3)) / 2

/-- Saturation to 16 bits, signed and unsigned. -/
def sat16s (x : Int) : Nat := (max (-32768) (min 32767 x) % 65536).toNat
def sat16u (x : Int) : Nat := (max 0 (min 65535 x)).toNat

/-- STEPTHR in sixteenths, 0 as 1 dt. -/
def stepThr (s : State) : Int := 16 * max 1 (get s fDtAlctlStepthr)

def setSlew (s : State) (x : Int) : State := { s with dt := { s.dt with slew := x } }

/-- What an exchange in ALIGNED records (R332): both sources in one cycle, by rank (R378). ALIGN_LOST is raised as its condition
begins (R375). -/
def driftCheck (s : State) (theta : Int) : State :=
  let par := ((parentOf s).map (·.2)).getD 0
  let drift := decide (get s fDtAlctlDriftthr < theta.natAbs)
  let lost := decide (64 < theta.natAbs)
  let began := lost && !on s fDtStatOob
  let s := if drift then bump s fDtCntDrift else s
  let s := if lost then put s fDtStatOob 1 else s
  raiseAll s bTime ((if drift then [(4, par)] else []) ++ (if began then [(3, par)] else []))

/-- A RESP of the parent (R329 to R332). -/
def respAt (s : State) (port : Nat) (m : Sync) (rx : Nat) : State :=
  let st := alState s
  if s.dt.answered || decide (m.xseq ≠ s.dt.xseq) || decide ((parentOf s).map (·.1) ≠ some port)
      || !(decide (st = alWait) || decide (st = alFine) || decide (st = alAligned)) then s
  else
    let t4 := rxStamp s port rx
    let theta := thetaOf m.t1 m.t2 m.t3 t4
    let s := { s with dt := { s.dt with answered := true } }
    let s := bump (put (put s fDtAlstatTheta (sat16s theta)) fDtAlstatDelay (sat16u (deltaOf m.t1 m.t2 m.t3 t4))) fDtCntSyncx
    let s := if theta.natAbs ≤ 64 then put s fDtStatOob 0 else s
    if st = alWait then
      if !m.aligned then s
      else if theta ≤ -stepThr s then alignFails s
      else
        let s := { setAl s alFine with dt := { s.dt with good := 0 } }
        if stepThr s ≤ theta ∧ on s fDtStatStepped = false then
          let n := (theta / 16).toNat
          setSlew (stepTo s (s.now + n)) (theta - 16 * n)
        else setSlew s theta
    else if st = alFine then
      let good := if theta.natAbs ≤ 4 then s.dt.good + 1 else 0
      let s := setSlew { s with dt := { s.dt with good := good } } theta
      if 8 ≤ good then reachAligned s else s
    else setSlew (driftCheck s theta) theta

/-- One phase step of a sixteenth towards the residual's end, at most one in every 2^SLEW dt (R316). -/
def slewStep_ (s : State) : State :=
  let n := 2 ^ max 4 (min 10 (get s fDtAlctlSlew))
  if s.dt.slew = 0 ∨ s.now < s.dt.lastSlew + n then s
  else { s with dt := { s.dt with slew := if 0 < s.dt.slew then s.dt.slew - 1 else s.dt.slew + 1, lastSlew := s.now } }

/-- The multiplier locks (R315). -/
def lockAt (s : State) : State := if s.clk.inReset then s else put s fDtStatLock 1

/-- ZS_DTREF is lost, and has returned (R333). -/
def refLoss (s : State) : State :=
  if !on s fDtStatLock || on s fDtStatHoldover then s else raise (put s fDtStatHoldover 1) bTime 0 0
def refBack (s : State) : State := put s fDtStatHoldover 0

/-! Offset measurement (R323 to R325). -/

/-- Whether a pier is in the measurement under way. -/
def measuring (s : State) (p : PierNet) : Bool :=
  !p.priv && match s.dt.measure with
    | some none => true
    | some (some q) => decide (p.pier = q)
    | none => false

/-- Insertion of a probe by its round-trip time. -/
def insProbe : List (Nat × Nat × Nat) → Nat × Nat × Nat → List (Nat × Nat × Nat)
  | [], x => [x]
  | y :: r, x => if x.2.2 - x.1 < y.2.2 - y.1 then x :: y :: r else y :: insProbe r x

/-- O_p of 16 probes (S1, P, S2): the mean of (S1 + S2)/2 - P over the 4 with the smallest S2 - S1, rounded down. -/
def offsetOf (probes : List (Nat × Nat × Nat)) : Int :=
  let best := (probes.foldl insProbe []).take 4
  best.foldl (fun n x => n + ((x.1 : Int) + x.2.2 - 2 * x.2.1)) 0 / 8

/-- A measurement begins. -/
def beginMeasure (s : State) (which : Option Nat) : State :=
  put { s with dt := { s.dt with measure := some which, measAt := s.now, failed := [] } } fDtPmstatBusy 1

/-- O_p of a pier changes: the value of the measurement before firmware starts is applied at once, a later change gradually from
what the pier applies (R323, R325). -/
def changeOfs (s : State) (p : Nat) (valid : Bool) (o : Int) : State :=
  let first := !on s fDtPmstatDone
  let was := ofsNow s p
  let s := put (put s (fDtPofsOfs p) ((o % 2 ^ 32).toNat)) (fDtPofsValid p) (b2n valid)
  setPier s p { pierSt s p with ofs := if first then ofsTarget s p else was, ofsAt := s.now }

/-- A pier has not answered its probes (R324). -/
def pierFails (s : State) (p : Nat) : State :=
  raise { changeOfs s p false 0 with dt := { s.dt with failed := s.dt.failed ++ [p] } } bTime 1 p

/-- The 10 us that a pier has to answer are over (R324). -/
def measureLate (s : State) : Bool := decide (s.dt.measAt + us 10 ≤ s.now)

/-- A pier has answered its 16 probes; one whose clock is stopped answers none (R492). -/
def hasAnswered (s : State) (x : Nat × List (Nat × Nat × Nat)) : Bool := decide (x.2.length = 16) && !(pierSt s x.1).stopped

/-- The piers of the measurement that have neither answered nor been recorded as failed. -/
def unanswered (s : State) (probes : List (Nat × List (Nat × Nat × Nat))) : List Nat :=
  ((s.net.piers.filter fun p => measuring s p && !s.dt.failed.contains p.pier
    && !(probes.any fun x => decide (x.1 = p.pier) && hasAnswered s x)).map (·.pier))

/-- The measurement completes, once every pier measured has answered its 16 probes or has had its 10 us: each that answered has its
offset, the others fail (R323, R324). -/
def measureEnds (s : State) (probes : List (Nat × List (Nat × Nat × Nat))) : State :=
  match s.dt.measure with
  | none => s
  | some _ =>
    let late := unanswered s probes
    if late ≠ [] ∧ measureLate s = false then s
    else
      let s := late.foldl pierFails s
      let s := probes.foldl (fun s x =>
        match pierNet s x.1 with
        | some p => if measuring s p && !s.dt.failed.contains x.1 && hasAnswered s x then changeOfs s x.1 true (offsetOf x.2) else s
        | none => s) s
      put (put { s with dt := { s.dt with measure := none } } fDtPmstatBusy 0) fDtPmstatDone 1

/-- A pier has not answered its probes within 10 us (R324). -/
def measureFails (s : State) (p : Nat) : State :=
  match pierNet s p with
  | some n => if measuring s n && measureLate s && !s.dt.failed.contains p then pierFails s p else s
  | none => s

/-- A pier's client clock starts or restarts: the pier has reloaded its Deck Time (R321). -/
def pierRestarts (s : State) (p : Nat) : State :=
  match pierNet s p with
  | some n => present (setPier s p { pierSt s p with stopped := false }) n
  | none => s

end Sys2Proof.Machine
end

