-- ==== Sys2Proof/Machine/Viaduct.lean ====
section
/-! DEFINITION. Viaduct messages (R280, R281): what a receiving port does with each, the hold table and QSEQ order (R263 to
R267, R288), refusals and replies (R289, R342, R357, R499), mirror records (R307 to R312), capture during a freeze (R305). -/
namespace Sys2Proof.Machine

/-! Messages. -/

/-- MTYPE (R281). A cancel has none. -/
def msgType : Msg → Nat
  | .cmd _ => 0 | .xcmd _ => 1 | .rpart _ => 2 | .reply _ _ => 3 | .preport _ _ => 4 | .refuse _ _ => 5 | .cpart _ _ => 6
  | .cres _ _ _ => 7 | .cclose _ _ _ => 8 | .cabort _ _ _ => 9 | .wire _ _ => 10 | .lcomp _ _ _ => 11 | .time _ _ _ => 12
  | .syncReq _ _ _ => 13 | .syncResp _ _ => 13 | .coarse _ => 13 | .epoch _ _ => 14 | .mrec _ => 15 | .mack _ _ => 16
  | .cancel _ _ => 31

/-- The virtual channel (R281). -/
def msgVc : Msg → Nat
  | .cmd c => vcOf c.words
  | .reply _ _ => 2 | .preport _ _ => 2 | .refuse _ _ => 2 | .mack _ _ => 2
  | .cpart _ _ => 3 | .cres _ _ _ => 3 | .cclose _ _ _ => 3 | .cabort _ _ _ => 3
  | .epoch _ _ => 4
  | .wire _ _ => 5 | .lcomp _ _ _ => 5 | .time _ _ _ => 5 | .syncReq _ _ _ => 5 | .syncResp _ _ => 5 | .coarse _ => 5
  | _ => 0

/-- The length of a message in 8-byte units, its header included (R280, R281, R302, R303, R327, R358, R499); where the manual
gives no layout, a free value (log entry 7). -/
def msgLen (m : Msg) : Nat :=
  1 + match m with
  | .cmd _ => 6
  | .xcmd _ => 18
  | .rpart p => 4 + (p.entries.length + 1) / 2
  | .reply _ _ => 3
  | .refuse _ _ => 3
  | .wire _ _ => 1
  | .lcomp _ _ _ => 2
  | .time _ _ _ => 2
  | .syncReq _ _ _ => 4
  | .syncResp _ _ => 4
  | .coarse _ => 4
  | .epoch _ _ => 1
  | m => Config.bodyUnits (msgType m)

/-- The command and delivered-write count of a command message; a cancel is none. -/
def cmdOf : Msg → Option (Cmd × Option (BitVec 32))
  | .cmd c => some (c, dwOf c.words)
  | .xcmd c => some (c, dwOf c.words)
  | .rpart p => some (p.cmd, p.dw)
  | _ => none

/-- A command of a message carries the die, tenant and epoch of its header (R280), and its 40-bit deadline means the Deck Time
nearest to the reader's (R318). -/
def stampOf (now : Nat) (h : Hdr) (c : Cmd) : Cmd :=
  { c with
    die := h.src, tenant := h.tenant, epoch := h.epoch, deadline := c.deadline.map fun d => fullTime now (d % 2 ^ 40) }

def stampMsg (now : Nat) (h : Hdr) : Msg → Msg
  | .cmd c => .cmd (stampOf now h c)
  | .xcmd c => .xcmd (stampOf now h c)
  | .rpart p => .rpart { p with cmd := stampOf now h p.cmd }
  | m => m

/-- The command of this die that a returning message answers (R281): the unfinished one of that queue and entry with that packet
and time of issue. One the pier no longer holds has none, though its entry serves a newer command (R124; log entry 114). -/
def ownCmd (s : State) (c : Cmd) : Option Cmd :=
  ((queueOf s c.agent c.queue).items.find? fun i =>
    decide (i.entry = c.entry) && !i.st.finished &&
      i.cmd.any fun d => decide (d.words = c.words) && decide (d.issue = c.issue)).bind (·.cmd)

/-! The hold table (R263 to R267, R288). -/

/-- The queue a command belongs to, as the ports key it. -/
def qKey (c : Cmd) : Nat := 8192 * c.die + 4 * c.agent + c.queue
def heldKey (h : Held) : Nat := ((cmdOf h.env.msg).map fun x => qKey x.1).getD 0

/-- A QSEQ below the expected one: its predecessors have all been seen. -/
def seqSeen (exp q : Nat) : Bool := decide ((exp + 65535 - q % 65536) % 65536 < 32768)

/-- One QSEQ precedes another. -/
def seqBefore (a b : Nat) : Bool := decide (a ≠ b) && decide ((b + 65536 - a % 65536) % 65536 < 32768)

/-- The comparison of R263. A command of an older epoch is not held: it ends at its object. -/
def dwPass (s : State) (c : Cmd) (dw : Option (BitVec 32)) : Bool :=
  isOlder (epochOf s c.tenant) c.epoch || match dw with
  | none => true
  | some w => decide ((get s ⟨rCoreDwc c.die, 0, 32⟩ + 2 ^ 32 - w.toNat) % 2 ^ 32 < 2 ^ 31)

/-- The port holds the command with a QSEQ, or has refused it for good. -/
def hasSeq (x : Port) (k e : Nat) : Bool :=
  x.hold.any (fun h => decide (heldKey h = k) && decide (h.env.hdr.qseq = e)) || x.gone.contains (k, e)

/-- The next QSEQ expected of a queue, past what the port has of it. -/
def expAfter (x : Port) (k : Nat) : Nat → Nat → Nat
  | 0, e => e
  | n + 1, e => if hasSeq x k e then expAfter x k n ((e + 1) % 65536) else e

def qexpOf (x : Port) (k : Nat) : Nat := mgetD x.qexp k 0

/-- The port has seen the command with this QSEQ. -/
def sawSeq (x : Port) (k q : Nat) : Port :=
  let e := qexpOf x k
  let e := if q = e then (e + 1) % 65536 else e
  let e := expAfter x k (x.hold.length + x.gone.length) e
  { x with qexp := mset x.qexp k 0 e, gone := x.gone.filter fun g => decide (g.1 ≠ k) || !seqSeen e g.2 }

/-- Where a message of a port for another die arises: it crosses Girder only where its way leaves by another port (R296). -/
def portOrigin (s : State) (n d : Nat) : Origin := if firstPort s d = n then .apart else .router (portRouter n)

/-- A part's entries all fail at a port with a status, and are counted so (R178). -/
def partFails (s : State) (n : Nat) (p : RPart) (st : Status) : State :=
  let mask := p.entries.foldl (fun n e => n ||| 2 ^ e.idx) 0
  let s := p.entries.foldl (fun s _ => countStage s p.cmd none st) s
  sendFrom s (portOrigin s n p.cmd.die) p.cmd.die (hdrOf s p.cmd p.cmd.die) (.preport p.cmd ⟨p.tag, mask, st, none⟩)

/-- A command message goes on from the port to Girder: to the bank of its object (R12, R182), or a part to its coordinator at the
port (R170). -/
def forwardCmd (s : State) (n : Nat) (m : Msg) : State :=
  match m with
  | .rpart p =>
    let (s, t) := newTag s
    startPart s t p.cmd (some (n, p.cmd.die, p.tag)) p.entries
  | .cmd c => toBank s (portRouter n) c false none
  | .xcmd c => toBank s (portRouter n) c false none
  | _ => s

/-- A held command may go on (R263, R264, R288). -/
def mayGo (s : State) (x : Port) (h : Held) : Bool :=
  match cmdOf h.env.msg with
  | none => true
  | some (c, dw) =>
    seqSeen (qexpOf x (qKey c)) h.env.hdr.qseq && dwPass s c dw
      && !(x.hold.any fun g => decide (heldKey g = qKey c) && seqBefore g.env.hdr.qseq h.env.hdr.qseq)

/-- The held commands of a queue that may go on do so, in order; the last argument bounds how many. -/
def pump (n k : Nat) : Nat → State → State
  | 0, s => s
  | f + 1, s =>
    let x := portSt s n
    match takeFirst (fun h => decide (heldKey h = k) && mayGo s x h) x.hold with
    | none => s
    | some (h, rest) => pump n k f (forwardCmd (setPort s n { x with hold := rest }) n h.env.msg)

def pumpAll (s : State) (n k : Nat) : State := pump n k (portSt s n).hold.length s

/-- Held commands on the die (CORE_RDSTAT.HELD). -/
def heldCount (s : State) : Nat := sumBy (fun p : Nat × Port => p.2.hold.length) s.ports

/-- A command message is refused back (R288, R342, R357, R499). One with TRY completes with FULL at its pier (R90), so that its
number is passed over here; a ROUTE part is sent again whatever its TRY. -/
def refuseBack (s : State) (n : Nat) (e : Envelope) (c : Cmd) (reason : Nat) : State :=
  let s := sendFrom s (portOrigin s n c.die) c.die (hdrOf s c c.die) (.refuse c reason)
  let x := portSt s n
  if fTRY c.words && decide (pOp c.words ≠ some .route) && !seqSeen (qexpOf x (qKey c)) e.hdr.qseq then
    pumpAll (setPort s n (sawSeq { x with gone := x.gone ++ [(qKey c, e.hdr.qseq)] } (qKey c) e.hdr.qseq)) n (qKey c)
  else s

/-- HOLDLIM, 0 as 1 us. -/
def holdLim (s : State) : Nat := us (max 1 (get s fCoreRdctlHoldlim))

/-- A command message finds its place: on to Girder, into the hold table, or back where that is full (R263 to R265, R288). -/
def portCmd (s : State) (n : Nat) (e : Envelope) (c : Cmd) (dw : Option (BitVec 32)) : State :=
  let x := portSt s n
  let k := qKey c
  let early := decide (e.hdr.qseq ≠ qexpOf x k) && !seqSeen (qexpOf x k) e.hdr.qseq
  let behind := x.hold.any fun h => decide (heldKey h = k) && seqBefore h.env.hdr.qseq e.hdr.qseq
  if early || behind || !dwPass s c dw then
    if 128 ≤ x.hold.length then refuseBack (bump s fCoreRdcnt1Refused) n e c 1
    else
      let h : Held := ⟨e, s.now, ceilTo 16 (s.now + holdLim s), dw.isSome⟩
      let s := setPort s n (sawSeq { x with hold := x.hold ++ [h] } k e.hdr.qseq)
      let s := hwm (bump s fCoreRdcnt0Holds) fCoreRdstatHeldHwm (heldCount s)
      countEv s (Ev.ofCmd 0x1E c none none)
  else
    pumpAll (forwardCmd (setPort s n (sawSeq x k e.hdr.qseq)) n e.msg) n k

/-- A command message arrives at its home die (R288, R342, R357, R396). -/
def recvCmd (s : State) (n : Nat) (e : Envelope) (c : Cmd) (dw : Option (BitVec 32)) : State :=
  if degradedOn s then
    match e.msg with
    | .rpart p => partFails s n p .degraded
    | _ => failPlain s (portOrigin s n c.die) c none .degraded
  else if !inReach s c.die || isNewer (epochOf s c.tenant) c.epoch then refuseBack s n e c 2
  else if !isOlder (epochOf s c.tenant) c.epoch && decide ((tenSt s c.tenant).st ≠ .active) then refuseBack s n e c 2
  else portCmd s n e c dw

/-- The die's view of a delivered-write counter moves (R260; the input for the die itself is ignored, R484). -/
def dwcMoves (s : State) (die : Nat) (dwc : BitVec 32) : State :=
  if die = dieOf s then s else put s ⟨rCoreDwc die, 0, 32⟩ dwc.toNat

/-- A delivered-write counter moves: that of the die of the command held at a place of the hold table, which is released if it may go
now (R263, R264), or past the 128 places that of the die `i - 128` (log entry 35). -/
def holdRelease_ (s : State) (n i : Nat) (dwc : BitVec 32) : State :=
  if 128 ≤ i then dwcMoves s (i - 128) dwc
  else
    match (portSt s n).hold[i]? with
    | none => s
    | some h =>
      match cmdOf h.env.msg with
      | none => s
      | some (c, _) =>
        let s := dwcMoves s c.die dwc
        let x := portSt s n
        if coreRuns s = true ∧ mayGo s x h = true then
          pumpAll (forwardCmd (setPort s n { x with hold := dropAt x.hold i }) n h.env.msg) n (qKey c)
        else s

/-- The slot of an object of a tenant, where it is resident. -/
def residentSlot (s : State) (t n : Nat) : Option Nat :=
  match htmIdx s t n with
  | none => none
  | some i => let e := htmAt s i; if e.state = .resident then some (slotKey e.slice e.slot) else none

/-- The waiters of an object are marked with cause DATA_LATE (R266 step 5). -/
def markLate (s : State) (t n : Nat) : State :=
  match residentSlot s t n with
  | none => s
  | some key =>
    match slotAt s key with
    | none => s
    | some x =>
      let ws := x.waiters.map fun w => if w.cause.isSome then w else { w with cause := some (cDataLate, dieOf s) }
      setSlot s key { x with waiters := ws }

/-- A held remote release is discarded at its limit (R266). -/
def holdDiscard_ (s : State) (n i : Nat) : State :=
  match (portSt s n).hold[i]? with
  | none => s
  | some h =>
    match cmdOf h.env.msg with
    | none => s
    | some (c, _) =>
      if !coreRuns s || !h.rdata || decide (s.now < h.limit) then s
      else
        let x := portSt s n
        let gone := setPort s n { x with hold := dropAt x.hold i }
        if mayGo s x h then pumpAll (forwardCmd gone n h.env.msg) n (qKey c)
        else
          let s := raise (bump gone fCoreRdcnt0Late) (bVia n) 5 (dAgt c.agent c.queue c.die)
          let s := countEv s (Ev.ofCmd 0x1D c none none)
          let s := match h.env.msg with
            | .rpart p => p.entries.foldl (fun s e => markLate s c.tenant (entryObj c e)) (partFails s n p .dataLate)
            | _ => markLate (failPlain s (portOrigin s n c.die) c none .dataLate) c.tenant (pObj c.words)
          pumpAll s n (qKey c)

/-- A held blocking command of a queue: port, place and record. -/
def heldOf (s : State) (die a q : Nat) : Option (Nat × Nat × Held × Cmd) :=
  (List.range 8).findSome? fun n =>
    ((portSt s n).hold.zipIdx).findSome? fun x =>
      match x.1.env.msg with
      | .cmd c => if isOf die a q c && blocking c.words then some (n, x.2, x.1, c) else none
      | _ => none

/-- A held blocking command ends with a status and a cause that arose on a die (R79, R119, R350). -/
def endHeldAt (s : State) (n i : Nat) (c : Cmd) (st : Status) (code die : Nat) : State :=
  let x := portSt s n
  let s := setPort s n { x with hold := dropAt x.hold i }
  pumpAll (failFrom s (portOrigin s n c.die) c none st code die 0) n (qKey c)

/-- The deadline of a blocking command has come: in a hold table, where a discard due in the same cycle is made instead, or
elsewhere (R119). -/
def expireAny (s : State) (die a q : Nat) : State :=
  match heldOf s die a q with
  | none => expire s die a q
  | some (n, i, h, c) =>
    if !coreRuns s || !expired s c 16 then s
    else if h.rdata && decide (expiryOf c 16 = some h.limit) then holdDiscard_ s n i
    else endHeldAt (countExpiry s c) n i c .timeout cExpired (dieOf s)

/-- A cancel reaches the unit that holds the command, a hold table or another (R350, R359, R461). The disabling of the issuing
agent's port has no effect at a hold (R267). -/
def cancelAny (s : State) (die a q code : Nat) : State :=
  match heldOf s die a q with
  | none => cancelAt s die a q code
  | some (n, i, _, c) =>
    if !coreRuns s || decide (code = cDisable) then s else endHeldAt s n i c (causeStatus code) code die

/-! Replies, reports and refusals at the issuing die. -/

/-- A returning message of an older epoch is discarded at the pier; a traced command that waited for it leaves its record (R93, R446). -/
def staleReturn (s : State) (h : Hdr) (c : Cmd) : State :=
  let s := staleDrop s h.tenant
  match (ownCmd s c).bind (itemOf s) with
  | some i => skipItem s c.agent c.queue i
  | none => s

/-- A status that only an arrival which its barrier has not recorded can end with (R221). -/
def neverRecorded (st : Status) : Bool :=
  !([Status.ok, .chunked, .participantLost, .timeout, .cancelled, .disabled, .resource, .poison, .dataLate].contains st)

/-- A REPLY reaches its pier (R93, R124, R289). An arrival that its status shows to be rejected gives up its place; what became of any
other the notice tells (R221). -/
def recvReply (s : State) (h : Hdr) (c : Cmd) (r : Reply) : State :=
  if isOlder (epochOf s h.tenant) h.epoch then staleReturn s h c
  else
    match ownCmd s c with
    | none => s
    | some c => settle (if neverRecorded r.status then releasePlace s c else s) c r

/-- A PREPORT reaches the issuing pier (R177, R180, R289, R266). -/
def recvPreport (s : State) (h : Hdr) (c : Cmd) (p : PReport) : State :=
  if isOlder (epochOf s h.tenant) h.epoch then staleDrop s h.tenant
  else
    match ownCmd s c with
    | none => s
    | some c =>
      if !(s.rt.gathers.any fun g => decide (g.cmd = c) && g.waiting.contains (h.src, p.tag)) then s
      else
        let s := freeCredit s c (firstPort s h.src)
        let s := if p.status = .dataLate then
            countEv (raise s bPier 3 (dAgt c.agent c.queue c.die)) (Ev.ofCmd 0x1D c none none)
          else s
        gatherReport s c h.src p.tag p.mask (idxOn c.words h.src) p.status p.dt

/-- The delay of a refusal, and why the command stalls (R499): none for a reason that R499 does not list. -/
def refusalOf (reason : Nat) : Option (Nat × Stall) :=
  match reason with
  | 1 => some (1000, .bound)
  | 2 => some (1000, .bank)
  | 3 => some (256, .bank)
  | 4 => some (256, .bound)
  | 5 => some (256, .barrier)
  | 6 => some (64, .table)
  | _ => none

/-- A REFUSE reaches the issuing pier (R90, R137, R169, R499). -/
def recvRefuse (s : State) (n : Nat) (h : Hdr) (c : Cmd) (reason : Nat) : State :=
  match refusalOf reason with
  | none => raise s (bVia n) 4 h.src
  | some (delay, why) =>
    if isOlder (epochOf s h.tenant) h.epoch then staleDrop s h.tenant
    else
      match ownCmd s c with
      | none => s
      | some c =>
        if pOp c.words = some .route then
          updGather (timeRead s c.pier) c fun g =>
            if g.waiting.any (fun w => decide (w.1 = h.src)) then
              { g with resend := g.resend.filter (fun r => decide (r.1 ≠ h.src)) ++ [(h.src, pierTime s c.pier + delay)] }
            else g
        else refused (releasePlace s c) c why reason delay

/-! Mirror records (R308 to R311). -/

/-- The copy's slot with the new words of a mirror record (R308). A new value word is a change that the slot's signal record shows; the
record names no signaller, and the one shown is a free value (DESIGN CHOICE, log entry 122). -/
def copied (s : State) (x : Slot) (m : MRec) : Slot :=
  let who := Config.copySignaller s.now
  let y := Slot.ofMeta { x with value := m.newV } m.newM
  let y := if m.newV = x.value then y
    else { y with lastSig := s.now, sig := some ⟨who / 64 % 2048, who % 64, s.now, false⟩ }
  match m.win with
  | some (w, a, b) => { y with members := y.members.set w (a, b) }
  | none => y

/-- A mirror record at the copy's die: compared, written, answered (R308). -/
def recvMrec (s : State) (n : Nat) (h : Hdr) (m : MRec) : State :=
  if degradedOn s then s
  else if isOlder (epochOf s h.tenant) h.epoch then staleDrop s h.tenant
  else
    let ack (s : State) (ok : Bool) : State :=
      crossed s (.router (homeRouter s h.tenant m.obj)) (portRouter n) fun s =>
        sendOn s n ⟨⟨dieOf s, dieOf s, h.tenant, h.epoch, 0⟩, .mack m.serial ok⟩
    match htmIdx s h.tenant m.obj with
    | none => ack s false
    | some i =>
      match (htmAt s i).state with
      | .resident =>
        let key := slotKey (htmAt s i).slice (htmAt s i).slot
        let s := match slotAt s key with
          | some x => readSlot s key x
          | none => s
        match slotAt s key with
        | none => ack s false
        | some x =>
          if x.value = m.oldV ∧ x.metaOf = m.oldM then ack (writeSlotChk (setSlot s key (copied s x m)) key) true
          else ack (writeSlotChk (setSlot s key { x with poison := true }) key) false
      | .unallocated => ack s false
      | _ =>
        let a := imgAddr s h.tenant m.obj
        if mem64 s a = m.oldV ∧ mem64 s (a + 8) = m.oldM then ack (imgWrite s h.tenant m.obj m.newV m.newM) true
        else ack (setMem64 s (a + 8) (mem64 s (a + 8) ||| w64 (2 ^ 52))) false

/-- A slot's deferred pass runs, and what stood behind it in the slice input queue goes on (R103, R308). -/
def passAgain (s : State) (key : Nat) : State := drainInq (runPass s key) key

/-- Room for records has come free at a slice: the passes it deferred, and what waited for it in Girder, go on (R309). -/
def mirrorRoom (s : State) (slice : Nat) : State :=
  let waiting := s.sema.slots.filter fun x =>
    decide (sliceOf x.1 = slice) && on s (fTenCfgMirrored x.2.tenant) && (decide (x.2.waiters ≠ []) || decide (x.2.tries ≠ []))
  drainGirder (waiting.foldl (fun s x => passAgain s x.1) s)

/-- With fewer records outstanding than this no operation lacks room, for it makes at most eight, one for each member window (R140,
R309). -/
abbrev mirTight : Nat := 1024 - 8

/-- A record's object goes on, its record gone: what it held back is delivered, and the deferred pass of an object that still stands
there runs (R309, R310). -/
def mirrorEnds (s : State) (m : MirrorOut) (ok : Bool) : State :=
  let unit := recUnit m.key
  let tight := decide (mirTight ≤ mirUse s m.port unit)
  let s := deliverHeld s m ok
  let s := if m.live then passAgain s m.key else s
  if tight then mirrorRoom s unit else s

/-- POISON is set on the primary's object, in its slot or in its image (R310). -/
def poisonPrimary (s : State) (key : Nat) : State :=
  if key < 2 ^ 20 then
    match slotAt s key with
    | some x => writeSlotChk (setSlot s key { x with poison := true }) key
    | none => s
  else
    match ownerOf s (key - 2 ^ 20) with
    | some (t, n) => imgPut s (key - 2 ^ 20) { imgSlot s t n (key - 2 ^ 20) with poison := true }
    | none => s

/-- The object that a mismatch names in the port's log: slice and slot, or those of an image's entry. -/
def mirrorDetail (s : State) (key t : Nat) : Nat :=
  if key < 2 ^ 20 then dObj (sliceOf key) (slotOf key) t
  else
    let e := htmAt s (key - 2 ^ 20)
    dObj e.slice e.slot t

/-- A mirror compare result at the primary (R309, R310). An object freed meanwhile is not poisoned. -/
def recvMack (s : State) (n : Nat) (h : Hdr) (serial : Nat) (ok : Bool) : State :=
  match takeFirst (fun m : MirrorOut => decide (m.serial = serial) && decide (m.port = n)) s.span.mirror with
  | none => s
  | some (m, rest) =>
    if isOlder (epochOf s h.tenant) h.epoch then staleDrop s h.tenant
    else
      let s := { s with span := { s.span with mirror := rest } }
      if ok then mirrorEnds s m true
      else
        let s := raise (bump s fCoreMircntMismatch) (bVia n) 8 (mirrorDetail s m.key h.tenant)
        mirrorEnds (if m.live then poisonPrimary s m.key else s) m false

/-- The mirrored tenants that a port carries, on the primary's die and on the copy's, and whose pair is not broken yet (R311). -/
def mirrorHit (s : State) (n : Nat) : List Nat :=
  if !mirrorOn s || decide (n < 6) then []
  else (List.range 256).filter fun t =>
    decide (mirPort t = n) && on s (fTenCfgMirrored t) && !nbit (rd s (rCoreMirbrk (t / 64))).toNat (t % 64)

/-- Those tenants are broken, and the records pending on the port are released as though they had matched (R311). -/
def mirrorBreak (s : State) (n : Nat) (hit : List Nat) : State :=
  if hit = [] then s
  else
      let s := hit.foldl (fun s t => put s ⟨rCoreMirbrk (t / 64), t % 64, 1⟩ 1) s
      let s := { s with span := { s.span with mirDone := s.span.mirDone.filter fun t => !hit.contains t } }
      let mine := s.span.mirror.filter fun m => decide (m.port = n)
      let tight := (List.range 65).filter fun i => decide (mirTight < mirUse s n i)
      let s := { s with span := { s.span with mirror := s.span.mirror.filter fun m => decide (m.port ≠ n) } }
      tight.foldl mirrorRoom (mine.foldl (fun s m => mirrorEnds (bump s fCoreMircntUnchecked) m true) s)

/-- A port is lost to what it carried: its events with MIRROR_LOST in one cycle (R311, R378). -/
def portLost (s : State) (n : Nat) (evs : List (Nat × Nat)) : State :=
  let hit := mirrorHit s n
  mirrorBreak (raiseAll s (bVia n) (evs ++ if hit = [] then [] else [(9, 0)])) n hit

/-! Arrival at a port. -/

/-- What DEGRADED mode does with the messages it does not process (R396): none is processed as usual. -/
def degradedMsg (s : State) (n : Nat) (h : Hdr) (m : Msg) : Option State :=
  let back (ctx : Nat) (phase : Bool) : State :=
    sendFrom s (portOrigin s n h.src) h.src ⟨dieOf s, h.src, h.tenant, h.epoch, 0⟩ (.cabort ctx phase ⟨2, dieOf s, 0⟩)
  if !degradedOn s then none
  else
    match m with
    | .time _ _ _ => some s
    | .epoch _ _ => some s
    | .cpart g _ => some (back g.ctx g.phase)
    | .cres g _ _ => some (back g.ctx g.phase)
    | .cclose c ph _ => some (back c ph)
    | _ => none

/-- The router of the unit that a message is for, where its way from the port to it crosses Girder here: a command, a cancel and what
Deck Time, Trestle and Keystone take have none (R12; log entry 118). -/
def unitRouter (s : State) (h : Hdr) : Msg → Option Nat
  | .reply c _ => some (backTo s c)
  | .preport c _ => some (backTo s c)
  | .refuse c _ => some (backTo s c)
  | .cpart g _ => some (abacusRouter (g.ctx % 16))
  | .cres g _ _ => some (abacusRouter (g.ctx % 16))
  | .cclose c _ _ => some (abacusRouter (c % 16))
  | .cabort c _ _ => some (abacusRouter (c % 16))
  | .time o _ _ => some (bankOf s h.tenant o)
  | .mrec r => some (homeRouter s h.tenant r.obj)
  | .mack k _ => (s.span.mirror.find? fun m => decide (m.serial = k)).bind fun m =>
      if m.key < 2 ^ 20 then some (sliceOf m.key) else none
  | _ => none
where
  backTo (s : State) (c : Cmd) : Nat := ((pierOf s c.agent).map (·.router)).getD 0

/-- A message comes from the port to the unit it is for. -/
def atUnit (s : State) (n : Nat) (h : Hdr) (m : Msg) : State :=
  match m with
  | .cmd c => recvCmd s n ⟨h, m⟩ c (dwOf c.words)
  | .xcmd c => recvCmd s n ⟨h, m⟩ c (dwOf c.words)
  | .rpart p => recvCmd s n ⟨h, m⟩ p.cmd p.dw
  | .reply c r => recvReply s h c r
  | .preport c p => recvPreport s h c p
  | .refuse c k => recvRefuse s n h c k
  | .cpart g es => cpartAt s h g es
  | .cres g off bs => cresAt s h g off bs
  | .cclose c ph k => ccloseAt s h c ph k
  | .cabort c ph a => cabortAt s h c ph a
  | .wire l ph => wireAt s h l ph
  | .lcomp l ph t => lcompAt s h l ph t
  | .time o ph t => bankFrame s h o ph t
  | .syncReq r rx tx => answerReq s n h r rx tx
  | .syncResp r rx => respAt s n r rx
  | .coarse r => coarseAt s h r
  | .epoch o rs => epochNotice s n h o rs
  | .mrec r => recvMrec s n h r
  | .mack k ok => recvMack s n h k ok
  | .cancel c code => cancelAny s h.src c.agent c.queue code

/-- A combine segment that Girder poisoned aborts its phase with CODE 5 (R391). -/
def segmentBad (s : State) (h : Hdr) (g : CSeg) : State :=
  match ctxAt s g.ctx with
  | some x =>
    if !isOlder (epochOf s h.tenant) h.epoch && x.phase == g.phase && inPhase x then abortHere s g.ctx x ⟨5, dieOf s, 0⟩ else s
  | none => s

/-- A message that Girder poisoned (R391): a reply completes its command with POISON, a combine segment aborts its phase, and what has
no stated effect is acted on as usual (log entry 105). -/
def atUnitBad (s : State) (n : Nat) (h : Hdr) (m : Msg) : State :=
  match m with
  | .reply c r => recvReply s h c { failReply s c .poison with dt := r.dt }
  | .preport c p => recvPreport s h c { p with mask := 2 ^ 32 - 1, status := .poison }
  | .cpart g _ => segmentBad s h g
  | .cres g _ _ => segmentBad s h g
  | m => atUnit s n h m

/-- A message of this die is acted on, as it comes from the port over Girder (R12). -/
def actOn (s : State) (n : Nat) (h : Hdr) (m : Msg) : State :=
  match degradedMsg s n h m with
  | some s => s
  | none =>
    match unitRouter s h m with
    | none => atUnit s n h m
    | some r =>
      match girderPass s (portRouter n) r with
      | (s, .whole) => atUnit s n h m
      | (s, .poisoned) => atUnitBad s n h m
      | (s, .lost) => s

/-- A message between a mirror pair travels on their own ports and is not routed (R307). -/
def pairMsg (s : State) (n : Nat) (m : Msg) : Bool :=
  mirrorOn s && decide (6 ≤ n) && match m with
    | .mrec _ => true
    | .mack _ _ => true
    | .epoch _ _ => true
    | .syncReq _ _ _ => true
    | .syncResp _ _ => true
    | _ => false

/-- A message goes out again on its route, over Girder from port to port (R296); nothing in its layout says that Girder poisoned it
(R281; log entry 105). -/
def relay (s : State) (n p : Nat) (h : Hdr) (m : Msg) : State :=
  crossed s (.router (portRouter n)) (portRouter p) fun s => sendOn s p ⟨h, m⟩

/-- A message goes on: to this die's units, or out again on its route (R296). A COARSE for side A leaves side B's die 0 on
port 6 (R326). -/
def onward (s : State) (n : Nat) (h : Hdr) (m : Msg) : State :=
  if pairMsg s n m then actOn s n h m
  else if h.dst = dieOf s then
    match m with
    | .coarse _ => if isMaster s then actOn s n h m else relay s n 6 h m
    | _ => actOn s n h m
  else
    match nextPort s (dieOf s) h.dst with
    | some p => relay s n p h m
    | none => s

/-- The receive buffer gives back a message received in DATA flits: its credits are owed to the sender (R287). -/
def takeRaw (s : State) (n : Nat) (m : Msg) : State :=
  let x := portSt s n
  match takeFirst (fun ws : List Word => decide (wbits (pw ws 0) 4 5 = msgType m)) x.rxMsgs with
  | none => s
  | some (ws, rest) =>
    let v := 2 * wbits (pw ws 0) 0 3 + wbits (pw ws 0) 3 1
    setPort s n { x with rxMsgs := rest, owed := mset x.owed v 0 (mgetD x.owed v 0 + ws.length) }

/-- A word of a port's buffers is read (R390, R391): answers whether it was lost. -/
def bufRead (s : State) (n target word : Nat) : State × Bool :=
  let (s, e) := chkRead s (bVia n) target 0 word
  match e with
  | .good => (s, false)
  | .ce => (raise s (bVia n) 10 (dMem target word), false)
  | .ue => (raise s (bVia n) 11 (dMem target word), true)

/-- The capture share of a port in 8-byte units: 32 KiB (R305). -/
abbrev capShare : Nat := 4096

/-- What a port receives counts against its capture share: it was UP at the freeze tick, and its MARKER has not come (R305). -/
def capCounts (s : State) (n : Nat) : Bool := !on s (fViaFrzMark n) && (s.obs.cut.contains n || on s (fViaFrzMlost n))

/-- The capture share of a port is full (R305): it stores no more, and the snapshot is incomplete. -/
def capFull (s : State) (n : Nat) : State := put (raise (put s (fViaFrzOvf n) 1) (bVia n) 6 0) fObsFrzstIncomplete 1

/-- A message received during a freeze is stored for the thaw (R305): before the MARKER in the port's share of the capture buffers,
after it, and at a port that was not UP at the freeze tick, in the receive buffer. What the share cannot take is sent again by the
other end after the thaw. -/
def capture (s : State) (n : Nat) (h : Hdr) (m : Msg) : State :=
  let x := portSt s n
  if on s (fViaFrzOvf n) then s
  else if !capCounts s n then
    chkWrite (takeRaw (setPort s n { x with later := x.later ++ [⟨h, m⟩] }) n m) (bVia n) 1 0 (x.later.length + 1)
  else if capShare < get s (fViaFrzCapb n) + msgLen m then capFull s n
  else
    let s := put s (fViaFrzCapb n) (get s (fViaFrzCapb n) + msgLen m)
    chkWrite (takeRaw (setPort s n { x with captured := x.captured ++ [⟨h, m⟩] }) n m) (bVia n) 2 0 x.captured.length

/-- A message arrives on a port (R281, R305). -/
def recvMsg (s : State) (n : Nat) (h : Hdr) (m : Msg) : State :=
  if !eclkRuns s || !isUp s n then s
  else
    let m := stampMsg s.now h m
    if frozen s then capture s n h m
    else
      let (s, lost) := bufRead (chkWrite s (bVia n) 1 0 0) n 1 0
      if lost then s else onward (takeRaw s n m) n h m

/-- A message replayed at thaw: the answer to a captured REQ leaves at thaw at the earliest. -/
def replayed (s : State) (m : Msg) : Msg :=
  match m with
  | .syncReq r rx tx => .syncReq r rx (max tx (16 * s.now))
  | m => m

/-- Messages stored during a freeze go on in order; one whose word of the buffer is uncorrectable is lost (R391). -/
def replayAll (s : State) (n target from_ : Nat) (ms : List Envelope) : State :=
  ms.zipIdx.foldl (fun s e =>
    let (s, lost) := bufRead s n target (from_ + e.2)
    if lost then s else onward s n e.1.hdr (replayed s e.1.msg)) s

/-- At thaw, the captured messages go on in order, and after them those received after the MARKER (R306). -/
def thawPort (s : State) (n : Nat) : State :=
  let x := portSt s n
  let s := wr (setPort s n { x with captured := [], later := [] }) (rViaFrz n) 0
  replayAll (replayAll s n 2 0 x.captured) n 1 1 x.later

end Sys2Proof.Machine
end

