-- ==== Sys2Proof/Machine/Link.lean ====
section
/-! DEFINITION. Links: training and link states (R291 to R293, R313), the codeword and the flit (R274 to R280), sequence numbers,
replay and the retry bound (R282 to R286), link credits (R287), the freeze MARKER (R304 to R306). -/
namespace Sys2Proof.Machine

/-- An event of a link acts while ECLK runs: what falls due during a stop waits for the restart (R407). -/
def linkEvent (s : State) (f : State → State) : State := if eclkRuns s then f s else s

/-! Training and link states. -/

/-- What a port that leaves UP or a training loses: sequence numbers, replay buffer, credits and what its buffers held (R291). -/
def clearLink (s : State) (n : Nat) (st : LinkSt) : State :=
  let x := portSt s n
  let s := setPort s n { Port.zero with st := st, since := s.now, fails := x.fails, hold := x.hold, qexp := x.qexp, gone := x.gone, captured := x.captured, later := x.later }
  let s := (List.range 12).foldl (fun s v => put s (fViaLcredCred n v) 0) s
  put s (fViaLstatRetry n) 0

/-- The state of a port changes to one that other dies are told of (R300). -/
def announce (s : State) (n code : Nat) : State := linkChanged (ownNotice s (some n) code) (dieOf s) n code

/-- A port enters DOWN (R291). -/
def toDown (s : State) (n : Nat) : State :=
  let wasUp := isUp s n
  let peer := get s (fViaLstatPeerdie n)
  let s := clearLink s n .down
  let s := put s (fViaLnkcntDowns n) (min 255 (get s (fViaLnkcntDowns n) + 1))
  announce (portLost s n (if wasUp then [(0, peer)] else [])) n 5

/-- A port enters FAILED (R291). -/
def toFailed (s : State) (n : Nat) : State :=
  let x := portSt s n
  let s := setPort s n { x with st := .failed, since := s.now }
  announce (portLost s n [(1, get s (fViaLstatPeerdie n))]) n 6

/-- A training has failed: the port enters DOWN, and FAILED once TRIES trainings in a row have (R291). -/
def trainFails (s : State) (n : Nat) : State :=
  let x := portSt s n
  let s := toDown (setPort s n { x with fails := x.fails + 1 }) n
  if max 1 (get s (fViaTctlTries n)) ≤ (portSt s n).fails then toFailed s n else s

/-- A training begins. -/
def toTune (s : State) (n : Nat) : State :=
  let x := portSt s n
  setPort s n { x with st := .pmaTune, since := s.now }

/-- A port is enabled; what its gate closed opens (R291, R413). A port leaves FAILED with its failures counted anew. -/
def portOn (s : State) (n : Nat) : State :=
  let x := portSt s n
  toTune (openGate (setPort s n { x with fails := 0 }) (89 + n)) n

/-- Clearing EN takes the port to OFF; the change is commanded and nothing is recorded (R291). -/
def portOff (s : State) (n : Nat) : State :=
  if (portSt s n).st = .off then s
  else
    let s := clearLink s n .off
    let x := portSt s n
    announce (setPort s n { x with fails := 0 }) n 0

/-- A port in training or UP. -/
def linkActive (s : State) (n : Nat) : Bool :=
  match (portSt s n).st with
  | .off => false
  | .down => false
  | .failed => false
  | _ => true

/-- DOWN is set: an active link goes down (R286). -/
def portDownBit (s : State) (n : Nat) : State :=
  let s := put s (fViaCtlDown n) 1
  if linkActive s n then toDown s n else s

/-- A write to VIAn_CTL (R291, R313). -/
def viaCtlWrite (s : State) (n : Nat) (w : Word) : State :=
  let old := get s (fViaCtlEn n)
  let still := match (portSt s n).st with
    | .off => true
    | .failed => true
    | _ => false
  let s := if still then
      put (put (put s (fViaCtlRate n) (wbits w 1 1)) (fViaCtlPrecode n) (wbits w 2 1)) (fViaCtlW2En n) (wbits w 3 1)
    else s
  let s := put (put s (fViaCtlAuto n) (wbits w 4 1)) (fViaCtlEn n) (wbits w 0 1)
  let s := if wbits w 5 1 = 1 then portDownBit s n else put s (fViaCtlDown n) 0
  if old = 0 ∧ wbits w 0 1 = 1 then portOn s n
  else if wbits w 0 1 = 0 then portOff s n
  else s

/-- A time limit of VIAn_TCTL, in dt per unit of the field, has passed since the port entered its state. -/
def limitPast (s : State) (n : Nat) (f : Fld) (unit : Nat) : Bool :=
  decide ((portSt s n).since + unit * max 1 (get s f) ≤ s.now)

/-- REHOLD has passed (R291). -/
def reholdPasses (s : State) (n : Nat) : State :=
  if (portSt s n).st = .down ∧ on s (fViaCtlEn n) = true ∧ on s (fViaCtlAuto n) = true ∧ on s (fViaCtlDown n) = false
      ∧ limitPast s n (fViaTctlRehold n) 1000 = true then toTune s n
  else s

/-- The PMA reports training done (R291). -/
def tuneEnds (s : State) (n : Nat) : State :=
  let x := portSt s n
  if x.st = .pmaTune then setPort s n { x with st := .align, since := s.now, txCw := 0 } else s

/-- A training limit expires in its state (R291). -/
def trainLimit (s : State) (n : Nat) (st : LinkSt) (f : Fld) (unit : Nat) : State :=
  if (portSt s n).st = st ∧ limitPast s n f unit = true then trainFails s n else s

/-- The ALIGN limit expires (R291): the lane faults found are recorded (R293). Which these are is open (log entry 142). -/
def alignLimit (s : State) (n : Nat) : State :=
  if (portSt s n).st = .align ∧ limitPast s n (fViaTctlAlignLim n) 1000 = true then
    trainFails (put { s with fresh := s.fresh + 1 } (fViaLstatLanebad n) (Config.laneFaults s.fresh).toNat) n
  else s

/-- Lock has held for 16 alignment codewords (R273, R291, R293): without W2_EN two lanes are no lock, and the lane faults found stand. -/
def alignEnds (s : State) (n : Nat) (width2 reversed : Bool) (polinv lanebad : Nat) : State :=
  let x := portSt s n
  if x.st ≠ .align then s
  else if width2 = true ∧ on s (fViaCtlW2En n) = false then put s (fViaLstatLanebad n) lanebad
  else
    let s := setPort s n
      { x with st := .init, since := s.now, locked := true, missed := 0, service := false, rxCw := 0, initOk := false }
    let s := put (put s (fViaLstatWidth n) (b2n width2)) (fViaLstatReversed n) (b2n reversed)
    let s := put (put s (fViaLstatPolinv n) polinv) (fViaLstatLanebad n) lanebad
    if width2 then raise s (bVia n) 3 (get s (fViaLstatPeerdie n)) else s

/-- A port that the topology connects (R295, R298): of a ring of 2 the + port, of a ring of 1 none; in DIRECT mode port 6, and port
7 with 3 dies. -/
def portUsed (s : State) (n : Nat) : Bool :=
  match spanMode s with
  | 1 =>
    let size := match n / 2 with
      | 0 => spanX s
      | 1 => spanY s
      | _ => spanZ s
    decide (n < 6) && (decide (size = 4) || (decide (size = 2) && decide (n % 2 = 0)))
  | 2 => decide (n = 6) || (decide (n = 7) && on s fCoreSpancfgDn3)
  | _ => false

/-- The checks of R292 on an INIT flit. -/
def initMatches (s : State) (n : Nat) (f : InitFlit) : Bool :=
  let group := decide (f.sgid = get s fCoreSpancfgSgid)
  let same := decide (f.rate = on s (fViaCtlRate n)) && decide (f.precode = on s (fViaCtlPrecode n))
    && decide (f.width2 = on s (fViaLstatWidth n))
  if mirrorOn s && decide (6 ≤ n) then
    decide (f.mside ≠ on s fCoreSpancfgMside) && decide (f.die = dieOf s) && same
  else
    match spanMode s with
    | 1 => group && same && portUsed s n && decide (f.die = neighbour s (dieOf s) n) && decide (f.port = facingPort s n)
    | 2 => group && same && portUsed s n && decide (f.die = neighbour s (dieOf s) n)
    | _ => group && same

/-- An INIT flit is received in INIT (R292). -/
def initFlit (s : State) (n : Nat) (f : InitFlit) : State :=
  let x := portSt s n
  if x.st ≠ .init then s
  else if initMatches s n f then
    put (put (setPort s n { x with initOk := true }) (fViaLstatPeerdie n) f.die) (fViaLstatPeerport n) f.port
  else trainFails (raise (put s (fViaLstatWiring n) 1) (bVia n) 2 f.die) n

/-- Receive buffer of a sub-channel in 8-byte units (R287). -/
def fullCredit (v : Nat) : Nat :=
  if v = 6 then 3072 else if v = 7 then 1024 else if v % 2 = 0 then 512 else 256

/-- The link comes up (R287, R291). -/
def linkUp_ (s : State) (n : Nat) : State :=
  let x := portSt s n
  if x.st ≠ .init ∨ x.initOk = false then s
  else
    let y : Port := { Port.zero with st := .up, since := s.now, hold := x.hold, qexp := x.qexp, gone := x.gone, captured := x.captured, later := x.later, lastGood := s.now, locked := true, service := x.service, rxCw := x.rxCw, txCw := x.txCw }
    let s := setPort s n y
    let s := (List.range 12).foldl (fun s v => put s (fViaLcredCred n v) (fullCredit v)) s
    announce s n 4

/-- The receiver declares the link down: lock lost for 1 us (R276). -/
def lockLoss (s : State) (n : Nat) : State :=
  let x := portSt s n
  if x.st = .up ∧ x.locked = false ∧ x.unlockedAt + us 1 ≤ s.now then toDown s n else s

/-- Loss of signal (R286). -/
def losAt (s : State) (n : Nat) : State := if isUp s n then toDown s n else s

/-- No flit has passed for 2 us (R286). -/
def recvTimeout (s : State) (n : Nat) : State :=
  if isUp s n && decide ((portSt s n).lastGood + us 2 ≤ s.now) then toDown s n else s

/-- The retry bound (R285); its time pauses while a freeze stops the transmitter (R306). -/
def retryBoundPasses (s : State) (n : Nat) : State :=
  let x := portSt s n
  if isUp s n && x.replay.any (fun r => decide (8 ≤ r.attempts) || (!frozen s && decide (r.first + us 2 ≤ s.now))) then toDown s n
  else s

/-! Alignment codewords (R275, R276). -/

/-- The cadences: one alignment codeword in 64 while training, one in 16,384 in service. -/
def cadence (service : Bool) : Nat := if service then 16384 else 64

/-- The symbol of an alignment codeword by its lane and its number on the lane (log entry 115). -/
def alignSymbol (lane k : Nat) : Nat := (if k % 2 = 0 then 0x2B5 else 0x14A) ^^^ lane

/-- An alignment codeword on a number of lanes. -/
def alignCodeword (lanes : Nat) : BitVec 1360 :=
  BitVec.ofNat 1360 (ofSymbols ((List.range 136).map fun i => alignSymbol (i % lanes) (i / lanes)))

/-- The lanes in use. -/
def linkLanes (s : State) (n : Nat) : Nat := if on s (fViaLstatWidth n) then 2 else 4

/-- The next codeword received is an alignment codeword by the cadence the receiver expects, counted from the last one received; the
service cadence is expected from the first flit that is no INIT flit. -/
def alignDue (x : Port) : Bool := decide ((x.rxCw + 1) % cadence x.service = 0)

/-- An alignment codeword matches, or is missed, at its expected position (R276). -/
def alignCw (s : State) (n : Nat) (matched : Bool) : State :=
  let x := portSt s n
  let c := cadence x.service
  if x.st ≠ .up ∧ x.st ≠ .init then s
  else if matched then setPort s n { x with locked := true, missed := 0, rxCw := 0 }
  else
    let m := min 4 (x.missed + 1)
    let x := { x with missed := m, rxCw := (x.rxCw / c + 1) * c }
    if x.locked = true ∧ m = 4 then setPort s n { x with locked := false, unlockedAt := s.now } else setPort s n x

/-! Messages as words. -/

/-- The header of a message (R280). -/
def headerWord (e : Envelope) (sub : Nat) : Word :=
  w64 (msgVc e.msg + 8 * sub + 16 * (msgType e.msg % 32) + 2 ^ 9 * (e.hdr.dst % 64) + 2 ^ 15 * (e.hdr.src % 64)
    + 2 ^ 21 * (msgLen e.msg % 1024) + 2 ^ 32 * (e.hdr.tenant % 256) + 2 ^ 40 * (e.hdr.epoch % 256) + 2 ^ 48 * (e.hdr.qseq % 65536))

/-- The first word of a command's stamp (R280). -/
def stampWord (c : Cmd) : Word :=
  w64 (c.agent % 2048 + 2 ^ 11 * (c.queue % 4) + 2 ^ 13 * (c.entry % 16) + 2 ^ 17 * (c.deadline.getD 0 % 2 ^ 40)
    + 2 ^ 57 * b2n c.deadline.isNone)

/-- The entry words of a remote part, two to a word (R281). -/
def partWords : List REntry → List Word
  | [] => []
  | [a] => [w64 (entryNum a)]
  | a :: b :: r => w64 (entryNum a + 2 ^ 32 * entryNum b) :: partWords r
where
  entryNum (e : REntry) : Nat := e.idx % 256 + 256 * (e.count % 1024 + 1024 * (e.offset % 256) + 2 ^ 18 * (e.die % 64))

/-- The body of a SYNC message (R327). -/
def syncWords (kind : Nat) (m : Sync) : List Word :=
  [w64 (kind + 4 * b2n m.aligned + 8 * (m.xseq % 65536)), w64 m.t1, w64 m.t2, w64 m.t3]

/-- The body words of a message where the manual lays them out (R280, R281, R302, R303, R327, R358, R499). -/
def bodyWords : Msg → Option (List Word)
  | .cmd c => some ([stampWord c, 0] ++ c.words)
  | .xcmd c => some ([stampWord c, 0] ++ c.words)
  | .rpart p => some ([stampWord p.cmd, 0, w64 p.tag, w64 ((p.dw.map (·.toNat)).getD 0 + 2 ^ 32 * p.entries.length)] ++ partWords p.entries)
  | .reply c r => some [stampWord c, r.value, replyWord1 c.queue c.entry r]
  | .refuse c k => some [stampWord c, 0, w64 (k % 256)]
  | .wire l ph => some [w64 (l % 64 + 64 * b2n ph)]
  | .lcomp l ph t => some [w64 (l % 64 + 64 * b2n ph + 128 * b2n t.isSome), w64 (t.getD 0)]
  | .time o ph t => some [w64 (o % 2 ^ 26 + 2 ^ 26 * b2n ph), w64 t]
  | .syncReq m _ _ => some (syncWords 0 m)
  | .syncResp m _ => some (syncWords 1 m)
  | .coarse m => some (syncWords 2 m)
  | .epoch o rs => some [w64 (o % 64 + 64 * b2n rs)]
  | _ => none

/-- The words of a message, its header first; a body the manual does not lay out is free (log entry 7). -/
def msgWords (s : State) (e : Envelope) (sub : Nat) : List Word :=
  headerWord e sub :: (bodyWords e.msg).getD ((List.range (msgLen e.msg - 1)).map fun i => Config.bodyWord (s.fresh + i) |> w64)

/-- Whether a message leaving a die on a port travels on sub-channel 1 (R297): in a ring of 4, from its crossing of the dateline on. -/
def subAt (s : State) (die n src : Nat) : Nat :=
  if spanMode s ≠ 1 ∨ 6 ≤ n then 0
  else
    let x := spanX s
    let y := spanY s
    let (size, c, c0) := match n / 2 with
      | 0 => (x, die % x, src % x)
      | 1 => (y, die / x % y, src / x % y)
      | _ => (spanZ s, die / (x * y), src / (x * y))
    if size ≠ 4 then 0
    else if n % 2 = 0 then b2n (decide (c < c0) || decide (c = 3)) else b2n (decide (c0 < c) || decide (c = 0))

/-- The same for a message that leaves this die. -/
def subOf (s : State) (n src : Nat) : Nat := subAt s (dieOf s) n src

/-! The transmitter. -/

/-- Sub-channel number 2 x VC + SUB of a message that leaves on a port. -/
def chanOf (s : State) (n : Nat) (e : Envelope) : Nat := 2 * msgVc e.msg + subOf s n e.hdr.src

/-- The order in which virtual channels are served (R282). -/
def vcOrder (rr : Nat) : List Nat :=
  let ring := [0, 1, 3, 4]
  [5, 2] ++ ring.drop rr ++ ring.take rr

/-- The next message of a flit with `room` slots left: the first in service order at the head of a sub-channel that holds the
credits its part of the flit takes. -/
def nextMsg (s : State) (n room : Nat) : Option (Envelope × Nat) :=
  let x := portSt s n
  let fits (v : Nat) : Option (Envelope × Nat) :=
    (x.sent.find? fun e => decide (chanOf s n e = v)).bind fun e =>
      if min room (msgLen e.msg) ≤ get s (fViaLcredCred n v) then some (e, v) else none
  (vcOrder x.rrVc).findSome? fun vc => (List.range 2).findSome? fun sub => fits (2 * vc + sub)

/-- The turn after a virtual channel is served. -/
def nextTurn (rr vc : Nat) : Nat :=
  match [0, 1, 3, 4].findIdx? (fun v => decide (v = vc)) with
  | some i => (i + 1) % 4
  | none => rr

/-- A stamp, not earlier than one it already shows, stands in a word. -/
def stampAt (ws : List Word) (k t : Nat) : List Word := ws.set k (w64 (max (pw ws k).toNat t))

/-- The codeword that carries the header of a SYNC message of this die enters FEC encoding: T1 of a REQ or COARSE, T3 of a RESP (R327,
R328; log entry 9). The list begins with the header. -/
def stampSync (s : State) (n : Nat) (ws : List Word) : List Word :=
  if wbits (pw ws 0) 4 5 ≠ 13 ∨ wbits (pw ws 0) 15 6 ≠ dieOf s then ws
  else stampAt ws (if wbits (pw ws 1) 0 2 = 1 then 4 else 2) (txStamp s n (16 * s.now))

/-- The SYNC messages that begin in a flit are stamped as it is encoded again. -/
def stampFlit (s : State) (n starts : Nat) (ws : List Word) : List Word :=
  (List.range 18).foldl (fun ws i => if starts.testBit i then ws.take i ++ stampSync s n (ws.drop i) else ws) ws

/-- A flit of the replay buffer is encoded again: its SYNC messages have new stamps, in its own words or in those of the next flit
(R284, R328). -/
def restamp (s : State) (n q : Nat) : State :=
  let x := portSt s n
  match x.replay.find? fun r => decide (r.flit.seq = q) with
  | none => s
  | some r =>
    if r.flit.ftype ≠ 1 then s
    else
      let next := (q + 1) % 1024
      let k := r.flit.body.length
      let more := ((x.replay.find? fun y => decide (y.flit.seq = next)).map (·.flit.body)).getD []
      let ws := stampFlit s n r.flit.sstart (r.flit.body ++ more)
      let put_ (y : Replay) : Replay :=
        if y.flit.seq = q then { y with flit := { y.flit with body := ws.take k } }
        else if y.flit.seq = next then { y with flit := { y.flit with body := ws.drop k } }
        else y
      setPort s n { x with replay := x.replay.map put_ }

/-- Words go out against credits. -/
def spend (s : State) (n v k : Nat) : State := put s (fViaLcredCred n v) (get s (fViaLcredCred n v) - k)

/-- The slots of a DATA flit: words sent and starts (R280, R282). The last argument bounds how many messages begin. -/
def fillSlots (n : Nat) : Nat → State → List Word → Nat → State × List Word × Nat
  | 0, s, ws, st => (s, ws, st)
  | k + 1, s, ws, st =>
    let room := 18 - ws.length
    if room = 0 then (s, ws, st)
    else
      match nextMsg s n room with
      | none => (s, ws, st)
      | some (e, v) =>
        let all := stampSync s n (msgWords s e (v % 2))
        let part := all.take room
        let s := spend { s with fresh := s.fresh + all.length } n v part.length
        let x := portSt s n
        let rest := all.drop room
        let x := { x with
          sent := x.sent.erase e, rrVc := nextTurn x.rrVc (v / 2), txOpen := if rest = [] then none else some (v, e.hdr.dst % 64, rest) }
        fillSlots n k (setPort s n x) (ws ++ part) (st + 2 ^ ws.length)

/-- The DATA flit that is ready, if any. -/
def dataFlit (s : State) (n : Nat) : Option (State × Flit) :=
  let x := portSt s n
  match x.txOpen with
  | some (v, dst, rest) =>
    let part := rest.take 18
    if get s (fViaLcredCred n v) < part.length then none
    else
      let left := rest.drop 18
      let s := spend (setPort s n { x with txOpen := if left = [] then none else some (v, dst, left) }) n v part.length
      let (s, ws, st) := fillSlots n 18 s part 0
      some (s, ⟨1, (portSt s n).txSeq, st, ws⟩)
  | none =>
    let (s', ws, st) := fillSlots n 18 s [] 0
    if ws = [] then none else some (s', ⟨1, (portSt s' n).txSeq, st, ws⟩)

/-- A sequenced flit enters the replay buffer with its first transmission (R283). -/
def newFlit (s : State) (n : Nat) (f : Flit) : State × Flit :=
  let x := portSt s n
  let s := setPort s n { x with replay := x.replay ++ [⟨f, 1, s.now⟩], txSeq := (x.txSeq + 1) % 1024 }
  (hwm (chkWrite (tickFixed s 61) (bVia n) 0 0 (f.seq % 256)) (fViaRstatMaxatt n) 1, f)

/-- An unsequenced flit without a body. -/
def idleFlit : Flit := ⟨0, 0, 0, []⟩

/-- The body of a NOTICE flit is free (log entry 7). -/
def noticeBody (s : State) : List Word := [w64 (Config.bodyWord s.fresh), w64 (Config.bodyWord (s.fresh + 1))]

/-- The parameters a port states in its INIT flits (R292). -/
def initOut (s : State) (n : Nat) : InitFlit :=
  { sgid := get s fCoreSpancfgSgid, die := dieOf s, port := n, mode := spanMode s, mirror := on s fCoreSpancfgMirror
    mside := on s fCoreSpancfgMside, rate := on s (fViaCtlRate n), precode := on s (fViaCtlPrecode n), width2 := on s (fViaLstatWidth n) }

/-- The body of an INIT flit: its fields, in a layout the manual does not give (log entry 7). -/
def initBody (f : InitFlit) : List Word :=
  let v := [f.sgid, f.die, f.port, f.mode, b2n f.mirror, b2n f.mside, b2n f.rate, b2n f.precode, b2n f.width2]
  (List.range 18).map fun i => w64 (Config.initWord v i)

/-- The flit that the transmitter sends next (R282 to R284, R292, R304). -/
def nextFlit (s : State) (n : Nat) : State × Flit :=
  let x := portSt s n
  if x.st = .init then (s, ⟨2, 0, 0, initBody (initOut s n)⟩)
  else
    match x.resend with
    | q :: more =>
      match x.replay.find? fun r => decide (r.flit.seq = q) with
      | none => (setPort s n { x with resend := more }, idleFlit)
      | some r =>
        let again (y : Replay) : Replay := { y with attempts := y.attempts + 1 }
        let isQ (y : Replay) : Bool := decide (y.flit.seq = q)
        let s := setPort s n { x with resend := more, replay := mapFirst isQ again x.replay }
        let s := hwm (put s (fViaLstatRetry n) 1) (fViaRstatMaxatt n) (min 15 (r.attempts + 1))
        let (s, lost) := bufRead s n 0 (q % 256)
        let s := restamp s n q
        let again := (portSt s n).replay.find? fun y => decide (y.flit.seq = q)
        if lost then (s, idleFlit) else (tickFixed s 61, (again.map (·.flit)).getD r.flit)
    | [] =>
      if 256 ≤ x.replay.length then (s, idleFlit)
      else
        match x.mark, x.notes with
        | some t, _ => newFlit (setPort s n { x with mark := none }) n ⟨3, x.txSeq, 0, [w64 t]⟩
        | none, _ :: notes =>
          let body := noticeBody s
          newFlit { setPort s n { x with notes := notes } with fresh := s.fresh + 2 } n ⟨4, x.txSeq, 0, body⟩
        | none, [] =>
          if frozen s then (s, idleFlit)
          else
            match dataFlit s n with
            | some (s, f) => newFlit s n f
            | none => (s, idleFlit)

/-- The bits of a flit without its CRC (R278). -/
def flitBits (f : Flit) (ack : Nat) (nak : Bool) (crvc crcnt : Nat) : Nat :=
  f.ftype + 2 ^ 4 * f.seq + 2 ^ 14 * ack + 2 ^ 24 * b2n nak + 2 ^ 32 * crvc + 2 ^ 36 * crcnt + 2 ^ 48 * f.sstart
    + 2 ^ 96 * ofWords f.body
where
  ofWords (l : List Word) : Nat := l.foldr (fun w acc => w.toNat + 2 ^ 64 * acc) 0

/-- The codeword of a flit (R274, R277). -/
def codewordOf (bits : Nat) : BitVec 1360 :=
  let flit := bits + 2 ^ 1256 * crcOf 157 bits
  let data := symbolsOf 128 flit
  BitVec.ofNat 1360 (ofSymbols (data ++ rsParity data))

/-- A flit is sent, with the acknowledgement, NAK and credits due (R278, R283, R284, R287). -/
def sendThis (s : State) (n : Nat) (f : Flit) : State :=
  let x := portSt s n
  if x.st ≠ .init ∧ x.st ≠ .up then s
  else
    let (v, k) := (x.owed.head?).getD (0, 0)
    let k := min 4095 k
    let bits := flitBits f ((x.rxSeq + 1023) % 1024) x.nakOut v k
    setPort s n { x with nakOut := false, owed := mset x.owed v 0 (mgetD x.owed v 0 - k), lastTx := some (codewordOf bits) }

/-- The flit that is due is sent. -/
def sendFlit (s : State) (n : Nat) : State :=
  let (s, f) := nextFlit s n
  sendThis s n f

/-- What a port in ALIGN sends: no lane is known yet to be bad, and what its flit codewords carry is free (R275; log entry 140). -/
def sendTraining (s : State) (n : Nat) : State :=
  setPort { s with fresh := s.fresh + 1 } n { portSt s n with lastTx := some (Config.trainCodeword s.fresh) }

/-- One codeword is sent: an alignment codeword where the cadence of the port's state puts one, else a flit (R275). While ECLK is stopped
the transmit FIFO holds none, and it is an IDLE flit (R485). -/
def transmit (s : State) (n : Nat) : State :=
  let x := portSt s n
  if x.st ≠ .align ∧ x.st ≠ .init ∧ x.st ≠ .up then s
  else if (x.txCw + 1) % cadence (decide (x.st = .up)) = 0 then
    let lanes := if x.st = .align then 4 else linkLanes s n
    setPort s n { x with txCw := 0, lastTx := some (alignCodeword lanes) }
  else
    let s := setPort s n { x with txCw := x.txCw + 1 }
    if x.st = .align then sendTraining s n else if eclkRuns s then sendFlit s n else sendThis s n idleFlit

/-! The receiver. -/

/-- An ACK covers every flit up to the one it names (R283). -/
def acked (s : State) (n a : Nat) : State :=
  let x := portSt s n
  match x.replay.findIdx? fun r => decide (r.flit.seq = a) with
  | none => s
  | some i =>
    let left := x.replay.drop (i + 1)
    let keep (q : Nat) : Bool := left.any fun r => decide (r.flit.seq = q)
    let s := setPort s n { x with replay := left, resend := x.resend.filter keep }
    if left.any fun r => decide (2 ≤ r.attempts) then s else put s (fViaLstatRetry n) 0

/-- A flit carrying NAK reaches the transmitter (R284, R285). -/
def nakAt (s : State) (n a : Nat) : State :=
  if !isUp s n then s
  else
    let s := acked s n a
    let x := portSt s n
    if x.replay = [] then s
    else if x.replay.any fun r => decide (8 ≤ r.attempts) then toDown s n
    else bump (setPort s n { x with resend := x.replay.map (·.flit.seq) }) (fViaLnkcntReplays n)

/-- A bad flit (R276, R277, R284). -/
def badFlit (s : State) (n : Nat) : State :=
  let x := portSt s n
  if x.st = .up then setPort s n { x with nakOut := true, skipping := true } else s

/-- A message is whole: one with a reserved type is discarded and recorded; a SYNC or EPOCH of a reserved KIND is discarded
(R281, R327, R358). -/
def wholeMsg (s : State) (n : Nat) (ws : List Word) : State :=
  let x := portSt s n
  let h := pw ws 0
  let t := wbits h 4 5
  let v := 2 * wbits h 0 3 + wbits h 3 1
  let back := setPort s n { x with owed := mset x.owed v 0 (mgetD x.owed v 0 + ws.length) }
  if 17 ≤ t then raise back (bVia n) 4 (wbits h 15 6)
  else if (t = 13 ∧ wbits (pw ws 1) 0 2 = 3) ∨ (t = 14 ∧ 2 ≤ wbits (pw ws 1) 6 2) then back
  else setPort s n { x with rxMsgs := x.rxMsgs ++ [ws] }

/-- One slot of a DATA flit (R280). -/
def takeSlot (s : State) (n : Nat) (start : Bool) (w : Word) : State :=
  let x := portSt s n
  if !start && decide (x.rxPart = []) then s
  else
    let part := if start then [w] else x.rxPart ++ [w]
    if headLen (pw part 0) ≤ part.length then wholeMsg (setPort s n { x with rxPart := [] }) n part
    else setPort s n { x with rxPart := part }

/-- The slots of a DATA flit. -/
def takeSlots (s : State) (n flit : Nat) : State :=
  (List.range 18).foldl (fun s i => takeSlot s n (flit.testBit (48 + i)) (w64 (flit / 2 ^ (96 + 64 * i)))) s

/-- The messages a DATA flit would complete do not fit in the capture share beside those received and captured (R305). -/
def capOver (s : State) (n flit : Nat) : Bool :=
  capCounts s n &&
    decide (capShare < get s (fViaFrzCapb n) + sumBy (fun ws : List Word => ws.length) (portSt (takeSlots s n flit) n).rxMsgs)

/-- A sequenced flit (R283, R284). During a freeze a DATA flit that the capture share cannot take is not accepted, and stays in the
sender's replay buffer (R305). MARKER and NOTICE act by commands of their own. -/
def sequenced (s : State) (n flit : Nat) : State :=
  let x := portSt s n
  if flit / 16 % 1024 ≠ x.rxSeq then
    setPort s n { x with nakOut := x.nakOut || !x.skipping, skipping := true }
  else if frozen s && on s (fViaFrzOvf n) && decide (flit % 16 = 1) then s
  else if frozen s && decide (flit % 16 = 1) && capOver s n flit then capFull s n
  else
    let s := setPort s n { x with rxSeq := (x.rxSeq + 1) % 1024, skipping := false }
    if flit % 16 = 1 then takeSlots s n flit else s

/-- A flit has passed its checks. -/
def goodFlit (s : State) (n flit : Nat) : State :=
  let t := flit % 16
  let x := portSt s n
  let s := setPort s n { x with lastGood := s.now, service := x.service || decide (t ≠ 2) }
  let s := if 5 ≤ t then put s (fViaLnkcntBadtype n) (min 255 (get s (fViaLnkcntBadtype n) + 1)) else s
  if x.st ≠ .up then s
  else
    let v := flit / 2 ^ 32 % 16
    let k := flit / 2 ^ 36 % 4096
    let s := if v < 12 then put s (fViaLcredCred n v) (min (fullCredit v) (get s (fViaLcredCred n v) + k)) else s
    let a := flit / 2 ^ 14 % 1024
    let s := if flit.testBit 24 then nakAt s n a else acked s n a
    if !isUp s n then s
    else if t = 1 ∨ t = 3 ∨ t = 4 then sequenced s n flit else s

/-- A flit codeword is decoded, and its errors are counted (R276). -/
def fecDecode (s : State) (n : Nat) (cw : BitVec 1360) : State × Option Nat :=
  match rsDecode (symbolsOf 136 cw.toNat) with
  | none => (put s (fViaFeccntUncorr n) (min 65535 (get s (fViaFeccntUncorr n) + 1)), none)
  | some (data, fixed) =>
    let s := if fixed = [] then s else bump s (fViaFeccntCorr n)
    (fixed.foldl (fun s i => bump s (fViaSymerrSym n (i % linkLanes s n))) s, some (ofSymbols data))

/-- A flit codeword is received (R276, R277). While ECLK is stopped its flit finds no place and is lost (DEDUCED, log entry 138). -/
def flitCw (s : State) (n : Nat) (cw : BitVec 1360) : State :=
  if (portSt s n).locked = false then (if eclkRuns s then badFlit s n else s)
  else
    let (s, got) := fecDecode s n cw
    if !eclkRuns s then s
    else
      match got with
      | none => badFlit s n
      | some flit => if crcOf 157 flit = flit / 2 ^ 1256 then goodFlit s n flit else badFlit (bump s (fViaLnkcntCrcerr n)) n

/-- A codeword is received: compared with the alignment codeword where one is expected, else decoded (R275, R276). -/
def receive (s : State) (n : Nat) (cw : BitVec 1360) : State :=
  let x := portSt s n
  if alignDue x then alignCw s n (decide (cw = alignCodeword (linkLanes s n)))
  else flitCw (setPort s n { x with rxCw := x.rxCw + 1 }) n cw

/-- One codeword is received and one is sent (R275, R276, R283); a port in ALIGN has no lock and decodes none. The receive domain runs
from PCLK, also while ECLK is stopped (R485). -/
def dataAt (s : State) (n : Nat) (cw : BitVec 1360) : State :=
  if s.clk.inReset then s
  else
    match (portSt s n).st with
    | .align => transmit s n
    | .init => transmit (receive s n cw) n
    | .up => transmit (receive s n cw) n
    | _ => s

/-! The MARKER (R305). -/

/-- A freeze MARKER is accepted: the capture of the port ends. -/
def markerAt (s : State) (n : Nat) : State :=
  if !freezing s || !isUp s n || !s.obs.cut.contains n || on s (fViaFrzMlost n) then s
  else
    let s := { s with obs := { s.obs with cut := s.obs.cut.filter fun p => decide (p ≠ n) } }
    put s (fViaFrzMark n) 1

/-- No MARKER has come within 10 us of the freeze tick. -/
def markerLate (s : State) (n : Nat) : State :=
  if !freezing s || !s.obs.cut.contains n || decide (s.now < s.obs.frzT + us 10) then s
  else
    let s := { s with obs := { s.obs with cut := s.obs.cut.filter fun p => decide (p ≠ n) } }
    put (raise (put s (fViaFrzMlost n) 1) (bVia n) 7 0) fObsFrzstIncomplete 1

/-- The retry timers resume where the freeze stopped them (R306). -/
def resumeTimers (s : State) (n : Nat) : State :=
  let x := portSt s n
  let later (r : Replay) : Replay := { r with first := r.first + (s.now - max r.first s.obs.frzT) }
  setPort s n { x with replay := x.replay.map later }

end Sys2Proof.Machine
end

