-- ==== Sys2Proof/Machine/Clock.lean ====
section
/-! DEFINITION. ECLK and its inputs (R401 to R407), the gate tree (R409 to R414, R431), and DROOP_WARN (R416). -/
namespace Sys2Proof.Machine

/-! ECLK. -/

/-- A divider value: 0 as 1, above 8 as 8. -/
def divVal (n : Nat) : Nat := max 1 (min 8 n)

/-- The divider that CLK_CTL asks for. -/
def divGoal (s : State) : Nat := divVal (get s fClkCtlDiv)

def cdiv (s : State) : Nat := get s fClkStatCdiv

/-- Whether an input is shown as present. -/
def inputOk (s : State) (i : Bool) : Bool := if i then on s fClkStatIn1ok else on s fClkStatIn0ok
def setInput (s : State) (i v : Bool) : State :=
  if i then put { s with clk := { s.clk with lost1 := !v } } fClkStatIn1ok (b2n v)
  else put { s with clk := { s.clk with lost0 := !v } } fClkStatIn0ok (b2n v)

/-- An ECLK input has been found lost and is not back. -/
def inputLost (s : State) (i : Bool) : Bool := if i then s.clk.lost1 else s.clk.lost0

/-- The input in use. -/
def inputSel (s : State) : Bool := on s fClkStatSel

def setSwitch (s : State) (x : Option Switch) : State := { s with clk := { s.clk with switch := x, lastStep := s.now } }

/-- A ramp is in progress until CDIV equals DIV. -/
def rampOn (s : State) : State := put s fClkStatRamp (b2n (decide (cdiv s ≠ divGoal s)))

/-- A write to CLK_CTL (R403 to R406). -/
def clkCtlWrite (s : State) (w : Word) : State :=
  if on s fClkStatRamp then put s fClkStatWign 1
  else
    let src := decide (wbits w 0 1 = 1)
    let oldDiv := get s fClkCtlDiv
    let s := put (put s fClkCtlFailover (wbits w 5 1)) fClkCtlDiv (wbits w 1 4)
    if src ≠ inputSel s ∧ inputOk s src = true then
      let s := setSwitch (put (put s fClkCtlSrc (b2n src)) fClkStatRamp 1) (some ⟨src, false⟩)
      put s fClkStatCdiv (min 8 (cdiv s + 1))
    else
      let s := if src ≠ inputSel s then raise s bClk 4 0 else s
      if oldDiv = wbits w 1 4 then s else rampOn (setSwitch s none)

/-- The pace of a ramp: 1,000 dt, or before the lock a count of input cycles (R402). -/
def stepDue (s : State) : Bool := !on s fDtStatLock || decide (s.clk.lastStep + 1000 ≤ s.now)

/-- A switch or ramp ends when CDIV equals DIV after the source has changed (R404). -/
def rampEnds (s : State) : State :=
  if cdiv s = divGoal s then
    let s := put s fClkStatRamp 0
    match s.clk.switch with
    | some _ => bump { s with clk := { s.clk with switch := none } } fClkCntSwitches
    | none => s
  else s

/-- One step of a ramp or switch (R402 to R404). -/
def rampStep_ (s : State) : State :=
  if s.clk.inReset || on s fClkStatStopped || !on s fClkStatRamp || !stepDue s then s
  else
    let s := { s with clk := { s.clk with lastStep := s.now } }
    match s.clk.switch with
    | some ⟨target, false⟩ =>
      if cdiv s < 8 then put s fClkStatCdiv (cdiv s + 1)
      else rampEnds (setSwitch (put s fClkStatSel (b2n target)) (some ⟨target, true⟩))
    | _ =>
      let g := divGoal s
      rampEnds (if cdiv s < g then put s fClkStatCdiv (cdiv s + 1) else if g < cdiv s then put s fClkStatCdiv (cdiv s - 1) else s)

/-- The new input has shown no edge within 64 dt of the wait for it (R405). -/
def rampFault_ (s : State) : State :=
  match s.clk.switch with
  | some ⟨_, false⟩ =>
    if s.clk.inReset || on s fClkStatStopped || decide (cdiv s ≠ 8) || decide (s.now < s.clk.lastStep + 1064) then s
    else raise (rampOn (put (setSwitch s none) fClkCtlSrc (b2n (inputSel s)))) bClk 4 0
  | _ => s

/-- ECLK restarts from an input at CDIV 8 and ramps down (R407). -/
def restartFrom (s : State) (i : Bool) : State :=
  let s := put (put (setSwitch s none) fClkStatSel (b2n i)) fClkCtlSrc (b2n i)
  rampOn (put (put s fClkStatCdiv 8) fClkStatStopped 0)

/-- ECLK restarts from an input: where the other is lost, that is now the condition of ALT_LOST, which begins when the selection
changes to the input (R375, R407). -/
def takeInput (s : State) (i : Bool) : State :=
  let began := inputSel s != i && inputLost s (!i)
  let s := restartFrom s i
  if began then raise s bClk 1 0 else s

/-- An input is lost: it has shown no edge for 64 dt (R407). -/
def eclkLoss (s : State) (i : Bool) : State :=
  if s.clk.inReset || inputLost s i then s
  else
    let s := setInput s i false
    if i ≠ inputSel s then raise s bClk 1 0
    else
      let s := raise s bClk 0 0
      if on s fClkCtlFailover && inputOk s (!i) then bump (takeInput s (!i)) fClkCntFailovers
      else put s fClkStatStopped 1

/-- An input is present again (R407). -/
def inputBack (s : State) (i : Bool) : State :=
  if s.clk.inReset then s
  else
    let s := setInput s i true
    if on s fClkStatStopped then takeInput s i else s

/-! The observation pin (R415). -/

/-- A clock that ZS_CLKOBS can carry. -/
inductive ClkSrc where
  | eclk | input (i : Bool) | dtclk | dtref | management
  | receive (port : Nat)
  | gated (node : Nat)
  | pier (p : Nat)
  deriving DecidableEq, Repr

/-- The clock that CLK_OBS.SEL chooses. -/
def obsSource (s : State) : ClkSrc :=
  let n := get s fClkObsSel
  if n = 0 then .eclk else if n = 1 then .input false else if n = 2 then .input true else if n = 3 then .dtclk
  else if n = 4 then .dtref else if n = 5 then .management
  else if n < 14 then .receive (n - 6)
  else if n = 14 then .gated 0
  else if n < 23 then .gated (1 + (n - 15))
  else if n < 39 then .gated (73 + (n - 23))
  else if n < 47 then .gated (89 + (n - 39))
  else if n = 47 then .gated 97
  else .pier (get s ⟨rClkObstap (n - 48), 0, 11⟩)

/-- What ZS_CLKOBS carries: a clock and the number it is divided by; none where the pin is low, for want of EN or of the clock
itself. The pin stays low for two periods after a change, which is timing and no part of this. -/
def clkObs (s : State) : Option (ClkSrc × Nat) :=
  let c := obsSource s
  let runs : Bool := match c with
    | .eclk => eclkRuns s
    | .input i => !inputLost s i
    | .gated n => eclkRuns s && gateOn s n
    | .pier p => !(pierSt s p).stopped
    | _ => true
  if on s fClkObsEn && runs then some (c, 2 ^ get s fClkObsN) else none

/-! The gate tree. -/

/-- The children of a node. -/
def gateKids (n : Nat) : List Nat := (List.range 98).filter fun k => decide (gateParent k = some n)

/-- A node is idle (R410). An OPEN that waits for its barrier (R217) makes its unit busy (R412). -/
def gateIdle (s : State) (n : Nat) : Bool :=
  if n < 9 then (gateKids n).all fun k => !gateOn s k
  else if n < 73 then
    let i := n - 9
    decide (slotsIn s i = 0) && decide (tableUse s i = 0) && decide (mgetD s.wk.ports i [] = [])
  else if n < 89 then
    (s.abc.ctxs.all fun x => decide (x.1 % 16 ≠ n - 73)) && !(s.abc.pendCmd.any fun x => x.2.isSome && decide (x.1 % 16 = n - 73))
  else if n < 97 then
    match (portSt s (n - 89)).st with
    | .off => true
    | .failed => true
    | _ => false
  else (List.range 64).all fun l => !on s (fTrsLcfgEn l)

/-- The outcome of a gate request. -/
def gateResult (s : State) (n r : Nat) (busy : Bool) : State :=
  put (put (put s fClkGreqstBusy (b2n busy)) fClkGreqstResult r) fClkGreqstNode n

/-- CLK_GREQ open (R413, R431). -/
def doGateOpen (s : State) (n : Nat) : State :=
  if on s fClkGreqstBusy then s
  else if 97 < n then gateResult s n 3 false
  else gateResult (openGate s n) n 0 false

/-- CLK_GREQ close (R410, R431). -/
def doGateClose (s : State) (n : Nat) : State :=
  if on s fClkGreqstBusy then s
  else if 97 < n then gateResult s n 3 false
  else if !gateOn s n then gateResult s n 0 false
  else if !gateIdle s n then gateResult (raise s bClk 2 n) n 1 false
  else
    let s := gateResult s n 0 true
    { s with clk := { s.clk with gateAt := some s.now } }

def noGate (s : State) : State := { s with clk := { s.clk with gateAt := none } }

/-- The node of the unit for which a cancel is on its way (R350). -/
def cancelNode (s : State) (c : Cmd) : Option Nat :=
  match findHeld s (dieOf s) c.agent c.queue with
  | some (.waiter key _) => some (9 + sliceOf key)
  | some (.queued _ r) => some (9 + r)
  | some (.beside _ r) => some (9 + r)
  | some (.lane _ _) => some 97
  | _ => none

/-- A Girder message to or from the unit of a gate node is in progress (R411). -/
def unitBusy (s : State) (n : Nat) : Bool :=
  let g := s.gir
  g.cancels.any (fun x => decide (cancelNode s x.1 = some n)) ||
  if 9 ≤ n ∧ n < 73 then
    let i := n - 9
    g.commits.any (fun x => decide (x.2.1 = .slice i)) || g.wakes.any (fun x => decide (x.1 = i))
      || g.stalled.any (fun x => decide ((htmAt s x.1).slice = i))
      || g.reports.any (fun x => decide (homeRouter s x.2.1.1 x.2.2.1 = i))
      || g.notices.any (fun x => decide (homeRouter s x.2.1.tenant (pObj x.2.1.words) = i))
      || g.sreports.any fun x => decide (x.1 = i)
  else if 73 ≤ n ∧ n < 89 then
    let u := n - 73
    g.notices.any (fun x => decide (x.1 % 16 = u)) || g.reports.any fun x => decide (x.1 % 16 = u)
  else if 89 ≤ n ∧ n < 97 then
    let mine (tag : Nat) : Bool := s.rt.parts.any fun p => decide (p.tag = tag) && decide (p.origin.map (·.1) = some (n - 89))
    g.commits.any (fun x => mine x.1) || g.sreports.any fun x => mine x.2.1
  else false

/-- The unit acknowledges the bus-idle handshake, which it does once no message to or from it is in progress: the gate closes
(R411). -/
def busIdle (s : State) : State :=
  let n := get s fClkGreqstNode
  match s.clk.gateAt with
  | none => s
  | some _ => if !eclkRuns s || unitBusy s n then s else gateResult (setGate (noGate s) n false) n 0 false

/-- No acknowledgement has come within 1,000 dt (R411). -/
def gateLate (s : State) : State :=
  match s.clk.gateAt with
  | none => s
  | some t =>
    if s.now < t + 1000 then s
    else
      let n := get s fClkGreqstNode
      gateResult (raise (noGate s) bClk 3 n) n 2 false

/-- A close that waits is abandoned when its node is no longer idle (R412). -/
def gateAbandon (s : State) : State :=
  match s.clk.gateAt with
  | none => s
  | some _ =>
    let n := get s fClkGreqstNode
    if gateIdle s n then s else gateResult (raise (noGate s) bClk 2 n) n 1 false

/-- Every gate opens (R414). -/
def openAll (s : State) : State :=
  let s := wr (wr s rClkGopen0 (w64 (2 ^ 64 - 1))) rClkGopen1 (w64 (2 ^ 34 - 1))
  match s.clk.gateAt with
  | none => s
  | some _ => gateResult (raise (noGate s) bClk 2 (get s fClkGreqstNode)) (get s fClkGreqstNode) 1 false

end Sys2Proof.Machine
end

