-- ==== Sys2Proof/Machine/Sha.lean ====
section
/-! DEFINITION. SHA-384 as FIPS 180-4 defines it (R420), over 64-bit words; its constants are computed as the standard defines
them, from the fractional parts of roots of primes. -/
namespace Sys2Proof.Machine

/-- The primes up to a bound. -/
def primesTo (n : Nat) : List Nat := (List.range (n + 1)).filter fun p => decide (2 ≤ p) && (List.range p).all fun d => decide (d < 2) || decide (p % d ≠ 0)

/-- The greatest r below 2^k with r^e not above x. -/
def rootFloor (e x : Nat) : Nat → Nat
  | 0 => 0
  | k + 1 =>
    let r := 2 * rootFloor e (x / 2 ^ e) k
    if (r + 1) ^ e ≤ x then r + 1 else r

/-- The first 64 bits of the fractional part of a square or cube root. -/
def sqrtFrac (p : Nat) : Nat := rootFloor 2 (p * 2 ^ 128) 70 % 2 ^ 64
def cbrtFrac (p : Nat) : Nat := rootFloor 3 (p * 2 ^ 192) 70 % 2 ^ 64

/-- The 80 round constants, from the first 80 primes. -/
def shaK : List Word := (primesTo 409).map fun p => w64 (cbrtFrac p)

/-- The initial hash value of SHA-384, from the ninth to the sixteenth prime. -/
def shaInit : List Word := ((primesTo 53).drop 8).map fun p => w64 (sqrtFrac p)

def rotr (x : Word) (n : Nat) : Word := x.rotateRight n
def bigSig0 (x : Word) : Word := rotr x 28 ^^^ rotr x 34 ^^^ rotr x 39
def bigSig1 (x : Word) : Word := rotr x 14 ^^^ rotr x 18 ^^^ rotr x 41
def smallSig0 (x : Word) : Word := rotr x 1 ^^^ rotr x 8 ^^^ (x >>> 7)
def smallSig1 (x : Word) : Word := rotr x 19 ^^^ rotr x 61 ^^^ (x >>> 6)

/-- The message schedule, latest word first; the argument counts the words still to be made. -/
def shaSchedule : Nat → List Word → List Word
  | 0, l => l
  | n + 1, l => shaSchedule n ((smallSig1 (l.getD 1 0) + l.getD 6 0 + smallSig0 (l.getD 14 0) + l.getD 15 0) :: l)

/-- One round on the eight working variables. -/
def shaRound (v : List Word) (kw : Word × Word) : List Word :=
  match v with
  | [a, b, c, d, e, f, g, h] =>
    let t1 := h + bigSig1 e + ((e &&& f) ^^^ (~~~e &&& g)) + kw.1 + kw.2
    let t2 := bigSig0 a + ((a &&& b) ^^^ (a &&& c) ^^^ (b &&& c))
    [t1 + t2, a, b, c, d + t1, e, f, g]
  | _ => v

/-- One 128-byte block, as 16 words. -/
def shaBlock (k h block : List Word) : List Word :=
  let w := (shaSchedule 64 block.reverse).reverse
  List.zipWith (· + ·) h ((List.zip k w).foldl shaRound h)

/-- Blocks of words. -/
def shaBlocks (k : List Word) : Nat → List Word → List Word → List Word
  | 0, h, _ => h
  | n + 1, h, l => shaBlocks k n (shaBlock k h (l.take 16)) (l.drop 16)

/-- The digest, in 6 big-endian words, of a message of n big-endian words, n a multiple of 16. -/
def sha384Words (msg : List Word) : List Word :=
  let n := msg.length
  let padded := msg ++ [w64 (2 ^ 63)] ++ List.replicate 14 0 ++ [w64 (64 * n)]
  (shaBlocks shaK (n / 16 + 1) shaInit padded).take 6

/-- The bytes of a word in the other order. -/
def byteSwap (x : Word) : Word := w64 (ofBytes (bytesOf 8 x.toNat).reverse)

/-- The digest of words in memory order, as words with byte 8j in bits [7:0] (R420). -/
def sha384 (ws : List Word) : List Word := (sha384Words (ws.map byteSwap)).map byteSwap

end Sys2Proof.Machine
end

