-- ==== Sys2Proof/Machine/Firmware.lean ====
section
/-! DEFINITION. Start-up and firmware: measurement (R420, R425), release (R421, R422), start-up steps (R363, R423), heartbeat
(R424), live update (R426 to R429), and what a restart of the bridge-keeper ends (R383). -/
namespace Sys2Proof.Machine

/-- Instruction memory words of the image: LEN x 256 bytes (R420). -/
def imageWords (s : State) : List Word := (List.range (32 * get s fFwImgLen)).map fun i => mgetD s.fw.imem i 0

def imageDigest (s : State) : List Word := sha384 (imageWords s)

/-- A digest written to six registers. -/
def putDigest (s : State) (at_ : Nat → Nat) (d : List Word) : State :=
  (List.range 6).foldl (fun s j => wr s (at_ j) (d.getD j 0)) s

def measEquals (s : State) (other : Nat → Nat) : Bool := (List.range 6).all fun j => decide (rd s (rFwMeas j) = rd s (other j))

/-- Under ENFORCE the measurement differs from KEY_MEXP (R367). -/
def measBad (s : State) : Bool := on s fKeyMpolMode && !measEquals s rKeyMexp

/-- The controller stands (R421, R427, R391). -/
def fwHalt (s : State) (why : FwStop) : State :=
  put (put { s with fw := { s.fw with stop := why } } fFwStatRun 0) fFwStatReady 0

/-- The item is a SETVAL. -/
def isSetval : HomeItem → Bool
  | .setval _ => true
  | _ => false

/-- Management commands that firmware has in progress complete with BUSY_FW (R383, R391). -/
def endFwCommands (s : State) : State :=
  let s := (List.range 256).foldl (fun s t => if ownReset s t then tenDone s t 3 .busyFw else s) s
  let s := if s.sema.paging.any fun p => isSetval p.item then
      marDone { s with sema := { s.sema with paging := s.sema.paging.filter fun p => !isSetval p.item } } mSetval .busyFw
    else s
  let s := match s.abc.pendCmd with
    | none => s
    | some (c, _) =>
      let s := { s with
        abc := { s.abc with pendCmd := none }
        sema := { s.sema with paging := s.sema.paging.filter fun p => !isCbound p.item } }
      setCmdst s c .busyFw false
  match s.obs.sncmd with
  | none => s
  | some _ => put (put { s with obs := { s.obs with sncmd := none } } fObsSnstBusy 0) fObsSnstStatus (stCode .busyFw)

/-- The words of the instruction memory that an injection has struck, within the image. -/
def imemBad (s : State) : List Nat :=
  (s.flt.bad.filter fun x => decide (x.block = bFw) && decide (x.target = 0) && decide (x.index < 32 * get s fFwImgLen)).map (·.index)

/-- A word found uncorrectable stays so until it is written. -/
def stillBad (s : State) (target i : Nat) : State := { s with flt := { s.flt with bad := s.flt.bad ++ [⟨bFw, target, 0, i, true⟩] } }

/-- Word i of the instruction memory is read: an uncorrectable one stops the bridge-keeper, and the commands in progress complete
with BUSY_FW (R390, R391). -/
def imemWord (s : State) (i : Nat) : State :=
  let (s, e) := chkRead s bFw 0 0 i
  match e with
  | .good => s
  | .ce => raise s bFw 1 (dMem 0 i)
  | .ue => raise (endFwCommands (fwHalt (stillBad s 0 i) .imemUe)) bFw 2 (dMem 0 i)

/-- The whole image is read; answers whether a word of it was uncorrectable. -/
def imemRead (s : State) : State × Bool :=
  let lost := s.flt.bad.any fun x => x.two && decide (x.block = bFw) && decide (x.target = 0) && (imemBad s).contains x.index
  ((imemBad s).foldl imemWord s, lost)

/-- Word i of the data memory is read (R390, R391). -/
def dmemWord (s : State) (i : Nat) : State :=
  let (s, e) := chkRead s bFw 1 0 i
  match e with
  | .good => s
  | .ce => raise s bFw 3 (dMem 1 i)
  | .ue => raise (stillBad s 1 i) bFw 4 (dMem 1 i)

/-- Firmware reads its data memory, as it does in a heartbeat: every word of it (DESIGN CHOICE, log entry 37). -/
def dmemRead (s : State) : State :=
  ((s.flt.bad.filter fun x => decide (x.block = bFw) && decide (x.target = 1)).map (·.index)).foldl dmemWord s

/-- The data memory is cleared, and every check word of it is written (R422, R429). -/
def clearDmem (s : State) : State :=
  let keep (x : BadWord) : Bool := !(decide (x.block = bFw) && decide (x.target = 1))
  chkWrite { s with fw := { s.fw with dmem := [] }, flt := { s.flt with bad := s.flt.bad.filter keep } } bFw 1 0 0

/-- The controller starts on the image (R421, R422, R429): data memory clear, READY to be set by firmware. -/
def fwStart (s : State) : State :=
  let s := clearDmem { s with fw := { s.fw with stop := .running, released := true, beatAt := s.now } }
  (imemRead (bump (put (put s fFwStatRun 1) fFwStatReady 0) fFwCntRestarts)).1

/-- STATE and DT of FW_UPDST. -/
def updState (s : State) (st : Nat) : State := put (put s fFwUpdstState st) fFwUpdstDt s.now
def updStatus (s : State) (st : Status) : State := put s fFwUpdstStatus (stCode st)

/-! The image and its measurement. -/

/-- FW_IMG.DONE is set in the boot window: the measurement starts (R419, R420). After KEY_LOCK an image is loaded by the live-update
sequence alone (R421). -/
def imgDone (s : State) : State :=
  if on s fFwImgDone || on s fKeyCtlLock then s
  else
    let s := put s fFwImgDone 1
    { s with fw := { s.fw with measuring := true } }

/-- STARTING: the controller is released on the new image; one that was never released waits for the release of R421, whether KEY_LOCK
is set or not (R428, R429). -/
def updStarts (s : State) : State :=
  let s := updState s 5
  if s.fw.released then fwStart s
  else clearDmem { s with fw := { s.fw with stop := .unreleased } }

/-- A live update that DROOP_WARN has held starts its image once the warning is gone (R416, R429). -/
def droopOver (s : State) : State :=
  if decide (get s fFwUpdstState = 4) && !s.clk.droop && eclkRuns s then updStarts s else s

/-- A measurement of the image completes (R420, R429). One that meets an uncorrectable word yields no digest, and the image has to be
loaded again (R391; DEDUCED, log entry 141). -/
def measureImage (s : State) : State :=
  if !s.fw.measuring || !eclkRuns s then s
  else
    let (s, lost) := imemRead { s with fw := { s.fw with measuring := false } }
    if lost then (if get s fFwUpdstState = 3 then updState s 2 else s)
    else
    let s := put (putDigest s rFwMeas (imageDigest s)) fFwStatMeasured 1
    if get s fFwUpdstState = 3 then
      if measBad s then updState (raise s bFw 0 0) 2
      else if s.clk.droop then updState s 4
      else updStarts s
    else if on s fKeyCtlLock && measBad s then raise s bFw 0 0
    else s

/-- FW_MREQ.MEASURE (R425). -/
def measureReq (s : State) : State :=
  if s.fw.measuring || on s fFwMstatBusy || decide (get s fFwUpdstState ≠ 0) then s
  else put (put s fFwMstatBusy 1) fFwMstatDone 0

def measureReqDone (s : State) : State :=
  if !on s fFwMstatBusy || !eclkRuns s then s
  else
    let (s, lost) := imemRead s
    let s := if lost then s else putDigest s rFwMnow (imageDigest s)
    put (put (put s fFwMstatBusy 0) fFwMstatDone 1) fFwMstatMatch (b2n (!lost && measEquals s rFwMnow))

/-! Start-up. -/

/-- KEY_CTL.LOCK is set (R323, R363, R421, R423). -/
def keyLock_ (s : State) : State :=
  if on s fKeyCtlLock then s
  else
    let s := put s fKeyCtlLock 1
    let s := if get s fCoreStepStep = 2 then put s fCoreStepStep 3 else s
    let s := beginMeasure s none
    if on s fFwStatMeasured && measBad s then raise s bFw 0 0 else s

/-- The release conditions of R421. -/
def releasable (s : State) : Bool :=
  eclkRuns s && on s fKeyCtlLock && on s fFwStatMeasured && !measBad s && on s fDtStatLock && on s fDtPmstatDone
    && on s fSemaStatHtmReady && s.clk.memInit && decide (s.fw.stop = .unreleased)
    && (decide (get s fFwUpdstState = 0) || decide (get s fFwUpdstState = 5))

/-- The bridge-keeper is released (R421, R423). -/
def release (s : State) : State :=
  if releasable s then
    let s := fwStart s
    if get s fCoreStepStep = 3 then put s fCoreStepStep 4 else s
  else s

/-- A handle-table entry left in TRANSIT by no move is completed from the slot tags, or from its image (R422). -/
def completeTransit (s : State) (i : Nat) : State :=
  let slot := (ownerOf s i).bind fun (t, n) => s.sema.slots.find? fun x => decide (x.2.tenant = t) && decide (x.2.obj = n)
  let e := htmAt s i
  let s := match slot with
    | some (key, _) => setHtm s i { e with state := .resident, slice := sliceOf key, slot := slotOf key }
    | none => setHtm s i { e with state := .backed }
  releaseTransit s i

/-- Firmware's start duties, then READY (R422, R429). -/
def ready_ (s : State) : State :=
  if !eclkRuns s || !on s fFwStatRun || on s fFwStatReady then s
  else
    let s := s.sema.moves.foldl endMove s
    let s := ((s.sema.htm.filter fun x => decide (x.2.state = .transit)).map (·.1)).foldl completeTransit s
    let s := put (put { s with fw := { s.fw with beatAt := s.now } } fSemaCtlPageEn 1) fFwStatReady 1
    if get s fFwUpdstState = 5 then bump (updStatus (updState s 0) .ok) fFwCntUpdates else s

/-- A write to CORE_STEP (R423). -/
def coreStep_ (s : State) (v : Nat) : State :=
  let portsDone := decide (spanMode s = 0) || (List.range 8).all fun n =>
    !on s (fViaCtlEn n) || decide ((portSt s n).st = .up) || decide ((portSt s n).st = .failed)
  let ok : Bool := match v with
    | 5 => on s fFwStatReady
    | 6 => true
    | 7 => portsDone
    | 8 => decide (alState s = alAligned) || decide (alState s = alFailed)
    | 9 => true
    | _ => false
  if decide (v = get s fCoreStepStep + 1) && ok then put s fCoreStepStep v else s

/-! The heartbeat. -/

/-- FW_CTL.HBLIM in dt. -/
def hbLimit (s : State) : Nat := us (max 10 (get s fFwCtlHblim))

/-- The bridge-keeper writes FW_HBEAT (R424). -/
def heartbeat (s : State) : State := if on s fFwStatRun then dmemRead { s with fw := { s.fw with beatAt := s.now } } else s

/-- HBLIM has passed without a heartbeat, or at a safe point without an acknowledgement (R424, R427). -/
def fwHang_ (s : State) : State :=
  if !eclkRuns s || !on s fFwStatRun then s
  else if get s fFwUpdstState = 1 ∧ hbLimit s ≤ (s.now + 2 ^ 40 - get s fFwUpdstDt) % 2 ^ 40 then
    raise (updState (fwHalt s .update) 2) bFw 5 0
  else if on s fFwCtlHben && decide (s.fw.beatAt + hbLimit s ≤ s.now) then raise s bFw 5 0
  else s

/-! Live update. -/

/-- FW_UPD BEGIN (R426 to R428). A controller stopped by R421 or IMEM_UE keeps that cause, for its load is a recovery. -/
def updBegin (s : State) : State :=
  let stopped := decide (s.fw.stop = .unreleased) || decide (s.fw.stop = .imemUe)
  if !stopped && !on s fKeyMpolLive then updStatus s .prot
  else if get s fFwUpdstState ≠ 0 then updStatus s .badop
  else if stopped then updState (updStatus s .ok) 2
  else updState (updStatus s .ok) 1

/-- Firmware has a management or paging command in progress (R426). -/
def fwBusy (s : State) : Bool :=
  s.sema.moves ≠ [] || s.abc.pendCmd.isSome || s.sema.paging.any (fun p => isSetval p.item) || s.obs.sncmd.isSome || (List.range 256).any (ownReset s)

/-- Firmware acknowledges the safe point, once it has finished what is in progress (R426, R427). -/
def safePoint (s : State) : State :=
  if get s fFwUpdstState ≠ 1 ∨ eclkRuns s = false ∨ fwBusy s = true then s
  else updState (fwHalt (put s fSemaCtlPageEn 0) .update) 2

/-- FW_UPD COMMIT (R429). -/
def updCommit (s : State) : State :=
  if get s fFwUpdstState ≠ 2 then updStatus s .badop
  else
    let s := updState (updStatus s .ok) 3
    { s with fw := { s.fw with measuring := true } }

/-- DROOP_WARN changes level (R398, R416). -/
def droopAt (s : State) (level : Bool) : State :=
  let was := s.clk.droop
  let s := { s with clk := { s.clk with droop := level } }
  if level && !was && !s.clk.inReset then raise s bClk 5 0 else s

/-! Restart (R383). -/

/-- The FW block reset: the controller restarts from the image, unless it stands for an update or for want of one. -/
def fwReset (s : State) : State :=
  let s := endFwCommands s
  if on s fFwStatRun then fwStart s
  else
    match s.fw.stop with
    | .imemUe => s
    | _ => clearDmem s

/-- The handle translation memory is clear, and every memory initialised (R56, R418). -/
def htmReady_ (s : State) : State :=
  if !eclkRuns s || on s fSemaStatHtmReady then s
  else
    let s := put { s with clk := { s.clk with memInit := true } } fSemaStatHtmReady 1
    let early := s.sema.early
    early.foldl bankItem { s with sema := { s.sema with early := [] } }

end Sys2Proof.Machine
end

