-- ==== Sys2Proof/Machine/Reset.lean ====
section
/-! DEFINITION. Block resets and their shadow (R383, R384), DEGRADED mode (R395 to R397), injections at special targets (R394),
cold and power-on reset (R380, R417, R492), and what ends every command: the actions its faults asked for. -/
namespace Sys2Proof.Machine

/-! DEGRADED mode. -/

/-- Where an item that waits in Girder for a place came onto it. -/
def stalledFrom (s : State) : HomeItem → Origin
  | .cmd c _ _ => .router (entryRouter s c)
  | .stage tag _ _ _ _ => .router (((partOf s tag).map (coordRouter s)).getD 0)
  | _ => .apart

/-- The bank at which an item waits for the translation memory (R56). -/
def earlyBank (s : State) : HomeItem → Nat
  | .cmd c _ _ => bankOf s c.tenant (pObj c.words)
  | .stage _ e c _ _ => bankOf s c.tenant (entryObj c e)
  | .frame h obj _ _ => bankOf s h.tenant obj
  | _ => 0

/-- What waits at a slice, at a bank, in Girder or in the paging queue ends with DEGRADED (R396). -/
def endItem (s : State) (x : Origin × HomeItem) : State :=
  match x.2 with
  | .cmd c _ _ => failPlain s x.1 c none .degraded
  | .stage tag e c _ _ => reportEntry s x.1 tag e.idx c none .degraded
  | .frame _ _ _ _ => s
  | .cbound c _ => setCmdst { s with abc := { s.abc with pendCmd := none } } c .degraded false
  | .setval _ => marDone s mSetval .degraded

/-- The engine enters DEGRADED mode (R395, R396). -/
def enterDegraded (s : State) : State :=
  if degradedOn s then s
  else
    let s := { s with flt := { s.flt with degraded := true } }
    let s := (allWaiters s).foldl (fun s x =>
      failPlain (dropWaiter s x.1 x.2) (.router (sliceOf x.1)) x.2.cmd ((slotAt s x.1).map (·.kind)) .degraded) s
    let tries := s.sema.slots.flatMap fun x => x.2.tries.map fun c => (sliceOf x.1, c)
    let items := s.sema.slots.flatMap (fun x => x.2.inq.map fun y => (Origin.router (sliceOf x.1), y.2))
      ++ s.gir.stalled.map (fun x => (stalledFrom s x.2, x.2)) ++ s.sema.transit.map (fun x => (Origin.router (x.1 % 64), x.2.2))
      ++ s.sema.early.map (fun x => (Origin.router (earlyBank s x), x)) ++ s.sema.paging.map fun x => (Origin.apart, x.item)
    let slots := s.sema.slots.map fun x => (x.1, { x.2 with inq := [], tries := [], paused := false })
    let s := { s with
      sema := { s.sema with slots := slots, transit := [], early := [], paging := [] }, gir := { s.gir with stalled := [] } }
    let s := tries.foldl (fun s c => failPlain s (.router c.1) c.2 none .degraded) s
    let s := items.foldl endItem s
    let s := (List.range 8).foldl (fun s n =>
      let x := portSt s n
      x.hold.foldl (fun s h => match h.env.msg with
        | .rpart p => partFails s n p .degraded
        | m => match cmdOf m with
          | some (c, _) => failPlain s (portOrigin s n c.die) c none .degraded
          | none => s) (setPort s n { x with hold := [] })) s
    s.abc.ctxs.foldl (fun s x =>
      if inPhase x.2 then
        let s := (otherCtxDies s x.2).foldl (fun s d => sendFrame s x.1 x.2 d (.cabort x.1 x.2.phase ⟨2, dieOf s, 0⟩)) s
        discardPhase s x.1 x.2 true
      else s) s

/-! Block resets. -/

/-- Each readable command is returned to its pier as for a bank refusal (R37, R383). A SETVAL ends with BUSY_FW (DESIGN CHOICE, log entry
123). -/
def returnItem (s : State) (o : Origin) (x : HomeItem) : State :=
  match x with
  | .cmd c _ _ => turnAway s o c .bank 2 1000
  | .stage tag e _ _ _ => retryEntry s o tag e.idx 1000
  | .frame _ _ _ _ => s
  | .cbound c _ => setCmdst { s with abc := { s.abc with pendCmd := none } } c .busyFw false
  | .setval _ => marDone s mSetval .busyFw

/-- A queue entry is read as the queues are emptied: one that cannot be read is lost with its command (R383). -/
def returnEntry (s : State) (o : Origin) (target unit word : Nat) (x : HomeItem) : State :=
  let (s, bad) := semaRead s target unit word 0 5
  if bad then loseItem s x else returnItem s o x

/-- An object whose route-pending entry cannot be read is released from pending, and its deferred pass runs (R383). -/
def releasePend (s : State) (key : Nat) : State :=
  match slotAt s key with
  | none => s
  | some x =>
    if x.pend = [] then s
    else
      let (s, bad) := semaRead s 9 (sliceOf key) (slotOf key) 0 5
      if bad then runPass (setSlot s key { x with pend := [], stagedRel := [] }) key else s

/-- The SEMA block reset: the slice input, transit and paging queues are emptied, and what waited in Girder for a place goes on. -/
def semaReset (s : State) : State :=
  let inqs := s.sema.slots.flatMap fun x => x.2.inq.map fun y => (sliceOf x.1, y)
  let transit := s.sema.transit
  let paging := s.sema.paging
  let slots := s.sema.slots.map fun x => (x.1, { x.2 with inq := [] })
  let s := { s with sema := { s.sema with slots := slots, transit := [], paging := [] } }
  let s := inqs.foldl (fun s y => returnEntry s (.router y.1) 6 y.1 y.2.1 y.2.2) s
  let s := transit.foldl (fun s y => returnEntry s (.router (y.1 % 64)) 7 (y.1 % 64) y.2.1 y.2.2) s
  let s := paging.foldl (fun s y => returnEntry s .apart 8 0 y.word y.item) s
  drainGirder ((s.sema.slots.map (·.1)).foldl releasePend s)

/-- The ABC block reset of an entry: an unfinished phase aborts with CODE 5, and what the entry has read and received is cleared. -/
def abcReset (s : State) (c : Nat) (x : Ctx) : State :=
  if !inPhase x then s
  else
    let s := abortHere s c x ⟨5, dieOf s, 0⟩
    if x.root then s
    else
      match ctxAt s c with
      | none => s
      | some y =>
        let parts := y.parts.map fun p => { p with beats := [], asked := [] }
        let keep (l : List Beat) : List Beat := l.filter fun b => b.write || decide (b.ctx ≠ c)
        let s := setCtx s c { y with parts := parts, partials := [], whole := [], carry := [] }
        { s with abc := { s.abc with want := (s.abc.want.map fun w => (w.1, keep w.2)).filter fun w => decide (w.2 ≠ []) } }

/-- The reset of one pier: queues flushed, commands held elsewhere cancelled and their replies discarded, cache cleared,
pointers 0, Deck Time reloaded. -/
def pierReset (s : State) (p : Nat) : State :=
  match pierNet s p with
  | none => s
  | some n =>
    let mine := n.agents.map (·.1)
    let away := outBlocking s fun c => mine.contains c.agent && !isLane c.words
    let s := away.foldl (fun s c => sendCancel s c cDisable) s
    let s := (List.range 64).foldl (fun s l =>
      let x := laneSt s l
      setLane s l { x with waiting := x.waiting.filter fun c => !mine.contains c.agent }) s
    let s := mine.foldl (fun s a => (flushAgent s a).1) s
    setPier s p { pierSt s p with rrAgent := 0, rrQueue := [], dAgent := 0, dQueue := [], cache := [], answered := [] }

/-- The pier that an event's DETAIL names: by layout AGT for the sources 2 to 5, by PMEM for the others (R383). -/
def pierNamed (s : State) (src detail : Nat) : Nat :=
  if 2 ≤ src then ((pierOf s (detail % 2048)).map (·.pier)).getD 2048 else detail % 2048

/-- The TIME block reset. -/
def timeReset (s : State) : State :=
  if alState s = alAligned ∨ alState s = alFine then
    let s := setAl s alFine
    { s with dt := { s.dt with good := 0 } }
  else s

/-- The CLK block reset: every gate opens; a switch in progress runs to its target (R406, R414). -/
def clkReset (s : State) : State := openAll s

/-- The reset of a Viaduct port. -/
def viaReset (s : State) (n : Nat) : State :=
  if linkActive s n then toDown s n
  else
    let x := portSt s n
    if x.st = .down then setPort s n { x with since := s.now } else s

/-- What the reset of a block does (R383). CORE has none. -/
def resetWorkOf (s : State) (b pier : Nat) : State :=
  match b with
  | 0 => s
  | 1 => semaReset s
  | 2 => { s with wk := { s.wk with heldBack := false } }
  | 3 => s.abc.ctxs.foldl (fun s x => abcReset s x.1 x.2) s
  | 4 => decideLanes s
  | 5 => timeReset s
  | 6 => pierReset s pier
  | 7 => fwReset s
  | 8 => clkReset s
  | b => viaReset s (b - 9)

/-- SHADOW in dt. -/
def shadowLen (s : State) : Nat := us (max 1 (get s fCoreFctlShadow))

/-- A block reset begins: its shadow opens (R384), then its work is done. In DEGRADED mode SEMA, WAIT and ABC have none. -/
def blockReset (s : State) (b pier : Nat) : State :=
  if degradedOn s && decide (1 ≤ b) && decide (b ≤ 3) then s
  else
    let s := { s with flt := { s.flt with shadows := s.flt.shadows ++ [(b, s.now, s.now + shadowLen s)] } }
    resetWorkOf s b pier

/-- The key of a reset: the block, and for PIER the pier. -/
def resetKey (s : State) (r : Nat × Nat) : Nat × Nat := (r.1, if r.1 = bPier then pierNamed s (r.2 / 2 ^ 30) (r.2 % 2 ^ 30) else 0)

/-- The resets asked for are carried out, each once; those asked for by them too. The first argument bounds how many. -/
def carryResets : Nat → List (Nat × Nat) → State → State
  | 0, _, s => s
  | n + 1, done, s =>
    match s.flt.resets with
    | [] => s
    | r :: rest =>
      let s := { s with flt := { s.flt with resets := rest } }
      let k := resetKey s r
      if done.contains k then carryResets n done s
      else if freezing s then carryResets n (k :: done) { s with flt := { s.flt with putOff := s.flt.putOff ++ [r] } }
      else carryResets n (k :: done) (blockReset s k.1 k.2)

/-- Resets put off by a freeze take place after the thaw (R449). -/
def resumeResets (s : State) : State :=
  { s with flt := { s.flt with resets := s.flt.resets ++ s.flt.putOff, putOff := [] } }

/-! Injections at targets whose check words are written and compared in every cycle (R394, R395). -/

/-- FINJ of a block is armed for a target. -/
def finjFor (s : State) (b target : Nat) : Bool :=
  decide (wbits (rd s (rFinj b)) 12 1 = 1) && decide (wbits (rd s (rFinj b)) 0 4 = target)

def specialFaults (s : State) : State :=
  let runs := eclkRuns s
  let s := if runs && finjFor s bCore 0 then
      let two := finjTwo s bCore
      let s := finjDone s bCore
      if two then enterDegraded (raise s bCore 1 (dMem 0 0)) else raise s bCore 2 (dMem 0 0)
    else s
  let s := if runs && finjFor s bCore 15 then enterDegraded (raise (finjDone s bCore) bCore 0 0) else s
  let s := if runs && finjFor s bTrs 15 then
      let l := wbits (rd s (rFinj bTrs)) 14 6
      raise (finjDone s bTrs) bTrs 4 (dLane l 0)
    else s
  if !s.clk.inReset && finjFor s bTime 15 then raise (finjDone s bTime) bTime 5 0 else s

/-- Work that a command has made possible elsewhere: an update that DROOP_WARN held, an OPEN or CLOSE whose CBOUND is written, root
entries to close, answers that piers hold, and the input beats of the Abacus units. Each changes nothing where nothing waits. -/
def carryOn (s : State) : State := serveBeats (heldAnswers (closeReady (openEnds (droopOver s))))

/-- What ends every command: injections that strike at once, work made possible, gate closes that no longer hold, and the resets
asked for. -/
def finishStep (s : State) : State :=
  let s := gateAbandon (carryOn (specialFaults s))
  carryResets 64 [] s

/-! Cold reset. -/

/-- The sealed bits and records that only a power-on reset clears (R380). -/
def sealedRegs (s : State) : SMap Word :=
  (List.range 17).foldl (fun m b =>
    let bits := mgetD s.flt.sealedBits b 0
    let rec4 := on s (fFirstValid b) && decide (get s (fFirstSev b) = 4)
    let st := w64 (bits + if rec4 then 2 ^ 32 * get s (fStatFdt b) else 0)
    let m := mset m (rFstat b) 0 st
    if rec4 then mset m (rFfirst b) 0 (rd s (rFfirst b)) else m) []

/-- The level reactions that sealed bits keep. -/
def sealedLevels (s : State) : SMap Nat :=
  s.flt.levels.filter fun x => nbit (mgetD s.flt.sealedBits (x.1 / 16) 0) (x.1 % 16)

/-- A reset pin falls (R417): every register and unit in its reset state; a power-on reset clears what is sealed (R380). -/
def resetFalls (s : State) (powerOn : Bool) : State :=
  let base : State :=
    { State.reset with
      pending := s.pending, net := s.net, mem := s.mem, fresh := s.fresh
      clk := { State.reset.clk with inReset := true, droop := s.clk.droop } }
  if powerOn then base
  else { base with rf := sealedRegs s, flt := { base.flt with levels := sealedLevels s, sealedBits := s.flt.sealedBits } }

/-- The later reset pin rises (R402, R492). A pier whose client drives no clock stays in reset (log entry 120). A DROOP_WARN asserted
already is a condition that begins for the fault block (R375). -/
def resetRises (s : State) : State :=
  if !s.clk.inReset then s
  else
    let s := { s with clk := { s.clk with inReset := false } }
    let s := (s.net.piers.map (·.pier)).foldl (fun s p => setPier s p { pierSt s p with stopped := Config.clockStopped p }) s
    if s.clk.droop then raise s bClk 5 0 else s

end Sys2Proof.Machine
end

