-- ==== Sys2Proof/Machine/Observe.lean ====
section
/-! DEFINITION. Observation: clearing counters (R439), sampling (R440 to R443), rings and the master port (R441, R446, R463, R489),
freezing and thawing (R447 to R451). -/
namespace Sys2Proof.Machine

/-! Counters. -/

/-- OBS_CCMD CLEAR and CLEARALL (R439). -/
def clearCounters (s : State) (first last : Nat) : State :=
  if last < first ∨ 511 < last then s
  else
    let idx := (List.range (last + 1 - first)).map fun k => first + k
    let old := idx.foldl (fun (m : SMap Word) i => mset m i 0 (w64 (get s (fObsCvalValue i)))) []
    let s := idx.foldl (fun s i => put s (fObsCvalValue i) 0) s
    { s with obs := { s.obs with clearing := some (first, last, old) } }

/-- What a read or sample of programmable counter i returns: value and BOUNDARY (R439). -/
def counterSeen (s : State) (i : Nat) : Nat × Bool :=
  match s.obs.clearing with
  | some (lo, hi, old) => if lo ≤ i ∧ i ≤ hi then ((mgetD old i 0).toNat, true) else (get s (fObsCvalValue i), false)
  | none => (get s (fObsCvalValue i), false)

/-! Sampling. -/

/-- The sampling interval 2^K. -/
def sampleK (s : State) : Nat := max 14 (min 34 (get s fObsSampK))

/-- The programmable counters sampled. -/
def sampled (s : State) : List Nat := (configured s).filter fun i => on s (fObsCfg0En i) && on s (fObsCfg0Samp i)

/-- The counter words of a sample (R441). -/
def sampleWords (s : State) : List Word :=
  let prog := (sampled s).map fun i =>
    let (v, b) := counterSeen s i
    w64 (v + 2 ^ 48 * b2n b + 2 ^ 49 * b2n (s.obs.wrapped.contains i) + 2 ^ 51 * i)
  let fix := if on s fObsSampFix then (List.range 64).map fun k =>
      w64 (get s (fObsFixValue k) + 2 ^ 49 * b2n (s.obs.wrapped.contains (512 + k)) + 2 ^ 50 + 2 ^ 51 * k)
    else []
  prog ++ fix

/-- Room in the sample ring. -/
def ringRoom (s : State) : Nat := 2 ^ ringLog (get s fObsRingLog2) - (get s fObsRheadHead - get s fObsRtailTail)

/-! What is due before a freeze or a sample (R335). -/

/-- A command expires at its grain at or before t. -/
def endsBy (t grain : Nat) (c : Cmd) : Bool := (expiryOf c grain).any fun e => decide (e ≤ t)

/-- A window boundary, a release or an expiry is due at a slice, a bank, the paging queue, Trestle, a port or a pier at or before t. -/
def dueBy (s : State) (t : Nat) : Bool :=
  let banked := s.sema.transit.map (·.2.2) ++ s.sema.early
  windowDue s t
    || ((List.range 64).any fun i => releaseBefore s i (t + 1) 0 || expiryBefore s i (t + 1))
    || banked.any (fun x => (itemCmd (endsBy t 16) x).isSome) || s.sema.paging.any (fun x => (itemCmd (endsBy t 256) x.item).isSome)
    || laneDueBefore s (t + 1) 0 || laneExpiryBefore s (t + 1)
    || (s.ports.any fun p => p.2.hold.any fun h =>
        (h.rdata && decide (h.limit ≤ t)) || (cmdOf h.env.msg).any fun c => endsBy t 16 c.1)
    || s.agents.any fun g => (List.range 4).any fun q =>
        (heldAtPier s g.1 q).any fun c => endsBy (min t (pierTime s c.pier)) 16 c

/-- The Deck Time of the next sample: the first multiple of 2^K after the last. -/
def nextSample (s : State) : Nat := (s.obs.lastSample / 2 ^ sampleK s + 1) * 2 ^ sampleK s

/-- A sample falls due (R440 to R442). It waits for what is due before it, a freeze too (R335). -/
def takeSample (s : State) : State :=
  let t := nextSample s
  let before := !frozen s && (dueBy s t || (decide (get s fObsFrzstState = 1) && decide (s.obs.frzT ≤ t)))
  if !eclkRuns s || !on s fObsSampEn || decide (s.now < t) || before then s
  else
    let ws := sampleWords s
    let seq := s.obs.sampleNo
    let o := { s.obs with sampleNo := (seq + 1) % 2 ^ 32, lastSample := t, wrapped := [] }
    if s.obs.writing.isSome then bump { s with obs := { o with lostNext := true } } fObsStatSlost
    else if ringRoom s < 16 + 8 * ws.length then bump { s with obs := { o with lostFlag := true } } fObsStatSlost
    else
      let w1 := w64 (seq + 2 ^ 32 * ws.length + 2 ^ 42 * dieOf s + 2 ^ 48 * b2n (frozen s) + 2 ^ 49 * b2n s.obs.lostFlag)
      let bytes := (w64 t :: w1 :: ws).flatMap fun w => bytesOf 8 w.toNat
      { s with obs := { o with writing := some bytes } }

/-- Bytes written to a ring from a byte count on. -/
def ringWrite (m : List Host.Cell) (base log c : Nat) : List Byte → List Host.Cell
  | [] => m
  | b :: r => ringWrite (memPut m (base + c % 2 ^ log) b) base log (c + 1) r

/-- A response to a sample record's write (R441, R442). Samples lost while it was awaited show in the record after it. -/
def sampleWritten (s : State) (err : Bool) : State :=
  match s.obs.writing with
  | none => s
  | some bytes =>
    let next := s.obs.lostNext
    let s := { s with obs := { s.obs with writing := none, lostNext := false } }
    if err then raise (bump { s with obs := { s.obs with lostFlag := true } } fObsStatSlost) bFw 7 0
    else
      let h := get s fObsRheadHead
      let m := ringWrite s.mem (4096 * get s fObsRingAddr) (ringLog (get s fObsRingLog2)) h bytes
      tickFixed (put { s with mem := m, obs := { s.obs with lostFlag := next } } fObsRheadHead (h + bytes.length)) 62

/-- A response to a trace record's write (R446). A record whose write meets an error counts as dropped. -/
def traceWritten (s : State) (err : Bool) : State :=
  match s.obs.collector with
  | [] => s
  | r :: rest =>
    let s := { s with obs := { s.obs with collector := rest, trWriting := decide (rest ≠ []) } }
    if err then raise (bump s fObsStatTrdrop) bFw 7 0
    else
      let h := get s fObsTrheadHead
      let m := ringWrite s.mem (4096 * get s fObsTrringAddr) (ringLog (get s fObsTrringLog2)) h (r.flatMap fun w => bytesOf 8 w.toNat)
      tickFixed (put { s with mem := m } fObsTrheadHead (h + 32)) 63

/-- A response on the master port (R398, R489). -/
def masterResponse (s : State) (kind : MPort) (err : Bool) : State :=
  if s.clk.inReset then s
  else
    match kind with
    | .sample => sampleWritten s err
    | .trace => traceWritten s err
    | .paging t n => if err then pageIo s t n else s
    | .other => if err then raise s bFw 7 0 else s

/-- A write to OBS_SAMP (R443): it takes effect for samples due after it. -/
def sampWrite (s : State) (w : Word) : State :=
  let was := on s fObsSampEn
  let s := wr s rObsSamp (w &&& 0xff)
  let o := { s.obs with lastSample := s.now }
  { s with obs := if on s fObsSampEn && !was then { o with sampleNo := 0, lostFlag := false, lostNext := false } else o }

/-- A ring register as it is written: LOG2 and ADDR. -/
def ringBits (w : Word) : Word := w &&& 0x0000fffffffff03f

/-- A write to OBS_RING (R443). -/
def ringSet (s : State) (w : Word) : State :=
  if on s fObsSampEn then s else put (put (wr s rObsRing (ringBits w)) fObsRheadHead 0) fObsRtailTail 0

/-- A write to OBS_TRRING (R463). -/
def trRingSet (s : State) (w : Word) : State :=
  if on s fObsTrctlEn then s else put (put (wr s rObsTrring (ringBits w)) fObsTrheadHead 0) fObsTrtailTail 0

/-- A write to a TAIL register: one outside the ring's content is ignored. -/
def tailWrite (s : State) (head tail : Fld) (log v : Nat) : State :=
  if get s head < v ∨ v + 2 ^ log < get s head then s else put s tail v

/-! Freezing (R447, R448). -/

def frzState (s : State) : Nat := get s fObsFrzstState

/-- The freeze begins: the units stand, the ports that are UP owe and expect a MARKER (R304, R305, R448). -/
def stop (s : State) (late : Bool) : State :=
  let s := put (put s fObsFrzstState 2) fObsFrzstLate (b2n late)
  let s := put s fObsFrzstUnaligned (b2n (decide (alState s ≠ alAligned)))
  let ups := (List.range 8).filter fun n => isUp s n
  let s := { s with obs := { s.obs with cut := ups } }
  (List.range 8).foldl (fun s n =>
    let s := wr s (rViaFrz n) 0
    if ups.contains n then
      let x := portSt s n
      setPort s n { x with mark := some s.obs.frzT }
    else s) s

/-- VIAn_FRZ.MARK of the eight ports, as OBS_FRZST.MARKS shows them. -/
def marksOf (s : State) : Nat := sumBy (fun n => b2n (on s (fViaFrzMark n)) * 2 ^ n) (List.range 8)

/-- OBS_FRZCMD ARM (R447). -/
def doArm (s : State) (holdto : Bool) : State :=
  if frzState s ≠ 0 then s
  else
    let t := (rd s rObsFrzt).toNat
    let s := wr s rObsFrzst (w64 (1 + 8 * b2n holdto))
    let s := { s with obs := { s.obs with frzT := t, thawH := none } }
    if t < s.now then stop s true else s

/-- OBS_FRZCMD DISARM. -/
def doDisarm (s : State) : State := if frzState s = 1 then put s fObsFrzstState 0 else s

/-- Deck Time has reached the freeze tick: the freeze takes effect after the releases and expiries due at it (R335, R448), and while
ECLK stands not at all (R407). -/
def freezeTick (s : State) : State :=
  if !eclkRuns s || decide (frzState s ≠ 1) || decide (s.now < s.obs.frzT) || dueBy s s.obs.frzT then s else stop s false

/-- Every unit has stopped, and no port owes a MARKER. -/
def frozenAt (s : State) : State :=
  if eclkRuns s = false ∨ frzState s ≠ 2 ∨ s.obs.cut ≠ [] then s
  else
    let lost := (List.range 8).any fun n => on s (fViaFrzMlost n) || on s (fViaFrzOvf n)
    let s := if lost then put s fObsFrzstIncomplete 1 else s
    put (put s fObsFrzstState 3) fObsFrzstFdt s.now

/-- THAWING begins with thaw tick h. -/
def thawFrom (s : State) (h : Nat) : State := put { s with obs := { s.obs with thawH := some h } } fObsFrzstState 4

/-- OBS_FRZCMD THAW. -/
def doThaw (s : State) : State := if frzState s = 3 then thawFrom s s.now else s

/-- OBS_FRZCMD THAWAT. -/
def doThawat (s : State) : State :=
  if frzState s ≠ 3 then s
  else
    let h := (rd s rObsThawt).toNat
    if h ≤ s.now then thawFrom s h else { s with obs := { s.obs with thawH := some h } }

/-- Deck Time has reached the thaw tick. -/
def thawTick_ (s : State) : State :=
  match s.obs.thawH with
  | some h => if eclkRuns s = true ∧ frzState s = 3 ∧ h ≤ s.now then thawFrom s h else s
  | none => s

/-! The deadline walk (R451). -/

/-- A command with its deadline advanced. -/
def advCmd (d : Nat) (c : Cmd) : Cmd := { c with deadline := c.deadline.map (· + d) }

def advMsg (d : Nat) : Msg → Msg
  | .cmd c => .cmd (advCmd d c)
  | .xcmd c => .xcmd (advCmd d c)
  | .rpart p => .rpart { p with cmd := advCmd d p.cmd }
  | .reply c r => .reply (advCmd d c) r
  | .preport c p => .preport (advCmd d c) p
  | .refuse c k => .refuse (advCmd d c) k
  | .cancel c k => .cancel (advCmd d c) k
  | .time o ph t => .time o ph (t + d)
  | .lcomp l ph t => .lcomp l ph (t.map (· + d))
  | m => m

def advEnv (d : Nat) (e : Envelope) : Envelope := { e with msg := advMsg d e.msg }

def advItem (d : Nat) : HomeItem → HomeItem
  | .cmd c m i => .cmd (advCmd d c) m i
  | .stage t e c m i => .stage t e (advCmd d c) m i
  | .frame h o ph t => .frame h o ph (t + d)
  | x => x

def advWake (d : Nat) (w : Wake) : Wake := { w with cmd := advCmd d w.cmd }

/-- An armed barrier's release time in its value word, advanced. -/
def advTrel (d : Nat) (x : Slot) : Word :=
  if x.kind = .barrier ∧ barArmed x.value = true then wput x.value 16 40 (barTrel x.value + d) else x.value

/-- A slot's waiters, held commands and release time. -/
def advSlot (d : Nat) (x : Slot) : Slot :=
  { x with
    value := advTrel d x
    waiters := x.waiters.map fun w => { w with cmd := advCmd d w.cmd, wdog := w.wdog + d }
    tries := x.tries.map (advCmd d), inq := x.inq.map (fun y => (y.1, advItem d y.2)), due := x.due.map (· + d) }

def advLane (d : Nat) (x : Lane) : Lane :=
  { x with waiting := x.waiting.map (advCmd d), armed := x.armed.map (· + d), due := x.due.map (· + d) }

def advQueue (d : Nat) (q : Queue) : Queue :=
  { q with
    items := q.items.map fun i => { i with cmd := i.cmd.map (advCmd d), late := i.late + d }
    drain := q.drain.map fun x => { x with cmd := advCmd d x.cmd } }

def advPort (d : Nat) (x : Port) : Port :=
  { x with
    hold := x.hold.map fun h => { h with env := advEnv d h.env, limit := h.limit + d }
    captured := x.captured.map (advEnv d), later := x.later.map (advEnv d), sent := x.sent.map (advEnv d) }

def advCtx (d : Nat) (x : Ctx) : Ctx := { x with parts := x.parts.map fun p => { p with cmd := advCmd d p.cmd } }

/-- Every Deck Time deadline held on the die advances by d. -/
def advance (s : State) (d : Nat) : State :=
  { s with
    agents := s.agents.map fun g => (g.1, { g.2 with queues := g.2.queues.map fun q => (q.1, advQueue d q.2) })
    sema := { s.sema with
      slots := s.sema.slots.map fun x => (x.1, advSlot d x.2)
      transit := s.sema.transit.map fun x => (x.1, x.2.1, advItem d x.2.2)
      early := s.sema.early.map (advItem d)
      paging := s.sema.paging.map fun p => { p with item := advItem d p.item } }
    wk := { s.wk with
      ports := s.wk.ports.map fun p => (p.1, p.2.map (advWake d))
      pool := s.wk.pool.map fun b => { b with wakes := b.wakes.map (advWake d) } }
    gir := { s.gir with
      wakes := s.gir.wakes.map fun x => (x.1, advWake d x.2)
      stalled := s.gir.stalled.map fun x => (x.1, advItem d x.2)
      cancels := s.gir.cancels.map fun x => (advCmd d x.1, x.2)
      notices := s.gir.notices.map fun x => (x.1, advCmd d x.2.1, x.2.2) }
    rt := { s.rt with
      parts := s.rt.parts.map fun p => { p with cmd := advCmd d p.cmd }
      gathers := s.rt.gathers.map fun g => { g with cmd := advCmd d g.cmd } }
    lanes := s.lanes.map fun l => (l.1, advLane d l.2)
    abc := { s.abc with ctxs := s.abc.ctxs.map fun c => (c.1, advCtx d c.2) }
    ports := s.ports.map fun p => (p.1, advPort d p.2)
    span := { s.span with mirror := s.span.mirror.map fun m => { m with cmd := m.cmd.map (advCmd d) } } }

/-- The management commands that a freeze put off (R449). -/
def runDeferred (s : State) : Instr → State
  | .quiesce _ t => doQuiesce (put s (fTenCmdstBusy t) 0) t
  | .resume _ t => doResume (put s (fTenCmdstBusy t) 0) t
  | .reset _ t f => doReset (put s (fTenCmdstBusy t) 0) t f
  | .forcedReset _ t f => doForced (put s (fTenCmdstBusy t) 0) t f
  | .open _ c => doOpen (put s fAbcCmdstBusy 0) c
  | .close _ c => doClose (put s fAbcCmdstBusy 0) c
  | .align _ tx => doAlign s (max tx (16 * s.now))
  | .remeasureAll _ => beginMeasure s none
  | .remeasureOne _ p => beginMeasure s (some p)
  | .gateOpen _ n => doGateOpen (put s fClkGreqstBusy 0) n
  | .gateClose _ n => doGateClose (put s fClkGreqstBusy 0) n
  | _ => s

/-- The walk is complete and the units resume (R306, R449 to R451). -/
def thawed (s : State) : State :=
  match s.obs.thawH with
  | none => s
  | some h =>
    if eclkRuns s = false ∨ frzState s ≠ 4 then s
    else
      let s := if on s fObsFrzstHoldto then advance s (h - s.obs.frzT) else s
      let s := (List.range 8).foldl resumeTimers s
      let todo := s.obs.deferred
      let s := put s fObsFrzstMarks (marksOf s)
      let s := put { s with obs := { s.obs with thawH := none, cut := [], deferred := [] } } fObsFrzstState 0
      let s := (List.range 8).foldl (fun s n =>
        let x := portSt s n
        thawPort (setPort s n { x with mark := none }) n) s
      let s := decideLanes (s.net.piers.foldl present s)
      let s := todo.foldl runDeferred s
      resumeResets s

/-- A broken pair's tenant that has been reset here: once it has been on the pair's die too its mirror is whole again (R311), which
a free value says (log entry 11). -/
def mirrorWhole (s : State) (t : Nat) : State :=
  let s' := { s with fresh := s.fresh + 1 }
  if Config.pairHasReset s.fresh then
    put { s' with span := { s'.span with mirDone := s'.span.mirDone.filter fun u => decide (u ≠ t) } } ⟨rCoreMirbrk (t / 64), t % 64, 1⟩ 0
  else s'

/-- What a tick of Deck Time brings when no command waits (log entry 1): the counter advances once the multiplier has
locked (R315), the start cycle of a clear is over (R439), and a pair die's reset may have mended a mirror (R311). -/
def idle (s : State) : State :=
  let s := if s.obs.clearing.isSome then { s with obs := { s.obs with clearing := none } } else s
  let s := if s.clk.inReset || !on s fDtStatLock then s else { s with now := s.now + 1 }
  s.span.mirDone.foldl mirrorWhole s

end Sys2Proof.Machine
end

