-- ==== Sys2Proof/Machine/RegRead.lean ====
section
/-! DEFINITION. What a register returns (R464 to R471): the registers and fields that report other state (CORE_FSUM, FSTAT.LIVE,
the occupancy and status registers), over the stored words of `rf`. A read changes nothing (R466), so no command reads. -/
namespace Sys2Proof.Machine

/-! Fault registers (R374, R375, R398). -/

/-- CORE_MIRBRK bit of a tenant. -/
def mirBroken (s : State) (t : Nat) : Bool := nbit (rd s (rCoreMirbrk (t / 64))).toNat (t % 64)

/-- Some drain that has reached DRLIM is still in progress (R398). -/
def anySlowDrain (s : State) : Bool :=
  s.agents.any fun g => g.2.queues.any fun q => match q.2.drain with
    | some d => d.slow
    | none => false

/-- The condition of a condition source holds now (R375, R398); an event source has none. -/
def liveOf (s : State) (b src : Nat) : Bool :=
  if b = bTrs then decide (src = 2) && s.lanes.any fun l => l.2.broken
  else if b = bTime then (decide (src = 0) && on s fDtStatHoldover) || (decide (src = 3) && on s fDtStatOob)
  else if b = bPier then decide (src = 2) && anySlowDrain s
  else if b = bClk then
    (decide (src = 0) && (inputLost s (inputSel s) || on s fClkStatStopped))
      || (decide (src = 1) && inputLost s (!inputSel s)) || (decide (src = 5) && s.clk.droop)
  else if 9 ≤ b then
    let n := b - 9
    (decide (src = 0) && decide ((portSt s n).st = .down)) || (decide (src = 1) && decide ((portSt s n).st = .failed))
      || (decide (src = 3) && on s (fViaLstatWidth n))
      || (decide (src = 9) && (List.range 256).any fun t => decide (mirPort t = n) && mirBroken s t)
  else false

/-- FSTAT.LIVE. -/
def liveMask (s : State) (b : Nat) : Nat := sumBy (fun src => if liveOf s b src then 2 ^ src else 0) (List.range 12)

/-- A sealed bit or record is held in some block (R380). -/
def anySealed (s : State) : Bool :=
  (List.range 17).any fun b =>
    decide (mgetD s.flt.sealedBits b 0 ≠ 0) || (on s (fFirstValid b) && decide (get s (fFirstSev b) = 4))

/-- The earliest open shadow (R384). -/
def openShadow (s : State) : Option Nat := (s.flt.shadows.find? fun x => decide (s.now < x.2.2)).map (·.1)

/-- CORE_FSUM. -/
def fsumWord (s : State) : Word :=
  w64 (sumBy (fun b => if irqLevel s b then 2 ^ b else 0) (List.range 17) + 2 ^ 17 * b2n (degradedOn s)
    + 2 ^ 18 * b2n (anyLevel s 4) + 2 ^ 19 * b2n (anyLevel s 1) + 2 ^ 20 * b2n s.flt.crq + 2 ^ 21 * b2n (anySealed s)
    + 2 ^ 22 * b2n (openShadow s).isSome + 2 ^ 23 * (openShadow s).getD 0)

/-! Tenants and agents. -/

def tenCode : TenSt → Nat
  | .active => 0 | .quiescing => 1 | .quiesced => 2 | .resetting => 3

def tenStatWord (s : State) (t : Nat) : Word := w64 (tenCode (tenSt s t).st + 2 ^ 8 * (epochOf s t % 256) + 2 ^ 16 * overdrawn s t)
def tenUseWord (s : State) (t : Nat) : Word := w64 (lanesOf s t + 2 ^ 7 * agentsOf s t + 2 ^ 19 * credMax s t)

/-- The netlist gives the die an agent port. -/
def present_ (s : State) (a : Nat) : Bool := (pierOf s a).isSome

def agtStatWord (s : State) (a : Nat) : Word :=
  if !present_ s a then 0
  else
    let g := agentSt s a
    let st := match g.port with
      | .open => b2n (on s (fAgtBindBound a))
      | .disabling => 2
      | .disabled => 3
    w64 (st + 4 + sumBy (fun q => 2 ^ (3 + 5 * q) * occupied (queueOf s a q)) (List.range 4) + 2 ^ 32 * (g.flushes % 2 ^ 32))

/-! Objects, waits, combine, lanes. -/

def semaStatWord (s : State) : Word :=
  w64 (s.sema.slots.length + 2 ^ 32 * s.sema.paging.length + 2 ^ 48 * get s fSemaStatHtmReady)

def tuseWord (s : State) (t : Nat) : Word := w64 (residentOf s t + 2 ^ 20 * (allocatedOf s t).length)

def waitStatWord (s : State) : Word :=
  w64 ((allWaiters s).length + 2 ^ 17 * s.wk.pool.length + 2 ^ 31 * b2n s.clk.droop + 2 ^ 32 * b2n s.wk.budget.isSome
    + 2 ^ 33 * s.wk.budget.getD 0)

/-- Entries of a slice's waiter table held for objects homed in other slices. -/
def spillIn (s : State) (i : Nat) : Nat := count (fun x : Nat × Waiter => decide (x.2.table = i) && decide (sliceOf x.1 ≠ i)) (allWaiters s)

/-- The phase that a context entry serves: at a root whose phase has aborted, the phase of its barrier, which R138 completes on
its own. -/
def servedPhase (s : State) (x : Ctx) : Bool :=
  if x.root && x.aborted then
    match (residentSlot s x.tenant (x.bhandle % 2 ^ 26)).bind (slotAt s) with
    | some o => if o.kind = .barrier then barPhase o.value else x.phase
    | none => x.phase
  else x.phase

/-- ABC_CSR[c][0]. -/
def csr0Word (s : State) (c : Nat) : Word :=
  match ctxAt s c with
  | none => 0
  | some x =>
    let st := match x.st with
      | .open => 1
      | .active => 2
      | .closed => 3
    w64 (st + 4 * b2n x.root + 8 * x.chunkSize + 2 ^ 17 * x.chunks + 2 ^ 25 * accepted x + 2 ^ 37 * b2n (servedPhase s x))

/-- TRS_LSTAT[l]. -/
def lstatWord (s : State) (l : Nat) : Word :=
  let x := laneSt s l
  let c := counted s l
  w64 (b2n x.phase + 2 * count (raisedOn s x) c + 2 ^ 14 * c.length + 2 ^ 26 * b2n (on s (fTrsLcfgEn l) && localAnd s l)
    + 2 ^ 27 * b2n x.armed.isSome + 2 ^ 28 * b2n x.broken)

/-- TRS_LARR[l][w]. -/
def larrWord (s : State) (l w : Nat) : Word :=
  let x := laneSt s l
  let c := counted s l
  w64 (sumBy (fun i => if x.raised.contains (64 * w + i) || (c.contains (64 * w + i) && raisedOn s x (64 * w + i)) then 2 ^ i else 0) (List.range 64))

/-! Viaduct and Deck Time. -/

def viaLstatWord (s : State) (n : Nat) : Word := wput (rd s (rViaLstat n)) 0 3 (linkCode (portSt s n).st)

def viaRstatWord (s : State) (n : Nat) : Word :=
  let used := creditsUsed s n
  w64 ((portSt s n).replay.length + 2 ^ 9 * (used % 1024) + 2 ^ 19 * b2n (decide (1024 ≤ used)) + 2 ^ 20 * get s (fViaRstatMaxatt n))

/-- DT_ALSTAT; MASTER, PPORT and PDIE hold their reset value until ALIGN has left IDLE. -/
def alstatWord (s : State) : Word :=
  let (port, die) := (parentOf s).getD (0, 0)
  if alState s = alIdle then rd s rDtAlstat else wput (wput (wput (rd s rDtAlstat) 3 1 (b2n (isMaster s))) 4 3 port) 7 6 die

/-- Ordinary piers whose offset is not measured, once a measurement has completed (R324). -/
def failedPiers (s : State) : Nat :=
  if on s fDtPmstatDone then count (fun p : PierNet => !p.priv && !on s (fDtPofsValid p.pier)) s.net.piers else 0

def privpWord (s : State) (i : Nat) : Word :=
  match (s.net.piers.filter (·.priv))[i]? with
  | some p => w64 (p.pier + 2 ^ 11)
  | none => 0

def pofsWord (s : State) (p : Nat) : Word :=
  match pierNet s p with
  | none => 0
  | some n => wput (rd s (rDtPofs p)) 33 1 (b2n n.priv)

/-- OBS_FRZST: its MARKS from the ports while a freeze lasts, and as they were at its thaw until the next ARM (R447). -/
def frzstWord (s : State) : Word := if 2 ≤ frzState s then wput (rd s rObsFrzst) 7 8 (marksOf s) else rd s rObsFrzst

def cvalWord (s : State) (i : Nat) : Word := let (v, b) := counterSeen s i; w64 (v + 2 ^ 48 * b2n b)

/-! The read. -/

/-- Place of an offset in an array of registers, if it lies there. -/
def idxIn (off base stride n : Nat) : Option Nat :=
  if base ≤ off ∧ (off - base) % stride = 0 ∧ (off - base) / stride < n then some ((off - base) / stride) else none

/-- The registers that report other state: their word where the offset is one of theirs. -/
def reported (s : State) (off : Nat) : Option Word :=
  match off with
  | 0x108 => some (fsumWord s)
  | 0x408 => some (wput (rd s off) 0 11 (heldCount s))
  | 0xc08 => some (w64 (sumBy (2 ^ ·) (members s)))
  | 0x10000 => some (wput (rd s off) 16 16 s.net.bootId)
  | 0x41008 => some (semaStatWord s)
  | 0x42010 => some (wput (rd s off) 0 15 (sumBy (pendUse s) (List.range 64)))
  | 0x50008 => some (waitStatWord s)
  | 0x100000 => some (if on s fDtStatLock then w64 s.now else 0)
  | 0x100020 => some (alstatWord s)
  | 0x100038 => some (wput (rd s off) 2 11 (failedPiers s))
  | 0x140068 => some (frzstWord s)
  | _ => none

/-- The same for the arrays of registers. -/
def reportedAt (s : State) (off : Nat) : Option Word :=
  let via := if 0x80000 ≤ off ∧ off < 0x100000 then some ((off - 0x80000) / 0x10000, off % 0x10000) else none
  match via with
  | some (n, 0x10) => some (viaLstatWord s n)
  | some (n, 0x18) => some (viaRstatWord s n)
  | _ =>
    ((idxIn off 0x20018 256 256).map (tenStatWord s))
      <|> ((idxIn off 0x20020 256 256).map (tenUseWord s))
      <|> ((idxIn off 0x30008 16 2048).map (agtStatWord s))
      <|> ((idxIn off 0x41100 8 64).map fun i => w64 (4096 - slotsIn s i))
      <|> ((idxIn off 0x41800 8 256).map (tuseWord s))
      <|> ((idxIn off 0x50100 8 64).map fun i => w64 (tableUse s i + 2 ^ 16 * spillIn s i))
      <|> ((idxIn off 0x50800 8 256).map fun t => wput (rd s off) 0 17 (tenWaits s t))
      <|> ((idxIn off 0x60100 8 16).map fun u => w64 (32 - unitUse s u))
      <|> ((idxIn off 0x60800 8 256).map fun t => w64 (tenBuf s t + 2 ^ 10 * count (fun x : Nat × Ctx => decide (x.2.tenant = t)) s.abc.ctxs))
      <|> ((idxIn off 0x62000 32 1024).map (csr0Word s))
      <|> ((idxIn off 0x70000 8 2048).map fun k => (mget (laneSt s (k / 32)).lenNext (k % 32)).getD (rd s off))
      <|> ((idxIn off 0x74400 8 64).map (lstatWord s))
      <|> ((idxIn off 0x74600 8 64).map fun l => w64 ((laneSt s l).armed.getD 0 % 2 ^ 40))
      <|> ((idxIn off 0x78000 8 2048).map fun k => larrWord s (k / 32) (k % 32))
      <|> ((idxIn off 0x7c100 8 64).map fun i => w64 (128 - windowsIn s i))
      <|> ((idxIn off 0x100200 8 32).map (privpWord s))
      <|> ((idxIn off 0x101000 8 2048).map (pofsWord s))
      <|> ((idxIn off 0x143000 8 512).map (cvalWord s))

/-- A fault register's word: FSTAT with its LIVE bits, and without the fields of sources its block has not (R370). -/
def faultWord (s : State) (b k off : Nat) : Word :=
  match k with
  | 0 => wput (rd s off) 16 12 (liveMask s b)
  | _ => rd s off

/-- The write-only registers: nothing is readable. -/
def writeOnly : List Nat :=
  [rAbcCmd, rDtCmd, rClkGreq, rFwHbeat, rFwUpd, rFwMreq, rObsCcmd, rObsFrzcmd, rObsSncmd, rMarCmd]

/-- An offset is assigned (R465): in the map, and not the record of an absent agent port. -/
def assigned (s : State) (off : Nat) : Bool :=
  ((regRow off).isSome || (faultRegAt off).isSome)
    && !(decide (0x30000 ≤ off) && decide (off < 0x38000) && !present_ s ((off - 0x30000) / 16))

/-- The word a register returns; an unassigned offset reads 0. -/
def readReg (s : State) (off : Nat) : Word :=
  if !assigned s off || writeOnly.contains off then 0
  else
    match faultRegAt off with
    | some (b, k) => faultWord s b k off
    | none =>
      match reported s off with
      | some w => w
      | none =>
        match reportedAt s off with
        | some w => w
        | none => rd s off

end Sys2Proof.Machine
end

