-- ==== Sys2Proof/Machine/Snapshot.lean ====
section
/-! DEFINITION. The snapshot space (R452 to R456), its copy (R457) and the wait-for report (R458). -/
namespace Sys2Proof.Machine

/-- A word without content of its own (log entry 12). -/
def openAt (s : State) (k : Nat) : Nat := Config.openWord s.now k

/-! The sections of page 0. -/

/-- LINKS: 15 words of port n. -/
def linkWords (s : State) (n : Nat) : List Word :=
  [readReg s (rViaLstat n), readReg s (rViaRstat n), readReg s (rViaFrz n)] ++ (List.range 12).map fun v => readReg s (rViaLcred n v)

/-- LANES: 35 words of lane l. -/
def laneWords (s : State) (l : Nat) : List Word :=
  [readReg s (rTrsLstat l), readReg s (rTrsLtrel l), readReg s (rTrsLcfg l)] ++ (List.range 32).map fun w => readReg s (rTrsLarr l w)

/-- Payload beats pulled for the chunk in progress. -/
def beatsPulled (x : Ctx) : Nat := sumBy (fun p : Particip => p.beats.length) x.parts

/-- COMBINE: 8 words of context c. -/
def combineWords (s : State) (c : Nat) : List Word :=
  let csr := (List.range 4).map fun k => readReg s (rAbcCsr c k)
  match ctxAt s c with
  | none => csr ++ [0, 0, 0, 0]
  | some x => csr ++ [x.desc, ctxd1 x, w64 (x.chunk % 256 + 256 * (beatsPulled x % 2 ^ 24)), 0]

/-! QHEADS (R453). -/

/-- HSTATE and stall cause of an item. -/
def headCode (i : Item) : Nat × Nat :=
  match i.st with
  | .unissued => (1, 0)
  | .draining => (2, 1)
  | .fenced => (2, 0)
  | .stalled why => (2, whyCode why)
  | .refused why _ => (2, whyCode why)
  | .out => (3, 0)
  | .done _ _ => (3, 0)
  | .skip => (3, 0)
where
  whyCode : Stall → Nat
    | .bound => 2 | .table => 2 | .bank => 3 | .tenant => 4 | .die => 5 | .barrier => 6 | .step5 => 7

/-- The entry at the head of a queue: the first command, or the first entry of a packet not yet whole. -/
def headItem (x : Queue) : Option Item :=
  match dropSkips x.items with
  | i :: _ => some i
  | [] => if x.part = [] then none else some ⟨0, x.part, .unissued, none, [], false, none, 0, 0, 0⟩

/-- QHEADS: 8 words of a queue. The stamp of a head not issued is open; its tenant is its port's. -/
def qheadWords (s : State) (a q : Nat) : List Word :=
  let x := queueOf s a q
  match headItem x with
  | none => List.replicate 8 0
  | some i =>
    let (h, why) := headCode i
    let at_ := 131072 + 32 * a + 8 * q
    let t := get s (fAgtBindTenant a)
    let (dl, noto, ten, iss, ep) := match i.cmd with
      | some c => (c.deadline.getD 0 % 2 ^ 40, blocking c.words && c.deadline.isNone, c.tenant, c.issue, c.epoch)
      | none => (openAt s at_ % 2 ^ 40, nbit (openAt s (at_ + 1)) 0, t, openAt s (at_ + 2), epochOf s t)
    (List.range 4).map (pw i.words)
      ++ [w64 (h + 4 * why + 2 ^ 6 * occupied x + 2 ^ 11 * dl + 2 ^ 51 * b2n noto + 2 ^ 52 * (ten % 256)),
          w64 (iss % 2 ^ 40 + 2 ^ 40 * (ep % 256)), 0, 0]

/-! WAITERS (R97, R454). -/

/-- TYPE of a waiter entry. -/
def waiterType (ws : List Word) : Nat :=
  match pOp ws with
  | some .waitGe => 0
  | some .waitTake => 1
  | some .take => 2
  | some .arrive => 3
  | _ => 4

/-- The three words of a waiter entry on the object of a slot (R97). -/
def waiterWords (key : Nat) (w : Waiter) : List Word :=
  let c := w.cmd
  let dl := match c.deadline with
    | some d => d
    | none => w.wdog
  [w.target,
   w64 (c.agent % 2048 + 2 ^ 11 * (c.queue % 4) + 2 ^ 13 * (c.entry % 16) + 2 ^ 17 * waiterType c.words + 2 ^ 20 * (c.die % 64)
     + 2 ^ 26 * b2n c.deadline.isNone + 2 ^ 32 * pLayer c.words + 2 ^ 48 * pOper c.words),
   w64 (dl % 2 ^ 40 + 2 ^ 40 * (sliceOf key % 64) + 2 ^ 46 * slotOf key)]

/-- The waiter records in order, each of 4 words. -/
def waiterRecs (s : State) : List (List Word) :=
  s.sema.slots.flatMap fun x => x.2.waiters.zipIdx.map fun w =>
    waiterWords x.1 w.1 ++
      [w64 (w.1.table % 64 + 2 ^ 6 * (w.1.entry % 1024) + 2 ^ 16 + 2 ^ 17 * b2n (decide (w.1.table ≠ sliceOf x.1)) + 2 ^ 18 * (w.2 % 65536))]

/-! OBJECTS (R455). -/

/-- OBJECTS: 4 words of a slot. An unoccupied slot has VALID clear in its tag, and what its memories hold is open. -/
def objectWords (s : State) (key : Nat) : List Word :=
  match slotAt s key with
  | some x => [x.value, x.metaOf, x.tag key, sigWord x.sig]
  | none =>
    let at_ := 524288 + 4 * key
    [w64 (openAt s at_), w64 (openAt s (at_ + 1)), w64 (openAt s (at_ + 2)) &&& ~~~(w64 (2 ^ 53)), w64 (openAt s (at_ + 3))]

/-! INFLIGHT (R456). -/

/-- One record of INFLIGHT before its message words: WHERE, unit, position, virtual channel, the place of its word in the unit's memory
where it has one, and the 7 words that follow where the manual gives them. -/
structure Flying where
  place : Nat
  unit : Nat
  pos : Nat
  vc : Nat
  word : Option Nat
  words : Option (List Word)
  deriving DecidableEq, Repr

/-- Virtual channel of what stands at a bank: a command's own; a staging entry travels as a signal; management else. -/
def itemVc : HomeItem → Nat
  | .cmd c _ _ => vcOf c.words
  | .stage _ _ _ _ _ => 0
  | .frame _ _ _ _ => 0
  | .cbound _ _ => 4
  | .setval _ => 4

/-- Messages on Girder: wakes and fills, which return on the wake channel (R35), operations that wait for a credit, and invalidations,
cancels, notices, reports and commits, which R11 puts in no class: they are shown as VC 0 (DESIGN CHOICE, log entry 77). Where they
stand is open. -/
def girderFlying (s : State) : List Flying :=
  let g := s.gir
  let vcs := List.replicate (g.wakes.length + g.fills.length) 2 ++ g.stalled.map (fun x => itemVc x.2)
    ++ List.replicate (g.invs.length + g.cancels.length + g.notices.length + g.reports.length + g.sreports.length + g.commits.length) 0
  vcs.zipIdx.map fun x => ⟨1, openAt s (2 * x.2) % 64, openAt s (2 * x.2 + 1) % 2 ^ 17, x.1, none, none⟩

/-- SUB of a message that came in on a port: that of the die and port it faces, which sent it (R297). -/
def subIn (s : State) (n src : Nat) : Nat := subAt s (neighbour s (dieOf s) n) (facingPort s n) src

/-- The first 56 bytes of a captured message: its header and 48 bytes of its body; a combine segment's header only. -/
def capturedWords (s : State) (n : Nat) (e : Envelope) : List Word :=
  let sub := subIn s n e.hdr.src
  match e.msg with
  | .cpart _ _ => [headerWord e sub]
  | .cres _ _ _ => [headerWord e sub]
  | _ => (msgWords s e sub).take 7

/-- What waits in a slice's input queue, oldest first, each with its word of the queue's memory (R456). -/
def slicePlaces (s : State) (i : Nat) : List (Nat × HomeItem) :=
  let here := (s.sema.slots.filter fun x => decide (sliceOf x.1 = i)).flatMap fun x => x.2.inq
  (s.sema.inqAge.filter fun y => decide (y.1 = i)).filterMap fun y => here.find? fun z => decide (z.1 = y.2)

/-- The replies that a pier holds, in the order in which they came, each with its word of the reply buffer. -/
def heldReplies (s : State) (p : PierNet) : List Nat :=
  let done := p.agents.zipIdx.flatMap fun g => (List.range 4).flatMap fun q =>
    (queueOf s g.1.1 q).items.filterMap fun i => match i.st with
      | .done _ _ => some (i.since, entryIdx g.2 q i.entry)
      | _ => none
  ((done.map (·.1)).foldl insNat []).flatMap fun k => (done.filter fun d => decide (d.1 = k)).map (·.2)

/-- The records of INFLIGHT in order of WHERE and unit, oldest first within a unit. What a bank holds for want of the translation memory
came before nothing of its transit queue, which is empty then. -/
def inflight (s : State) : List Flying :=
  let slices := (List.range 64).flatMap fun i =>
    (slicePlaces s i).zipIdx.map fun c => ⟨2, i, c.2, itemVc c.1.2, some c.1.1, none⟩
  let banks := (List.range 64).flatMap fun b =>
    let queued := (s.sema.transit.filter fun x => decide (x.1 % 64 = b)).map fun x => (some x.2.1, x.2.2)
    let early := (s.sema.early.filter fun x => decide (earlyBank s x = b)).map fun x => (none, x)
    (queued ++ early).zipIdx.map fun (x : (Option Nat × HomeItem) × Nat) => ⟨3, b, x.2, itemVc x.1.2, x.1.1, none⟩
  let holds := (List.range 8).flatMap fun n => (portSt s n).hold.zipIdx.map fun h => ⟨4, n, h.2, msgVc h.1.env.msg, none, none⟩
  let paging := s.sema.paging.zipIdx.map fun x => ⟨5, 0, x.2, 4, some x.1.word, none⟩
  let replies := s.net.piers.flatMap fun p => (heldReplies s p).zipIdx.map fun x => ⟨6, p.pier, x.2, 2, some x.1, none⟩
  let caps := (List.range 8).flatMap fun n =>
    (portSt s n).captured.zipIdx.map fun e => ⟨7, n, e.2, msgVc e.1.msg, some e.2, some (capturedWords s n e.1)⟩
  girderFlying s ++ slices ++ banks ++ holds ++ paging ++ replies ++ caps

/-- Word j of INFLIGHT record i. -/
def flyingWord (s : State) (f : Flying) (i j : Nat) : Word :=
  if j = 0 then w64 (f.place + 2 ^ 4 * (f.unit % 2048) + 2 ^ 15 * (f.pos % 2 ^ 17) + 2 ^ 32 * f.vc)
  else
    match f.words with
    | some ws => ws.getD (j - 1) 0
    | none => w64 (openAt s (1572864 + 8 * i + j))

/-! CAPTURE. -/

/-- The captured bytes of a port, as words, in the order in which messages were captured. -/
def captureWords (s : State) (n : Nat) : List Word := (portSt s n).captured.flatMap fun e => msgWords s e (subIn s n e.hdr.src)

/-! The space. -/

/-- HEADER: T, FDT, DIE, OBS_FRZST and the record counts, one word each in that order. -/
def headWords (s : State) : List Word :=
  [w64 s.obs.frzT, w64 (get s fObsFrzstFdt), w64 (dieOf s), readReg s rObsFrzst, w64 (waiterRecs s).length, w64 (inflight s).length]

/-- Word k of the snapshot space, 131,072 words to a page (R452). -/
def snapWord (s : State) (k : Nat) : Word :=
  let page := k / 131072
  let o := k % 131072
  if page = 0 then
    if o < 512 then (headWords s).getD o 0
    else if o < 768 then (linkWords s ((o - 512) / 32)).getD (o % 32) 0
    else if o < 16384 then 0
    else if o < 20480 then (laneWords s ((o - 16384) / 64)).getD (o % 64) 0
    else if o < 32768 then 0
    else if o < 40960 then (combineWords s ((o - 32768) / 8)).getD (o % 8) 0
    else 0
  else if page = 1 then
    if o < 65536 then (qheadWords s (o / 32) (o % 32 / 8)).getD (o % 8) 0 else 0
  else if page < 4 then
    match (waiterRecs s)[(k - 262144) / 4]? with
    | some ws => ws.getD (k % 4) 0
    | none => 0
  else if page < 12 then (objectWords s ((k - 524288) / 4)).getD (k % 4) 0
  else if page < 15 then
    match (inflight s)[(k - 1572864) / 8]? with
    | some f => flyingWord s f ((k - 1572864) / 8) (k % 8)
    | none => 0
  else if page = 15 then
    if o < 32768 then (captureWords s (o / 4096)).getD (o % 4096) 0 else 0
  else 0

/-! What a read of the window finds in the memories it shows (R390, R391, R466, R474). -/

/-- A word read by the window alone: a corrected error and an uncorrectable one are recorded, and the latter word stays bad for the
reader that has to act on it. -/
def windowRead (s : State) (b target unit index ce ue : Nat) (detail : Nat) : State :=
  let (s, e) := chkRead s b target unit index
  match e with
  | .good => s
  | .ce => raise s b ce detail
  | .ue => raise { s with flt := { s.flt with bad := s.flt.bad ++ [⟨b, target, unit, index, true⟩] } } b ue detail

/-- Word j of an OBJECTS record: value, metadata or tag. A lost value or metadata word poisons its object, or is repaired from the
partner's copy. -/
def objectRead (s : State) (key j : Nat) : State :=
  match slotAt s key with
  | none => if j < 3 then windowRead s bSema j (sliceOf key) (slotOf key) 0 1 (dMem j (slotOf key)) else s
  | some x =>
    if j = 2 then (tagRead s key ((htmIdx s x.tenant x.obj).getD 0)).1
    else if 2 < j then s
    else
      let (s, e) := chkRead s bSema j (sliceOf key) (slotOf key)
      let detail := dObj (sliceOf key) (slotOf key) x.tenant
      match e with
      | .good => s
      | .ce => raise s bSema 0 (dMem j (slotOf key))
      | .ue => if x.paired && !copyBad s (partnerKey key) then raise s bSema 4 detail else raise (poisonObj s key x) bSema 1 detail

/-- Word j of WAITERS record r; an entry with a lost word is dropped. -/
def waiterRead (s : State) (r j : Nat) : State :=
  match (allWaiters s)[r]? with
  | none => s
  | some (key, w) =>
    let (s, e) := chkRead s bWait j w.table w.entry
    match e with
    | .good => s
    | .ce => raise s bWait 0 (dMem j w.entry)
    | .ue => raise (dropWaiter s key w) bWait 1 (dMem j w.entry)

/-- Word j of the QHEADS record of an agent's queue: a word of the queue entry at its head. -/
def headRead (s : State) (a q j : Nat) : State :=
  match pierOf s a, headItem (queueOf s a q) with
  | some p, some i =>
    if 4 ≤ j then s
    else
      let n := entryIdx (localIdx p a) q i.entry
      windowRead s bPier 0 p.pier n 0 1 (dPmem p.pier 0 n)
  | _, _ => s

/-- A word of an INFLIGHT record: what holds the message is read. -/
def flyingRead (s : State) (f : Flying) : State :=
  match f.word with
  | none => s
  | some w =>
    match f.place with
    | 2 => windowRead s bSema 6 f.unit w 0 5 (dMem 6 w)
    | 3 => windowRead s bSema 7 f.unit w 0 5 (dMem 7 w)
    | 5 => windowRead s bSema 8 0 w 0 5 (dMem 8 w)
    | 6 => windowRead s bPier 2 f.unit w 0 1 (dPmem f.unit 2 w)
    | 7 => windowRead s (bVia f.unit) 2 0 w 10 11 (dMem 2 w)
    | _ => s

/-- The captured message of a port in which word k of the port's section lies. -/
def capturedAt (s : State) (n k : Nat) : Nat :=
  ((List.range (portSt s n).captured.length).find? fun e =>
    decide (k < sumBy (fun x => msgLen x.msg) ((portSt s n).captured.take (e + 1)))).getD (portSt s n).captured.length

/-- Word k of the snapshot space is read by the window (R452). -/
def snapRead (s : State) (k : Nat) : State :=
  let page := k / 131072
  let o := k % 131072
  if page = 0 then
    if 32768 ≤ o ∧ o < 40960 then
      match ctxAt s ((o - 32768) / 8) with
      | some x => (readRecord s ((o - 32768) / 8) x).1
      | none => s
    else s
  else if page = 1 then (if o < 65536 then headRead s (o / 32) (o % 32 / 8) (o % 8) else s)
  else if page < 4 then waiterRead s ((k - 262144) / 4) (k % 4)
  else if page < 12 then objectRead s ((k - 524288) / 4) (k % 4)
  else if page < 15 then
    match (inflight s)[(k - 1572864) / 8]? with
    | some f => if k % 8 = 0 then s else flyingRead s f
    | none => s
  else if page = 15 ∧ o < 32768 then
    let e := capturedAt s (o / 4096) (o % 4096)
    windowRead s (bVia (o / 4096)) 2 0 e 10 11 (dMem 2 e)
  else s

/-! The wait-for graph (R458). -/

/-- A blocked head: its command, and the object where it is on this die: value word, signal record, release record. -/
structure Blocked where
  cmd : Cmd
  obj : Option (Nat × Word × Option SigRec × Option RelRec)
  deriving DecidableEq, Repr

/-- The object at a handle-table index: its index, value word and records; of one in TRANSIT those of its slot while it has one, else of
its image. -/
def graphObj (s : State) (i : Nat) : Option (Nat × Word × Option SigRec × Option RelRec) :=
  let e := htmAt s i
  match e.state with
  | .resident => (slotAt s (slotKey e.slice e.slot)).map fun x => (i, x.value, x.sig, x.rel)
  | .backed => (ownerOf s i).map fun (t, n) => (i, mem64 s (imgAddr s t n), none, (sideAt s i).rel)
  | .transit => (ownerOf s i).map fun (t, n) =>
    match s.sema.slots.find? fun x => decide (x.2.tenant = t) && decide (x.2.obj = n) with
    | some (_, x) => (i, x.value, x.sig, x.rel)
    | none => (i, mem64 s (imgAddr s t n), none, (sideAt s i).rel)
  | .unallocated => none

/-- The object a command of this die names. -/
def objOf (s : State) (c : Cmd) : Option (Nat × Word × Option SigRec × Option RelRec) :=
  if pDie c.words ≠ dieOf s then none
  else
    match pOp c.words with
    | none => none
    | some op => match resolve s c op (pObj c.words) with
      | .ok (i, _) => graphObj s i
      | .error _ => none

/-- Blocking commands on an object: as waiters, held at piers, at banks, in the paging queue and in the hold tables. -/
def blockedHeads (s : State) : List Blocked :=
  let onObj (c : Cmd) : Bool := blocking c.words && !isLane c.words
  let waits := s.sema.slots.flatMap fun x => x.2.waiters.map fun w =>
    (⟨w.cmd, (htmIdx s x.2.tenant x.2.obj).map fun i => (i, x.2.value, x.2.sig, x.2.rel)⟩ : Blocked)
  let piers := (allItems s).filterMap fun x => match x.2.2.cmd, (headCode x.2.2).1 with
    | some c, 2 => if onObj c then some (⟨c, objOf s c⟩ : Blocked) else none
    | _, _ => none
  let banks := (s.sema.transit.map (·.2.2) ++ s.sema.early ++ s.sema.paging.map (·.item)).filterMap fun x => match x with
    | .cmd c _ none => if onObj c then some (⟨c, objOf s c⟩ : Blocked) else none
    | .cmd c _ (some y) => if onObj c then some (⟨c, (htmIdx s y.tenant y.obj).bind (graphObj s)⟩ : Blocked) else none
    | _ => none
  let holds := (List.range 8).flatMap fun n => (portSt s n).hold.filterMap fun h => match h.env.msg with
    | .cmd c => if onObj c then some (⟨c, objOf s c⟩ : Blocked) else none
    | _ => none
  waits ++ piers ++ banks ++ holds

/-- The agents that an object's records name: agent and die, the signaller first. -/
def namedAgents (b : Blocked) : List (Nat × Nat) :=
  match b.obj with
  | none => []
  | some (_, _, sig, rel) => ((sig.map fun r => (r.agent, r.die)).toList ++ (rel.map fun r => (r.agent, r.die)).toList).eraseDups

/-- Whether a queue head of this die stands in HSTATE 2 or 3 (R453). -/
def headHeld (s : State) (a q : Nat) : Bool :=
  match headItem (queueOf s a q) with
  | some i => decide (2 ≤ (headCode i).1)
  | none => false

/-- The blocked heads that a blocked head's object leads to, by place in the list. -/
def nextHeads (s : State) (hs : List Blocked) (b : Blocked) : List Nat :=
  (hs.zipIdx.filter fun h => decide (h.1.cmd.die = dieOf s) && (namedAgents b).contains (h.1.cmd.agent, dieOf s)
    && headHeld s h.1.cmd.agent h.1.cmd.queue).map (·.2)

/-- What is reached in at most n steps over a successor table. -/
def closure (succ : List (List Nat)) : Nat → List Nat → List Nat
  | 0, l => l
  | n + 1, l => closure succ n ((l ++ l.flatMap fun i => succ.getD i []).eraseDups)

/-- For each head its cycle number: heads that reach each other share one, numbered from 1 in order; 0 for a head on none. -/
def cycleNos (reach : List (List Nat)) : List Nat :=
  let n := reach.length
  let same (i j : Nat) : Bool := (reach.getD i []).contains j && (reach.getD j []).contains i
  let leaders := (List.range n).filter fun i => same i i && (List.range i).all fun j => !same i j
  (List.range n).map fun i => match leaders.findIdx? (same i) with
    | some k => if same i i then k + 1 else 0
    | none => 0

/-- One record of the report: 4 words. -/
def hangRec (type cycle : Nat) (b : Blocked) (next : Option (Nat × Nat)) : List Word :=
  let c := b.cmd
  let v : Word := match b.obj with
    | some (_, v, _, _) => v
    | none => 0
  let (na, nd) := next.getD (0, 0)
  [w64 (type + 2 ^ 4 * (cycle % 4096) + 2 ^ 16 * (c.agent % 2048) + 2 ^ 27 * (c.queue % 4) + 2 ^ 29 * (c.die % 64) + 2 ^ 35 * (c.tenant % 256)),
   w64 (pHandle c.words), v,
   w64 (na % 2048 + 2 ^ 11 * (nd % 64) + 2 ^ 17 * b2n next.isSome + 2 ^ 18 * (match c.deadline with
     | some d => d % 2 ^ 40
     | none => 2 ^ 40 - 1))]

/-- The last signaller of a head's object. -/
def signaller (b : Blocked) : Option (Nat × Nat) :=
  match b.obj with
  | some (_, _, some r, _) => some (r.agent, r.die)
  | _ => none

/-- The objects' edges to agents of other dies: the oldest head on each object, and the agent. -/
def externals (s : State) (hs : List Blocked) : List (Blocked × Nat × Nat) :=
  let first := hs.zipIdx.filter fun h => match h.1.obj with
    | none => false
    | some (i, _) => !(hs.take h.2).any fun g => decide (g.obj.map (·.1) = some i)
  first.flatMap fun h => ((namedAgents h.1).filter fun a => decide (a.2 ≠ dieOf s)).map fun a => (h.1, a)

/-- The records of the report, in the order of TYPE. -/
def hangRecords (s : State) : List (List Word) :=
  let hs := blockedHeads s
  let succ := hs.map (nextHeads s hs)
  let reach := succ.map (closure succ hs.length)
  let nos := cycleNos reach
  let on_ := (hs.zip nos).filter fun x => decide (x.2 ≠ 0)
  let stranded := hs.filter fun b => match b.obj with
    | some (_, _, none, none) => true
    | _ => false
  on_.map (fun x => hangRec 1 x.2 x.1 (signaller x.1)) ++ stranded.map (fun b => hangRec 2 0 b none)
    ++ (externals s hs).map fun x => hangRec 3 0 x.1 (some x.2)

/-! Snapshot commands (R457). -/

def sncmdEnds (s : State) (st : Status) : State := put (put s fObsSnstBusy 0) fObsSnstStatus (stCode st)

/-- OBS_SNCMD COPY, or HANGSCAN. -/
def sncmdBegin (s : State) (hang : Bool) : State :=
  if on s fObsSnstBusy then s
  else if frzState s ≠ 3 then sncmdEnds s .badop
  else if !fwRuns s then sncmdEnds s .busyFw
  else put { s with obs := { s.obs with sncmd := some hang } } fObsSnstBusy 1

/-- OBS_SNCMD with the reserved OP. -/
def sncmdReserved (s : State) : State := if on s fObsSnstBusy then s else sncmdEnds s .badop

def snAddr (s : State) : Nat := 64 * get s fObsSnargAddr

/-- Words written to external memory on from an address. -/
def memWords (m : List Host.Cell) (a : Nat) (ws : List Word) : List Host.Cell := memPuts m a (ws.flatMap fun w => bytesOf 8 w.toNat)

/-- Firmware finishes a COPY (pages 0 to 15) or a HANGSCAN (its report). Its memory writes stand with it (R489; log entry 136). -/
def sncmdFinish (s : State) : State :=
  match s.obs.sncmd with
  | none => s
  | some hang =>
    if !eclkRuns s || !fwFinishes s then s
    else
      let done (s : State) : State := sncmdEnds { s with obs := { s.obs with sncmd := none } } .ok
      if !hang then done { s with mem := memWords s.mem (snAddr s) ((List.range 2097152).map (snapWord s)) }
      else
        let recs := hangRecords s
        let lim := max 1 (get s fObsSnargLen)
        let past := decide (lim < recs.length + 1)
        let out := (if past then recs.take (lim - 1) else recs) ++ [[0, 0, 0, 0]]
        let s := { s with mem := memWords s.mem (snAddr s) (out.flatMap id) }
        done (put (put s fObsSnstNrec recs.length) fObsSnstTrunc (b2n past))

end Sys2Proof.Machine
end

