-- ==== Sys2Proof/Machine/Marionette.lean ====
section
/-! DEFINITION. Marionette (R459 to R462). Each operation is applied in one step, but for a
SETVAL that has to wait at its slice or for its image (log entry 123), while which MAR_ST.BUSY is set. -/
namespace Sys2Proof.Machine

abbrev mCancelQ : Nat := 2
abbrev mCancelW : Nat := 3
abbrev mForce : Nat := 4
abbrev mRead : Nat := 5

/-- The object of SETVAL and READ, once the checks that both make have passed: its index and, resident, its slot's key. -/
def marObject (s : State) : Except Status (Nat × Option Nat) :=
  if degradedOn s then .error .degraded
  else
    match htmIdx s (get s fMarArg0Tenant) (get s fMarArg0Obj) with
    | none => .error .prot
    | some i =>
      let e := htmAt s i
      match e.state with
      | .unallocated => .error .badop
      | .resident => .ok (i, some (slotKey e.slice e.slot))
      | _ => if fwRuns s then .ok (i, none) else .error .busyFw

/-- MAR_CMD SETVAL. On a BACKED object firmware writes the image, where a mirror record has room (R309). -/
def doSetval (s : State) : State :=
  let t := get s fMarArg0Tenant
  let v := rd s rMarArg1
  match marObject s with
  | .error st => marDone s mSetval st
  | .ok (i, some key) => setvalAt s key i v
  | .ok (i, none) =>
    if imgFull s i t then pushPaging (marWaits s mSetval) i (.setval v)
    else imgSetval s i (imgSlot s t (get s fMarArg0Obj) i) v

/-- MAR_CMD READ. It reads the value word, whose errors are met as those of every read (R390). -/
def doMarRead (s : State) : State :=
  let t := get s fMarArg0Tenant
  match marObject s with
  | .error st => marDone s mRead st
  | .ok (_, some key) =>
    let s := match slotAt s key with
      | some x => readSlot s key x
      | none => s
    match slotAt s key with
    | none => marDone s mRead .badop
    | some x => marApplied (wr s rMarOld x.value) mRead t
  | .ok (i, none) => marApplied (wr s rMarOld (imgSlot s t (get s fMarArg0Obj) i).value) mRead t

/-- The blocking command at the head of a queue (R86): the first command whose reply is not generated, where it blocks. -/
def blockedHead (s : State) (a q : Nat) : Option Item :=
  match (queueOf s a q).items.filter fun i => !i.st.finished with
  | i :: _ => if blocking i.words && i.cmd.isSome then some i else none
  | [] => none

/-- MAR_CMD CANCEL_Q. During a freeze Girder carries no cancel: what holds the command on this die ends it at once. -/
def doCancelQ (s : State) : State :=
  let a := get s fMarArg0Agent
  let q := get s fMarArg0Queue
  if degradedOn s then marDone s mCancelQ .degraded
  else
    match blockedHead s a q with
    | none => marDone s mCancelQ .badop
    | some i =>
      match i.cmd with
      | none => marDone s mCancelQ .badop
      | some c =>
        let s := marApplied { s with obs := { s.obs with marked := s.obs.marked ++ [markOf c] } } mCancelQ c.tenant
        if i.st ≠ .out then failWith s .pier c none .cancelled cMarionette 0
        else if frozen s then
          match findHeld s (dieOf s) a q with
          | some h => endHeld s h .cancelled cMarionette (dieOf s)
          | none => sendCancel s c cMarionette
        else sendCancel s c cMarionette

/-- MAR_CMD CANCEL_W. -/
def doCancelW (s : State) : State :=
  let table := get s fMarArg0Slice
  let e := wbits (rd s rMarArg1) 0 10
  if degradedOn s then marDone s mCancelW .degraded
  else
    match (allWaiters s).find? fun x => decide (x.2.table = table) && decide (x.2.entry = e) with
    | none => marDone s mCancelW .badop
    | some (key, w) =>
      let s := bump (marApplied s mCancelW w.cmd.tenant) fMarCntCancels
      endWaiter s key w .cancelled cMarionette

/-- MAR_CMD FORCELANE (R462). -/
def doForceLane (s : State) : State :=
  let l := get s fMarArg0Lane
  if !on s (fTrsLcfgEn l) then marDone s mForce .badop
  else forceLane_ (marApplied s mForce (get s (fTrsLcfgTenant l))) l

/-- MAR_CMD with a reserved OP. -/
def marReserved (s : State) (op : Nat) : State := marDone s op .badop

end Sys2Proof.Machine
end

