-- ==== Sys2Proof/Machine/Manage.lean ====
section
/-! DEFINITION. Management accesses (R2 to R6, R362 to R368, R464 to R469, R487): who is admitted, which accesses are answered
with an error, what a write does to each register, and the record of a write ignored for want of a right (R364). A write's own
function takes whether the requester is a manager, and the requester for what it records. -/
namespace Sys2Proof.Machine

/-! Requesters. -/

/-- The requester ID of an access. The bridge-keeper's own accesses carry none (R488): what a record shows then is open. -/
def reqId (s : State) : Requester → Nat
  | .port id => id % 65536
  | .firmware => openAt s 0 % 65536

/-- The access comes from the boot requester. -/
def isBoot (s : State) (r : Requester) : Bool :=
  match r with
  | .port id => decide (id = s.net.bootId)
  | .firmware => false

/-- The access is a manager's (R362, R364). -/
def isManager (s : State) (r : Requester) : Bool :=
  match r with
  | .firmware => true
  | .port id =>
    if on s fKeyCtlLock then (List.range 4).any fun i => on s (fKeyMgrValid i) && decide (get s (fKeyMgrId i) = id)
    else decide (id = s.net.bootId)

/-- The controller is stopped by R421 or by IMEM_UE. -/
def recovering (s : State) : Bool := decide (s.fw.stop = .unreleased) || decide (s.fw.stop = .imemUe)

/-- A manager for FW_IMG, FW_UPD, FW_UPDST and the instruction window (R428). -/
def isFwManager (s : State) (r : Requester) : Bool := isManager s r || (isBoot s r && recovering s)

/-- A write is ignored for want of a right: PRIV_WRITE where the right would have made it effective (R364). -/
def noRight (s : State) (r : Requester) (effective : Bool) : State := if effective then raise s bCore 5 (reqId s r) else s

/-- A write that takes a right. -/
def withRight (s : State) (r : Requester) (right effective : Bool) (f : State → State) : State :=
  if right then f s else noRight s r effective

/-! Admission. -/

/-- The offsets served while ECLK is stopped (R469). -/
def servedStopped (off : Nat) : Bool :=
  let region := off / 65536
  decide (region = 1) || decide (region = 0x10) || decide (region = 0x12) || decide (region = 0x13)
    || decide (off = rCoreId) || decide (off = rCoreFsum) || (decide (0x200000 ≤ off) && decide (off < 0x2C0000))

/-- An access answered with an error (R2, R362). -/
def badAccess (s : State) (r : Requester) : State := raise s bCore 9 (reqId s r)

/-- The access of the bridge-keeper can be made: it runs. -/
def canAccess (s : State) (r : Requester) : Bool :=
  match r with
  | .firmware => on s fFwStatRun && eclkRuns s
  | .port _ => true

/-- The boot window turns the access away (R362). -/
def windowShut (s : State) (r : Requester) : Bool := !on s fKeyCtlLock && !isManager s r

/-- A write access of 64 bits, aligned, at an offset: it is served unless the engine is in reset, ECLK stands (R469) or the boot
window turns it away. -/
def access (s : State) (r : Requester) (off : Nat) (f : State → State) : State :=
  if s.clk.inReset || !canAccess s r then s
  else if on s fClkStatStopped && !servedStopped off then s
  else if windowShut s r then badAccess s r
  else f s

/-! Registers whose fields have no behaviour of their own (R4, R5). -/

/-- What a write leaves in a register of the map: RW and RWM fields for a manager, RWK fields before KEY_LOCK, W1C bits
cleared, W1S bits set. -/
def plainWord (s : State) (row : RegRow) (man : Bool) (off : Nat) (data : Word) : Word :=
  let old := rd s off
  let set := (if man then w64 row.rwm else 0) ||| (if man && !on s fKeyCtlLock then w64 row.rwk else 0)
  let w := (old &&& ~~~set) ||| (data &&& set)
  (w &&& ~~~(data &&& w64 row.w1c)) ||| (data &&& w64 row.w1s)

/-- Whether a write lacks a right for a field it would change. -/
def plainLacks (s : State) (row : RegRow) (man : Bool) (off : Nat) (data : Word) : Bool :=
  let diff := rd s off ^^^ data
  (!man && decide (diff &&& w64 row.rwm ≠ 0)) || ((!man || on s fKeyCtlLock) && decide (diff &&& w64 row.rwk ≠ 0))

/-- A write to such a register. -/
def plainWrite (s : State) (r : Requester) (off : Nat) (data : Word) : State :=
  match regRow off with
  | none => s
  | some row =>
    let man := isManager s r
    let s' := wr s off (plainWord s row man off data)
    if plainLacks s row man off data then raise s' bCore 5 (reqId s r) else s'

/-! CORE and KEY. -/

/-- CORE_STEP (R423). -/
def wCoreStep (s : State) (r : Requester) (data : Word) : State :=
  let v := wbits data 0 4
  withRight s r (isManager s r) (decide (get (coreStep_ s v) fCoreStepStep ≠ get s fCoreStepStep)) fun s => coreStep_ s v

/-- KEY_CTL (R363). -/
def wKeyCtl (s : State) (data : Word) : State := if nbit data.toNat 0 then keyLock_ s else s

/-! Tenants and agents. -/

def wTenCfg (s : State) (r : Requester) (t : Nat) (data : Word) : State :=
  withRight s r (isManager s r) (decide (rd (cfgWrite s t data) (rTenCfg t) ≠ rd s (rTenCfg t))) fun s => cfgWrite s t data

def wTenShare (s : State) (r : Requester) (t word : Nat) (data : Word) : State :=
  let off := if word = 0 then rTenShare0 t else rTenShare1 t
  withRight s r (isManager s r) (decide (rd (shareWrite s t word data) off ≠ rd s off)) fun s => shareWrite s t word data

def wTenImp (s : State) (r : Requester) (t i : Nat) (data : Word) : State :=
  withRight s r (isManager s r) (decide (rd (impWrite s t i data) (rTenImp t i) ≠ rd s (rTenImp t i))) fun s => impWrite s t i data

/-- AGT_BIND (R344, R359). -/
def wAgtBind (s : State) (r : Requester) (a : Nat) (data : Word) : State :=
  withRight s r (isManager s r) (decide (rd (bindWrite s a data) (rAgtBind a) ≠ rd s (rAgtBind a))) fun s => bindWrite s a data

/-- A management command that a freeze puts off (R449). -/
def defer (s : State) (c : Instr) : State := { s with obs := { s.obs with deferred := s.obs.deferred ++ [c] } }

/-- TEN_CMD with an OP of 1 to 3 (R368, R449): ignored while BUSY, put off by a freeze. -/
def wTenOp (s : State) (r : Requester) (t op : Nat) (c : Instr) (f : State → State) : State :=
  if on s (fTenCmdstBusy t) then s
  else withRight s r (isManager s r) true fun s => if freezing s then defer (tenBusy s t op) c else f s

/-- TEN_CMD (R350, R352, R353, R356). -/
def wTenCmd (s : State) (r : Requester) (t : Nat) (data : Word) : State :=
  let freeall := nbit data.toNat 3
  match wbits data 0 2 with
  | 1 => wTenOp s r t 1 (.quiesce r t) fun s => doQuiesce s t
  | 2 => wTenOp s r t 2 (.resume r t) fun s => doResume s t
  | 3 =>
    if nbit data.toNat 2 then wTenOp s r t 3 (.forcedReset r t freeall) fun s => doForced s t freeall
    else wTenOp s r t 3 (.reset r t freeall) fun s => doReset s t freeall
  | _ => s

/-! SEMA. -/

/-- Two windows of LEN units from BASE meet. -/
def windowsMeet (b1 l1 b2 l2 : Nat) : Bool :=
  decide (0 < l1) && decide (0 < l2) && decide (b1 < b2 + l2) && decide (b2 < b1 + l1)

/-- A write to SEMA_HTW is refused (R54). -/
def htwBad (s : State) (t : Nat) (data : Word) : Bool :=
  let b := wbits data 0 10
  let l := wbits data 16 11
  decide (allocatedOf s t ≠ []) || decide (1024 < b + l)
    || (List.range 256).any fun u => decide (u ≠ t) && windowsMeet b l (get s (fSemaHtwBase u)) (get s (fSemaHtwLen u))

/-- SEMA_HTW (R54). -/
def wSemaHtw (s : State) (r : Requester) (t : Nat) (data : Word) : State :=
  let new : Word := data &&& 0x7ff03ff
  withRight s r (isManager s r) (!htwBad s t data && decide (new ≠ rd s (rSemaHtw t))) fun s =>
    if htwBad s t data then raise s bSema 7 (dTen t 0) else wr s (rSemaHtw t) new

/-- The tenant has a BACKED object or a command in the paging queue (R55), its own or on an object of its own. An object in transit is
neither. -/
def backInUse (s : State) (t : Nat) : Bool :=
  ((allocatedOf s t).any fun x => decide (x.2.state = .backed))
    || s.sema.paging.any fun p => decide (p.item.tenant = some t) || decide ((ownerOf s p.index).map (·.1) = some t)

/-- A write to SEMA_BACK is refused (R55). -/
def backBad (s : State) (t : Nat) (data : Word) : Bool :=
  ((on s (fSemaBackEn t) && !nbit data.toNat 0) || decide (wbits data 12 36 ≠ get s (fSemaBackAddr t))) && backInUse s t

/-- SEMA_BACK (R55). -/
def wSemaBack (s : State) (r : Requester) (t : Nat) (data : Word) : State :=
  let new : Word := data &&& 0xfffffffff0f1
  withRight s r (isManager s r) (!backBad s t data && decide (new ≠ rd s (rSemaBack t))) fun s =>
    if backBad s t data then raise s bSema 8 (dTen t 0) else wr s (rSemaBack t) new

/-- A write to SEMA_PAIR is refused (R57). -/
def pairBad (s : State) (data : Word) : Bool :=
  (List.range 32).any fun k =>
    decide (wbits data k 1 ≠ wbits (rd s rSemaPair) k 1) && (decide (slotsIn s (2 * k) ≠ 0) || decide (slotsIn s (2 * k + 1) ≠ 0))

/-- SEMA_PAIR (R57). No tenant is concerned: the record's DETAIL is open. -/
def wSemaPair (s : State) (r : Requester) (data : Word) : State :=
  let new : Word := data &&& 0xffffffff
  withRight s r (isManager s r) (!pairBad s data && decide (new ≠ rd s rSemaPair)) fun s =>
    if pairBad s data then raise s bSema 8 (openAt s 1) else wr s rSemaPair new

/-! ABC. -/

/-- ABC_CMD while BUSY is set is refused (R237); else it takes a manager. -/
def wAbcOp (s : State) (r : Requester) (bits : Nat) (f : State → State) : State :=
  if on s fAbcCmdstBusy then raise s bAbc 3 (reqId s r)
  else withRight s r (isManager s r) (decide (bits ≠ 0)) f

def wAbcOpen (s : State) (r : Requester) (c : Nat) : State :=
  wAbcOp s r (4 * c) fun s => if freezing s then defer (setCmdst s c .ok true) (.open r c) else doOpen s c
def wAbcClose (s : State) (r : Requester) (c : Nat) : State :=
  wAbcOp s r (1 + 4 * c) fun s => if freezing s then defer (setCmdst s c .ok true) (.close r c) else doClose s c
def wAbcRead (s : State) (r : Requester) (c : Nat) : State := wAbcOp s r (2 + 4 * c) fun s => doRead s c

/-- ABC_CMD (R217, R219); OP 3 completes with BADOP. -/
def wAbcCmd (s : State) (r : Requester) (data : Word) : State :=
  let c := wbits data 2 10
  match wbits data 0 2 with
  | 0 => wAbcOpen s r c
  | 1 => wAbcClose s r c
  | 2 => wAbcRead s r c
  | _ => wAbcOp s r (3 + 4 * c) fun s => setCmdst s c .badop false

/-! TRS. -/

/-- TRS_LEN (R160, R164). -/
def lenWrite (s : State) (l w : Nat) (data : Word) : State :=
  let x := laneSt s l
  if x.sent then setLane s l { x with lenNext := mput x.lenNext w data } else decideLane (wr s (rTrsLen l w) data) l

def wTrsLen (s : State) (r : Requester) (l w : Nat) (data : Word) : State :=
  withRight s r (isManager s r) (decide ((mget (laneSt s l).lenNext w).getD (rd s (rTrsLen l w)) ≠ data)) fun s => lenWrite s l w data

/-- The lane is in use in its phase: an arrival raised or pending, or armed (R166). -/
def laneBusy (s : State) (l : Nat) : Bool :=
  let x := laneSt s l
  decide (x.raised ≠ []) || decide (x.waiting ≠ []) || x.armed.isSome

/-- A write to TRS_LCFG that would take the tenant beyond its lanes (R345). -/
def lanesFull (s : State) (l : Nat) (data : Word) : Bool :=
  let t := wbits data 0 8
  nbit data.toNat 8 && !(on s (fTrsLcfgEn l) && decide (get s (fTrsLcfgTenant l) = t)) && decide (get s (fTenShare1Lanes t) ≤ lanesOf s t)

/-- TRS_LCFG, or with `xdie` TRS_LXDIE (R166, R345). A write that sets EN while Trestle is closed opens it (R413). -/
def wTrsLcfg (s : State) (r : Requester) (l : Nat) (xdie : Bool) (data : Word) : State :=
  let off := if xdie then rTrsLxdie l else rTrsLcfg l
  let new : Word := if xdie then data else data &&& 0x3fffffffff
  let bad := laneBusy s l || (!xdie && lanesFull s l data)
  withRight s r (isManager s r) (!bad && decide (new ≠ rd s off)) fun s =>
    if bad then raise s bTrs 3 (dLane l (dieOf s))
    else
      let s' := wr s off new
      if !on s (fTrsLcfgEn l) && on s' (fTrsLcfgEn l) && !trestleOn s' then openGate s' 97 else s'

/-- TRS_LSTAT: writing 1 to BROKEN clears it, and the lane resumes (R165). -/
def wTrsLstat (s : State) (l : Nat) (data : Word) : State :=
  if nbit data.toNat 28 then decideLane (setLane s l { laneSt s l with broken := false }) l else s

/-! Viaduct, Deck Time, clocks. -/

/-- VIAn_CTL (R291, R313). -/
def wViaCtl (s : State) (r : Requester) (n : Nat) (data : Word) : State :=
  withRight s r (isManager s r) (decide (rd (viaCtlWrite s n data) (rViaCtl n) ≠ rd s (rViaCtl n))) fun s => viaCtlWrite s n data

/-- DT_CMD with a COARSE that would leave at tx (R339, R449). -/
def wDtAlign (s : State) (r : Requester) (tx : Nat) : State :=
  if alState s ≠ alIdle then s
  else withRight s r (isManager s r) true fun s => if freezing s then defer s (.align r tx) else doAlign s tx

def wDtMeasure (s : State) (r : Requester) (which : Option Nat) (c : Instr) : State :=
  if on s fDtPmstatBusy then s
  else withRight s r (isManager s r) true fun s => if freezing s then defer (put s fDtPmstatBusy 1) c else beginMeasure s which

def wDtCmd (s : State) (r : Requester) (data : Word) : State :=
  let p := wbits data 2 11
  match wbits data 0 2 with
  | 1 => wDtAlign s r (16 * s.now)
  | 2 => wDtMeasure s r none (.remeasureAll r)
  | 3 => wDtMeasure s r (some p) (.remeasureOne r p)
  | _ => s

/-- CLK_CTL (R403 to R406). While a ramp is in progress every write is ignored and WIGN set. -/
def wClkCtl (s : State) (r : Requester) (data : Word) : State :=
  if on s fClkStatRamp then clkCtlWrite s data
  else withRight s r (isManager s r) (decide ((rd s rClkCtl ^^^ data) &&& 0x3f ≠ 0)) fun s => clkCtlWrite s data

/-- CLK_GREQ (R410, R413, R431, R449): from any requester. -/
def wGateOpen (s : State) (r : Requester) (n : Nat) : State :=
  if on s fClkGreqstBusy then s
  else if freezing s then defer (gateResult s n 0 true) (.gateOpen r n) else doGateOpen s n
def wGateClose (s : State) (r : Requester) (n : Nat) : State :=
  if on s fClkGreqstBusy then s
  else if freezing s then defer (gateResult s n 0 true) (.gateClose r n) else doGateClose s n

def wClkGreq (s : State) (r : Requester) (data : Word) : State :=
  let n := wbits data 0 7
  if nbit data.toNat 7 then wGateOpen s r n else wGateClose s r n

/-! Firmware. -/

/-- FW_IMG.LEN can be written: in the boot window before DONE, and in LOADING (R419, R427). -/
def lenOpen (s : State) : Bool := (!on s fKeyCtlLock && !on s fFwImgDone) || decide (get s fFwUpdstState = 2)

/-- FW_IMG (R419, R420). -/
def wFwImg (s : State) (r : Requester) (data : Word) : State :=
  let len := wbits data 0 12
  let s := if lenOpen s then
      withRight s r (isFwManager s r) (decide (len ≠ get s fFwImgLen)) fun s => put s fFwImgLen len
    else s
  if nbit data.toNat 12 then imgDone s else s

/-- FW_STAT.READY is set by the bridge-keeper alone (R432). -/
def wFwStat (s : State) (r : Requester) (data : Word) : State :=
  match r with
  | .firmware => if nbit data.toNat 2 then ready_ s else s
  | .port _ => s

/-- FW_HBEAT (R424). -/
def wFwHbeat (s : State) (r : Requester) : State :=
  match r with
  | .firmware => heartbeat s
  | .port _ => s

/-- FW_UPD (R426, R429); OP 3 completes with BADOP. -/
def wFwUpd (s : State) (r : Requester) (data : Word) : State :=
  match wbits data 0 2 with
  | 1 => withRight s r (isFwManager s r) true updBegin
  | 2 => withRight s r (isFwManager s r) true updCommit
  | 3 => withRight s r (isFwManager s r) true fun s => updStatus s .badop
  | _ => s

/-- FW_MREQ (R425): from any requester. -/
def wFwMreq (s : State) (data : Word) : State := if nbit data.toNat 0 then measureReq s else s

/-- The instruction window (R419, R427). -/
def wImem (s : State) (r : Requester) (off : Nat) (data : Word) : State :=
  let open_ := (!on s fKeyCtlLock && !on s fFwImgDone && isBoot s r) || (decide (get s fFwUpdstState = 2) && isFwManager s r)
  if open_ then
    let i := (off - 0x200000) / 8
    chkWrite { s with fw := { s.fw with imem := mset s.fw.imem i 0 data } } bFw 0 0 i
  else s

/-! Observation. -/

/-- OBS_SAMP (R443). -/
def wObsSamp (s : State) (r : Requester) (data : Word) : State :=
  withRight s r (isManager s r) (decide ((rd s rObsSamp ^^^ data) &&& 0xff ≠ 0)) fun s => sampWrite s data

def wObsRing (s : State) (r : Requester) (data : Word) : State :=
  withRight s r (isManager s r) (!on s fObsSampEn && decide (ringBits data ≠ rd s rObsRing)) fun s => ringSet s data

def wObsTrring (s : State) (r : Requester) (data : Word) : State :=
  withRight s r (isManager s r) (!on s fObsTrctlEn && decide (ringBits data ≠ rd s rObsTrring)) fun s => trRingSet s data

/-- OBS_RTAIL and OBS_TRTAIL. -/
def wTail (s : State) (r : Requester) (head tail : Fld) (log : Nat) (data : Word) : State :=
  let v := wbits data 0 48
  withRight s r (isManager s r) (decide (get (tailWrite s head tail log v) tail ≠ get s tail)) fun s => tailWrite s head tail log v

/-- OBS_FRZT: written in IDLE. -/
def wFrzt (s : State) (r : Requester) (data : Word) : State :=
  if frzState s ≠ 0 then s
  else withRight s r (isManager s r) (decide (data ≠ rd s rObsFrzt)) fun s => wr s rObsFrzt data

/-- OBS_CCMD (R439): from any requester. -/
def wCcmd (s : State) (data : Word) : State :=
  match wbits data 0 2 with
  | 1 => clearCounters s (wbits data 2 9) (wbits data 11 9)
  | 2 => clearCounters s 0 511
  | _ => s

/-- OBS_FRZCMD (R447): from any requester. -/
def wFrzcmd (s : State) (data : Word) : State :=
  match wbits data 0 3 with
  | 1 => doArm s (nbit data.toNat 3)
  | 2 => doDisarm s
  | 3 => doThaw s
  | 4 => doThawat s
  | _ => s

/-- OBS_SNCMD (R457): from any requester. -/
def wSncmd (s : State) (data : Word) : State :=
  match wbits data 0 2 with
  | 1 => sncmdBegin s false
  | 2 => sncmdBegin s true
  | 3 => sncmdReserved s
  | _ => s

/-! Marionette (R459). -/

def wMarOp (s : State) (r : Requester) (f : State → State) : State :=
  if on s fMarStBusy then s else withRight s r (isManager s r) true f

def wMarCmd (s : State) (r : Requester) (data : Word) : State :=
  match wbits data 0 3 with
  | 0 => s
  | 1 => wMarOp s r doSetval
  | 2 => wMarOp s r doCancelQ
  | 3 => wMarOp s r doCancelW
  | 4 => wMarOp s r doForceLane
  | 5 => wMarOp s r doMarRead
  | op => wMarOp s r fun s => marReserved s op

/-! Fault registers (R365, R366, R370, R376 to R382, R394, R400). -/

/-- How many sources a block has (R398). -/
def srcCount (b : Nat) : Nat :=
  match b with
  | 0 => 10 | 1 => 10 | 2 => 3 | 3 => 4 | 4 => 5 | 5 => 6 | 6 => 6 | 7 => 8 | 8 => 6
  | _ => 12

/-- FSTAT: a 1 clears an unsealed sticky bit and its level reactions. -/
def fstatWrite (s : State) (b : Nat) (data : Word) : State :=
  let clear := wbits data 0 12 &&& (4095 ^^^ (mgetD s.flt.sealedBits b 0 % 4096))
  let s := put s (fStatSticky b) (get s (fStatSticky b) &&& (4095 ^^^ clear))
  let gone (k : Nat) : Bool := decide (k / 16 = b) && nbit clear (k % 16)
  { s with flt := { s.flt with levels := s.flt.levels.filter fun x => !gone x.1 } }

def wFstat (s : State) (r : Requester) (b : Nat) (data : Word) : State :=
  let clear := wbits data 0 12 &&& (4095 ^^^ (mgetD s.flt.sealedBits b 0 % 4096))
  withRight s r (isManager s r) (decide (clear ≠ 0)) fun s => fstatWrite s b data

/-- FFIRST.VALID: a 1 clears the record and FDT, unless the record is sealed. -/
def ffirstWrite (s : State) (b : Nat) (data : Word) : State :=
  if nbit data.toNat 4 && !(on s (fFirstValid b) && decide (get s (fFirstSev b) = 4)) then put (wr s (rFfirst b) 0) (fStatFdt b) 0 else s

def wFfirst (s : State) (r : Requester) (b : Nat) (data : Word) : State :=
  withRight s r (isManager s r) (nbit data.toNat 4 && !(on s (fFirstValid b) && decide (get s (fFirstSev b) = 4))) fun s => ffirstWrite s b data

/-- The sources of a block that Keystone protects. -/
def keptSources (s : State) (b : Nat) : List Nat := bitsSet (srcCount b) (rd s (rKeyNodown b)).toNat

/-- The lowest protected source that a severity word would bring below its default (R366). -/
def sevBreaks (s : State) (b : Nat) (data : Word) : Option Nat :=
  (keptSources s b).find? fun i => decide (min 4 (wbits data (3 * i) 3) < wbits (w64 (fsevReset b)) (3 * i) 3)

/-- The lowest protected source of which a reaction word would clear a default reaction. -/
def rctBreaks (s : State) (b : Nat) (data : Word) : Option Nat :=
  (keptSources s b).find? fun i => decide (wbits (w64 (frctReset b)) (5 * i) 5 &&& (31 ^^^ wbits data (5 * i) 5) ≠ 0)

/-- A severity or reaction word is written whole, or refused whole. -/
def keyedWrite (s : State) (r : Requester) (b off : Nat) (new : Word) (breaks : Option Nat) : State :=
  withRight s r (isManager s r) (breaks.isNone && decide (new ≠ rd s off)) fun s =>
    match breaks with
    | some i => raise s bCore 8 (dSrc b i (reqId s r))
    | none => wr s off new

def wFsev (s : State) (r : Requester) (b : Nat) (data : Word) : State :=
  keyedWrite s r b (rFsev b) (w64 (wbits data 0 (3 * srcCount b))) (sevBreaks s b data)

def wFrct (s : State) (r : Requester) (b : Nat) (data : Word) : State :=
  keyedWrite s r b (rFrct b) (w64 (wbits data 0 (5 * srcCount b))) (rctBreaks s b data)

/-- TGT, CB0, CB1, TWO and UNIT of FINJ. -/
def finjSet : Word := 0x1ffcfef

/-- FINJ after a manager's write: the fields set unless ARM is, ARM set by a 1, DONE cleared by a 1. -/
def finjWord (old data : Word) : Word :=
  let fields := if nbit old.toNat 12 then old &&& finjSet else data &&& finjSet
  let arm : Word := (old ||| data) &&& 0x1000
  let done : Word := (old &&& ~~~data) &&& 0x2000
  fields ||| arm ||| done

/-- FINJ; that of CLK ignores writes. -/
def wFinj (s : State) (r : Requester) (b : Nat) (data : Word) : State :=
  if b = bClk then s
  else
    let old := rd s (rFinj b)
    let sets := !nbit old.toNat 12 && decide ((old ^^^ data) &&& finjSet ≠ 0)
    withRight s r (isManager s r) (sets || nbit data.toNat 12 || nbit data.toNat 13) fun s => wr s (rFinj b) (finjWord old data)

def wFault (s : State) (r : Requester) (b k : Nat) (data : Word) : State :=
  match k with
  | 0 => wFstat s r b data
  | 1 => wFfirst s r b data
  | 2 => wFsev s r b data
  | 3 => wFrct s r b data
  | _ => wFinj s r b data

/-! Every offset. -/

/-- The registers that stand alone and have behaviour of their own. -/
def writeOne (s : State) (r : Requester) (off : Nat) (data : Word) : Option State :=
  match off with
  | 0x10 => some (wCoreStep s r data)
  | 0x10000 => some (wKeyCtl s data)
  | 0x41010 => some (wSemaPair s r data)
  | 0x60008 => some (wAbcCmd s r data)
  | 0x100018 => some (wDtCmd s r data)
  | 0x120000 => some (wClkCtl s r data)
  | 0x120010 => some (wClkGreq s r data)
  | 0x130000 => some (wFwStat s r data)
  | 0x130010 => some (wFwImg s r data)
  | 0x130018 => some (wFwHbeat s r)
  | 0x130020 => some (wFwUpd s r data)
  | 0x130030 => some (wFwMreq s data)
  | 0x140000 => some (wObsSamp s r data)
  | 0x140008 => some (wObsRing s r data)
  | 0x140018 => some (wTail s r fObsRheadHead fObsRtailTail (ringLog (get s fObsRingLog2)) data)
  | 0x140028 => some (wCcmd s data)
  | 0x140038 => some (wObsTrring s r data)
  | 0x140048 => some (wTail s r fObsTrheadHead fObsTrtailTail (ringLog (get s fObsTrringLog2)) data)
  | 0x140050 => some (wFrzt s r data)
  | 0x140060 => some (wFrzcmd s data)
  | 0x140078 => some (wSncmd s data)
  | 0x150000 => some (wMarCmd s r data)
  | _ => none

/-- The arrays of such registers. -/
def writeMany (s : State) (r : Requester) (off : Nat) (data : Word) : Option State :=
  let ten (at_ : Nat) : Option Nat := idxIn off (0x20000 + at_) 256 256
  ((ten 0x00).map fun t => wTenCfg s r t data)
    <|> ((ten 0x08).map fun t => wTenShare s r t 0 data)
    <|> ((ten 0x10).map fun t => wTenShare s r t 1 data)
    <|> ((ten 0x28).map fun t => wTenCmd s r t data)
    <|> ((List.range 4).findSome? fun i => (ten (0x40 + 8 * i)).map fun t => wTenImp s r t i data)
    <|> ((idxIn off 0x30000 16 2048).map fun a => wAgtBind s r a data)
    <|> ((idxIn off 0x40000 8 256).map fun t => wSemaHtw s r t data)
    <|> ((idxIn off 0x40800 8 256).map fun t => wSemaBack s r t data)
    <|> ((idxIn off 0x70000 8 2048).map fun k => wTrsLen s r (k / 32) (k % 32) data)
    <|> ((idxIn off 0x74000 8 64).map fun l => wTrsLcfg s r l false data)
    <|> ((idxIn off 0x74200 8 64).map fun l => wTrsLcfg s r l true data)
    <|> ((idxIn off 0x74400 8 64).map fun l => wTrsLstat s l data)
    <|> ((idxIn off 0x80000 0x10000 8).map fun n => wViaCtl s r n data)

/-- A write of 64 bits at an aligned offset, admitted: unassigned offsets and read-only windows ignore it (R465). -/
def writeAt (s : State) (r : Requester) (off : Nat) (data : Word) : State :=
  if 0x200000 ≤ off ∧ off < 0x280000 then wImem s r off data
  else if !assigned s off then s
  else
    match faultRegAt off with
    | some (b, k) => wFault s r b k data
    | none =>
      match writeOne s r off data with
      | some s' => s'
      | none =>
        match writeMany s r off data with
        | some s' => s'
        | none => plainWrite s r off data

/-- The access has the one width and alignment the aperture takes (R2). -/
def wellFormed (width off : Nat) : Bool := decide (width = 64) && decide (off % 8 = 0)

/-- A management write of any width at any offset (R2, R464). -/
def anyWrite (s : State) (r : Requester) (offset width : Nat) (data : Word) : State :=
  let off := offset % 2 ^ 22
  access s r off fun s => if wellFormed width off then writeAt s r off data else badAccess s r

/-- The error flag of a write's response (R2, R362, R469, R487): the access is not carried out. -/
def writeError (s : State) (r : Requester) (offset width : Nat) : Bool :=
  let off := offset % 2 ^ 22
  s.clk.inReset || (on s fClkStatStopped && !servedStopped off) || windowShut s r || !wellFormed width off

/-- A management write: the state after it, and the error flag of its response. -/
def writeAnswer (s : State) (r : Requester) (offset width : Nat) (data : Word) : State × Bool :=
  (anyWrite s r offset width data, writeError s r offset width)

/-! Reads. The table has no row for a read, since a read sets no field (R466); these functions say what a read returns, and what one
records that is turned away or meets a bad word of a window. -/

/-- What a read of a width at an offset returns to a requester: none for an error response, which reads 0 (R2, R362, R469). -/
def readAccess (s : State) (r : Requester) (offset width : Nat) : Option Word :=
  let off := offset % 2 ^ 22
  if s.clk.inReset || (on s fClkStatStopped && !servedStopped off) || windowShut s r || !wellFormed width off then none
  else if 0x200000 ≤ off ∧ off < 0x280000 then some (mgetD s.fw.imem ((off - 0x200000) / 8) 0)
  else if 0x280000 ≤ off ∧ off < 0x2C0000 then some (if isManager s r then mgetD s.fw.dmem ((off - 0x280000) / 8) 0 else 0)
  else if 0x300000 ≤ off then
    some (if isManager s r && decide (frzState s = 3) then snapWord s (131072 * get s fObsSnpagePage + (off - 0x300000) / 8) else 0)
  else some (readReg s off)

/-- What a read leaves: BADACC where it is answered with an error under R2 or R362 (R398); the word of a window that it reads has the check
bits of its memory read (R466, R474); nothing else changes. -/
def readEffect (s : State) (r : Requester) (offset width : Nat) : State :=
  let off := offset % 2 ^ 22
  access s r off fun s =>
    if !wellFormed width off then badAccess s r
    else if 0x200000 ≤ off ∧ off < 0x280000 then imemWord s ((off - 0x200000) / 8)
    else if 0x280000 ≤ off ∧ off < 0x2C0000 ∧ isManager s r = true then dmemWord s ((off - 0x280000) / 8)
    else if 0x300000 ≤ off ∧ isManager s r = true ∧ frzState s = 3 then
      snapRead s (131072 * get s fObsSnpagePage + (off - 0x300000) / 8)
    else s

/-- A management read: the state after it, and the data and whether the response is an error. -/
def anyRead (s : State) (r : Requester) (offset width : Nat) : State × Word × Bool :=
  let v := readAccess s r offset width
  (readEffect s r offset width, v.getD 0, v.isNone)

end Sys2Proof.Machine
end

