-- ==== Sys2Proof/Machine/BarrierOps.lean ====
section
/-! DEFINITION. Meanings of the arrivals at barriers and lanes and of what completes them. -/
namespace Sys2Proof.Machine

/-- The packet is an ARRIVE, at a lane or not. -/
def arriveAt (lane : Bool) (ws : List Word) : Bool := wants .arrive ws && decide (fLANE ws = lane)

/-- ARRIVE: An ARRIVE at a barrier slot: counted, or refused (R133 to R137). -/
def execArrive (agent : Nat) (queue : Nat) (s : State) : Host.Outcome State Fault Refusal :=
  .next (finishStep (issueOp (arriveAt false) agent queue s))

/-- ARRIVE_LANE: An arrival at a lane (R155 to R158, R161). -/
def execArriveLane (agent : Nat) (queue : Nat) (s : State) : Host.Outcome State Fault Refusal :=
  .next (finishStep (issueOp (arriveAt true) agent queue s))

/-- ARRIVE_COMBINE: An arrival with a payload, at the unit and at the barrier (R133, R220 to R223). -/
def execArriveCombine (agent : Nat) (queue : Nat) (s : State) : Host.Outcome State Fault Refusal :=
  .next (finishStep (issueOp (wants .arriveCombine) agent queue s))

/-- TIMED_RELEASE: An armed barrier or timed object reaches its release time (R117, R148 to R150). -/
def execTimedRelease (slice : Nat) (slot : Nat) (s : State) : Host.Outcome State Fault Refusal :=
  .next (finishStep (timedRelease_ s (slotKey slice slot)))

/-- TIME_FRAME: A time frame reaches its object (R151, R152, R302). -/
def execTimeFrame (port : Nat) (hdr : Hdr) (obj : Nat) (phase : Bool) (t : Nat)
    (s : State) : Host.Outcome State Fault Refusal :=
  .next (finishStep (recvMsg s port hdr (.time obj phase t)))

/-- COMBINE_REPORT: The report of the root reaches the slice of the barrier, which completes the phase (R138, R211). -/
def execCombineReport (ctx : Nat) (s : State) : Host.Outcome State Fault Refusal :=
  .next (finishStep (combineReportAt s ctx))

/-- WIRE: A wire frame of another die reaches the root of a lane (R163 to R165). -/
def execWire (port : Nat) (hdr : Hdr) (lane : Nat) (phase : Bool) (s : State) : Host.Outcome State Fault Refusal :=
  .next (finishStep (recvMsg s port hdr (.wire lane phase)))

/-- LCOMP: A lane completion frame reaches a die (R163). -/
def execLcomp (port : Nat) (hdr : Hdr) (lane : Nat) (phase : Bool) (t : Option Nat)
    (s : State) : Host.Outcome State Fault Refusal :=
  .next (finishStep (recvMsg s port hdr (.lcomp lane phase t)))

/-- LANE_RELEASE: An armed lane completes (R117, R162). -/
def execLaneRelease (lane : Nat) (s : State) : Host.Outcome State Fault Refusal :=
  .next (finishStep (laneRelease_ s lane))

end Sys2Proof.Machine
end

