-- ==== Sys2Proof/Machine/ClientOps.lean ====
section
/-! DEFINITION. Meanings of what a client does at its pier. -/
namespace Sys2Proof.Machine

/-- SP_RVALID: The client answers the oldest beat of the agent (R482, R483). -/
def execSpRvalid (pier : Nat) (ag : Nat) (data : BitVec 512) (err : Bool) (s : State) : Host.Outcome State Fault Refusal :=
  .next (finishStep (beatAnswered s pier ag data err))

/-- DR_ACK: The client acknowledges a release drain (R243, R245, R480). -/
def execDrAck (pier : Nat) (tag : Nat) (err : Bool) (s : State) : Host.Outcome State Fault Refusal :=
  .next (finishStep (drainAck s pier tag err))

/-- IV_ACK: The client acknowledges an acquire invalidation (R247, R480). -/
def execIvAck (pier : Nat) (tag : Nat) (err : Bool) (s : State) : Host.Outcome State Fault Refusal :=
  .next (finishStep (invalAck s pier tag err))

/-- AR_RDY: The client accepts the reply presented (R86, R478). -/
def execArRdy (pier : Nat) (s : State) : Host.Outcome State Fault Refusal :=
  .next (finishStep (replyTaken s pier))

/-- SP_RDY: The client accepts the beat presented (R482). -/
def execSpRdy (pier : Nat) (s : State) : Host.Outcome State Fault Refusal :=
  .next (finishStep (beatTaken s pier))

/-- PIER_CLOCK_RESTART: The client clock of the pier runs again: the pier is reloaded (R321, R322). -/
def execPierClockRestart (pier : Nat) (s : State) : Host.Outcome State Fault Refusal :=
  .next (finishStep (pierRestarts s pier))

end Sys2Proof.Machine
end

