-- ==== Sys2Proof/Machine/ClockOps.lean ====
section
/-! DEFINITION. Meanings of the events and commands of clocks, droop and reset. -/
namespace Sys2Proof.Machine

/-- RAMP: CLK_CTL.DIV is written and a ramp begins (R402, R403, R406). -/
def execRamp (req : Requester) (data : Word) (s : State) : Host.Outcome State Fault Refusal :=
  .next (finishStep (access s req rClkCtl fun s => wClkCtl s req data))

/-- SOURCE_SWITCH: CLK_CTL.SRC is written and a switch begins (R404, R406). -/
def execSourceSwitch (req : Requester) (data : Word) (s : State) : Host.Outcome State Fault Refusal :=
  .next (finishStep (access s req rClkCtl fun s => wClkCtl s req data))

/-- RAMP_STEP: A microsecond of a ramp or switch has passed (R402, R404). -/
def execRampStep (s : State) : Host.Outcome State Fault Refusal :=
  .next (finishStep (rampStep_ s))

/-- RAMP_FAULT: The new input shows no edge (R405). -/
def execRampFault (s : State) : Host.Outcome State Fault Refusal :=
  .next (finishStep (rampFault_ s))

/-- ECLK_LOST: An ECLK input is lost; the engine fails over or stops (R407 to R409). -/
def execEclkLost (input : Bool) (s : State) : Host.Outcome State Fault Refusal :=
  .next (finishStep (eclkLoss s input))

/-- INPUT_RETURN: An ECLK input is back (R407). -/
def execInputReturn (input : Bool) (s : State) : Host.Outcome State Fault Refusal :=
  .next (finishStep (inputBack s input))

/-- GATE_OPEN: CLK_GREQ opens the gate of a node (R413). -/
def execGateOpen (req : Requester) (node : Nat) (s : State) : Host.Outcome State Fault Refusal :=
  .next (finishStep (access s req rClkGreq fun s => wGateOpen s req node))

/-- GATE_CLOSE: CLK_GREQ closes the gate of a node, once its bus is idle (R410, R411). -/
def execGateClose (req : Requester) (node : Nat) (s : State) : Host.Outcome State Fault Refusal :=
  .next (finishStep (access s req rClkGreq fun s => wGateClose s req node))

/-- BUS_IDLE_ACK: The unit is idle at its bus: the gate closes (R411). -/
def execBusIdleAck (s : State) : Host.Outcome State Fault Refusal :=
  .next (finishStep (busIdle s))

/-- GATE_TIMEOUT: No acknowledgement has come (R411). -/
def execGateTimeout (s : State) : Host.Outcome State Fault Refusal :=
  .next (finishStep (gateLate s))

/-- CLK_OBS: CLK_OBS is written (R415). -/
def execClkObs (req : Requester) (data : Word) (s : State) : Host.Outcome State Fault Refusal :=
  .next (finishStep (access s req rClkObs fun s => plainWrite s req rClkObs data))

/-- DROOP_WARN: DROOP_WARN changes level (R117, R416). -/
def execDroopWarn (level : Bool) (s : State) : Host.Outcome State Fault Refusal :=
  .next (finishStep (droopAt s level))

/-- COLD_RESET: ZS_RST_N falls (R417, R418, R492). -/
def execColdReset (s : State) : Host.Outcome State Fault Refusal :=
  .next (finishStep (resetFalls s false))

/-- POWER_ON_RESET: ZS_POR_N falls (R380, R417, R492). -/
def execPowerOnReset (s : State) : Host.Outcome State Fault Refusal :=
  .next (finishStep (resetFalls s true))

/-- RESET_RELEASE: The later of the reset pins rises (R417, R492). -/
def execResetRelease (s : State) : Host.Outcome State Fault Refusal :=
  .next (finishStep (resetRises s))

end Sys2Proof.Machine
end

