-- ==== Sys2Proof/Machine/CombineOps.lean ====
section
/-! DEFINITION. Meanings of the Abacus events and commands. -/
namespace Sys2Proof.Machine

/-- ARRIVAL_ACCEPTED: The home slice's notice of an accepted or rejected arrival reaches the unit (R221). -/
def execArrivalAccepted (ctx : Nat) (remote : Option (Cmd × Verdict)) (s : State) : Host.Outcome State Fault Refusal :=
  .next (finishStep (arrivalNotice s ctx remote))

/-- CHUNK_COMPLETE: The unit completes the chunk in progress: partials are combined, results go out (R228 to R231). -/
def execChunkComplete (ctx : Nat) (s : State) : Host.Outcome State Fault Refusal :=
  .next (finishStep (chunkDone s ctx))

/-- CPART: A partial arrives at the root (R228). -/
def execCpart (port : Nat) (hdr : Hdr) (seg : CSeg) (es : List Elem) (s : State) : Host.Outcome State Fault Refusal :=
  .next (finishStep (recvMsg s port hdr (.cpart seg es)))

/-- CRES: A result arrives at a stage and is written to the destinations (R231). -/
def execCres (port : Nat) (hdr : Hdr) (seg : CSeg) (off : Nat) (bytes : List Byte)
    (s : State) : Host.Outcome State Fault Refusal :=
  .next (finishStep (recvMsg s port hdr (.cres seg off bytes)))

/-- CCLOSE: A close frame arrives: counts are known (R226). -/
def execCclose (port : Nat) (hdr : Hdr) (ctx : Nat) (phase : Bool) (n : Nat) (s : State) : Host.Outcome State Fault Refusal :=
  .next (finishStep (recvMsg s port hdr (.cclose ctx phase n)))

/-- CABORT: An abort frame arrives (R233). -/
def execCabort (port : Nat) (hdr : Hdr) (ctx : Nat) (phase : Bool) (a : Abort) (s : State) : Host.Outcome State Fault Refusal :=
  .next (finishStep (recvMsg s port hdr (.cabort ctx phase a)))

/-- OPEN: ABC_CMD OPEN takes a descriptor and opens the entry (R214 to R218, R237). -/
def execOpen (req : Requester) (ctx : Nat) (s : State) : Host.Outcome State Fault Refusal :=
  .next (finishStep (access s req rAbcCmd fun s => wAbcOpen s req ctx))

/-- CLOSE: ABC_CMD CLOSE closes the entry (R219, R237). -/
def execClose (req : Requester) (ctx : Nat) (s : State) : Host.Outcome State Fault Refusal :=
  .next (finishStep (access s req rAbcCmd fun s => wAbcClose s req ctx))

/-- READ: ABC_CMD READ shows the entry in ABC_CSR (R219, R237). -/
def execRead (req : Requester) (ctx : Nat) (s : State) : Host.Outcome State Fault Refusal :=
  .next (finishStep (access s req rAbcCmd fun s => wAbcRead s req ctx))

/-- ARBITRATION_WINDOW: An arbitration window begins with the tenants' weights (R236). -/
def execArbitrationWindow (s : State) : Host.Outcome State Fault Refusal :=
  .next (finishStep (arbWindow s))

end Sys2Proof.Machine
end

