-- ==== Sys2Proof/Machine/ConfigOps.lean ====
section
/-! DEFINITION. Meanings of the writes to the registers of the units, and of a write of any width at any offset. -/
namespace Sys2Proof.Machine

/-- SEMA_HTW: SEMA_HTW is written, or refused (R54). -/
def execSemaHtw (req : Requester) (tenant : Nat) (data : Word) (s : State) : Host.Outcome State Fault Refusal :=
  .next (finishStep (access s req (rSemaHtw tenant) fun s => wSemaHtw s req tenant data))

/-- SEMA_BACK: SEMA_BACK is written, or refused (R55). -/
def execSemaBack (req : Requester) (tenant : Nat) (data : Word) (s : State) : Host.Outcome State Fault Refusal :=
  .next (finishStep (access s req (rSemaBack tenant) fun s => wSemaBack s req tenant data))

/-- SEMA_PAIR: SEMA_PAIR is written, or refused (R57). -/
def execSemaPair (req : Requester) (data : Word) (s : State) : Host.Outcome State Fault Refusal :=
  .next (finishStep (access s req rSemaPair fun s => wSemaPair s req data))

/-- WAIT_CTL: WAIT_CTL is written (R129). -/
def execWaitCtl (req : Requester) (data : Word) (s : State) : Host.Outcome State Fault Refusal :=
  .next (finishStep (access s req rWaitCtl fun s => plainWrite s req rWaitCtl data))

/-- TRS_LEN: TRS_LEN is written; the next phase takes it where this one has sent its frame (R160, R164). -/
def execTrsLen (req : Requester) (lane : Nat) (w : Nat) (data : Word) (s : State) : Host.Outcome State Fault Refusal :=
  .next (finishStep (access s req (rTrsLen lane w) fun s => wTrsLen s req lane w data))

/-- TRS_LCFG: TRS_LCFG or TRS_LXDIE is written, or refused (R166, R345). -/
def execTrsLcfg (req : Requester) (lane : Nat) (xdie : Bool) (data : Word) (s : State) : Host.Outcome State Fault Refusal :=
  .next (finishStep (access s req (if xdie then rTrsLxdie lane else rTrsLcfg lane) fun s => wTrsLcfg s req lane xdie data))

/-- TRS_LSTAT: TRS_LSTAT: a 1 to BROKEN lets the lane go on (R165). -/
def execTrsLstat (req : Requester) (lane : Nat) (data : Word) (s : State) : Host.Outcome State Fault Refusal :=
  .next (finishStep (access s req (rTrsLstat lane) fun s => wTrsLstat s lane data))

/-- KEY_LOCK: KEY_CTL.LOCK is set and Keystone is in force (R362, R363). -/
def execKeyLock (req : Requester) (s : State) : Host.Outcome State Fault Refusal :=
  .next (finishStep (access s req rKeyCtl fun s => wKeyCtl s 1))

/-- CORE_STEP: CORE_STEP advances the start sequence (R423). -/
def execCoreStep (req : Requester) (data : Word) (s : State) : Host.Outcome State Fault Refusal :=
  .next (finishStep (access s req rCoreStep fun s => wCoreStep s req data))

/-- REGISTER_WRITE: A management write of any width at any offset has the effect the map gives it (R2 to R6, R464, R465). -/
def execRegisterWrite (req : Requester) (offset : Nat) (width : Nat) (data : Word)
    (s : State) : Host.Outcome State Fault Refusal :=
  .next (finishStep (anyWrite s req offset width data))

end Sys2Proof.Machine
end

