-- ==== Sys2Proof/Machine/FaultOps.lean ====
section
/-! DEFINITION. Meanings of the writes to the fault registers and of the walkers and guards that find faults. -/
namespace Sys2Proof.Machine

/-- FSTAT: FSTAT is written: sticky bits are cleared (R376, R381, R382). -/
def execFstat (req : Requester) (block : Nat) (data : Word) (s : State) : Host.Outcome State Fault Refusal :=
  .next (finishStep (access s req (rFstat block) fun s => wFstat s req block data))

/-- FFIRST: FFIRST is written: the first record is cleared (R379, R381). -/
def execFfirst (req : Requester) (block : Nat) (data : Word) (s : State) : Host.Outcome State Fault Refusal :=
  .next (finishStep (access s req (rFfirst block) fun s => wFfirst s req block data))

/-- FSEV: FSEV is written, or refused whole (R366, R400). -/
def execFsev (req : Requester) (block : Nat) (data : Word) (s : State) : Host.Outcome State Fault Refusal :=
  .next (finishStep (access s req (rFsev block) fun s => wFsev s req block data))

/-- FRCT: FRCT is written, or refused whole (R366, R400). -/
def execFrct (req : Requester) (block : Nat) (data : Word) (s : State) : Host.Outcome State Fault Refusal :=
  .next (finishStep (access s req (rFrct block) fun s => wFrct s req block data))

/-- FINJ: FINJ is written (R394). -/
def execFinj (req : Requester) (block : Nat) (data : Word) (s : State) : Host.Outcome State Fault Refusal :=
  .next (finishStep (access s req (rFinj block) fun s => wFinj s req block data))

/-- The shadow of a block's reset is over: its entries whose time has come are dropped (R384). -/
def shadowCloses (s : State) (b : Nat) : State :=
  let left := s.flt.shadows.filter fun x => !(decide (x.1 = b) && decide (x.2.2 ≤ s.now))
  { s with flt := { s.flt with shadows := left } }

/-- SHADOW_END: The shadow of a block reset closes (R384). -/
def execShadowEnd (block : Nat) (s : State) : Host.Outcome State Fault Refusal :=
  .next (finishStep (shadowCloses s block))

/-- WDOG: The walker finds an entry past its watchdog deadline (R386 to R388). -/
def execWdog (slice : Nat) (entry : Nat) (s : State) : Host.Outcome State Fault Refusal :=
  .next (finishStep (wdogVisit s slice entry))

/-- REPLY_GUARD: The reply guard of a blocking command fires (R389, R390). -/
def execReplyGuard (agent : Nat) (queue : Nat) (s : State) : Host.Outcome State Fault Refusal :=
  .next (finishStep (guardFires s agent queue))

/-- DRAIN_SLOW: A drain has been in progress for DRLIM (R245). -/
def execDrainSlow (agent : Nat) (queue : Nat) (s : State) : Host.Outcome State Fault Refusal :=
  .next (finishStep (drainSlow_ s agent queue))

/-- MASTER_PORT_RESPONSE: A response arrives on the management master port (R48, R442, R489). -/
def execMasterPortResponse (kind : MPort) (err : Bool) (s : State) : Host.Outcome State Fault Refusal :=
  .next (finishStep (masterResponse s kind err))

end Sys2Proof.Machine
end

