-- ==== Sys2Proof/Machine/FirmwareOps.lean ====
section
/-! DEFINITION. Meanings of the events and commands of the bridge-keeper and its image. -/
namespace Sys2Proof.Machine

/-- FW_IMG_DONE: FW_IMG.DONE is written 1 (R419, R420). -/
def execFwImgDone (req : Requester) (s : State) : Host.Outcome State Fault Refusal :=
  .next (finishStep (access s req rFwImg fun s => wFwImg s req (rd s rFwImg ||| 0x1000)))

/-- MEASURED: The image is measured and compared (R367, R420). -/
def execMeasured (s : State) : Host.Outcome State Fault Refusal :=
  .next (finishStep (measureImage s))

/-- FIRMWARE_START: The bridge-keeper is released (R421). -/
def execFirmwareStart (s : State) : Host.Outcome State Fault Refusal :=
  .next (finishStep (release s))

/-- READY: Firmware sets FW_STAT.READY (R422, R432). -/
def execReady (s : State) : Host.Outcome State Fault Refusal :=
  .next (finishStep (access s .firmware rFwStat fun s => wFwStat s .firmware 4))

/-- FW_HBEAT: FW_HBEAT is written by the bridge-keeper (R424). -/
def execFwHbeat (req : Requester) (s : State) : Host.Outcome State Fault Refusal :=
  .next (finishStep (access s req rFwHbeat fun s => wFwHbeat s req))

/-- FW_HANG: HBLIM has passed without a heartbeat (R424, R427). -/
def execFwHang (s : State) : Host.Outcome State Fault Refusal :=
  .next (finishStep (fwHang_ s))

/-- BEGIN: FW_UPD BEGIN (R426, R428). -/
def execBegin (req : Requester) (s : State) : Host.Outcome State Fault Refusal :=
  .next (finishStep (access s req rFwUpd fun s => wFwUpd s req 1))

/-- SAFEPOINT_ACK: Firmware acknowledges the safe point and stops (R427). -/
def execSafepointAck (s : State) : Host.Outcome State Fault Refusal :=
  .next (finishStep (safePoint s))

/-- COMMIT: FW_UPD COMMIT (R428, R429). -/
def execCommit (req : Requester) (s : State) : Host.Outcome State Fault Refusal :=
  .next (finishStep (access s req rFwUpd fun s => wFwUpd s req 2))

/-- MEASURE: FW_MREQ.MEASURE is written 1 (R425). -/
def execMeasure (req : Requester) (s : State) : Host.Outcome State Fault Refusal :=
  .next (finishStep (access s req rFwMreq fun s => wFwMreq s 1))

/-- MEASURE_DONE: The measurement on request is done (R425). -/
def execMeasureDone (s : State) : Host.Outcome State Fault Refusal :=
  .next (finishStep (measureReqDone s))

/-- The bridge-keeper takes an exception: FW_TRAP with the program counter (R398). -/
def fwException (s : State) (pc : Nat) : State :=
  if on s fFwStatRun && eclkRuns s then raise s bFw 6 (pc / 4 % 2 ^ 30) else s

/-- FW_TRAP: The bridge-keeper takes an exception (R398). -/
def execFwTrap (pc : Nat) (s : State) : Host.Outcome State Fault Refusal :=
  .next (finishStep (fwException s pc))

end Sys2Proof.Machine
end

