-- ==== Sys2Proof/Machine/LinkOps.lean ====
section
/-! DEFINITION. Meanings of the events of a link and of its control register. -/
namespace Sys2Proof.Machine

/-- MARKER: A MARKER is accepted: what came before it belongs to the cut (R304, R305). Its T is compared with nothing. -/
def execMarker (port : Nat) (_t : Nat) (s : State) : Host.Outcome State Fault Refusal :=
  .next (finishStep (linkEvent s fun s => markerAt s port))

/-- MARKER_LOST: No MARKER has come in 10 us (R305). -/
def execMarkerLost (port : Nat) (s : State) : Host.Outcome State Fault Refusal :=
  .next (finishStep (linkEvent s fun s => markerLate s port))

/-- DATA: A flit codeword is received and decoded, and a flit is sent in the same codeword time (R270 to R290). -/
def execData (port : Nat) (codeword : BitVec 1360) (s : State) : Host.Outcome State Fault Refusal :=
  .next (finishStep (dataAt s port codeword))

/-- NAK: A NAK asks for the flits from a number on (R284). -/
def execNak (port : Nat) (ack : Nat) (s : State) : Host.Outcome State Fault Refusal :=
  .next (finishStep (linkEvent s fun s => nakAt s port ack))

/-- RETRY_BOUND: A flit has used up its attempts or its 2 us (R285). -/
def execRetryBound (port : Nat) (s : State) : Host.Outcome State Fault Refusal :=
  .next (finishStep (linkEvent s fun s => retryBoundPasses s port))

/-- RECEIVE_TIMEOUT: No flit has passed for 2 us (R286). -/
def execReceiveTimeout (port : Nat) (s : State) : Host.Outcome State Fault Refusal :=
  .next (finishStep (linkEvent s fun s => recvTimeout s port))

/-- LOCK_LOST: Lock has been lost for 1 us (R276, R286). -/
def execLockLost (port : Nat) (s : State) : Host.Outcome State Fault Refusal :=
  .next (finishStep (linkEvent s fun s => lockLoss s port))

/-- LOS: The PMA reports loss of signal (R286). -/
def execLos (port : Nat) (s : State) : Host.Outcome State Fault Refusal :=
  .next (finishStep (linkEvent s fun s => losAt s port))

/-- ALIGNMENT_CODEWORD: An alignment codeword is found, or missed, where one is due (R273, R276). -/
def execAlignmentCodeword (port : Nat) (matched : Bool) (s : State) : Host.Outcome State Fault Refusal :=
  .next (finishStep (linkEvent s fun s => alignCw s port matched))

/-- TUNE_DONE: Training is done (R291). -/
def execTuneDone (port : Nat) (s : State) : Host.Outcome State Fault Refusal :=
  .next (finishStep (linkEvent s fun s => tuneEnds s port))

/-- PMA_LIM: The PMA_TUNE limit expires (R291). -/
def execPmaLim (port : Nat) (s : State) : Host.Outcome State Fault Refusal :=
  .next (finishStep (linkEvent s fun s => trainLimit s port .pmaTune (fViaTctlPmaLim port) 1000000))

/-- ALIGN_LOCK: Lock has held for 16 alignment codewords (R273, R291, R293). -/
def execAlignLock (port : Nat) (width2 : Bool) (reversed : Bool) (polinv : BitVec 4) (lanebad : BitVec 4)
    (s : State) : Host.Outcome State Fault Refusal :=
  .next (finishStep (linkEvent s fun s => alignEnds s port width2 reversed polinv.toNat lanebad.toNat))

/-- ALIGN_LIM: The ALIGN limit expires, with the lane faults found (R291, R293). -/
def execAlignLim (port : Nat) (s : State) : Host.Outcome State Fault Refusal :=
  .next (finishStep (linkEvent s fun s => alignLimit s port))

/-- INIT: An INIT flit arrives and is checked (R292). -/
def execInit (port : Nat) (f : InitFlit) (s : State) : Host.Outcome State Fault Refusal :=
  .next (finishStep (linkEvent s fun s => initFlit s port f))

/-- INIT_LIM: The INIT limit expires (R291). -/
def execInitLim (port : Nat) (s : State) : Host.Outcome State Fault Refusal :=
  .next (finishStep (linkEvent s fun s => trainLimit s port .init (fViaTctlInitLim port) 1000))

/-- LINK_UP: The link comes UP (R291, R299). -/
def execLinkUp (port : Nat) (s : State) : Host.Outcome State Fault Refusal :=
  .next (finishStep (linkEvent s fun s => linkUp_ s port))

/-- REHOLD: The REHOLD time has passed (R291). -/
def execRehold (port : Nat) (s : State) : Host.Outcome State Fault Refusal :=
  .next (finishStep (linkEvent s fun s => reholdPasses s port))

/-- PORT_EN: VIAn_CTL is written; EN turns the port on or off (R291, R313). -/
def execPortEn (req : Requester) (port : Nat) (data : Word) (s : State) : Host.Outcome State Fault Refusal :=
  .next (finishStep (access s req (rViaCtl port) fun s => wViaCtl s req port data))

/-- PORT_DOWN: VIAn_CTL.DOWN is written 1 and the link goes DOWN (R286). -/
def execPortDown (req : Requester) (port : Nat) (s : State) : Host.Outcome State Fault Refusal :=
  .next (finishStep (access s req (rViaCtl port) fun s => wViaCtl s req port (rd s (rViaCtl port) ||| 32)))

end Sys2Proof.Machine
end

