-- ==== Sys2Proof/Machine/Messages.lean ====
section
/-! DEFINITION. Meanings of commands and replies between dies, of holding (R263 to R266) and of mirroring. -/
namespace Sys2Proof.Machine

/-- CMD: A command message arrives: held, refused or executed at its home (R263, R288, R290, R499). -/
def execCmd (port : Nat) (hdr : Hdr) (c : Cmd) (s : State) : Host.Outcome State Fault Refusal :=
  .next (finishStep (recvMsg s port hdr (.cmd c)))

/-- XCMD: An extended MEMBER command arrives (R281, R288). -/
def execXcmd (port : Nat) (hdr : Hdr) (c : Cmd) (s : State) : Host.Outcome State Fault Refusal :=
  .next (finishStep (recvMsg s port hdr (.xcmd c)))

/-- REPLY: A reply arrives at the pier of its command (R281, R289). -/
def execReply (port : Nat) (hdr : Hdr) (c : Cmd) (r : Reply) (s : State) : Host.Outcome State Fault Refusal :=
  .next (finishStep (recvMsg s port hdr (.reply c r)))

/-- REFUSE: A REFUSE arrives: the command is presented again later (R499). -/
def execRefuse (port : Nat) (hdr : Hdr) (c : Cmd) (reason : Nat) (s : State) : Host.Outcome State Fault Refusal :=
  .next (finishStep (recvMsg s port hdr (.refuse c reason)))

/-- HOLD_RELEASE: A delivered-write counter moves, and a held command that it has reached goes on (R260, R263, R264, R484). -/
def execHoldRelease (port index : Nat) (dwc : BitVec 32) (s : State) : Host.Outcome State Fault Refusal :=
  .next (finishStep (holdRelease_ s port index dwc))

/-- HOLD_DISCARD: A held command has reached its hold limit: it is discarded (R266). -/
def execHoldDiscard (port : Nat) (index : Nat) (s : State) : Host.Outcome State Fault Refusal :=
  .next (finishStep (holdDiscard_ s port index))

/-- MREC: A mirror record arrives and is compared with what this die holds (R308, R309). -/
def execMrec (port : Nat) (hdr : Hdr) (rec : MRec) (s : State) : Host.Outcome State Fault Refusal :=
  .next (finishStep (recvMsg s port hdr (.mrec rec)))

/-- MACK: A compare result arrives: the reply held back is delivered (R309, R310). -/
def execMack (port : Nat) (hdr : Hdr) (serial : Nat) (ok : Bool) (s : State) : Host.Outcome State Fault Refusal :=
  .next (finishStep (recvMsg s port hdr (.mack serial ok)))

/-- EPOCH: An EPOCH notice arrives (R356, R358). -/
def execEpoch (port : Nat) (hdr : Hdr) (origin : Nat) (resync : Bool) (s : State) : Host.Outcome State Fault Refusal :=
  .next (finishStep (recvMsg s port hdr (.epoch origin resync)))

/-- NOTICE: A NOTICE flit arrives: the port states of its origin are known (R299, R300). -/
def execNotice (port : Nat) (n : Notice) (s : State) : Host.Outcome State Fault Refusal :=
  .next (finishStep (noticeFlit s port n))

end Sys2Proof.Machine
end

