-- ==== Sys2Proof/Machine/ObserveOps.lean ====
section
/-! DEFINITION. Meanings of the events and commands of counters, samples, freeze, snapshot and Marionette. -/
namespace Sys2Proof.Machine

/-- CLEAR: OBS_CCMD CLEAR clears a range of counters (R439). -/
def execClear (req : Requester) (first : Nat) (last : Nat) (s : State) : Host.Outcome State Fault Refusal :=
  .next (finishStep (access s req rObsCcmd fun s => clearCounters s first last))

/-- CLEARALL: OBS_CCMD CLEARALL clears every counter (R439). -/
def execClearAll (req : Requester) (s : State) : Host.Outcome State Fault Refusal :=
  .next (finishStep (access s req rObsCcmd fun s => clearCounters s 0 511))

/-- SAMPLE: A sample is due (R440 to R442). -/
def execSample (s : State) : Host.Outcome State Fault Refusal :=
  .next (finishStep (takeSample s))

/-- OBS_SAMP: OBS_SAMP is written (R440, R443). -/
def execObsSamp (req : Requester) (data : Word) (s : State) : Host.Outcome State Fault Refusal :=
  .next (finishStep (access s req rObsSamp fun s => wObsSamp s req data))

/-- OBS_RING: OBS_RING is written (R443). -/
def execObsRing (req : Requester) (data : Word) (s : State) : Host.Outcome State Fault Refusal :=
  .next (finishStep (access s req rObsRing fun s => wObsRing s req data))

/-- OBS_TRRING: OBS_TRRING is written (R463). -/
def execObsTrring (req : Requester) (data : Word) (s : State) : Host.Outcome State Fault Refusal :=
  .next (finishStep (access s req rObsTrring fun s => wObsTrring s req data))

/-- ARM: OBS_FRZCMD ARM (R447). -/
def execArm (req : Requester) (holdto : Bool) (s : State) : Host.Outcome State Fault Refusal :=
  .next (finishStep (access s req rObsFrzcmd fun s => doArm s holdto))

/-- DISARM: OBS_FRZCMD DISARM (R447). -/
def execDisarm (req : Requester) (s : State) : Host.Outcome State Fault Refusal :=
  .next (finishStep (access s req rObsFrzcmd fun s => doDisarm s))

/-- FREEZE: Deck Time has reached the freeze tick: the units stop and the ports send MARKER (R304, R448). -/
def execFreeze (s : State) : Host.Outcome State Fault Refusal :=
  .next (finishStep (freezeTick s))

/-- FROZEN: Every unit has stopped and every port has its MARKER or MLOST (R305, R447). -/
def execFrozen (s : State) : Host.Outcome State Fault Refusal :=
  .next (finishStep (frozenAt s))

/-- THAW: OBS_FRZCMD THAW (R447). -/
def execThaw (req : Requester) (s : State) : Host.Outcome State Fault Refusal :=
  .next (finishStep (access s req rObsFrzcmd fun s => doThaw s))

/-- THAWAT: OBS_FRZCMD THAWAT (R447). -/
def execThawat (req : Requester) (s : State) : Host.Outcome State Fault Refusal :=
  .next (finishStep (access s req rObsFrzcmd fun s => doThawat s))

/-- THAW_TICK: Deck Time has reached the thaw tick (R447). -/
def execThawTick (s : State) : Host.Outcome State Fault Refusal :=
  .next (finishStep (thawTick_ s))

/-- THAWING_DONE: The deadlines are walked and the units resume (R306, R449 to R451). -/
def execThawingDone (s : State) : Host.Outcome State Fault Refusal :=
  .next (finishStep (thawed s))

/-- COPY: OBS_SNCMD COPY (R457). -/
def execCopy (req : Requester) (s : State) : Host.Outcome State Fault Refusal :=
  .next (finishStep (access s req rObsSncmd fun s => sncmdBegin s false))

/-- HANGSCAN: OBS_SNCMD HANGSCAN (R458). -/
def execHangscan (req : Requester) (s : State) : Host.Outcome State Fault Refusal :=
  .next (finishStep (access s req rObsSncmd fun s => sncmdBegin s true))

/-- SNCMD_DONE: Firmware finishes a COPY or HANGSCAN (R457, R458). -/
def execSncmdDone (s : State) : Host.Outcome State Fault Refusal :=
  .next (finishStep (sncmdFinish s))

/-- SETVAL: MAR_CMD SETVAL (R459, R460). -/
def execSetval (req : Requester) (s : State) : Host.Outcome State Fault Refusal :=
  .next (finishStep (access s req rMarCmd fun s => wMarOp s req doSetval))

/-- CANCEL_Q: MAR_CMD CANCEL_Q (R459, R461). -/
def execCancelQ (req : Requester) (s : State) : Host.Outcome State Fault Refusal :=
  .next (finishStep (access s req rMarCmd fun s => wMarOp s req doCancelQ))

/-- CANCEL_W: MAR_CMD CANCEL_W (R459, R461). -/
def execCancelW (req : Requester) (s : State) : Host.Outcome State Fault Refusal :=
  .next (finishStep (access s req rMarCmd fun s => wMarOp s req doCancelW))

/-- FORCELANE: MAR_CMD FORCELANE (R459, R462). -/
def execForceLane (req : Requester) (s : State) : Host.Outcome State Fault Refusal :=
  .next (finishStep (access s req rMarCmd fun s => wMarOp s req doForceLane))

/-- MARIONETTE_READ: MAR_CMD READ (R459, R460). -/
def execMarRead (req : Requester) (s : State) : Host.Outcome State Fault Refusal :=
  .next (finishStep (access s req rMarCmd fun s => wMarOp s req doMarRead))

end Sys2Proof.Machine
end

