-- ==== Sys2Proof/Machine/Packets.lean ====
section
/-! DEFINITION. Meanings of the commands at a pier: a written entry, the issue of each packet but the waits and the arrivals at barriers, and the translation messages. -/
namespace Sys2Proof.Machine

/-- AQ_VALID: The client writes one entry of a queue: the entry is taken, an extended packet waits for its second entry (R58, R59, R477). -/
def execAqValid (pier : Nat) (ag : Nat) (queue : Nat) (data : BitVec 256) (s : State) : Host.Outcome State Fault Refusal :=
  .next (finishStep (aqWrite s pier ag queue data))

/-- SIG_ADD: Issue, access and evaluation of SIG_ADD (R59, R82 to R84); also of an undefined opcode (R80, log entry 10). -/
def execSigAdd (agent : Nat) (queue : Nat) (s : State) : Host.Outcome State Fault Refusal :=
  .next (finishStep (issueOp (wants .sigAdd) agent queue s))

/-- SIG_SUB: Issue, access and evaluation of SIG_SUB (R82, R83). -/
def execSigSub (agent : Nat) (queue : Nat) (s : State) : Host.Outcome State Fault Refusal :=
  .next (finishStep (issueOp (wants .sigSub) agent queue s))

/-- POLL: Issue and reading of POLL (R82). -/
def execPoll (agent : Nat) (queue : Nat) (s : State) : Host.Outcome State Fault Refusal :=
  .next (finishStep (issueOp (wants .poll) agent queue s))

/-- TAKE: Issue and access of TAKE (R26 to R28). -/
def execTake (agent : Nat) (queue : Nat) (s : State) : Host.Outcome State Fault Refusal :=
  .next (finishStep (issueOp (wants .take) agent queue s))

/-- GIVE: Issue and access of GIVE (R26 to R28). -/
def execGive (agent : Nat) (queue : Nat) (s : State) : Host.Outcome State Fault Refusal :=
  .next (finishStep (issueOp (wants .give) agent queue s))

/-- FENCE: A FENCE completes when the earlier replies it names are generated, and carries a drain with REL (R88, R243, R248). -/
def execFence (agent : Nat) (queue : Nat) (s : State) : Host.Outcome State Fault Refusal :=
  .next (finishStep (issueOp (wants .fence) agent queue s))

/-- MEMBER: A window of a barrier is written (R140 to R144). -/
def execMember (agent : Nat) (queue : Nat) (s : State) : Host.Outcome State Fault Refusal :=
  .next (finishStep (issueOp (wants .member) agent queue s))

/-- ALLOC: Allocation of an object (R38 to R40). -/
def execAlloc (agent : Nat) (queue : Nat) (s : State) : Host.Outcome State Fault Refusal :=
  .next (finishStep (issueOp (wants .alloc) agent queue s))

/-- FREE: An object is freed and its waiters are answered (R41, R42). -/
def execFree (agent : Nat) (queue : Nat) (s : State) : Host.Outcome State Fault Refusal :=
  .next (finishStep (issueOp (wants .free) agent queue s))

/-- AUDIT: An object is audited and set to rest (R43 to R45). -/
def execAudit (agent : Nat) (queue : Nat) (s : State) : Host.Outcome State Fault Refusal :=
  .next (finishStep (issueOp (wants .audit) agent queue s))

/-- TRANSLATION_FILL: The oldest fill under way to the pier enters its cache (R35). -/
def execTranslationFill (pier : Nat) (s : State) : Host.Outcome State Fault Refusal :=
  .next (finishStep (fillArrives s pier))

/-- INVALIDATION: The oldest invalidation under way to the pier drops the translation (R36). -/
def execInvalidation (pier : Nat) (s : State) : Host.Outcome State Fault Refusal :=
  .next (finishStep (invArrives s pier))

end Sys2Proof.Machine
end

