-- ==== Sys2Proof/Machine/PagingOps.lean ====
section
/-! DEFINITION. Meanings of what firmware does for a tenant's objects. -/
namespace Sys2Proof.Machine

/-- BACKING_OP: Firmware applies the command to the image of a BACKED object (R48). -/
def execBackingOp (index : Nat) (s : State) : Host.Outcome State Fault Refusal :=
  .next (finishStep (backingOp_ s index))

/-- PAGE_IN: Firmware pages an object in, evicting another where it must (R47, R49 to R52). -/
def execPageIn (index : Nat) (s : State) : Host.Outcome State Fault Refusal :=
  .next (finishStep (pageIn_ s index))

/-- TAG_REBUILD: Firmware has rebuilt a slot tag or handle-table entry, and what was held goes on (R391). -/
def execTagRebuild (word : TagWord) (s : State) : Host.Outcome State Fault Refusal :=
  .next (finishStep (rebuilt s word))

/-- HTM_READY: The handle translation memory is cleared: CORE_READY and the tenants serve (R56). -/
def execHtmReady (s : State) : Host.Outcome State Fault Refusal :=
  .next (finishStep (htmReady_ s))

end Sys2Proof.Machine
end

