-- ==== Sys2Proof/Machine/RouteMsgs.lean ====
section
/-! DEFINITION. Meanings of ROUTE and of the reports and commits of its parts. -/
namespace Sys2Proof.Machine

/-- ROUTE: A ROUTE is split into parts and staged (R168 to R172). -/
def execRoute (agent : Nat) (queue : Nat) (s : State) : Host.Outcome State Fault Refusal :=
  .next (finishStep (issueOp (wants .route) agent queue s))

/-- The oldest staging report under way for the entry reaches its coordinator, in the order of its source's reports to it (R12). -/
def reportTaken (s : State) (tag idx : Nat) : State :=
  if !coreRuns s then s else
  match takeInOrder (fun r : Nat × Nat × Nat × Status => (r.1, (partOf s r.2.1).map (coordRouter s)))
      (fun r => decide (r.2.1 = tag) && decide (r.2.2.1 = idx)) s.gir.sreports with
  | none => s
  | some ((_, _, _, st), rest) => reportArrives { s with gir := { s.gir with sreports := rest } } tag idx st

/-- STAGING_REPORT: A staging report reaches the coordinator of the part, which may commit (R172, R174). -/
def execStagingReport (tag : Nat) (idx : Nat) (s : State) : Host.Outcome State Fault Refusal :=
  .next (finishStep (reportTaken s tag idx))

/-- ROUTE_COMMIT: A commit reaches a slice, or firmware for images (R174, R256). -/
def execRouteCommit (tag : Nat) (dest : CommitTo) (s : State) : Host.Outcome State Fault Refusal :=
  .next (finishStep (commitArrives s tag dest))

/-- RPART: A remote part arrives and is staged on this die (R170, R288). -/
def execRpart (port : Nat) (hdr : Hdr) (part : RPart) (s : State) : Host.Outcome State Fault Refusal :=
  .next (finishStep (recvMsg s port hdr (.rpart part)))

/-- PREPORT: A part report arrives at the issuing die (R177). -/
def execPreport (port : Nat) (hdr : Hdr) (c : Cmd) (report : PReport) (s : State) : Host.Outcome State Fault Refusal :=
  .next (finishStep (recvMsg s port hdr (.preport c report)))

end Sys2Proof.Machine
end

