-- ==== Sys2Proof/Machine/TenantOps.lean ====
section
/-! DEFINITION. Meanings of the tenant and agent commands. -/
namespace Sys2Proof.Machine

/-- QUIESCE: TEN_CMD QUIESCE: the queues of the tenant drain (R350, R368). -/
def execQuiesce (req : Requester) (tenant : Nat) (s : State) : Host.Outcome State Fault Refusal :=
  .next (finishStep (access s req (rTenCmd tenant) fun s => wTenOp s req tenant 1 (.quiesce req tenant) fun s => doQuiesce s tenant))

/-- QUIESCED: The drain conditions hold (R350). -/
def execQuiesced (tenant : Nat) (s : State) : Host.Outcome State Fault Refusal :=
  .next (finishStep (quiesced_ s tenant))

/-- RESUME: TEN_CMD RESUME (R352, R368). -/
def execResume (req : Requester) (tenant : Nat) (s : State) : Host.Outcome State Fault Refusal :=
  .next (finishStep (access s req (rTenCmd tenant) fun s => wTenOp s req tenant 2 (.resume req tenant) fun s => doResume s tenant))

/-- RESET: TEN_CMD RESET of a quiesced tenant (R353, R354, R368). -/
def execReset (req : Requester) (tenant : Nat) (freeall : Bool) (s : State) : Host.Outcome State Fault Refusal :=
  .next (finishStep (access s req (rTenCmd tenant) fun s => wTenOp s req tenant 3 (.reset req tenant freeall) fun s => doReset s tenant freeall))

/-- FORCED_RESET: TEN_CMD RESET with FORCE (R356 to R358, R368). -/
def execForcedReset (req : Requester) (tenant : Nat) (freeall : Bool) (s : State) : Host.Outcome State Fault Refusal :=
  .next (finishStep (access s req (rTenCmd tenant) fun s => wTenOp s req tenant 3 (.forcedReset req tenant freeall) fun s => doForced s tenant freeall))

/-- RESET_COMPLETE: The work of a reset is complete: the new epoch begins (R355). -/
def execResetComplete (tenant : Nat) (s : State) : Host.Outcome State Fault Refusal :=
  .next (finishStep (resetDone s tenant))

/-- AGT_BIND: AGT_BIND is written (R344, R359). -/
def execAgtBind (req : Requester) (agent : Nat) (data : Word) (s : State) : Host.Outcome State Fault Refusal :=
  .next (finishStep (access s req (rAgtBind agent) fun s => if present_ s agent then wAgtBind s req agent data else s))

/-- DISABLE: AGT_BIND.EN is cleared and the port is being disabled (R359). -/
def execDisable (req : Requester) (agent : Nat) (s : State) : Host.Outcome State Fault Refusal :=
  .next (finishStep (access s req (rAgtBind agent) fun s => if present_ s agent then wAgtBind s req agent (rd s (rAgtBind agent) &&& ~~~0x200) else s))

/-- DISABLED: Nothing of the agent is outstanding: its port is disabled (R359). -/
def execDisabled (agent : Nat) (s : State) : Host.Outcome State Fault Refusal :=
  .next (finishStep (disabled_ s agent))

/-- TEN_SHARE: TEN_SHARE0 or TEN_SHARE1 is written (R348, R365). -/
def execTenShare (req : Requester) (tenant : Nat) (word : Nat) (data : Word) (s : State) : Host.Outcome State Fault Refusal :=
  .next (finishStep (access s req (if word = 0 then rTenShare0 tenant else rTenShare1 tenant) fun s => wTenShare s req tenant word data))

/-- TEN_CFG: TEN_CFG is written (R365). -/
def execTenCfg (req : Requester) (tenant : Nat) (data : Word) (s : State) : Host.Outcome State Fault Refusal :=
  .next (finishStep (access s req (rTenCfg tenant) fun s => wTenCfg s req tenant data))

/-- TEN_IMP: An import window is written (R361). -/
def execTenImp (req : Requester) (tenant : Nat) (win : Nat) (data : Word) (s : State) : Host.Outcome State Fault Refusal :=
  .next (finishStep (access s req (rTenImp tenant win) fun s => wTenImp s req tenant win data))

end Sys2Proof.Machine
end

