-- ==== Sys2Proof/Machine/TimeOps.lean ====
section
/-! DEFINITION. Meanings of the events and commands of Deck Time. -/
namespace Sys2Proof.Machine

/-- SYNC_REQ: A SYNC REQ is answered (R329, R330). -/
def execSyncReq (port : Nat) (hdr : Hdr) (m : Sync) (rx : Nat) (tx : Nat) (s : State) : Host.Outcome State Fault Refusal :=
  .next (finishStep (recvMsg s port hdr (.syncReq m rx tx)))

/-- SYNC_RESP: A SYNC RESP closes an exchange and yields an offset (R329, R331, R332). -/
def execSyncResp (port : Nat) (hdr : Hdr) (m : Sync) (rx : Nat) (s : State) : Host.Outcome State Fault Refusal :=
  .next (finishStep (recvMsg s port hdr (.syncResp m rx)))

/-- COARSE: A COARSE sets the counter of this die (R330). -/
def execCoarse (port : Nat) (hdr : Hdr) (m : Sync) (s : State) : Host.Outcome State Fault Refusal :=
  .next (finishStep (recvMsg s port hdr (.coarse m)))

/-- EXCHANGE: A REQ leaves (R330). -/
def execExchange (tx : Nat) (s : State) : Host.Outcome State Fault Refusal :=
  .next (finishStep (doExchange s tx))

/-- GLIM: The gather limit has passed on the master (R330). -/
def execGlim (s : State) : Host.Outcome State Fault Refusal :=
  .next (finishStep (glimPasses s))

/-- ALIM: The alignment limit has passed (R330). -/
def execAlim (s : State) : Host.Outcome State Fault Refusal :=
  .next (finishStep (alimPasses s))

/-- SLEW_STEP: The phase moves by one sixteenth (R316, R331). -/
def execSlewStep (s : State) : Host.Outcome State Fault Refusal :=
  .next (finishStep (slewStep_ s))

/-- ALIGN: DT_CMD ALIGN begins an alignment (R330, R339). -/
def execAlign (req : Requester) (tx : Nat) (s : State) : Host.Outcome State Fault Refusal :=
  .next (finishStep (access s req rDtCmd fun s => wDtAlign s req tx))

/-- REMEASURE_ALL: DT_CMD REMEASURE_ALL measures every pier (R323, R325). -/
def execRemeasureAll (req : Requester) (s : State) : Host.Outcome State Fault Refusal :=
  .next (finishStep (access s req rDtCmd fun s => wDtMeasure s req none (.remeasureAll req)))

/-- REMEASURE_ONE: DT_CMD REMEASURE_ONE measures one pier (R323, R325). -/
def execRemeasureOne (req : Requester) (pier : Nat) (s : State) : Host.Outcome State Fault Refusal :=
  .next (finishStep (access s req rDtCmd fun s => wDtMeasure s req (some pier) (.remeasureOne req pier)))

/-- PMEAS_DONE: The probes of a measurement have come back: offsets are written (R323). -/
def execPmeasDone (probes : List (Nat × List (Nat × Nat × Nat))) (s : State) : Host.Outcome State Fault Refusal :=
  .next (finishStep (measureEnds s probes))

/-- PMEAS_FAIL: A pier has not answered its probes (R324). -/
def execPmeasFail (pier : Nat) (s : State) : Host.Outcome State Fault Refusal :=
  .next (finishStep (measureFails s pier))

/-- MULTIPLIER_LOCK: The multiplier locks and the counter counts (R315, R421). -/
def execMultiplierLock (s : State) : Host.Outcome State Fault Refusal :=
  .next (finishStep (lockAt s))

/-- REF_LOST: ZS_DTREF is lost: the counter holds over (R333). -/
def execRefLost (s : State) : Host.Outcome State Fault Refusal :=
  .next (finishStep (refLoss s))

/-- REF_RETURN: ZS_DTREF is back (R333). -/
def execRefReturn (s : State) : Host.Outcome State Fault Refusal :=
  .next (finishStep (refBack s))

end Sys2Proof.Machine
end

