-- ==== Sys2Proof/Machine/WaitOps.lean ====
section
/-! DEFINITION. Meanings of the waits, their wakes, expiry, re-presentation and cancels. -/
namespace Sys2Proof.Machine

/-- WAIT_GE: A WAIT_GE is satisfied at once or installs a waiter entry (R102, R119). -/
def execWaitGe (agent : Nat) (queue : Nat) (s : State) : Host.Outcome State Fault Refusal :=
  .next (finishStep (issueOp (wants .waitGe) agent queue s))

/-- WAIT_TAKE: A WAIT_TAKE takes at once or installs a waiter entry (R102, R106). -/
def execWaitTake (agent : Nat) (queue : Nat) (s : State) : Host.Outcome State Fault Refusal :=
  .next (finishStep (issueOp (wants .waitTake) agent queue s))

/-- WAKE: The oldest wake under way to the pier becomes a reply (R108). -/
def execWake (pier : Nat) (s : State) : Host.Outcome State Fault Refusal :=
  .next (finishStep (wakeArrives s pier))

/-- WAKE_EMIT: The slice emits the wakes at its port, or takes its oldest batch and emits it as the window allows (R110 to R115). -/
def execWakeEmit (slice : Nat) (s : State) : Host.Outcome State Fault Refusal :=
  .next (finishStep (wakeEmit_ s slice))

/-- PACING_WINDOW: A pacing window begins with its budget (R113, R114, R130). -/
def execPacingWindow (s : State) : Host.Outcome State Fault Refusal :=
  .next (finishStep (paceWindow s))

/-- EXPIRY: A deadline that has come, at the unit that holds the command (R119 to R124). -/
def execExpiry (die : Nat) (agent : Nat) (queue : Nat) (s : State) : Host.Outcome State Fault Refusal :=
  .next (finishStep (expireAny s die agent queue))

/-- REPRESENT's two forms: a refused command at the head of its queue, or an entry of a part. -/
def represented (s : State) : RepTarget → State
  | .head a q => representHead s a q
  | .entry tag idx => representEntry s tag idx

/-- REPRESENT: A refused command or staging entry is presented again once its time has come (R37, R126, R137, R172, R175, R499). -/
def execRepresent (target : RepTarget) (s : State) : Host.Outcome State Fault Refusal :=
  .next (finishStep (represented s target))

/-- CANCEL: A cancel reaches the unit that holds the command, which ends with the cause code (R350, R359, R461). -/
def execCancel (die : Nat) (agent : Nat) (queue : Nat) (code : Nat) (s : State) : Host.Outcome State Fault Refusal :=
  .next (finishStep (cancelAny s die agent queue code))

end Sys2Proof.Machine
end

