-- ==== Sys2Proof/Machine/Dispatch.lean ====
section
/-! DEFINITION. exec: one arm for each command, which calls its meaning. -/
namespace Sys2Proof.Machine

def exec (i : Instr) (s : State) : Host.Outcome State Fault Refusal :=
  match i with
  | .aqValid pier ag queue data => Sys2Proof.Machine.execAqValid pier ag queue data s
  | .sigAdd agent queue => Sys2Proof.Machine.execSigAdd agent queue s
  | .sigSub agent queue => Sys2Proof.Machine.execSigSub agent queue s
  | .poll agent queue => Sys2Proof.Machine.execPoll agent queue s
  | .waitGe agent queue => Sys2Proof.Machine.execWaitGe agent queue s
  | .waitTake agent queue => Sys2Proof.Machine.execWaitTake agent queue s
  | .take agent queue => Sys2Proof.Machine.execTake agent queue s
  | .give agent queue => Sys2Proof.Machine.execGive agent queue s
  | .arrive agent queue => Sys2Proof.Machine.execArrive agent queue s
  | .arriveLane agent queue => Sys2Proof.Machine.execArriveLane agent queue s
  | .arriveCombine agent queue => Sys2Proof.Machine.execArriveCombine agent queue s
  | .fence agent queue => Sys2Proof.Machine.execFence agent queue s
  | .route agent queue => Sys2Proof.Machine.execRoute agent queue s
  | .member agent queue => Sys2Proof.Machine.execMember agent queue s
  | .alloc agent queue => Sys2Proof.Machine.execAlloc agent queue s
  | .free agent queue => Sys2Proof.Machine.execFree agent queue s
  | .audit agent queue => Sys2Proof.Machine.execAudit agent queue s
  | .translationFill pier => Sys2Proof.Machine.execTranslationFill pier s
  | .invalidation pier => Sys2Proof.Machine.execInvalidation pier s
  | .wake pier => Sys2Proof.Machine.execWake pier s
  | .wakeEmit slice => Sys2Proof.Machine.execWakeEmit slice s
  | .pacingWindow => Sys2Proof.Machine.execPacingWindow s
  | .expiry die agent queue => Sys2Proof.Machine.execExpiry die agent queue s
  | .represent target => Sys2Proof.Machine.execRepresent target s
  | .timedRelease slice slot => Sys2Proof.Machine.execTimedRelease slice slot s
  | .timeFrame port hdr obj phase t => Sys2Proof.Machine.execTimeFrame port hdr obj phase t s
  | .combineReport ctx => Sys2Proof.Machine.execCombineReport ctx s
  | .backingOp index => Sys2Proof.Machine.execBackingOp index s
  | .pageIn index => Sys2Proof.Machine.execPageIn index s
  | .stagingReport tag idx => Sys2Proof.Machine.execStagingReport tag idx s
  | .routeCommit tag dest => Sys2Proof.Machine.execRouteCommit tag dest s
  | .preport port hdr c report => Sys2Proof.Machine.execPreport port hdr c report s
  | .rpart port hdr part => Sys2Proof.Machine.execRpart port hdr part s
  | .mrec port hdr rec => Sys2Proof.Machine.execMrec port hdr rec s
  | .mack port hdr serial ok => Sys2Proof.Machine.execMack port hdr serial ok s
  | .holdRelease port index dwc => Sys2Proof.Machine.execHoldRelease port index dwc s
  | .holdDiscard port index => Sys2Proof.Machine.execHoldDiscard port index s
  | .refuse port hdr c reason => Sys2Proof.Machine.execRefuse port hdr c reason s
  | .reply port hdr c r => Sys2Proof.Machine.execReply port hdr c r s
  | .cmd port hdr c => Sys2Proof.Machine.execCmd port hdr c s
  | .xcmd port hdr c => Sys2Proof.Machine.execXcmd port hdr c s
  | .cancel die agent queue code => Sys2Proof.Machine.execCancel die agent queue code s
  | .arrivalAccepted ctx remote => Sys2Proof.Machine.execArrivalAccepted ctx remote s
  | .chunkComplete ctx => Sys2Proof.Machine.execChunkComplete ctx s
  | .cpart port hdr seg es => Sys2Proof.Machine.execCpart port hdr seg es s
  | .cres port hdr seg off bytes => Sys2Proof.Machine.execCres port hdr seg off bytes s
  | .cclose port hdr ctx phase n => Sys2Proof.Machine.execCclose port hdr ctx phase n s
  | .cabort port hdr ctx phase a => Sys2Proof.Machine.execCabort port hdr ctx phase a s
  | .spRvalid pier ag data err => Sys2Proof.Machine.execSpRvalid pier ag data err s
  | .drAck pier tag err => Sys2Proof.Machine.execDrAck pier tag err s
  | .ivAck pier tag err => Sys2Proof.Machine.execIvAck pier tag err s
  | .arRdy pier => Sys2Proof.Machine.execArRdy pier s
  | .wire port hdr lane phase => Sys2Proof.Machine.execWire port hdr lane phase s
  | .lcomp port hdr lane phase t => Sys2Proof.Machine.execLcomp port hdr lane phase t s
  | .laneRelease lane => Sys2Proof.Machine.execLaneRelease lane s
  | .syncReq port hdr m rx tx => Sys2Proof.Machine.execSyncReq port hdr m rx tx s
  | .syncResp port hdr m rx => Sys2Proof.Machine.execSyncResp port hdr m rx s
  | .coarse port hdr m => Sys2Proof.Machine.execCoarse port hdr m s
  | .exchange tx => Sys2Proof.Machine.execExchange tx s
  | .glim => Sys2Proof.Machine.execGlim s
  | .alim => Sys2Proof.Machine.execAlim s
  | .slewStep => Sys2Proof.Machine.execSlewStep s
  | .epoch port hdr origin resync => Sys2Proof.Machine.execEpoch port hdr origin resync s
  | .notice port n => Sys2Proof.Machine.execNotice port n s
  | .marker port t => Sys2Proof.Machine.execMarker port t s
  | .markerLost port => Sys2Proof.Machine.execMarkerLost port s
  | .data port codeword => Sys2Proof.Machine.execData port codeword s
  | .nak port ack => Sys2Proof.Machine.execNak port ack s
  | .retryBound port => Sys2Proof.Machine.execRetryBound port s
  | .receiveTimeout port => Sys2Proof.Machine.execReceiveTimeout port s
  | .lockLost port => Sys2Proof.Machine.execLockLost port s
  | .los port => Sys2Proof.Machine.execLos port s
  | .tuneDone port => Sys2Proof.Machine.execTuneDone port s
  | .pmaLim port => Sys2Proof.Machine.execPmaLim port s
  | .alignLock port width2 reversed polinv lanebad => Sys2Proof.Machine.execAlignLock port width2 reversed polinv lanebad s
  | .alignLim port => Sys2Proof.Machine.execAlignLim port s
  | .init port f => Sys2Proof.Machine.execInit port f s
  | .initLim port => Sys2Proof.Machine.execInitLim port s
  | .linkUp port => Sys2Proof.Machine.execLinkUp port s
  | .rehold port => Sys2Proof.Machine.execRehold port s
  | .open req ctx => Sys2Proof.Machine.execOpen req ctx s
  | .close req ctx => Sys2Proof.Machine.execClose req ctx s
  | .read req ctx => Sys2Proof.Machine.execRead req ctx s
  | .quiesce req tenant => Sys2Proof.Machine.execQuiesce req tenant s
  | .quiesced tenant => Sys2Proof.Machine.execQuiesced tenant s
  | .resume req tenant => Sys2Proof.Machine.execResume req tenant s
  | .reset req tenant freeall => Sys2Proof.Machine.execReset req tenant freeall s
  | .forcedReset req tenant freeall => Sys2Proof.Machine.execForcedReset req tenant freeall s
  | .resetComplete tenant => Sys2Proof.Machine.execResetComplete tenant s
  | .agtBind req agent data => Sys2Proof.Machine.execAgtBind req agent data s
  | .disable req agent => Sys2Proof.Machine.execDisable req agent s
  | .disabled agent => Sys2Proof.Machine.execDisabled agent s
  | .tenShare req tenant word data => Sys2Proof.Machine.execTenShare req tenant word data s
  | .tenCfg req tenant data => Sys2Proof.Machine.execTenCfg req tenant data s
  | .tenImp req tenant win data => Sys2Proof.Machine.execTenImp req tenant win data s
  | .semaHtw req tenant data => Sys2Proof.Machine.execSemaHtw req tenant data s
  | .semaBack req tenant data => Sys2Proof.Machine.execSemaBack req tenant data s
  | .semaPair req data => Sys2Proof.Machine.execSemaPair req data s
  | .waitCtl req data => Sys2Proof.Machine.execWaitCtl req data s
  | .trsLen req lane w data => Sys2Proof.Machine.execTrsLen req lane w data s
  | .trsLcfg req lane xdie data => Sys2Proof.Machine.execTrsLcfg req lane xdie data s
  | .trsLstat req lane data => Sys2Proof.Machine.execTrsLstat req lane data s
  | .keyLock req => Sys2Proof.Machine.execKeyLock req s
  | .coreStep req data => Sys2Proof.Machine.execCoreStep req data s
  | .align req tx => Sys2Proof.Machine.execAlign req tx s
  | .remeasureAll req => Sys2Proof.Machine.execRemeasureAll req s
  | .remeasureOne req pier => Sys2Proof.Machine.execRemeasureOne req pier s
  | .pmeasDone probes => Sys2Proof.Machine.execPmeasDone probes s
  | .pmeasFail pier => Sys2Proof.Machine.execPmeasFail pier s
  | .multiplierLock => Sys2Proof.Machine.execMultiplierLock s
  | .refLost => Sys2Proof.Machine.execRefLost s
  | .refReturn => Sys2Proof.Machine.execRefReturn s
  | .ramp req data => Sys2Proof.Machine.execRamp req data s
  | .sourceSwitch req data => Sys2Proof.Machine.execSourceSwitch req data s
  | .rampStep => Sys2Proof.Machine.execRampStep s
  | .rampFault => Sys2Proof.Machine.execRampFault s
  | .eclkLost input => Sys2Proof.Machine.execEclkLost input s
  | .inputReturn input => Sys2Proof.Machine.execInputReturn input s
  | .gateOpen req node => Sys2Proof.Machine.execGateOpen req node s
  | .gateClose req node => Sys2Proof.Machine.execGateClose req node s
  | .busIdleAck => Sys2Proof.Machine.execBusIdleAck s
  | .gateTimeout => Sys2Proof.Machine.execGateTimeout s
  | .clkObs req data => Sys2Proof.Machine.execClkObs req data s
  | .droopWarn level => Sys2Proof.Machine.execDroopWarn level s
  | .fwImgDone req => Sys2Proof.Machine.execFwImgDone req s
  | .measured => Sys2Proof.Machine.execMeasured s
  | .firmwareStart => Sys2Proof.Machine.execFirmwareStart s
  | .ready => Sys2Proof.Machine.execReady s
  | .fwHbeat req => Sys2Proof.Machine.execFwHbeat req s
  | .fwHang => Sys2Proof.Machine.execFwHang s
  | .begin req => Sys2Proof.Machine.execBegin req s
  | .safepointAck => Sys2Proof.Machine.execSafepointAck s
  | .commit req => Sys2Proof.Machine.execCommit req s
  | .measure req => Sys2Proof.Machine.execMeasure req s
  | .measureDone => Sys2Proof.Machine.execMeasureDone s
  | .clear req first last => Sys2Proof.Machine.execClear req first last s
  | .clearAll req => Sys2Proof.Machine.execClearAll req s
  | .sample => Sys2Proof.Machine.execSample s
  | .obsSamp req data => Sys2Proof.Machine.execObsSamp req data s
  | .obsRing req data => Sys2Proof.Machine.execObsRing req data s
  | .obsTrring req data => Sys2Proof.Machine.execObsTrring req data s
  | .arm req holdto => Sys2Proof.Machine.execArm req holdto s
  | .disarm req => Sys2Proof.Machine.execDisarm req s
  | .freeze => Sys2Proof.Machine.execFreeze s
  | .frozen => Sys2Proof.Machine.execFrozen s
  | .thaw req => Sys2Proof.Machine.execThaw req s
  | .thawat req => Sys2Proof.Machine.execThawat req s
  | .thawTick => Sys2Proof.Machine.execThawTick s
  | .thawingDone => Sys2Proof.Machine.execThawingDone s
  | .copy req => Sys2Proof.Machine.execCopy req s
  | .hangscan req => Sys2Proof.Machine.execHangscan req s
  | .setval req => Sys2Proof.Machine.execSetval req s
  | .cancelQ req => Sys2Proof.Machine.execCancelQ req s
  | .cancelW req => Sys2Proof.Machine.execCancelW req s
  | .forceLane req => Sys2Proof.Machine.execForceLane req s
  | .marRead req => Sys2Proof.Machine.execMarRead req s
  | .fstat req block data => Sys2Proof.Machine.execFstat req block data s
  | .ffirst req block data => Sys2Proof.Machine.execFfirst req block data s
  | .fsev req block data => Sys2Proof.Machine.execFsev req block data s
  | .frct req block data => Sys2Proof.Machine.execFrct req block data s
  | .finj req block data => Sys2Proof.Machine.execFinj req block data s
  | .shadowEnd block => Sys2Proof.Machine.execShadowEnd block s
  | .wdog slice entry => Sys2Proof.Machine.execWdog slice entry s
  | .replyGuard agent queue => Sys2Proof.Machine.execReplyGuard agent queue s
  | .drainSlow agent queue => Sys2Proof.Machine.execDrainSlow agent queue s
  | .arbitrationWindow => Sys2Proof.Machine.execArbitrationWindow s
  | .portEn req port data => Sys2Proof.Machine.execPortEn req port data s
  | .portDown req port => Sys2Proof.Machine.execPortDown req port s
  | .coldReset => Sys2Proof.Machine.execColdReset s
  | .powerOnReset => Sys2Proof.Machine.execPowerOnReset s
  | .resetRelease => Sys2Proof.Machine.execResetRelease s
  | .registerWrite req offset width data => Sys2Proof.Machine.execRegisterWrite req offset width data s
  | .alignmentCodeword port matched => Sys2Proof.Machine.execAlignmentCodeword port matched s
  | .masterPortResponse kind err => Sys2Proof.Machine.execMasterPortResponse kind err s
  | .tagRebuild word => Sys2Proof.Machine.execTagRebuild word s
  | .fwTrap pc => Sys2Proof.Machine.execFwTrap pc s
  | .htmReady => Sys2Proof.Machine.execHtmReady s
  | .pierClockRestart pier => Sys2Proof.Machine.execPierClockRestart pier s
  | .spRdy pier => Sys2Proof.Machine.execSpRdy pier s
  | .sncmdDone => Sys2Proof.Machine.execSncmdDone s

end Sys2Proof.Machine
end

