-- ==== Sys2Proof/Safety.lean ====
section
/-! DEFINITION. What claims speak of: the canonical forms of the state's tables, the invariant every step keeps, and the states
in which a command has only its own effect. -/
namespace Sys2Proof.Machine

/-- A sparse table in its canonical form: keys strictly rising. -/
def SMap.wf {α : Type} : SMap α → Bool
  | [] => true
  | (k, _) :: r => (r.all fun x => decide (k < x.1)) && SMap.wf r

/-- The register file in its canonical form: offsets strictly rising, and none listed at its reset value. -/
def Regs.wf (m : SMap Word) : Bool := SMap.wf m && m.all fun x => decide (x.2 ≠ w64 (regReset x.1))

/-- The invariant: external memory and the register file are in canonical form, so that equal memories and equal register
files are equal data. -/
structure Inv (s : State) : Prop where
  mem : Memory.wf s.mem = true
  regs : Regs.wf s.rf = true

/-- Keystone is locked (R363). -/
def locked (s : State) : Bool := on s fKeyCtlLock

/-- No injection is armed for a target that strikes by itself (R394, R395). -/
def noInjection (s : State) : Bool :=
  !finjFor s bCore 0 && !finjFor s bCore 15 && !finjFor s bTrs 15 && !finjFor s bTime 15

/-- No work of other units waits: no update that DROOP_WARN alone held (R429), no OPEN or CLOSE that waits for CBOUND (R219), no
root entry with a close to send (R226), no input beat to take (R236), and no answer of a scratchpad held at a pier (R482). -/
def noWork (s : State) : Bool :=
  (decide (get s fFwUpdstState ≠ 4) || s.clk.droop) && s.abc.pendCmd.isNone
    && (s.abc.ctxs.all fun y => !(y.2.root && y.2.closed1 && y.2.closeAt.isSome)) && (s.abc.want.all fun y => y.2.isEmpty)
    && (s.abc.waitParts.all fun y => y.2.isEmpty) && s.piers.all fun y => y.2.answered.isEmpty

/-- Nothing is left for the end of a command to do: no block reset asked for, no injection that strikes by itself, no gate
close under way, no work of other units. -/
def calm (s : State) : Bool := s.flt.resets.isEmpty && noInjection s && s.clk.gateAt.isNone && noWork s

/-- No injection is armed in any block, no word was found bad, and nothing is left to do at the end of a command. -/
def quiet (s : State) : Bool :=
  calm s && s.flt.bad.isEmpty && (List.range 17).all fun b => decide (wbits (rd s (rFinj b)) 12 1 = 0)

/-- A management write at an offset is served to a requester: out of reset, made by an initiator or a bridge-keeper that runs, not
turned away while ECLK is stopped (R469) nor by the boot window (R362). -/
def served (s : State) (r : Requester) (off : Nat) : Bool :=
  !s.clk.inReset && canAccess s r && (!on s fClkStatStopped || servedStopped off) && !windowShut s r

/-- A management write is served, and comes from a manager. -/
def manages (s : State) (r : Requester) (off : Nat) : Bool := served s r off && isManager s r

/-- A message for this die comes in on a port that is UP, with ECLK running, outside a freeze and DEGRADED mode. -/
def delivers (s : State) (n : Nat) (h : Hdr) : Bool :=
  quiet s && decide (n < 8) && eclkRuns s && isUp s n && !frozen s && !degradedOn s && decide (h.dst = dieOf s)

/-- Nothing of the span group hangs on the state of this die's links: no mirror pairing is in force, every other die is LOST and not
known ALIGNED, and this die's alignment does not follow the links. A die in SINGLE mode that is no mirror is such a die. -/
def settled (s : State) : Bool :=
  !mirrorOn s && ((members s).all fun d => decide (d = dieOf s) || (inLost s d && !inReach s d && !s.span.aligned.contains d))
    && (isMaster s || (decide (alState s ≠ alAligned) && decide (alState s ≠ alHold)))

/-- An event of the source asks for no block reset (R371, R373). -/
def resetsNothing (s : State) (b src : Nat) : Bool := !nbit (reactions (sevOf s b src) (rctOf s b src)) 2

/-- Every register but those listed reads as before. -/
def SameRegs (s t : State) (offs : List Nat) : Prop := ∀ off, off ∉ offs → rd t off = rd s off

/-- Nothing changed but registers, and of these none but those listed. -/
def RegsOnly (s t : State) (offs : List Nat) : Prop := t = { s with rf := t.rf } ∧ SameRegs s t offs

/-- What an engine does with a write it ignores for a cause it records: the source's sticky bit is set and the source
recorded in the block's registers alone. -/
def Recorded (s t : State) (b src : Nat) : Prop :=
  nbit (get t (fStatSticky b)) src = true ∧ t = { s with rf := t.rf, flt := t.flt } ∧ SameRegs s t [rFstat b, rFfirst b]

/-! Commands at a pier. -/

/-- The row that issues a packet at the head of a queue. -/
def rowOf (a q : Nat) (ws : List Word) : Instr :=
  match pOp ws with
  | none => .sigAdd a q
  | some .sigAdd => .sigAdd a q
  | some .sigSub => .sigSub a q
  | some .poll => .poll a q
  | some .waitGe => .waitGe a q
  | some .waitTake => .waitTake a q
  | some .take => .take a q
  | some .give => .give a q
  | some .arrive => if fLANE ws then .arriveLane a q else .arrive a q
  | some .arriveCombine => .arriveCombine a q
  | some .fence => .fence a q
  | some .route => .route a q
  | some .member => .member a q
  | some .alloc => .alloc a q
  | some .free => .free a q
  | some .audit => .audit a q

/-- Pier p issues item i, the head of queue q of agent a, now: the units run, the pointers of R59 choose the queue, the item holds
no credit, no QSEQ and no place among stalled heads yet, and no other command of the queue bears the same stamp. -/
def issues (s : State) (a q : Nat) (p : PierNet) (i : Item) : Bool :=
  quiet s && coreRuns s && decide (q < 4) && decide (pierOf s a = some p) && decide (pierNet s p.pier = some p)
    && !(pierSt s p.pier).stopped && decide (headOf (queueOf s a q).items = some i) && decide (i.st = .unissued)
    && decide (i.credits = []) && decide (i.qseq = none) && decide (i.since = 0) && decide (nextToIssue s p = some (localIdx p a, q))
    && (queueOf s a q).items.all fun j => decide (j.cmd ≠ some (stamp s p a q i))

/-- An issued command passes the pier's checks and does not stall there (R89, R92). -/
def passes (s : State) (c : Cmd) : Bool :=
  decide (pierCheck s c = none) && decide ((tenSt s c.tenant).st = .active) && decide (pierStall s c = none)

/-- It passes, and leaves without a release drain before it (R243). -/
def departs (s : State) (c : Cmd) : Bool := passes s c && decide (drainScope c.words = none)

/-- Every earlier command that a FENCE at item i waits for has its reply: of its queue, and with ALLQ those of the agent's other
queues issued before it (R88). -/
def clearBefore (s : State) (a q : Nat) (i : Item) : Bool :=
  ((queueOf s a q).items.takeWhile fun j => decide (j ≠ i)).all (fun j => j.st.finished) &&
    (!fALLQ i.words || ((List.range 4).filter fun r => decide (r ≠ q)).all fun r =>
      (queueOf s a r).items.all fun j => match j.cmd with
        | some _ => !decide (j.ord < s.order + 1) || j.st.finished
        | none => true)

/-- Item i, the head of queue q of agent a, holds the command c of this die, issued before and held at its pier, which nothing
there holds back any longer. -/
def resumes (s : State) (a q : Nat) (p : PierNet) (i : Item) (c : Cmd) : Bool :=
  quiet s && coreRuns s && decide (q < 4) && decide (pierOf s a = some p) && decide (pierNet s p.pier = some p)
    && !(pierSt s p.pier).stopped && decide (headOf (queueOf s a q).items = some i) && decide (itemOf s c = some i)
    && decide (c.agent = a) && decide (c.queue = q) && decide (c.die = dieOf s) && decide (c.pier = p.pier)
    && decide (c.words = i.words) && !isOlder (epochOf s c.tenant) c.epoch && !degradedOn s
    && decide ((tenSt s c.tenant).st = .active) && decide (pierStall s c = none)

/-- The slot to which a bank leads an operation of a command on object number n: the entry is RESIDENT and nothing is held for it
(R34 to R37). -/
def bankSlot (s : State) (c : Cmd) (op : Op) (n : Nat) : Option Nat :=
  match resolve s c op n with
  | .error _ => none
  | .ok (i, _) =>
    let e := htmAt s i
    if on s fSemaStatHtmReady ∧ heldAtBank s i = false ∧ e.state = .resident then some (slotKey e.slice e.slot) else none

/-- The slot to which an operation of a command of this die on object number n leads, by its pier's translation where that fits the
slot it names, by the bank otherwise (R35, R36, R172). -/
def homeSlot (s : State) (c : Cmd) (op : Op) (n : Nat) : Option Nat :=
  match (pierSt s c.pier).cache.find? fun y => decide (y.tenant = c.tenant) && decide (y.obj = n) with
  | none => bankSlot s c op n
  | some y =>
    match slotAt s (slotKey y.slice y.slot) with
    | none => bankSlot s c op n
    | some o =>
      if o.tenant = c.tenant ∧ o.obj = n ∧ s.sema.rebuild.contains ((htmIdx s c.tenant n).getD 0) = false
      then some (slotKey y.slice y.slot) else bankSlot s c op n

/-- An operation is applied to the object x in a slot as soon as it comes there: the slice has room for it, no pass of the object is
paused, it is not poisoned nor found to differ from its second copy, and its tenant is not mirrored. -/
def takesOp (s : State) (key : Nat) (x : Slot) : Bool :=
  decide (slotAt s key = some x) && !noCredit s (sliceOf key) && !x.paused && !x.poison
    && !(x.paired && s.flt.differ.contains key) && !mirrored s x.tenant

/-- A command of this die reaches the object x in a slot, which takes it. -/
def homes (s : State) (c : Cmd) (key : Nat) (x : Slot) : Bool :=
  decide (pDie c.words = dieOf s) && decide ((pOp c.words).bind (fun op => homeSlot s c op (pObj c.words)) = some key)
    && takesOp s key x

/-- Nothing waits for an object: no waiter, so no segment of them (R502), and no try-once wait beside it. -/
def unwatched (x : Slot) : Bool := decide (x.waiters = []) && decide (x.segs = []) && decide (x.tries = [])

/-- No register but programmable and fixed counters (R434, R438) and those listed reads otherwise than before. -/
def SameButCounters (s u : State) (offs : List Nat) : Prop :=
  ∀ off, off ∉ offs → (off < 0x143000 ∨ 0x145000 ≤ off) → rd u off = rd s off

/-- In queue q of agent a, item i has become j; what delivery has yet to pass of every queue (R359) is otherwise the same, and
so are the agents' ports and the rest of their queues. -/
def Becomes (s u : State) (a q : Nat) (i j : Item) : Prop :=
  dropSkips (queueOf u a q).items = dropSkips (mapFirst (fun k => decide (k = i)) (fun _ => j) (queueOf s a q).items) ∧
  (∀ b r, (b, r) ≠ (a, q) → dropSkips (queueOf u b r).items = dropSkips (queueOf s b r).items) ∧
  (∀ b r, { queueOf u b r with items := [] } = { queueOf s b r with items := [] }) ∧
  ∀ b, { agentSt u b with queues := [] } = { agentSt s b with queues := [] }

/-- Item i as issued with the stamp c, in a new state; it comes after all commands issued before. -/
def Item.issued (i : Item) (s : State) (c : Cmd) (st : ItemSt) : Item :=
  { i with st := st, cmd := some c, traced := isTraced s c.agent c.words, ord := s.order + 1 }

/-- Item i with its reply generated, credits returned; what the reply waits for is as R247 and R480 have it. It takes its place among
the replies of the die. -/
def Item.replied (i : Item) (s : State) (c : Cmd) (r : Reply) : Item :=
  { i with
    st := .done r (awaitOf s (queueOf s c.agent c.queue).items c r.status), credits := [], since := s.order + 1 }

/-- Item i issued with the stamp c and with its reply generated in the same command. -/
def Item.answered (i : Item) (s : State) (c : Cmd) (r : Reply) : Item :=
  { (i.issued s c .out).replied s c r with since := s.order + 2 }

/-- The slot of a key has become y, and every other slot is as before. -/
def SlotBecomes (s u : State) (key : Nat) (y : Slot) : Prop :=
  slotAt u key = some y ∧ ∀ k, k ≠ key → slotAt u k = slotAt s k

/-- A command of this die changed only queues, its pier, slots, counters, the fills and invalidations under way, the order of
issue and the registers listed. -/
def AtHome (s u : State) (pier : Nat) (offs : List Nat) : Prop :=
  u = { s with
    rf := u.rf, obs := u.obs, agents := u.agents, piers := u.piers, sema := { s.sema with slots := u.sema.slots }
    gir := { s.gir with fills := u.gir.fills, invs := u.gir.invs }, order := u.order } ∧
  (∀ k, k ≠ pier → pierSt u k = pierSt s k) ∧ SameButCounters s u offs

end Sys2Proof.Machine
end

