-- ==== Sys2Proof/Certificates/Slice0/Obligations.lean ====
section
/-! DEFINITION. The statements for the provers. Each says a rule of the spec, or where its text says so a choice of the model, of
every state and operand that meets its premises. -/
open Sys2Proof Sys2Proof.Machine

/-- For every command and state, the step of the state with the command at the front of its queue is exec of the command on
the state with the rest of the queue. The queue is the model's own (log entry 1). (95_what_each_step_holds.md) -/
def Obligations.FrontCommandRuns : Prop :=
  ∀ (c : Instr) (rest : List Instr) (s : State),
    step { s with pending := c :: rest } = exec c { s with pending := rest }

/-- On an empty queue a step is one tick: once the multiplier has locked the counter advances by one, before that it stands;
the start cycle of a clear is over; where no broken mirrored tenant has been reset here nothing else changes, and otherwise
nothing but CORE_MIRBRK of such tenants, the list of them and the counter of the free values. That the tick is the step on an
empty queue, and that a free value says when the pair's reset mends a mirror, are the model's choices (log entries 1 and 11).
(R315, R439) -/
def Obligations.EmptyQueueTicks : Prop :=
  ∀ s : State, s.pending = [] → s.clk.inReset = false →
    let now := if on s fDtStatLock then s.now + 1 else s.now
    let obs := { s.obs with clearing := none }
    (s.span.mirDone = [] → step s = .next { s with now := now, obs := obs }) ∧
    ∃ u, step s = .next u ∧
      u = { s with now := now, obs := obs, rf := u.rf, span := { s.span with mirDone := u.span.mirDone }, fresh := u.fresh } ∧
      (∀ t, t ∈ u.span.mirDone → t ∈ s.span.mirDone) ∧
      SameRegs s u (s.span.mirDone.map fun t => rCoreMirbrk (t / 64))

/-- For every state in which external memory and the register file are in canonical form, and every step from it that answers
a next state, both are in canonical form there. So equal memories and equal register files are equal data in every state that
a run reaches. (R439, R460, R473, R489) -/
def Obligations.InvariantKept : Prop :=
  ∀ s t : State, Inv s → step s = .next t → Inv t

/-- External memory and the register file are in canonical form in the reset state, and no command waits there. (R417, R473)
-/
def Obligations.InvariantAtReset : Prop :=
  Inv State.reset ∧ State.reset.pending = []

/-- Every command in every state answers a next state; the waiting commands and the netlist are what they were. (R91, R377) -/
def Obligations.EveryCommandAnswers : Prop :=
  ∀ (c : Instr) (s : State), ∃ t, exec c s = .next t ∧ t.pending = s.pending ∧ t.net = s.net

/-- In the reset state registers of every block hold the reset values of the register map: agent bindings, waiter and barrier
controls, Viaduct, Deck Time, clocks, gates, firmware, observation, severities and reactions. (R473, R402, R464) -/
def Obligations.ResetRegisterValues : Prop :=
  (∀ a < 2048, rd State.reset (rAgtBind a) = 0x200) ∧ (∀ t < 256, rd State.reset (rTenShare0 t) = 0x100000000) ∧
  rd State.reset rWaitCtl = 0x11008002 ∧ (∀ l < 64, rd State.reset (rTrsLcfg l) = 0x1800) ∧
  (∀ n < 8, rd State.reset (rViaCtl n) = 0x18) ∧ rd State.reset rClkCtl = 0x22 ∧
  rd State.reset rClkGopen0 = 0xffffffffffffffff ∧ rd State.reset rClkGopen1 = 0x3ffffffff ∧
  rd State.reset rObsSamp = 0x30 ∧ rd State.reset rObsRing = 0x10 ∧ rd State.reset rKeyCtl = 0 ∧
  (∀ b < 17, rd State.reset (rFstat b) = 0 ∧ rd State.reset (rFsev b) = w64 (fsevReset b) ∧
    rd State.reset (rFrct b) = w64 (frctReset b))

/-- A power-on reset leaves every register and unit as State.reset has it, with the cold reset in progress, external memory
and the level of DROOP_WARN as they were. A cold reset does the same but for the fault blocks: every register outside FSTAT
and FFIRST holds its reset value, and the sealed sticky bits stay set. The end of a cold reset changes nothing but that the
reset is over and that the piers whose clients drive no clock stay in reset; with DROOP_WARN asserted it records DROOP. That
external memory keeps its contents, that the level of DROOP_WARN is kept through a reset and recorded at its end, and that an
open value says which clients drive a clock are the model's (log entries 5, 75 and 120). (R380, R417, R418, R492) -/
def Obligations.ResetPinsMove : Prop :=
  ∀ s : State,
    let base : State :=
      { State.reset with
        pending := s.pending, net := s.net, mem := s.mem, fresh := s.fresh
        clk := { State.reset.clk with inReset := true, droop := s.clk.droop } }
    exec .powerOnReset s = .next base ∧
    ∃ t, exec .coldReset s = .next t ∧ t = { base with rf := t.rf, flt := t.flt } ∧
      (∀ off, (∀ b < 17, off ≠ rFstat b ∧ off ≠ rFfirst b) → rd t off = w64 (regReset off)) ∧
      (∀ b < 17, get t (fStatSticky b) = mgetD s.flt.sealedBits b 0 % 4096) ∧ t.flt.sealedBits = s.flt.sealedBits ∧
      (quiet s = true → s.clk.inReset = true →
        s.clk.droop = false ∨ (s.flt.shadows = [] ∧ resetsNothing s bClk 5 = true) →
        ∃ u, exec .resetRelease s = .next u ∧
          (∀ p, pierSt u p = { pierSt s p with
            stopped := if s.net.piers.any fun x => decide (x.pier = p) then Config.clockStopped p else (pierSt s p).stopped }) ∧
          let out : State := { s with clk := { s.clk with inReset := false }, piers := u.piers }
          (s.clk.droop = false → u = out) ∧ (s.clk.droop = true → Recorded out u bClk 5))

/-- A manager's write to TEN_CFG, TEN_SHARE0 or TEN_SHARE1 whose fields stay within KEY_CAP, or to TEN_IMP while no waiter of
the tenant stands on an imported object, leaves the register holding the fields of the data with reserved bits 0. Nothing else
changes. (R348, R361, R365) -/
def Obligations.TenantRegistersWritten : Prop :=
  ∀ (r : Requester) (t : Nat) (d : Word) (s : State), quiet s = true → t < 256 →
    (manages s r (rTenCfg t) = true → (nbit d.toNat 0 = true → on s (fKeyCap0Mir t) = true) →
      (nbit d.toNat 1 = true → on s (fKeyCap0Exp t) = true) →
      ∃ u, exec (.tenCfg r t d) s = .next u ∧ rd u (rTenCfg t) = w64 (d.toNat % 2 ^ 2) ∧ RegsOnly s u [rTenCfg t]) ∧
    (manages s r (rTenShare0 t) = true → wbits d 0 11 ≤ get s (fKeyCap0Res t) → wbits d 11 11 ≤ get s (fKeyCap0Waits t) →
      wbits d 22 10 ≤ get s (fKeyCap0Buf t) → wbits d 32 8 ≤ get s (fKeyCap0Weight t) →
      ∃ u, exec (.tenShare r t 0 d) s = .next u ∧ rd u (rTenShare0 t) = w64 (d.toNat % 2 ^ 40) ∧
        RegsOnly s u [rTenShare0 t]) ∧
    (manages s r (rTenShare1 t) = true → wbits d 0 7 ≤ get s (fKeyCap0Cred t) → wbits d 7 7 ≤ get s (fKeyCap0Lanes t) →
      wbits d 14 12 ≤ get s (fKeyCap1Agents t) →
      ∃ u, exec (.tenShare r t 1 d) s = .next u ∧ rd u (rTenShare1 t) = w64 (d.toNat % 2 ^ 26) ∧
        RegsOnly s u [rTenShare1 t]) ∧
    (∀ i < 4, manages s r (rTenImp t i) = true →
      ((allWaiters s).any fun x => decide (x.2.cmd.tenant = t) && decide (((slotAt s x.1).map (·.tenant)) ≠ some t)) = false →
      ∃ u, exec (.tenImp r t i d) s = .next u ∧ rd u (rTenImp t i) = w64 (d.toNat % 2 ^ 57) ∧
        RegsOnly s u [rTenImp t i])

/-- A manager's write to TEN_CFG, TEN_SHARE0 or TEN_SHARE1 any field of which is past its cap leaves every tenant register as
it was and records SHARE_CAP; one to TEN_IMP that sets VALID while the tenant waits on an imported object records
BIND_REFUSED; one to SEMA_HTW while the tenant has an allocated object records HTW_REFUSED. A write to TEN_CFG by a requester
that is not a manager, after KEY_LOCK, that would have changed it leaves it and records PRIV_WRITE. (R54, R361, R364, R365) -/
def Obligations.CapsAndWindowsHold : Prop :=
  ∀ (r : Requester) (t : Nat) (d : Word) (s : State), quiet s = true → s.flt.shadows = [] → t < 256 →
    (manages s r (rTenCfg t) = true →
      (nbit d.toNat 0 = true ∧ on s (fKeyCap0Mir t) = false) ∨ (nbit d.toNat 1 = true ∧ on s (fKeyCap0Exp t) = false) →
      ∃ u, exec (.tenCfg r t d) s = .next u ∧ Recorded s u bCore 6) ∧
    (manages s r (rTenShare0 t) = true →
      get s (fKeyCap0Res t) < wbits d 0 11 ∨ get s (fKeyCap0Waits t) < wbits d 11 11 ∨
        get s (fKeyCap0Buf t) < wbits d 22 10 ∨ get s (fKeyCap0Weight t) < wbits d 32 8 →
      ∃ u, exec (.tenShare r t 0 d) s = .next u ∧ Recorded s u bCore 6) ∧
    (manages s r (rTenShare1 t) = true →
      get s (fKeyCap0Cred t) < wbits d 0 7 ∨ get s (fKeyCap0Lanes t) < wbits d 7 7 ∨ get s (fKeyCap1Agents t) < wbits d 14 12 →
      ∃ u, exec (.tenShare r t 1 d) s = .next u ∧ Recorded s u bCore 6) ∧
    (∀ i < 4, manages s r (rTenImp t i) = true → nbit d.toNat 56 = true → rd s (rTenImp t i) ≠ w64 (d.toNat % 2 ^ 57) →
      ((allWaiters s).any fun x => decide (x.2.cmd.tenant = t) && decide (((slotAt s x.1).map (·.tenant)) ≠ some t)) = true →
      ∃ u, exec (.tenImp r t i d) s = .next u ∧ Recorded s u bCore 7) ∧
    (manages s r (rSemaHtw t) = true → allocatedOf s t ≠ [] → resetsNothing s bSema 7 = true →
      ∃ u, exec (.semaHtw r t d) s = .next u ∧ Recorded s u bSema 7) ∧
    (served s r (rTenCfg t) = true → isManager s r = false → nbit d.toNat 0 = true → nbit d.toNat 1 = false →
      on s (fKeyCap0Mir t) = true → on s (fTenCfgMirrored t) = false →
      ∃ u, exec (.tenCfg r t d) s = .next u ∧ Recorded s u bCore 5)

/-- A manager's write to AGT_BIND of an agent of the netlist that is unbound with EN set, or disabled, that leaves EN as it is
and keeps the tenant within its share of bindings, leaves TENANT and BOUND as written with no lane of the die in use; nothing
else changes. A write to AGT_BIND that sets EN of a disabled agent, its binding kept, opens its port. (R344, R359) -/
def Obligations.BindingsWritten : Prop :=
  ∀ (r : Requester) (a : Nat) (d : Word) (s : State), quiet s = true → a < 2048 → (pierOf s a).isSome = true →
    manages s r (rAgtBind a) = true → (∀ l < 64, on s (fTrsLcfgEn l) = false) →
    (((agentSt s a).port = .disabled ∨ ((agentSt s a).port = .open ∧ on s (fAgtBindBound a) = false)) →
      wbits d 9 1 = get s (fAgtBindEn a) → wbits d 8 1 = 1 → agentsOf s (wbits d 0 8) < get s (fTenShare1Agents (wbits d 0 8)) →
      ∃ u, exec (.agtBind r a d) s = .next u ∧ get u (fAgtBindTenant a) = wbits d 0 8 ∧ get u (fAgtBindBound a) = 1 ∧
        get u (fAgtBindEn a) = get s (fAgtBindEn a) ∧ RegsOnly s u [rAgtBind a]) ∧
    ((agentSt s a).port = .disabled → get s (fAgtBindEn a) = 0 → wbits d 9 1 = 1 →
      wbits d 0 8 = get s (fAgtBindTenant a) → wbits d 8 1 = get s (fAgtBindBound a) →
      ∃ u, exec (.agtBind r a d) s = .next u ∧ get u (fAgtBindEn a) = 1 ∧ (agentSt u a).port = .open ∧
        (∀ b, b ≠ a → agentSt u b = agentSt s b) ∧ u = { s with rf := u.rf, agents := u.agents } ∧
        SameRegs s u [rAgtBind a])

/-- DISABLE of an enabled agent that has no command, with no lane and no combine entry in use, clears EN and puts its port
into DISABLING; the other agents keep their state. With ECLK running, DISABLED of an agent in DISABLING all of whose commands
have their replies puts its port into DISABLED and changes nothing else. (R343, R359) -/
def Obligations.DisableAndDisabled : Prop :=
  ∀ (r : Requester) (a : Nat) (s : State), quiet s = true → a < 2048 →
    ((pierOf s a).isSome = true → manages s r (rAgtBind a) = true → on s (fAgtBindEn a) = true → (agentSt s a).queues = [] →
      s.lanes = [] → (∀ l < 64, on s (fTrsLcfgEn l) = false) → s.abc.ctxs = [] → outBlocking s (fun c => decide (c.agent = a)) = [] →
      coreRuns s = false ∨ (∀ b q, deliverable s b q = false) →
      ∃ u, exec (.disable r a) s = .next u ∧ get u (fAgtBindEn a) = 0 ∧ (agentSt u a).port = .disabling ∧
        get u (fAgtBindTenant a) = get s (fAgtBindTenant a) ∧ get u (fAgtBindBound a) = get s (fAgtBindBound a) ∧
        (∀ b, b ≠ a → agentSt u b = agentSt s b) ∧ SameRegs s u [rAgtBind a] ∧ u.sema = s.sema ∧ u.mem = s.mem) ∧
    (eclkRuns s = true → (agentSt s a).port = .disabling → ((agentSt s a).queues.all fun q => q.2.items.all fun i => i.st.finished) = true →
      ∃ u, exec (.disabled a) s = .next u ∧ agentSt u a = { agentSt s a with port := .disabled } ∧
        (∀ b, b ≠ a → agentSt u b = agentSt s b) ∧ u = { s with agents := u.agents })

/-- A served QUIESCE of an ACTIVE tenant with nothing waiting puts it into QUIESCING with BUSY set; with ECLK running, a
tenant in QUIESCING whose drain conditions hold becomes QUIESCED, the command complete with OK; a served RESUME of a QUIESCED
tenant makes it ACTIVE with OK, and of any other completes with BADOP and leaves its state. Other tenants and every register
but TEN_CMDST keep their values. (R341, R350, R352, R368) -/
def Obligations.TenantStateCommands : Prop :=
  ∀ (r : Requester) (t : Nat) (s : State), quiet s = true → t < 256 → freezing s = false →
    (manages s r (rTenCmd t) = true → on s (fTenCmdstBusy t) = false → (tenSt s t).st = .active → tenWaiters s t = [] →
      s.lanes = [] → s.abc.ctxs = [] → outBlocking s (fun c => decide (c.tenant = t)) = [] →
      ∃ u, exec (.quiesce r t) s = .next u ∧ tenSt u t = { tenSt s t with st := .quiescing } ∧
        get u (fTenCmdstBusy t) = 1 ∧ get u (fTenCmdstOp t) = 1 ∧ (∀ v, v ≠ t → tenSt u v = tenSt s v) ∧
        SameRegs s u [rTenCmdst t] ∧ u.sema = s.sema ∧ u.mem = s.mem) ∧
    (eclkRuns s = true → (tenSt s t).st = .quiescing → drained s t = true →
      ∃ u, exec (.quiesced t) s = .next u ∧ tenSt u t = { tenSt s t with st := .quiesced } ∧
        get u (fTenCmdstBusy t) = 0 ∧ get u (fTenCmdstStatus t) = 0 ∧ get u (fTenCmdstDt t) = s.now % 2 ^ 40 ∧
        (∀ v, v ≠ t → tenSt u v = tenSt s v) ∧ u = { s with rf := u.rf, tens := u.tens } ∧ SameRegs s u [rTenCmdst t]) ∧
    (manages s r (rTenCmd t) = true → on s (fTenCmdstBusy t) = false →
      ∃ u, exec (.resume r t) s = .next u ∧ get u (fTenCmdstBusy t) = 0 ∧ get u (fTenCmdstOp t) = 2 ∧
        get u (fTenCmdstDt t) = s.now % 2 ^ 40 ∧
        ((tenSt s t).st = .quiesced → tenSt u t = { tenSt s t with st := .active } ∧ get u (fTenCmdstStatus t) = 0) ∧
        ((tenSt s t).st ≠ .quiesced → tenSt u t = tenSt s t ∧ get u (fTenCmdstStatus t) = 0x0F) ∧
        (∀ v, v ≠ t → tenSt u v = tenSt s v) ∧ u = { s with rf := u.rf, tens := u.tens } ∧ SameRegs s u [rTenCmdst t])

/-- A served RESET of a QUIESCED tenant while firmware runs, with no lane, combine entry, waiter or held command of the die in
use, puts the tenant into RESETTING, to return to QUIESCED, under the same epoch, and leaves each of its resident objects at
its rest value, not poisoned. A FORCED_RESET of a tenant that has no agents, objects, lanes or contexts on a die of its own
advances its epoch by one modulo 256. RESET_COMPLETE of a tenant in RESETTING that has no object allocated returns it to the
state the reset was entered from, and a TEN_CMD RESET of this die completes with OK, as does a QUIESCE that the reset of
another die overtook; a tenant whose mirror is broken is noted as reset here. (R341, R353, R354, R355, R356) -/
def Obligations.TenantResets : Prop :=
  ∀ (r : Requester) (t : Nat) (s : State), quiet s = true → t < 256 → freezing s = false → fwRuns s = true →
    (manages s r (rTenCmd t) = true → on s (fTenCmdstBusy t) = false → degradedOn s = false → (tenSt s t).st = .quiesced →
      s.lanes = [] → (∀ l < 64, get s (fTrsLcfgTenant l) ≠ t) → s.abc.ctxs = [] → s.span.mirror = [] →
      (∀ p ∈ s.sema.slots, p.2.waiters = [] ∧ p.2.tries = [] ∧ p.2.inq = []) →
      ∃ u, exec (.reset r t false) s = .next u ∧ tenSt u t = { tenSt s t with st := .resetting, ret := .quiesced, freeall := false } ∧
        epochOf u t = epochOf s t ∧ get u (fTenCmdstBusy t) = 1 ∧ get u (fTenCmdstOp t) = 3 ∧
        (∀ key x, slotAt s key = some x → x.tenant = t → ∃ y, slotAt u key = some y ∧ y.value = restValue x.kind x.param ∧
          y.poison = false ∧ y.ovr = 0 ∧ y.rel = none ∧ y.tenant = t ∧ y.obj = x.obj ∧ y.kind = x.kind ∧ y.param = x.param)) ∧
    (manages s r (rTenCmd t) = true → on s (fTenCmdstBusy t) = false → degradedOn s = false → (tenSt s t).st ≠ .resetting →
      boundAgents s t = [] → s.lanes = [] → (∀ l < 64, get s (fTrsLcfgTenant l) ≠ t) → s.abc.ctxs = [] → s.sema.slots = [] →
      s.span.mirror = [] → s.ports = [] → members s = [dieOf s] → on s fCoreSpancfgMirror = false →
      ∃ u, exec (.forcedReset r t false) s = .next u ∧ (tenSt u t).st = .resetting ∧
        epochOf u t = (epochOf s t + 1) % 256 ∧ get u (fTenCmdstBusy t) = 1 ∧ get u (fTenCmdstOp t) = 3 ∧
        (∀ v, v ≠ t → tenSt u v = tenSt s v)) ∧
    (coreRuns s = true → (tenSt s t).st = .resetting → allocatedOf s t = [] → s.sema.moves = [] →
      ∃ u, exec (.resetComplete t) s = .next u ∧ (tenSt u t).st = (tenSt s t).ret ∧ (tenSt u t).freeall = false ∧
        epochOf u t = epochOf s t ∧ (∀ v, v ≠ t → tenSt u v = tenSt s v) ∧
        (ownReset s t = true ∨ (ownQuiesce s t = true ∧ (tenSt s t).ret = .quiesced) →
          get u (fTenCmdstBusy t) = 0 ∧ get u (fTenCmdstStatus t) = 0) ∧
        (nbit (rd s (rCoreMirbrk (t / 64))).toNat (t % 64) = true → t ∈ u.span.mirDone) ∧
        (nbit (rd s (rCoreMirbrk (t / 64))).toNat (t % 64) = false → u.span.mirDone = s.span.mirDone) ∧
        u = { s with rf := u.rf, tens := u.tens, span := { s.span with mirDone := u.span.mirDone } } ∧ SameRegs s u [rTenCmdst t])

/-- A served write of a manager to SEMA_HTW, SEMA_BACK or SEMA_PAIR that the unit does not refuse leaves the defined bits of
the data in the register; one to WAIT_CTL or CLK_OBS leaves them in the writable fields. Nothing else changes. (R4, R54, R55,
R57, R129, R415) -/
def Obligations.ConfigurationWritten : Prop :=
  ∀ (r : Requester) (t : Nat) (d : Word) (s : State), quiet s = true → t < 256 →
    (manages s r (rSemaHtw t) = true → allocatedOf s t = [] → wbits d 0 10 + wbits d 16 11 ≤ 1024 →
      (∀ u < 256, u ≠ t → windowsMeet (wbits d 0 10) (wbits d 16 11) (get s (fSemaHtwBase u)) (get s (fSemaHtwLen u)) = false) →
      ∃ u, exec (.semaHtw r t d) s = .next u ∧ get u (fSemaHtwBase t) = wbits d 0 10 ∧ get u (fSemaHtwLen t) = wbits d 16 11 ∧
        RegsOnly s u [rSemaHtw t]) ∧
    (manages s r (rSemaBack t) = true → backInUse s t = false →
      ∃ u, exec (.semaBack r t d) s = .next u ∧ get u (fSemaBackEn t) = wbits d 0 1 ∧ get u (fSemaBackAddr t) = wbits d 12 36 ∧
        get u (fSemaBackAudn t) = wbits d 4 4 ∧ RegsOnly s u [rSemaBack t]) ∧
    (manages s r rSemaPair = true → s.sema.slots = [] → s.sema.moves = [] →
      ∃ u, exec (.semaPair r d) s = .next u ∧ rd u rSemaPair = w64 (d.toNat % 2 ^ 32) ∧ RegsOnly s u [rSemaPair]) ∧
    (manages s r rWaitCtl = true →
      ∃ u, exec (.waitCtl r d) s = .next u ∧ rd u rWaitCtl = (rd s rWaitCtl &&& ~~~0xfffffff3#64) ||| (d &&& 0xfffffff3#64) ∧
        RegsOnly s u [rWaitCtl]) ∧
    (manages s r rClkObs = true →
      ∃ u, exec (.clkObs r d) s = .next u ∧ rd u rClkObs = (rd s rClkObs &&& ~~~0x7ff#64) ||| (d &&& 0x7ff#64) ∧
        RegsOnly s u [rClkObs])

/-- A 64-bit write at the offset of a register that a command of its own names is that command, in every state: CORE_STEP,
SEMA_PAIR, WAIT_CTL, CLK_CTL, CLK_OBS, FW_HBEAT, OBS_SAMP, OBS_RING, OBS_TRRING. At WAIT_WDOG, a register of plain fields, it
sets them for a manager. At an unassigned aligned offset it does nothing. One of another width or at an unaligned offset
records BAD_ACCESS. (R2, R4, R464, R465) -/
def Obligations.RegisterWrites : Prop :=
  ∀ (r : Requester) (d : Word) (s : State),
    exec (.registerWrite r rCoreStep 64 d) s = exec (.coreStep r d) s ∧
    exec (.registerWrite r rSemaPair 64 d) s = exec (.semaPair r d) s ∧
    exec (.registerWrite r rWaitCtl 64 d) s = exec (.waitCtl r d) s ∧
    exec (.registerWrite r rClkCtl 64 d) s = exec (.ramp r d) s ∧
    exec (.registerWrite r rClkObs 64 d) s = exec (.clkObs r d) s ∧
    exec (.registerWrite r rFwHbeat 64 d) s = exec (.fwHbeat r) s ∧
    exec (.registerWrite r rObsSamp 64 d) s = exec (.obsSamp r d) s ∧
    exec (.registerWrite r rObsRing 64 d) s = exec (.obsRing r d) s ∧
    exec (.registerWrite r rObsTrring 64 d) s = exec (.obsTrring r d) s ∧
    (quiet s = true → manages s r rWaitWdog = true →
      ∃ u, exec (.registerWrite r rWaitWdog 64 d) s = .next u ∧
        rd u rWaitWdog = (rd s rWaitWdog &&& ~~~0x3ffff#64) ||| (d &&& 0x3ffff#64) ∧ RegsOnly s u [rWaitWdog]) ∧
    (∀ off width, quiet s = true → s.flt.shadows = [] → off < 2 ^ 22 → served s r off = true →
      (width = 64 → off % 8 = 0 → off < 0x200000 → assigned s off = false → exec (.registerWrite r off width d) s = .next s) ∧
      (width ≠ 64 ∨ off % 8 ≠ 0 → ∃ u, exec (.registerWrite r off width d) s = .next u ∧ Recorded s u bCore 9))

/-- A served write of 1 to KEY_CTL.LOCK sets it, takes STEP from 2 to 3 and starts the offset measurement of every pier; with
LOCK set it changes nothing. A manager's write to CORE_STEP of the next step, 5 to 9, whose condition holds, sets it; one of
any other value changes nothing. With ECLK running and nothing held, the end of the clearing sets HTM_READY and changes
nothing else. A rebuilt handle-table entry, with the other of its word, or the slot tag it leads to, no longer holds commands
at its bank: the entry of an object whose slot is found names that slot, one that claims a slot of no such tag becomes
UNALLOCATED; with none held for them, nothing else changes. (R56, R323, R362, R363, R391, R418, R423) -/
def Obligations.KeyLockAndSteps : Prop :=
  ∀ (r : Requester) (d : Word) (s : State), quiet s = true →
    (served s r rKeyCtl = true → on s fKeyCtlLock = false → (on s fFwStatMeasured && measBad s) = false →
      ∃ u, exec (.keyLock r) s = .next u ∧ get u fKeyCtlLock = 1 ∧ locked u = true ∧ get u fDtPmstatBusy = 1 ∧
        u.dt = { s.dt with measure := some none, measAt := s.now, failed := [] } ∧
        get u fCoreStepStep = (if get s fCoreStepStep = 2 then 3 else get s fCoreStepStep) ∧
        u = { s with rf := u.rf, dt := u.dt } ∧ SameRegs s u [rKeyCtl, rCoreStep, rDtPmstat]) ∧
    (served s r rKeyCtl = true → on s fKeyCtlLock = true → exec (.keyLock r) s = .next s) ∧
    (manages s r rCoreStep = true → wbits d 0 4 = get s fCoreStepStep + 1 →
      ((wbits d 0 4 = 5 ∧ on s fFwStatReady = true) ∨ wbits d 0 4 = 6 ∨
        (wbits d 0 4 = 7 ∧ ∀ n < 8, on s (fViaCtlEn n) = false ∨ (portSt s n).st = .up ∨ (portSt s n).st = .failed) ∨
        (wbits d 0 4 = 8 ∧ (alState s = alAligned ∨ alState s = alFailed)) ∨ wbits d 0 4 = 9) →
      ∃ u, exec (.coreStep r d) s = .next u ∧ get u fCoreStepStep = wbits d 0 4 ∧ RegsOnly s u [rCoreStep]) ∧
    (manages s r rCoreStep = true → wbits d 0 4 ≠ get s fCoreStepStep + 1 → exec (.coreStep r d) s = .next s) ∧
    (eclkRuns s = true → on s fSemaStatHtmReady = false → s.sema.early = [] →
      ∃ u, exec .htmReady s = .next u ∧ get u fSemaStatHtmReady = 1 ∧ u.clk = { s.clk with memInit := true } ∧
        u = { s with rf := u.rf, clk := u.clk } ∧ SameRegs s u [rSemaStat]) ∧
    (∀ i t n, coreRuns s = true → fwRuns s = true → s.sema.rebuild.contains i = true → ownerOf s i = some (t, n) →
      (s.sema.transit.all fun x => decide (x.1 ≠ i) && decide (x.1 ≠ htmTwin i)) = true →
      let found := s.sema.slots.find? fun y => decide (y.2.tenant = t) && decide (y.2.obj = n)
      ∃ u, exec (.tagRebuild (.tableEntry i)) s = .next u ∧ u.sema.rebuild.contains i = false ∧
        u.sema.rebuild.contains (htmTwin i) = false ∧
        (∀ j, j ≠ i → j ≠ htmTwin i → u.sema.rebuild.contains j = s.sema.rebuild.contains j ∧ htmAt u j = htmAt s j) ∧
        (∀ key x, found = some (key, x) → htmAt u i = ⟨.resident, sliceOf key, slotOf key, x.kind⟩) ∧
        (found = none → (htmAt s i).state = .resident → htmAt u i = HEntry.zero) ∧
        u = { s with sema := { s.sema with rebuild := u.sema.rebuild, htm := u.sema.htm } }) ∧
    (∀ i t n key x, coreRuns s = true → fwRuns s = true → s.sema.rebuild = [i] → (htmAt s i).state = .resident →
      ownerOf s i = some (t, n) → (s.sema.slots.find? fun y => decide (y.2.tenant = t) && decide (y.2.obj = n)) = some (key, x) →
      (s.sema.transit.all fun x => decide (x.1 ≠ i)) = true →
      ∃ u, exec (.tagRebuild (.slotTag (htmAt s i).slice (htmAt s i).slot)) s = .next u ∧ u.sema.rebuild = [] ∧
        htmAt u i = ⟨.resident, sliceOf key, slotOf key, x.kind⟩ ∧ (∀ j, j ≠ i → htmAt u j = htmAt s j) ∧
        u = { s with sema := { s.sema with rebuild := [], htm := u.sema.htm } })

/-- With no ramp in progress a manager's write that keeps the source leaves DIV and FAILOVER as written, and RAMP set where
the divider in use differs from the one asked for; one that names the other input, if present, starts the switch: SRC is the
input, RAMP is set and the divider goes up by one to at most 8. While a ramp is in progress a write changes nothing but WIGN.
A step that is due moves CDIV by one towards the divider asked for, and RAMP clears when they are equal; in a switch that has
not changed its source CDIV goes up by one to 8, and at 8 the source changes. When the new input shows no edge SRC names the
old input again, the switch is over and RAMP_FAULT is recorded. (R402, R403, R404, R405, R406) -/
def Obligations.ClockControl : Prop :=
  ∀ (r : Requester) (d : Word) (s : State), quiet s = true →
    (manages s r rClkCtl = true → on s fClkStatRamp = false → decide (wbits d 0 1 = 1) = inputSel s → wbits d 1 4 ≠ get s fClkCtlDiv →
      ∃ u, exec (.ramp r d) s = .next u ∧ get u fClkCtlDiv = wbits d 1 4 ∧ get u fClkCtlFailover = wbits d 5 1 ∧
        get u fClkCtlSrc = get s fClkCtlSrc ∧ get u fClkStatRamp = b2n (decide (cdiv s ≠ divVal (wbits d 1 4))) ∧
        cdiv u = cdiv s ∧ u.clk = { s.clk with switch := none, lastStep := s.now } ∧
        u = { s with rf := u.rf, clk := u.clk } ∧ SameRegs s u [rClkCtl, rClkStat]) ∧
    (manages s r rClkCtl = true → on s fClkStatRamp = false → decide (wbits d 0 1 = 1) ≠ inputSel s →
      inputOk s (decide (wbits d 0 1 = 1)) = true →
      ∃ u, exec (.sourceSwitch r d) s = .next u ∧ get u fClkCtlDiv = wbits d 1 4 ∧ get u fClkCtlFailover = wbits d 5 1 ∧
        get u fClkCtlSrc = wbits d 0 1 ∧ get u fClkStatRamp = 1 ∧ cdiv u = min 8 (cdiv s + 1) ∧ inputSel u = inputSel s ∧
        u.clk = { s.clk with switch := some ⟨decide (wbits d 0 1 = 1), false⟩, lastStep := s.now } ∧
        u = { s with rf := u.rf, clk := u.clk } ∧ SameRegs s u [rClkCtl, rClkStat]) ∧
    (served s r rClkCtl = true → on s fClkStatRamp = true →
      ∃ u, exec (.ramp r d) s = .next u ∧ get u fClkStatWign = 1 ∧ rd u rClkCtl = rd s rClkCtl ∧ cdiv u = cdiv s ∧
        RegsOnly s u [rClkStat]) ∧
    (s.clk.inReset = false → on s fClkStatStopped = false → on s fClkStatRamp = true →
      (stepDue s = true → s.clk.switch = none →
        ∃ u, exec .rampStep s = .next u ∧
          cdiv u = (if cdiv s < divGoal s then cdiv s + 1 else if divGoal s < cdiv s then cdiv s - 1 else cdiv s) ∧
          get u fClkStatRamp = b2n (decide (cdiv u ≠ divGoal s)) ∧ u.clk = { s.clk with lastStep := s.now } ∧
          u = { s with rf := u.rf, clk := u.clk } ∧ SameRegs s u [rClkStat]) ∧
      (∀ target, stepDue s = true → s.clk.switch = some ⟨target, false⟩ → cdiv s < 8 →
        ∃ u, exec .rampStep s = .next u ∧ cdiv u = cdiv s + 1 ∧ get u fClkStatRamp = 1 ∧
          u.clk = { s.clk with lastStep := s.now } ∧ u = { s with rf := u.rf, clk := u.clk } ∧ SameRegs s u [rClkStat]) ∧
      (∀ target, stepDue s = true → s.clk.switch = some ⟨target, false⟩ → cdiv s = 8 → divGoal s ≠ 8 →
        ∃ u, exec .rampStep s = .next u ∧ inputSel u = target ∧ cdiv u = 8 ∧ get u fClkStatRamp = 1 ∧
          u.clk = { s.clk with switch := some ⟨target, true⟩, lastStep := s.now } ∧
          u = { s with rf := u.rf, clk := u.clk } ∧ SameRegs s u [rClkStat]) ∧
      (∀ target, s.clk.switch = some ⟨target, false⟩ → cdiv s = 8 → s.clk.lastStep + 1064 ≤ s.now → s.flt.shadows = [] →
        resetsNothing s bClk 4 = true →
        ∃ u, exec .rampFault s = .next u ∧ get u fClkCtlSrc = b2n (inputSel s) ∧ inputSel u = inputSel s ∧
          get u fClkStatRamp = b2n (decide (divGoal s ≠ 8)) ∧ u.clk.switch = none ∧ nbit (get u (fStatSticky bClk)) 4 = true))

/-- The loss of the input not in use clears its OK bit and records ALT_LOST. The loss of the one in use with FAILOVER set and
the other input present restarts ECLK from the other at divider 8, counting a failover, and records ECLK_LOST and then
ALT_LOST, for the lost input has become the other one; without FAILOVER it stops ECLK. The return of an input sets its OK bit;
if ECLK stands, it restarts from that input at divider 8, and a lost input that was in use is then the other one: ALT_LOST.
That an input lost while it was in use raises ALT_LOST once it is the other one is the model's reading (log entry 74). A rise
of DROOP_WARN is recorded in CLK_FSTAT, and the level held; a fall while no update waits for it only changes the level. (R398,
R407, R416) -/
def Obligations.InputsLostAndBack : Prop :=
  ∀ (i : Bool) (s : State), quiet s = true → s.clk.inReset = false → s.flt.shadows = [] →
    resetsNothing s bClk 0 = true → resetsNothing s bClk 1 = true →
    (inputSel s ≠ i → inputLost s i = false →
      ∃ u, exec (.eclkLost i) s = .next u ∧ inputOk u i = false ∧ inputSel u = inputSel s ∧ cdiv u = cdiv s ∧
        on u fClkStatStopped = on s fClkStatStopped ∧ nbit (get u (fStatSticky bClk)) 1 = true) ∧
    (inputSel s = i → inputLost s i = false → on s fClkCtlFailover = true → inputOk s (!i) = true →
      ∃ u, exec (.eclkLost i) s = .next u ∧ inputOk u i = false ∧ inputSel u = !i ∧ get u fClkCtlSrc = b2n (!i) ∧
        cdiv u = 8 ∧ on u fClkStatStopped = false ∧ get u fClkCntFailovers = (get s fClkCntFailovers + 1) % 2 ^ fClkCntFailovers.w ∧
        nbit (get u (fStatSticky bClk)) 0 = true ∧ nbit (get u (fStatSticky bClk)) 1 = true) ∧
    (inputSel s = i → inputLost s i = false → on s fClkCtlFailover = false →
      ∃ u, exec (.eclkLost i) s = .next u ∧ inputOk u i = false ∧ on u fClkStatStopped = true ∧
        nbit (get u (fStatSticky bClk)) 0 = true) ∧
    (on s fClkStatStopped = false →
      ∃ u, exec (.inputReturn i) s = .next u ∧ inputOk u i = true ∧ inputLost u i = false ∧ cdiv u = cdiv s ∧
        u = { s with rf := u.rf, clk := u.clk } ∧ SameRegs s u [rClkStat]) ∧
    (on s fClkStatStopped = true →
      ∃ u, exec (.inputReturn i) s = .next u ∧ inputOk u i = true ∧ inputSel u = i ∧ cdiv u = 8 ∧ on u fClkStatStopped = false ∧
        (inputSel s ≠ i → inputLost s (!i) = true → nbit (get u (fStatSticky bClk)) 1 = true) ∧
        (inputSel s = i ∨ inputLost s (!i) = false → u.flt = s.flt ∧ SameRegs s u [rClkStat, rClkCtl]) ∧
        u = { s with rf := u.rf, clk := u.clk, flt := u.flt } ∧ SameRegs s u [rClkStat, rClkCtl, rFstat bClk, rFfirst bClk]) ∧
    (s.clk.droop = false → resetsNothing s bClk 5 = true →
      ∃ u, exec (.droopWarn true) s = .next u ∧ nbit (get u (fStatSticky bClk)) 5 = true ∧
        u = { s with rf := u.rf, flt := u.flt, clk := { s.clk with droop := true } } ∧ SameRegs s u [rFstat bClk, rFfirst bClk]) ∧
    (get s fFwUpdstState ≠ 4 → exec (.droopWarn false) s = .next { s with clk := { s.clk with droop := false } })

/-- CLK_GREQ open of a node opens it and its parent and answers result 0. Close of an open idle node waits for its handshake
with BUSY set; of one that is not idle is refused with result 1 and recorded. The acknowledgement closes the gate with result
0 while ECLK runs, once no Girder message of the unit is under way; without it the request ends with result 2 and is recorded.
(R409, R410, R411, R413) -/
def Obligations.GateRequests : Prop :=
  ∀ (r : Requester) (n : Nat) (s : State), n ≤ 97 → s.flt.shadows = [] → freezing s = false →
    (quiet s = true → served s r rClkGreq = true → on s fClkGreqstBusy = false →
      ∃ u, exec (.gateOpen r n) s = .next u ∧ gateOn u n = true ∧ (∀ p, gateParent n = some p → gateOn u p = true) ∧
        (∀ k ≤ 97, k ≠ n → gateOn s k = true → gateOn u k = true) ∧ get u fClkGreqstResult = 0 ∧ get u fClkGreqstBusy = 0 ∧
        get u fClkGreqstNode = n ∧ RegsOnly s u [rClkGreqst, rClkGopen0, rClkGopen1]) ∧
    (quiet s = true → served s r rClkGreq = true → on s fClkGreqstBusy = false → gateOn s n = true → gateIdle s n = true →
      ∃ u, exec (.gateClose r n) s = .next u ∧ gateOn u n = true ∧ get u fClkGreqstBusy = 1 ∧ get u fClkGreqstNode = n ∧
        u.clk = { s.clk with gateAt := some s.now } ∧ u = { s with rf := u.rf, clk := u.clk } ∧ SameRegs s u [rClkGreqst]) ∧
    (quiet s = true → served s r rClkGreq = true → on s fClkGreqstBusy = false → gateOn s n = true → gateIdle s n = false →
      resetsNothing s bClk 2 = true →
      ∃ u, exec (.gateClose r n) s = .next u ∧ gateOn u n = true ∧ get u fClkGreqstResult = 1 ∧ get u fClkGreqstBusy = 0 ∧
        nbit (get u (fStatSticky bClk)) 2 = true) ∧
    (∀ t, s.clk.gateAt = some t → quiet { s with clk := { s.clk with gateAt := none } } = true → get s fClkGreqstNode = n →
      (eclkRuns s = true → unitBusy s n = false → (∃ u, exec .busIdleAck s = .next u ∧ gateOn u n = false ∧ (∀ k ≤ 97, k ≠ n →
        gateOn u k = gateOn s k) ∧
        get u fClkGreqstResult = 0 ∧ get u fClkGreqstBusy = 0 ∧ u.clk = { s.clk with gateAt := none } ∧
        u = { s with rf := u.rf, clk := u.clk } ∧ SameRegs s u [rClkGreqst, rClkGopen0, rClkGopen1])) ∧
      (unitBusy s n = true → gateIdle s n = true → exec .busIdleAck s = .next s) ∧
      (t + 1000 ≤ s.now → resetsNothing s bClk 3 = true →
        ∃ u, exec .gateTimeout s = .next u ∧ gateOn u n = gateOn s n ∧ get u fClkGreqstResult = 2 ∧ get u fClkGreqstBusy = 0 ∧
          u.clk = { s.clk with gateAt := none } ∧ nbit (get u (fStatSticky bClk)) 3 = true))

/-- A served write of 1 to FW_IMG.DONE in the boot window sets it once and starts the measurement; with DONE set, or after
KEY_LOCK, which is the model's reading (log entry 58), it changes nothing. The measurement leaves the SHA-384 of the LEN x 256
bytes of the image in FW_MEAS with MEASURED set, and MEAS_MISMATCH where it differs from KEY_MEXP under ENFORCE once locked,
which is the model's reading (log entry 60). FW_MREQ.MEASURE sets BUSY; the measurement then leaves the digest in FW_MNOW with
DONE set and MATCH as it compares with FW_MEAS. (R367, R419, R420, R425) -/
def Obligations.ImageMeasured : Prop :=
  ∀ (r : Requester) (s : State), quiet s = true →
    (served s r rFwImg = true → (on s fFwImgDone = true ∨ on s fKeyCtlLock = true) → exec (.fwImgDone r) s = .next s) ∧
    (served s r rFwImg = true → on s fFwImgDone = false → on s fKeyCtlLock = false →
      ∃ u, exec (.fwImgDone r) s = .next u ∧ get u fFwImgDone = 1 ∧ get u fFwImgLen = get s fFwImgLen ∧
        u.fw = { s.fw with measuring := true } ∧ u = { s with rf := u.rf, fw := u.fw } ∧ SameRegs s u [rFwImg]) ∧
    (s.fw.measuring = true → eclkRuns s = true → get s fFwUpdstState = 0 → s.flt.shadows = [] → resetsNothing s bFw 0 = true →
      ∃ u, exec .measured s = .next u ∧ (∀ j < 6, rd u (rFwMeas j) = (imageDigest s).getD j 0) ∧ get u fFwStatMeasured = 1 ∧
        u.fw = { s.fw with measuring := false } ∧
        ((on s fKeyCtlLock && measBad u) = false → u = { s with rf := u.rf, fw := u.fw } ∧
          SameRegs s u [rFwStat, rFwMeas 0, rFwMeas 1, rFwMeas 2, rFwMeas 3, rFwMeas 4, rFwMeas 5]) ∧
        ((on s fKeyCtlLock && measBad u) = true → nbit (get u (fStatSticky bFw)) 0 = true)) ∧
    (served s r rFwMreq = true → s.fw.measuring = false → on s fFwMstatBusy = false → get s fFwUpdstState = 0 →
      ∃ u, exec (.measure r) s = .next u ∧ get u fFwMstatBusy = 1 ∧ get u fFwMstatDone = 0 ∧ RegsOnly s u [rFwMstat]) ∧
    (on s fFwMstatBusy = true → eclkRuns s = true →
      ∃ u, exec .measureDone s = .next u ∧ (∀ j < 6, rd u (rFwMnow j) = (imageDigest s).getD j 0) ∧ get u fFwMstatBusy = 0 ∧
        get u fFwMstatDone = 1 ∧ get u fFwMstatMatch = b2n ((List.range 6).all fun j => decide (rd u (rFwMnow j) = rd u (rFwMeas j))) ∧
        RegsOnly s u [rFwMstat, rFwMnow 0, rFwMnow 1, rFwMnow 2, rFwMnow 3, rFwMnow 4, rFwMnow 5])

/-- The release runs it on the image with its data memory clear, counts a restart and takes STEP from 3 to 4. READY sets
FW_STAT.READY and PAGE_EN, and ends a live update in STARTING with OK. A heartbeat is noted. HBLIM without one is recorded in
FW_FSTAT, and at the safe point of an update stops the controller for the load. An exception is recorded. (R398, R421, R422,
R423, R424, R427, R429) -/
def Obligations.BridgeKeeperRuns : Prop :=
  ∀ s : State, quiet s = true →
    (releasable s = true →
      ∃ u, exec .firmwareStart s = .next u ∧ get u fFwStatRun = 1 ∧ get u fFwStatReady = 0 ∧
        u.fw = { s.fw with stop := .running, released := true, dmem := [], beatAt := s.now } ∧
        get u fFwCntRestarts = (get s fFwCntRestarts + 1) % 2 ^ 32 ∧ get u fFwCntUpdates = get s fFwCntUpdates ∧
        get u fCoreStepStep = (if get s fCoreStepStep = 3 then 4 else get s fCoreStepStep) ∧
        u = { s with rf := u.rf, fw := u.fw } ∧ SameRegs s u [rFwStat, rFwCnt, rCoreStep]) ∧
    (served s .firmware rFwStat = true → on s fFwStatReady = false → s.sema.moves = [] →
      (s.sema.htm.all fun x => decide (x.2.state ≠ .transit)) = true →
      ∃ u, exec .ready s = .next u ∧ get u fFwStatReady = 1 ∧ get u fSemaCtlPageEn = 1 ∧ u.fw = { s.fw with beatAt := s.now } ∧
        (get s fFwUpdstState = 5 → get u fFwUpdstState = 0 ∧ get u fFwUpdstStatus = 0 ∧
          get u fFwCntUpdates = (get s fFwCntUpdates + 1) % 2 ^ 32) ∧
        (get s fFwUpdstState ≠ 5 → rd u rFwUpdst = rd s rFwUpdst ∧ rd u rFwCnt = rd s rFwCnt) ∧
        u = { s with rf := u.rf, fw := u.fw } ∧ SameRegs s u [rFwStat, rSemaCtl, rFwUpdst, rFwCnt]) ∧
    (served s .firmware rFwHbeat = true → exec (.fwHbeat .firmware) s = .next { s with fw := { s.fw with beatAt := s.now } }) ∧
    (∀ id, served s (.port id) rFwHbeat = true → exec (.fwHbeat (.port id)) s = .next s) ∧
    (eclkRuns s = true → on s fFwStatRun = true → s.flt.shadows = [] → resetsNothing s bFw 5 = true →
      (get s fFwUpdstState ≠ 1 → on s fFwCtlHben = true → s.fw.beatAt + hbLimit s ≤ s.now →
        ∃ u, exec .fwHang s = .next u ∧ Recorded s u bFw 5) ∧
      (get s fFwUpdstState = 1 → hbLimit s ≤ (s.now + 2 ^ 40 - get s fFwUpdstDt) % 2 ^ 40 →
        ∃ u, exec .fwHang s = .next u ∧ get u fFwUpdstState = 2 ∧ get u fFwStatRun = 0 ∧ get u fFwStatReady = 0 ∧
          u.fw = { s.fw with stop := .update } ∧ nbit (get u (fStatSticky bFw)) 5 = true)) ∧
    (∀ pc, eclkRuns s = true → on s fFwStatRun = true → s.flt.shadows = [] → resetsNothing s bFw 6 = true →
      ∃ u, exec (.fwTrap pc) s = .next u ∧ Recorded s u bFw 6 ∧
        (on s (fFirstValid bFw) = false → get u (fFirstDetail bFw) = pc / 4 % 2 ^ 30))

/-- A manager's BEGIN in IDLE takes the update to the safe point with OK, or to LOADING where the controller already stands
for want of an image; without KEY_MPOL.LIVE it ends with PROT, outside IDLE with BADOP. The acknowledgement waits for the
commands that firmware has in progress; then it stops the controller and goes to LOADING. COMMIT there goes to MEASURING with
OK, elsewhere it ends with BADOP. A measurement that matches goes to STARTING, or waits until DROOP_WARN is low; STARTING
releases the controller on the new image, but one never released at start-up waits for that release; one that does not match
goes back to LOADING and is recorded. (R367, R426, R427, R428, R429) -/
def Obligations.LiveUpdate : Prop :=
  ∀ (r : Requester) (s : State), quiet s = true →
    (manages s r rFwUpd = true →
      ∃ u, exec (.begin r) s = .next u ∧ RegsOnly s u [rFwUpdst] ∧
        (recovering s = false → on s fKeyMpolLive = true → get s fFwUpdstState = 0 →
          get u fFwUpdstState = 1 ∧ get u fFwUpdstStatus = 0 ∧ get u fFwUpdstDt = s.now % 2 ^ 40) ∧
        (recovering s = true → get s fFwUpdstState = 0 → get u fFwUpdstState = 2 ∧ get u fFwUpdstStatus = 0) ∧
        (recovering s = false → on s fKeyMpolLive = false →
          get u fFwUpdstStatus = 6 ∧ get u fFwUpdstState = get s fFwUpdstState) ∧
        ((recovering s = true ∨ on s fKeyMpolLive = true) → get s fFwUpdstState ≠ 0 →
          get u fFwUpdstStatus = 15 ∧ get u fFwUpdstState = get s fFwUpdstState)) ∧
    (fwBusy s = true → exec .safepointAck s = .next s) ∧
    (get s fFwUpdstState = 1 → eclkRuns s = true → fwBusy s = false →
      ∃ u, exec .safepointAck s = .next u ∧ get u fFwUpdstState = 2 ∧ get u fSemaCtlPageEn = 0 ∧ get u fFwStatRun = 0 ∧
        get u fFwStatReady = 0 ∧ u.fw = { s.fw with stop := .update } ∧ u = { s with rf := u.rf, fw := u.fw } ∧
        SameRegs s u [rSemaCtl, rFwStat, rFwUpdst]) ∧
    (manages s r rFwUpd = true → get s fFwUpdstState = 2 →
      ∃ u, exec (.commit r) s = .next u ∧ get u fFwUpdstState = 3 ∧ get u fFwUpdstStatus = 0 ∧
        u.fw = { s.fw with measuring := true } ∧ u = { s with rf := u.rf, fw := u.fw } ∧ SameRegs s u [rFwUpdst]) ∧
    (manages s r rFwUpd = true → get s fFwUpdstState ≠ 2 →
      ∃ u, exec (.commit r) s = .next u ∧ get u fFwUpdstState = get s fFwUpdstState ∧ get u fFwUpdstStatus = 15 ∧
        RegsOnly s u [rFwUpdst]) ∧
    (s.fw.measuring = true → eclkRuns s = true → get s fFwUpdstState = 3 → s.flt.shadows = [] → resetsNothing s bFw 0 = true →
      ∃ u, exec .measured s = .next u ∧ (∀ j < 6, rd u (rFwMeas j) = (imageDigest s).getD j 0) ∧
        (measBad u = true → get u fFwUpdstState = 2 ∧ nbit (get u (fStatSticky bFw)) 0 = true) ∧
        (measBad u = false → s.clk.droop = true → get u fFwUpdstState = 4) ∧
        (measBad u = false → s.clk.droop = false → get u fFwUpdstState = 5 ∧
          (s.fw.released = true → get u fFwStatRun = 1 ∧ u.fw.stop = .running) ∧
          (s.fw.released = false → get u fFwStatRun = get s fFwStatRun ∧ u.fw.stop = .unreleased))) ∧
    (s.clk.droop = true → eclkRuns s = true → get s fFwUpdstState = 4 →
      ∃ u, exec (.droopWarn false) s = .next u ∧ get u fFwUpdstState = 5 ∧ u.clk = { s.clk with droop := false } ∧ u.fw.dmem = [] ∧
        (s.fw.released = true → get u fFwStatRun = 1 ∧ get u fFwStatReady = 0 ∧ u.fw.stop = .running) ∧
        (s.fw.released = false → rd u rFwStat = rd s rFwStat ∧ u.fw.stop = .unreleased) ∧
        u = { s with rf := u.rf, fw := u.fw, clk := u.clk } ∧ SameRegs s u [rFwUpdst, rFwStat, rFwCnt])

/-- A manager's 1 clears an unsealed sticky bit with its level reactions; a 1 to VALID clears an unsealed record and FDT,
leaving sticky bits. FSEV and FRCT take the fields of the block's sources, or, where a protected source would lose its
default, are refused whole and NODOWN_REFUSED is recorded. FINJ takes its fields while ARM is clear, ARM is set by a 1 and
DONE cleared by a 1; armed for the voted copies of TRS or TIME it strikes at the end of the command that arms it, which is the
model's reading (log entry 66): DONE is set, ARM clear and the mismatch recorded. FINJ of CLK ignores writes. The end of a
shadow drops the block's shadows whose time has come. (R370, R376, R379, R381, R384, R394, R400) -/
def Obligations.FaultRegistersWritten : Prop :=
  ∀ (r : Requester) (b : Nat) (d : Word) (s : State), quiet s = true → b < 17 →
    (manages s r (rFstat b) = true →
      ∃ u, exec (.fstat r b d) s = .next u ∧ SameRegs s u [rFstat b] ∧ get u (fStatFdt b) = get s (fStatFdt b) ∧
        (∀ i < 12, nbit (get u (fStatSticky b)) i =
          (nbit (get s (fStatSticky b)) i && !(nbit d.toNat i && !nbit (mgetD s.flt.sealedBits b 0) i))) ∧
        (∀ k, mgetD u.flt.levels k 0 = (if k / 16 = b ∧ k % 16 < 12 ∧ nbit d.toNat (k % 16) = true ∧
          nbit (mgetD s.flt.sealedBits b 0) (k % 16) = false then 0 else mgetD s.flt.levels k 0)) ∧
        u = { s with rf := u.rf, flt := { s.flt with levels := u.flt.levels } }) ∧
    (manages s r (rFfirst b) = true → nbit d.toNat 4 = true → (on s (fFirstValid b) && decide (get s (fFirstSev b) = 4)) = false →
      ∃ u, exec (.ffirst r b d) s = .next u ∧ rd u (rFfirst b) = 0 ∧ get u (fStatFdt b) = 0 ∧
        get u (fStatSticky b) = get s (fStatSticky b) ∧ RegsOnly s u [rFfirst b, rFstat b]) ∧
    (manages s r (rFfirst b) = true → (nbit d.toNat 4 = false ∨ (on s (fFirstValid b) = true ∧ get s (fFirstSev b) = 4)) →
      exec (.ffirst r b d) s = .next s) ∧
    (manages s r (rFsev b) = true →
      (sevBreaks s b d = none → ∃ u, exec (.fsev r b d) s = .next u ∧ rd u (rFsev b) = w64 (d.toNat % 2 ^ (3 * srcCount b)) ∧
        RegsOnly s u [rFsev b]) ∧
      (sevBreaks s b d ≠ none → s.flt.shadows = [] → ∃ u, exec (.fsev r b d) s = .next u ∧ Recorded s u bCore 8)) ∧
    (manages s r (rFrct b) = true →
      (rctBreaks s b d = none → ∃ u, exec (.frct r b d) s = .next u ∧ rd u (rFrct b) = w64 (d.toNat % 2 ^ (5 * srcCount b)) ∧
        RegsOnly s u [rFrct b]) ∧
      (rctBreaks s b d ≠ none → s.flt.shadows = [] → ∃ u, exec (.frct r b d) s = .next u ∧ Recorded s u bCore 8)) ∧
    (manages s r (rFinj b) = true → b ≠ bClk → ¬ (b = bCore ∧ (wbits d 0 4 = 0 ∨ wbits d 0 4 = 15)) →
      ¬ ((b = bTrs ∨ b = bTime) ∧ wbits d 0 4 = 15) →
      ∃ u, exec (.finj r b d) s = .next u ∧
        rd u (rFinj b) = (d &&& 0x1ffdfef#64) ||| (rd s (rFinj b) &&& ~~~d &&& 0x2000#64) ∧ RegsOnly s u [rFinj b]) ∧
    (manages s r (rFinj bTrs) = true → wbits d 0 4 = 15 → nbit d.toNat 12 = true → eclkRuns s = true → s.flt.shadows = [] →
      resetsNothing s bTrs 4 = true →
      ∃ u, exec (.finj r bTrs d) s = .next u ∧ wbits (rd u (rFinj bTrs)) 12 2 = 2 ∧ nbit (get u (fStatSticky bTrs)) 4 = true) ∧
    (manages s r (rFinj bTime) = true → wbits d 0 4 = 15 → nbit d.toNat 12 = true → s.flt.shadows = [] →
      resetsNothing s bTime 5 = true →
      ∃ u, exec (.finj r bTime d) s = .next u ∧ wbits (rd u (rFinj bTime)) 12 2 = 2 ∧ nbit (get u (fStatSticky bTime)) 5 = true) ∧
    (manages s r (rFinj bClk) = true → exec (.finj r bClk d) s = .next s) ∧
    (exec (.shadowEnd b) s = .next { s with flt := { s.flt with
      shadows := s.flt.shadows.filter fun x => !(decide (x.1 = b) && decide (x.2.2 ≤ s.now)) } })

/-- Outside any other block's shadow and link retry, an event sets its sticky bit alone; with no record held it writes SRC,
SEV, DETAIL and FDT, count 0; with a record held, which keeps its source and detail, it adds its bit to LATER and one to COUNT
up to 63, and S4 raises the severity kept. No other register changes. (R371, R376, R377, R378, R399) -/
def Obligations.FaultsRecorded : Prop :=
  ∀ (s : State) (b src detail : Nat), b < 17 → src < 12 → s.flt.shadows = [] → (b = 2 → src = 2 → anyRetry s = false) →
    let u := raise s b src detail
    (∀ i < 12, nbit (get u (fStatSticky b)) i = (decide (i = src) || nbit (get s (fStatSticky b)) i)) ∧
    (on s (fFirstValid b) = false → get u (fFirstValid b) = 1 ∧ get u (fFirstSrc b) = src ∧ get u (fFirstConseq b) = 0 ∧
      get u (fFirstRetry b) = 0 ∧ get u (fFirstSev b) = sevOf s b src ∧ get u (fFirstCount b) = 0 ∧ get u (fFirstLater b) = 0 ∧
      get u (fFirstDetail b) = detail % 2 ^ 30 ∧ get u (fStatFdt b) = s.now / 64 % 2 ^ 32) ∧
    (on s (fFirstValid b) = true → on s (fFirstConseq b) = false → get u (fFirstValid b) = 1 ∧
      get u (fFirstSrc b) = get s (fFirstSrc b) ∧ get u (fFirstDetail b) = get s (fFirstDetail b) ∧
      get u (fFirstCount b) = min 63 (get s (fFirstCount b) + 1) ∧
      (∀ i < 12, nbit (get u (fFirstLater b)) i = (decide (i = src) || nbit (get s (fFirstLater b)) i)) ∧
      get u (fFirstSev b) = (if sevOf s b src = 4 then 4 else get s (fFirstSev b)) ∧ get u (fStatFdt b) = get s (fStatFdt b)) ∧
    u = { s with rf := u.rf, flt := u.flt } ∧ SameRegs s u [rFstat b, rFfirst b]

/-- A clear sets the counters of its range to 0, and reads in its start cycle return the old values with BOUNDARY. A sample
that is due, once nothing due before it waits, with room in the ring and no record being written, becomes the record of R441
with the next sequence number; without room, or while a record is being written, it is counted lost, and the next record to be
taken says so. OBS_SAMP takes effect from now, starting the numbers anew when EN rises. OBS_RING is taken, with HEAD and TAIL
0, only while sampling is off. (R439, R440, R441, R442, R443) -/
def Obligations.CountersAndSamples : Prop :=
  ∀ (r : Requester) (d : Word) (s : State), quiet s = true →
    (∀ first last, served s r rObsCcmd = true → first ≤ last → last ≤ 511 →
      ∃ u, exec (.clear r first last) s = .next u ∧
        (∀ i, first ≤ i → i ≤ last → get u (fObsCvalValue i) = 0 ∧ counterSeen u i = (get s (fObsCvalValue i), true)) ∧
        (∀ off, (∀ i, first ≤ i → i ≤ last → off ≠ rObsCval i) → rd u off = rd s off) ∧
        u = { s with rf := u.rf, obs := { s.obs with clearing := u.obs.clearing } }) ∧
    (served s r rObsCcmd = true →
      ∃ u, exec (.clearAll r) s = .next u ∧
        (∀ i ≤ 511, get u (fObsCvalValue i) = 0 ∧ counterSeen u i = (get s (fObsCvalValue i), true)) ∧
        (∀ off, (∀ i ≤ 511, off ≠ rObsCval i) → rd u off = rd s off) ∧
        u = { s with rf := u.rf, obs := { s.obs with clearing := u.obs.clearing } }) ∧
    (eclkRuns s = true → on s fObsSampEn = true → nextSample s ≤ s.now →
      (frozen s = true ∨ (dueBy s (nextSample s) = false ∧ (frzState s = 1 → nextSample s < s.obs.frzT))) →
      (s.obs.writing = none → 16 + 8 * (sampleWords s).length ≤ ringRoom s →
        exec .sample s = .next { s with obs := { s.obs with
          sampleNo := (s.obs.sampleNo + 1) % 2 ^ 32, lastSample := nextSample s, wrapped := []
          writing := some ((w64 (nextSample s) ::
            w64 (s.obs.sampleNo + 2 ^ 32 * (sampleWords s).length + 2 ^ 42 * dieOf s + 2 ^ 48 * b2n (frozen s)
              + 2 ^ 49 * b2n s.obs.lostFlag) :: sampleWords s).flatMap fun w => bytesOf 8 w.toNat) } }) ∧
      (s.obs.writing ≠ none ∨ ringRoom s < 16 + 8 * (sampleWords s).length →
        ∃ u, exec .sample s = .next u ∧ get u fObsStatSlost = (get s fObsStatSlost + 1) % 2 ^ 32 ∧
          u.obs = { s.obs with
            sampleNo := (s.obs.sampleNo + 1) % 2 ^ 32, lastSample := nextSample s, wrapped := []
            lostFlag := s.obs.writing.isNone || s.obs.lostFlag, lostNext := s.obs.writing.isSome || s.obs.lostNext } ∧
          u = { s with rf := u.rf, obs := u.obs } ∧ SameRegs s u [rObsStat])) ∧
    (manages s r rObsSamp = true →
      ∃ u, exec (.obsSamp r d) s = .next u ∧ rd u rObsSamp = d &&& 0xff#64 ∧
        u.obs = (if nbit d.toNat 0 = true ∧ on s fObsSampEn = false then
          { s.obs with lastSample := s.now, sampleNo := 0, lostFlag := false, lostNext := false } else { s.obs with lastSample := s.now }) ∧
        u = { s with rf := u.rf, obs := u.obs } ∧ SameRegs s u [rObsSamp]) ∧
    (manages s r rObsRing = true →
      (on s fObsSampEn = false → ∃ u, exec (.obsRing r d) s = .next u ∧ rd u rObsRing = d &&& 0x0000fffffffff03f#64 ∧
        get u fObsRheadHead = 0 ∧ get u fObsRtailTail = 0 ∧ RegsOnly s u [rObsRing, rObsRhead, rObsRtail]) ∧
      (on s fObsSampEn = true → exec (.obsRing r d) s = .next s))

/-- Without an error the bytes of the sample record stand in external memory at the ring's place for HEAD, modulo its size,
every other byte is as before, and HEAD advances by the length; a trace record advances its own HEAD by 32 likewise. An error
counts the sample as lost, or the trace record as dropped, leaves memory as it was and records MPORT_ERR. That a trace record
whose write fails counts in TRDROP is the model's reading (log entry 67). (R398, R441, R442, R446, R489) -/
def Obligations.MasterPortResponses : Prop :=
  ∀ s : State, quiet s = true → s.clk.inReset = false → Memory.wf s.mem = true →
    (∀ bytes, s.obs.writing = some bytes → bytes.length ≤ 2 ^ ringLog (get s fObsRingLog2) →
      ∃ u, exec (.masterPortResponse .sample false) s = .next u ∧ u.obs.writing = none ∧ u.obs.lostFlag = s.obs.lostNext ∧
        get u fObsRheadHead = (get s fObsRheadHead + bytes.length) % 2 ^ 48 ∧
        (∀ k, k < bytes.length → memByte u.mem (4096 * get s fObsRingAddr
          + (get s fObsRheadHead + k) % 2 ^ ringLog (get s fObsRingLog2)) = bytes.getD k 0) ∧
        (∀ a, (∀ k, k < bytes.length → a ≠ 4096 * get s fObsRingAddr
          + (get s fObsRheadHead + k) % 2 ^ ringLog (get s fObsRingLog2)) → memByte u.mem a = memByte s.mem a) ∧
        u = { s with rf := u.rf, mem := u.mem, obs := { s.obs with writing := none, lostFlag := s.obs.lostNext, lostNext := false, wrapped := u.obs.wrapped } } ∧
        SameRegs s u [rObsRhead, rObsFix 62]) ∧
    (∀ bytes, s.obs.writing = some bytes → s.flt.shadows = [] → resetsNothing s bFw 7 = true →
      ∃ u, exec (.masterPortResponse .sample true) s = .next u ∧
        u.obs = { s.obs with writing := none, lostFlag := true, lostNext := false } ∧
        get u fObsStatSlost = (get s fObsStatSlost + 1) % 2 ^ 32 ∧ nbit (get u (fStatSticky bFw)) 7 = true ∧ u.mem = s.mem) ∧
    (∀ rec rest, s.obs.collector = rec :: rest → rec.length = 4 →
      ∃ u, exec (.masterPortResponse .trace false) s = .next u ∧
        get u fObsTrheadHead = (get s fObsTrheadHead + 32) % 2 ^ 48 ∧
        (∀ k, k < 32 → memByte u.mem (4096 * get s fObsTrringAddr
          + (get s fObsTrheadHead + k) % 2 ^ ringLog (get s fObsTrringLog2)) =
            BitVec.ofNat 8 ((rec.getD (k / 8) 0).toNat / 2 ^ (8 * (k % 8)))) ∧
        (∀ a, (∀ k, k < 32 → a ≠ 4096 * get s fObsTrringAddr
          + (get s fObsTrheadHead + k) % 2 ^ ringLog (get s fObsTrringLog2)) → memByte u.mem a = memByte s.mem a) ∧
        u.obs.collector = rest ∧ SameRegs s u [rObsTrhead, rObsFix 63]) ∧
    (∀ rec rest, s.obs.collector = rec :: rest → s.flt.shadows = [] → resetsNothing s bFw 7 = true →
      ∃ u, exec (.masterPortResponse .trace true) s = .next u ∧ u.obs.collector = rest ∧ u.mem = s.mem ∧
        get u fObsStatTrdrop = (get s fObsStatTrdrop + 1) % 2 ^ 32 ∧ nbit (get u (fStatSticky bFw)) 7 = true) ∧
    (s.flt.shadows = [] → resetsNothing s bFw 7 = true →
      ∃ u, exec (.masterPortResponse .other true) s = .next u ∧ Recorded s u bFw 7) ∧
    (exec (.masterPortResponse .other false) s = .next s) ∧
    (∀ t n, exec (.masterPortResponse (.paging t n) false) s = .next s) ∧
    (∀ t n i, s.flt.shadows = [] → resetsNothing s bSema 6 = true → htmIdx s t n = some i → (htmAt s i).state = .resident →
      ∃ u, exec (.masterPortResponse (.paging t n) true) s = .next u ∧ Recorded s u bSema 6)

/-- ARM in IDLE arms at OBS_FRZT, and DISARM takes it back. At the freeze tick, once the releases and expiries due at it have
taken effect, the state is STOPPING, and every port that is UP is to send a MARKER for that tick and owes one. When no port
owes one the state is FROZEN with its Deck Time. THAW thaws at once, THAWAT at OBS_THAWT; when the thaw tick has come the
state is THAWING. At its end the state is IDLE, and under HOLDTO the deadlines of what slices, banks, the paging queue and the
messages on Girder hold have advanced by the length of the freeze. (R304, R447, R448, R449, R451) -/
def Obligations.FreezeAndThaw : Prop :=
  ∀ (r : Requester) (holdto : Bool) (s : State), quiet s = true →
    (served s r rObsFrzcmd = true → frzState s = 0 → s.now ≤ (rd s rObsFrzt).toNat →
      ∃ u, exec (.arm r holdto) s = .next u ∧ rd u rObsFrzst = w64 (1 + 8 * b2n holdto) ∧
        u.obs = { s.obs with frzT := (rd s rObsFrzt).toNat, thawH := none } ∧ u = { s with rf := u.rf, obs := u.obs } ∧
        SameRegs s u [rObsFrzst]) ∧
    (served s r rObsFrzcmd = true → frzState s = 0 → (rd s rObsFrzt).toNat < s.now →
      ∃ u, exec (.arm r holdto) s = .next u ∧ frzState u = 2 ∧ get u fObsFrzstLate = 1 ∧ get u fObsFrzstHoldto = b2n holdto) ∧
    (served s r rObsFrzcmd = true → frzState s = 1 →
      ∃ u, exec (.disarm r) s = .next u ∧ frzState u = 0 ∧ RegsOnly s u [rObsFrzst]) ∧
    (eclkRuns s = true → frzState s = 1 → s.obs.frzT ≤ s.now → dueBy s s.obs.frzT = true → exec .freeze s = .next s) ∧
    (eclkRuns s = true → frzState s = 1 → s.obs.frzT ≤ s.now → dueBy s s.obs.frzT = false →
      ∃ u, exec .freeze s = .next u ∧ frzState u = 2 ∧ get u fObsFrzstLate = 0 ∧
        get u fObsFrzstUnaligned = b2n (decide (alState s ≠ alAligned)) ∧
          u.obs = { s.obs with cut := (List.range 8).filter fun n => isUp s n } ∧
        (∀ n < 8, rd u (rViaFrz n) = 0 ∧
          portSt u n = (if isUp s n then { portSt s n with mark := some s.obs.frzT } else portSt s n)) ∧
        (∀ off, off ≠ rObsFrzst → (∀ n < 8, off ≠ rViaFrz n) → rd u off = rd s off) ∧
        u = { s with rf := u.rf, obs := u.obs, ports := u.ports }) ∧
    (eclkRuns s = true → frzState s = 2 → s.obs.cut = [] →
      ∃ u, exec .frozen s = .next u ∧ frzState u = 3 ∧ get u fObsFrzstFdt = s.now % 2 ^ 40 ∧ RegsOnly s u [rObsFrzst] ∧
        ((∀ n < 8, on s (fViaFrzMlost n) = false ∧ on s (fViaFrzOvf n) = false) →
          get u fObsFrzstIncomplete = get s fObsFrzstIncomplete) ∧
        ((∃ n < 8, on s (fViaFrzMlost n) = true) → get u fObsFrzstIncomplete = 1)) ∧
    (served s r rObsFrzcmd = true → frzState s = 3 →
      (∃ u, exec (.thaw r) s = .next u ∧ frzState u = 4 ∧ u.obs = { s.obs with thawH := some s.now } ∧
        u = { s with rf := u.rf, obs := u.obs } ∧ SameRegs s u [rObsFrzst]) ∧
      (∃ u, exec (.thawat r) s = .next u ∧ frzState u = (if (rd s rObsThawt).toNat ≤ s.now then 4 else 3) ∧
        u.obs = { s.obs with thawH := some (rd s rObsThawt).toNat } ∧ u = { s with rf := u.rf, obs := u.obs } ∧
        SameRegs s u [rObsFrzst])) ∧
    (∀ h, eclkRuns s = true → frzState s = 3 → s.obs.thawH = some h → h ≤ s.now →
      ∃ u, exec .thawTick s = .next u ∧ frzState u = 4 ∧ RegsOnly s u [rObsFrzst]) ∧
    (∀ h, eclkRuns s = true → frzState s = 4 → s.obs.thawH = some h → s.ports = [] → s.lanes = [] →
      (∀ l < 64, on s (fTrsLcfgEn l) = false) →
      s.obs.deferred = [] → s.flt.putOff = [] →
      ∃ u, exec .thawingDone s = .next u ∧ frzState u = 0 ∧ u.obs.thawH = none ∧ u.obs.cut = [] ∧ u.mem = s.mem ∧
        (on s fObsFrzstHoldto = false → u.sema = s.sema ∧ u.gir = s.gir ∧ u.wk = s.wk) ∧
        (on s fObsFrzstHoldto = true →
          let d := h - s.obs.frzT
          u.sema = { s.sema with
            slots := s.sema.slots.map fun x => (x.1, advSlot d x.2)
            transit := s.sema.transit.map fun x => (x.1, x.2.1, advItem d x.2.2)
            early := s.sema.early.map (advItem d)
            paging := s.sema.paging.map fun p => { p with item := advItem d p.item } } ∧
          u.gir = { s.gir with
            wakes := s.gir.wakes.map fun x => (x.1, advWake d x.2)
            stalled := s.gir.stalled.map fun x => (x.1, advItem d x.2)
            cancels := s.gir.cancels.map fun x => (advCmd d x.1, x.2)
            notices := s.gir.notices.map fun x => (x.1, advCmd d x.2.1, x.2.2) }))

/-- A COPY or HANGSCAN outside FROZEN completes with BADOP, without firmware with BUSY_FW, and otherwise is BUSY until
firmware finishes it. A finished COPY has written the words of snapshot pages 0 to 15 to external memory on from
OBS_SNARG.ADDR; a finished HANGSCAN whose records fit has written them and an end record of zeros, NREC counting them. The
status is OK and every byte outside the written area is as before. The order of the records of a HANGSCAN, and that both
commands show the state in which they finish, are the model's readings (log entries 78 and 79). (R457, R458) -/
def Obligations.SnapshotCommands : Prop :=
  ∀ (r : Requester) (s : State), quiet s = true →
    (served s r rObsSncmd = true → on s fObsSnstBusy = false →
      (frzState s ≠ 3 → (∃ u, exec (.copy r) s = .next u ∧ get u fObsSnstStatus = 15 ∧ get u fObsSnstBusy = 0 ∧ RegsOnly s u [rObsSnst]) ∧
        ∃ u, exec (.hangscan r) s = .next u ∧ get u fObsSnstStatus = 15 ∧ get u fObsSnstBusy = 0 ∧ RegsOnly s u [rObsSnst]) ∧
      (frzState s = 3 → fwRuns s = false → (∃ u, exec (.copy r) s = .next u ∧ get u fObsSnstStatus = 14 ∧ get u fObsSnstBusy = 0) ∧
        ∃ u, exec (.hangscan r) s = .next u ∧ get u fObsSnstStatus = 14 ∧ get u fObsSnstBusy = 0) ∧
      (frzState s = 3 → fwRuns s = true →
        (∃ u, exec (.copy r) s = .next u ∧ get u fObsSnstBusy = 1 ∧ u.obs = { s.obs with sncmd := some false } ∧
          u = { s with rf := u.rf, obs := u.obs } ∧ SameRegs s u [rObsSnst]) ∧
        ∃ u, exec (.hangscan r) s = .next u ∧ get u fObsSnstBusy = 1 ∧ u.obs = { s.obs with sncmd := some true } ∧
          u = { s with rf := u.rf, obs := u.obs } ∧ SameRegs s u [rObsSnst])) ∧
    (eclkRuns s = true → fwRuns s = true → Memory.wf s.mem = true → s.obs.sncmd = some false →
      ∃ u, exec .sncmdDone s = .next u ∧ (∀ k < 2097152, mem64 u (snAddr s + 8 * k) = snapWord s k) ∧
        (∀ a, (a < snAddr s ∨ snAddr s + 16777216 ≤ a) → memByte u.mem a = memByte s.mem a) ∧ get u fObsSnstStatus = 0 ∧
        get u fObsSnstBusy = 0 ∧ u.obs = { s.obs with sncmd := none } ∧ u = { s with rf := u.rf, obs := u.obs, mem := u.mem } ∧
        SameRegs s u [rObsSnst]) ∧
    (eclkRuns s = true → fwRuns s = true → Memory.wf s.mem = true → s.obs.sncmd = some true →
      (hangRecords s).length + 1 ≤ max 1 (get s fObsSnargLen) →
      ∃ u, exec .sncmdDone s = .next u ∧
        (∀ k j, k < (hangRecords s).length → j < 4 → mem64 u (snAddr s + 32 * k + 8 * j) = ((hangRecords s).getD k []).getD j 0) ∧
        (∀ j < 4, mem64 u (snAddr s + 32 * (hangRecords s).length + 8 * j) = 0) ∧
        (∀ a, (a < snAddr s ∨ snAddr s + 32 * ((hangRecords s).length + 1) ≤ a) → memByte u.mem a = memByte s.mem a) ∧
        get u fObsSnstNrec = (hangRecords s).length % 2 ^ 32 ∧ get u fObsSnstTrunc = 0 ∧ get u fObsSnstStatus = 0 ∧
        get u fObsSnstBusy = 0 ∧ u = { s with rf := u.rf, obs := u.obs, mem := u.mem } ∧ SameRegs s u [rObsSnst])

/-- On a resident object of an unmirrored tenant whose slice has room, SETVAL of a legal value with nothing waiting leaves the
value, no release record and the signal record of Marionette, with the old value in MAR_OLD; of a value the kind cannot hold
it completes with BADOP and changes nothing but MAR_ST; behind a paused pass it waits, BUSY, in the input queue. READ leaves
the value in MAR_OLD. CANCEL_Q of a queue whose head waits away from its pier on this die sets a cancel for it under way;
CANCEL_W of an entry takes it from its object. Each of these four that is applied completes with OK and is counted. That
SETVAL leaves ROLE, and that it waits as an operation of the slice does, are the model's choices (log entries 117 and 123).
(R459, R460, R461) -/
def Obligations.MarionetteActs : Prop :=
  ∀ (r : Requester) (s : State), quiet s = true → manages s r rMarCmd = true → on s fMarStBusy = false → degradedOn s = false →
    (∀ i x, htmIdx s (get s fMarArg0Tenant) (get s fMarArg0Obj) = some i → (htmAt s i).state = .resident →
      let key := slotKey (htmAt s i).slice (htmAt s i).slot
      slotAt s key = some x → x.poison = false → (x.paired && s.flt.differ.contains key) = false →
      (setvalBad x.kind x.param (rd s rMarArg1) = false → x.waiters = [] → x.tries = [] → x.paused = false →
        mirrored s x.tenant = false → noCredit s (sliceOf key) = false →
        ∃ u, exec (.setval r) s = .next u ∧ rd u rMarOld = x.value ∧
          slotAt u key = some { x with
            value := rd s rMarArg1, rel := none, sig := some ⟨0x7FF, dieOf s, s.now, true⟩, lastSig := s.now
            due := if x.kind = .barrier then none else x.due, segs := if isPendingObj s key x then x.segs else [] } ∧
          (∀ k, k ≠ key → slotAt u k = slotAt s k) ∧
          get u fMarStStatus = 0 ∧ get u fMarStOp = 1 ∧ get u fMarStDt = s.now % 2 ^ 40 ∧
          get u fMarCntOps = (get s fMarCntOps + 1) % 2 ^ 32 ∧ u.mem = s.mem ∧ u.agents = s.agents) ∧
      (setvalBad x.kind x.param (rd s rMarArg1) = true → x.paused = false → mirrored s x.tenant = false →
        noCredit s (sliceOf key) = false →
        ∃ u, exec (.setval r) s = .next u ∧ get u fMarStStatus = 15 ∧ get u fMarStOp = 1 ∧ RegsOnly s u [rMarSt]) ∧
      (x.paused = true → mirrored s x.tenant = false → noCredit s (sliceOf key) = false →
        ∃ u, exec (.setval r) s = .next u ∧ get u fMarStBusy = 1 ∧ get u fMarStOp = 1 ∧ SameRegs s u [rMarSt] ∧
          (∃ w, slotAt u key = some { x with inq := x.inq ++ [(w, .setval (rd s rMarArg1))] }) ∧
          (∀ k, k ≠ key → slotAt u k = slotAt s k)) ∧
      (∃ u, exec (.marRead r) s = .next u ∧ rd u rMarOld = x.value ∧ get u fMarStStatus = 0 ∧ get u fMarStOp = 5 ∧
        get u fMarCntOps = (get s fMarCntOps + 1) % 2 ^ 32 ∧ u.sema = s.sema ∧ u.mem = s.mem ∧ u.agents = s.agents)) ∧
    (∀ i c, blockedHead s (get s fMarArg0Agent) (get s fMarArg0Queue) = some i → i.cmd = some c → i.st = .out → frozen s = false →
      isLane c.words = true ∨ pDie c.words = dieOf s →
      ∃ u, exec (.cancelQ r) s = .next u ∧ u.gir = { s.gir with cancels := s.gir.cancels ++ [(c, 5)] } ∧
        u.obs.marked = s.obs.marked ++ [markOf c] ∧ get u fMarStStatus = 0 ∧ get u fMarStOp = 2 ∧
        get u fMarCntOps = (get s fMarCntOps + 1) % 2 ^ 32 ∧ u.sema = s.sema ∧
        u.agents = s.agents ∧ u.mem = s.mem) ∧
    (blockedHead s (get s fMarArg0Agent) (get s fMarArg0Queue) = none →
      ∃ u, exec (.cancelQ r) s = .next u ∧ get u fMarStStatus = 15 ∧ get u fMarStOp = 2 ∧ RegsOnly s u [rMarSt]) ∧
    (∀ key w x, (allWaiters s).find? (fun x => decide (x.2.table = get s fMarArg0Slice) && decide (x.2.entry = wbits (rd s rMarArg1) 0 10))
        = some (key, w) → slotAt s key = some x →
      ∃ u, exec (.cancelW r) s = .next u ∧ get u fMarStStatus = 0 ∧ get u fMarStOp = 3 ∧
        get u fMarCntOps = (get s fMarCntOps + 1) % 2 ^ 32 ∧ get u fMarCntCancels = (get s fMarCntCancels + 1) % 2 ^ 32 ∧
        (∃ y, slotAt u key = some y ∧ y.value = x.value ∧ y.waiters.length = (x.waiters.filter fun v => decide (v ≠ w)).length) ∧
        (∀ k, k ≠ key → slotAt u k = slotAt s k) ∧ u.mem = s.mem)

/-- A served write to OBS_TRRING changes nothing while OBS_TRCTL.EN is set. With EN clear, one of a manager, which is an
accepted write, leaves the defined bits in OBS_TRRING, sets OBS_TRHEAD and OBS_TRTAIL to 0, and changes nothing else. (R463)
-/
def Obligations.TraceRingWrites : Prop :=
  ∀ (r : Requester) (d : Word) (s : State), quiet s = true → served s r rObsTrring = true →
    (on s fObsTrctlEn = true → exec (.obsTrring r d) s = .next s) ∧
    (on s fObsTrctlEn = false → isManager s r = true →
      ∃ u, exec (.obsTrring r d) s = .next u ∧ rd u rObsTrring = d &&& 0x0000fffffffff03f#64 ∧
        get u fObsTrheadHead = 0 ∧ get u fObsTrtailTail = 0 ∧ RegsOnly s u [rObsTrring, rObsTrhead, rObsTrtail])

/-- While CLK_GREQST.BUSY is set a served write to CLK_GREQ, to open or to close, changes nothing. Otherwise, outside a freeze
(R449), one that names a node above 97 completes at once: CLK_GREQST shows RESULT 3, the node and BUSY clear, and nothing else
changes. (R431) -/
def Obligations.GateRequestsIgnored : Prop :=
  ∀ (r : Requester) (n : Nat) (s : State), quiet s = true → served s r rClkGreq = true → n < 128 →
    (on s fClkGreqstBusy = true → exec (.gateOpen r n) s = .next s ∧ exec (.gateClose r n) s = .next s) ∧
    (on s fClkGreqstBusy = false → freezing s = false → 97 < n →
      (∃ u, exec (.gateOpen r n) s = .next u ∧ get u fClkGreqstResult = 3 ∧ get u fClkGreqstNode = n ∧ get u fClkGreqstBusy = 0 ∧
        RegsOnly s u [rClkGreqst]) ∧
      (∃ u, exec (.gateClose r n) s = .next u ∧ get u fClkGreqstResult = 3 ∧ get u fClkGreqstNode = n ∧ get u fClkGreqstBusy = 0 ∧
        RegsOnly s u [rClkGreqst]))

/-- While the tenant has an object that is BACKED, or a command in the paging queue, its own or on an object of its own, a
served write to SEMA_BACK that clears EN or changes ADDR leaves the register, and everything outside the record of the fault,
as it was. (R55) -/
def Obligations.BackingRegionHeld : Prop :=
  ∀ (r : Requester) (t : Nat) (d : Word) (s : State), quiet s = true → t < 256 → served s r (rSemaBack t) = true →
    s.flt.shadows = [] → resetsNothing s bSema 8 = true →
    ((∃ x ∈ allocatedOf s t, x.2.state = .backed) ∨ (∃ p ∈ s.sema.paging, p.item.tenant = some t ∨ (ownerOf s p.index).map (·.1) = some t)) →
    ((on s (fSemaBackEn t) = true ∧ wbits d 0 1 = 0) ∨ wbits d 12 36 ≠ get s (fSemaBackAddr t)) →
      ∃ u, exec (.semaBack r t d) s = .next u ∧ rd u (rSemaBack t) = rd s (rSemaBack t) ∧
        u = { s with rf := u.rf, flt := u.flt } ∧ SameRegs s u [rFstat bSema, rFfirst bSema]

/-- A REQ is answered on its port with the stamps of R328, of which that of the answer can only move on as its codeword is
formed (log entry 9). The awaited RESP of the parent records theta and delta and counts an exchange; in WAIT a parent that is
ALIGNED brings FINE, with a step forward once where theta reaches STEPTHR; in FINE eight exchanges in a row within a quarter
of a ns bring ALIGNED where the route to the master is not broken; the residual is left to the slew. In ALIGNED a theta beyond
4 ns sets OOB and records it; in every state one within 4 ns clears it. A COARSE at the master is noted, and the last one ends
GATHER: the master steps to M and is ALIGNED. (R326, R328, R329, R330, R331, R332) -/
def Obligations.SyncMessagesActed : Prop :=
  ∀ (n : Nat) (h : Hdr) (m : Sync) (rx tx : Nat) (s : State), delivers s n h = true →
    (∃ u, exec (.syncReq n h m rx tx) s = .next u ∧
      (portSt u n).sent = (portSt s n).sent ++ [⟨⟨dieOf s, h.src, 0, 0, 0⟩,
        .syncResp ⟨decide (alState s = alAligned), m.xseq, m.t1, rx - get s (fDtPortcalRxlat n), tx + get s (fDtPortcalTxlat n)⟩ 0⟩] ∧
      (∀ k, k ≠ n → portSt u k = portSt s k) ∧ u = { s with ports := u.ports }) ∧
    (s.dt.answered = false → m.xseq = s.dt.xseq → (parentOf s).map (·.1) = some n → s.flt.shadows = [] →
      let theta := thetaOf m.t1 m.t2 m.t3 (rx - get s (fDtPortcalRxlat n))
      let rec_ (u : State) : Prop := exec (.syncResp n h m rx) s = .next u ∧ get u fDtAlstatTheta = sat16s theta ∧
        get u fDtAlstatDelay = sat16u (deltaOf m.t1 m.t2 m.t3 (rx - get s (fDtPortcalRxlat n))) ∧
        get u fDtCntSyncx = (get s fDtCntSyncx + 1) % 2 ^ 32 ∧ u.dt.answered = true ∧
        (theta.natAbs ≤ 64 → on u fDtStatOob = false)
      (alState s = alWait → m.aligned = true → -stepThr s < theta → theta < stepThr s →
        ∃ u, rec_ u ∧ alState u = alFine ∧ u.dt = { s.dt with answered := true, good := 0, slew := theta } ∧ u.now = s.now ∧
          SameRegs s u [rDtAlstat, rDtCnt, rDtStat]) ∧
      (alState s = alWait → m.aligned = true → stepThr s ≤ theta → on s fDtStatStepped = false →
        ∃ u, rec_ u ∧ alState u = alFine ∧ u.now = s.now + (theta / 16).toNat ∧ on u fDtStatStepped = true ∧
          u.dt.slew = theta - 16 * (theta / 16).toNat ∧ SameRegs s u [rDtAlstat, rDtCnt, rDtStat, rDtStep]) ∧
      (alState s = alWait → m.aligned = true → theta ≤ -stepThr s → resetsNothing s bTime 2 = true →
        ∃ u, rec_ u ∧ alState u = alFailed ∧ nbit (get u (fStatSticky bTime)) 2 = true ∧ u.now = s.now) ∧
      (alState s = alFine → (4 < theta.natAbs ∨ s.dt.good < 7) →
        ∃ u, rec_ u ∧ alState u = alFine ∧ u.now = s.now ∧
          u.dt = { s.dt with answered := true, slew := theta, good := if theta.natAbs ≤ 4 then s.dt.good + 1 else 0 }) ∧
      (alState s = alFine → theta.natAbs ≤ 4 → 7 ≤ s.dt.good → s.span.aligned.contains (dieOf s) = true →
        (isMaster s = true ∨ (masterRoute s).any (isBroken s) = false) →
        ∃ u, rec_ u ∧ alState u = alAligned ∧ u.now = s.now ∧ u.dt.slew = theta) ∧
      (alState s = alAligned → theta.natAbs ≤ get s fDtAlctlDriftthr → theta.natAbs ≤ 64 →
        ∃ u, rec_ u ∧ alState u = alAligned ∧ on u fDtStatOob = false ∧ u.dt = { s.dt with answered := true, slew := theta } ∧
          u.now = s.now ∧ SameRegs s u [rDtAlstat, rDtCnt, rDtStat]) ∧
      (alState s = alAligned → 64 < theta.natAbs → on s fDtStatOob = false → resetsNothing s bTime 3 = true →
        resetsNothing s bTime 4 = true →
        ∃ u, rec_ u ∧ alState u = alAligned ∧ on u fDtStatOob = true ∧ nbit (get u (fStatSticky bTime)) 3 = true)) ∧
    (isMaster s = true → alState s = alGather → h.src < 64 →
      let others := (members s).filter fun d => decide (d ≠ dieOf s)
      ((∃ d ∈ others, d ≠ h.src ∧ nbit (rd s rDtHeard).toNat d = false) →
        ∃ u, exec (.coarse n h m) s = .next u ∧ nbit (rd u rDtHeard).toNat h.src = true ∧ alState u = alGather ∧
          u.dt = { s.dt with maxCoarse := max s.dt.maxCoarse m.t1 } ∧ u.now = s.now ∧ SameRegs s u [rDtHeard]) ∧
      ((∀ d ∈ others, d < 64 ∧ (d = h.src ∨ nbit (rd s rDtHeard).toNat d = true)) →
        (∀ d ∈ others, inReach s d = false ∧ s.span.aligned.contains d = false) →
        ∃ u, exec (.coarse n h m) s = .next u ∧ alState u = alAligned ∧ on u fDtStatStepped = true ∧
          u.now = (max s.now (max s.dt.maxCoarse m.t1 / 16) / 2 ^ 20 + 2) * 2 ^ 20 ∧
          SameRegs s u [rDtHeard, rDtAlstat, rDtStat, rDtStep]))

/-- ALIGN in IDLE makes a die alone ALIGNED at once, the master of others GATHER, and any other die send its COARSE towards
the master and WAIT. A REQ leaves for the parent when its period has come. GLIM ends GATHER as the last COARSE does; ALIM
makes a die that has not been ALIGNED FAILED and records it. A slew step takes one sixteenth off the residual, at most one in
every 2^SLEW dt. That REQ and COARSE leave at a given time is the command's operand (log entry 9). (R316, R326, R330, R331,
R339) -/
def Obligations.AlignmentAdvances : Prop :=
  ∀ (r : Requester) (tx : Nat) (s : State), quiet s = true →
    (manages s r rDtCmd = true → freezing s = false → alState s = alIdle →
      (spanMode s = 0 → ∃ u, exec (.align r tx) s = .next u ∧ alState u = alAligned ∧ u.now = s.now ∧
        u.dt = { s.dt with alignAt := s.now, maxCoarse := 0, good := 0, lastReq := s.now, answered := true } ∧
        u = { s with rf := u.rf, dt := u.dt, span := u.span } ∧ SameRegs s u [rDtAlstat]) ∧
      (spanMode s ≠ 0 → isMaster s = true → 2 ≤ (members s).length →
        ∃ u, exec (.align r tx) s = .next u ∧ alState u = alGather ∧
          u.dt = { s.dt with alignAt := s.now, maxCoarse := 0, good := 0, lastReq := s.now, answered := true } ∧
          u = { s with rf := u.rf, dt := u.dt } ∧ SameRegs s u [rDtAlstat]) ∧
      (spanMode s ≠ 0 → isMaster s = false →
        ∃ u, exec (.align r tx) s = .next u ∧ alState u = alWait ∧
          (portSt u (masterPort s)).sent = (portSt s (masterPort s)).sent ++ [⟨⟨dieOf s, 0, 0, 0, 0⟩,
            .coarse ⟨false, 0, tx + get s (fDtPortcalTxlat (masterPort s)), 0, 0⟩⟩] ∧
          u.dt = { s.dt with alignAt := s.now, maxCoarse := 0, good := 0, lastReq := s.now, answered := true } ∧
          u = { s with rf := u.rf, dt := u.dt, ports := u.ports } ∧ SameRegs s u [rDtAlstat])) ∧
    (∀ k p d, period s = some k → parentOf s = some (p, d) → s.dt.lastReq + k ≤ s.now → isUp s p = true → eclkRuns s = true →
      ∃ u, exec (.exchange tx) s = .next u ∧
        (portSt u p).sent = (portSt s p).sent ++ [⟨⟨dieOf s, d, 0, 0, 0⟩,
          .syncReq ⟨decide (alState s = alAligned), (s.dt.xseq + 1) % 65536, tx + get s (fDtPortcalTxlat p), 0, 0⟩ 0 0⟩] ∧
        u.dt = { s.dt with xseq := (s.dt.xseq + 1) % 65536, lastReq := s.now, answered := false } ∧
        (∀ q, q ≠ p → portSt u q = portSt s q) ∧ u = { s with dt := u.dt, ports := u.ports }) ∧
    (alState s = alGather → s.dt.alignAt + glimOf s ≤ s.now →
      (∀ d ∈ members s, d = dieOf s ∨ (inReach s d = false ∧ s.span.aligned.contains d = false)) →
      ∃ u, exec .glim s = .next u ∧ alState u = alAligned ∧ on u fDtStatStepped = true ∧
        u.now = (max s.now (s.dt.maxCoarse / 16) / 2 ^ 20 + 2) * 2 ^ 20 ∧ SameRegs s u [rDtAlstat, rDtStat, rDtStep]) ∧
    (alState s ≠ alIdle → alState s ≠ alFailed → s.span.aligned.contains (dieOf s) = false →
      s.dt.alignAt + us (100 * max 1 (get s fDtAlctlAlim)) ≤ s.now → s.flt.shadows = [] → resetsNothing s bTime 2 = true →
      ∃ u, exec .alim s = .next u ∧ alState u = alFailed ∧ nbit (get u (fStatSticky bTime)) 2 = true ∧
        u = { s with rf := u.rf, flt := u.flt } ∧ SameRegs s u [rDtAlstat, rFstat bTime, rFfirst bTime]) ∧
    (s.dt.slew ≠ 0 → s.dt.lastSlew + 2 ^ max 4 (min 10 (get s fDtAlctlSlew)) ≤ s.now →
      ∃ u, exec .slewStep s = .next u ∧ u.dt.slew.natAbs + 1 = s.dt.slew.natAbs ∧
        u.dt = { s.dt with slew := u.dt.slew, lastSlew := s.now } ∧
        u = { s with dt := u.dt })

/-- A manager's REMEASURE with no measurement under way sets BUSY. When every measured pier has answered or had 10 us BUSY
clears and DONE sets, and each with 16 probes has the offset of R323, VALID, which its Deck Time takes on at once in the first
measurement and from where it stood in a later one. A pier that has not answered in 10 us has its offset invalid and is
recorded. A pier whose client clock restarts is no longer stopped. The multiplier's lock sets LOCK; the loss of ZS_DTREF after
it sets HOLDOVER and is recorded, its return clears HOLDOVER. (R315, R321, R323, R324, R325, R333) -/
def Obligations.OffsetsAndReference : Prop :=
  ∀ (r : Requester) (s : State), quiet s = true →
    (manages s r rDtCmd = true → on s fDtPmstatBusy = false → freezing s = false →
      (∃ u, exec (.remeasureAll r) s = .next u ∧ get u fDtPmstatBusy = 1 ∧
        u.dt = { s.dt with measure := some none, measAt := s.now, failed := [] } ∧
        u = { s with rf := u.rf, dt := u.dt } ∧ SameRegs s u [rDtPmstat]) ∧
      ∀ p, ∃ u, exec (.remeasureOne r p) s = .next u ∧ get u fDtPmstatBusy = 1 ∧
        u.dt = { s.dt with measure := some (some p), measAt := s.now, failed := [] } ∧
        u = { s with rf := u.rf, dt := u.dt } ∧ SameRegs s u [rDtPmstat]) ∧
    (∀ probes : List (Nat × List (Nat × Nat × Nat)), s.dt.measure ≠ none → (∀ x ∈ s.net.piers, x.pier < 2048) →
      let late := unanswered s probes
      (late ≠ [] → s.now < s.dt.measAt + 10000 → exec (.pmeasDone probes) s = .next s) ∧
      (late = [] ∨ (s.dt.measAt + 10000 ≤ s.now ∧ s.flt.shadows = [] ∧ resetsNothing s bTime 1 = true) →
        ∃ u, exec (.pmeasDone probes) s = .next u ∧ get u fDtPmstatBusy = 0 ∧ get u fDtPmstatDone = 1 ∧
          u.dt = { s.dt with measure := none, failed := s.dt.failed ++ late } ∧
          u = { s with rf := u.rf, dt := u.dt, piers := u.piers, flt := u.flt } ∧
          (∀ q, pierSt u q = { pierSt s q with ofs := (pierSt u q).ofs, ofsAt := (pierSt u q).ofsAt }) ∧
          (∀ p x l, pierNet s p = some x → measuring s x = true → s.dt.failed.contains p = false → (pierSt s p).stopped = false →
            (p, l) ∈ probes → l.length = 16 → (∀ y ∈ probes, y.1 = p → y = (p, l)) →
            get u (fDtPofsOfs p) = (offsetOf l % 2 ^ 32).toNat ∧ get u (fDtPofsValid p) = 1 ∧
            ofsNow u p = (if on s fDtPmstatDone then ofsNow s p else ofsTarget u p)) ∧
          (∀ p ∈ late, get u (fDtPofsOfs p) = 0 ∧ get u (fDtPofsValid p) = 0 ∧ nbit (get u (fStatSticky bTime)) 1 = true) ∧
          (late = [] → u.flt = s.flt ∧ rd u (rFstat bTime) = rd s (rFstat bTime) ∧ rd u (rFfirst bTime) = rd s (rFfirst bTime)) ∧
          (∀ off, off ≠ rDtPmstat → off ≠ rFstat bTime → off ≠ rFfirst bTime → (∀ y ∈ probes, off ≠ rDtPofs y.1) →
            (∀ p ∈ late, off ≠ rDtPofs p) → rd u off = rd s off))) ∧
    (∀ p x, pierNet s p = some x → measuring s x = true → p < 2048 → s.dt.measAt + 10000 ≤ s.now → s.dt.failed.contains p = false →
      s.flt.shadows = [] → resetsNothing s bTime 1 = true →
      ∃ u, exec (.pmeasFail p) s = .next u ∧ get u (fDtPofsOfs p) = 0 ∧ get u (fDtPofsValid p) = 0 ∧
        nbit (get u (fStatSticky bTime)) 1 = true ∧ u.dt = { s.dt with failed := s.dt.failed ++ [p] } ∧
        (∀ q, pierSt u q = { pierSt s q with ofs := (pierSt u q).ofs, ofsAt := (pierSt u q).ofsAt }) ∧
        u = { s with rf := u.rf, flt := u.flt, piers := u.piers, dt := u.dt } ∧ SameRegs s u [rDtPofs p, rFstat bTime, rFfirst bTime]) ∧
    (∀ p x, pierNet s p = some x →
      ∃ u, exec (.pierClockRestart p) s = .next u ∧ (pierSt u p).stopped = false ∧ (∀ q, q ≠ x.pier → pierSt u q = pierSt s q) ∧
        u = { s with agents := u.agents, piers := u.piers }) ∧
    (s.clk.inReset = false → ∃ u, exec .multiplierLock s = .next u ∧ on u fDtStatLock = true ∧ RegsOnly s u [rDtStat]) ∧
    (on s fDtStatLock = true → on s fDtStatHoldover = false → s.flt.shadows = [] → resetsNothing s bTime 0 = true →
      ∃ u, exec .refLost s = .next u ∧ on u fDtStatHoldover = true ∧ on u fDtStatLock = true ∧
        nbit (get u (fStatSticky bTime)) 0 = true ∧ u = { s with rf := u.rf, flt := u.flt } ∧
        SameRegs s u [rDtStat, rFstat bTime, rFfirst bTime]) ∧
    (∃ u, exec .refReturn s = .next u ∧ on u fDtStatHoldover = false ∧ RegsOnly s u [rDtStat])

/-- An EPOCH of a newer epoch brings the tenant to that epoch and RESETTING, and one of a current or older epoch does nothing.
A NOTICE not seen before is forwarded on every other UP port of the group and the state it names is known; one seen before
does nothing. A MARKER on a port that owes one ends its capture with MARK set, whatever T it carries, which is the model's
reading (log entry 25); 10 us without one sets MLOST and INCOMPLETE and records MARKER_LOST. The premises keep out what other
dies' reach states would bring about. (R300, R304, R305, R330, R357, R358) -/
def Obligations.GroupKnowledge : Prop :=
  ∀ (n : Nat) (s : State), n < 8 → quiet s = true →
    (∀ h o rs, delivers s n h = true → isNewer (epochOf s h.tenant) h.epoch = true → mirrorOn s = false → boundAgents s h.tenant = [] →
      s.lanes = [] → (∀ l < 64, get s (fTrsLcfgTenant l) ≠ h.tenant) → s.abc.ctxs = [] → s.sema.slots = [] →
      ∃ u, exec (.epoch n h o rs) s = .next u ∧ epochOf u h.tenant = h.epoch ∧ (tenSt u h.tenant).st = .resetting ∧
        (∀ v, v ≠ h.tenant → tenSt u v = tenSt s v)) ∧
    (∀ h o rs, delivers s n h = true → isNewer (epochOf s h.tenant) h.epoch = false →
      ∃ u, exec (.epoch n h o rs) s = .next u ∧ u = { s with ports := u.ports } ∧ (∀ k, k ≠ n → portSt u k = portSt s k) ∧
        portSt u n = { portSt s n with rxMsgs := (portSt u n).rxMsgs, owed := (portSt u n).owed }) ∧
    (∀ m : Notice, eclkRuns s = true → isUp s n = true → s.span.seen.contains (m.origin, m.number) = false → settled s = true →
      m.origin ≠ dieOf s →
      (∀ p, m.port = some p → ∃ u, exec (.notice n m) s = .next u ∧
        (∀ k < 8, (portSt u k).notes = (portSt s k).notes ++ (if k ≠ n ∧ groupPort s k = true ∧ isUp s k = true then [m] else [])) ∧
        linkOf u m.origin p = m.state ∧ u.span.seen = (m.origin, m.number) :: s.span.seen ∧
        u = { s with span := u.span, ports := u.ports }) ∧
      (m.port = none → m.state = alAligned → s.span.aligned.contains (dieOf s) = false →
        ∃ u, exec (.notice n m) s = .next u ∧ u.span.aligned.contains m.origin = true ∧
          (∀ k < 8, (portSt u k).notes = (portSt s k).notes ++ (if k ≠ n ∧ groupPort s k = true ∧ isUp s k = true then [m] else [])) ∧
          u = { s with span := u.span, ports := u.ports })) ∧
    (∀ m : Notice, s.span.seen.contains (m.origin, m.number) = true → exec (.notice n m) s = .next s) ∧
    (∀ t, eclkRuns s = true → freezing s = true → isUp s n = true → s.obs.cut.contains n = true → on s (fViaFrzMlost n) = false →
      ∃ u, exec (.marker n t) s = .next u ∧ on u (fViaFrzMark n) = true ∧
        u.obs = { s.obs with cut := s.obs.cut.filter fun p => decide (p ≠ n) } ∧
        u = { s with rf := u.rf, obs := u.obs } ∧ SameRegs s u [rViaFrz n]) ∧
    (eclkRuns s = true → freezing s = true → s.obs.cut.contains n = true → s.obs.frzT + 10000 ≤ s.now → s.flt.shadows = [] →
      resetsNothing s (bVia n) 7 = true →
      ∃ u, exec (.markerLost n) s = .next u ∧ on u (fViaFrzMlost n) = true ∧ get u fObsFrzstIncomplete = 1 ∧
        nbit (get u (fStatSticky (bVia n))) 7 = true ∧
        u.obs = { s.obs with cut := s.obs.cut.filter fun p => decide (p ≠ n) } ∧ u = { s with rf := u.rf, obs := u.obs, flt := u.flt } ∧
        SameRegs s u [rViaFrz n, rObsFrzst, rFstat (bVia n), rFfirst (bVia n)])

/-- A codeword that cannot be corrected, on a port that is UP, is counted, a NAK is due and later flits are skipped until the
expected one comes; an idle transmitter sends the NAK at once in the codeword it sends. A good DATA flit with the expected
number moves the number on and ends the skipping; another number begins it. A NAK drops the flits it acknowledges and has the
rest sent again. An alignment codeword that matches brings lock, also as the codeword received where one is due; the fourth
missed in a row loses it. (R273, R276, R277, R283, R284, R285) -/
def Obligations.FlitsReceived : Prop :=
  ∀ (n : Nat) (cw : BitVec 1360) (s : State), n < 8 → quiet s = true → eclkRuns s = true →
    let x := portSt s n
    (x.st = .up → x.locked = true → alignDue x = false → rsDecode (symbolsOf 136 cw.toNat) = none →
      (∃ u, exec (.data n cw) s = .next u ∧ get u (fViaFeccntUncorr n) = min 65535 (get s (fViaFeccntUncorr n) + 1) ∧
        (portSt u n).skipping = true ∧ (portSt u n).rxSeq = x.rxSeq ∧ (portSt u n).rxMsgs = x.rxMsgs) ∧
      (x.resend = [] → x.replay = [] → x.mark = none → x.notes = [] → x.txOpen = none → x.sent = [] → x.owed = [] →
        (x.txCw + 1) % 16384 ≠ 0 →
        ∃ u, exec (.data n cw) s = .next u ∧
          portSt u n = { x with
            rxCw := x.rxCw + 1, txCw := x.txCw + 1, skipping := true, nakOut := false
            lastTx := some (codewordOf (flitBits idleFlit ((x.rxSeq + 1023) % 1024) true 0 0)) } ∧
          u = { s with rf := u.rf, ports := u.ports } ∧ SameRegs s u [rViaFeccnt n] ∧ ∀ k, k ≠ n → portSt u k = portSt s k)) ∧
    (∀ data, x.st = .up → x.locked = true → alignDue x = false → rsDecode (symbolsOf 136 cw.toNat) = some (data, []) → frozen s = false →
      s.flt.shadows = [] →
      resetsNothing s (bVia n) 4 = true → x.replay = [] → x.resend = [] →
      let flit := ofSymbols data
      crcOf 157 flit = flit / 2 ^ 1256 → flit % 16 = 1 → flit.testBit 24 = false →
      ∃ u, exec (.data n cw) s = .next u ∧ (portSt u n).lastGood = s.now ∧
        (flit / 16 % 1024 = x.rxSeq → (portSt u n).rxSeq = (x.rxSeq + 1) % 1024 ∧ (portSt u n).skipping = false) ∧
        (flit / 16 % 1024 ≠ x.rxSeq → (portSt u n).rxSeq = x.rxSeq ∧ (portSt u n).skipping = true ∧ (portSt u n).rxMsgs = x.rxMsgs)) ∧
    (∀ a i, isUp s n = true → (x.replay.findIdx? fun r => decide (r.flit.seq = a)) = some i → x.replay.drop (i + 1) ≠ [] →
      ((x.replay.drop (i + 1)).all fun r => decide (r.attempts < 8)) = true →
      ∃ u, exec (.nak n a) s = .next u ∧ portSt u n = { x with
          replay := x.replay.drop (i + 1), resend := (x.replay.drop (i + 1)).map fun r => r.flit.seq } ∧
        get u (fViaLnkcntReplays n) = (get s (fViaLnkcntReplays n) + 1) % 2 ^ 24 ∧
        (∀ k, k ≠ n → portSt u k = portSt s k) ∧ u = { s with rf := u.rf, ports := u.ports } ∧ SameRegs s u [rViaLnkcnt n, rViaLstat n]) ∧
    ((x.st = .up ∨ x.st = .init) →
      let next := (x.rxCw / (if x.service then 16384 else 64) + 1) * (if x.service then 16384 else 64)
      exec (.alignmentCodeword n true) s = .next (setPort s n { x with locked := true, missed := 0, rxCw := 0 }) ∧
      (alignDue x = true → cw = alignCodeword (linkLanes s n) →
        ∃ u, exec (.data n cw) s = .next u ∧ (portSt u n).locked = true ∧ (portSt u n).missed = 0 ∧ (portSt u n).rxCw = 0 ∧
          (portSt u n).rxSeq = x.rxSeq ∧ (portSt u n).rxMsgs = x.rxMsgs) ∧
      (x.locked = true → x.missed = 3 →
        exec (.alignmentCodeword n false) s = .next (setPort s n
          { x with missed := 4, locked := false, unlockedAt := s.now, rxCw := next })) ∧
      (x.missed < 3 → exec (.alignmentCodeword n false) s = .next (setPort s n { x with missed := x.missed + 1, rxCw := next })))

/-- Where nothing of the span group hangs on the die's links, a port that is UP enters DOWN when a flit has had 8 attempts or
2 us, when no flit has passed for 2 us, when lock has been lost for 1 us, on loss of signal, and on VIAn_CTL.DOWN: its replay
buffer and credits are gone, RETRY is clear, DOWNS counts it and LINK_DOWN is recorded. A training whose limit passes in its
state enters DOWN, or at once FAILED with its record where TRIES in a row have then failed, which is the model's reading (log
entry 51); one that fails in ALIGN leaves the lane faults found, an open value (log entry 142). On a die of a live group
without a mirror a loss of signal on a port that is UP has the same effect on that port, whatever other dies are lost with the
link; no other port changes its state. (R276, R285, R286, R291, R300, R306) -/
def Obligations.LinksGoDown : Prop :=
  (∀ (n : Nat) (r : Requester) (s : State), n < 8 → quiet s = true → eclkRuns s = true → settled s = true → s.flt.shadows = [] →
    resetsNothing s (bVia n) 0 = true → resetsNothing s (bVia n) 1 = true →
    let x := portSt s n
    let regs := [rViaLstat n, rViaLnkcnt n, rFstat (bVia n), rFfirst (bVia n)] ++ (List.range 12).map fun v => rViaLcred n v
    let down (u : State) : Prop := (portSt u n).st = .down ∧ (portSt u n).since = s.now ∧ (portSt u n).replay = [] ∧
      (portSt u n).sent = [] ∧ (portSt u n).hold = x.hold ∧ (∀ v < 12, get u (fViaLcredCred n v) = 0) ∧ get u (fViaLstatRetry n) = 0 ∧
      get u (fViaLnkcntDowns n) = min 255 (get s (fViaLnkcntDowns n) + 1) ∧
      (∀ k, k ≠ n → { portSt u k with notes := [] } = { portSt s k with notes := [] })
    let lost (u : State) : Prop := down u ∧ nbit (get u (fStatSticky (bVia n))) 0 = true ∧
      u = { s with rf := u.rf, ports := u.ports, span := u.span, flt := u.flt } ∧ SameRegs s u regs
    (x.st = .up →
      ((x.replay.any fun r => decide (8 ≤ r.attempts) || (!frozen s && decide (r.first + 2000 ≤ s.now))) = true →
        ∃ u, exec (.retryBound n) s = .next u ∧ lost u) ∧
      (x.lastGood + 2000 ≤ s.now → ∃ u, exec (.receiveTimeout n) s = .next u ∧ lost u) ∧
      (x.locked = false → x.unlockedAt + 1000 ≤ s.now → ∃ u, exec (.lockLost n) s = .next u ∧ lost u) ∧
      (∃ u, exec (.los n) s = .next u ∧ lost u)) ∧
    (manages s r (rViaCtl n) = true → on s (fViaCtlEn n) = true → linkActive s n = true →
      ∃ u, exec (.portDown r n) s = .next u ∧ down u ∧ on u (fViaCtlDown n) = true ∧
        (x.st = .up → nbit (get u (fStatSticky (bVia n))) 0 = true)) ∧
    (∀ c st f unit, ((c = Instr.pmaLim n ∧ st = .pmaTune ∧ f = fViaTctlPmaLim n ∧ unit = 1000000) ∨
        (c = Instr.alignLim n ∧ st = .align ∧ f = fViaTctlAlignLim n ∧ unit = 1000) ∨
        (c = Instr.initLim n ∧ st = .init ∧ f = fViaTctlInitLim n ∧ unit = 1000)) →
      x.st = st → x.since + unit * max 1 (get s f) ≤ s.now →
      (x.fails + 1 < max 1 (get s (fViaTctlTries n)) →
        ∃ u, exec c s = .next u ∧ down u ∧ (portSt u n).fails = x.fails + 1 ∧ SameRegs s u regs ∧
          (st = .align → get u (fViaLstatLanebad n) = (Config.laneFaults s.fresh).toNat)) ∧
      (max 1 (get s (fViaTctlTries n)) ≤ x.fails + 1 →
        ∃ u, exec c s = .next u ∧ (portSt u n).st = .failed ∧ (portSt u n).fails = x.fails + 1 ∧
          nbit (get u (fStatSticky (bVia n))) 1 = true ∧ SameRegs s u regs ∧ (st = .align →
            get u (fViaLstatLanebad n) = (Config.laneFaults s.fresh).toNat)))) ∧
  (∀ (n : Nat) (s : State), n < 8 → quiet s = true → eclkRuns s = true → s.flt.shadows = [] → (portSt s n).st = .up →
    mirrorOn s = false → resetsNothing s (bVia n) 0 = true →
    ∃ u, exec (.los n) s = .next u ∧ (portSt u n).st = .down ∧ (portSt u n).since = s.now ∧ (portSt u n).replay = [] ∧
      nbit (get u (fStatSticky (bVia n))) 0 = true ∧ (∀ k, k ≠ n → (portSt u k).st = (portSt s k).st))

/-- Where nothing of the span group hangs on the die's links: the end of PMA training leads to ALIGN, where one codeword sent
in 64 is an alignment codeword; 16 matching alignment codewords lead to INIT, with the lanes' state in VIAn_LSTAT and WIDTH2
recorded, but on two lanes only with W2_EN, else just the lane faults are kept; a matching INIT flit notes the peer, another
sets WIRING, is recorded and fails the training, at once for good where TRIES in a row have then failed, which is the model's
reading (log entry 51); then the link comes UP with full credits. After REHOLD a port that is DOWN trains again under AUTO.
Setting EN takes RATE, PRECODE and W2EN, opens the port's gate and begins a training; clearing it leads to OFF. The premise
that nothing hangs on the links leaves out the dies of a live group. (R275, R287, R291, R292, R293, R300, R313, R413) -/
def Obligations.LinksTrain : Prop :=
  ∀ (n : Nat) (r : Requester) (s : State), n < 8 → quiet s = true → eclkRuns s = true → settled s = true → s.flt.shadows = [] →
    (∀ k < 4, resetsNothing s (bVia n) k = true) →
    let x := portSt s n
    (x.st = .pmaTune → exec (.tuneDone n) s = .next (setPort s n { x with st := .align, since := s.now, txCw := 0 })) ∧
    (∀ cw, x.st = .align → (x.txCw + 1) % 64 = 0 →
      exec (.data n cw) s = .next (setPort s n { x with txCw := 0, lastTx := some (alignCodeword 4) })) ∧
    (∀ (rev : Bool) (pol bad : BitVec 4), x.st = .align → on s (fViaCtlW2En n) = false →
      ∃ u, exec (.alignLock n true rev pol bad) s = .next u ∧ get u (fViaLstatLanebad n) = bad.toNat ∧ RegsOnly s u [rViaLstat n]) ∧
    (∀ (w rev : Bool) (pol bad : BitVec 4), x.st = .align → (w = true → on s (fViaCtlW2En n) = true) →
      ∃ u, exec (.alignLock n w rev pol bad) s = .next u ∧ (portSt u n).st = .init ∧ (portSt u n).since = s.now ∧
        (portSt u n).locked = true ∧ (portSt u n).initOk = false ∧ get u (fViaLstatWidth n) = b2n w ∧
        get u (fViaLstatReversed n) = b2n rev ∧ get u (fViaLstatPolinv n) = pol.toNat ∧ get u (fViaLstatLanebad n) = bad.toNat ∧
        (w = true → nbit (get u (fStatSticky (bVia n))) 3 = true) ∧ (∀ k, k ≠ n → portSt u k = portSt s k) ∧
        u = { s with rf := u.rf, ports := u.ports, flt := u.flt } ∧ SameRegs s u [rViaLstat n, rFstat (bVia n), rFfirst (bVia n)]) ∧
    (∀ f : InitFlit, x.st = .init →
      (initMatches s n f = true →
        ∃ u, exec (.init n f) s = .next u ∧ portSt u n = { x with initOk := true } ∧ get u (fViaLstatPeerdie n) = f.die % 64 ∧
          get u (fViaLstatPeerport n) = f.port % 8 ∧ (∀ k, k ≠ n → portSt u k = portSt s k) ∧
          u = { s with rf := u.rf, ports := u.ports } ∧ SameRegs s u [rViaLstat n]) ∧
      (initMatches s n f = false →
        ∃ u, exec (.init n f) s = .next u ∧ on u (fViaLstatWiring n) = true ∧ nbit (get u (fStatSticky (bVia n))) 2 = true ∧
          (portSt u n).fails = x.fails + 1 ∧
          (portSt u n).st = (if max 1 (get s (fViaTctlTries n)) ≤ x.fails + 1 then .failed else .down))) ∧
    (x.st = .init → x.initOk = true →
      ∃ u, exec (.linkUp n) s = .next u ∧ (portSt u n).st = .up ∧ (portSt u n).since = s.now ∧ (portSt u n).txSeq = 0 ∧
        (portSt u n).rxSeq = 0 ∧ (portSt u n).replay = [] ∧ (portSt u n).locked = true ∧ (portSt u n).hold = x.hold ∧
        (∀ v < 12, get u (fViaLcredCred n v) = (if v = 6 then 3072 else if v = 7 then 1024 else if v % 2 = 0 then 512 else 256)) ∧
        (∀ k, k ≠ n → { portSt u k with notes := [] } = { portSt s k with notes := [] }) ∧
        u = { s with rf := u.rf, ports := u.ports, span := u.span } ∧ SameRegs s u ((List.range 12).map fun v => rViaLcred n v)) ∧
    (x.st = .down → on s (fViaCtlEn n) = true → on s (fViaCtlAuto n) = true → on s (fViaCtlDown n) = false →
      x.since + 1000 * max 1 (get s (fViaTctlRehold n)) ≤ s.now →
      exec (.rehold n) s = .next (setPort s n { x with st := .pmaTune, since := s.now })) ∧
    (∀ d : Word, manages s r (rViaCtl n) = true → on s (fViaCtlEn n) = false → (x.st = .off ∨ x.st = .failed) → wbits d 0 1 = 1 →
      wbits d 5 1 = 0 →
      ∃ u, exec (.portEn r n d) s = .next u ∧ (portSt u n).st = .pmaTune ∧ (portSt u n).since = s.now ∧ (portSt u n).fails = 0 ∧
        get u (fViaCtlEn n) = 1 ∧ get u (fViaCtlRate n) = wbits d 1 1 ∧ get u (fViaCtlPrecode n) = wbits d 2 1 ∧
        get u (fViaCtlW2En n) = wbits d 3 1 ∧ get u (fViaCtlAuto n) = wbits d 4 1 ∧ get u (fViaCtlDown n) = 0 ∧
        gateOn u (89 + n) = true ∧ gateOn u 0 = true ∧ u = { s with rf := u.rf, ports := u.ports } ∧
        SameRegs s u [rViaCtl n, rClkGopen0, rClkGopen1]) ∧
    (∀ d : Word, manages s r (rViaCtl n) = true → on s (fViaCtlEn n) = true → linkActive s n = true → wbits d 0 1 = 0 → wbits d 5 1 = 0 →
      ∃ u, exec (.portEn r n d) s = .next u ∧ (portSt u n).st = .off ∧ get u (fViaCtlEn n) = 0 ∧
        get u (fViaCtlRate n) = get s (fViaCtlRate n) ∧
        get u (fViaCtlAuto n) = wbits d 4 1 ∧ (∀ v < 12, get u (fViaLcredCred n v) = 0) ∧
          get u (fStatSticky (bVia n)) = get s (fStatSticky (bVia n)) ∧
        (∀ k, k ≠ n → { portSt u k with notes := [] } = { portSt s k with notes := [] }))

/-- While AQ_RDY is high an entry written for a queue is taken: a packet of 32 bytes, or an extended packet with its fourth
entry, joins the end of the queue unissued, with the index of its first entry; the entries before the fourth wait beside the
queue. Nothing else changes. While AQ_RDY is low nothing changes. (R58, R72, R477) -/
def Obligations.EntriesTaken : Prop :=
  ∀ (p ag q a : Nat) (n : PierNet) (d : BitVec 256) (s : State), quiet s = true → pierRuns s = true → q < 4 →
    pierNet s p = some n → agentAt n ag = some a → (pierSt s p).stopped = false →
    let x := queueOf s a q
    let ws := x.part ++ [d.extractLsb' 0 64, d.extractLsb' 64 64, d.extractLsb' 128 64, d.extractLsb' 192 64]
    let ext := decide (16 ≤ pOpcode ws) && decide (pOpcode ws ≤ 23)
    let taken (y : Queue) : Prop := ∃ u, exec (.aqValid p ag q d) s = .next u ∧ queueOf u a q = y ∧
      (∀ b r, (b, r) ≠ (a, q) → queueOf u b r = queueOf s b r) ∧
      (∀ b, { agentSt u b with queues := [] } = { agentSt s b with queues := [] }) ∧ u = { s with agents := u.agents }
    (aqReady s a q = false → exec (.aqValid p ag q d) s = .next s) ∧
    (aqReady s a q = true →
      (ext = true → ws.length ≠ 16 → taken { x with part := ws, tail := (x.tail + 1) % 16 }) ∧
      (ext = true → ws.length = 16 →
        taken { x with
          items := x.items ++ [⟨(x.tail + 13) % 16, ws, .unissued, none, [], false, none, 0, 0, 0⟩], part := []
          tail := (x.tail + 1) % 16 }) ∧
      (ext = false →
        taken { x with
          items := x.items ++ [⟨x.tail, ws, .unissued, none, [], false, none, 0, 0, 0⟩], part := [], tail := (x.tail + 1) % 16 }))

/-- Every command, whatever its opcode: one that fails a check of its pier answers with that check's status and VALUE 0, a
ROUTE with the mask of all its entries and REMOTE where one names another die, or with the cause DISABLE where it blocks and
its port is disabled, and has no effect; the checks are made in the order of R92, and some are named. One of a tenant that is
not ACTIVE stalls. One that would stall ends with FULL under TRY. One for another die leaves as a message on the first port of
its route, with its stamp and the next QSEQ of its queue, and holds a credit there; for a die that is LOST it ends with
RESOURCE, with cause 3 where it blocks. These replies carry the Deck Time that the pier read as it issued the command. That
the issuing die is the DIE of such a cause, and that the row of SIG_ADD issues a packet of an undefined opcode, are the
model's choices, as is how an ordinary pier reads its Deck Time (log entries 95, 10 and 110). (R60, R79, R89, R90, R92, R280,
R288, R289) -/
def Obligations.CommandsAtThePier : Prop :=
  ∀ (a q : Nat) (p : PierNet) (i : Item) (s : State),
    let c := stamp s p a q i
    let d := pDie i.words
    let cmd := rowOf a q i.words
    let answers (r : Reply) : Prop := ∃ u, exec cmd s = .next u ∧
      Becomes s u a q i (i.answered s c { r with
        rflags := if isLane i.words = false ∧ pOp i.words ≠ some .route ∧ d ≠ dieOf s then r.rflags ||| 128#8 else r.rflags }) ∧
      u.sema = s.sema ∧ u.rt = s.rt ∧ u.lanes = s.lanes ∧ u.abc = s.abc ∧ u.ports = s.ports ∧ u.mem = s.mem ∧ SameButCounters s u []
    let plainly (st : Status) : Reply :=
      if pOp i.words = some .route then
        ⟨w64 (2 ^ (pNent i.words + 1) - 1), st, if ((routeEntries i.words).any fun e => decide (e.die ≠ dieOf s)) = true then 128 else 0, c.issue⟩
      else ⟨0, st, 0, c.issue⟩
    let free := drainScope i.words = none ∧ (pOp i.words = some .fence → clearBefore s a q i = true)
    issues s a q p i = true →
    (∀ st, pierCheck s c = some st → st ≠ .disabled → answers (plainly st)) ∧
    (pierCheck s c = some .disabled →
      answers (if blocking i.words = true then ⟨causeWord 8 (dieOf s) 0, .disabled, 64, c.issue⟩ else plainly .disabled)) ∧
    (degradedOn s = true → isLane i.words = false → pierCheck s c = some .degraded) ∧
    (degradedOn s = false → (agentSt s a).port ≠ .open → pierCheck s c = some .disabled) ∧
    (degradedOn s = false → (agentSt s a).port = .open →
      (pOp i.words = none ∨ 1024 ≤ pFlags i.words ∨ (fREL i.words = true ∧ 4 < pScope i.words) → pierCheck s c = some .badop) ∧
      (pOp i.words = some .sigAdd → pFlags i.words = 0 →
        (on s (fAgtBindBound a) = false ∨ isMember s d = false → pierCheck s c = some .prot) ∧
        (on s (fAgtBindBound a) = true → isMember s d = true → on s (fTenCfgMirrored c.tenant) = false → pierCheck s c = none))) ∧
    (pierCheck s c = none → free → (tenSt s c.tenant).st ≠ .active →
      ∃ u, exec cmd s = .next u ∧ Becomes s u a q i { i.issued s c (.stalled .tenant) with since := s.order + 2 } ∧ u.sema = s.sema ∧
        AtHome s u p.pier []) ∧
    (∀ why, pierCheck s c = none → free → (tenSt s c.tenant).st = .active → pierStall s c = some why →
      (fTRY i.words = true → answers (plainly .full)) ∧
      (fTRY i.words = false →
        ∃ u, exec cmd s = .next u ∧ Becomes s u a q i { i.issued s c (.stalled why) with since := s.order + 2 } ∧ u.sema = s.sema ∧
          AtHome s u p.pier [])) ∧
    (passes s c = true → free → isLane i.words = false → pOp i.words ≠ some .route → d ≠ dieOf s →
      (inLost s d = true →
        answers (if blocking i.words = true then ⟨causeWord 3 (dieOf s) 0, .resource, 64, c.issue⟩ else plainly .resource)) ∧
      (∀ k, inLost s d = false → nextPort s (dieOf s) d = some k →
        let n := mgetD (agentSt s a).qseq (64 * q + d) 0
        ∃ u, exec cmd s = .next u ∧
          (portSt u k).sent = (portSt s k).sent ++ [⟨⟨dieOf s, d, c.tenant, c.epoch, n⟩,
            if isExt (pOpcode i.words) = true then .xcmd c else .cmd c⟩] ∧
          (∀ m, m ≠ k → portSt u m = portSt s m) ∧
          dropSkips (queueOf u a q).items = dropSkips (mapFirst (fun j => decide (j = i))
            (fun _ => { i.issued s c .out with credits := [k], qseq := some n }) (queueOf s a q).items) ∧
          (agentSt u a).qseq = mset (agentSt s a).qseq (64 * q + d) 0 ((n + 1) % 65536) ∧ u.sema = s.sema ∧ u.mem = s.mem ∧
          SameButCounters s u []))

/-- A SIG_ADD, SIG_SUB or GIVE without REL that its pier issues and that reaches its object answers a next state. A COUNT
changes by the operand unless it would pass 2^63 (OVERFLOW) or fall below 0 (UNDERFLOW), which leave it; a SEQ changes modulo
2^64; an EVENT is set by a nonzero add, OVERRUN and one more OVR when it is set already, and cleared by a nonzero subtraction;
a POOL takes a GIVE up to its capacity, POOL_OVERFLOW past it; every other pairing is BADOP with VALUE 0. VALUE is otherwise
the new value. A change writes the signal record. Other objects, queues and every register but counters keep their values.
(R23, R24, R25, R26, R47, R60, R67, R76, R78, R82, R84, R455) -/
def Obligations.SignalsApply : Prop :=
  ∀ (a q key : Nat) (p : PierNet) (i : Item) (x : Slot) (op : Op) (s : State),
    let c := stamp s p a q i
    issues s a q p i = true → departs s c = true → homes s c key x = true → unwatched x = true →
    pOp i.words = some op → (op = .sigAdd ∨ op = .sigSub ∨ op = .give) →
    ∃ (u : State) (v : Word) (ovr : Nat) (st : Status) (out : Word), exec (rowOf a q i.words) s = .next u ∧
      (let n := pOperand i.words
       match x.kind, op with
       | .count, .sigAdd => if x.value.toNat + n.toNat < 2 ^ 63
           then v = x.value + n ∧ ovr = x.ovr ∧ st = .ok ∧ out = v else v = x.value ∧ ovr = x.ovr ∧ st = .overflow ∧ out = v
       | .count, .sigSub => if n.toNat ≤ x.value.toNat
           then v = x.value - n ∧ ovr = x.ovr ∧ st = .ok ∧ out = v else v = x.value ∧ ovr = x.ovr ∧ st = .underflow ∧ out = v
       | .seq, .sigAdd => v = x.value + n ∧ ovr = x.ovr ∧ st = .ok ∧ out = v
       | .seq, .sigSub => v = x.value - n ∧ ovr = x.ovr ∧ st = .ok ∧ out = v
       | .event, .sigAdd => if n = 0 then v = x.value ∧ ovr = x.ovr ∧ st = .ok ∧ out = v
           else if x.value.toNat % 2 = 1 then v = x.value ∧ ovr = min 255 (x.ovr + 1) ∧ st = .overrun ∧ out = v
           else v = 1 ∧ ovr = x.ovr ∧ st = .ok ∧ out = v
       | .event, .sigSub => if n = 0 then v = x.value ∧ ovr = x.ovr ∧ st = .ok ∧ out = v
           else v = 0 ∧ ovr = x.ovr ∧ st = .ok ∧ out = v
       | .pool, .give => if x.value.toNat + n.toNat ≤ x.param.toNat
           then v = x.value + n ∧ ovr = x.ovr ∧ st = .ok ∧ out = v
           else v = x.value ∧ ovr = x.ovr ∧ st = .poolOverflow ∧ out = v
       | _, _ => v = x.value ∧ ovr = x.ovr ∧ st = .badop ∧ out = 0) ∧
      Becomes s u a q i (i.answered s c ⟨out, st, 0, s.now⟩) ∧
      SlotBecomes s u key { x with
        value := v, ovr := ovr
        sig := if v ≠ x.value then some ⟨a, dieOf s, s.now, false⟩ else x.sig
        lastSig := if v ≠ x.value then s.now else x.lastSig } ∧
      AtHome s u p.pier []

/-- A POLL that reaches its object answers OK with the value; a FENCE without REL before which every earlier command it waits
for has its reply answers OK with VALUE 0, and before that it is held at its queue's head and nothing else changes; held so,
it goes on once they have. The object keeps its record. An acquire whose scope, or the release's, does not contain the two
agents records SCOPE_MISMATCH, counts it, and answers as before. (R67, R78, R82, R88, R257) -/
def Obligations.ReadsAnswer : Prop :=
  ∀ (a q key : Nat) (p : PierNet) (i : Item) (x : Slot) (s : State), s.flt.shadows = [] → resetsNothing s bSema 9 = true →
    (let c := stamp s p a q i
     let fits := match x.rel with
       | none => true
       | some r => !fACQ i.words || scopeHolds (min r.scope (pScope i.words)) r.agent r.pier r.die a p.pier (dieOf s)
     let answers (c : Cmd) (v : Word) (cmd : Instr) : Prop := ∃ u, exec cmd s = .next u ∧
       Becomes s u a q i (i.answered s c ⟨v, .ok, 0, s.now⟩) ∧ SlotBecomes s u key x ∧
       (fits = true → AtHome s u p.pier []) ∧
       (fits = false → AtHome { s with flt := u.flt } u p.pier [rSemaSmcnt, rFstat bSema, rFfirst bSema] ∧
         get u fSemaSmcntMismatch = (get s fSemaSmcntMismatch + 1) % 2 ^ 32 ∧ nbit (get u (fStatSticky bSema)) 9 = true)
     (∀ d : Cmd, resumes s a q p i d = true → pOp i.words = some .fence → i.st = .fenced → drainScope i.words = none →
        homes s d key x = true → fenceClear s d = true → fits = true →
        ∃ u, exec (.fence a q) s = .next u ∧ Becomes s u a q i (i.replied s d ⟨0, .ok, 0, s.now⟩) ∧ SlotBecomes s u key x ∧
          AtHome s u p.pier []) ∧
     (issues s a q p i = true →
       (pOp i.words = some .poll → departs s c = true → homes s c key x = true → answers c x.value (.poll a q)) ∧
       (pOp i.words = some .fence → departs s c = true → homes s c key x = true → clearBefore s a q i = true → answers c 0 (.fence a q)) ∧
       (pOp i.words = some .fence → passes s c = true → clearBefore s a q i = false →
         ∃ u, exec (.fence a q) s = .next u ∧ Becomes s u a q i (i.issued s c .fenced) ∧ u.sema = s.sema ∧ AtHome s u p.pier [])))

/-- A wait that reaches its object is rejected with BADOP where the kind or the target does not allow it. Satisfied by the
value, on an object that is not pending or whatever it is where the operand 0 satisfies, it answers OK at once with IMM:
WAIT_GE with the value before, WAIT_TAKE and TAKE with what is left, an EVENT with the value it consumes; the object holds
what is left. Unsatisfied, it ends with TIMEOUT, cause 1 and the low half of the value where TIMEOUT is 0 or its deadline has
passed; else it takes a free entry of the home table, the oldest of the object, while the tenant has waiter entries left; and
is refused, to be presented again 256 ns after its pier read its Deck Time or with TRY ended with FULL, once it has none. No
other object, queue or register but counters and the named ones changes. That an EVENT's WAIT_TAKE answers the value consumed,
where R78's row gives the word after the take, and that a WAIT_GE of 0 on a pending POOL waits, are the model's choices (log
entries 96 and 99). (R67, R69, R70, R78, R79, R83, R97, R98, R101, R102, R118, R126) -/
def Obligations.WaitsEvaluated : Prop :=
  ∀ (a q key : Nat) (p : PierNet) (i : Item) (x : Slot) (op : Op) (s : State), s.flt.shadows = [] →
    let c := stamp s p a q i
    issues s a q p i = true → departs s c = true → homes s c key x = true → unwatched x = true →
    (tenSt s x.tenant).st ≠ .quiescing → pOp i.words = some op → (op = .waitGe ∨ op = .waitTake ∨ op = .take) →
    (∀ r, x.rel = some r → fACQ i.words = true →
      scopeHolds (min r.scope (pScope i.words)) r.agent r.pier r.die a p.pier (dieOf s) = true) →
    let n := if op = .take then w64 (wbits (pOperand i.words) 0 48) else pOperand i.words
    let answers (r : Reply) (v : Word) : Prop := ∃ u, exec (rowOf a q i.words) s = .next u ∧
      Becomes s u a q i (i.answered s c r) ∧
      SlotBecomes s u key { x with
        value := v, sig := if v ≠ x.value then some ⟨a, dieOf s, s.now, false⟩ else x.sig
        lastSig := if v ≠ x.value then s.now else x.lastSig } ∧ AtHome s u p.pier []
    let legal := match x.kind, op with
      | .count, .take => False
      | .count, _ => n.toNat < 2 ^ 63
      | .seq, .waitGe => True
      | .event, .take => False
      | .event, _ => True
      | .pool, _ => n.toNat ≤ x.param.toNat
      | .barrier, .waitGe => True
      | _, _ => False
    let met := match x.kind with
      | .count => n.toNat ≤ x.value.toNat
      | .seq => (x.value - n).toNat < 2 ^ 63
      | .event => x.value.toNat % 2 = 1
      | .pool => n.toNat ≤ x.value.toNat
      | .barrier => barPhase x.value ≠ nbit n.toNat 0
    let left : Word := match x.kind, op with
      | .event, _ => 0
      | .count, .waitTake => x.value - n
      | .pool, .waitTake => x.value - n
      | .pool, .take => x.value - n
      | _, _ => x.value
    let ready := met ∧ (isPendingObj s key x = false ∨ (n = 0 ∧ (x.kind = .count ∨ (x.kind = .pool ∧ op ≠ .waitGe))))
    (¬ legal → answers ⟨0, .badop, 0, s.now⟩ x.value) ∧
    (legal → ready →
      answers ⟨if op = .waitGe ∨ x.kind = .event then x.value else left, .ok, 1, s.now⟩ left) ∧
    (legal → ¬ ready → (pTimeout i.words = 0 ∧ isPendingObj s key x = false) ∨ (pTimeout i.words ≠ 0 ∧ ∃ d, c.deadline = some d ∧
      d < s.now) →
      answers ⟨causeWord 1 (dieOf s) (x.value.toNat % 2 ^ 32), .timeout, 64, s.now⟩ x.value) ∧
    (legal → ¬ ready → pTimeout i.words ≠ 0 → (∀ d, c.deadline = some d → s.now ≤ d) →
      (tenWaits s c.tenant < 64 * get s (fTenShare0Waits c.tenant) → tableUse s (sliceOf key) < 1024 → sliceOn s (sliceOf key) = true →
        ∃ (u : State) (e : Nat), exec (rowOf a q i.words) s = .next u ∧ Becomes s u a q i (i.issued s c .out) ∧
          e ∈ freeEntries s (sliceOf key) ∧
          SlotBecomes s u key { x with
            waiters := [⟨c, n, sliceOf key, e, 1, s.now + us (max 10 (get s fWaitWdogLimit)), none⟩]
            segs := [(1, sliceOf key, 1)] } ∧
          AtHome { s with fresh := s.fresh + 1 } u p.pier [fWaitHwmBlockedHwm.off]) ∧
      (64 * get s (fTenShare0Waits c.tenant) ≤ tenWaits s c.tenant →
        (fTRY i.words = true → ∃ u, exec (rowOf a q i.words) s = .next u ∧
          Becomes s u a q i (i.answered s c ⟨0, .full, 0, c.issue⟩) ∧ SlotBecomes s u key x ∧
          AtHome s u p.pier [fWaitCnt2Refused.off, (fWaitTuseRefused c.tenant).off]) ∧
        (fTRY i.words = false → ∃ u, exec (rowOf a q i.words) s = .next u ∧
          Becomes s u a q i (i.issued s c (.refused .bound (c.issue + 256))) ∧ SlotBecomes s u key x ∧
          AtHome s u p.pier [fWaitCnt2Refused.off, (fWaitTuseRefused c.tenant).off])))

/-- A command with REL, and every ARRIVE_COMBINE, that passes the pier's checks, of a queue with no drain under way, is held
and its drain begins with its SCOPE, or the AGENT scope without REL; nothing else changes. Its acknowledgement counts the
drain, ends it and lets the command go on: a signal that takes effect on its object leaves a release record of its agent,
pier, die and SCOPE. A drain in progress for DRLIM records DRAIN_SLOW once and counts it. (R243, R244, R245, R246, R256, R480)
-/
def Obligations.ReleaseDrains : Prop :=
  ∀ (a q key : Nat) (p : PierNet) (i : Item) (x : Slot) (s : State),
    (let c := stamp s p a q i
     ∀ sc, issues s a q p i = true → passes s c = true → (queueOf s a q).drain = none →
     ((fREL i.words = true ∧ sc = pScope i.words) ∨ (fREL i.words = false ∧ pOp i.words = some .arriveCombine ∧ sc = 0)) →
     (pOp i.words = some .fence → clearBefore s a q i = true) →
     ∃ u, exec (rowOf a q i.words) s = .next u ∧
       dropSkips (queueOf u a q).items
         = dropSkips (mapFirst (fun k => decide (k = i)) (fun _ => i.issued s c .draining) (queueOf s a q).items) ∧
       (queueOf u a q).drain = some ⟨s.now, sc, c, false⟩ ∧
       (∀ b r, (b, r) ≠ (a, q) → queueOf u b r = queueOf s b r) ∧ u.sema = s.sema ∧ AtHome s u p.pier []) ∧
    (∀ (ag : Nat) (d : Drain) (c : Cmd) (op : Op) (n : Word), agentAt p ag = some a → resumes s a q p i c = true →
      i.st = .draining → (queueOf s a q).drain = some d → d.cmd = c →
      ((queueOf s a q).items.find? fun j => decide (j.st = .draining)) = some i →
      pOp i.words = some op → (op = .sigAdd ∨ op = .sigSub) → x.kind = .seq → n = pOperand i.words → n ≠ 0 →
      fREL i.words = true → homes s c key x = true → unwatched x = true →
      let v := if op = .sigAdd then x.value + n else x.value - n
      ∃ u, exec (.drAck p.pier (4 * ag + q) false) s = .next u ∧ (queueOf u a q).drain = none ∧
        dropSkips (queueOf u a q).items
          = dropSkips (mapFirst (fun k => decide (k = i)) (fun _ => i.replied s c ⟨v, .ok, 0, s.now⟩) (queueOf s a q).items) ∧
        SlotBecomes s u key { x with
          value := v, sig := some ⟨a, dieOf s, s.now, false⟩, lastSig := s.now
          rel := some ⟨a, p.pier, dieOf s, pScope i.words⟩ } ∧
        get u fPierOrdcnt0Drains = (get s fPierOrdcnt0Drains + 1) % 2 ^ 32 ∧
        AtHome s u p.pier [fPierOrdcnt0Drains.off, fPierOrdhwmDrainHwm.off]) ∧
    (∀ d : Drain, quiet s = true → eclkRuns s = true → s.flt.shadows = [] → resetsNothing s bPier 2 = true →
      (queueOf s a q).drain = some d →
      (d.slow = false → d.start + 1000 * max 1 (get s fPierOrdctlDrlim) ≤ s.now →
        ∃ u, exec (.drainSlow a q) s = .next u ∧ queueOf u a q = { queueOf s a q with drain := some { d with slow := true } } ∧
          (∀ b r, (b, r) ≠ (a, q) → queueOf u b r = queueOf s b r) ∧
          get u fPierOrdcnt1Drslow = (get s fPierOrdcnt1Drslow + 1) % 2 ^ fPierOrdcnt1Drslow.w ∧
          nbit (get u (fStatSticky bPier)) 2 = true ∧ u = { s with rf := u.rf, agents := u.agents, flt := u.flt } ∧
          SameRegs s u [fPierOrdcnt1Drslow.off, rFstat bPier, rFfirst bPier]) ∧
      (d.slow = true ∨ s.now < d.start + 1000 * max 1 (get s fPierOrdctlDrlim) → exec (.drainSlow a q) s = .next s))

/-- An ARRIVE that reaches a COUNTING or CONDITIONAL barrier with no phase held counts one arrival, and at a CONDITIONAL one
sets the member's arrived bit. The last required arrival completes an untimed phase without a combine: PHASE inverts, the rest
of the value word and the arrived bits clear, ROLE clears, and it answers OK with the phase it completed; a bound combine
entry whose phase was aborted goes on to the next phase with it; on a TIMED barrier it arms the phase with the release time of
R147. Where it does not complete the phase, a SPLIT arrival answers OK with the open phase, a try-once one, or one whose
deadline has passed, ends with TIMEOUT, and any other takes a waiter entry. A held phase refuses it for 256 ns and counts the
refusal, before every other check (log entry 98); a follower and any other kind answer BADOP, a number that is no member
NONMEMBER, a member already arrived BADOP. MEMBER changes one window, answers the number of members, completes an untimed
phase when the change leaves no member outstanding, and is BADOP with the unchanged number where it would drop a member that
has arrived. (R70, R78, R133, R134, R136, R137, R142, R143, R144, R147, R75) -/
def Obligations.ArrivalsRecorded : Prop :=
  ∀ (a q key : Nat) (p : PierNet) (i : Item) (x : Slot) (s : State),
    let c := stamp s p a q i
    issues s a q p i = true → departs s c = true → homes s c key x = true → unwatched x = true →
    (tenSt s x.tenant).st ≠ .quiescing → (parSpan x.param = false ∨ members s = [dieOf s]) →
    let ph := barPhase x.value
    let held := barArmed x.value || barChold x.value
    let waits := (boundRoots s x.tenant x.obj).any fun o => o.2.aborted && (o.2.phase == ph)
    let answers (cmd : Instr) (r : Reply) (y : Slot) (offs : List Nat) : Prop := ∃ u, exec cmd s = .next u ∧
      Becomes s u a q i (i.answered s c r) ∧ SlotBecomes s u key y ∧ AtHome s u p.pier offs
    let refused (cmd : Instr) : Prop := ∃ u, exec cmd s = .next u ∧ Becomes s u a q i (i.issued s c (.refused .barrier (c.issue + 256))) ∧
      SlotBecomes s u key x ∧ AtHome s u p.pier [fTrsCnt2Repres.off] ∧
      get u fTrsCnt2Repres = (get s fTrsCnt2Repres + 1) % 2 ^ fTrsCnt2Repres.w
    let done (y : Slot) : Slot := { y with
      value := barWord (!ph) 0 false false 0, role := false, combine := false, aborted := false, due := none
      members := y.members.map fun w => (w.1, 0#512), result := if x.aborted = true then none else x.result }
    (pOp i.words = some .arrive → fLANE i.words = false →
      let k := pAux i.words % 4096
      let w := x.members[k / 512]?
      (x.kind ≠ .barrier → answers (.arrive a q) ⟨0, .badop, 0, s.now⟩ x []) ∧
      (x.kind = .barrier →
        (held = true → refused (.arrive a q)) ∧
        (parMode x.param = 2 → held = false → answers (.arrive a q) ⟨0, .badop, 0, s.now⟩ x []) ∧
        (parMode x.param = 1 → held = false →
          ((w = none ∨ ∃ m b, w = some (m, b) ∧ m.getLsbD (k % 512) = false) →
            answers (.arrive a q) ⟨0, .nonmember, 0, s.now⟩ x [fTrsCnt1Nonmemb.off]) ∧
          (∀ m b, w = some (m, b) → m.getLsbD (k % 512) = true → b.getLsbD (k % 512) = true →
            answers (.arrive a q) ⟨0, .badop, 0, s.now⟩ x [])) ∧
        (∀ mem, held = false → x.combine = false →
          ((parMode x.param = 0 ∧ mem = x.members) ∨ (parMode x.param = 1 ∧ ∃ m b, w = some (m, b) ∧
            m.getLsbD (k % 512) = true ∧ b.getLsbD (k % 512) = false ∧
            mem = x.members.set (k / 512) (m, b ||| BitVec.ofNat 512 (2 ^ (k % 512))))) →
          let n := if parMode x.param = 1 then memberCount x else parExpect x.param
          let last := barArrived x.value + 1 = n
          let timed := parTimed x.param
          let late := pTimeout i.words = 0 ∨ ∃ d, c.deadline = some d ∧ d < s.now
          let t := trelOf s.now (parLead x.param) (parGrid x.param)
          let y := { x with
            value := if last then barWord ph (barArrived x.value + 1) true false t else barWord ph (barArrived x.value + 1) false false 0
            due := if last then some t else x.due, members := mem, role := true
            sig := some ⟨a, dieOf s, s.now, false⟩, lastSig := s.now }
          (¬ last ∨ timed = true →
            (fSPLIT i.words = true → answers (.arrive a q) ⟨w64 (b2n ph), .ok, 0, s.now⟩ y []) ∧
            (fSPLIT i.words = false → late →
              answers (.arrive a q) ⟨causeWord 1 (dieOf s) (y.value.toNat % 2 ^ 32), .timeout, 64, s.now⟩ y []) ∧
            (fSPLIT i.words = false → ¬ late → tenWaits s c.tenant < 64 * get s (fTenShare0Waits c.tenant) →
              tableUse s (sliceOf key) < 1024 → sliceOn s (sliceOf key) = true →
              ∃ (u : State) (e : Nat), exec (.arrive a q) s = .next u ∧ Becomes s u a q i (i.issued s c .out) ∧
                e ∈ freeEntries s (sliceOf key) ∧
                SlotBecomes s u key { y with
                  waiters := [⟨c, w64 (b2n ph), sliceOf key, e, 1, s.now + us (max 10 (get s fWaitWdogLimit)), none⟩]
                  segs := [(1, sliceOf key, 1)] } ∧
                AtHome { s with fresh := s.fresh + 1 } u p.pier [fWaitHwmBlockedHwm.off])) ∧
          (last → timed = false → (∀ r, x.rel = some r → fACQ i.words = true → fSPLIT i.words = false →
              scopeHolds (min r.scope (pScope i.words)) r.agent r.pier r.die a p.pier (dieOf s) = true) →
            let rep : Reply := ⟨w64 (b2n ph), .ok, if fSPLIT i.words = true then 0 else 1, s.now⟩
            (waits = false → answers (.arrive a q) rep (done y) [fTrsCnt0Barcomp.off]) ∧
            (∀ kc root, boundRoots s x.tenant x.obj = [(kc, root)] → waits = true →
              ∃ u, exec (.arrive a q) s = .next u ∧ Becomes s u a q i (i.answered s c rep) ∧ SlotBecomes s u key (done y) ∧
                ctxAt u kc = some { root with aborted := false, phase := !root.phase } ∧ (∀ m, m ≠ kc → ctxAt u m = ctxAt s m) ∧
                u.gir = { s.gir with fills := u.gir.fills, invs := u.gir.invs } ∧ u.mem = s.mem ∧
                SameButCounters s u [fTrsCnt0Barcomp.off]))))) ∧
    (pOp i.words = some .member →
      (x.kind = .barrier → held = true → refused (.member a q)) ∧
      (x.kind ≠ .barrier ∨ (held = false ∧ parMode x.param ≠ 1) → answers (.member a q) ⟨0, .badop, 0, s.now⟩ x []) ∧
      (x.kind = .barrier → parMode x.param = 1 → held = false →
        let w := x.members[memberWin i.words]?
        let mask := memberMask i.words
        let next (m : BitVec 512) : BitVec 512 := match memberMode i.words with
          | 0 => mask
          | 1 => m ||| mask
          | _ => m &&& ~~~mask
        ((w = none ∨ ∃ m b, w = some (m, b) ∧ b &&& ~~~ next m ≠ 0#512) →
          answers (.member a q) ⟨w64 (memberCount x), .badop, 0, s.now⟩ x []) ∧
        (∀ m b, w = some (m, b) → b &&& ~~~ next m = 0#512 →
          let y := { x with members := x.members.set (memberWin i.words) (next m, b) }
          let n := memberCount y
          (next m = m ∨ barArrived x.value ≠ n ∨ n = 0 → answers (.member a q) ⟨w64 n, .ok, 0, s.now⟩ y []) ∧
          (next m ≠ m → barArrived x.value = n → 1 ≤ n → parTimed x.param = false → x.combine = false → waits = false →
            answers (.member a q) ⟨w64 n, .ok, 0, s.now⟩
              { done y with sig := some ⟨a, dieOf s, s.now, false⟩, lastSig := s.now } [fTrsCnt0Barcomp.off]))))

/-- A lane ARRIVE of a counted agent raises its arrival; a SPLIT one answers OK with the open phase, any other stays pending.
Where that completes the lane's local AND on a lane of one die, the lane completes: the raised arrivals clear, PHASE inverts,
and the pending command answers OK with the phase; a TIMED lane arms instead with the release time of R147. A broken lane
answers RESOURCE with cause 3. An armed lane of an agent not yet raised refuses the arrival for 256 ns. A wire frame of the
open phase at the root is held until every named die's has come and the local AND holds; a frame of another phase raises TRS
source 1. A completion frame of the open phase completes the lane or, with a time, arms it. At an armed lane's time the lane
completes once no release or expiry of Trestle is due before it; under DROOP_WARN it is deferred once. With Trestle's gate
closed an arrival is kept and nothing is decided, and wire and completion frames change nothing. FORCELANE of an enabled lane
that does not span dies completes it and is counted. That such frames act whatever EN, XEN and BROKEN are, and are dropped by
a closed gate, and that the DIE of the cause of a broken lane is this die, are the model's choices (log entries 108 and 95).
(R78, R117, R155, R156, R158, R161, R162, R163, R164, R165, R302, R462) -/
def Obligations.LaneArrivals : Prop :=
  ∀ (a q l : Nat) (s : State), l < 64 →
    let x := laneSt s l
    let fresh : Lane := ⟨!x.phase, [], [], none, none, x.broken, false, [], false, []⟩
    let counts (u : State) : Prop := get u fTrsCnt0Lanecomp = (get s fTrsCnt0Lanecomp + 1) % 2 ^ 32
    let t := trelOf s.now (get s (fTrsLcfgLead l)) (max 6 (get s (fTrsLcfgGrid l)))
    (∀ (p : PierNet) (i : Item), let c := stamp s p a q i
      issues s a q p i = true → departs s c = true → isLane i.words = true → pLane i.words = l → x.lenNext = [] →
      let y := { x with
        raised := insNat x.raised a, waiting := if fSPLIT i.words = true then x.waiting else x.waiting ++ [c] }
      let lane (z : Lane) (u : State) (offs : List Nat) : Prop := laneSt u l = z ∧ (∀ k, k ≠ l → laneSt u k = laneSt s k) ∧
        AtHome { s with lanes := u.lanes } u p.pier offs
      let waits (z : Lane) : Prop := ∃ u, exec (.arriveLane a q) s = .next u ∧ lane z u [] ∧
        (fSPLIT i.words = true → Becomes s u a q i (i.answered s c ⟨w64 (b2n x.phase), .ok, 0, s.now⟩)) ∧
        (fSPLIT i.words = false → Becomes s u a q i (i.issued s c .out))
      let all := (counted s l).all fun g => y.raised.contains g || decide ((agentSt s g).port ≠ .open)
      (x.broken = true → ∃ u, exec (.arriveLane a q) s = .next u ∧ lane x u [] ∧
        Becomes s u a q i (i.answered s c
          (if fSPLIT i.words = true then ⟨0, .resource, 0, s.now⟩ else ⟨causeWord 3 (dieOf s) 0, .resource, 64, s.now⟩))) ∧
      (x.broken = false → x.armed.isSome = true → a ∉ x.raised →
        ∃ u, exec (.arriveLane a q) s = .next u ∧ lane x u [fTrsCnt2Repres.off] ∧
          Becomes s u a q i (i.issued s c (.refused .barrier (c.issue + 256)))) ∧
      (x.broken = false → x.armed = none → on s (fTrsLcfgEn l) = true → gateOn s 97 = false →
        (fSPLIT i.words = true ∨ pTimeout i.words ≠ 0) → waits y) ∧
      (x.broken = false → x.armed = none → x.forced = false → on s (fTrsLcfgEn l) = true → gateOn s 97 = true →
        (on s (fTrsLcfgXen l) = false →
          (all = false ∨ on s (fTrsLcfgTimed l) = true →
            let z := if all = true then { y with armed := some t, due := some t } else y
            (fSPLIT i.words = true ∨ pTimeout i.words ≠ 0 → waits z) ∧
            (fSPLIT i.words = false → pTimeout i.words = 0 →
              ∃ u, exec (.arriveLane a q) s = .next u ∧ lane { z with waiting := x.waiting.filter fun d => decide (d ≠ c) } u [] ∧
                Becomes s u a q i (i.answered s c ⟨causeWord 1 (dieOf s) 0, .timeout, 64, s.now⟩))) ∧
          (all = true → on s (fTrsLcfgTimed l) = false → x.waiting = [] →
            ∃ u, exec (.arriveLane a q) s = .next u ∧ lane fresh u [fTrsCnt0Lanecomp.off] ∧ counts u ∧
              Becomes s u a q i (i.answered s c ⟨w64 (b2n x.phase), .ok, 0, s.now⟩))) ∧
        (on s (fTrsLcfgXen l) = true → get s (fTrsLcfgXroot l) ≠ dieOf s → all = true → x.sent = false →
          (fSPLIT i.words = true ∨ pTimeout i.words ≠ 0) →
          ∃ u, exec (.arriveLane a q) s = .next u ∧ laneSt u l = { y with sent := true } ∧
            AtHome { s with lanes := u.lanes, ports := u.ports } u p.pier [] ∧
            ∀ k, nextPort s (dieOf s) (get s (fTrsLcfgXroot l)) = some k →
              ∃ h, h.dst = get s (fTrsLcfgXroot l) ∧ h.src = dieOf s ∧ (portSt u k).sent = (portSt s k).sent ++ [⟨h, .wire l x.phase⟩]))) ∧
    (∀ (n : Nat) (h : Hdr) (ph : Bool) (when : Option Nat), delivers s n h = true → isOlder (epochOf s h.tenant) h.epoch = false →
      let same (u : State) (offs : List Nat) : Prop := (∀ k, k ≠ l → laneSt u k = laneSt s k) ∧ u.sema = s.sema ∧ u.mem = s.mem ∧
        u.agents = s.agents ∧ SameButCounters s u offs
      (gateOn s 97 = false →
        (∃ u, exec (.wire n h l ph) s = .next u ∧ u.lanes = s.lanes ∧ same u []) ∧
        (∃ u, exec (.lcomp n h l ph when) s = .next u ∧ u.lanes = s.lanes ∧ same u [])) ∧
      (x.phase ≠ ph → gateOn s 97 = true → s.flt.shadows = [] → resetsNothing s bTrs 1 = true →
        (∃ u, exec (.wire n h l ph) s = .next u ∧ nbit (get u (fStatSticky bTrs)) 1 = true ∧ u.lanes = s.lanes ∧
          same u [rFstat bTrs, rFfirst bTrs]) ∧
        (∃ u, exec (.lcomp n h l ph when) s = .next u ∧ nbit (get u (fStatSticky bTrs)) 1 = true ∧ u.lanes = s.lanes ∧
          same u [rFstat bTrs, rFfirst bTrs])) ∧
      (x.phase = ph → gateOn s 97 = true → x.lenNext = [] → x.waiting = [] →
        (∃ u, exec (.lcomp n h l ph none) s = .next u ∧ laneSt u l = fresh ∧ counts u ∧ same u [fTrsCnt0Lanecomp.off]) ∧
        (∀ d, ∃ u, exec (.lcomp n h l ph (some d)) s = .next u ∧ laneSt u l = { x with armed := some d, due := some d } ∧ same u []) ∧
        (on s (fTrsLcfgEn l) = true → on s (fTrsLcfgXen l) = true → get s (fTrsLcfgXroot l) = dieOf s →
          on s (fTrsLcfgTimed l) = false → x.armed = none → x.broken = false →
          let y := { x with frames := insNat x.frames h.src }
          let ready := localAnd s l && (otherDies s l).all y.frames.contains
          (ready = false → ∃ u, exec (.wire n h l ph) s = .next u ∧ laneSt u l = y ∧ same u []) ∧
          (ready = true → ∃ u, exec (.wire n h l ph) s = .next u ∧ laneSt u l = fresh ∧ counts u ∧ same u [fTrsCnt0Lanecomp.off] ∧
            ∀ d ∈ otherDies s l, ∀ k, nextPort s (dieOf s) d = some k →
              ∃ g, g.dst = d ∧ g.src = dieOf s ∧ (⟨g, .lcomp l x.phase none⟩ : Envelope) ∈ (portSt u k).sent)))) ∧
    (∀ d e : Nat, quiet s = true → coreRuns s = true → x.armed = some e → x.due = some d → gateOn s 97 = true → x.lenNext = [] →
      x.waiting = [] →
      let first := laneDueBefore s d l = false ∧ laneExpiryBefore s d = false
      (s.now < d ∨ ¬ first → exec (.laneRelease l) s = .next s) ∧
      (first → d ≤ s.now → (s.clk.droop = false ∨ d ≠ e) →
        ∃ u, exec (.laneRelease l) s = .next u ∧ laneSt u l = fresh ∧ counts u ∧ (∀ k, k ≠ l → laneSt u k = laneSt s k) ∧
          u = { s with rf := u.rf, obs := u.obs, lanes := u.lanes } ∧ SameButCounters s u [fTrsCnt0Lanecomp.off]) ∧
      (first → d ≤ s.now → s.clk.droop = true → d = e →
        ∃ u, exec (.laneRelease l) s = .next u ∧
          laneSt u l = { x with due := some (windowStart (windowOf d + max 1 (get s fWaitCtlDroopDefer))) } ∧
          get u fWaitCnt3Deferred = (get s fWaitCnt3Deferred + 1) % 2 ^ fWaitCnt3Deferred.w ∧
          (∀ k, k ≠ l → laneSt u k = laneSt s k) ∧ u = { s with rf := u.rf, lanes := u.lanes } ∧ SameRegs s u [fWaitCnt3Deferred.off])) ∧
    (∀ r : Requester, quiet s = true → manages s r rMarCmd = true →
      get s fMarArg0Lane = l → on s fMarStBusy = false →
      (on s (fTrsLcfgEn l) = true → on s (fTrsLcfgXen l) = false → x.lenNext = [] → x.waiting = [] →
        ∃ u, exec (.forceLane r) s = .next u ∧ laneSt u l = fresh ∧ counts u ∧ (∀ k, k ≠ l → laneSt u k = laneSt s k) ∧
          get u fMarStStatus = 0 ∧ get u fMarStOp = 4 ∧ get u fMarCntOps = (get s fMarCntOps + 1) % 2 ^ 32 ∧
          u = { s with rf := u.rf, obs := u.obs, lanes := u.lanes } ∧
          SameButCounters s u [fTrsCnt0Lanecomp.off, rMarSt, fMarCntOps.off]) ∧
      (on s (fTrsLcfgEn l) = false →
        ∃ u, exec (.forceLane r) s = .next u ∧ get u fMarStStatus = 15 ∧ get u fMarStOp = 4 ∧ RegsOnly s u [rMarSt]))

/-- An ALLOC of a legal kind and PARAM, of the number named or with ANY of the lowest UNALLOCATED number of the window, leaves
the entry RESIDENT in the slot chosen from the preferred slice on, or from the pier's own router's, with the object at its
rest value; with no slot to be had it writes the image and leaves the entry BACKED, or without a backing region answers
RESOURCE. It answers the handle. A number outside the window answers PROT, an allocated one and an illegal kind or PARAM
BADOP. FREE of an object at rest with no waiter, ROLE or CBOUND releases slot and entry; of any other, and of an UNALLOCATED
number, it answers BADOP. AUDIT writes a record for each object found not at rest, in number order while the area lasts, and
answers their number, with the truncation flag where they did not fit; BUSY_FW while firmware does not run, RESOURCE without a
backing region. That ALLOC with ANY takes numbers that an import window maps, and that a try-once wait does not keep an object
from being freed, are the model's readings (log entries 89 and 100). (R38, R39, R40, R41, R43, R44, R45, R46, R67) -/
def Obligations.ObjectsAllocatedAndFreed : Prop :=
  ∀ (a q : Nat) (p : PierNet) (i : Item) (s : State),
    let c := stamp s p a q i
    let t := c.tenant
    issues s a q p i = true → departs s c = true → pDie i.words = dieOf s → on s fSemaStatHtmReady = true →
    SMap.wf s.sema.htm = true → Memory.wf s.mem = true →
    let cmd := rowOf a q i.words
    let gives (r : Reply) (u : State) : Prop := exec cmd s = .next u ∧ Becomes s u a q i (i.answered s c r)
    let entry (n : Nat) : HEntry := htmAt s (1024 * get s (fSemaHtwBase t) + n)
    let fails (st : Status) : Prop := ∃ u, gives ⟨0, st, 0, s.now⟩ u ∧ u.sema = s.sema ∧ AtHome s u p.pier []
    (pOp i.words = some .alloc →
      let param := BitVec.ofNat 48 (wbits (pOperand i.words) 0 48)
      (∀ (k : Kind) (n : Nat), kindOf (pAux i.words % 8) = some k → paramLegal k param = true → n < 1024 * get s (fSemaHtwLen t) →
        (entry n).state = .unallocated →
        ((fANY i.words = true ∧ ∀ m < n, (entry m).state ≠ .unallocated) ∨
          (fANY i.words = false ∧ pObj i.words = n ∧ importOf s t n = none)) →
        let v : Word := if k = .barrier then 0 else w64 param.toNat
        let pref := if fPREF i.words = true then pAux i.words / 8 % 64 else p.router
        let e := 1024 * get s (fSemaHtwBase t) + n
        let r : Reply := ⟨w64 (handleOf (dieOf s) n), .ok, 0, s.now⟩
        let others (u : State) : Prop := ∀ m, m ≠ e → htmAt u m = htmAt s m
        (∀ key, shareFull s t = false → chooseSlot s k param pref = some key →
          ∃ u y, gives r u ∧ SlotBecomes s u key y ∧ htmAt u e = ⟨.resident, sliceOf key, slotOf key, k⟩ ∧ others u ∧
            y.value = v ∧ y.kind = k ∧ y.param = param ∧ y.tenant = t ∧ y.obj = n ∧ y.epoch = epochOf s t ∧ unwatched y = true ∧
            y.rel = none ∧ y.sig = none ∧ y.poison = false ∧ y.role = false ∧ y.cbound = false ∧ y.ovr = 0 ∧
            (canTake s k param pref = true → sliceOf key = pref) ∧
            AtHome { s with sema := { s.sema with htm := u.sema.htm } } u p.pier []) ∧
        (shareFull s t = true ∨ chooseSlot s k param pref = none →
          (on s (fSemaBackEn t) = true →
            ∃ u, gives r u ∧ htmAt u e = ⟨.backed, pref, 0, k⟩ ∧ others u ∧ mem64 u (imgAddr s t n) = v ∧
              mem64 u (imgAddr s t n + 8) = metaWord k param false false false false 0 ∧
              (∀ b, (b < imgAddr s t n ∨ imgAddr s t n + 16 ≤ b) → memByte u.mem b = memByte s.mem b) ∧
              u.sema.slots = s.sema.slots ∧
              AtHome { s with sema := { s.sema with htm := u.sema.htm }, mem := u.mem } u p.pier []) ∧
          (on s (fSemaBackEn t) = false → fails .resource))) ∧
      (fANY i.words = false → 1024 * get s (fSemaHtwLen t) ≤ pObj i.words → fails .prot) ∧
      (fANY i.words = false → pObj i.words < 1024 * get s (fSemaHtwLen t) → importOf s t (pObj i.words) = none →
        (entry (pObj i.words)).state ≠ .unallocated → fails .badop) ∧
      (fANY i.words = true → kindOf (pAux i.words % 8) = none ∨ (∃ k, kindOf (pAux i.words % 8) = some k ∧ paramLegal k param = false) →
        fails .badop)) ∧
    (pOp i.words = some .free → importOf s t (pObj i.words) = none → pObj i.words < 1024 * get s (fSemaHtwLen t) →
      (∀ (key : Nat) (x : Slot), homes s c key x = true →
        let rest := x.waiters = [] ∧ x.role = false ∧ x.cbound = false ∧ match x.kind with
          | .barrier => barArrived x.value = 0 ∧ barArmed x.value = false ∧ barChold x.value = false ∧ barTrel x.value = 0
          | .event => x.value.toNat % 2 = x.param.toNat % 2
          | _ => x.value.toNat = x.param.toNat
        (rest → ∃ u, exec cmd s = .next u ∧ slotAt u key = none ∧ (∀ k, k ≠ key → slotAt u k = slotAt s k) ∧
          (htmAt u (1024 * get s (fSemaHtwBase t) + pObj i.words)).state = .unallocated) ∧
        (rest → x.tries = [] → mirrorOut s key = false → ∃ u, gives ⟨0, .ok, 0, s.now⟩ u ∧ slotAt u key = none ∧ (∀ k, k ≠ key →
          slotAt u k = slotAt s k) ∧
          (htmAt u (1024 * get s (fSemaHtwBase t) + pObj i.words)).state = .unallocated ∧
          (∀ m, m ≠ 1024 * get s (fSemaHtwBase t) + pObj i.words → htmAt u m = htmAt s m) ∧
          AtHome { s with sema := { s.sema with htm := u.sema.htm } } u p.pier []) ∧
        (¬ rest → ∃ u, gives ⟨0, .badop, 0, s.now⟩ u ∧ SlotBecomes s u key x ∧ AtHome s u p.pier [])) ∧
      ((entry (pObj i.words)).state = .unallocated →
        ((pierSt s p.pier).cache.find? fun y => decide (y.tenant = t) && decide (y.obj = pObj i.words)) = none →
        s.sema.rebuild = [] → fails .badop)) ∧
    (pOp i.words = some .audit →
      (fwRuns s = false → fails .busyFw) ∧
      (fwRuns s = true → on s (fSemaBackEn t) = false → fails .resource) ∧
      (fwRuns s = true → on s (fSemaBackEn t) = true →
        (∀ y ∈ s.sema.slots, y.2.tenant = t → (y.2.paired && s.flt.differ.contains y.1) = false) →
        let found := (allocatedOf s t).filterMap (auditOne s t)
        let cap := 256 * get s (fSemaBackAudn t)
        let area := 4096 * get s (fSemaBackAddr t) + 16384 * get s (fSemaHtwLen t)
        ∃ u, gives ⟨w64 found.length, .ok, if cap < found.length then 2 else 0, s.now⟩ u ∧ u.sema = s.sema ∧
          (∀ (j n : Nat) (k : Kind) (v : Word), found[j]? = some (n, k, v) → j < cap →
            mem64 u (area + 16 * j) = w64 (handleOf (dieOf s) n + 2 ^ 32 * kdCode k) ∧ mem64 u (area + 16 * j + 8) = v) ∧
          (∀ b, (b < area ∨ area + 16 * min cap found.length ≤ b) → memByte u.mem b = memByte s.mem b) ∧
          AtHome { s with mem := u.mem } u p.pier []))

/-- An ARRIVE_COMBINE whose drain is over is BADOP where its entry is FREE or does not match it, where its SRC or DST is no
multiple of 64 or its PIDX is out of range or in use. With the entry CLOSED it is held, with TRY ended with FULL. Otherwise
the unit places it and wants the beats of the first chunk of its payload, of which its pier presents one where it presents
none, and at a COUNTING barrier of this die that needs more arrivals it is recorded as a combine arrival, with a notice to the
unit; a SPLIT one answers OK, or CHUNKED, with the phase and the chunk count, any other waits. A notice of acceptance makes
its participant one of the open phase's, from each of which the beats of the chunk in progress are then asked for; with the
expected number accepted the entry closes. A notice of rejection releases the place and drops the beats not yet accepted. That
a unit has one beat presented to a pier that presents none is the model's choice (log entry 106). (R133, R137, R214, R215,
R220, R221, R222, R225, R226, R229, R483) -/
def Obligations.CombineArrivals : Prop :=
  ∀ (a q k : Nat) (p : PierNet) (i : Item) (c : Cmd) (s : State),
    (ctxAt s k = none → resumes s a q p i c = true → nextToIssue s p = some (localIdx p a, q) → noticeDue s c = false →
      (∃ w, i.st = .stalled w) → pOp i.words = some .arriveCombine → pCtx i.words = k → pDie i.words = dieOf s →
      inScratch s a (pSrc i.words) 1 = true → inScratch s a (pDst i.words) 1 = true →
      ∃ u, exec (.arriveCombine a q) s = .next u ∧ Becomes s u a q i (i.replied s c ⟨0, .badop, 0, s.now⟩) ∧
        u.abc = s.abc ∧ u.sema = s.sema ∧ AtHome s u p.pier []) ∧
    ∀ x : Ctx, ctxAt s k = some x →
    let sp (o n : Nat) : Bool := inScratch s a o n
    let src := pSrc i.words
    let dst := pDst i.words
    (resumes s a q p i c = true → nextToIssue s p = some (localIdx p a, q) → noticeDue s c = false → (∃ w, i.st = .stalled w) →
      pOp i.words = some .arriveCombine → pCtx i.words = k → pDie i.words = dieOf s →
      sp src (payLen x) = true → sp dst (resLen x) = true →
      let bad := x.tenant ≠ c.tenant ∨ x.bhandle ≠ pHandle i.words ∨ x.pcap ≤ pPidx i.words ∨ src % 64 ≠ 0 ∨ dst % 64 ≠ 0 ∨
        (∃ o ∈ x.parts, o.pidx = pPidx i.words)
      (bad → ∃ u, exec (.arriveCombine a q) s = .next u ∧ Becomes s u a q i (i.replied s c ⟨0, .badop, 0, s.now⟩) ∧
        u.abc = s.abc ∧ u.sema = s.sema ∧ AtHome s u p.pier []) ∧
      (¬ bad → x.st = .closed →
        (fTRY i.words = true → ∃ u, exec (.arriveCombine a q) s = .next u ∧
          Becomes s u a q i (i.replied s c ⟨0, .full, 0, s.now⟩) ∧ u.sema = s.sema ∧ AtHome s u p.pier []) ∧
        (fTRY i.words = false → ∃ u, exec (.arriveCombine a q) s = .next u ∧
          Becomes s u a q i { i with st := .stalled .barrier, since := if i.since = 0 then s.order + 1 else i.since } ∧ u.sema = s.sema ∧
            AtHome s u p.pier [fAbcCnt1Held.off])) ∧
      (¬ bad → (x.st = .open ∨ x.st = .active) → x.parts.length < x.lmax → x.aborted = false → x.tenant < 256 →
        ∀ (key : Nat) (b : Slot), homes s c key b = true → b.kind = .barrier → parMode b.param = 0 → barArmed b.value = false →
          barChold b.value = false → barArrived b.value + 1 < parExpect b.param → unwatched b = true → b.aborted = false →
          (tenSt s b.tenant).st ≠ .quiescing →
          (fSPLIT i.words = true ∨ (outOfTime s c = false ∧ tenWaits s c.tenant < 64 * get s (fTenShare0Waits c.tenant) ∧
            tableUse s (sliceOf key) < 1024 ∧ sliceOn s (sliceOf key) = true)) →
          let bs := beatsOf x src 0
          let ph := barPhase b.value
          let beats : List Beat := bs.map fun n => ⟨a, false, n, 0#64, 0#512, k, pPidx i.words⟩
          let free := (pierSt s p.pier).spq = []
          ∃ u y, exec (.arriveCombine a q) s = .next u ∧
            ctxAt u k = some { x with parts := x.parts ++ [⟨c, pPidx i.words, src, dst, false, [], bs, 0, false⟩] } ∧
            (∀ m, m ≠ k → ctxAt u m = ctxAt s m) ∧
            (pierSt u p.pier).spq = (if free then beats.take 1 else (pierSt s p.pier).spq) ∧
            mgetD u.abc.want (k % 16) [] = (if free then beats.drop 1 else beats) ∧
            u.gir.notices = s.gir.notices ++ [(k, c, .accepted ph)] ∧ SlotBecomes s u key y ∧
            y.value = barWord ph (barArrived b.value + 1) false false 0 ∧ y.role = true ∧ y.combine = true ∧
            y.waiters.map (·.cmd) = (if fSPLIT i.words = true then [] else [c]) ∧
            (fSPLIT i.words = true → Becomes s u a q i (i.replied s c
              ⟨w64 (b2n ph + 2 ^ 16 * x.chunks), if 1 < x.chunks then .chunked else .ok, 0, s.now⟩)) ∧
            (fSPLIT i.words = false → Becomes s u a q i { i with st := .out }) ∧ u.mem = s.mem ∧ u.ports = s.ports ∧
            u.lanes = s.lanes ∧ SameButCounters s u [fWaitHwmBlockedHwm.off])) ∧
    (∀ rest, quiet s = true → coreRuns s = true → isOlder (epochOf s c.tenant) c.epoch = false → x.closed1 = false → x.aborted = false →
      x.st ≠ .closed →
      (∀ ph, s.gir.notices = (k, c, .accepted ph) :: rest →
        let ps := x.parts.map fun o => if o.cmd = c then { o with accepted := true } else o
        ∃ u y, exec (.arrivalAccepted k none) s = .next u ∧ ctxAt u k = some y ∧
          y.parts.map (fun o => { o with asked := [] }) = ps.map (fun o => { o with asked := [] }) ∧
          (x.chunk < x.chunks → ∀ o ∈ y.parts, ∀ n ∈ beatsOf x o.src x.chunk, n ∈ o.asked ∨ mget o.beats n ≠ none) ∧
          y.st = (if count (fun o : Particip => o.accepted) ps = x.eloc then .closed else .active) ∧
          y.phase = (if x.st = .open then ph else x.phase) ∧
          (∀ m, m ≠ k → ctxAt u m = ctxAt s m) ∧
          u = { s with abc := u.abc, piers := u.piers, gir := { s.gir with notices := rest } }) ∧
      (∀ st, s.gir.notices = (k, c, .rejected st) :: rest →
        let mine (b : Beat) : Bool := decide (b.agent = c.agent) && decide (b.ctx = k) &&
          x.parts.any fun o => decide (o.cmd = c) && decide (o.pidx = b.pidx)
        ∃ u y, exec (.arrivalAccepted k none) s = .next u ∧ ctxAt u k = some y ∧
          y.parts = x.parts.filter (fun o => decide (o.cmd ≠ c)) ∧ y.n = x.n ∧ y.desc = x.desc ∧
          (∀ n, pierOf s c.agent = some n → (pierSt u n.pier).spq = (pierSt s n.pier).spq.filter fun b => !mine b) ∧
          ((mgetD u.abc.want (k % 16) []).any fun b => mine b) = false ∧
          (∀ m, m ≠ k → ctxAt u m = ctxAt s m) ∧
          u = { s with abc := u.abc, piers := u.piers, gir := { s.gir with notices := rest } }))

/-- A ROUTE that leaves its pier waits for a part on each die of its entries in the span group that is not LOST; the part of
this die is coordinated here over its entries, and each other part leaves as a message with its entries and its DWCOUNT. An
entry on a resident COUNT, SEQ or POOL of this die that takes its amount is applied at once, its object pending under the
part's tag, and reported. The last report of a part of this die that is the only one commits: each destination gets a commit,
and the ROUTE answers the mask of failed entries, the status of the lowest, and the time of the commit, which is its pier's
Deck Time. A commit clears its tag from the objects of its slice, and their release records are those of their staged REL
commands. (R72, R73, R82, R168, R170, R171, R172, R174, R177, R256) -/
def Obligations.RoutesStaged : Prop :=
  ∀ (a q key tag : Nat) (p : PierNet) (i : Item) (c : Cmd) (s : State),
    (let c := stamp s p a q i
     let ds := routeDies s i.words
     let live := ds.filter fun d => decide (d = dieOf s) || !inLost s d
     issues s a q p i = true → departs s c = true → pOp i.words = some .route → live ≠ [] → s.rt.gathers = [] →
     ∃ u, exec (.route a q) s = .next u ∧
       (∃ (g : Gather), u.rt.gathers = [g] ∧ g.cmd = c ∧ g.waiting.map (·.1) = live ∧ g.resend = [] ∧
         (∀ d ∈ live, d = dieOf s → ∃ pt ∈ u.rt.parts, pt.cmd = c ∧ pt.origin = none ∧ (d, pt.tag) ∈ g.waiting ∧
           pt.entries.map (·.1) = (routeEntries i.words).filter fun e => decide (e.die = d)) ∧
         (∀ d ∈ live, d ≠ dieOf s → ∀ n, nextPort s (dieOf s) d = some n →
           ∃ h t, h.dst = d ∧ h.src = dieOf s ∧ (d, t) ∈ g.waiting ∧ (⟨h, .rpart (rpartMsg c t d)⟩ : Envelope) ∈ (portSt u n).sent)) ∧
       (∀ (e : REntry) (x : Slot), routeEntries i.words = [e] → e.die = dieOf s → on s fSemaStatHtmReady = true →
         s.rt.parts = [] → s.gir.sreports = [] →
         homeSlot s c .route (pObj i.words + e.offset) = some key → takesOp s key x = true → pendUse s (sliceOf key) < 256 →
           s.rt.nextTag ∉ x.pend →
         let n := w64 e.count
         let fits := match x.kind with
           | .count => x.value.toNat + e.count < 2 ^ 63
           | .seq => True
           | .pool => x.value.toNat + e.count ≤ x.param.toNat
           | _ => False
         fits → (∃ y, SlotBecomes s u key y ∧ y.value = x.value + n ∧ y.pend = x.pend ++ [s.rt.nextTag] ∧ y.waiters = x.waiters ∧
             y.rel = x.rel) ∧
           u.gir.sreports = [(sliceOf key, s.rt.nextTag, 0, .ok)] ∧ u.mem = s.mem)) ∧
    (∀ (i : Item) (g : Gather) (pt : Part) (e : REntry) (st : Status) (src : Nat), quiet s = true → coreRuns s = true →
      itemOf s c = some i → i.words = c.words → c.die = dieOf s → pOp c.words = some .route → isOlder (epochOf s c.tenant) c.epoch = false →
      s.gir.sreports = [(src, tag, e.idx, st)] → (s.gir.commits.any fun y => decide (y.1 = tag)) = false →
      s.rt.parts = [pt] → pt.tag = tag → pt.cmd = c → pt.origin = none →
      pt.entries = [(e, none)] → e.idx < 32 → s.rt.gathers = [g] → g.cmd = c → g.waiting = [(dieOf s, tag)] → g.resend = [] →
      g.failed = [] → g.dt = none → pt.staged = (if st = .ok then [(e.idx, .slice (sliceOf key), key)] else []) →
      let remote := (routeEntries c.words).any fun e => decide (e.die ≠ dieOf s)
      ∃ u, exec (.stagingReport tag e.idx) s = .next u ∧
        Becomes s u c.agent c.queue i (i.replied s c
          ⟨if st = .ok then 0 else w64 (2 ^ e.idx), st, if remote = true then 128 else 0, pierTime s c.pier⟩) ∧
        u.rt.gathers = [] ∧ u.gir.sreports = [] ∧
        (st = .ok → u.gir.commits = s.gir.commits ++ [(tag, .slice (sliceOf key), pierRouter s c.pier)] ∧ u.rt.parts.map (·.tag) = [tag]) ∧
        (st ≠ .ok → u.gir.commits = s.gir.commits ∧ u.rt.parts = []) ∧ u.sema = s.sema ∧ u.mem = s.mem ∧ SameButCounters s u []) ∧
    (∀ (pt : Part) (x : Slot) (idx w : Nat), quiet s = true → coreRuns s = true → s.rt.parts = [pt] → pt.tag = tag →
      isOlder (epochOf s pt.cmd.tenant) pt.cmd.epoch = false → pt.staged = [(idx, .slice (sliceOf key), key)] →
        (pt.entries.any fun e => decide (e.1.idx = idx)) = true →
      s.gir.commits = [(tag, .slice (sliceOf key), w)] → slotAt s key = some x → unwatched x = true → x.paused = false →
      ∃ u, exec (.routeCommit tag (.slice (sliceOf key))) s = .next u ∧
        SlotBecomes s u key { x with
          pend := x.pend.filter fun g => decide (g ≠ tag), stagedRel := x.stagedRel.filter fun y => decide (y.1 ≠ tag)
          rel := match ((x.stagedRel.filter fun y => decide (y.1 = tag)).getLast?).map (·.2) with
            | some r => some r
            | none => x.rel } ∧
        u.rt.parts = [] ∧ u.gir = { s.gir with commits := [] } ∧
        u = { s with rt := u.rt, gir := u.gir, sema := { s.sema with slots := u.sema.slots } })

/-- A ROUTE part whose QSEQ is the next of its queue, with no count to wait for or the count reached, is coordinated here over
its entries, under the issuing die and its tag; one whose count is not reached is held with its arrival time. A part report
that the ROUTE waits for returns the part's credit; once it is the last, the ROUTE answers the failed entries' mask, the
status of the lowest and the latest commit time; before that the ROUTE goes on waiting for the others. (R168, R170, R172,
R177, R178, R179, R263, R288, R289) -/
def Obligations.RoutesAcrossDies : Prop :=
  ∀ (n : Nat) (h : Hdr) (s : State), delivers s n h = true →
    (∀ pt : RPart, let c := pt.cmd
      let x := portSt s n
      stampOf s.now h c = c → c.die ≠ dieOf s → x.gone = [] → inReach s c.die = true → epochOf s c.tenant = c.epoch →
        (tenSt s c.tenant).st = .active → x.hold = [] →
      qexpOf x (qKey c) = h.qseq → h.qseq < 65536 →
      (pt.dw = none → s.rt.parts = [] →
        ∃ u t, exec (.rpart n h pt) s = .next u ∧ qexpOf (portSt u n) (qKey c) = (h.qseq + 1) % 65536 ∧ (portSt u n).hold = [] ∧
          u.rt.parts.map (fun o => (o.tag, o.cmd, o.origin, o.entries.map (·.1))) = [(t, c, some (n, h.src, pt.tag), pt.entries)] ∧
          get u fSemaRtcnt0Parts = (get s fSemaRtcnt0Parts + 1) % 2 ^ fSemaRtcnt0Parts.w ∧ u.mem = s.mem) ∧
      (dwPass s c pt.dw = false →
        ∃ u v, exec (.rpart n h pt) s = .next u ∧ (portSt u n).hold = [v] ∧ v.env = ⟨h, .rpart pt⟩ ∧ v.arrival = s.now ∧
          s.now ≤ v.limit ∧ u.rt = s.rt ∧ u.sema = s.sema ∧ u.mem = s.mem ∧ (∀ k, k ≠ n → portSt u k = portSt s k) ∧
          get u fCoreRdcnt0Holds = (get s fCoreRdcnt0Holds + 1) % 2 ^ fCoreRdcnt0Holds.w)) ∧
    (∀ (i : Item) (c : Cmd) (g : Gather) (r : PReport), ownCmd s c = some c → itemOf s c = some i → i.words = c.words → c.die = dieOf s →
      ((queueOf s c.agent c.queue).items.find? fun j => decide (j.cmd = some c)) = some i →
      pOp c.words = some .route → isOlder (epochOf s h.tenant) h.epoch = false → isOlder (epochOf s c.tenant) c.epoch = false →
      s.rt.gathers = [g] → g.cmd = c → r.status ≠ .dataLate → g.failed = [] → g.resend = [] →
      (g.waiting = [(h.src, r.tag)] → g.dt = none →
        let mask := (idxOn c.words h.src).filter fun k => nbit r.mask k
        let low := match mask with
          | [] => Status.ok
          | _ => r.status
        ∃ u, exec (.preport n h c r) s = .next u ∧ u.rt = { s.rt with gathers := [] } ∧
          Becomes s u c.agent c.queue i (i.replied s c
            ⟨w64 (mask.foldl (fun m k => m ||| 2 ^ k) 0), low,
              if ((routeEntries c.words).any fun e => decide (e.die ≠ dieOf s)) = true then 128 else 0, r.dt.getD (pierTime s c.pier)⟩) ∧
          u.sema = s.sema ∧ u.mem = s.mem) ∧
      (∀ w ∈ g.waiting, w ≠ (h.src, r.tag) → (h.src, r.tag) ∈ g.waiting →
        ∃ (u : State) (v : Gather), exec (.preport n h c r) s = .next u ∧ u.rt.gathers = [v] ∧ v.cmd = c ∧
          v.waiting = g.waiting.filter (fun y => decide (y ≠ (h.src, r.tag))) ∧
          Becomes s u c.agent c.queue i { i with credits := i.credits.erase (firstPort s h.src) } ∧ u.sema = s.sema ∧ u.mem = s.mem))

/-- The oldest fill for a pier enters its translation cache as the most recently used of at most 256 entries, replacing one of
the same object; the oldest invalidation removes its translation. The acknowledgement of an invalidation counts it and lets
its reply go to delivery, and the next reply of the queue that waits for one asks for it at its scope. A reply the client
accepts leaves its queue; a traced command's record joins the collector while that and the ring have room; with nothing else
to deliver the pier presents nothing. That the fills and the invalidations for one pier, whose slices R12 leaves without an
order, arrive in the order in which they were sent is the model's choice (log entry 111). (R35, R36, R81, R247, R249, R446,
R478, R480) -/
def Obligations.TranslationsAndReplies : Prop :=
  ∀ (p : Nat) (s : State), quiet s = true →
    (coreRuns s = true →
      (∀ pre x rest, s.gir.fills = pre ++ (p, x) :: rest → (∀ f ∈ pre, f.1 ≠ p) →
        let y := pierSt s p
        ∃ u, exec (.translationFill p) s = .next u ∧ u.gir = { s.gir with fills := pre ++ rest } ∧
          pierSt u p = { y with cache := (pierSt u p).cache } ∧
          (pierSt u p).cache.map (fun z => { z with place := 0 }) = (({ x with place := 0 } ::
            (y.cache.filter fun z => !(decide (z.tenant = x.tenant) && decide (z.obj = x.obj))).map fun z => { z with place := 0 }).take 256) ∧
          (∀ k, k ≠ p → pierSt u k = pierSt s k) ∧ u = { s with gir := u.gir, piers := u.piers }) ∧
      (∀ pre x rest, s.gir.invs = pre ++ (p, x) :: rest → (∀ f ∈ pre, f.1 ≠ p) →
        let y := pierSt s p
        ∃ u, exec (.invalidation p) s = .next u ∧ u.gir = { s.gir with invs := pre ++ rest } ∧
          pierSt u p = { y with cache := y.cache.filter fun z => decide ({ z with place := 0 } ≠ { x with place := 0 }) } ∧
          (∀ k, k ≠ p → pierSt u k = pierSt s k) ∧ u = { s with gir := u.gir, piers := u.piers })) ∧
    (∀ (n : PierNet) (ag a q sc : Nat) (i : Item) (r : Reply), pierNet s p = some n → agentAt n ag = some a → q < 4 → pierOf s a = some n →
      n.pier = p →
      ((queueOf s a q).items.find? fun j => match j.st with | .done _ (.invalAsked _) => true | _ => false) = some i →
      i.st = .done r (.invalAsked sc) →
      let next := mapFirst (fun j : Item => match j.st with | .done _ .inval => true | _ => false)
        (fun j => match j.st with | .done r _ => { j with st := .done r (.invalAsked (invalScope j.words)) } | _ => j)
        (mapFirst (fun j => decide (j = i)) (fun j => { j with st := .done r .nothing }) (queueOf s a q).items)
      ∃ u, exec (.ivAck p (4 * ag + q) false) s = .next u ∧ dropSkips (queueOf u a q).items = dropSkips next ∧
        (∀ b k, (b, k) ≠ (a, q) → dropSkips (queueOf u b k).items = dropSkips (queueOf s b k).items) ∧
        get u fPierOrdcnt0Invals = (get s fPierOrdcnt0Invals + 1) % 2 ^ fPierOrdcnt0Invals.w ∧
        AtHome s u p [fPierOrdcnt0Invals.off]) ∧
    (∀ (n : PierNet) (a q : Nat) (i : Item) (rest : List Item) (r : Reply) (c : Cmd), pierRuns s = true → pierNet s p = some n →
      n.pier = p → (pierSt s p).ar = some (a, q) → (queueOf s a q).items = i :: rest → i.st = .done r .nothing → i.cmd = some c →
      ∃ u, exec (.arRdy p) s = .next u ∧ dropSkips (queueOf u a q).items = dropSkips rest ∧
        (∀ b k, (b, k) ≠ (a, q) → dropSkips (queueOf u b k).items = dropSkips (queueOf s b k).items) ∧
        (i.traced = false → u.obs.collector = s.obs.collector) ∧
        (i.traced = true → s.obs.collector.length < 256 → 32 * (s.obs.collector.length + 1) ≤ trRoom s →
          u.obs.collector = s.obs.collector ++ [traceWords i c (some r)]) ∧
        (rest = [] → (∀ b k, (b, k) ≠ (a, q) → deliverable s b k = false) → (pierSt u p).ar = none) ∧
        AtHome s u p [fObsStatTrdrop.off])

/-- A signal that satisfies the one waiter of a SEQ takes its entry away and posts its wake, with the value, at the slice's
port; one that does not leaves it. WAKE_EMIT, once no window boundary is due, sends what the budget covers of a slice's own
wakes, oldest first, and the rest waits; a free slice without wakes takes from the pool the oldest batch that no lower free
slice takes, or the oldest of its own with STEAL_EN clear. A wake that reaches its pier is the reply of its command; the
oldest for the pier comes first, whatever slice sent it, which is the model's choice (log entry 111). A pacing window begins
once, that of the earliest event due, with the smaller of the budgets that PACE_EN and DROOP_WARN set, and counts a window in
which wakes were held back. (R101, R108, R109, R110, R111, R113, R114, R115) -/
def Obligations.WakesGoOut : Prop :=
  ∀ (s : State), quiet s = true → coreRuns s = true →
    (∀ (a q key : Nat) (p : PierNet) (i : Item) (x : Slot) (w : Waiter), let c := stamp s p a q i
      issues s a q p i = true → departs s c = true → homes s c key x = true → pOp i.words = some .sigAdd → x.kind = .seq →
      x.waiters = [w] → x.tries = [] → pOp w.cmd.words = some .waitGe → fACQ w.cmd.words = false → isPendingObj s key x = false →
      pOperand i.words ≠ 0 →
      let v := x.value + pOperand i.words
      ∃ u y, exec (.sigAdd a q) s = .next u ∧ SlotBecomes s u key y ∧ y.value = v ∧
        ((v - w.target).toNat < 2 ^ 63 → y.waiters = [] ∧
          mgetD u.wk.ports (sliceOf key) [] = mgetD s.wk.ports (sliceOf key) [] ++ [⟨w.cmd, ⟨v, .ok, 0, s.now⟩, .seq⟩]) ∧
        (2 ^ 63 ≤ (v - w.target).toNat → y.waiters = [w] ∧ u.wk = s.wk)) ∧
    (∀ sl : Nat, let own := mgetD s.wk.ports sl []
      let b := granted s sl own
      (windowDue s s.now = true → exec (.wakeEmit sl) s = .next s) ∧
      ((∀ y ∈ s.wk.ports, y.1 ≠ sl → y.2 = []) → b = min own.length (s.wk.budget.getD own.length)) ∧
      (windowDue s s.now = false → own ≠ [] → (∀ w ∈ own, w.cmd.die = dieOf s) →
        ∃ u, exec (.wakeEmit sl) s = .next u ∧ u.gir = { s.gir with wakes := s.gir.wakes ++ (own.take b).map fun w =>
            (sl, { w with reply := withRemote w.cmd w.reply }) } ∧
          mgetD u.wk.ports sl [] = own.drop b ∧ (∀ k, k ≠ sl → mgetD u.wk.ports k [] = mgetD s.wk.ports k []) ∧
          u.wk.budget = s.wk.budget.map (· - b) ∧ u.wk.heldBack = (s.wk.heldBack || decide (b < own.length)) ∧
          u.wk.pool = s.wk.pool ∧
          get u fWaitCnt0Wakes = (get s fWaitCnt0Wakes + b) % 2 ^ fWaitCnt0Wakes.w ∧
          u = { s with rf := u.rf, obs := u.obs, gir := u.gir, wk := u.wk } ∧ SameButCounters s u [fWaitCnt0Wakes.off]) ∧
      (∀ pre t rest, windowDue s s.now = false → own = [] → s.wk.budget = none → sliceOn s sl = true → s.wk.pool = pre ++ t :: rest →
        (on s fWaitCtlStealEn = true → pre.length = count (sliceFree s) (List.range sl)) →
        (on s fWaitCtlStealEn = false → t.slice = sl ∧ ∀ y ∈ pre, y.slice ≠ sl) →
        (∀ x ∈ s.sema.slots, x.2.paused = false) → (∀ w ∈ t.wakes, w.cmd.die = dieOf s) →
        ∃ u, exec (.wakeEmit sl) s = .next u ∧ u.gir = { s.gir with wakes := s.gir.wakes ++ t.wakes.map fun w =>
            (sl, { w with reply := withRemote w.cmd w.reply }) } ∧
          u.wk.pool = pre ++ rest ∧
          get u fWaitCnt0Stolen = (get s fWaitCnt0Stolen + 1) % 2 ^ fWaitCnt0Stolen.w ∧ u.sema = s.sema)) ∧
    (∀ (p sl : Nat) (pre : List (Nat × Wake)) (w : Wake) (rest : List (Nat × Wake)) (i : Item), s.gir.wakes = pre ++ (sl, w) :: rest →
      (∀ v ∈ pre, v.2.cmd.pier ≠ p) → w.cmd.pier = p → itemOf s w.cmd = some i → i.words = w.cmd.words →
      w.cmd.die = dieOf s → pDie w.cmd.words = dieOf s → isOlder (epochOf s w.cmd.tenant) w.cmd.epoch = false → w.reply.status ≠ .dataLate →
      ∃ u, exec (.wake p) s = .next u ∧ u.gir = { s.gir with wakes := pre ++ rest } ∧
        Becomes s u w.cmd.agent w.cmd.queue i (i.replied s w.cmd w.reply) ∧
        u = { s with rf := u.rf, obs := u.obs, agents := u.agents, piers := u.piers, order := u.order, gir := u.gir } ∧
        SameButCounters s u [fMarCntCancels.off]) ∧
    (let n := windowOf (firstDue s)
     let held := (s.wk.heldBack || decide (s.wk.budget = some 0)) &&
       (s.wk.ports.any (fun y => decide (y.2 ≠ [])) || s.wk.pool.any fun y => decide (y.wakes ≠ []))
     let cap (k : Nat) : Nat := max 1 (min 2048 k)
     (n ≤ s.wk.window → exec .pacingWindow s = .next s) ∧
     (s.wk.window < n → ∃ u, exec .pacingWindow s = .next u ∧ u.wk.window = n ∧ u.wk.heldBack = false ∧
       u.wk.ports = s.wk.ports ∧ u.wk.pool = s.wk.pool ∧
       (on s fWaitCtlPaceEn = false → s.clk.droop = false → u.wk.budget = none) ∧
       (on s fWaitCtlPaceEn = true → s.clk.droop = false → u.wk.budget = some (cap (get s fWaitCtlPaceMax))) ∧
       (on s fWaitCtlPaceEn = false → s.clk.droop = true → u.wk.budget = some (cap (get s fWaitCtlDroopMax))) ∧
       (on s fWaitCtlPaceEn = true → s.clk.droop = true →
         u.wk.budget = some (min (cap (get s fWaitCtlPaceMax)) (cap (get s fWaitCtlDroopMax)))) ∧
       get u fWaitCnt1Pacedwin = (get s fWaitCnt1Pacedwin + b2n held) % 2 ^ fWaitCnt1Pacedwin.w ∧
       u = { s with rf := u.rf, obs := u.obs, wk := u.wk } ∧ SameButCounters s u [fWaitCnt1Pacedwin.off]))

/-- Where no queue holds a refused command: the deadline of a blocking command held at its pier, or of a waiter entry once no
boundary or release of its slice is due before, ends it with TIMEOUT, cause 1 and the low half of the value read, 0 where none
was, and is counted; a cancel under way ends a waiter entry with the status of its cause; the watchdog records a waiter entry
without timeout that has stood for LIMIT, and ends it with TIMEOUT where END is set, else gives it another LIMIT; the reply
guard records and ends with TIMEOUT a command whose reply has not come in time. An entry ended so leaves its object. A refused
command is presented again once its time has come, and not before; a refused staging entry too. What a pier ends or presents
again goes by its own Deck Time, which is also the DT of a reply that it makes itself; how an ordinary pier reads it is the
model's choice (log entry 110). (R79, R119, R126, R359, R386, R389, R461, R499) -/
def Obligations.WaitsEnd : Prop :=
  (∀ (a q : Nat) (i : Item) (c : Cmd) (s : State), quiet s = true → coreRuns s = true → s.flt.shadows = [] →
    heldOf s (dieOf s) a q = none → (∀ b r, ∀ j ∈ (queueOf s b r).items, ∀ w t, j.st ≠ .refused w t) →
    c.agent = a → c.queue = q → c.die = dieOf s → itemOf s c = some i → i.cmd = some c → i.words = c.words → blocking c.words = true →
    isOlder (epochOf s c.tenant) c.epoch = false → pOp c.words ≠ some .arriveCombine → pDie c.words = dieOf s →
    let endedAt (u : State) (dt : Nat) (st : Status) (code die vlow : Nat) (offs : List Nat) : Prop :=
      Becomes s u a q i (i.replied s c ⟨causeWord code die vlow, st, 64, dt⟩) ∧ SameButCounters s u (fMarCntCancels.off :: offs)
    let ended (u : State) (st : Status) (code die vlow : Nat) (offs : List Nat) : Prop := endedAt u s.now st code die vlow offs
    let byPier (u : State) (st : Status) (code die vlow : Nat) (offs : List Nat) : Prop := endedAt u (pierTime s c.pier) st code die vlow offs
    let more (k : Fld) (u : State) : Prop := get u k = (get s k + 1) % 2 ^ k.w
    let pierOnly (u : State) : Prop := u = { s with rf := u.rf, obs := u.obs, agents := u.agents, piers := u.piers, order := u.order, flt := u.flt }
    (∀ d, heldAtPier s a q = some c → c.deadline = some d → pTimeout c.words ≠ 0 →
      (ceilTo 16 d ≤ pierTime s c.pier → ∃ u, exec (.expiry (dieOf s) a q) s = .next u ∧
        byPier u .timeout 1 (dieOf s) 0 [fWaitCnt1Expired.off] ∧
        more fWaitCnt1Expired u ∧ pierOnly u) ∧
      (pierTime s c.pier < ceilTo 16 d → exec (.expiry (dieOf s) a q) s = .next s)) ∧
    (∀ (key : Nat) (w : Waiter) (x : Slot), i.st = .out → heldAtPier s a q = none → allWaiters s = [(key, w)] → w.cmd = c →
      slotAt s key = some x → x.waiters = [w] → w.cause = none → isLane c.words = false →
      let vl := x.value.toNat % 2 ^ 32
      let freed (u : State) : Prop := SlotBecomes s u key { x with waiters := [], segs := [] } ∧
        u = { s with
          rf := u.rf, obs := u.obs, agents := u.agents, piers := u.piers, order := u.order, flt := u.flt, gir := u.gir
          sema := { s.sema with slots := u.sema.slots } }
      (∀ d, c.deadline = some d → pTimeout c.words ≠ 0 → ceilTo 16 d ≤ s.now → cancelsOf s a q = [] →
        windowDue s (ceilTo 16 d) = false → releaseBefore s (sliceOf key) (ceilTo 16 d + 1) 0 = false →
        ∃ u, exec (.expiry (dieOf s) a q) s = .next u ∧ ended u .timeout 1 (dieOf s) vl [fWaitCnt1Expired.off] ∧ freed u ∧
          more fWaitCnt1Expired u ∧ u.gir = s.gir) ∧
      (∀ code, code < 256 → s.gir.cancels = [(c, code)] →
        ∃ u, exec (.cancel (dieOf s) a q code) s = .next u ∧ freed u ∧ u.gir = { s.gir with cancels := [] } ∧
          ended u (match code with
            | 3 => .resource
            | 4 => .cancelled
            | 5 => .cancelled
            | 6 => .cancelled
            | 7 => .resource
            | 8 => .disabled
            | _ => .timeout) code (dieOf s) vl []) ∧
      (on s fWaitWdogEn = true → c.deadline = none → w.wdog < s.now → resetsNothing s bWait 2 = true →
        let offs := [rFstat bWait, rFfirst bWait]
        (on s fWaitWdogEnd = true → ∃ u, exec (.wdog w.table w.entry) s = .next u ∧ freed u ∧
          ended u .timeout 1 (dieOf s) vl offs ∧ nbit (get u (fStatSticky bWait)) 2 = true) ∧
        (on s fWaitWdogEnd = false → ∃ u, exec (.wdog w.table w.entry) s = .next u ∧
          SlotBecomes s u key { x with waiters := [{ w with wdog := w.wdog + us (max 10 (get s fWaitWdogLimit)) }] } ∧
          nbit (get u (fStatSticky bWait)) 2 = true ∧ u.agents = s.agents ∧ SameRegs s u offs)) ∧
      (s.now ≤ w.wdog → exec (.wdog w.table w.entry) s = .next s)) ∧
    (∀ d, on s fPierGuardEn = true → ((queueOf s a q).items.find? fun j => decide (j.st = .out) && blocking j.words) = some i →
      c.deadline = some d → resetsNothing s bPier 4 = true →
      let at_ := d + us (max 16 (get s fPierGuardGuard))
      (pierTime s c.pier < at_ → exec (.replyGuard a q) s = .next s) ∧
      (at_ ≤ pierTime s c.pier → ∃ u, exec (.replyGuard a q) s = .next u ∧ byPier u .timeout 1 (dieOf s) 0 [rFstat bPier, rFfirst bPier] ∧
        nbit (get u (fStatSticky bPier)) 4 = true ∧ pierOnly u))) ∧
  (∀ (a q key due : Nat) (why : Stall) (p : PierNet) (i : Item) (x : Slot) (c : Cmd) (s : State), resumes s a q p i c = true →
    s.rt.gathers = [] → i.st = .refused why due → pOp i.words = some .waitGe → fACQ i.words = false → homes s c key x = true →
    x.kind = .seq → (x.value - pOperand i.words).toNat < 2 ^ 63 → isPendingObj s key x = false →
    (pierTime s p.pier < due → exec (.represent (.head a q)) s = .next s) ∧
    (due ≤ pierTime s p.pier → ∃ u, exec (.represent (.head a q)) s = .next u ∧
      Becomes s u a q i (i.replied s c ⟨x.value, .ok, 1, s.now⟩) ∧ SlotBecomes s u key x ∧ AtHome s u p.pier [])) ∧
  (∀ (tag key due : Nat) (pt : Part) (e : REntry) (x : Slot) (s : State), quiet s = true → coreRuns s = true →
    s.rt.parts = [pt] → pt.tag = tag → pt.entries = [(e, none)] → pt.retry = [(e.idx, due)] →
    (match pt.origin with
      | none => homeSlot s pt.cmd .route (pObj pt.cmd.words + e.offset)
      | some _ => bankSlot s pt.cmd .route (pObj pt.cmd.words + e.offset)) = some key → takesOp s key x = true →
    isOlder (epochOf s pt.cmd.tenant) pt.cmd.epoch = false → x.kind = .seq →
    pendUse s (sliceOf key) < 256 → tag ∉ x.pend → degradedOn s = false →
    (coordTime s pt < due → exec (.represent (.entry tag e.idx)) s = .next s) ∧
    (due ≤ coordTime s pt → ∃ u y, exec (.represent (.entry tag e.idx)) s = .next u ∧ SlotBecomes s u key y ∧
      y.value = x.value + w64 e.count ∧ y.pend = x.pend ++ [tag] ∧ y.waiters = x.waiters ∧
      u.gir = { s.gir with sreports := s.gir.sreports ++ [(sliceOf key, tag, e.idx, .ok)], fills := u.gir.fills, invs := u.gir.invs } ∧
      u.rt.parts.map (·.retry) = [[]] ∧ u.mem = s.mem ∧ u.agents = s.agents))

/-- An armed barrier whose time has come, with nothing of its slice due before it, completes its phase, one put off before as
of its window's start; under CHOLD it only leaves the release list, and under DROOP_WARN its completion is put off once. A
time frame of the open phase arms a FOLLOWER with its time, or, late, completes it, is counted and recorded; one of another
phase raises TRS source 1; one for any other object is dropped and counted. The root's report of a phase whose results are
written completes the barrier under CHOLD, counts the phase, stores its arithmetic word and clears the entry for the next one;
before the release time of an armed phase it clears CHOLD alone; an abort reported early is kept; one reported under CHOLD
completes the barrier, and the entry goes on to the next phase. That the signal record keeps its agent and takes the time of
such a change is the model's reading (log entry 30). (R117, R134, R138, R148, R151, R152, R211, R224, R231) -/
def Obligations.TimedReleases : Prop :=
  ∀ (sl st : Nat) (s : State), quiet s = true → coreRuns s = true → st < 4096 →
    let key := slotKey sl st
    ∀ (x : Slot), slotAt s key = some x → x.kind = .barrier → unwatched x = true → x.paused = false →
      (x.paired && s.flt.differ.contains key) = false → mirrored s x.tenant = false →
    let ph := barPhase x.value
    let done (d : Nat) : Slot := { x with
      value := barWord (!ph) 0 false false 0, role := false, combine := false, aborted := false, due := none
      members := x.members.map fun w => (w.1, 0#512), result := if x.aborted = true then none else x.result
      sig := x.sig.map fun r => { r with dt := d }, lastSig := d }
    let slots (u : State) (offs : List Nat) : Prop :=
      u = { s with rf := u.rf, obs := u.obs, sema := { s.sema with slots := u.sema.slots } } ∧ SameButCounters s u offs
    let counts (u : State) : Prop := get u fTrsCnt0Barcomp = (get s fTrsCnt0Barcomp + 1) % 2 ^ 32
    (∀ d, x.due = some d → boundRoots s x.tenant x.obj = [] →
      let first := windowDue s d = false ∧ releaseBefore s sl d st = false ∧ expiryBefore s sl d = false
      (s.now < d ∨ ¬ first → exec (.timedRelease sl st) s = .next s) ∧
      (first → d ≤ s.now → barChold x.value = true → ∃ u, exec (.timedRelease sl st) s = .next u ∧
        SlotBecomes s u key { x with due := none } ∧ slots u []) ∧
      (first → d ≤ s.now → barChold x.value = false → (s.clk.droop = false ∨ d % 2 ^ 40 ≠ barTrel x.value) →
        ∃ u, exec (.timedRelease sl st) s = .next u ∧
          SlotBecomes s u key (done (if d % 2 ^ 40 = barTrel x.value then s.now else d)) ∧ counts u ∧ slots u [fTrsCnt0Barcomp.off]) ∧
      (first → d ≤ s.now → barChold x.value = false → s.clk.droop = true → d % 2 ^ 40 = barTrel x.value →
        ∃ u, exec (.timedRelease sl st) s = .next u ∧
          SlotBecomes s u key { x with due := some (windowStart (windowOf d + max 1 (get s fWaitCtlDroopDefer))) } ∧
          get u fWaitCnt3Deferred = (get s fWaitCnt3Deferred + 1) % 2 ^ fWaitCnt3Deferred.w ∧ slots u [fWaitCnt3Deferred.off])) ∧
    (∀ (n t obj i : Nat) (h : Hdr) (f : Bool), delivers s n h = true → on s fSemaStatHtmReady = true →
      isOlder (epochOf s h.tenant) h.epoch = false → htmIdx s h.tenant obj = some i → heldAtBank s i = false →
      (htmAt s i).state = .resident → slotKey (htmAt s i).slice (htmAt s i).slot = key → s.flt.shadows = [] → noCredit s sl = false →
      boundRoots s x.tenant x.obj = [] →
      resetsNothing s bTrs 0 = true → resetsNothing s bTrs 1 = true →
      let ports (u : State) (offs : List Nat) : Prop := (∀ k, k ≠ n → portSt u k = portSt s k) ∧ u.mem = s.mem ∧ u.agents = s.agents ∧
        SameButCounters s u offs
      (parMode x.param ≠ 2 → ∃ u, exec (.timeFrame n h obj f t) s = .next u ∧ SlotBecomes s u key x ∧
        get u fTrsCnt2Framedrop = (get s fTrsCnt2Framedrop + 1) % 2 ^ 32 ∧ ports u [fTrsCnt2Framedrop.off]) ∧
      (parMode x.param = 2 → f ≠ ph → ∃ u, exec (.timeFrame n h obj f t) s = .next u ∧ SlotBecomes s u key x ∧
        nbit (get u (fStatSticky bTrs)) 1 = true ∧ ports u [rFstat bTrs, rFfirst bTrs]) ∧
      (parMode x.param = 2 → f = ph → s.now < t → ∃ u, exec (.timeFrame n h obj f t) s = .next u ∧
        SlotBecomes s u key { x with
          value := barWord ph (barArrived x.value) true false t, due := some t
          sig := x.sig.map fun r => { r with dt := s.now }, lastSig := s.now } ∧ ports u []) ∧
      (parMode x.param = 2 → f = ph → t ≤ s.now → ∃ u, exec (.timeFrame n h obj f t) s = .next u ∧ SlotBecomes s u key (done s.now) ∧
        counts u ∧ get u fTrsCnt1Late = (get s fTrsCnt1Late + 1) % 2 ^ 32 ∧ nbit (get u (fStatSticky bTrs)) 0 = true ∧
        ports u [fTrsCnt0Barcomp.off, fTrsCnt1Late.off, rFstat bTrs, rFfirst bTrs])) ∧
    (∀ (k t ep obj i : Nat) (y : Ctx) (ab : Bool) (rest : List (Nat × (Nat × Nat) × Nat × Bool)), ctxAt s k = some y →
      s.gir.reports = (k, (t, ep), obj, ab) :: rest → isOlder (epochOf s t) ep = false → noCredit s sl = false →
        htmIdx s t obj = some i → (htmAt s i).state = .resident →
      slotKey (htmAt s i).slice (htmAt s i).slot = key →
      let cleared : Ctx := { y with
        st := .open, parts := [], chunk := 0, counts := [], closeAt := none, partials := [], whole := [], carry := [], carryAt := 0
        resPos := [], bins := [], arith := 0, offender := none, writing := false, reported := false, phase := !y.phase }
      let early := barArmed x.value && x.due.any fun d => decide (s.now < d)
      let result := some (y.chunks, 4 * (y.arith.toNat % 16))
      (ab = false → barChold x.value = true → early = false → x.combine = true → boundRoots s x.tenant x.obj = [(k, y)] →
        y.st = .closed → y.aborted = false → y.phase = ph →
        ∃ u, exec (.combineReport k) s = .next u ∧ ctxAt u k = some cleared ∧ (∀ m, m ≠ k → ctxAt u m = ctxAt s m) ∧
          SlotBecomes s u key { done s.now with result := result } ∧ counts u ∧ rd u (rAbcCsr k 1) = arithWord y.arith.toNat y.offender ∧
          get u (fAbcCsr2Phases k) = (get s (fAbcCsr2Phases k) + 1) % 2 ^ (fAbcCsr2Phases k).w ∧
          u.gir = { s.gir with reports := rest } ∧ u.mem = s.mem) ∧
      (ab = false → barChold x.value = true → early = true →
        ∃ u, exec (.combineReport k) s = .next u ∧ u.abc = s.abc ∧ SlotBecomes s u key { x with
            value := barWord ph (barArrived x.value) true false (barTrel x.value), result := result, aborted := false
            sig := x.sig.map fun r => { r with dt := s.now }, lastSig := s.now } ∧
          u.gir = { s.gir with reports := rest } ∧ u.mem = s.mem) ∧
      (ab = true → barChold x.value = true → early = false → boundRoots s x.tenant x.obj = [(k, y)] → y.aborted = true → y.phase = ph →
        ∃ u, exec (.combineReport k) s = .next u ∧ ctxAt u k = some { y with aborted := false, phase := !y.phase } ∧
          (∀ m, m ≠ k → ctxAt u m = ctxAt s m) ∧ SlotBecomes s u key { done s.now with result := none } ∧ counts u ∧
          u.gir = { s.gir with reports := rest } ∧ u.mem = s.mem) ∧
      (ab = true → barChold x.value = false →
        ∃ u, exec (.combineReport k) s = .next u ∧ u.abc = s.abc ∧
          SlotBecomes s u key { x with aborted := true, result := none } ∧ u.gir = { s.gir with reports := rest } ∧
          slots { u with gir := s.gir } []))

/-- While firmware serves the paging queue: the one item of it, a SIG_ADD or POLL on a BACKED SEQ that is not poisoned, is
applied to the image and answered, whichever tenant sent it; a try-once WAIT_GE that the image does not satisfy ends with
TIMEOUT. A wait that needs its object in a slot begins a page-in where a slot can be had: the entry goes to TRANSIT and the
slot is claimed; where no slot and no object to evict can be had the item stays, marked. That an object on its way in counts
in its tenant's resident share and its slot is taken from then on is the model's reading (log entry 18). The end of a page-in
leaves the object of the image in the claimed slot, its entry RESIDENT, and counts it. No other byte of memory and no other
slot changes. (R37, R46, R47, R48, R49, R50, R70) -/
def Obligations.PagingServes : Prop :=
  ∀ (i t n : Nat) (s : State), quiet s = true → coreRuns s = true → fwRuns s = true → on s fSemaCtlPageEn = true → Memory.wf s.mem = true →
    let addr := 4096 * get s (fSemaBackAddr t) + 16 * n
    let v := mem64 s addr
    let m := mem64 s (addr + 8)
    let e := htmAt s i
    (∀ (c : Cmd) (it : Item) (wd : Nat) (ms tr : Bool) (imp : Option Import), s.sema.paging = [⟨i, wd, .cmd c ms imp, tr⟩] →
      importStale s imp = false → mirrored s t = false → e.state = .backed → ownerOf s i = some (t, n) →
      nbit m.toNat 52 = false → kindOf (wbits m 48 3) = some .seq → isOlder (epochOf s c.tenant) c.epoch = false →
      (sideAt s i).pend = [] → c.die = dieOf s → pDie c.words = c.die → itemOf s c = some it → it.words = c.words → fREL c.words = false →
      fACQ c.words = false →
      let gives (u : State) (r : Reply) : Prop := Becomes s u c.agent c.queue it (it.replied s c r) ∧ u.sema.paging = [] ∧
        get u fSemaBscntBackops = (get s fSemaBscntBackops + 1) % 2 ^ fSemaBscntBackops.w ∧ u.sema.slots = s.sema.slots ∧
        u.sema.htm = s.sema.htm ∧ SameButCounters s u [fSemaBscntBackops.off]
      (pOp c.words = some .sigAdd → ∃ u, exec (.backingOp 0) s = .next u ∧ gives u ⟨v + pOperand c.words, .ok, 0, s.now⟩ ∧
        mem64 u addr = v + pOperand c.words ∧ (∀ b, (b < addr ∨ addr + 16 ≤ b) → memByte u.mem b = memByte s.mem b)) ∧
      (pOp c.words = some .poll → ∃ u, exec (.backingOp 0) s = .next u ∧ gives u ⟨v, .ok, 0, s.now⟩ ∧ u.mem = s.mem) ∧
      (pOp c.words = some .waitGe → tryOnce c.words = true → e.kind = .seq → 2 ^ 63 ≤ (v - pOperand c.words).toNat →
        ∃ u, exec (.backingOp 0) s = .next u ∧ gives u ⟨causeWord 1 (dieOf s) (v.toNat % 2 ^ 32), .timeout, 64, s.now⟩ ∧
          u.mem = s.mem) ∧
      (pOp c.words = some .waitGe → tryOnce c.words = false → s.sema.moves = [] →
        let param := BitVec.ofNat 48 (wbits m 0 48)
        (∀ key, shareFull s t = false → chooseSlot s e.kind param e.slice = some key →
          ∃ u w, exec (.pageIn 0) s = .next u ∧ u.sema.moves = [⟨i, t, n, key, w, none⟩] ∧
            htmAt u i = { e with state := .transit } ∧ (∀ j, j ≠ i → htmAt u j = htmAt s j) ∧
            u = { s with sema := { s.sema with htm := u.sema.htm, moves := u.sema.moves, paging := [⟨i, wd, .cmd c ms imp, false⟩] } }) ∧
        (shareFull s t = true → s.sema.slots = [] →
          exec (.pageIn 0) s = .next { s with sema := { s.sema with paging := [⟨i, wd, .cmd c ms imp, true⟩] } }))) ∧
    (∀ (mv : Move), s.sema.moves = [mv] → mv.index = i → mv.tenant = t → mv.obj = n → mv.victim = none → s.sema.paging = [] →
      s.sema.transit = [] → (tenSt s t).st ≠ .resetting → (kindOf (wbits m 48 3) = some .barrier → barArmed v = false) →
      ∃ u y, exec (.pageIn 0) s = .next u ∧ SlotBecomes s u mv.key y ∧ y.value = v ∧
        (∀ k, kindOf (wbits m 48 3) = some k → y.kind = k) ∧ y.param = BitVec.ofNat 48 (wbits m 0 48) ∧ y.poison = nbit m.toNat 52 ∧
        y.cbound = nbit m.toNat 54 ∧ y.tenant = t ∧ y.obj = n ∧ unwatched y = true ∧ y.lastSig = s.now ∧
        htmAt u i = ⟨.resident, sliceOf mv.key, slotOf mv.key, e.kind⟩ ∧ (∀ j, j ≠ i → htmAt u j = htmAt s j) ∧
        u.sema.moves = [] ∧ get u fSemaPgcntPagein = (get s fSemaPgcntPagein + 1) % 2 ^ fSemaPgcntPagein.w ∧ u.mem = s.mem ∧
        SameButCounters s u [fSemaPgcntPagein.off])

/-- A command message whose QSEQ is the next of its queue and that has no count to wait for or has reached it is applied at
its home: a SIG_ADD on a resident SEQ changes it and a MEMBER adding members changes the window, with the reply on its way.
One that has not reached its count is held; one for a tenant not ACTIVE goes back with REFUSE. When the delivered-write count
comes the held command is applied; at its limit it is discarded, counted, recorded and answered DATA_LATE. A reply is the
reply of the command its stamp names; a refusal puts it off by its reason's delay in its pier's Deck Time, or with TRY ends it
with FULL, but for a barrier's hold. The count of a die's writes that names no held command moves that count alone, which is
how the model takes it (log entry 35). A mirror record that agrees with the copy is written and acknowledged, one that does
not poisons the copy; an acknowledgement delivers the reply held back, a failed one delivers POISON, poisons the object and is
counted. (R79, R90, R93, R263, R264, R266, R288, R289, R308, R309, R310, R499) -/
def Obligations.CommandMessages : Prop :=
  (∀ (n : Nat) (h : Hdr) (s : State), delivers s n h = true →
    let x := portSt s n
    let sent (u : State) (d : Nat) (m : Msg) : Prop := ∀ k, nextPort s (dieOf s) d = some k →
      ∃ g, g.dst = d ∧ g.src = dieOf s ∧ (portSt u k).sent = (portSt s k).sent ++ [⟨g, m⟩]
    let more (k : Fld) (u : State) : Prop := get u k = (get s k + 1) % 2 ^ k.w
    (∀ (c : Cmd) (key : Nat) (o : Slot), stampOf s.now h c = c → c.die ≠ dieOf s → c.die < 64 → inReach s c.die = true →
      epochOf s c.tenant = c.epoch →
      x.hold = [] → x.gone = [] → h.qseq < 65536 → pDie c.words = dieOf s →
      let msg := if isExt (pOpcode c.words) = true then Instr.xcmd n h c else Instr.cmd n h c
      let ready := (tenSt s c.tenant).st = .active ∧ qexpOf x (qKey c) = h.qseq ∧ 
        (pOp c.words).bind (fun op => bankSlot s c op (pObj c.words)) = some key ∧ takesOp s key o = true ∧ unwatched o = true
      let applied (u : State) (y : Slot) (r : Reply) : Prop := SlotBecomes s u key y ∧
        sent u c.die (.reply c { r with rflags := 128 }) ∧ u.mem = s.mem ∧ u.agents = s.agents ∧ SameButCounters s u []
      let y : Slot := { o with sig := some ⟨c.agent, c.die, s.now, false⟩, lastSig := s.now }
      let v := o.value + pOperand c.words
      (ready → dwPass s c (dwOf c.words) = true →
        (pOp c.words = some .sigAdd → fREL c.words = false → o.kind = .seq → pOperand c.words ≠ 0 →
          ∃ u, exec msg s = .next u ∧ applied u { y with value := v } ⟨v, .ok, 0, s.now⟩ ∧
            qexpOf (portSt u n) (qKey c) = (h.qseq + 1) % 65536) ∧
        (∀ m b, pOp c.words = some .member → fREL c.words = false → o.kind = .barrier → parMode o.param = 1 →
          barArmed o.value = false → barChold o.value = false → o.members[memberWin c.words]? = some (m, b) → memberMode c.words = 1 →
          barArrived o.value = 0 →
          let z := { o with members := o.members.set (memberWin c.words) (m ||| memberMask c.words, b) }
          b &&& ~~~ (m ||| memberMask c.words) = 0#512 →
          ∃ u, exec msg s = .next u ∧ applied u z ⟨w64 (memberCount z), .ok, 0, s.now⟩)) ∧
      ((tenSt s c.tenant).st = .active → qexpOf x (qKey c) = h.qseq → dwPass s c (dwOf c.words) = false →
        ∃ u g, exec msg s = .next u ∧ (portSt u n).hold = [g] ∧ g.env.hdr = h ∧ g.arrival = s.now ∧ g.rdata = true ∧
          s.now + 1000 * max 1 (get s fCoreRdctlHoldlim) ≤ g.limit ∧ u.sema = s.sema ∧ u.mem = s.mem ∧ more fCoreRdcnt0Holds u) ∧
      ((tenSt s c.tenant).st ≠ .active → fTRY c.words = false →
        ∃ u, exec msg s = .next u ∧ sent u c.die (.refuse c 2) ∧ u.sema = s.sema ∧ u.mem = s.mem ∧ u.agents = s.agents)) ∧
    (∀ (c : Cmd) (i : Item) (r : Reply) (k : Nat), isOlder (epochOf s h.tenant) h.epoch = false → ownCmd s c = some c →
      itemOf s c = some i →
      i.words = c.words → c.die = dieOf s → isOlder (epochOf s c.tenant) c.epoch = false → pOp c.words ≠ some .arriveCombine →
      pOp c.words ≠ some .route → isLane c.words = false →
      let remote : BitVec 8 := if pDie c.words = c.die then 0 else 128
      let here := pierTime s c.pier
      (r.status ≠ .dataLate →
        ∃ u, exec (.reply n h c r) s = .next u ∧ Becomes s u c.agent c.queue i (i.replied s c { r with rflags := r.rflags ||| remote }) ∧
          u.sema = s.sema ∧ u.mem = s.mem ∧ SameButCounters s u [fMarCntCancels.off]) ∧
      (1 ≤ k → k ≤ 6 → (fTRY c.words = false ∨ k = 5) →
        let st := match k with
          | 1 => ItemSt.refused .bound (here + 1000)
          | 2 => .refused .bank (here + 1000)
          | 3 => .refused .bank (here + 256)
          | 4 => .refused .bound (here + 256)
          | 5 => .refused .barrier (here + 256)
          | _ => .refused .table (here + 64)
        ∃ u, exec (.refuse n h c k) s = .next u ∧ Becomes s u c.agent c.queue i { i with st := st } ∧ u.sema = s.sema ∧ u.mem = s.mem ∧
          SameButCounters s u []) ∧
      (1 ≤ k → k ≤ 6 → fTRY c.words = true → k ≠ 5 →
        ∃ u, exec (.refuse n h c k) s = .next u ∧ Becomes s u c.agent c.queue i (i.replied s c ⟨0, .full, remote, here⟩) ∧
          u.sema = s.sema ∧ u.mem = s.mem ∧ SameButCounters s u [fMarCntCancels.off])) ∧
    (∀ (m : MRec) (i key : Nat) (o : Slot), isOlder (epochOf s h.tenant) h.epoch = false → htmIdx s h.tenant m.obj = some i →
      (htmAt s i).state = .resident → slotKey (htmAt s i).slice (htmAt s i).slot = key → slotAt s key = some o →
      (o.paired && s.flt.differ.contains key) = false →
      let ack (u : State) (ok : Bool) : Prop := (∃ g, (portSt u n).sent = x.sent ++ [⟨g, .mack m.serial ok⟩]) ∧
        (∀ k, k ≠ n → portSt u k = portSt s k) ∧ u.mem = s.mem ∧ u.agents = s.agents ∧ SameButCounters s u []
      (o.value = m.oldV → o.metaOf = m.oldM → m.win = none →
        ∃ u y, exec (.mrec n h m) s = .next u ∧ SlotBecomes s u key y ∧ y.value = m.newV ∧ y.param = m.newM.extractLsb' 0 48 ∧
          y.poison = m.newM.getLsbD 52 ∧ y.members = o.members ∧ y.waiters = o.waiters ∧ ack u true) ∧
      (o.value ≠ m.oldV ∨ o.metaOf ≠ m.oldM →
        ∃ u, exec (.mrec n h m) s = .next u ∧ SlotBecomes s u key { o with poison := true } ∧ ack u false)) ∧
    (∀ (m : MirrorOut) (c : Cmd) (r : Reply) (i : Item) (o : Slot), isOlder (epochOf s h.tenant) h.epoch = false → s.span.mirror = [m] →
      m.port = n → m.live = true → m.key < 2 ^ 20 → m.cmd = some c → m.reply = some r → m.stage = none → itemOf s c = some i →
        i.words = c.words → c.die = dieOf s → pDie c.words = c.die →
      isOlder (epochOf s c.tenant) c.epoch = false → r.status ≠ .dataLate → slotAt s m.key = some o → unwatched o = true →
      o.paused = false →
      (∃ u, exec (.mack n h m.serial true) s = .next u ∧ Becomes s u c.agent c.queue i (i.replied s c r) ∧ u.span.mirror = [] ∧
        SlotBecomes s u m.key o ∧ u.mem = s.mem ∧ SameButCounters s u [fMarCntCancels.off]) ∧
      (s.flt.shadows = [] → resetsNothing s (bVia n) 8 = true →
        ∃ u, exec (.mack n h m.serial false) s = .next u ∧
          Becomes s u c.agent c.queue i (i.replied s c ⟨0, .poison, 0, s.now⟩) ∧ u.span.mirror = [] ∧
          SlotBecomes s u m.key { o with poison := true } ∧ more fCoreMircntMismatch u ∧
          nbit (get u (fStatSticky (bVia n))) 8 = true ∧ u.mem = s.mem))) ∧
  (∀ (n : Nat) (g : Held) (c : Cmd) (w : BitVec 32) (s : State), quiet s = true → coreRuns s = true → n < 8 → (portSt s n).hold = [g] →
    g.env.msg = .cmd c → dwOf c.words = some w → c.die ≠ dieOf s → c.die < 64 → isOlder (epochOf s c.tenant) c.epoch = false →
    pDie c.words = dieOf s → pOp c.words = some .sigAdd →
    let sent (u : State) (m : Msg) : Prop := ∀ k, nextPort s (dieOf s) c.die = some k →
      ∃ e, e.dst = c.die ∧ e.src = dieOf s ∧ (portSt u k).sent = (portSt s k).sent ++ [⟨e, m⟩]
    (∀ dwc : BitVec 32, let reached := decide ((dwc - w).toNat < 2 ^ 31)
      (∀ die < 64, ∃ u, exec (.holdRelease n (128 + die) dwc) s = .next u ∧ RegsOnly s u [rCoreDwc die] ∧
        get u ⟨rCoreDwc die, 0, 32⟩ = if die = dieOf s then get s ⟨rCoreDwc die, 0, 32⟩ else dwc.toNat) ∧
      (reached = false → ∃ u, exec (.holdRelease n 0 dwc) s = .next u ∧ get u ⟨rCoreDwc c.die, 0, 32⟩ = dwc.toNat ∧
        RegsOnly s u [rCoreDwc c.die]) ∧
      (∀ (key : Nat) (o : Slot), reached = true → seqSeen (qexpOf (portSt s n) (qKey c)) g.env.hdr.qseq = true →
        bankSlot s c .sigAdd (pObj c.words) = some key →
        takesOp s key o = true → unwatched o = true → fREL c.words = true → o.kind = .seq → pOperand c.words ≠ 0 →
        let v := o.value + pOperand c.words
        ∃ u, exec (.holdRelease n 0 dwc) s = .next u ∧ (portSt u n).hold = [] ∧ get u ⟨rCoreDwc c.die, 0, 32⟩ = dwc.toNat ∧
          SlotBecomes s u key { o with
            value := v, sig := some ⟨c.agent, c.die, s.now, false⟩, lastSig := s.now
            rel := some ⟨c.agent, c.pier, c.die, pScope c.words⟩ } ∧
          sent u (.reply c ⟨v, .ok, 128, s.now⟩) ∧ u.mem = s.mem ∧ u.agents = s.agents ∧ SameButCounters s u [rCoreDwc c.die])) ∧
    (g.rdata = true →
      (s.now < g.limit → exec (.holdDiscard n 0) s = .next s) ∧
      (g.limit ≤ s.now → mayGo s (portSt s n) g = false → s.flt.shadows = [] → resetsNothing s (bVia n) 5 = true →
        ∃ u, exec (.holdDiscard n 0) s = .next u ∧ (portSt u n).hold = [] ∧ sent u (.reply c ⟨0, .dataLate, 128, s.now⟩) ∧
          get u fCoreRdcnt0Late = (get s fCoreRdcnt0Late + 1) % 2 ^ fCoreRdcnt0Late.w ∧
          nbit (get u (fStatSticky (bVia n))) 5 = true ∧ u.mem = s.mem ∧ u.agents = s.agents ∧
          (residentSlot s c.tenant (pObj c.words) = none → u.sema = s.sema) ∧
          (∀ key o, residentSlot s c.tenant (pObj c.words) = some key → slotAt s key = some o →
            SlotBecomes s u key { o with
              waiters := o.waiters.map fun y => if y.cause.isSome = true then y else { y with cause := some (2, dieOf s) } }))))

/-- The beat presented by a pier, accepted, is outstanding while fewer than 16 are. A payload beat read belongs to its
participant; the last result beat written of a root that writes its last chunk makes it report to the barrier. A chunk read
whole: a stage sends its partial, a root enters its own, and with every partial there and no other die it reduces and asks for
the results to be written. A partial that is not the last wanted is kept, taken four elements at a time; a result is written
to the participants of a stage; a close frame closes the stage at its count, and with the count 0 returns it to OPEN; an abort
frame empties a stage, and at the root in a phase aborts it, is counted and reported to the barrier. That a close frame with
the count 0 says that the phase has nobody on the die, so that the stage goes on to the next phase, is the model's reading
(log entry 24). (R205, R222, R226, R227, R228, R231, R233, R398, R482) -/
def Obligations.CombineDataMoves : Prop :=
  ∀ (k : Nat) (x : Ctx) (s : State), quiet s = true → coreRuns s = true → ctxAt s k = some x →
    let others (u : State) : Prop := ∀ m, m ≠ k → ctxAt u m = ctxAt s m
    let same (u : State) : Prop := u.sema = s.sema ∧ u.mem = s.mem ∧ u.lanes = s.lanes
    let emptied (y : Ctx) (ab : Bool) : Ctx := { y with
      st := .open, parts := [], chunk := 0, counts := [], closeAt := none, partials := [], whole := [], carry := [], carryAt := 0
      resPos := [], bins := [], arith := 0, offender := none, writing := false, reported := false, aborted := ab }
    (∀ (p : Nat) (b : Beat) (rest : List Beat), (pierSt s p).spq = b :: rest → (pierSt s p).stopped = false →
      ((pierSt s p).spOut.length < 16 → exec (.spRdy p) s
        = .next (setPier s p { pierSt s p with spq := rest, spOut := (pierSt s p).spOut ++ [b] })) ∧
      (16 ≤ (pierSt s p).spOut.length → exec (.spRdy p) s = .next s)) ∧
    (∀ (p ag a : Nat) (n : PierNet) (b : Beat) (rest : List Beat) (data : BitVec 512) (o : Particip), pierNet s p = some n →
      agentAt n ag = some a → (pierSt s p).spOut = b :: rest → b.agent = a → b.ctx = k → x.parts = [o] → o.pidx = b.pidx →
      o.cmd.agent = a →
      (b.write = false → b.addr ∈ o.asked →
        ∃ u, exec (.spRvalid p ag data false) s = .next u ∧ pierSt u p = { pierSt s p with spOut := rest } ∧
          ctxAt u k = some { x with parts := [{ o with
            beats := mput o.beats b.addr data, asked := o.asked.filter fun j => decide (j ≠ b.addr) }] } ∧ others u ∧ same u) ∧
      (b.write = true → x.root = true → x.writing = true → x.reported = false → o.accepted = true → o.final = true → o.left = 1 →
        s.gir.reports = [] →
        ∃ u, exec (.spRvalid p ag data false) s = .next u ∧ ctxAt u k = some { x with parts := [{ o with left := 0 }], reported := true } ∧
          u.gir = { s.gir with reports := [(k, (x.tenant, epochOf s x.tenant), x.bhandle % 2 ^ 26, false)] } ∧ others u ∧ same u)) ∧
    (let j := x.chunk
     let mine := treeVec (dOp x.desc) ((localSeq x).map fun p => leavesOf (dieOf s) x p j)
     x.st = .closed → j < x.chunks → chunkRead x j = true → 0 < accepted x →
      (x.root = false → mine.length ≤ 252 → mine ≠ [] → j + 1 = x.chunks →
        ∃ u, exec (.chunkComplete k) s = .next u ∧ ctxAt u k = some { x with chunk := j + 1 } ∧ others u ∧ same u ∧
          ∀ n, nextPort s (dieOf s) (x.bhandle / 2 ^ 26) = some n → ∃ g, g.dst = x.bhandle / 2 ^ 26 ∧ g.src = dieOf s ∧
            (portSt u n).sent = (portSt s n).sent ++ [⟨g, .cpart ⟨k, x.phase, j, 0, true⟩ mine⟩]) ∧
      (x.root = true → (∃ d ∈ partialDies s x, d ≠ dieOf s ∧ 64 * j + d ∉ x.whole) → 64 * j + dieOf s ∉ x.whole → dieOf s < 64 →
        ∃ u, exec (.chunkComplete k) s = .next u ∧
          ctxAt u k = some { x with partials := mput x.partials (64 * j + dieOf s) mine, whole := x.whole ++ [64 * j + dieOf s] } ∧
          others u ∧ same u) ∧
      (∀ (o : Particip) (p : PierNet), x.root = true → x.dies = w64 (2 ^ dieOf s) → dieOf s < 64 → j = 0 → x.chunks = 1 → x.parts = [o] →
        x.carry = [] →
        x.carryAt = 0 → x.resPos = [] → x.bins = [] → x.partials = [] → x.whole = [] → x.arith = 0 → x.offender = none →
        dOp x.desc ≠ oArgmax → dHist x.desc = false → 1 ≤ x.n → x.n ≤ x.chunkSize → (agentSt s o.cmd.agent).port = .open →
          pierOf s o.cmd.agent = some p →
        let outs := mine.map (writeRoot x.desc)
        let w := fmtBits (dOfmt x.desc)
        let vals := bytesOf ((outs.length * w + 7) / 8) (packBits w (outs.map (·.1)))
        let bytes := vals ++ List.replicate ((vals.length + 7) / 8 * 8 - vals.length) 0
        ∃ u y, exec (.chunkComplete k) s = .next u ∧ ctxAt u k = some y ∧ y.chunk = 1 ∧ y.writing = true ∧
          (pierSt u p.pier).spq.length = (pierSt s p.pier).spq.length + (bytes.length + 63) / 64 ∧
          (∀ i v, (pieces 64 bytes)[i]? = some v → (pierSt u p.pier).spq[(pierSt s p.pier).spq.length + i]? =
            some ⟨o.cmd.agent, true, o.dst / 64 + i, BitVec.ofNat 64 (2 ^ v.length - 1), BitVec.ofNat 512 (ofBytes v), k, o.pidx⟩) ∧
          y.arith = w64 (outs.foldl (fun n z => n ||| z.2.2.1) 0) ∧ others u ∧ same u)) ∧
    (∀ (n : Nat) (h : Hdr), delivers s n h = true → isOlder (epochOf s h.tenant) h.epoch = false →
      (∀ (ph last : Bool) (es : List Elem) (sg : Nat), k < 1024 → x.tenant < 256 → x.root = true → x.aborted = false → x.phase = ph →
        h.src < 64 →
        64 * x.chunk + h.src ∉ x.whole → (x.st ≠ .closed ∨ (∃ d ∈ partialDies s x, d ≠ h.src ∧ 64 * x.chunk + d ∉ x.whole)) →
        ∃ u, exec (.cpart n h ⟨k, ph, x.chunk, sg, last⟩ es) s = .next u ∧
          ctxAt u k = some { x with
            partials := mput x.partials (64 * x.chunk + h.src) (mgetD x.partials (64 * x.chunk + h.src) [] ++ es)
            whole := if last = true then x.whole ++ [64 * x.chunk + h.src] else x.whole } ∧ others u ∧ same u) ∧
      (∀ (off sg : Nat) (bs : List Byte) (o : Particip) (p : PierNet), x.root = false → x.aborted = false → x.st = .closed → x.parts = [o] →
        o.accepted = true → o.left = 0 → bs ≠ [] → (agentSt s o.cmd.agent).port = .open → pierOf s o.cmd.agent = some p →
        x.chunk + 1 ≤ x.chunks →
        ∃ u, exec (.cres n h ⟨k, x.phase, x.chunk, sg, false⟩ off bs) s = .next u ∧
          ctxAt u k = some { x with parts := [{ o with left := (bs.length + 63) / 64 }] } ∧
          (pierSt u p.pier).spq.length = (pierSt s p.pier).spq.length + (bs.length + 63) / 64 ∧ others u ∧ same u) ∧
      (∀ (m : Nat) (ph : Bool), x.root = false → x.closed1 = true → (x.aborted = false ∨ x.phase ≠ ph) → x.st ≠ .closed → (m = 0 →
        accepted x = 0) →
        ∃ u, exec (.cclose n h k ph m) s = .next u ∧ others u ∧ same u ∧
          (m = 0 → ctxAt u k = some { emptied x false with parts := x.parts, phase := !ph }) ∧
          (m ≠ 0 → ctxAt u k = some { x with
            closeAt := some m, phase := ph, aborted := false, st := if accepted x = m then .closed else x.st })) ∧
      (∀ (ph : Bool) (a : Abort), x.parts = [] → (x.aborted = false ∨ x.phase ≠ ph) →
        (x.root = false → ∃ u, exec (.cabort n h k ph a) s = .next u ∧ ctxAt u k = some { emptied x true with phase := ph } ∧
          others u ∧ same u) ∧
        (x.root = true → x.phase = ph → x.st ≠ .open → x.reported = false → (x.writing = false ∨ a.code = 5) →
          ∃ u, exec (.cabort n h k ph a) s = .next u ∧ ctxAt u k = some (emptied x true) ∧
            u.gir = { s.gir with reports := s.gir.reports ++ [(k, (x.tenant, epochOf s x.tenant), x.bhandle % 2 ^ 26, true)] } ∧
            get u fAbcCnt1Aborts = (get s fAbcCnt1Aborts + 1) % 2 ^ fAbcCnt1Aborts.w ∧ others u ∧ same u)))

/-- Of a served command of a manager outside a freeze: OPEN of a FREE entry with a legal record opens it with the fields of
ABC_CTXD0 to ABC_CTXD3 and clears its records; a root sets CBOUND on its barrier; of an entry that is not FREE, or with an
illegal descriptor, it is BADOP. CLOSE of an OPEN entry without accepted arrivals frees it and clears CBOUND; READ loads the
record; both are BADOP on a FREE entry. A command while BUSY is set is refused and recorded. An arbitration window begins
once, at its boundary, and gives each tenant its weight as its quantum, 0 as 1, or 1 for each with ARB_EN clear. (R185, R215,
R217, R219, R236, R237, R238) -/
def Obligations.ContextCommands : Prop :=
  ∀ (r : Requester) (k : Nat) (s : State), quiet s = true → k < 1024 →
    (manages s r rAbcCmd = true → freezing s = false → degradedOn s = false →
      let status (u : State) (st : Status) : Prop := get u fAbcCmdstCtx = k ∧ get u fAbcCmdstStatus = stCode st ∧ get u fAbcCmdstBusy = 0
      let bad (c : Instr) : Prop := ∃ u, exec c s = .next u ∧ status u .badop ∧ RegsOnly s u [rAbcCmdst]
      let others (u : State) : Prop := ∀ m, m ≠ k → ctxAt u m = ctxAt s m
      let x := ctxFrom s
      let open_ (key : Nat) (o : Slot) : Prop := slotAt s key = some o ∧ noCredit s (sliceOf key) = false ∧ o.paused = false ∧
        (o.paired && s.flt.differ.contains key) = false ∧ mirrored s o.tenant = false ∧ cboundWaits s = false
      (on s fAbcCmdstBusy = true → s.flt.shadows = [] → resetsNothing s bAbc 3 = true →
        (∃ u, exec (.open r k) s = .next u ∧ Recorded s u bAbc 3) ∧ (∃ u, exec (.close r k) s = .next u ∧ Recorded s u bAbc 3) ∧
        (∃ u, exec (.read r k) s = .next u ∧ Recorded s u bAbc 3)) ∧
      (on s fAbcCmdstBusy = false →
        (ctxAt s k ≠ none ∨ descLegal (rd s rAbcCtxd0) (get s fAbcCtxd1Nm1 + 1) = false → bad (.open r k)) ∧
        (ctxAt s k = none → descLegal x.desc x.n = true → ctxInRange s x = true → fmtBytes (dIfmt x.desc) x.n ≤ 4096 →
          (dOp x.desc = oHisto → x.n ≤ 1024) → smaxOf x.lmax x.dies ≤ 16 * x.buf → get s (fSemaHtwLen x.tenant) ≠ 0 →
          unitUse s (k % 16) + x.buf ≤ 32 → tenBuf s x.tenant + x.buf ≤ get s (fTenShare0Buf x.tenant) →
          ((get s fAbcCtxd1Bhandle / 2 ^ 26 ≠ dieOf s →
            ∃ u, exec (.open r k) s = .next u ∧ status u .ok ∧ ctxAt u k = some x ∧ others u ∧ u.sema = s.sema ∧
              (∀ j, 1 ≤ j → j ≤ 3 → rd u (rAbcCsr k j) = 0) ∧ gateOn u (73 + k % 16) = true ∧
              u = { s with rf := u.rf, abc := u.abc }) ∧
          (∀ (i key : Nat) (o : Slot), get s fAbcCtxd1Bhandle / 2 ^ 26 = dieOf s →
            htmIdx s x.tenant (get s fAbcCtxd1Bhandle % 2 ^ 26) = some i → (htmAt s i).kind = .barrier → (htmAt s i).state = .resident →
            key = slotKey (htmAt s i).slice (htmAt s i).slot → open_ key o → parMode o.param ≤ 1 → o.cbound = false →
            ∃ u, exec (.open r k) s = .next u ∧ status u .ok ∧ ctxAt u k = some x ∧ others u ∧
              SlotBecomes s u key { o with cbound := true } ∧ u = { s with rf := u.rf, abc := u.abc, sema := u.sema }))) ∧
        (ctxAt s k = none → bad (.close r k) ∧ bad (.read r k)) ∧
        (∀ y, ctxAt s k = some y →
          (∃ u, exec (.read r k) s = .next u ∧ status u .ok ∧ rd u rAbcCtxd0 = y.desc ∧ rd u rAbcCtxd2 = y.dies ∧
            rd u rAbcCtxd1 = w64 (y.bhandle + 2 ^ 32 * y.tenant + 2 ^ 40 * (y.n - 1) + 2 ^ 53 * b2n y.closed1) ∧
            rd u rAbcCtxd3 = w64 (y.eloc + 2 ^ 12 * y.lmax + 2 ^ 24 * y.pcap + 2 ^ 37 * y.buf) ∧
            RegsOnly s u [rAbcCmdst, rAbcCtxd0, rAbcCtxd1, rAbcCtxd2, rAbcCtxd3]) ∧
          (y.st ≠ .open → bad (.close r k)) ∧
          (y.st = .open → (∀ p ∈ y.parts, p.accepted = false) →
            (y.root = false → ∃ u, exec (.close r k) s = .next u ∧ status u .ok ∧ ctxAt u k = none ∧ others u ∧
              u = { s with rf := u.rf, abc := u.abc } ∧ SameRegs s u [rAbcCmdst]) ∧
            (∀ (i key : Nat) (o : Slot), y.root = true → htmIdx s y.tenant (y.bhandle % 2 ^ 26) = some i → (htmAt s i).kind = .barrier →
              (htmAt s i).state = .resident → key = slotKey (htmAt s i).slice (htmAt s i).slot → open_ key o →
              ∃ u, exec (.close r k) s = .next u ∧ status u .ok ∧ ctxAt u k = none ∧ others u ∧
                SlotBecomes s u key { o with cbound := false } ∧ SameRegs s u [rAbcCmdst]))))) ∧
    (s.now / 1000 ≤ s.abc.window ∨ coreRuns s = false → exec .arbitrationWindow s = .next s) ∧
    (s.abc.window < s.now / 1000 → coreRuns s = true →
      ∃ u, exec .arbitrationWindow s = .next u ∧ u.abc.window = s.now / 1000 ∧
        u = { s with abc := { s.abc with window := u.abc.window, weights := u.abc.weights } } ∧
        ∀ t < 256, quantum u t = (if on s fAbcCtlArbEn = true then max 1 (get s (fTenShare0Weight t)) else 1))

/-- A manager's write to TRS_LEN of a lane that is not enabled or on which nothing has arrived leaves the bits; after the
die's wire frame it waits for the next phase. A write to TRS_LCFG or TRS_LXDIE of a lane not in use in its phase, within the
tenant's lanes, leaves the defined bits, and Trestle's gate open where it sets EN; of a lane in use either changes nothing and
records LCFG_REFUSED. That a lane is in use by the arrivals actually made, so that one that a disabled agent lacks is none, is
the model's reading (log entry 29). Writing 1 to BROKEN clears it, and PHASE stays. (R160, R164, R165, R166, R345) -/
def Obligations.LaneRegisters : Prop :=
  ∀ (r : Requester) (l w : Nat) (d : Word) (s : State), quiet s = true → l < 64 → w < 32 →
    let x := laneSt s l
    (manages s r (rTrsLen l w) = true →
      (x.sent = true → ∃ u, exec (.trsLen r l w d) s = .next u ∧ laneSt u l = { x with lenNext := mput x.lenNext w d } ∧
        (∀ k, k ≠ l → laneSt u k = laneSt s k) ∧ u = { s with lanes := u.lanes }) ∧
      (x.sent = false → on s (fTrsLcfgEn l) = false ∨ (x.forced = false ∧ x.raised = [] ∧
        x.waiting = []) ∨ x.broken = true ∨ x.armed ≠ none ∨ gateOn s 97 = false →
        ∃ u, exec (.trsLen r l w d) s = .next u ∧ rd u (rTrsLen l w) = d ∧ RegsOnly s u [rTrsLen l w])) ∧
    (manages s r (rTrsLcfg l) = true →
      (x.raised = [] → x.waiting = [] → x.armed = none →
        (wbits d 8 1 = 0 ∨ (on s (fTrsLcfgEn l) = true ∧ get s (fTrsLcfgTenant l) = wbits d 0 8) ∨
          lanesOf s (wbits d 0 8) < get s (fTenShare1Lanes (wbits d 0 8))) →
        ∃ u, exec (.trsLcfg r l false d) s = .next u ∧ rd u (rTrsLcfg l) = w64 (d.toNat % 2 ^ 38) ∧
          RegsOnly s u (if wbits d 8 1 = 0 ∨ on s (fTrsLcfgEn l) = true ∨ gateOn s 97 = true then [rTrsLcfg l]
            else [rTrsLcfg l, rClkGopen0, rClkGopen1]) ∧
          (wbits d 8 1 = 1 → on s (fTrsLcfgEn l) = false → gateOn u 97 = true)) ∧
      (x.raised ≠ [] ∨ x.waiting ≠ [] ∨ x.armed ≠ none → s.flt.shadows = [] → resetsNothing s bTrs 3 = true →
        ∃ u, exec (.trsLcfg r l false d) s = .next u ∧ Recorded s u bTrs 3)) ∧
    (manages s r (rTrsLxdie l) = true → x.raised = [] → x.waiting = [] → x.armed = none →
      ∃ u, exec (.trsLcfg r l true d) s = .next u ∧ rd u (rTrsLxdie l) = d ∧ RegsOnly s u [rTrsLxdie l]) ∧
    (manages s r (rTrsLxdie l) = true → (x.raised ≠ [] ∨ x.waiting ≠ [] ∨ x.armed ≠ none) → s.flt.shadows = [] →
      resetsNothing s bTrs 3 = true → ∃ u, exec (.trsLcfg r l true d) s = .next u ∧ Recorded s u bTrs 3) ∧
    (served s r (rTrsLstat l) = true →
      (wbits d 28 1 = 0 → exec (.trsLstat r l d) s = .next s) ∧
      (wbits d 28 1 = 1 → x.raised = [] → x.waiting = [] → x.forced = false →
        ∃ u, exec (.trsLstat r l d) s = .next u ∧ laneSt u l = { x with broken := false } ∧
          (∀ k, k ≠ l → laneSt u k = laneSt s k) ∧ u = { s with lanes := u.lanes }))
end

