-- ==== Sys2Proof/Laws/Memory.lean ====
section
/-! SUPPORT. Laws of external memory: every operation keeps the canonical form, a byte reads as it was written, and a write leaves
every other byte alone. -/
namespace Sys2Proof.Machine

/-- Every listed address lies above a. -/
def memAbove (m : List Host.Cell) (a : Nat) : Bool := m.all fun c => decide (a < c.1)

theorem Memory.wf_cons (a : Nat) (b : Byte) (r : List Host.Cell) :
    Memory.wf ((a, b) :: r) = (decide (b ≠ 0) && memAbove r a && Memory.wf r) := rfl

theorem memAbove_mono {m : List Host.Cell} {j k : Nat} (h : j < k) (a : memAbove m k = true) : memAbove m j = true := by
  simp only [memAbove, List.all_eq_true, decide_eq_true_eq] at *
  exact fun x hx => Nat.lt_trans h (a x hx)

theorem memAbove_cons (c : Host.Cell) (r : List Host.Cell) (a : Nat) :
    memAbove (c :: r) a = (decide (a < c.1) && memAbove r a) := rfl

theorem memAbove_drop {m : List Host.Cell} {j k : Nat} (a : memAbove m j = true) : memAbove (memDrop m k) j = true := by
  induction m with
  | nil => exact a
  | cons c r ih =>
    obtain ⟨k', v⟩ := c
    rw [memAbove_cons, Bool.and_eq_true] at a
    simp only [memDrop]
    split
    · exact a.2
    · rw [memAbove_cons, Bool.and_eq_true]; exact ⟨a.1, ih a.2⟩

theorem memAbove_ins {m : List Host.Cell} {j k : Nat} {v : Byte} (h : j < k) (a : memAbove m j = true) :
    memAbove (memIns m k v) j = true := by
  induction m with
  | nil => simp [memIns, memAbove, h]
  | cons c r ih =>
    obtain ⟨k', v'⟩ := c
    have a' := a
    rw [memAbove_cons, Bool.and_eq_true] at a
    simp only [memIns]
    split
    · rw [memAbove_cons, Bool.and_eq_true]; exact ⟨by simpa using h, a'⟩
    · split
      · rw [memAbove_cons, Bool.and_eq_true]; exact ⟨by simpa using h, a.2⟩
      · rw [memAbove_cons, Bool.and_eq_true]; exact ⟨a.1, ih a.2⟩

theorem memDrop_wf {m : List Host.Cell} (k : Nat) (h : Memory.wf m = true) : Memory.wf (memDrop m k) = true := by
  induction m with
  | nil => exact h
  | cons c r ih =>
    obtain ⟨k', v⟩ := c
    rw [Memory.wf_cons, Bool.and_eq_true, Bool.and_eq_true] at h
    simp only [memDrop]
    split
    · exact h.2
    · rw [Memory.wf_cons, Bool.and_eq_true, Bool.and_eq_true]; exact ⟨⟨h.1.1, memAbove_drop h.1.2⟩, ih h.2⟩

theorem memIns_wf {m : List Host.Cell} (k : Nat) (v : Byte) (hv : v ≠ 0) (h : Memory.wf m = true) :
    Memory.wf (memIns m k v) = true := by
  induction m with
  | nil => simpa [memIns, Memory.wf] using hv
  | cons c r ih =>
    obtain ⟨k', v'⟩ := c
    have h0 := h
    rw [Memory.wf_cons, Bool.and_eq_true, Bool.and_eq_true] at h
    simp only [memIns]
    split
    · rename_i hlt
      rw [Memory.wf_cons, Bool.and_eq_true, Bool.and_eq_true]
      refine ⟨⟨by simpa using hv, ?_⟩, h0⟩
      rw [memAbove_cons, Bool.and_eq_true]
      exact ⟨by simpa using hlt, memAbove_mono hlt h.1.2⟩
    · split
      · rename_i _ heq
        subst heq
        rw [Memory.wf_cons, Bool.and_eq_true, Bool.and_eq_true]; exact ⟨⟨by simpa using hv, h.1.2⟩, h.2⟩
      · rename_i h1 h2
        rw [Memory.wf_cons, Bool.and_eq_true, Bool.and_eq_true]
        exact ⟨⟨h.1.1, memAbove_ins (by omega) h.1.2⟩, ih h.2⟩

/-- Writing a byte keeps the canonical form. -/
theorem memPut_wf {m : List Host.Cell} (a : Nat) (b : Byte) (h : Memory.wf m = true) : Memory.wf (memPut m a b) = true := by
  unfold memPut
  split
  · exact memDrop_wf a h
  · rename_i hb; exact memIns_wf a b hb h

/-- Writing bytes keeps the canonical form. -/
theorem memPuts_wf {m : List Host.Cell} (a : Nat) (l : List Byte) (h : Memory.wf m = true) : Memory.wf (memPuts m a l) = true := by
  induction l generalizing m a with
  | nil => exact h
  | cons b r ih => exact ih _ (memPut_wf a b h)

theorem memWords_wf {m : List Host.Cell} (a : Nat) (l : List Word) (h : Memory.wf m = true) : Memory.wf (memWords m a l) = true :=
  memPuts_wf _ _ h

theorem memByte_above {m : List Host.Cell} {j k : Nat} (h : k ≤ j) (a : memAbove m j = true) : memByte m k = 0 := by
  induction m with
  | nil => rfl
  | cons c r ih =>
    obtain ⟨k', v⟩ := c
    rw [memAbove_cons, Bool.and_eq_true, decide_eq_true_eq] at a
    simp only at a
    simp only [memByte]
    rw [if_neg (by omega)]
    exact ih a.2

theorem memByte_drop_same {m : List Host.Cell} (k : Nat) (h : Memory.wf m = true) : memByte (memDrop m k) k = 0 := by
  induction m with
  | nil => rfl
  | cons c r ih =>
    obtain ⟨k', v⟩ := c
    rw [Memory.wf_cons, Bool.and_eq_true, Bool.and_eq_true] at h
    simp only [memDrop]
    split
    · rename_i e; subst e; exact memByte_above (Nat.le_refl _) h.1.2
    · rename_i hne; simp only [memByte]; rw [if_neg hne]; exact ih h.2

theorem memByte_drop_other {m : List Host.Cell} {k j : Nat} (h : j ≠ k) : memByte (memDrop m k) j = memByte m j := by
  induction m with
  | nil => rfl
  | cons c r ih =>
    obtain ⟨k', v⟩ := c
    simp only [memDrop]
    split
    · rename_i e; subst e; simp [memByte, Ne.symm h]
    · simp only [memByte]; rw [ih]

theorem memByte_ins_same {m : List Host.Cell} (k : Nat) (v : Byte) : memByte (memIns m k v) k = v := by
  induction m with
  | nil => simp [memIns, memByte]
  | cons c r ih =>
    obtain ⟨k', v'⟩ := c
    simp only [memIns]
    split
    · simp [memByte]
    · split
      · simp [memByte]
      · rename_i _ h2
        simp only [memByte]; rw [if_neg (fun e => h2 e.symm)]; exact ih

theorem memByte_ins_other {m : List Host.Cell} {k j : Nat} (v : Byte) (h : j ≠ k) : memByte (memIns m k v) j = memByte m j := by
  induction m with
  | nil => simp [memIns, memByte, Ne.symm h]
  | cons c r ih =>
    obtain ⟨k', v'⟩ := c
    simp only [memIns]
    split
    · simp [memByte, Ne.symm h]
    · split
      · rename_i _ e; subst e; simp [memByte, Ne.symm h]
      · simp only [memByte]; rw [ih]

/-- A byte reads as it was written. -/
theorem memByte_put_same {m : List Host.Cell} (a : Nat) (b : Byte) (h : Memory.wf m = true) : memByte (memPut m a b) a = b := by
  unfold memPut
  split
  · rename_i hb; rw [memByte_drop_same a h, hb]
  · exact memByte_ins_same a b

/-- Writing a byte leaves every other byte. -/
theorem memByte_put_other {m : List Host.Cell} {a j : Nat} (b : Byte) (h : j ≠ a) : memByte (memPut m a b) j = memByte m j := by
  unfold memPut
  split
  · exact memByte_drop_other h
  · exact memByte_ins_other b h

/-- Writing bytes leaves every byte outside them. -/
theorem memByte_puts_other {m : List Host.Cell} {a j : Nat} (l : List Byte) (h : j < a ∨ a + l.length ≤ j) :
    memByte (memPuts m a l) j = memByte m j := by
  induction l generalizing m a with
  | nil => rfl
  | cons b r ih =>
    simp only [List.length_cons] at h
    simp only [memPuts]
    rw [ih (by omega), memByte_put_other b (by omega)]

/-- Bytes read as they were written. -/
theorem memByte_puts_same {m : List Host.Cell} {a i : Nat} (l : List Byte) (h : Memory.wf m = true) (hi : i < l.length) :
    memByte (memPuts m a l) (a + i) = l.getD i 0 := by
  induction l generalizing m a i with
  | nil => simp at hi
  | cons b r ih =>
    simp only [memPuts]
    cases i with
    | zero =>
      rw [memByte_puts_other r (by omega)]
      simpa using memByte_put_same a b h
    | succ i =>
      have := ih (m := memPut m a b) (a := a + 1) (i := i) (memPut_wf a b h) (by simpa using hi)
      rw [show a + (i + 1) = a + 1 + i by omega, this]
      simp

end Sys2Proof.Machine
end

