-- ==== Sys2Proof/Laws/Tables.lean ====
section
/-! SUPPORT. Laws of the sparse tables: what a table holds after a change, and that every change keeps its canonical form. -/
namespace Sys2Proof.Machine

variable {α : Type}

/-- Every key of a table lies above k. -/
def above (m : SMap α) (k : Nat) : Bool := m.all fun x => decide (k < x.1)

theorem SMap.wf_cons (k : Nat) (v : α) (r : SMap α) : SMap.wf ((k, v) :: r) = (above r k && SMap.wf r) := rfl

theorem above_mono {m : SMap α} {j k : Nat} (h : j < k) (a : above m k = true) : above m j = true := by
  simp only [above, List.all_eq_true, decide_eq_true_eq] at *
  exact fun x hx => Nat.lt_trans h (a x hx)

theorem above_mput {m : SMap α} {j k : Nat} {v : α} (h : j < k) (a : above m j = true) : above (mput m k v) j = true := by
  induction m with
  | nil => simp [mput, above, h]
  | cons p r ih =>
    obtain ⟨k', v'⟩ := p
    simp only [above, List.all_cons, Bool.and_eq_true, decide_eq_true_eq] at a
    simp only [mput]
    split
    · simp only [above, List.all_cons, Bool.and_eq_true, decide_eq_true_eq]; exact ⟨h, a⟩
    · split
      · simp only [above, List.all_cons, Bool.and_eq_true, decide_eq_true_eq]; exact ⟨h, a.2⟩
      · simp only [above, List.all_cons, Bool.and_eq_true, decide_eq_true_eq]; exact ⟨a.1, ih a.2⟩

theorem above_mdel {m : SMap α} {j k : Nat} (a : above m j = true) : above (mdel m k) j = true := by
  induction m with
  | nil => simpa [mdel] using a
  | cons p r ih =>
    obtain ⟨k', v'⟩ := p
    simp only [above, List.all_cons, Bool.and_eq_true, decide_eq_true_eq] at a
    simp only [mdel]
    split
    · exact ih a.2
    · simp only [above, List.all_cons, Bool.and_eq_true, decide_eq_true_eq]; exact ⟨a.1, ih a.2⟩

/-- Putting a value keeps the canonical form. -/
theorem mput_wf {m : SMap α} (k : Nat) (v : α) (h : SMap.wf m = true) : SMap.wf (mput m k v) = true := by
  induction m with
  | nil => simp [mput, SMap.wf]
  | cons p r ih =>
    obtain ⟨k', v'⟩ := p
    have hw := h
    rw [SMap.wf_cons, Bool.and_eq_true] at h
    simp only [mput]
    split
    · rename_i hlt
      rw [SMap.wf_cons, Bool.and_eq_true]
      refine ⟨?_, hw⟩
      have := above_mono hlt h.1
      simp only [above, List.all_cons, Bool.and_eq_true, decide_eq_true_eq] at *
      exact ⟨hlt, this⟩
    · split
      · rename_i _ heq
        subst heq
        rw [SMap.wf_cons, Bool.and_eq_true]; exact h
      · rename_i h1 h2
        rw [SMap.wf_cons, Bool.and_eq_true]
        exact ⟨above_mput (by omega) h.1, ih h.2⟩

/-- Removing a key keeps the canonical form. -/
theorem mdel_wf {m : SMap α} (k : Nat) (h : SMap.wf m = true) : SMap.wf (mdel m k) = true := by
  induction m with
  | nil => simpa [mdel] using h
  | cons p r ih =>
    obtain ⟨k', v'⟩ := p
    rw [SMap.wf_cons, Bool.and_eq_true] at h
    simp only [mdel]
    split
    · exact ih h.2
    · rw [SMap.wf_cons, Bool.and_eq_true]; exact ⟨above_mdel h.1, ih h.2⟩

/-- Setting a key keeps the canonical form. -/
theorem mset_wf [DecidableEq α] {m : SMap α} (k : Nat) (d v : α) (h : SMap.wf m = true) : SMap.wf (mset m k d v) = true := by
  unfold mset
  split
  · exact mdel_wf k h
  · exact mput_wf k v h

/-- What a table gives at a key stands in it. -/
theorem mget_mem {m : SMap α} {k : Nat} {v : α} (h : mget m k = some v) : (k, v) ∈ m := by
  induction m with
  | nil => cases h
  | cons y r ih =>
    obtain ⟨k', w⟩ := y
    simp only [mget] at h
    split at h
    · rename_i hk
      cases h
      exact hk ▸ List.mem_cons_self ..
    · exact List.mem_cons_of_mem _ (ih h)

/-- A table holds at a key what was put there. -/
theorem mget_mput_same {m : SMap α} (k : Nat) (v : α) : mget (mput m k v) k = some v := by
  induction m with
  | nil => simp [mput, mget]
  | cons p r ih =>
    obtain ⟨k', v'⟩ := p
    simp only [mput]
    split
    · simp [mget]
    · split
      · simp [mget]
      · rename_i h1 h2
        simp only [mget]; rw [if_neg (fun e => h2 e.symm)]; exact ih

/-- Putting at one key leaves every other. -/
theorem mget_mput_other {m : SMap α} {k j : Nat} (v : α) (h : j ≠ k) : mget (mput m k v) j = mget m j := by
  induction m with
  | nil => simp [mput, mget, Ne.symm h]
  | cons p r ih =>
    obtain ⟨k', v'⟩ := p
    simp only [mput]
    split
    · simp [mget, Ne.symm h]
    · split
      · rename_i _ heq
        subst heq
        simp [mget, Ne.symm h]
      · simp only [mget]; rw [ih]

/-- A key removed is not listed. -/
theorem mget_mdel_same {m : SMap α} (k : Nat) : mget (mdel m k) k = none := by
  induction m with
  | nil => rfl
  | cons p r ih =>
    obtain ⟨k', v'⟩ := p
    simp only [mdel]
    split
    · exact ih
    · rename_i hne; simp only [mget]; rw [if_neg hne]; exact ih

/-- Removing one key leaves every other. -/
theorem mget_mdel_other {m : SMap α} {k j : Nat} (h : j ≠ k) : mget (mdel m k) j = mget m j := by
  induction m with
  | nil => rfl
  | cons p r ih =>
    obtain ⟨k', v'⟩ := p
    simp only [mdel]
    split
    · rename_i heq; subst heq; simp only [mget]; rw [if_neg (Ne.symm h)]; exact ih
    · simp only [mget]; rw [ih]

/-- A table with a default holds at a key what was set there. -/
theorem mgetD_mset_same [DecidableEq α] {m : SMap α} (k : Nat) (d v : α) :
    mgetD (mset m k d v) k d = v := by
  unfold mset mgetD
  split
  · rename_i e; rw [mget_mdel_same k, e]; rfl
  · rw [mget_mput_same]; rfl

/-- Setting one key leaves every other. -/
theorem mgetD_mset_other [DecidableEq α] {m : SMap α} {k j : Nat} (d e v : α) (h : j ≠ k) :
    mgetD (mset m k d v) j e = mgetD m j e := by
  unfold mset mgetD
  split
  · rw [mget_mdel_other h]
  · rw [mget_mput_other v h]

theorem mem_mput {m : SMap α} {k : Nat} {v : α} {x : Nat × α} (h : x ∈ mput m k v) : x = (k, v) ∨ x ∈ m := by
  induction m with
  | nil => simpa [mput] using h
  | cons p r ih =>
    obtain ⟨k', v'⟩ := p
    simp only [mput] at h
    split at h
    · simpa using h
    · split at h
      · rcases List.mem_cons.1 h with h | h
        · exact .inl h
        · exact .inr (List.mem_cons_of_mem _ h)
      · rcases List.mem_cons.1 h with h | h
        · exact .inr (h ▸ List.mem_cons_self)
        · rcases ih h with h | h
          · exact .inl h
          · exact .inr (List.mem_cons_of_mem _ h)

theorem mem_mdel {m : SMap α} {k : Nat} {x : Nat × α} (h : x ∈ mdel m k) : x ∈ m := by
  induction m with
  | nil => exact h
  | cons p r ih =>
    obtain ⟨k', v'⟩ := p
    simp only [mdel] at h
    split at h
    · exact List.mem_cons_of_mem _ (ih h)
    · rcases List.mem_cons.1 h with h | h
      · exact h ▸ List.mem_cons_self
      · exact List.mem_cons_of_mem _ (ih h)

/-- Writing a register keeps the register file in canonical form. -/
theorem regs_mset_wf {m : SMap Word} (off : Nat) (v : Word) (h : Regs.wf m = true) :
    Regs.wf (mset m off (w64 (regReset off)) v) = true := by
  unfold Regs.wf at *
  rw [Bool.and_eq_true] at *
  refine ⟨mset_wf _ _ _ h.1, ?_⟩
  rw [List.all_eq_true] at *
  intro x hx
  unfold mset at hx
  split at hx
  · exact h.2 x (mem_mdel hx)
  · rename_i hne
    rcases mem_mput hx with rfl | hx
    · simpa using hne
    · exact h.2 x hx

end Sys2Proof.Machine
end

