-- ==== Sys2Proof/Laws/Keeps.lean ====
section
/-! SUPPORT. What every meaning keeps: the commands that wait, the netlist and the invariant. The lemmas are written so that they
chain: from what holds up to a state they give what holds up to the state after one more operation. -/
namespace Sys2Proof.Machine

/-- The second state has the queue and the netlist of the first, and the invariant where the first has it. -/
structure Keeps (s t : State) : Prop where
  pending : t.pending = s.pending
  net : t.net = s.net
  inv : Inv s → Inv t

theorem Keeps.refl (s : State) : Keeps s s := ⟨rfl, rfl, id⟩

theorem Keeps.trans {a b c : State} (h : Keeps a b) (k : Keeps b c) : Keeps a c :=
  ⟨k.pending.trans h.pending, k.net.trans h.net, fun i => k.inv (h.inv i)⟩

theorem Keeps.ite {s a b : State} {c : Prop} [Decidable c] (ha : Keeps s a) (hb : Keeps s b) :
    Keeps s (if c then a else b) := by split <;> assumption

/-- A change of other fields than the queue, the netlist, the registers and external memory. -/
theorem Keeps.upd {s0 s : State} {now ag pi se wk gi rt la abc po sp dt cl fw ob te fl fr od tu} (h : Keeps s0 s) :
    Keeps s0 ⟨s.pending, now, s.net, s.rf, ag, pi, se, wk, gi, rt, la, abc, po, sp, dt, cl, fw, ob, te, fl, s.mem, fr, od, tu⟩ :=
  h.trans ⟨rfl, rfl, fun i => ⟨i.mem, i.regs⟩⟩

/-- A change of external memory too, which keeps its form. -/
theorem Keeps.updMem {s0 s : State} {now ag pi se wk gi rt la abc po sp dt cl fw ob te fl m fr od tu}
    (hm : Memory.wf s.mem = true → Memory.wf m = true) (h : Keeps s0 s) :
    Keeps s0 ⟨s.pending, now, s.net, s.rf, ag, pi, se, wk, gi, rt, la, abc, po, sp, dt, cl, fw, ob, te, fl, m, fr, od, tu⟩ :=
  h.trans ⟨rfl, rfl, fun i => ⟨hm i.mem, i.regs⟩⟩

/-- The first as an equivalence, which rewrites only where the state is written out. -/
theorem Keeps.upd_iff {s0 s : State} {now ag pi se wk gi rt la abc po sp dt cl fw ob te fl fr od tu} :
    Keeps s0 ⟨s.pending, now, s.net, s.rf, ag, pi, se, wk, gi, rt, la, abc, po, sp, dt, cl, fw, ob, te, fl, s.mem, fr, od, tu⟩
      ↔ Keeps s0 s :=
  ⟨fun h => h.trans ⟨rfl, rfl, fun i => ⟨i.mem, i.regs⟩⟩, Keeps.upd⟩

theorem Keeps.foldl {α : Type} {s0 s : State} {f : State → α → State} {l : List α}
    (hf : ∀ x a, Keeps s0 x → Keeps s0 (f x a)) (h : Keeps s0 s) : Keeps s0 (l.foldl f s) := by
  induction l generalizing s with
  | nil => exact h
  | cons a r ih => exact ih (hf s a h)

theorem Keeps.foldl_fst {α β : Type} {s0 : State} {p : State × β} {f : State × β → α → State × β} {l : List α}
    (hf : ∀ x a, Keeps s0 x.1 → Keeps s0 (f x a).1) (h : Keeps s0 p.1) : Keeps s0 (l.foldl f p).1 := by
  induction l generalizing p with
  | nil => exact h
  | cons a r ih => exact ih (hf p a h)

theorem Keeps.fst {β : Type} {s0 s : State} {b : β} {p : State × β} (e : p = (s, b)) (h : Keeps s0 p.1) : Keeps s0 s := by
  subst e; exact h

/-- What an operation that may answer no state keeps. -/
structure KeepsO (s0 : State) (o : Option State) : Prop where
  keeps : ∀ t, o = some t → Keeps s0 t

theorem KeepsO.none {s0 : State} : KeepsO s0 none := ⟨fun _ e => by cases e⟩
theorem KeepsO.some {s0 s : State} (h : Keeps s0 s) : KeepsO s0 (some s) := ⟨fun _ e => by cases e; exact h⟩
theorem KeepsO.ite {s0 : State} {a b : Option State} {c : Prop} [Decidable c] (ha : KeepsO s0 a) (hb : KeepsO s0 b) :
    KeepsO s0 (if c then a else b) := by split <;> assumption
theorem Keeps.getD {s0 s : State} {o : Option State} (ho : KeepsO s0 o) (h : Keeps s0 s) : Keeps s0 (o.getD s) := by
  cases o with
  | none => exact h
  | some t => exact ho.keeps t rfl
theorem KeepsO.of_eq {s0 t : State} {o : Option State} (e : o = Option.some t) (ho : KeepsO s0 o) : Keeps s0 t :=
  ho.keeps t e

theorem KeepsO.map {α : Type} {s0 : State} {o : Option α} {f : α → State} (hf : ∀ a, Keeps s0 (f a)) : KeepsO s0 (o.map f) := by
  cases o with
  | none => exact KeepsO.none
  | some a => exact KeepsO.some (hf a)
theorem KeepsO.orElse {s0 : State} {o p : Option State} (ho : KeepsO s0 o) (hp : KeepsO s0 p) : KeepsO s0 (o <|> p) := by
  cases o with
  | none => exact hp
  | some t => exact ho
theorem KeepsO.findSome {α : Type} {s0 : State} {l : List α} {f : α → Option State} (hf : ∀ a, KeepsO s0 (f a)) :
    KeepsO s0 (l.findSome? f) :=
  ⟨fun t e => by
    obtain ⟨a, -, ha⟩ := List.exists_of_findSome?_eq_some e
    exact (hf a).keeps t ha⟩

theorem wr_keeps {s0 s : State} (h : Keeps s0 s) (off v) : Keeps s0 (wr s off v) :=
  h.trans ⟨rfl, rfl, fun i => ⟨i.mem, regs_mset_wf off v i.regs⟩⟩

theorem setMem64_keeps {s0 s : State} (h : Keeps s0 s) (a v) : Keeps s0 (setMem64 s a v) :=
  h.trans ⟨rfl, rfl, fun i => ⟨memPuts_wf _ _ i.mem, i.regs⟩⟩

end Sys2Proof.Machine
end

