-- ==== Sys2Proof/Laws/KeepOps.lean ====
section
/-! SUPPORT. What the operations of Machine/Ops.lean keep (Laws/Keeps.lean). -/
set_option linter.tactic.unusedName false
set_option linter.unusedSimpArgs false
namespace Sys2Proof.Machine

theorem put_keeps {s0 s : State} (h : Keeps s0 s) (f v) : Keeps s0 (put s f v) := by
  unfold put
  repeat' first
    | with_reducible assumption
    | with_reducible apply wr_keeps

theorem bump_keeps {s0 s : State} (h : Keeps s0 s) (f n) : Keeps s0 (bump s f n) := by
  unfold bump
  repeat' first
    | with_reducible assumption
    | with_reducible apply put_keeps

theorem hwm_keeps {s0 s : State} (h : Keeps s0 s) (f v) : Keeps s0 (hwm s f v) := by
  unfold hwm
  repeat' first
    | with_reducible assumption
    | with_reducible apply Keeps.ite
    | with_reducible apply put_keeps

theorem setGate_keeps {s0 s : State} (h : Keeps s0 s) (n v) : Keeps s0 (setGate s n v) := by
  unfold setGate
  repeat' first
    | with_reducible assumption
    | with_reducible apply Keeps.ite
    | with_reducible apply put_keeps

theorem openGate_keeps {s0 s : State} (h : Keeps s0 s) (n) : Keeps s0 (openGate s n) := by
  unfold openGate
  repeat' first
    | with_reducible assumption
    | simp -zeta only [Keeps.upd_iff]
    | (extract_lets +onlyGivenNames a
       refine (fun (_ : Keeps s0 a) => ?_) ?_
       clear_value a
       rotate_left
       dsimp only [a]
       clear a)
    | (extract_lets +onlyGivenNames a
       clear_value a)
    | with_reducible apply setGate_keeps
    | split

theorem setAgent_keeps {s0 s : State} (h : Keeps s0 s) (a g) : Keeps s0 (setAgent s a g) := by
  unfold setAgent
  repeat' first
    | with_reducible assumption
    | simp -zeta only [Keeps.upd_iff]
    | (extract_lets +onlyGivenNames a
       refine (fun (_ : Keeps s0 a) => ?_) ?_
       clear_value a
       rotate_left
       dsimp only [a]
       clear a)
    | (extract_lets +onlyGivenNames a
       clear_value a)
    | (with_reducible refine Keeps.upd ?_)

theorem setQueue_keeps {s0 s : State} (h : Keeps s0 s) (a q x) : Keeps s0 (setQueue s a q x) := by
  unfold setQueue
  repeat' first
    | with_reducible assumption
    | simp -zeta only [Keeps.upd_iff]
    | (extract_lets +onlyGivenNames a
       refine (fun (_ : Keeps s0 a) => ?_) ?_
       clear_value a
       rotate_left
       dsimp only [a]
       clear a)
    | (extract_lets +onlyGivenNames a
       clear_value a)
    | with_reducible apply setAgent_keeps
    | (with_reducible refine Keeps.upd ?_)

theorem setPier_keeps {s0 s : State} (h : Keeps s0 s) (p x) : Keeps s0 (setPier s p x) := by
  unfold setPier
  repeat' first
    | with_reducible assumption
    | simp -zeta only [Keeps.upd_iff]
    | (with_reducible refine Keeps.upd ?_)

theorem setTen_keeps {s0 s : State} (h : Keeps s0 s) (t x) : Keeps s0 (setTen s t x) := by
  unfold setTen
  repeat' first
    | with_reducible assumption
    | simp -zeta only [Keeps.upd_iff]
    | (with_reducible refine Keeps.upd ?_)

theorem setPort_keeps {s0 s : State} (h : Keeps s0 s) (n x) : Keeps s0 (setPort s n x) := by
  unfold setPort
  repeat' first
    | with_reducible assumption
    | simp -zeta only [Keeps.upd_iff]
    | (with_reducible refine Keeps.upd ?_)

theorem setLane_keeps {s0 s : State} (h : Keeps s0 s) (l x) : Keeps s0 (setLane s l x) := by
  unfold setLane
  repeat' first
    | with_reducible assumption
    | simp -zeta only [Keeps.upd_iff]
    | (with_reducible refine Keeps.upd ?_)

theorem setSlot_keeps {s0 s : State} (h : Keeps s0 s) (key x) : Keeps s0 (setSlot s key x) := by
  unfold setSlot
  repeat' first
    | with_reducible assumption
    | simp -zeta only [Keeps.upd_iff]
    | (with_reducible refine Keeps.upd ?_)

theorem delSlot_keeps {s0 s : State} (h : Keeps s0 s) (key) : Keeps s0 (delSlot s key) := by
  unfold delSlot
  repeat' first
    | with_reducible assumption
    | simp -zeta only [Keeps.upd_iff]
    | (with_reducible refine Keeps.upd ?_)

theorem setHtm_keeps {s0 s : State} (h : Keeps s0 s) (i e') : Keeps s0 (setHtm s i e') := by
  unfold setHtm
  repeat' first
    | with_reducible assumption
    | simp -zeta only [Keeps.upd_iff]
    | (with_reducible refine Keeps.upd ?_)

theorem setCtx_keeps {s0 s : State} (h : Keeps s0 s) (c x) : Keeps s0 (setCtx s c x) := by
  unfold setCtx
  repeat' first
    | with_reducible assumption
    | simp -zeta only [Keeps.upd_iff]
    | (with_reducible refine Keeps.upd ?_)

end Sys2Proof.Machine
end

