-- ==== Sys2Proof/Laws/KeepFlags.lean ====
section
/-! SUPPORT. What the operations of Machine/Flags.lean keep (Laws/Keeps.lean). -/
set_option linter.tactic.unusedName false
set_option linter.unusedSimpArgs false
namespace Sys2Proof.Machine

theorem recordEvent_keeps {s0 s : State} (h : Keeps s0 s) (b src sev conseq retry detail) : Keeps s0 (recordEvent s b src sev conseq retry detail) := by
  unfold recordEvent
  repeat' first
    | with_reducible assumption
    | (extract_lets +onlyGivenNames a
       refine (fun (_ : Keeps s0 a) => ?_) ?_
       clear_value a
       rotate_left
       dsimp only [a]
       clear a)
    | (extract_lets +onlyGivenNames a
       clear_value a)
    | with_reducible apply Keeps.ite
    | with_reducible apply put_keeps
    | with_reducible apply wr_keeps

theorem raise_keeps {s0 s : State} (h : Keeps s0 s) (b src detail) : Keeps s0 (raise s b src detail) := by
  unfold raise
  repeat' first
    | with_reducible assumption
    | simp -zeta only [Keeps.upd_iff]
    | (extract_lets +onlyGivenNames a
       refine (fun (_ : Keeps s0 a) => ?_) ?_
       clear_value a
       rotate_left
       dsimp only [a]
       clear a)
    | (extract_lets +onlyGivenNames a
       clear_value a)
    | with_reducible apply Keeps.ite
    | with_reducible apply put_keeps
    | with_reducible apply recordEvent_keeps
    | split
    | (with_reducible refine Keeps.upd ?_)

theorem raiseAll_keeps {s0 s : State} (h : Keeps s0 s) (b evs) : Keeps s0 (raiseAll s b evs) := by
  unfold raiseAll
  repeat' first
    | with_reducible assumption
    | (intro _)
    | (extract_lets +onlyGivenNames a
       refine (fun (_ : Keeps s0 a) => ?_) ?_
       clear_value a
       rotate_left
       dsimp only [a]
       clear a)
    | (extract_lets +onlyGivenNames a
       clear_value a)
    | with_reducible apply raise_keeps
    | with_reducible apply Keeps.foldl
    | with_reducible apply Keeps.foldl_fst
    | with_reducible apply_assumption

theorem finjDone_keeps {s0 s : State} (h : Keeps s0 s) (b) : Keeps s0 (finjDone s b) := by
  unfold finjDone
  repeat' first
    | with_reducible assumption
    | with_reducible apply wr_keeps

theorem chkWrite_keeps {s0 s : State} (h : Keeps s0 s) (b target unit index) : Keeps s0 (chkWrite s b target unit index) := by
  unfold chkWrite
  repeat' first
    | with_reducible assumption
    | (intro _)
    | simp -zeta only [Keeps.upd_iff]
    | (extract_lets +onlyGivenNames a
       refine (fun (_ : Keeps s0 a) => ?_) ?_
       clear_value a
       rotate_left
       dsimp only [a]
       clear a)
    | (extract_lets +onlyGivenNames a
       clear_value a)
    | with_reducible apply Keeps.ite
    | with_reducible apply finjDone_keeps
    | (with_reducible refine Keeps.upd ?_)

theorem chkRead_keeps {s0 s : State} (h : Keeps s0 s) (b target unit index) : Keeps s0 (chkRead s b target unit index).1 := by
  unfold chkRead
  repeat' first
    | with_reducible assumption
    | (intro _)
    | simp -zeta only [Keeps.upd_iff]
    | with_reducible apply Keeps.ite
    | split
    | (with_reducible refine Keeps.upd ?_)

theorem busWord_keeps {s0 s : State} (h : Keeps s0 s) (b target unit) : Keeps s0 (busWord s b target unit).1 := by
  unfold busWord
  repeat' first
    | with_reducible assumption
    | with_reducible apply Keeps.ite
    | with_reducible apply finjDone_keeps
    | split

theorem routerPass_keeps {s0 s : State} (h : Keeps s0 s) (r) : Keeps s0 (routerPass s r).1 := by
  unfold routerPass
  repeat' first
    | with_reducible assumption
    | (extract_lets +onlyGivenNames a
       refine (fun (_ : Keeps s0 a) => ?_) ?_
       clear_value a
       rotate_left
       dsimp only [a]
       clear a)
    | (extract_lets +onlyGivenNames a
       clear_value a)
    | with_reducible apply Keeps.ite
    | with_reducible apply busWord_keeps
    | with_reducible apply chkRead_keeps
    | with_reducible apply raise_keeps
    | split
    | (with_reducible refine Keeps.fst (by assumption) ?_)

theorem passRouters_keeps {s0 : State} (l : List Nat) : ∀ {s : State}, Keeps s0 s → Keeps s0 (passRouters l s).1 := by
  induction l with
  | nil => exact fun h => h
  | cons r rest ih =>
    intro s h
    have hr := routerPass_keeps h r
    unfold passRouters
    split
    · rename_i e; exact Keeps.fst e hr
    · rename_i e; exact ih (Keeps.fst e hr)
    · rename_i e
      have k := ih (Keeps.fst e hr)
      split
      · rename_i e2; exact Keeps.fst e2 k
      · rename_i e2; exact Keeps.fst e2 k

theorem girderPass_keeps {s0 s : State} (h : Keeps s0 s) (a b) : Keeps s0 (girderPass s a b).1 := passRouters_keeps _ h

end Sys2Proof.Machine
end

