-- ==== Sys2Proof/Laws/KeepCount.lean ====
section
/-! SUPPORT. What the operations of Machine/Count.lean keep (Laws/Keeps.lean). -/
set_option linter.tactic.unusedName false
set_option linter.unusedSimpArgs false
namespace Sys2Proof.Machine

theorem tickCounter_keeps {s0 s : State} (h : Keeps s0 s) (i) : Keeps s0 (tickCounter s i) := by
  unfold tickCounter
  repeat' first
    | with_reducible assumption
    | (intro _)
    | simp -zeta only [Keeps.upd_iff]
    | (extract_lets +onlyGivenNames a
       refine (fun (_ : Keeps s0 a) => ?_) ?_
       clear_value a
       rotate_left
       dsimp only [a]
       clear a)
    | (extract_lets +onlyGivenNames a
       refine (fun (_ : ∀ x, Keeps s0 x → Keeps s0 (a x)) => ?_) ?_
       clear_value a
       rotate_left
       dsimp only [a]
       clear a)
    | (extract_lets +onlyGivenNames a
       clear_value a)
    | with_reducible apply Keeps.ite
    | with_reducible apply put_keeps
    | split
    | with_reducible apply_assumption
    | (with_reducible refine Keeps.upd ?_)

theorem tickFixed_keeps {s0 s : State} (h : Keeps s0 s) (k n) : Keeps s0 (tickFixed s k n) := by
  unfold tickFixed
  repeat' first
    | with_reducible assumption
    | simp -zeta only [Keeps.upd_iff]
    | (extract_lets +onlyGivenNames a
       refine (fun (_ : Keeps s0 a) => ?_) ?_
       clear_value a
       rotate_left
       dsimp only [a]
       clear a)
    | (extract_lets +onlyGivenNames a
       clear_value a)
    | with_reducible apply Keeps.ite
    | with_reducible apply put_keeps
    | (with_reducible refine Keeps.upd ?_)

theorem countEv_keeps {s0 s : State} (h : Keeps s0 s) (e') : Keeps s0 (countEv s e') := by
  unfold countEv
  repeat' first
    | with_reducible assumption
    | (intro _)
    | simp -zeta only [Keeps.upd_iff]
    | (extract_lets +onlyGivenNames a
       refine (fun (_ : Keeps s0 a) => ?_) ?_
       clear_value a
       rotate_left
       dsimp only [a]
       clear a)
    | (extract_lets +onlyGivenNames a
       clear_value a)
    | with_reducible apply tickCounter_keeps
    | with_reducible apply tickFixed_keeps
    | with_reducible apply Keeps.foldl
    | with_reducible apply Keeps.foldl_fst
    | split
    | with_reducible apply_assumption

end Sys2Proof.Machine
end

