-- ==== Sys2Proof/Laws/KeepNet.lean ====
section
/-! SUPPORT. What the operations of Machine/Net.lean keep (Laws/Keeps.lean). -/
set_option linter.tactic.unusedName false
set_option linter.unusedSimpArgs false
namespace Sys2Proof.Machine

theorem sendOn_keeps {s0 s : State} (h : Keeps s0 s) (p e') : Keeps s0 (sendOn s p e') := by
  unfold sendOn
  repeat' first
    | with_reducible assumption
    | simp -zeta only [Keeps.upd_iff]
    | (extract_lets +onlyGivenNames a
       refine (fun (_ : Keeps s0 a) => ?_) ?_
       clear_value a
       rotate_left
       dsimp only [a]
       clear a)
    | (extract_lets +onlyGivenNames a
       clear_value a)
    | with_reducible apply setPort_keeps
    | (with_reducible refine Keeps.upd ?_)

theorem sendTo_keeps {s0 s : State} (h : Keeps s0 s) (d h' m) : Keeps s0 (sendTo s d h' m) := by
  unfold sendTo
  repeat' first
    | with_reducible assumption
    | simp -zeta only [Keeps.upd_iff]
    | with_reducible apply sendOn_keeps
    | split
    | (with_reducible refine Keeps.upd ?_)

theorem staleDrop_keeps {s0 s : State} (h : Keeps s0 s) (t) : Keeps s0 (staleDrop s t) := by
  unfold staleDrop
  repeat' first
    | with_reducible assumption
    | with_reducible apply bump_keeps
    | with_reducible apply countEv_keeps

end Sys2Proof.Machine
end

