-- ==== Sys2Proof/Laws/KeepReply.lean ====
section
/-! SUPPORT. What the operations of Machine/Reply.lean keep (Laws/Keeps.lean). -/
set_option linter.tactic.unusedName false
set_option linter.unusedSimpArgs false
namespace Sys2Proof.Machine

theorem timeRead_keeps {s0 s : State} (h : Keeps s0 s) (p) : Keeps s0 (timeRead s p) := by
  unfold timeRead
  repeat' first
    | with_reducible assumption
    | simp -zeta only [Keeps.upd_iff]
    | with_reducible apply Keeps.ite
    | with_reducible apply setPier_keeps
    | split
    | (with_reducible refine Keeps.upd ?_)

theorem cross_keeps {s0 s : State} (h : Keeps s0 s) (o dest) : Keeps s0 (cross s o dest).1 := by
  unfold cross
  repeat' first
    | with_reducible assumption
    | simp -zeta only [Keeps.upd_iff]
    | with_reducible apply girderPass_keeps
    | split

theorem crossed_keeps {s0 s : State} (h : Keeps s0 s) (o dest) {f : State → State} (hf : ∀ x, Keeps s0 x → Keeps s0 (f x)) : Keeps s0 (crossed s o dest f) := by
  unfold crossed
  have hc := cross_keeps h o dest
  generalize cross s o dest = r at hc ⊢
  obtain ⟨x, p⟩ := r
  cases p
  · exact hf _ hc
  · exact hf _ hc
  · exact hc

theorem sendFrom_keeps {s0 s : State} (h : Keeps s0 s) (o d h' m) : Keeps s0 (sendFrom s o d h' m) := by
  unfold sendFrom
  repeat' first
    | with_reducible assumption
    | (intro _)
    | with_reducible apply crossed_keeps
    | with_reducible apply sendTo_keeps

theorem crossBack_keeps {s0 s : State} (h : Keeps s0 s) (o c) : Keeps s0 (crossBack s o c).1 := by
  unfold crossBack
  repeat' first
    | with_reducible assumption
    | with_reducible apply cross_keeps
    | split

theorem mapItem_keeps {s0 s : State} (h : Keeps s0 s) (a q p f) : Keeps s0 (mapItem s a q p f) := by
  unfold mapItem
  repeat' first
    | with_reducible assumption
    | simp -zeta only [Keeps.upd_iff]
    | (extract_lets +onlyGivenNames a
       refine (fun (_ : Keeps s0 a) => ?_) ?_
       clear_value a
       rotate_left
       dsimp only [a]
       clear a)
    | (extract_lets +onlyGivenNames a
       clear_value a)
    | with_reducible apply setQueue_keeps
    | (with_reducible refine Keeps.upd ?_)

theorem traceSend_keeps {s0 s : State} (h : Keeps s0 s) (rec) : Keeps s0 (traceSend s rec) := by
  unfold traceSend
  repeat' first
    | with_reducible assumption
    | simp -zeta only [Keeps.upd_iff]
    | (extract_lets +onlyGivenNames a
       refine (fun (_ : Keeps s0 a) => ?_) ?_
       clear_value a
       rotate_left
       dsimp only [a]
       clear a)
    | (extract_lets +onlyGivenNames a
       clear_value a)
    | with_reducible apply Keeps.ite
    | with_reducible apply bump_keeps
    | (with_reducible refine Keeps.upd ?_)

theorem traceFlushed_keeps {s0 s : State} (h : Keeps s0 s) (i) : Keeps s0 (traceFlushed s i) := by
  unfold traceFlushed
  repeat' first
    | with_reducible assumption
    | simp -zeta only [Keeps.upd_iff]
    | with_reducible apply traceSend_keeps
    | split

theorem readReply_keeps {s0 s : State} (h : Keeps s0 s) (p base y) : Keeps s0 (readReply s p base y).1 := by
  unfold readReply
  repeat' first
    | with_reducible assumption
    | simp -zeta only [Keeps.upd_iff]
    | (extract_lets +onlyGivenNames a
       refine (fun (_ : Keeps s0 a) => ?_) ?_
       clear_value a
       rotate_left
       dsimp only [a]
       clear a)
    | (extract_lets +onlyGivenNames a
       clear_value a)
    | with_reducible apply chkRead_keeps
    | with_reducible apply raise_keeps
    | split
    | (with_reducible refine Keeps.fst (by assumption) ?_)
    | (with_reducible refine Keeps.upd ?_)

theorem present_keeps {s0 s : State} (h : Keeps s0 s) (p) : Keeps s0 (present s p) := by
  unfold present
  repeat' first
    | with_reducible assumption
    | (intro _)
    | simp -zeta only [Keeps.upd_iff]
    | (extract_lets +onlyGivenNames a
       refine (fun (_ : Keeps s0 a) => ?_) ?_
       clear_value a
       rotate_left
       dsimp only [a]
       clear a)
    | (extract_lets +onlyGivenNames a
       clear_value a)
    | with_reducible apply Keeps.ite
    | with_reducible apply readReply_keeps
    | with_reducible apply setPier_keeps
    | with_reducible apply setQueue_keeps
    | split
    | (with_reducible refine Keeps.fst (by assumption) ?_)
    | (with_reducible refine Keeps.upd ?_)

theorem presentOf_keeps {s0 s : State} (h : Keeps s0 s) (a) : Keeps s0 (presentOf s a) := by
  unfold presentOf
  repeat' first
    | with_reducible assumption
    | simp -zeta only [Keeps.upd_iff]
    | with_reducible apply present_keeps
    | split

theorem markEnds_keeps {s0 s : State} (h : Keeps s0 s) (c r) : Keeps s0 (markEnds s c r) := by
  unfold markEnds
  repeat' first
    | with_reducible assumption
    | simp -zeta only [Keeps.upd_iff]
    | (extract_lets +onlyGivenNames a
       refine (fun (_ : Keeps s0 a) => ?_) ?_
       clear_value a
       rotate_left
       dsimp only [a]
       clear a)
    | (extract_lets +onlyGivenNames a
       clear_value a)
    | with_reducible apply Keeps.ite
    | with_reducible apply bump_keeps
    | (with_reducible refine Keeps.upd ?_)

theorem abortOver_keeps {s0 s : State} (h : Keeps s0 s) (c r) : Keeps s0 (abortOver s c r) := by
  unfold abortOver
  repeat' first
    | with_reducible assumption
    | (intro _)
    | simp -zeta only [Keeps.upd_iff]
    | (extract_lets +onlyGivenNames a
       refine (fun (_ : Keeps s0 a) => ?_) ?_
       clear_value a
       rotate_left
       dsimp only [a]
       clear a)
    | (extract_lets +onlyGivenNames a
       clear_value a)
    | with_reducible apply Keeps.ite
    | with_reducible apply_assumption
    | (with_reducible refine Keeps.upd ?_)

theorem settle_keeps {s0 s : State} (h : Keeps s0 s) (c r) : Keeps s0 (settle s c r) := by
  unfold settle
  repeat' first
    | with_reducible assumption
    | (intro _)
    | simp -zeta only [Keeps.upd_iff]
    | (extract_lets +onlyGivenNames a
       refine (fun (_ : Keeps s0 a) => ?_) ?_
       clear_value a
       rotate_left
       dsimp only [a]
       clear a)
    | (extract_lets +onlyGivenNames a
       clear_value a)
    | with_reducible apply Keeps.ite
    | with_reducible apply abortOver_keeps
    | with_reducible apply chkWrite_keeps
    | with_reducible apply countEv_keeps
    | with_reducible apply mapItem_keeps
    | with_reducible apply markEnds_keeps
    | with_reducible apply presentOf_keeps
    | with_reducible apply raise_keeps
    | with_reducible apply staleDrop_keeps
    | split
    | (with_reducible refine Keeps.upd ?_)

theorem sendReply_keeps {s0 s : State} (h : Keeps s0 s) (o c r) : Keeps s0 (sendReply s o c r) := by
  unfold sendReply
  repeat' first
    | with_reducible assumption
    | simp -zeta only [Keeps.upd_iff]
    | (extract_lets +onlyGivenNames a
       refine (fun (_ : Keeps s0 a) => ?_) ?_
       clear_value a
       rotate_left
       dsimp only [a]
       clear a)
    | (extract_lets +onlyGivenNames a
       clear_value a)
    | with_reducible apply Keeps.ite
    | with_reducible apply crossBack_keeps
    | with_reducible apply sendTo_keeps
    | with_reducible apply settle_keeps
    | with_reducible apply timeRead_keeps
    | split
    | (with_reducible refine Keeps.fst (by assumption) ?_)
    | (with_reducible refine Keeps.upd ?_)

theorem answer_keeps {s0 s : State} (h : Keeps s0 s) (o c k r) : Keeps s0 (answer s o c k r) := by
  unfold answer
  repeat' first
    | with_reducible assumption
    | with_reducible apply countEv_keeps
    | with_reducible apply sendReply_keeps

theorem failPlain_keeps {s0 s : State} (h : Keeps s0 s) (o c k st) : Keeps s0 (failPlain s o c k st) := by
  unfold failPlain
  repeat' first
    | with_reducible assumption
    | with_reducible apply answer_keeps

theorem failFrom_keeps {s0 s : State} (h : Keeps s0 s) (o c k st code die vlow) : Keeps s0 (failFrom s o c k st code die vlow) := by
  unfold failFrom
  repeat' first
    | with_reducible assumption
    | with_reducible apply Keeps.ite
    | with_reducible apply answer_keeps
    | with_reducible apply failPlain_keeps

theorem failWith_keeps {s0 s : State} (h : Keeps s0 s) (o c k st code vlow) : Keeps s0 (failWith s o c k st code vlow) := by
  unfold failWith
  repeat' first
    | with_reducible assumption
    | with_reducible apply failFrom_keeps

theorem holdRefused_keeps {s0 s : State} (h : Keeps s0 s) (c why delay) : Keeps s0 (holdRefused s c why delay) := by
  unfold holdRefused
  repeat' first
    | with_reducible assumption
    | (intro _)
    | simp -zeta only [Keeps.upd_iff]
    | with_reducible apply mapItem_keeps
    | with_reducible apply timeRead_keeps
    | (with_reducible refine Keeps.upd ?_)

theorem refused_keeps {s0 s : State} (h : Keeps s0 s) (c why reason delay) : Keeps s0 (refused s c why reason delay) := by
  unfold refused
  repeat' first
    | with_reducible assumption
    | with_reducible apply Keeps.ite
    | with_reducible apply failPlain_keeps
    | with_reducible apply holdRefused_keeps

theorem refuseCmd_keeps {s0 s : State} (h : Keeps s0 s) (o c why reason delay) : Keeps s0 (refuseCmd s o c why reason delay) := by
  unfold refuseCmd
  repeat' first
    | with_reducible assumption
    | (intro _)
    | with_reducible apply Keeps.ite
    | with_reducible apply crossed_keeps
    | with_reducible apply refused_keeps
    | with_reducible apply sendTo_keeps

end Sys2Proof.Machine
end

