-- ==== Sys2Proof/Laws/KeepWaiters.lean ====
section
/-! SUPPORT. What the operations of Machine/Waiters.lean keep (Laws/Keeps.lean). -/
set_option linter.tactic.unusedName false
set_option linter.unusedSimpArgs false
namespace Sys2Proof.Machine

theorem reportFreed_keeps {s0 s : State} (h : Keeps s0 s) : Keeps s0 (reportFreed s) := Keeps.upd h

theorem readEntry_keeps {s0 s : State} (h : Keeps s0 s) (w) : Keeps s0 (readEntry s w).1 := by
  unfold readEntry
  repeat' first
    | with_reducible assumption
    | (intro _)
    | simp -zeta only [Keeps.upd_iff]
    | (extract_lets +onlyGivenNames a
       refine (fun (_ : Keeps s0 a) => ?_) ?_
       clear_value a
       rotate_left
       dsimp only [a]
       clear a)
    | (extract_lets +onlyGivenNames a
       clear_value a)
    | with_reducible apply chkRead_keeps
    | with_reducible apply raise_keeps
    | with_reducible apply Keeps.foldl
    | with_reducible apply Keeps.foldl_fst
    | split
    | with_reducible apply_assumption
    | (with_reducible refine Keeps.fst (by assumption) ?_)

theorem writeEntry_keeps {s0 s : State} (h : Keeps s0 s) (table entry) : Keeps s0 (writeEntry s table entry) := by
  unfold writeEntry
  repeat' first
    | with_reducible assumption
    | (intro _)
    | with_reducible apply chkWrite_keeps
    | with_reducible apply Keeps.foldl
    | with_reducible apply Keeps.foldl_fst
    | with_reducible apply_assumption

theorem moveOldest_keeps {s0 s : State} (h : Keeps s0 s) (key e' x x3) : Keeps s0 (moveOldest key e' x x3 s).1 := by
  induction x3 generalizing s with
  | nil => exact h
  | cons w r ih =>
    have hr := readEntry_keeps h w
    unfold moveOldest
    split
    · rename_i e; exact ih (Keeps.fst e hr)
    · rename_i e; exact writeEntry_keeps (bump_keeps (Keeps.fst e hr) _ _) _ _

theorem moveHome_keeps {s0 s : State} (h : Keeps s0 s) (key old x) : Keeps s0 (moveHome s key old x).1 := by
  unfold moveHome
  split
  · exact h
  · split
    · exact moveOldest_keeps h _ _ _ _
    · exact h

theorem putShrunk_keeps {s0 s : State} (h : Keeps s0 s) (key old x) : Keeps s0 (putShrunk s key old x) := by
  unfold putShrunk
  repeat' first
    | with_reducible assumption
    | simp -zeta only [Keeps.upd_iff]
    | (extract_lets +onlyGivenNames a
       refine (fun (_ : Keeps s0 a) => ?_) ?_
       clear_value a
       rotate_left
       dsimp only [a]
       clear a)
    | (extract_lets +onlyGivenNames a
       clear_value a)
    | with_reducible apply Keeps.ite
    | with_reducible apply moveHome_keeps
    | with_reducible apply reportFreed_keeps
    | with_reducible apply setSlot_keeps
    | split
    | (with_reducible refine Keeps.fst (by assumption) ?_)
    | (with_reducible refine Keeps.upd ?_)

theorem addWaiter_keeps {s0 s : State} (h : Keeps s0 s) (key x c target table) : Keeps s0 (addWaiter s key x c target table) := by
  unfold addWaiter
  repeat' first
    | with_reducible assumption
    | simp -zeta only [Keeps.upd_iff]
    | (extract_lets +onlyGivenNames a
       refine (fun (_ : Keeps s0 a) => ?_) ?_
       clear_value a
       rotate_left
       dsimp only [a]
       clear a)
    | (extract_lets +onlyGivenNames a
       clear_value a)
    | with_reducible apply Keeps.ite
    | with_reducible apply bump_keeps
    | with_reducible apply countEv_keeps
    | with_reducible apply hwm_keeps
    | with_reducible apply setSlot_keeps
    | with_reducible apply writeEntry_keeps
    | split
    | (with_reducible refine Keeps.upd ?_)

theorem refuseWait_keeps {s0 s : State} (h : Keeps s0 s) (slice c k) : Keeps s0 (refuseWait s slice c k) := by
  unfold refuseWait
  repeat' first
    | with_reducible assumption
    | (extract_lets +onlyGivenNames a
       refine (fun (_ : Keeps s0 a) => ?_) ?_
       clear_value a
       rotate_left
       dsimp only [a]
       clear a)
    | (extract_lets +onlyGivenNames a
       clear_value a)
    | with_reducible apply bump_keeps
    | with_reducible apply countEv_keeps
    | with_reducible apply refuseCmd_keeps

theorem scopeCheck_keeps {s0 s : State} (h : Keeps s0 s) (rel c) : Keeps s0 (scopeCheck s rel c) := by
  unfold scopeCheck
  repeat' first
    | with_reducible assumption
    | simp -zeta only [Keeps.upd_iff]
    | (extract_lets +onlyGivenNames a
       refine (fun (_ : Keeps s0 a) => ?_) ?_
       clear_value a
       rotate_left
       dsimp only [a]
       clear a)
    | (extract_lets +onlyGivenNames a
       clear_value a)
    | with_reducible apply Keeps.ite
    | with_reducible apply bump_keeps
    | with_reducible apply countEv_keeps
    | with_reducible apply raise_keeps
    | split

theorem countDone_keeps {s0 s : State} (h : Keeps s0 s) (x ws) : Keeps s0 (countDone s x ws) := by
  unfold countDone
  repeat' first
    | with_reducible assumption
    | (intro _)
    | (extract_lets +onlyGivenNames a
       refine (fun (_ : Keeps s0 a) => ?_) ?_
       clear_value a
       rotate_left
       dsimp only [a]
       clear a)
    | (extract_lets +onlyGivenNames a
       clear_value a)
    | with_reducible apply Keeps.ite
    | with_reducible apply countEv_keeps
    | with_reducible apply scopeCheck_keeps
    | with_reducible apply Keeps.foldl
    | with_reducible apply Keeps.foldl_fst
    | with_reducible apply_assumption

theorem toPort_keeps {s0 s : State} (h : Keeps s0 s) (slice ws) : Keeps s0 (toPort s slice ws) := by
  unfold toPort
  repeat' first
    | with_reducible assumption
    | simp -zeta only [Keeps.upd_iff]
    | (with_reducible refine Keeps.upd ?_)

theorem postBatch_keeps {s0 s : State} (h : Keeps s0 s) (slice g) : Keeps s0 (postBatch slice s g) := by
  unfold postBatch
  repeat' first
    | with_reducible assumption
    | (intro _)
    | simp -zeta only [Keeps.upd_iff]
    | (extract_lets +onlyGivenNames a
       refine (fun (_ : Keeps s0 a) => ?_) ?_
       clear_value a
       rotate_left
       dsimp only [a]
       clear a)
    | (extract_lets +onlyGivenNames a
       clear_value a)
    | with_reducible apply chkWrite_keeps
    | (with_reducible refine Keeps.upd ?_)

theorem toPool_keeps {s0 s : State} (h : Keeps s0 s) (slice gs) : Keeps s0 (toPool s slice gs) := by
  unfold toPool
  repeat' first
    | with_reducible assumption
    | (intro _)
    | (extract_lets +onlyGivenNames a
       refine (fun (_ : Keeps s0 a) => ?_) ?_
       clear_value a
       rotate_left
       dsimp only [a]
       clear a)
    | (extract_lets +onlyGivenNames a
       clear_value a)
    | with_reducible apply hwm_keeps
    | with_reducible apply postBatch_keeps
    | with_reducible apply Keeps.foldl
    | with_reducible apply Keeps.foldl_fst
    | with_reducible apply_assumption

theorem sendRecord_keeps {s0 s : State} (h : Keeps s0 s) (key old new win h') : Keeps s0 (sendRecord s key old new win h') := by
  unfold sendRecord
  repeat' first
    | with_reducible assumption
    | (intro _)
    | simp -zeta only [Keeps.upd_iff]
    | (extract_lets +onlyGivenNames a
       refine (fun (_ : Keeps s0 a) => ?_) ?_
       clear_value a
       rotate_left
       dsimp only [a]
       clear a)
    | (extract_lets +onlyGivenNames a
       clear_value a)
    | with_reducible apply crossed_keeps
    | with_reducible apply sendOn_keeps
    | (with_reducible refine Keeps.upd ?_)

theorem sendMirror_keeps {s0 s : State} (h : Keeps s0 s) (key old new h') : Keeps s0 (sendMirror s key old new h') := by
  unfold sendMirror
  repeat' first
    | with_reducible assumption
    | (intro _)
    | simp -zeta only [Keeps.upd_iff]
    | (extract_lets +onlyGivenNames a
       refine (fun (_ : Keeps s0 a) => ?_) ?_
       clear_value a
       rotate_left
       dsimp only [a]
       clear a)
    | (extract_lets +onlyGivenNames a
       clear_value a)
    | with_reducible apply sendRecord_keeps
    | with_reducible apply Keeps.foldl
    | with_reducible apply Keeps.foldl_fst
    | split
    | with_reducible apply_assumption

theorem unmirror_keeps {s0 s : State} (h : Keeps s0 s) (key) : Keeps s0 (unmirror s key) := by
  unfold unmirror
  repeat' first
    | with_reducible assumption
    | (intro _)
    | simp -zeta only [Keeps.upd_iff]
    | with_reducible apply Keeps.ite
    | (with_reducible refine Keeps.upd ?_)

theorem runTries_keeps {s0 s : State} (h : Keeps s0 s) (key x) : Keeps s0 (runTries s key x) := by
  unfold runTries
  extract_lets home step stop0
  have hs : ∀ (p : State × Word × Bool) (c : Cmd), Keeps s0 p.1 → Keeps s0 (step p c).1 := by
    intro p c hp
    simp only [step]
    split
    · dsimp only; exact answer_keeps hp _ _ _ _
    · split
      · dsimp only; exact answer_keeps (scopeCheck_keeps hp _ _) _ _ _ _
      · dsimp only; exact failWith_keeps hp _ _ _ _ _ _
  clear_value step
  have hf := Keeps.foldl_fst (l := x.tries) hs (p := (setSlot s key { x with tries := [] }, x.value, stop0)) (setSlot_keeps h _ _)
  generalize hp : x.tries.foldl step (setSlot s key { x with tries := [] }, x.value, stop0) = p at hf ⊢
  obtain ⟨s1, v, b⟩ := p
  dsimp only
  split
  · exact setSlot_keeps hf _ _
  · exact hf

theorem readWaiters_keeps {s0 s : State} (h : Keeps s0 s) (key) : Keeps s0 (readWaiters s key) := by
  unfold readWaiters
  split
  · exact h
  · apply Keeps.ite h
    refine Keeps.foldl ?_ h
    intro s w hs
    have hl := readEntry_keeps hs w
    split
    rename_i e
    have hl := Keeps.fst e hl
    apply Keeps.ite
    · split
      · exact putShrunk_keeps hl _ _ _
      · exact hl
    · exact hl

theorem passEnds_keeps {s0 s : State} (h : Keeps s0 s) (key old) : Keeps s0 (passEnds s key old) := by
  unfold passEnds
  repeat' first
    | with_reducible assumption
    | simp -zeta only [Keeps.upd_iff]
    | (extract_lets +onlyGivenNames a
       refine (fun (_ : Keeps s0 a) => ?_) ?_
       clear_value a
       rotate_left
       dsimp only [a]
       clear a)
    | (extract_lets +onlyGivenNames a
       clear_value a)
    | with_reducible apply Keeps.ite
    | with_reducible apply runTries_keeps
    | with_reducible apply sendMirror_keeps
    | split

theorem runPass_keeps {s0 s : State} (h : Keeps s0 s) (key) : Keeps s0 (runPass s key) := by
  unfold runPass
  repeat' first
    | with_reducible assumption
    | (intro _)
    | simp -zeta only [Keeps.upd_iff]
    | (extract_lets +onlyGivenNames a
       refine (fun (_ : Keeps s0 a) => ?_) ?_
       clear_value a
       rotate_left
       dsimp only [a]
       clear a)
    | (extract_lets +onlyGivenNames a
       clear_value a)
    | with_reducible apply Keeps.ite
    | with_reducible apply countDone_keeps
    | with_reducible apply passEnds_keeps
    | with_reducible apply putShrunk_keeps
    | with_reducible apply readWaiters_keeps
    | with_reducible apply toPool_keeps
    | with_reducible apply toPort_keeps
    | split
    | (with_reducible refine Keeps.fst (by assumption) ?_)
    | (with_reducible refine Keeps.upd ?_)

theorem endWaiterFrom_keeps {s0 s : State} (h : Keeps s0 s) (key w st code die) : Keeps s0 (endWaiterFrom s key w st code die) := by
  unfold endWaiterFrom
  repeat' first
    | with_reducible assumption
    | (intro _)
    | simp -zeta only [Keeps.upd_iff]
    | (extract_lets +onlyGivenNames a
       refine (fun (_ : Keeps s0 a) => ?_) ?_
       clear_value a
       rotate_left
       dsimp only [a]
       clear a)
    | (extract_lets +onlyGivenNames a
       clear_value a)
    | with_reducible apply Keeps.ite
    | with_reducible apply answer_keeps
    | with_reducible apply putShrunk_keeps
    | with_reducible apply readEntry_keeps
    | split
    | (with_reducible refine Keeps.fst (by assumption) ?_)
    | (with_reducible refine Keeps.upd ?_)

theorem endWaiter_keeps {s0 s : State} (h : Keeps s0 s) (key w st code) : Keeps s0 (endWaiter s key w st code) := by
  unfold endWaiter
  repeat' first
    | with_reducible assumption
    | with_reducible apply endWaiterFrom_keeps

theorem dropWaiter_keeps {s0 s : State} (h : Keeps s0 s) (key w) : Keeps s0 (dropWaiter s key w) := by
  unfold dropWaiter
  repeat' first
    | with_reducible assumption
    | (intro _)
    | simp -zeta only [Keeps.upd_iff]
    | with_reducible apply putShrunk_keeps
    | split
    | (with_reducible refine Keeps.upd ?_)

theorem quiesceNew_keeps {s0 s : State} (h : Keeps s0 s) (key t c) : Keeps s0 (quiesceNew s key t c) := by
  unfold quiesceNew
  repeat' first
    | with_reducible assumption
    | (intro _)
    | simp -zeta only [Keeps.upd_iff]
    | with_reducible apply Keeps.ite
    | with_reducible apply endWaiter_keeps
    | split

theorem dropRel_keeps {s0 s : State} (h : Keeps s0 s) (key) : Keeps s0 (dropRel s key) := by
  unfold dropRel
  repeat' first
    | with_reducible assumption
    | simp -zeta only [Keeps.upd_iff]
    | with_reducible apply setSlot_keeps
    | split
    | (with_reducible refine Keeps.upd ?_)

theorem readCopy_keeps {s0 s : State} (h : Keeps s0 s) (key) : Keeps s0 (readCopy s key).1 :=
  chkRead_keeps (chkRead_keeps (chkRead_keeps (chkRead_keeps h _ _ _ _) _ _ _ _) _ _ _ _) _ _ _ _

theorem poisonObj_keeps {s0 s : State} (h : Keeps s0 s) (key x) : Keeps s0 (poisonObj s key x) := by
  unfold poisonObj
  repeat' first
    | with_reducible assumption
    | simp -zeta only [Keeps.upd_iff]
    | with_reducible apply runPass_keeps
    | with_reducible apply setSlot_keeps
    | (with_reducible refine Keeps.upd ?_)

theorem mismatchObj_keeps {s0 s : State} (h : Keeps s0 s) (key x) : Keeps s0 (mismatchObj s key x) := by
  unfold mismatchObj
  repeat' first
    | with_reducible assumption
    | (intro _)
    | simp -zeta only [Keeps.upd_iff]
    | (extract_lets +onlyGivenNames a
       refine (fun (_ : Keeps s0 a) => ?_) ?_
       clear_value a
       rotate_left
       dsimp only [a]
       clear a)
    | (extract_lets +onlyGivenNames a
       clear_value a)
    | with_reducible apply runPass_keeps
    | with_reducible apply setSlot_keeps
    | (with_reducible refine Keeps.upd ?_)

theorem readSlot_keeps {s0 s : State} (h : Keeps s0 s) (key x) : Keeps s0 (readSlot s key x) := by
  unfold readSlot
  repeat' first
    | with_reducible assumption
    | (intro _)
    | simp -zeta only [Keeps.upd_iff]
    | (extract_lets +onlyGivenNames a
       refine (fun (_ : Keeps s0 a) => ?_) ?_
       clear_value a
       rotate_left
       dsimp only [a]
       clear a)
    | (extract_lets +onlyGivenNames a
       clear_value a)
    | with_reducible apply Keeps.ite
    | with_reducible apply dropRel_keeps
    | with_reducible apply mismatchObj_keeps
    | with_reducible apply poisonObj_keeps
    | with_reducible apply raiseAll_keeps
    | with_reducible apply readCopy_keeps
    | with_reducible apply Keeps.foldl
    | with_reducible apply Keeps.foldl_fst
    | split
    | with_reducible apply_assumption
    | (with_reducible refine Keeps.fst (by assumption) ?_)
    | (with_reducible refine Keeps.upd ?_)

theorem writeRel_keeps {s0 s : State} (h : Keeps s0 s) (key) : Keeps s0 (writeRel s key) := by
  unfold writeRel
  repeat' first
    | with_reducible assumption
    | (extract_lets +onlyGivenNames a
       refine (fun (_ : Keeps s0 a) => ?_) ?_
       clear_value a
       rotate_left
       dsimp only [a]
       clear a)
    | (extract_lets +onlyGivenNames a
       clear_value a)
    | with_reducible apply Keeps.ite
    | with_reducible apply chkRead_keeps
    | with_reducible apply chkWrite_keeps
    | with_reducible apply dropRel_keeps
    | with_reducible apply raise_keeps
    | split
    | (with_reducible refine Keeps.fst (by assumption) ?_)

theorem writeCopy_keeps {s0 s : State} (h : Keeps s0 s) (key) : Keeps s0 (writeCopy s key) := by
  unfold writeCopy
  repeat' first
    | with_reducible assumption
    | (intro _)
    | with_reducible apply chkWrite_keeps
    | with_reducible apply writeRel_keeps
    | with_reducible apply Keeps.foldl
    | with_reducible apply Keeps.foldl_fst
    | with_reducible apply_assumption

theorem writeSlotChk_keeps {s0 s : State} (h : Keeps s0 s) (key) : Keeps s0 (writeSlotChk s key) := by
  unfold writeSlotChk
  repeat' first
    | with_reducible assumption
    | (intro _)
    | simp -zeta only [Keeps.upd_iff]
    | (extract_lets +onlyGivenNames a
       refine (fun (_ : Keeps s0 a) => ?_) ?_
       clear_value a
       rotate_left
       dsimp only [a]
       clear a)
    | (extract_lets +onlyGivenNames a
       refine (fun (_ : ∀ x b, Keeps s0 x → Keeps s0 (a x b)) => ?_) ?_
       clear_value a
       rotate_left
       dsimp only [a]
       clear a)
    | (extract_lets +onlyGivenNames a
       clear_value a)
    | with_reducible apply Keeps.ite
    | with_reducible apply writeCopy_keeps
    | split
    | with_reducible apply_assumption

end Sys2Proof.Machine
end

