-- ==== Sys2Proof/Laws/KeepBarrier.lean ====
section
/-! SUPPORT. What the operations of Machine/Barrier.lean keep (Laws/Keeps.lean). -/
set_option linter.tactic.unusedName false
set_option linter.unusedSimpArgs false
namespace Sys2Proof.Machine

theorem afterRmw_keeps {s0 s : State} (h : Keeps s0 s) (key old cr pass) : Keeps s0 (afterRmw s key old cr pass) := by
  unfold afterRmw
  repeat' first
    | with_reducible assumption
    | simp -zeta only [Keeps.upd_iff]
    | (extract_lets +onlyGivenNames a
       refine (fun (_ : Keeps s0 a) => ?_) ?_
       clear_value a
       rotate_left
       dsimp only [a]
       clear a)
    | (extract_lets +onlyGivenNames a
       clear_value a)
    | with_reducible apply Keeps.ite
    | with_reducible apply answer_keeps
    | with_reducible apply runPass_keeps
    | with_reducible apply sendMirror_keeps
    | split

theorem countRmw_keeps {s0 s : State} (h : Keeps s0 s) (c k) : Keeps s0 (countRmw s c k) := by
  unfold countRmw
  repeat' first
    | with_reducible assumption
    | with_reducible apply countEv_keeps

theorem countPhase_keeps {s0 s : State} (h : Keeps s0 s) (t) : Keeps s0 (countPhase s t) := by
  unfold countPhase
  repeat' first
    | with_reducible assumption
    | with_reducible apply bump_keeps
    | with_reducible apply countEv_keeps

theorem countEntry_keeps {s0 s : State} (h : Keeps s0 s) (c x) : Keeps s0 (countEntry s c x) := by
  unfold countEntry
  repeat' first
    | with_reducible assumption
    | (extract_lets +onlyGivenNames a
       refine (fun (_ : Keeps s0 a) => ?_) ?_
       clear_value a
       rotate_left
       dsimp only [a]
       clear a)
    | (extract_lets +onlyGivenNames a
       clear_value a)
    | with_reducible apply Keeps.ite
    | with_reducible apply bump_keeps

theorem rootPhaseEnds_keeps {s0 s : State} (h : Keeps s0 s) (c x) : Keeps s0 (rootPhaseEnds s c x) := by
  unfold rootPhaseEnds
  repeat' first
    | with_reducible assumption
    | simp -zeta only [Keeps.upd_iff]
    | (extract_lets +onlyGivenNames a
       refine (fun (_ : Keeps s0 a) => ?_) ?_
       clear_value a
       rotate_left
       dsimp only [a]
       clear a)
    | (extract_lets +onlyGivenNames a
       clear_value a)
    | with_reducible apply Keeps.ite
    | with_reducible apply bump_keeps
    | with_reducible apply countEntry_keeps
    | with_reducible apply countEv_keeps
    | with_reducible apply setCtx_keeps
    | with_reducible apply wr_keeps
    | (with_reducible refine Keeps.upd ?_)

theorem rootDone_keeps {s0 s : State} (h : Keeps s0 s) (x) : Keeps s0 (rootDone s x) := by
  unfold rootDone
  repeat' first
    | with_reducible assumption
    | (intro _)
    | simp -zeta only [Keeps.upd_iff]
    | with_reducible apply Keeps.ite
    | with_reducible apply rootPhaseEnds_keeps
    | with_reducible apply setCtx_keeps
    | with_reducible apply Keeps.foldl
    | with_reducible apply Keeps.foldl_fst
    | with_reducible apply_assumption
    | (with_reducible refine Keeps.upd ?_)

theorem asOf_keeps {s0 s : State} (h : Keeps s0 s) (t) {f : State → State} (hf : ∀ x, Keeps s0 x → Keeps s0 (f x)) :
    Keeps s0 (asOf t f s) := Keeps.upd (hf _ (Keeps.upd h))

theorem completeFrom_keeps {s0 s : State} (h : Keeps s0 s) (key old x) : Keeps s0 (completeFrom s key old x) := by
  unfold completeFrom
  repeat' first
    | with_reducible assumption
    | (extract_lets +onlyGivenNames a
       refine (fun (_ : Keeps s0 a) => ?_) ?_
       clear_value a
       rotate_left
       dsimp only [a]
       clear a)
    | (extract_lets +onlyGivenNames a
       clear_value a)
    | with_reducible apply afterRmw_keeps
    | with_reducible apply countPhase_keeps
    | with_reducible apply rootDone_keeps
    | with_reducible apply setSlot_keeps

theorem completePhase_keeps {s0 s : State} (h : Keeps s0 s) (key x) : Keeps s0 (completePhase s key x) := by
  unfold completePhase
  repeat' first
    | with_reducible assumption
    | with_reducible apply completeFrom_keeps

theorem sendFrames_keeps {s0 s : State} (h : Keeps s0 s) (key x phase t) : Keeps s0 (sendFrames s key x phase t) := by
  unfold sendFrames
  repeat' first
    | with_reducible assumption
    | (intro _)
    | with_reducible apply sendFrom_keeps
    | with_reducible apply Keeps.foldl
    | with_reducible apply Keeps.foldl_fst
    | with_reducible apply_assumption

theorem framesIfArmed_keeps {s0 s : State} (h : Keeps s0 s) (key old new) : Keeps s0 (framesIfArmed s key old new) := by
  unfold framesIfArmed
  repeat' first
    | with_reducible assumption
    | simp -zeta only [Keeps.upd_iff]
    | with_reducible apply Keeps.ite
    | with_reducible apply sendFrames_keeps
    | split

theorem postNotice_keeps {s0 s : State} (h : Keeps s0 s) (o ctx c v) : Keeps s0 (postNotice s o ctx c v) := by
  unfold postNotice
  repeat' first
    | with_reducible assumption
    | (intro _)
    | simp -zeta only [Keeps.upd_iff]
    | with_reducible apply crossed_keeps
    | (with_reducible refine Keeps.upd ?_)

theorem noticeIf_keeps {s0 s : State} (h : Keeps s0 s) (o c v) : Keeps s0 (noticeIf s o c v) := by
  unfold noticeIf
  repeat' first
    | with_reducible assumption
    | with_reducible apply Keeps.ite
    | with_reducible apply postNotice_keeps

theorem rejectCmd_keeps {s0 s : State} (h : Keeps s0 s) (o c k st) : Keeps s0 (rejectCmd s o c k st) := by
  unfold rejectCmd
  repeat' first
    | with_reducible assumption
    | with_reducible apply failPlain_keeps
    | with_reducible apply noticeIf_keeps

theorem turnAway_keeps {s0 s : State} (h : Keeps s0 s) (o c why reason delay) : Keeps s0 (turnAway s o c why reason delay) := by
  unfold turnAway
  repeat' first
    | with_reducible assumption
    | with_reducible apply noticeIf_keeps
    | with_reducible apply refuseCmd_keeps

theorem closeRoot_keeps {s0 s : State} (h : Keeps s0 s) (x) : Keeps s0 (closeRoot s x) := by
  unfold closeRoot
  repeat' first
    | with_reducible assumption
    | (intro _)
    | simp -zeta only [Keeps.upd_iff]
    | with_reducible apply Keeps.ite
    | with_reducible apply setCtx_keeps
    | with_reducible apply Keeps.foldl
    | with_reducible apply Keeps.foldl_fst
    | with_reducible apply_assumption
    | (with_reducible refine Keeps.upd ?_)

theorem recordArrival_keeps {s0 s : State} (h : Keeps s0 s) (key x c members) : Keeps s0 (recordArrival s key x c members) := by
  unfold recordArrival
  repeat' first
    | with_reducible assumption
    | simp -zeta only [Keeps.upd_iff]
    | (extract_lets +onlyGivenNames a
       refine (fun (_ : Keeps s0 a) => ?_) ?_
       clear_value a
       rotate_left
       dsimp only [a]
       clear a)
    | (extract_lets +onlyGivenNames a
       clear_value a)
    | with_reducible apply Keeps.ite
    | with_reducible apply addWaiter_keeps
    | with_reducible apply afterRmw_keeps
    | with_reducible apply closeRoot_keeps
    | with_reducible apply countPhase_keeps
    | with_reducible apply countRmw_keeps
    | with_reducible apply framesIfArmed_keeps
    | with_reducible apply noticeIf_keeps
    | with_reducible apply quiesceNew_keeps
    | with_reducible apply refuseWait_keeps
    | with_reducible apply rootDone_keeps
    | with_reducible apply scopeCheck_keeps
    | with_reducible apply setSlot_keeps
    | split
    | (with_reducible refine Keeps.fst (by assumption) ?_)
    | (with_reducible refine Keeps.upd ?_)

theorem applyArrive_keeps {s0 s : State} (h : Keeps s0 s) (key x c) : Keeps s0 (applyArrive s key x c) := by
  unfold applyArrive
  repeat' first
    | with_reducible assumption
    | (intro _)
    | simp -zeta only [Keeps.upd_iff]
    | (extract_lets +onlyGivenNames a
       refine (fun (_ : Keeps s0 a) => ?_) ?_
       clear_value a
       rotate_left
       dsimp only [a]
       clear a)
    | (extract_lets +onlyGivenNames a
       refine (fun (_ : ∀ x b, Keeps s0 x → Keeps s0 (a x b)) => ?_) ?_
       clear_value a
       rotate_left
       dsimp only [a]
       clear a)
    | (extract_lets +onlyGivenNames a
       clear_value a)
    | with_reducible apply Keeps.ite
    | with_reducible apply bump_keeps
    | with_reducible apply countEv_keeps
    | with_reducible apply recordArrival_keeps
    | with_reducible apply rejectCmd_keeps
    | with_reducible apply turnAway_keeps
    | split
    | with_reducible apply_assumption

theorem applyMember_keeps {s0 s : State} (h : Keeps s0 s) (key x c) : Keeps s0 (applyMember s key x c) := by
  unfold applyMember
  repeat' first
    | with_reducible assumption
    | (intro _)
    | simp -zeta only [Keeps.upd_iff]
    | (extract_lets +onlyGivenNames a
       refine (fun (_ : Keeps s0 a) => ?_) ?_
       clear_value a
       rotate_left
       dsimp only [a]
       clear a)
    | (extract_lets +onlyGivenNames a
       refine (fun (_ : ∀ x, Keeps s0 x → Keeps s0 (a x)) => ?_) ?_
       clear_value a
       rotate_left
       dsimp only [a]
       clear a)
    | (extract_lets +onlyGivenNames a
       clear_value a)
    | with_reducible apply Keeps.ite
    | with_reducible apply afterRmw_keeps
    | with_reducible apply answer_keeps
    | with_reducible apply bump_keeps
    | with_reducible apply closeRoot_keeps
    | with_reducible apply countPhase_keeps
    | with_reducible apply countRmw_keeps
    | with_reducible apply failPlain_keeps
    | with_reducible apply framesIfArmed_keeps
    | with_reducible apply refuseCmd_keeps
    | with_reducible apply rootDone_keeps
    | with_reducible apply setSlot_keeps
    | split
    | with_reducible apply_assumption
    | (with_reducible refine Keeps.fst (by assumption) ?_)
    | (with_reducible refine Keeps.upd ?_)

theorem releaseSlot_keeps {s0 s : State} (h : Keeps s0 s) (key x d) : Keeps s0 (releaseSlot s key x d) := by
  unfold releaseSlot
  repeat' first
    | with_reducible assumption
    | (intro _)
    | simp -zeta only [Keeps.upd_iff]
    | with_reducible apply Keeps.ite
    | with_reducible apply asOf_keeps
    | with_reducible apply bump_keeps
    | with_reducible apply completePhase_keeps
    | with_reducible apply setSlot_keeps
    | split
    | (with_reducible refine Keeps.upd ?_)

theorem timedRelease__keeps {s0 s : State} (h : Keeps s0 s) (key) : Keeps s0 (timedRelease_ s key) := by
  unfold timedRelease_
  repeat' first
    | with_reducible assumption
    | simp -zeta only [Keeps.upd_iff]
    | (extract_lets +onlyGivenNames a
       refine (fun (_ : Keeps s0 a) => ?_) ?_
       clear_value a
       rotate_left
       dsimp only [a]
       clear a)
    | (extract_lets +onlyGivenNames a
       clear_value a)
    | with_reducible apply Keeps.ite
    | with_reducible apply readSlot_keeps
    | with_reducible apply releaseSlot_keeps
    | with_reducible apply writeSlotChk_keeps
    | split

theorem frameAtSlot_keeps {s0 s : State} (h : Keeps s0 s) (key x src phase t) : Keeps s0 (frameAtSlot s key x src phase t) := by
  unfold frameAtSlot
  repeat' first
    | with_reducible assumption
    | simp -zeta only [Keeps.upd_iff]
    | (extract_lets +onlyGivenNames a
       refine (fun (_ : Keeps s0 a) => ?_) ?_
       clear_value a
       rotate_left
       dsimp only [a]
       clear a)
    | (extract_lets +onlyGivenNames a
       clear_value a)
    | with_reducible apply Keeps.ite
    | with_reducible apply afterRmw_keeps
    | with_reducible apply bump_keeps
    | with_reducible apply completeFrom_keeps
    | with_reducible apply countEv_keeps
    | with_reducible apply raise_keeps
    | with_reducible apply setSlot_keeps
    | (with_reducible refine Keeps.upd ?_)

theorem reportAtSlot_keeps {s0 s : State} (h : Keeps s0 s) (key x result) : Keeps s0 (reportAtSlot s key x result) := by
  unfold reportAtSlot
  repeat' first
    | with_reducible assumption
    | (intro _)
    | simp -zeta only [Keeps.upd_iff]
    | (extract_lets +onlyGivenNames a
       refine (fun (_ : Keeps s0 a) => ?_) ?_
       clear_value a
       rotate_left
       dsimp only [a]
       clear a)
    | (extract_lets +onlyGivenNames a
       clear_value a)
    | with_reducible apply Keeps.ite
    | with_reducible apply afterRmw_keeps
    | with_reducible apply completePhase_keeps
    | with_reducible apply setSlot_keeps
    | (with_reducible refine Keeps.upd ?_)

end Sys2Proof.Machine
end

