-- ==== Sys2Proof/Laws/KeepSlice.lean ====
section
/-! SUPPORT. What the operations of Machine/Slice.lean keep (Laws/Keeps.lean). -/
set_option linter.tactic.unusedName false
set_option linter.unusedSimpArgs false
namespace Sys2Proof.Machine

theorem markPend_keeps {s0 s : State} (h : Keeps s0 s) (slice) : Keeps s0 (markPend s slice) := by
  unfold markPend
  repeat' first
    | with_reducible assumption
    | with_reducible apply hwm_keeps

theorem applySignal_keeps {s0 s : State} (h : Keeps s0 s) (key x c op) : Keeps s0 (applySignal s key x c op) := by
  unfold applySignal
  repeat' first
    | with_reducible assumption
    | simp -zeta only [Keeps.upd_iff]
    | (extract_lets +onlyGivenNames a
       refine (fun (_ : Keeps s0 a) => ?_) ?_
       clear_value a
       rotate_left
       dsimp only [a]
       clear a)
    | (extract_lets +onlyGivenNames a
       clear_value a)
    | with_reducible apply Keeps.ite
    | with_reducible apply afterRmw_keeps
    | with_reducible apply countEv_keeps
    | with_reducible apply countRmw_keeps
    | with_reducible apply failPlain_keeps
    | with_reducible apply setSlot_keeps
    | (with_reducible refine Keeps.upd ?_)

theorem applyRead_keeps {s0 s : State} (h : Keeps s0 s) (key x c op) : Keeps s0 (applyRead s key x c op) := by
  unfold applyRead
  repeat' first
    | with_reducible assumption
    | (extract_lets +onlyGivenNames a
       refine (fun (_ : Keeps s0 a) => ?_) ?_
       clear_value a
       rotate_left
       dsimp only [a]
       clear a)
    | (extract_lets +onlyGivenNames a
       clear_value a)
    | with_reducible apply Keeps.ite
    | with_reducible apply answer_keeps
    | with_reducible apply countRmw_keeps
    | with_reducible apply scopeCheck_keeps
    | with_reducible apply setSlot_keeps

theorem endTries_keeps {s0 s : State} (h : Keeps s0 s) (key x) : Keeps s0 (endTries s key x) := by
  unfold endTries
  repeat' first
    | with_reducible assumption
    | (intro _)
    | with_reducible apply failWith_keeps
    | with_reducible apply Keeps.foldl
    | with_reducible apply Keeps.foldl_fst
    | with_reducible apply_assumption

theorem applyFree_keeps {s0 s : State} (h : Keeps s0 s) (key x c index) : Keeps s0 (applyFree s key x c index) := by
  unfold applyFree
  repeat' first
    | with_reducible assumption
    | (extract_lets +onlyGivenNames a
       refine (fun (_ : Keeps s0 a) => ?_) ?_
       clear_value a
       rotate_left
       dsimp only [a]
       clear a)
    | (extract_lets +onlyGivenNames a
       clear_value a)
    | with_reducible apply Keeps.ite
    | with_reducible apply answer_keeps
    | with_reducible apply countRmw_keeps
    | with_reducible apply delSlot_keeps
    | with_reducible apply endTries_keeps
    | with_reducible apply failPlain_keeps
    | with_reducible apply setHtm_keeps
    | with_reducible apply unmirror_keeps

theorem applyWait_keeps {s0 s : State} (h : Keeps s0 s) (key x c op) : Keeps s0 (applyWait s key x c op) := by
  unfold applyWait
  repeat' first
    | with_reducible assumption
    | (intro _)
    | simp -zeta only [Keeps.upd_iff]
    | (extract_lets +onlyGivenNames a
       refine (fun (_ : Keeps s0 a) => ?_) ?_
       clear_value a
       rotate_left
       dsimp only [a]
       clear a)
    | (extract_lets +onlyGivenNames a
       clear_value a)
    | with_reducible apply Keeps.ite
    | with_reducible apply addWaiter_keeps
    | with_reducible apply afterRmw_keeps
    | with_reducible apply bump_keeps
    | with_reducible apply countRmw_keeps
    | with_reducible apply failPlain_keeps
    | with_reducible apply failWith_keeps
    | with_reducible apply markPend_keeps
    | with_reducible apply quiesceNew_keeps
    | with_reducible apply refuseCmd_keeps
    | with_reducible apply refuseWait_keeps
    | with_reducible apply scopeCheck_keeps
    | with_reducible apply setSlot_keeps
    | split
    | (with_reducible refine Keeps.upd ?_)

theorem applyOp_keeps {s0 s : State} (h : Keeps s0 s) (key x c index) : Keeps s0 (applyOp s key x c index) := by
  unfold applyOp
  repeat' first
    | with_reducible assumption
    | simp -zeta only [Keeps.upd_iff]
    | (extract_lets +onlyGivenNames a
       refine (fun (_ : Keeps s0 a) => ?_) ?_
       clear_value a
       rotate_left
       dsimp only [a]
       clear a)
    | (extract_lets +onlyGivenNames a
       clear_value a)
    | with_reducible apply Keeps.ite
    | with_reducible apply applyArrive_keeps
    | with_reducible apply applyFree_keeps
    | with_reducible apply applyMember_keeps
    | with_reducible apply applyRead_keeps
    | with_reducible apply applySignal_keeps
    | with_reducible apply applyWait_keeps
    | with_reducible apply failPlain_keeps
    | with_reducible apply rejectCmd_keeps
    | split

theorem semaRead_keeps {s0 s : State} (h : Keeps s0 s) (target unit index ceSrc ueSrc) : Keeps s0 (semaRead s target unit index ceSrc ueSrc).1 := by
  unfold semaRead
  repeat' first
    | with_reducible assumption
    | simp -zeta only [Keeps.upd_iff]
    | (extract_lets +onlyGivenNames a
       refine (fun (_ : Keeps s0 a) => ?_) ?_
       clear_value a
       rotate_left
       dsimp only [a]
       clear a)
    | (extract_lets +onlyGivenNames a
       clear_value a)
    | with_reducible apply chkRead_keeps
    | with_reducible apply raise_keeps
    | split
    | (with_reducible refine Keeps.fst (by assumption) ?_)

theorem tagRead_keeps {s0 s : State} (h : Keeps s0 s) (key i) : Keeps s0 (tagRead s key i).1 := by
  unfold tagRead
  repeat' first
    | with_reducible assumption
    | simp -zeta only [Keeps.upd_iff]
    | (extract_lets +onlyGivenNames a
       refine (fun (_ : Keeps s0 a) => ?_) ?_
       clear_value a
       rotate_left
       dsimp only [a]
       clear a)
    | (extract_lets +onlyGivenNames a
       clear_value a)
    | with_reducible apply Keeps.ite
    | with_reducible apply semaRead_keeps
    | split
    | (with_reducible refine Keeps.fst (by assumption) ?_)
    | (with_reducible refine Keeps.upd ?_)

theorem htmRead_keeps {s0 s : State} (h : Keeps s0 s) (i) : Keeps s0 (htmRead s i).1 := by
  unfold htmRead
  repeat' first
    | with_reducible assumption
    | simp -zeta only [Keeps.upd_iff]
    | (extract_lets +onlyGivenNames a
       refine (fun (_ : Keeps s0 a) => ?_) ?_
       clear_value a
       rotate_left
       dsimp only [a]
       clear a)
    | (extract_lets +onlyGivenNames a
       clear_value a)
    | with_reducible apply Keeps.ite
    | with_reducible apply semaRead_keeps
    | split
    | (with_reducible refine Keeps.fst (by assumption) ?_)
    | (with_reducible refine Keeps.upd ?_)

theorem htmWrite_keeps {s0 s : State} (h : Keeps s0 s) (i) : Keeps s0 (htmWrite s i) := by
  unfold htmWrite
  repeat' first
    | with_reducible assumption
    | with_reducible apply chkWrite_keeps

theorem pushInq_keeps {s0 s : State} (h : Keeps s0 s) (key x item) : Keeps s0 (pushInq s key x item) := by
  unfold pushInq
  repeat' first
    | with_reducible assumption
    | (intro _)
    | simp -zeta only [Keeps.upd_iff]
    | (extract_lets +onlyGivenNames a
       refine (fun (_ : Keeps s0 a) => ?_) ?_
       clear_value a
       rotate_left
       dsimp only [a]
       clear a)
    | (extract_lets +onlyGivenNames a
       clear_value a)
    | with_reducible apply Keeps.ite
    | with_reducible apply chkWrite_keeps
    | with_reducible apply setSlot_keeps
    | (with_reducible refine Keeps.upd ?_)

theorem girderWait_keeps {s0 s : State} (h : Keeps s0 s) (i item) : Keeps s0 (girderWait s i item) := by
  unfold girderWait
  repeat' first
    | with_reducible assumption
    | simp -zeta only [Keeps.upd_iff]
    | (with_reducible refine Keeps.upd ?_)

theorem noRoom_keeps {s0 s : State} (h : Keeps s0 s) (c index imp) : Keeps s0 (noRoom s c index imp) := by
  unfold noRoom
  repeat' first
    | with_reducible assumption
    | (intro _)
    | simp -zeta only [Keeps.upd_iff]
    | (extract_lets +onlyGivenNames a
       refine (fun (_ : Keeps s0 a) => ?_) ?_
       clear_value a
       rotate_left
       dsimp only [a]
       clear a)
    | (extract_lets +onlyGivenNames a
       clear_value a)
    | with_reducible apply Keeps.ite
    | with_reducible apply failPlain_keeps
    | with_reducible apply girderWait_keeps
    | with_reducible apply mapItem_keeps
    | with_reducible apply noticeIf_keeps
    | (with_reducible refine Keeps.upd ?_)

theorem toSlot_keeps {s0 s : State} (h : Keeps s0 s) (key c index) : Keeps s0 (toSlot s key c index) := by
  unfold toSlot
  repeat' first
    | with_reducible assumption
    | simp -zeta only [Keeps.upd_iff]
    | (extract_lets +onlyGivenNames a
       refine (fun (_ : Keeps s0 a) => ?_) ?_
       clear_value a
       rotate_left
       dsimp only [a]
       clear a)
    | (extract_lets +onlyGivenNames a
       clear_value a)
    | with_reducible apply Keeps.ite
    | with_reducible apply applyOp_keeps
    | with_reducible apply noRoom_keeps
    | with_reducible apply pushInq_keeps
    | with_reducible apply readSlot_keeps
    | with_reducible apply rejectCmd_keeps
    | with_reducible apply turnAway_keeps
    | with_reducible apply writeSlotChk_keeps
    | split

theorem updPart_keeps {s0 s : State} (h : Keeps s0 s) (tag f) : Keeps s0 (updPart s tag f) := by
  unfold updPart
  repeat' first
    | with_reducible assumption
    | (intro _)
    | simp -zeta only [Keeps.upd_iff]
    | (extract_lets +onlyGivenNames a
       refine (fun (_ : Keeps s0 a) => ?_) ?_
       clear_value a
       rotate_left
       dsimp only [a]
       clear a)
    | (extract_lets +onlyGivenNames a
       clear_value a)
    | (with_reducible refine Keeps.upd ?_)

theorem sendReport_keeps {s0 s : State} (h : Keeps s0 s) (o tag idx st) : Keeps s0 (sendReport s o tag idx st) := by
  unfold sendReport
  repeat' first
    | with_reducible assumption
    | (intro _)
    | simp -zeta only [Keeps.upd_iff]
    | with_reducible apply crossed_keeps
    | split
    | (with_reducible refine Keeps.upd ?_)

theorem deferEntry_keeps {s0 s : State} (h : Keeps s0 s) (tag idx due) : Keeps s0 (deferEntry s tag idx due) := by
  unfold deferEntry
  repeat' first
    | with_reducible assumption
    | (intro _)
    | simp -zeta only [Keeps.upd_iff]
    | with_reducible apply updPart_keeps
    | (with_reducible refine Keeps.upd ?_)

theorem retryEntry_keeps {s0 s : State} (h : Keeps s0 s) (o tag idx delay) : Keeps s0 (retryEntry s o tag idx delay) := by
  unfold retryEntry
  repeat' first
    | with_reducible assumption
    | (intro _)
    | simp -zeta only [Keeps.upd_iff]
    | with_reducible apply crossed_keeps
    | with_reducible apply deferEntry_keeps
    | split

theorem countStage_keeps {s0 s : State} (h : Keeps s0 s) (c k st) : Keeps s0 (countStage s c k st) := by
  unfold countStage
  repeat' first
    | with_reducible assumption
    | simp -zeta only [Keeps.upd_iff]
    | (extract_lets +onlyGivenNames a
       refine (fun (_ : Keeps s0 a) => ?_) ?_
       clear_value a
       rotate_left
       dsimp only [a]
       clear a)
    | (extract_lets +onlyGivenNames a
       clear_value a)
    | with_reducible apply Keeps.ite
    | with_reducible apply bump_keeps
    | with_reducible apply countEv_keeps
    | (with_reducible refine Keeps.upd ?_)

theorem reportEntry_keeps {s0 s : State} (h : Keeps s0 s) (o tag idx c k st) : Keeps s0 (reportEntry s o tag idx c k st) := by
  unfold reportEntry
  repeat' first
    | with_reducible assumption
    | with_reducible apply countStage_keeps
    | with_reducible apply sendReport_keeps

theorem applyEntry_keeps {s0 s : State} (h : Keeps s0 s) (key x tag e' c) : Keeps s0 (applyEntry s key x tag e' c) := by
  unfold applyEntry
  repeat' first
    | with_reducible assumption
    | (intro _)
    | simp -zeta only [Keeps.upd_iff]
    | (extract_lets +onlyGivenNames a
       refine (fun (_ : Keeps s0 a) => ?_) ?_
       clear_value a
       rotate_left
       dsimp only [a]
       clear a)
    | (extract_lets +onlyGivenNames a
       clear_value a)
    | with_reducible apply Keeps.ite
    | with_reducible apply bump_keeps
    | with_reducible apply chkWrite_keeps
    | with_reducible apply countRmw_keeps
    | with_reducible apply markPend_keeps
    | with_reducible apply reportEntry_keeps
    | with_reducible apply retryEntry_keeps
    | with_reducible apply sendMirror_keeps
    | with_reducible apply setSlot_keeps
    | with_reducible apply updPart_keeps
    | (with_reducible refine Keeps.upd ?_)

theorem stageAtSlot_keeps {s0 s : State} (h : Keeps s0 s) (key i tag e' c) : Keeps s0 (stageAtSlot s key i tag e' c) := by
  unfold stageAtSlot
  repeat' first
    | with_reducible assumption
    | simp -zeta only [Keeps.upd_iff]
    | (extract_lets +onlyGivenNames a
       refine (fun (_ : Keeps s0 a) => ?_) ?_
       clear_value a
       rotate_left
       dsimp only [a]
       clear a)
    | (extract_lets +onlyGivenNames a
       clear_value a)
    | with_reducible apply Keeps.ite
    | with_reducible apply applyEntry_keeps
    | with_reducible apply girderWait_keeps
    | with_reducible apply pushInq_keeps
    | with_reducible apply readSlot_keeps
    | with_reducible apply reportEntry_keeps
    | with_reducible apply retryEntry_keeps
    | with_reducible apply writeSlotChk_keeps
    | split

theorem marDone_keeps {s0 s : State} (h : Keeps s0 s) (op st) : Keeps s0 (marDone s op st) := by
  unfold marDone
  repeat' first
    | with_reducible assumption
    | (extract_lets +onlyGivenNames a
       refine (fun (_ : Keeps s0 a) => ?_) ?_
       clear_value a
       rotate_left
       dsimp only [a]
       clear a)
    | (extract_lets +onlyGivenNames a
       clear_value a)
    | with_reducible apply Keeps.ite
    | with_reducible apply bump_keeps
    | with_reducible apply put_keeps

theorem marApplied_keeps {s0 s : State} (h : Keeps s0 s) (op t) : Keeps s0 (marApplied s op t) := by
  unfold marApplied
  repeat' first
    | with_reducible assumption
    | with_reducible apply countEv_keeps
    | with_reducible apply marDone_keeps

theorem marWaits_keeps {s0 s : State} (h : Keeps s0 s) (op) : Keeps s0 (marWaits s op) := by
  unfold marWaits
  repeat' first
    | with_reducible assumption
    | with_reducible apply put_keeps

theorem applySetval_keeps {s0 s : State} (h : Keeps s0 s) (key x v) : Keeps s0 (applySetval s key x v) := by
  unfold applySetval
  repeat' first
    | with_reducible assumption
    | (extract_lets +onlyGivenNames a
       refine (fun (_ : Keeps s0 a) => ?_) ?_
       clear_value a
       rotate_left
       dsimp only [a]
       clear a)
    | (extract_lets +onlyGivenNames a
       clear_value a)
    | with_reducible apply Keeps.ite
    | with_reducible apply afterRmw_keeps
    | with_reducible apply marApplied_keeps
    | with_reducible apply marDone_keeps
    | with_reducible apply setSlot_keeps
    | with_reducible apply wr_keeps
    | with_reducible apply writeSlotChk_keeps

theorem setvalAt_keeps {s0 s : State} (h : Keeps s0 s) (key i v) : Keeps s0 (setvalAt s key i v) := by
  unfold setvalAt
  repeat' first
    | with_reducible assumption
    | simp -zeta only [Keeps.upd_iff]
    | (extract_lets +onlyGivenNames a
       refine (fun (_ : Keeps s0 a) => ?_) ?_
       clear_value a
       rotate_left
       dsimp only [a]
       clear a)
    | (extract_lets +onlyGivenNames a
       clear_value a)
    | with_reducible apply Keeps.ite
    | with_reducible apply applySetval_keeps
    | with_reducible apply girderWait_keeps
    | with_reducible apply marDone_keeps
    | with_reducible apply marWaits_keeps
    | with_reducible apply pushInq_keeps
    | with_reducible apply readSlot_keeps
    | split

theorem loseItem_keeps {s0 s : State} (h : Keeps s0 s) (x0) : Keeps s0 (loseItem s x0) := by
  unfold loseItem
  repeat' first
    | with_reducible assumption
    | with_reducible apply marDone_keeps
    | split

end Sys2Proof.Machine
end

