-- ==== Sys2Proof/Laws/KeepBank.lean ====
section
/-! SUPPORT. What the operations of Machine/Bank.lean keep (Laws/Keeps.lean). -/
set_option linter.tactic.unusedName false
set_option linter.unusedSimpArgs false
namespace Sys2Proof.Machine

theorem pushTransit_keeps {s0 s : State} (h : Keeps s0 s) (i x) : Keeps s0 (pushTransit s i x) := by
  unfold pushTransit
  repeat' first
    | with_reducible assumption
    | (intro _)
    | simp -zeta only [Keeps.upd_iff]
    | (extract_lets +onlyGivenNames a
       refine (fun (_ : Keeps s0 a) => ?_) ?_
       clear_value a
       rotate_left
       dsimp only [a]
       clear a)
    | (extract_lets +onlyGivenNames a
       clear_value a)
    | with_reducible apply Keeps.ite
    | with_reducible apply chkWrite_keeps
    | (with_reducible refine Keeps.upd ?_)

theorem pushPaging_keeps {s0 s : State} (h : Keeps s0 s) (i x) : Keeps s0 (pushPaging s i x) := by
  unfold pushPaging
  repeat' first
    | with_reducible assumption
    | simp -zeta only [Keeps.upd_iff]
    | (extract_lets +onlyGivenNames a
       refine (fun (_ : Keeps s0 a) => ?_) ?_
       clear_value a
       rotate_left
       dsimp only [a]
       clear a)
    | (extract_lets +onlyGivenNames a
       clear_value a)
    | with_reducible apply chkWrite_keeps
    | (with_reducible refine Keeps.upd ?_)

theorem imgWrite_keeps {s0 s : State} (h : Keeps s0 s) (t n v m) : Keeps s0 (imgWrite s t n v m) := by
  unfold imgWrite
  repeat' first
    | with_reducible assumption
    | simp -zeta only [Keeps.upd_iff]
    | with_reducible apply setMem64_keeps
    | (with_reducible refine Keeps.upd ?_)

theorem setSide_keeps {s0 s : State} (h : Keeps s0 s) (i x) : Keeps s0 (setSide s i x) := by
  unfold setSide
  repeat' first
    | with_reducible assumption
    | simp -zeta only [Keeps.upd_iff]
    | (with_reducible refine Keeps.upd ?_)

theorem doAlloc_keeps {s0 s : State} (h : Keeps s0 s) (c pref) : Keeps s0 (doAlloc s c pref) := by
  unfold doAlloc
  repeat' first
    | with_reducible assumption
    | simp -zeta only [Keeps.upd_iff]
    | (extract_lets +onlyGivenNames a
       refine (fun (_ : Keeps s0 a) => ?_) ?_
       clear_value a
       rotate_left
       dsimp only [a]
       clear a)
    | (extract_lets +onlyGivenNames a
       clear_value a)
    | with_reducible apply Keeps.ite
    | with_reducible apply answer_keeps
    | with_reducible apply chkWrite_keeps
    | with_reducible apply failPlain_keeps
    | with_reducible apply htmWrite_keeps
    | with_reducible apply imgWrite_keeps
    | with_reducible apply setHtm_keeps
    | with_reducible apply setSlot_keeps
    | with_reducible apply writeSlotChk_keeps
    | split

theorem auditReads_keeps {s0 s : State} (h : Keeps s0 s) (t) : Keeps s0 (auditReads s t) := by
  unfold auditReads
  repeat' first
    | with_reducible assumption
    | (intro _)
    | simp -zeta only [Keeps.upd_iff]
    | (extract_lets +onlyGivenNames a
       refine (fun (_ : Keeps s0 a) => ?_) ?_
       clear_value a
       rotate_left
       dsimp only [a]
       clear a)
    | (extract_lets +onlyGivenNames a
       clear_value a)
    | with_reducible apply Keeps.ite
    | with_reducible apply readSlot_keeps
    | with_reducible apply Keeps.foldl
    | with_reducible apply Keeps.foldl_fst
    | split
    | with_reducible apply_assumption

theorem doAudit_keeps {s0 s : State} (h : Keeps s0 s) (c) : Keeps s0 (doAudit s c) := by
  unfold doAudit
  repeat' first
    | with_reducible assumption
    | (intro _)
    | (extract_lets +onlyGivenNames a
       refine (fun (_ : Keeps s0 a) => ?_) ?_
       clear_value a
       rotate_left
       dsimp only [a]
       clear a)
    | (extract_lets +onlyGivenNames a
       clear_value a)
    | with_reducible apply Keeps.ite
    | with_reducible apply answer_keeps
    | with_reducible apply auditReads_keeps
    | with_reducible apply failPlain_keeps
    | with_reducible apply setMem64_keeps
    | with_reducible apply Keeps.foldl
    | with_reducible apply Keeps.foldl_fst
    | with_reducible apply_assumption

theorem bankRead_keeps {s0 s : State} (h : Keeps s0 s) (i) : Keeps s0 (bankRead s i) := by
  unfold bankRead
  repeat' first
    | with_reducible assumption
    | (extract_lets +onlyGivenNames a
       refine (fun (_ : Keeps s0 a) => ?_) ?_
       clear_value a
       rotate_left
       dsimp only [a]
       clear a)
    | (extract_lets +onlyGivenNames a
       clear_value a)
    | with_reducible apply Keeps.ite
    | with_reducible apply htmRead_keeps
    | with_reducible apply tagRead_keeps

theorem sendFill_keeps {s0 s : State} (h : Keeps s0 s) (bank c n e') : Keeps s0 (sendFill s bank c n e') := by
  unfold sendFill
  repeat' first
    | with_reducible assumption
    | (intro _)
    | simp -zeta only [Keeps.upd_iff]
    | with_reducible apply crossed_keeps
    | (with_reducible refine Keeps.upd ?_)

theorem sendInv_keeps {s0 s : State} (h : Keeps s0 s) (bank c ret) : Keeps s0 (sendInv s bank c ret) := by
  unfold sendInv
  repeat' first
    | with_reducible assumption
    | (intro _)
    | simp -zeta only [Keeps.upd_iff]
    | with_reducible apply crossed_keeps
    | split
    | (with_reducible refine Keeps.upd ?_)

theorem forward_keeps {s0 s : State} (h : Keeps s0 s) (c key i) : Keeps s0 (forward s c key i) := by
  unfold forward
  repeat' first
    | with_reducible assumption
    | simp -zeta only [Keeps.upd_iff]
    | with_reducible apply girderPass_keeps
    | with_reducible apply rejectCmd_keeps
    | with_reducible apply toSlot_keeps
    | split
    | (with_reducible refine Keeps.fst (by assumption) ?_)

theorem bankAt_keeps {s0 s : State} (h : Keeps s0 s) (c i imp miss ret) : Keeps s0 (bankAt s c i imp miss ret) := by
  unfold bankAt
  repeat' first
    | with_reducible assumption
    | simp -zeta only [Keeps.upd_iff]
    | (extract_lets +onlyGivenNames a
       refine (fun (_ : Keeps s0 a) => ?_) ?_
       clear_value a
       rotate_left
       dsimp only [a]
       clear a)
    | (extract_lets +onlyGivenNames a
       clear_value a)
    | with_reducible apply Keeps.ite
    | with_reducible apply bankRead_keeps
    | with_reducible apply forward_keeps
    | with_reducible apply pushPaging_keeps
    | with_reducible apply pushTransit_keeps
    | with_reducible apply rejectCmd_keeps
    | with_reducible apply sendFill_keeps
    | with_reducible apply sendInv_keeps
    | with_reducible apply turnAway_keeps
    | split

theorem bankCmd_keeps {s0 s : State} (h : Keeps s0 s) (c pref miss ret) : Keeps s0 (bankCmd s c pref miss ret) := by
  unfold bankCmd
  repeat' first
    | with_reducible assumption
    | simp -zeta only [Keeps.upd_iff]
    | (extract_lets +onlyGivenNames a
       refine (fun (_ : Keeps s0 a) => ?_) ?_
       clear_value a
       rotate_left
       dsimp only [a]
       clear a)
    | (extract_lets +onlyGivenNames a
       clear_value a)
    | with_reducible apply Keeps.ite
    | with_reducible apply bankAt_keeps
    | with_reducible apply doAlloc_keeps
    | with_reducible apply doAudit_keeps
    | with_reducible apply failPlain_keeps
    | with_reducible apply rejectCmd_keeps
    | split
    | (with_reducible refine Keeps.upd ?_)

theorem forwardStage_keeps {s0 s : State} (h : Keeps s0 s) (tag e' c key i) : Keeps s0 (forwardStage s tag e' c key i) := by
  unfold forwardStage
  repeat' first
    | with_reducible assumption
    | simp -zeta only [Keeps.upd_iff]
    | with_reducible apply girderPass_keeps
    | with_reducible apply reportEntry_keeps
    | with_reducible apply stageAtSlot_keeps
    | split
    | (with_reducible refine Keeps.fst (by assumption) ?_)

theorem stageAt_keeps {s0 s : State} (h : Keeps s0 s) (tag e' c i imp miss ret) : Keeps s0 (stageAt s tag e' c i imp miss ret) := by
  unfold stageAt
  repeat' first
    | with_reducible assumption
    | simp -zeta only [Keeps.upd_iff]
    | (extract_lets +onlyGivenNames a
       refine (fun (_ : Keeps s0 a) => ?_) ?_
       clear_value a
       rotate_left
       dsimp only [a]
       clear a)
    | (extract_lets +onlyGivenNames a
       clear_value a)
    | with_reducible apply Keeps.ite
    | with_reducible apply bankRead_keeps
    | with_reducible apply forwardStage_keeps
    | with_reducible apply pushPaging_keeps
    | with_reducible apply pushTransit_keeps
    | with_reducible apply reportEntry_keeps
    | with_reducible apply retryEntry_keeps
    | with_reducible apply sendFill_keeps
    | with_reducible apply sendInv_keeps
    | split

theorem bankStage_keeps {s0 s : State} (h : Keeps s0 s) (tag e' c miss ret) : Keeps s0 (bankStage s tag e' c miss ret) := by
  unfold bankStage
  repeat' first
    | with_reducible assumption
    | simp -zeta only [Keeps.upd_iff]
    | with_reducible apply Keeps.ite
    | with_reducible apply reportEntry_keeps
    | with_reducible apply stageAt_keeps
    | split
    | (with_reducible refine Keeps.upd ?_)

theorem unstage_keeps {s0 s : State} (h : Keeps s0 s) (key tag idx) : Keeps s0 (unstage s key tag idx) := by
  unfold unstage
  repeat' first
    | with_reducible assumption
    | (intro _)
    | simp -zeta only [Keeps.upd_iff]
    | (extract_lets +onlyGivenNames a
       refine (fun (_ : Keeps s0 a) => ?_) ?_
       clear_value a
       rotate_left
       dsimp only [a]
       clear a)
    | (extract_lets +onlyGivenNames a
       clear_value a)
    | with_reducible apply Keeps.ite
    | with_reducible apply setSide_keeps
    | with_reducible apply setSlot_keeps
    | with_reducible apply updPart_keeps
    | split
    | (with_reducible refine Keeps.upd ?_)

theorem stageEnds_keeps {s0 s : State} (h : Keeps s0 s) (key tag idx ok) : Keeps s0 (stageEnds s key tag idx ok) := by
  unfold stageEnds
  repeat' first
    | with_reducible assumption
    | simp -zeta only [Keeps.upd_iff]
    | (extract_lets +onlyGivenNames a
       refine (fun (_ : Keeps s0 a) => ?_) ?_
       clear_value a
       rotate_left
       dsimp only [a]
       clear a)
    | (extract_lets +onlyGivenNames a
       clear_value a)
    | with_reducible apply Keeps.ite
    | with_reducible apply reportEntry_keeps
    | with_reducible apply unstage_keeps
    | split

theorem deliverHeld_keeps {s0 s : State} (h : Keeps s0 s) (m ok) : Keeps s0 (deliverHeld s m ok) := by
  unfold deliverHeld
  repeat' first
    | with_reducible assumption
    | simp -zeta only [Keeps.upd_iff]
    | (extract_lets +onlyGivenNames a
       refine (fun (_ : Keeps s0 a) => ?_) ?_
       clear_value a
       rotate_left
       dsimp only [a]
       clear a)
    | (extract_lets +onlyGivenNames a
       clear_value a)
    | with_reducible apply Keeps.ite
    | with_reducible apply answer_keeps
    | with_reducible apply stageEnds_keeps
    | split

theorem frameSlot_keeps {s0 s : State} (h : Keeps s0 s) (key i h' obj phase t) : Keeps s0 (frameSlot s key i h' obj phase t) := by
  unfold frameSlot
  repeat' first
    | with_reducible assumption
    | simp -zeta only [Keeps.upd_iff]
    | (extract_lets +onlyGivenNames a
       refine (fun (_ : Keeps s0 a) => ?_) ?_
       clear_value a
       rotate_left
       dsimp only [a]
       clear a)
    | (extract_lets +onlyGivenNames a
       clear_value a)
    | with_reducible apply Keeps.ite
    | with_reducible apply bump_keeps
    | with_reducible apply frameAtSlot_keeps
    | with_reducible apply girderWait_keeps
    | with_reducible apply pushInq_keeps
    | with_reducible apply readSlot_keeps
    | with_reducible apply writeSlotChk_keeps
    | split

theorem cboundAt_keeps {s0 s : State} (h : Keeps s0 s) (key i ctx set) : Keeps s0 (cboundAt s key i ctx set) := by
  unfold cboundAt
  repeat' first
    | with_reducible assumption
    | simp -zeta only [Keeps.upd_iff]
    | (extract_lets +onlyGivenNames a
       refine (fun (_ : Keeps s0 a) => ?_) ?_
       clear_value a
       rotate_left
       dsimp only [a]
       clear a)
    | (extract_lets +onlyGivenNames a
       clear_value a)
    | with_reducible apply Keeps.ite
    | with_reducible apply afterRmw_keeps
    | with_reducible apply girderWait_keeps
    | with_reducible apply pushInq_keeps
    | with_reducible apply readSlot_keeps
    | with_reducible apply setSlot_keeps
    | with_reducible apply writeSlotChk_keeps
    | split
    | (with_reducible refine Keeps.upd ?_)

theorem bankFrame_keeps {s0 s : State} (h : Keeps s0 s) (h' obj phase t) : Keeps s0 (bankFrame s h' obj phase t) := by
  unfold bankFrame
  repeat' first
    | with_reducible assumption
    | (intro _)
    | simp -zeta only [Keeps.upd_iff]
    | (extract_lets +onlyGivenNames a
       refine (fun (_ : Keeps s0 a) => ?_) ?_
       clear_value a
       rotate_left
       dsimp only [a]
       clear a)
    | (extract_lets +onlyGivenNames a
       clear_value a)
    | with_reducible apply Keeps.ite
    | with_reducible apply bankRead_keeps
    | with_reducible apply bump_keeps
    | with_reducible apply crossed_keeps
    | with_reducible apply frameSlot_keeps
    | with_reducible apply pushPaging_keeps
    | with_reducible apply pushTransit_keeps
    | with_reducible apply staleDrop_keeps
    | split
    | (with_reducible refine Keeps.upd ?_)

theorem bankItem_keeps {s0 s : State} (h : Keeps s0 s) (x) : Keeps s0 (bankItem s x) := by
  unfold bankItem
  repeat' first
    | with_reducible assumption
    | simp -zeta only [Keeps.upd_iff]
    | with_reducible apply bankAt_keeps
    | with_reducible apply bankCmd_keeps
    | with_reducible apply bankFrame_keeps
    | with_reducible apply bankStage_keeps
    | with_reducible apply rejectCmd_keeps
    | with_reducible apply reportEntry_keeps
    | with_reducible apply stageAt_keeps
    | split

theorem releaseTransit_keeps {s0 s : State} (h : Keeps s0 s) (i) : Keeps s0 (releaseTransit s i) := by
  unfold releaseTransit
  repeat' first
    | with_reducible assumption
    | (intro _)
    | simp -zeta only [Keeps.upd_iff]
    | (extract_lets +onlyGivenNames a
       refine (fun (_ : Keeps s0 a) => ?_) ?_
       clear_value a
       rotate_left
       dsimp only [a]
       clear a)
    | (extract_lets +onlyGivenNames a
       clear_value a)
    | with_reducible apply Keeps.ite
    | with_reducible apply bankItem_keeps
    | with_reducible apply semaRead_keeps
    | with_reducible apply Keeps.foldl
    | with_reducible apply Keeps.foldl_fst
    | split
    | with_reducible apply_assumption
    | (with_reducible refine Keeps.fst (by assumption) ?_)
    | (with_reducible refine Keeps.upd ?_)

theorem slotItem_keeps {s0 s : State} (h : Keeps s0 s) (key i x) : Keeps s0 (slotItem s key i x) := by
  unfold slotItem
  repeat' first
    | with_reducible assumption
    | simp -zeta only [Keeps.upd_iff]
    | (extract_lets +onlyGivenNames a
       refine (fun (_ : Keeps s0 a) => ?_) ?_
       clear_value a
       rotate_left
       dsimp only [a]
       clear a)
    | (extract_lets +onlyGivenNames a
       clear_value a)
    | with_reducible apply Keeps.ite
    | with_reducible apply cboundAt_keeps
    | with_reducible apply frameSlot_keeps
    | with_reducible apply rejectCmd_keeps
    | with_reducible apply reportEntry_keeps
    | with_reducible apply setvalAt_keeps
    | with_reducible apply stageAtSlot_keeps
    | with_reducible apply toSlot_keeps
    | split

theorem drainGirder_keeps {s0 s : State} (h : Keeps s0 s) : Keeps s0 (drainGirder s) := by
  unfold drainGirder
  repeat' first
    | with_reducible assumption
    | (intro _)
    | simp -zeta only [Keeps.upd_iff]
    | (extract_lets +onlyGivenNames a
       refine (fun (_ : Keeps s0 a) => ?_) ?_
       clear_value a
       rotate_left
       dsimp only [a]
       clear a)
    | (extract_lets +onlyGivenNames a
       clear_value a)
    | with_reducible apply Keeps.ite
    | with_reducible apply bankItem_keeps
    | with_reducible apply marDone_keeps
    | with_reducible apply pushPaging_keeps
    | with_reducible apply slotItem_keeps
    | with_reducible apply Keeps.foldl
    | with_reducible apply Keeps.foldl_fst
    | split
    | with_reducible apply_assumption
    | (with_reducible refine Keeps.upd ?_)

theorem drainInq_keeps {s0 s : State} (h : Keeps s0 s) (key) : Keeps s0 (drainInq s key) := by
  unfold drainInq
  repeat' first
    | with_reducible assumption
    | (intro _)
    | simp -zeta only [Keeps.upd_iff]
    | (extract_lets +onlyGivenNames a
       refine (fun (_ : Keeps s0 a) => ?_) ?_
       clear_value a
       rotate_left
       dsimp only [a]
       clear a)
    | (extract_lets +onlyGivenNames a
       clear_value a)
    | with_reducible apply Keeps.ite
    | with_reducible apply drainGirder_keeps
    | with_reducible apply loseItem_keeps
    | with_reducible apply semaRead_keeps
    | with_reducible apply setSlot_keeps
    | with_reducible apply slotItem_keeps
    | with_reducible apply Keeps.foldl
    | with_reducible apply Keeps.foldl_fst
    | split
    | with_reducible apply_assumption
    | (with_reducible refine Keeps.fst (by assumption) ?_)
    | (with_reducible refine Keeps.upd ?_)

end Sys2Proof.Machine
end

