-- ==== Sys2Proof/Laws/KeepCombine.lean ====
section
/-! SUPPORT. What the operations of Machine/Combine.lean keep (Laws/Keeps.lean). -/
set_option linter.tactic.unusedName false
set_option linter.unusedSimpArgs false
namespace Sys2Proof.Machine

theorem setCmdst_keeps {s0 s : State} (h : Keeps s0 s) (c st busy) : Keeps s0 (setCmdst s c st busy) := by
  unfold setCmdst
  repeat' first
    | with_reducible assumption
    | with_reducible apply put_keeps

theorem openEntry_keeps {s0 s : State} (h : Keeps s0 s) (c x) : Keeps s0 (openEntry s c x) := by
  unfold openEntry
  repeat' first
    | with_reducible assumption
    | (extract_lets +onlyGivenNames a
       refine (fun (_ : Keeps s0 a) => ?_) ?_
       clear_value a
       rotate_left
       dsimp only [a]
       clear a)
    | (extract_lets +onlyGivenNames a
       clear_value a)
    | with_reducible apply chkWrite_keeps
    | with_reducible apply openGate_keeps
    | with_reducible apply setCtx_keeps
    | with_reducible apply wr_keeps

theorem dropWaitParts_keeps {s0 s : State} (h : Keeps s0 s) (c) : Keeps s0 (dropWaitParts s c) := by
  unfold dropWaitParts
  repeat' first
    | with_reducible assumption
    | (intro _)
    | simp -zeta only [Keeps.upd_iff]
    | (extract_lets +onlyGivenNames a
       refine (fun (_ : Keeps s0 a) => ?_) ?_
       clear_value a
       rotate_left
       dsimp only [a]
       clear a)
    | (extract_lets +onlyGivenNames a
       clear_value a)
    | (with_reducible refine Keeps.upd ?_)

theorem openEnds_keeps {s0 s : State} (h : Keeps s0 s) : Keeps s0 (openEnds s) := by
  unfold openEnds
  repeat' first
    | with_reducible assumption
    | simp -zeta only [Keeps.upd_iff]
    | (extract_lets +onlyGivenNames a
       refine (fun (_ : Keeps s0 a) => ?_) ?_
       clear_value a
       rotate_left
       dsimp only [a]
       clear a)
    | (extract_lets +onlyGivenNames a
       clear_value a)
    | with_reducible apply Keeps.ite
    | with_reducible apply openEntry_keeps
    | with_reducible apply setCmdst_keeps
    | split
    | (with_reducible refine Keeps.upd ?_)

theorem openWaits_keeps {s0 s : State} (h : Keeps s0 s) (c x) : Keeps s0 (openWaits s c x) := by
  unfold openWaits
  repeat' first
    | with_reducible assumption
    | simp -zeta only [Keeps.upd_iff]
    | with_reducible apply setCmdst_keeps
    | (with_reducible refine Keeps.upd ?_)

theorem doOpen_keeps {s0 s : State} (h : Keeps s0 s) (c) : Keeps s0 (doOpen s c) := by
  unfold doOpen
  repeat' first
    | with_reducible assumption
    | simp -zeta only [Keeps.upd_iff]
    | (extract_lets +onlyGivenNames a
       refine (fun (_ : Keeps s0 a) => ?_) ?_
       clear_value a
       rotate_left
       dsimp only [a]
       clear a)
    | (extract_lets +onlyGivenNames a
       clear_value a)
    | with_reducible apply Keeps.ite
    | with_reducible apply cboundAt_keeps
    | with_reducible apply openEnds_keeps
    | with_reducible apply openEntry_keeps
    | with_reducible apply openWaits_keeps
    | with_reducible apply pushPaging_keeps
    | with_reducible apply setCmdst_keeps
    | split

theorem entryGone_keeps {s0 s : State} (h : Keeps s0 s) (c) : Keeps s0 (entryGone s c) := by
  unfold entryGone
  repeat' first
    | with_reducible assumption
    | simp -zeta only [Keeps.upd_iff]
    | (extract_lets +onlyGivenNames a
       refine (fun (_ : Keeps s0 a) => ?_) ?_
       clear_value a
       rotate_left
       dsimp only [a]
       clear a)
    | (extract_lets +onlyGivenNames a
       clear_value a)
    | with_reducible apply dropWaitParts_keeps
    | (with_reducible refine Keeps.upd ?_)

theorem doClose_keeps {s0 s : State} (h : Keeps s0 s) (c) : Keeps s0 (doClose s c) := by
  unfold doClose
  repeat' first
    | with_reducible assumption
    | simp -zeta only [Keeps.upd_iff]
    | (extract_lets +onlyGivenNames a
       refine (fun (_ : Keeps s0 a) => ?_) ?_
       clear_value a
       rotate_left
       dsimp only [a]
       clear a)
    | (extract_lets +onlyGivenNames a
       clear_value a)
    | with_reducible apply Keeps.ite
    | with_reducible apply cboundAt_keeps
    | with_reducible apply entryGone_keeps
    | with_reducible apply openEnds_keeps
    | with_reducible apply openWaits_keeps
    | with_reducible apply pushPaging_keeps
    | with_reducible apply setCmdst_keeps
    | split

theorem pushBeats_keeps {s0 s : State} (h : Keeps s0 s) (a bs) : Keeps s0 (pushBeats s a bs) := by
  unfold pushBeats
  repeat' first
    | with_reducible assumption
    | simp -zeta only [Keeps.upd_iff]
    | (extract_lets +onlyGivenNames a
       refine (fun (_ : Keeps s0 a) => ?_) ?_
       clear_value a
       rotate_left
       dsimp only [a]
       clear a)
    | (extract_lets +onlyGivenNames a
       clear_value a)
    | with_reducible apply setPier_keeps
    | split
    | (with_reducible refine Keeps.upd ?_)

theorem askBeats_keeps {s0 s : State} (h : Keeps s0 s) (c x p j) : Keeps s0 (askBeats s c x p j).1 := by
  unfold askBeats
  repeat' first
    | with_reducible assumption
    | (intro _)
    | simp -zeta only [Keeps.upd_iff]
    | (extract_lets +onlyGivenNames a
       refine (fun (_ : Keeps s0 a) => ?_) ?_
       clear_value a
       rotate_left
       dsimp only [a]
       clear a)
    | (extract_lets +onlyGivenNames a
       clear_value a)
    | split
    | (with_reducible refine Keeps.upd ?_)

theorem askAll_keeps {s0 s : State} (h : Keeps s0 s) (c x) : Keeps s0 (askAll s c x).1 := by
  unfold askAll
  repeat' first
    | with_reducible assumption
    | (intro _)
    | simp -zeta only [Keeps.upd_iff]
    | (extract_lets +onlyGivenNames a
       refine (fun (_ : Keeps s0 a) => ?_) ?_
       clear_value a
       rotate_left
       dsimp only [a]
       clear a)
    | (extract_lets +onlyGivenNames a
       clear_value a)
    | with_reducible apply askBeats_keeps
    | with_reducible apply Keeps.foldl
    | with_reducible apply Keeps.foldl_fst
    | split
    | with_reducible apply_assumption
    | (with_reducible refine Keeps.fst (by assumption) ?_)
    | (with_reducible refine Keeps.upd ?_)

theorem voidBeats_keeps {s0 s : State} (h : Keeps s0 s) (c p) : Keeps s0 (voidBeats s c p) := by
  unfold voidBeats
  repeat' first
    | with_reducible assumption
    | (intro _)
    | simp -zeta only [Keeps.upd_iff]
    | (extract_lets +onlyGivenNames a
       refine (fun (_ : Keeps s0 a) => ?_) ?_
       clear_value a
       rotate_left
       dsimp only [a]
       clear a)
    | (extract_lets +onlyGivenNames a
       clear_value a)
    | with_reducible apply Keeps.ite
    | with_reducible apply setPier_keeps
    | split
    | with_reducible apply_assumption
    | (with_reducible refine Keeps.upd ?_)

theorem dropPart_keeps {s0 s : State} (h : Keeps s0 s) (c x cmd) : Keeps s0 (dropPart s c x cmd).1 := by
  unfold dropPart
  repeat' first
    | with_reducible assumption
    | (intro _)
    | simp -zeta only [Keeps.upd_iff]
    | (extract_lets +onlyGivenNames a
       refine (fun (_ : Keeps s0 a) => ?_) ?_
       clear_value a
       rotate_left
       dsimp only [a]
       clear a)
    | (extract_lets +onlyGivenNames a
       clear_value a)
    | with_reducible apply voidBeats_keeps
    | with_reducible apply Keeps.foldl
    | with_reducible apply Keeps.foldl_fst
    | split
    | with_reducible apply_assumption
    | (with_reducible refine Keeps.upd ?_)

theorem recheckQueue_keeps {s0 s : State} (h : Keeps s0 s) (a q) : Keeps s0 (recheckQueue s a q) := by
  unfold recheckQueue
  repeat' first
    | with_reducible assumption
    | (intro _)
    | simp -zeta only [Keeps.upd_iff]
    | (extract_lets +onlyGivenNames a
       refine (fun (_ : Keeps s0 a) => ?_) ?_
       clear_value a
       rotate_left
       dsimp only [a]
       clear a)
    | (extract_lets +onlyGivenNames a
       clear_value a)
    | with_reducible apply Keeps.ite
    | with_reducible apply setQueue_keeps
    | with_reducible apply Keeps.foldl
    | with_reducible apply Keeps.foldl_fst
    | split
    | with_reducible apply_assumption
    | (with_reducible refine Keeps.upd ?_)

theorem beatsFreed_keeps {s0 s : State} (h : Keeps s0 s) (a) : Keeps s0 (beatsFreed s a) := by
  unfold beatsFreed
  repeat' first
    | with_reducible assumption
    | (intro _)
    | with_reducible apply presentOf_keeps
    | with_reducible apply recheckQueue_keeps
    | with_reducible apply Keeps.foldl
    | with_reducible apply Keeps.foldl_fst
    | with_reducible apply_assumption

theorem discardPhase_keeps {s0 s : State} (h : Keeps s0 s) (c x aborted) : Keeps s0 (discardPhase s c x aborted) := by
  unfold discardPhase
  repeat' first
    | with_reducible assumption
    | (intro _)
    | simp -zeta only [Keeps.upd_iff]
    | (extract_lets +onlyGivenNames a
       refine (fun (_ : Keeps s0 a) => ?_) ?_
       clear_value a
       rotate_left
       dsimp only [a]
       clear a)
    | (extract_lets +onlyGivenNames a
       clear_value a)
    | with_reducible apply beatsFreed_keeps
    | with_reducible apply dropWaitParts_keeps
    | with_reducible apply setCtx_keeps
    | with_reducible apply voidBeats_keeps
    | with_reducible apply Keeps.foldl
    | with_reducible apply Keeps.foldl_fst
    | with_reducible apply_assumption
    | (with_reducible refine Keeps.upd ?_)

theorem postReport_keeps {s0 s : State} (h : Keeps s0 s) (c x aborted) : Keeps s0 (postReport s c x aborted) := by
  unfold postReport
  repeat' first
    | with_reducible assumption
    | (intro _)
    | simp -zeta only [Keeps.upd_iff]
    | (extract_lets +onlyGivenNames a
       refine (fun (_ : Keeps s0 a) => ?_) ?_
       clear_value a
       rotate_left
       dsimp only [a]
       clear a)
    | (extract_lets +onlyGivenNames a
       clear_value a)
    | with_reducible apply crossed_keeps
    | (with_reducible refine Keeps.upd ?_)

theorem sendFrame_keeps {s0 s : State} (h : Keeps s0 s) (c x d m) : Keeps s0 (sendFrame s c x d m) := by
  unfold sendFrame
  repeat' first
    | with_reducible assumption
    | with_reducible apply sendFrom_keeps

theorem abortRoot_keeps {s0 s : State} (h : Keeps s0 s) (c x a) : Keeps s0 (abortRoot s c x a) := by
  unfold abortRoot
  repeat' first
    | with_reducible assumption
    | (intro _)
    | (extract_lets +onlyGivenNames a
       refine (fun (_ : Keeps s0 a) => ?_) ?_
       clear_value a
       rotate_left
       dsimp only [a]
       clear a)
    | (extract_lets +onlyGivenNames a
       clear_value a)
    | with_reducible apply Keeps.ite
    | with_reducible apply bump_keeps
    | with_reducible apply countEv_keeps
    | with_reducible apply discardPhase_keeps
    | with_reducible apply postReport_keeps
    | with_reducible apply sendFrame_keeps
    | with_reducible apply wr_keeps
    | with_reducible apply Keeps.foldl
    | with_reducible apply Keeps.foldl_fst
    | with_reducible apply_assumption

theorem abortHere_keeps {s0 s : State} (h : Keeps s0 s) (c x a) : Keeps s0 (abortHere s c x a) := by
  unfold abortHere
  repeat' first
    | with_reducible assumption
    | with_reducible apply Keeps.ite
    | with_reducible apply abortRoot_keeps
    | with_reducible apply sendFrame_keeps

theorem sendBeats_keeps {s0 s : State} (h : Keeps s0 s) (c x d m) : Keeps s0 (sendBeats s c x d m) := by
  unfold sendBeats
  repeat' first
    | with_reducible assumption
    | simp -zeta only [Keeps.upd_iff]
    | with_reducible apply abortHere_keeps
    | with_reducible apply cross_keeps
    | with_reducible apply sendTo_keeps
    | split
    | (with_reducible refine Keeps.fst (by assumption) ?_)

theorem cabortAt_keeps {s0 s : State} (h : Keeps s0 s) (h' c phase a) : Keeps s0 (cabortAt s h' c phase a) := by
  unfold cabortAt
  repeat' first
    | with_reducible assumption
    | simp -zeta only [Keeps.upd_iff]
    | with_reducible apply Keeps.ite
    | with_reducible apply abortRoot_keeps
    | with_reducible apply discardPhase_keeps
    | with_reducible apply staleDrop_keeps
    | split
    | (with_reducible refine Keeps.upd ?_)

theorem lostInCtxs_keeps {s0 s : State} (h : Keeps s0 s) (d) : Keeps s0 (lostInCtxs s d) := by
  unfold lostInCtxs
  repeat' first
    | with_reducible assumption
    | (intro _)
    | simp -zeta only [Keeps.upd_iff]
    | (extract_lets +onlyGivenNames a
       refine (fun (_ : Keeps s0 a) => ?_) ?_
       clear_value a
       rotate_left
       dsimp only [a]
       clear a)
    | (extract_lets +onlyGivenNames a
       clear_value a)
    | with_reducible apply Keeps.ite
    | with_reducible apply abortRoot_keeps
    | with_reducible apply discardPhase_keeps
    | with_reducible apply Keeps.foldl
    | with_reducible apply Keeps.foldl_fst
    | split
    | with_reducible apply_assumption

theorem quiesceCtxs_keeps {s0 s : State} (h : Keeps s0 s) (t) : Keeps s0 (quiesceCtxs s t) := by
  unfold quiesceCtxs
  repeat' first
    | with_reducible assumption
    | (intro _)
    | simp -zeta only [Keeps.upd_iff]
    | with_reducible apply Keeps.ite
    | with_reducible apply abortRoot_keeps
    | with_reducible apply Keeps.foldl
    | with_reducible apply Keeps.foldl_fst
    | split
    | with_reducible apply_assumption

theorem forceCtxs_keeps {s0 s : State} (h : Keeps s0 s) (t) : Keeps s0 (forceCtxs s t) := by
  unfold forceCtxs
  repeat' first
    | with_reducible assumption
    | (intro _)
    | simp -zeta only [Keeps.upd_iff]
    | (extract_lets +onlyGivenNames a
       refine (fun (_ : Keeps s0 a) => ?_) ?_
       clear_value a
       rotate_left
       dsimp only [a]
       clear a)
    | (extract_lets +onlyGivenNames a
       clear_value a)
    | with_reducible apply Keeps.ite
    | with_reducible apply bump_keeps
    | with_reducible apply discardPhase_keeps
    | with_reducible apply wr_keeps
    | with_reducible apply Keeps.foldl
    | with_reducible apply Keeps.foldl_fst
    | split
    | with_reducible apply_assumption
    | (with_reducible refine Keeps.upd ?_)

theorem readRecord_keeps {s0 s : State} (h : Keeps s0 s) (c x) : Keeps s0 (readRecord s c x).1 := by
  unfold readRecord
  repeat' first
    | with_reducible assumption
    | simp -zeta only [Keeps.upd_iff]
    | (extract_lets +onlyGivenNames a
       refine (fun (_ : Keeps s0 a) => ?_) ?_
       clear_value a
       rotate_left
       dsimp only [a]
       clear a)
    | (extract_lets +onlyGivenNames a
       clear_value a)
    | with_reducible apply abortHere_keeps
    | with_reducible apply chkRead_keeps
    | with_reducible apply entryGone_keeps
    | with_reducible apply raise_keeps
    | split
    | (with_reducible refine Keeps.fst (by assumption) ?_)

theorem readCtxChk_keeps {s0 s : State} (h : Keeps s0 s) (c x) : Keeps s0 (readCtxChk s c x).1 := by
  unfold readCtxChk
  repeat' first
    | with_reducible assumption
    | simp -zeta only [Keeps.upd_iff]
    | (extract_lets +onlyGivenNames a
       refine (fun (_ : Keeps s0 a) => ?_) ?_
       clear_value a
       rotate_left
       dsimp only [a]
       clear a)
    | (extract_lets +onlyGivenNames a
       clear_value a)
    | with_reducible apply abortHere_keeps
    | with_reducible apply chkRead_keeps
    | with_reducible apply raise_keeps
    | with_reducible apply readRecord_keeps
    | split
    | (with_reducible refine Keeps.fst (by assumption) ?_)

theorem doRead_keeps {s0 s : State} (h : Keeps s0 s) (c) : Keeps s0 (doRead s c) := by
  unfold doRead
  repeat' first
    | with_reducible assumption
    | simp -zeta only [Keeps.upd_iff]
    | (extract_lets +onlyGivenNames a
       refine (fun (_ : Keeps s0 a) => ?_) ?_
       clear_value a
       rotate_left
       dsimp only [a]
       clear a)
    | (extract_lets +onlyGivenNames a
       clear_value a)
    | with_reducible apply Keeps.ite
    | with_reducible apply readRecord_keeps
    | with_reducible apply setCmdst_keeps
    | with_reducible apply wr_keeps
    | split
    | (with_reducible refine Keeps.fst (by assumption) ?_)

theorem writeOut_keeps {s0 s : State} (h : Keeps s0 s) (c x off bytes last) : Keeps s0 (writeOut s c x off bytes last).1 := by
  unfold writeOut
  repeat' first
    | with_reducible assumption
    | (intro _)
    | simp -zeta only [Keeps.upd_iff]
    | (extract_lets +onlyGivenNames a
       refine (fun (_ : Keeps s0 a) => ?_) ?_
       clear_value a
       rotate_left
       dsimp only [a]
       clear a)
    | (extract_lets +onlyGivenNames a
       clear_value a)
    | with_reducible apply Keeps.ite
    | with_reducible apply pushBeats_keeps
    | with_reducible apply Keeps.foldl
    | with_reducible apply Keeps.foldl_fst
    | split
    | with_reducible apply_assumption
    | (with_reducible refine Keeps.fst (by assumption) ?_)
    | (with_reducible refine Keeps.upd ?_)

theorem endStage_keeps {s0 s : State} (h : Keeps s0 s) (c x) : Keeps s0 (endStage s c x) := by
  unfold endStage
  repeat' first
    | with_reducible assumption
    | (intro _)
    | simp -zeta only [Keeps.upd_iff]
    | (extract_lets +onlyGivenNames a
       refine (fun (_ : Keeps s0 a) => ?_) ?_
       clear_value a
       rotate_left
       dsimp only [a]
       clear a)
    | (extract_lets +onlyGivenNames a
       clear_value a)
    | with_reducible apply beatsFreed_keeps
    | with_reducible apply countEntry_keeps
    | with_reducible apply setCtx_keeps
    | with_reducible apply Keeps.foldl
    | with_reducible apply Keeps.foldl_fst
    | with_reducible apply_assumption
    | (with_reducible refine Keeps.upd ?_)

theorem afterWrites_keeps {s0 s : State} (h : Keeps s0 s) (c a) : Keeps s0 (afterWrites s c a) := by
  unfold afterWrites
  repeat' first
    | with_reducible assumption
    | simp -zeta only [Keeps.upd_iff]
    | (extract_lets +onlyGivenNames a
       refine (fun (_ : Keeps s0 a) => ?_) ?_
       clear_value a
       rotate_left
       dsimp only [a]
       clear a)
    | (extract_lets +onlyGivenNames a
       clear_value a)
    | with_reducible apply Keeps.ite
    | with_reducible apply beatsFreed_keeps
    | with_reducible apply endStage_keeps
    | with_reducible apply postReport_keeps
    | with_reducible apply setCtx_keeps
    | split
    | (with_reducible refine Keeps.upd ?_)

theorem disableInCtxs_keeps {s0 s : State} (h : Keeps s0 s) (a) : Keeps s0 (disableInCtxs s a) := by
  unfold disableInCtxs
  repeat' first
    | with_reducible assumption
    | (intro _)
    | simp -zeta only [Keeps.upd_iff]
    | (extract_lets +onlyGivenNames a
       refine (fun (_ : Keeps s0 a) => ?_) ?_
       clear_value a
       rotate_left
       dsimp only [a]
       clear a)
    | (extract_lets +onlyGivenNames a
       clear_value a)
    | with_reducible apply Keeps.ite
    | with_reducible apply abortHere_keeps
    | with_reducible apply afterWrites_keeps
    | with_reducible apply setCtx_keeps
    | with_reducible apply voidBeats_keeps
    | with_reducible apply Keeps.foldl
    | with_reducible apply Keeps.foldl_fst
    | split
    | with_reducible apply_assumption
    | (with_reducible refine Keeps.upd ?_)

theorem tryReduce_keeps {s0 s : State} (h : Keeps s0 s) (c) : Keeps s0 (tryReduce s c) := by
  unfold tryReduce
  repeat' first
    | with_reducible assumption
    | (intro _)
    | simp -zeta only [Keeps.upd_iff]
    | (extract_lets +onlyGivenNames a
       refine (fun (_ : Keeps s0 a) => ?_) ?_
       clear_value a
       rotate_left
       dsimp only [a]
       clear a)
    | (extract_lets +onlyGivenNames a
       clear_value a)
    | with_reducible apply Keeps.ite
    | with_reducible apply afterWrites_keeps
    | with_reducible apply askAll_keeps
    | with_reducible apply countEv_keeps
    | with_reducible apply readCtxChk_keeps
    | with_reducible apply sendBeats_keeps
    | with_reducible apply setCtx_keeps
    | with_reducible apply writeOut_keeps
    | with_reducible apply Keeps.foldl
    | with_reducible apply Keeps.foldl_fst
    | split
    | with_reducible apply_assumption
    | (with_reducible refine Keeps.fst (by assumption) ?_)

theorem chunkDone_keeps {s0 s : State} (h : Keeps s0 s) (c) : Keeps s0 (chunkDone s c) := by
  unfold chunkDone
  repeat' first
    | with_reducible assumption
    | (intro _)
    | simp -zeta only [Keeps.upd_iff]
    | (extract_lets +onlyGivenNames a
       refine (fun (_ : Keeps s0 a) => ?_) ?_
       clear_value a
       rotate_left
       dsimp only [a]
       clear a)
    | (extract_lets +onlyGivenNames a
       clear_value a)
    | with_reducible apply Keeps.ite
    | with_reducible apply askAll_keeps
    | with_reducible apply readCtxChk_keeps
    | with_reducible apply sendBeats_keeps
    | with_reducible apply setCtx_keeps
    | with_reducible apply tryReduce_keeps
    | with_reducible apply Keeps.foldl
    | with_reducible apply Keeps.foldl_fst
    | split
    | with_reducible apply_assumption
    | (with_reducible refine Keeps.fst (by assumption) ?_)
    | (with_reducible refine Keeps.upd ?_)

theorem tryClose_keeps {s0 s : State} (h : Keeps s0 s) (c) : Keeps s0 (tryClose s c) := by
  unfold tryClose
  repeat' first
    | with_reducible assumption
    | (intro _)
    | simp -zeta only [Keeps.upd_iff]
    | (extract_lets +onlyGivenNames a
       refine (fun (_ : Keeps s0 a) => ?_) ?_
       clear_value a
       rotate_left
       dsimp only [a]
       clear a)
    | (extract_lets +onlyGivenNames a
       clear_value a)
    | with_reducible apply Keeps.ite
    | with_reducible apply sendFrame_keeps
    | with_reducible apply setCtx_keeps
    | with_reducible apply Keeps.foldl
    | with_reducible apply Keeps.foldl_fst
    | split
    | with_reducible apply_assumption
    | (with_reducible refine Keeps.upd ?_)

theorem closeReady_keeps {s0 s : State} (h : Keeps s0 s) : Keeps s0 (closeReady s) := by
  unfold closeReady
  repeat' first
    | with_reducible assumption
    | (intro _)
    | with_reducible apply Keeps.ite
    | with_reducible apply tryClose_keeps
    | with_reducible apply Keeps.foldl
    | with_reducible apply Keeps.foldl_fst
    | with_reducible apply_assumption

theorem noticeAt_keeps {s0 s : State} (h : Keeps s0 s) (k c v) : Keeps s0 (noticeAt s k c v) := by
  unfold noticeAt
  repeat' first
    | with_reducible assumption
    | (intro _)
    | simp -zeta only [Keeps.upd_iff]
    | (extract_lets +onlyGivenNames a
       refine (fun (_ : Keeps s0 a) => ?_) ?_
       clear_value a
       rotate_left
       dsimp only [a]
       clear a)
    | (extract_lets +onlyGivenNames a
       clear_value a)
    | with_reducible apply Keeps.ite
    | with_reducible apply askAll_keeps
    | with_reducible apply dropPart_keeps
    | with_reducible apply readRecord_keeps
    | with_reducible apply setCtx_keeps
    | with_reducible apply staleDrop_keeps
    | with_reducible apply tryClose_keeps
    | split
    | (with_reducible refine Keeps.fst (by assumption) ?_)
    | (with_reducible refine Keeps.upd ?_)

theorem arrivalNotice_keeps {s0 s : State} (h : Keeps s0 s) (k remote) : Keeps s0 (arrivalNotice s k remote) := by
  unfold arrivalNotice
  repeat' first
    | with_reducible assumption
    | (intro _)
    | simp -zeta only [Keeps.upd_iff]
    | with_reducible apply Keeps.ite
    | with_reducible apply noticeAt_keeps
    | split
    | (with_reducible refine Keeps.upd ?_)

theorem releasePlace_keeps {s0 s : State} (h : Keeps s0 s) (c) : Keeps s0 (releasePlace s c) := by
  unfold releasePlace
  repeat' first
    | with_reducible assumption
    | (intro _)
    | simp -zeta only [Keeps.upd_iff]
    | (extract_lets +onlyGivenNames a
       refine (fun (_ : Keeps s0 a) => ?_) ?_
       clear_value a
       rotate_left
       dsimp only [a]
       clear a)
    | (extract_lets +onlyGivenNames a
       clear_value a)
    | with_reducible apply Keeps.ite
    | with_reducible apply dropPart_keeps
    | with_reducible apply setCtx_keeps
    | split
    | (with_reducible refine Keeps.fst (by assumption) ?_)

theorem cpartAt_keeps {s0 s : State} (h : Keeps s0 s) (h' g es) : Keeps s0 (cpartAt s h' g es) := by
  unfold cpartAt
  repeat' first
    | with_reducible assumption
    | simp -zeta only [Keeps.upd_iff]
    | (extract_lets +onlyGivenNames a
       refine (fun (_ : Keeps s0 a) => ?_) ?_
       clear_value a
       rotate_left
       dsimp only [a]
       clear a)
    | (extract_lets +onlyGivenNames a
       clear_value a)
    | with_reducible apply Keeps.ite
    | with_reducible apply readRecord_keeps
    | with_reducible apply staleDrop_keeps
    | split
    | (with_reducible refine Keeps.fst (by assumption) ?_)
    | (with_reducible refine Keeps.upd ?_)

theorem partTaken_keeps {s0 s : State} (h : Keeps s0 s) (h' g es) : Keeps s0 (partTaken s h' g es) := by
  unfold partTaken
  repeat' first
    | with_reducible assumption
    | simp -zeta only [Keeps.upd_iff]
    | (extract_lets +onlyGivenNames a
       refine (fun (_ : Keeps s0 a) => ?_) ?_
       clear_value a
       rotate_left
       dsimp only [a]
       clear a)
    | (extract_lets +onlyGivenNames a
       clear_value a)
    | with_reducible apply Keeps.ite
    | with_reducible apply chkWrite_keeps
    | with_reducible apply setCtx_keeps
    | with_reducible apply tryReduce_keeps
    | split

theorem cresAt_keeps {s0 s : State} (h : Keeps s0 s) (h' g off bytes) : Keeps s0 (cresAt s h' g off bytes) := by
  unfold cresAt
  repeat' first
    | with_reducible assumption
    | simp -zeta only [Keeps.upd_iff]
    | (extract_lets +onlyGivenNames a
       refine (fun (_ : Keeps s0 a) => ?_) ?_
       clear_value a
       rotate_left
       dsimp only [a]
       clear a)
    | (extract_lets +onlyGivenNames a
       clear_value a)
    | with_reducible apply Keeps.ite
    | with_reducible apply afterWrites_keeps
    | with_reducible apply setCtx_keeps
    | with_reducible apply staleDrop_keeps
    | with_reducible apply writeOut_keeps
    | split
    | (with_reducible refine Keeps.fst (by assumption) ?_)

theorem ccloseAt_keeps {s0 s : State} (h : Keeps s0 s) (h' c phase n) : Keeps s0 (ccloseAt s h' c phase n) := by
  unfold ccloseAt
  repeat' first
    | with_reducible assumption
    | simp -zeta only [Keeps.upd_iff]
    | with_reducible apply Keeps.ite
    | with_reducible apply setCtx_keeps
    | with_reducible apply staleDrop_keeps
    | with_reducible apply tryClose_keeps
    | split
    | (with_reducible refine Keeps.upd ?_)

theorem beatPass_keeps {s0 s : State} (h : Keeps s0 s) (b toUnit) : Keeps s0 (beatPass s b toUnit).1 := by
  unfold beatPass
  repeat' first
    | with_reducible assumption
    | simp -zeta only [Keeps.upd_iff]
    | (extract_lets +onlyGivenNames a
       refine (fun (_ : Keeps s0 a) => ?_) ?_
       clear_value a
       rotate_left
       dsimp only [a]
       clear a)
    | (extract_lets +onlyGivenNames a
       clear_value a)
    | with_reducible apply Keeps.ite
    | with_reducible apply abortHere_keeps
    | with_reducible apply girderPass_keeps
    | split
    | (with_reducible refine Keeps.fst (by assumption) ?_)

theorem beatRead_keeps {s0 s : State} (h : Keeps s0 s) (b data) : Keeps s0 (beatRead s b data) := by
  unfold beatRead
  repeat' first
    | with_reducible assumption
    | (intro _)
    | simp -zeta only [Keeps.upd_iff]
    | (extract_lets +onlyGivenNames a
       refine (fun (_ : Keeps s0 a) => ?_) ?_
       clear_value a
       rotate_left
       dsimp only [a]
       clear a)
    | (extract_lets +onlyGivenNames a
       clear_value a)
    | with_reducible apply Keeps.ite
    | with_reducible apply beatPass_keeps
    | with_reducible apply chkWrite_keeps
    | with_reducible apply countEv_keeps
    | with_reducible apply setCtx_keeps
    | split
    | (with_reducible refine Keeps.fst (by assumption) ?_)
    | (with_reducible refine Keeps.upd ?_)

theorem beatOver_keeps {s0 s : State} (h : Keeps s0 s) (b) : Keeps s0 (beatOver s b) := by
  unfold beatOver
  repeat' first
    | with_reducible assumption
    | (intro _)
    | simp -zeta only [Keeps.upd_iff]
    | (extract_lets +onlyGivenNames a
       refine (fun (_ : Keeps s0 a) => ?_) ?_
       clear_value a
       rotate_left
       dsimp only [a]
       clear a)
    | (extract_lets +onlyGivenNames a
       clear_value a)
    | with_reducible apply Keeps.ite
    | with_reducible apply afterWrites_keeps
    | with_reducible apply setCtx_keeps
    | split
    | (with_reducible refine Keeps.upd ?_)

theorem beatWritten_keeps {s0 s : State} (h : Keeps s0 s) (b) : Keeps s0 (beatWritten s b) := by
  unfold beatWritten
  repeat' first
    | with_reducible assumption
    | (extract_lets +onlyGivenNames a
       refine (fun (_ : Keeps s0 a) => ?_) ?_
       clear_value a
       rotate_left
       dsimp only [a]
       clear a)
    | (extract_lets +onlyGivenNames a
       clear_value a)
    | with_reducible apply Keeps.ite
    | with_reducible apply beatOver_keeps
    | with_reducible apply beatPass_keeps
    | split
    | (with_reducible refine Keeps.fst (by assumption) ?_)

theorem takePart_keeps {s0 s : State} (h : Keeps s0 s) (u h' g es others) : Keeps s0 (takePart s u h' g es others) := by
  unfold takePart
  repeat' first
    | with_reducible assumption
    | simp -zeta only [Keeps.upd_iff]
    | (extract_lets +onlyGivenNames a
       refine (fun (_ : Keeps s0 a) => ?_) ?_
       clear_value a
       rotate_left
       dsimp only [a]
       clear a)
    | (extract_lets +onlyGivenNames a
       clear_value a)
    | with_reducible apply Keeps.ite
    | with_reducible apply partTaken_keeps
    | (with_reducible refine Keeps.upd ?_)

theorem serveOne_keeps {s0 s : State} (h : Keeps s0 s) (u) : KeepsO s0 (serveOne s u) := by
  unfold serveOne
  repeat' first
    | with_reducible assumption
    | (intro _)
    | simp -zeta only [Keeps.upd_iff]
    | (extract_lets +onlyGivenNames a
       refine (fun (_ : Keeps s0 a) => ?_) ?_
       clear_value a
       rotate_left
       dsimp only [a]
       clear a)
    | (extract_lets +onlyGivenNames a
       clear_value a)
    | with_reducible exact KeepsO.none
    | with_reducible apply KeepsO.some
    | with_reducible apply KeepsO.ite
    | with_reducible apply Keeps.ite
    | with_reducible apply pushBeats_keeps
    | with_reducible apply takePart_keeps
    | split
    | with_reducible apply_assumption
    | with_reducible apply KeepsO.map
    | (with_reducible refine Keeps.upd ?_)

theorem serveUnit_keeps {s0 s : State} (h : Keeps s0 s) (u n) : Keeps s0 (serveUnit u n s) := by
  induction n generalizing s with
  | zero => exact h
  | succ n ih =>
    unfold serveUnit
    split
    · rename_i e; exact ih ((serveOne_keeps h u).keeps _ e)
    · exact h

theorem serveBeats_keeps {s0 s : State} (h : Keeps s0 s) : Keeps s0 (serveBeats s) := by
  unfold serveBeats
  repeat' first
    | with_reducible assumption
    | (intro _)
    | with_reducible apply Keeps.ite
    | with_reducible apply serveUnit_keeps
    | with_reducible apply Keeps.foldl
    | with_reducible apply Keeps.foldl_fst
    | with_reducible apply_assumption

theorem reportSlot_keeps {s0 s : State} (h : Keeps s0 s) (key k flags aborted) : KeepsO s0 (reportSlot s key k flags aborted) := by
  unfold reportSlot
  repeat' first
    | with_reducible assumption
    | simp -zeta only [Keeps.upd_iff]
    | (extract_lets +onlyGivenNames a
       refine (fun (_ : Keeps s0 a) => ?_) ?_
       clear_value a
       rotate_left
       dsimp only [a]
       clear a)
    | (extract_lets +onlyGivenNames a
       clear_value a)
    | with_reducible exact KeepsO.none
    | with_reducible apply KeepsO.some
    | with_reducible apply KeepsO.ite
    | with_reducible apply Keeps.ite
    | with_reducible apply readSlot_keeps
    | with_reducible apply reportAtSlot_keeps
    | with_reducible apply writeSlotChk_keeps
    | split

theorem combineReportAt_keeps {s0 s : State} (h : Keeps s0 s) (c) : Keeps s0 (combineReportAt s c) := by
  unfold combineReportAt
  repeat' first
    | with_reducible assumption
    | (intro _)
    | simp -zeta only [Keeps.upd_iff]
    | (extract_lets +onlyGivenNames a
       refine (fun (_ : Keeps s0 a) => ?_) ?_
       clear_value a
       rotate_left
       dsimp only [a]
       clear a)
    | (extract_lets +onlyGivenNames a
       clear_value a)
    | with_reducible apply Keeps.ite
    | with_reducible apply reportSlot_keeps
    | with_reducible apply setSide_keeps
    | with_reducible apply staleDrop_keeps
    | split
    | with_reducible apply Keeps.getD
    | with_reducible refine KeepsO.of_eq (by assumption) (reportSlot_keeps ?_ _ _ _ _)
    | (with_reducible refine Keeps.upd ?_)

theorem arbWindow_keeps {s0 s : State} (h : Keeps s0 s) : Keeps s0 (arbWindow s) := by
  unfold arbWindow
  repeat' first
    | with_reducible assumption
    | (intro _)
    | simp -zeta only [Keeps.upd_iff]
    | (extract_lets +onlyGivenNames a
       refine (fun (_ : Keeps s0 a) => ?_) ?_
       clear_value a
       rotate_left
       dsimp only [a]
       clear a)
    | (extract_lets +onlyGivenNames a
       clear_value a)
    | with_reducible apply Keeps.ite
    | with_reducible apply Keeps.foldl
    | with_reducible apply Keeps.foldl_fst
    | with_reducible apply_assumption
    | (with_reducible refine Keeps.upd ?_)

end Sys2Proof.Machine
end

