-- ==== Sys2Proof/Laws/KeepRouteOps.lean ====
section
/-! SUPPORT. What the operations of Machine/RouteOps.lean keep (Laws/Keeps.lean). -/
set_option linter.tactic.unusedName false
set_option linter.unusedSimpArgs false
namespace Sys2Proof.Machine

theorem bumpQseq_keeps {s0 s : State} (h : Keeps s0 s) (a q d) : Keeps s0 (bumpQseq s a q d) := by
  unfold bumpQseq
  repeat' first
    | with_reducible assumption
    | simp -zeta only [Keeps.upd_iff]
    | (extract_lets +onlyGivenNames a
       refine (fun (_ : Keeps s0 a) => ?_) ?_
       clear_value a
       rotate_left
       dsimp only [a]
       clear a)
    | (extract_lets +onlyGivenNames a
       clear_value a)
    | with_reducible apply setAgent_keeps
    | (with_reducible refine Keeps.upd ?_)

theorem updGather_keeps {s0 s : State} (h : Keeps s0 s) (c f) : Keeps s0 (updGather s c f) := by
  unfold updGather
  repeat' first
    | with_reducible assumption
    | (intro _)
    | simp -zeta only [Keeps.upd_iff]
    | (extract_lets +onlyGivenNames a
       refine (fun (_ : Keeps s0 a) => ?_) ?_
       clear_value a
       rotate_left
       dsimp only [a]
       clear a)
    | (extract_lets +onlyGivenNames a
       clear_value a)
    | (with_reducible refine Keeps.upd ?_)

theorem gatherDone_keeps {s0 s : State} (h : Keeps s0 s) (c) : Keeps s0 (gatherDone s c) := by
  unfold gatherDone
  repeat' first
    | with_reducible assumption
    | (intro _)
    | simp -zeta only [Keeps.upd_iff]
    | (extract_lets +onlyGivenNames a
       refine (fun (_ : Keeps s0 a) => ?_) ?_
       clear_value a
       rotate_left
       dsimp only [a]
       clear a)
    | (extract_lets +onlyGivenNames a
       clear_value a)
    | with_reducible apply Keeps.ite
    | with_reducible apply countEv_keeps
    | with_reducible apply settle_keeps
    | with_reducible apply timeRead_keeps
    | with_reducible apply Keeps.foldl
    | with_reducible apply Keeps.foldl_fst
    | split
    | with_reducible apply_assumption
    | (with_reducible refine Keeps.upd ?_)

theorem freeCredit_keeps {s0 s : State} (h : Keeps s0 s) (c p) : Keeps s0 (freeCredit s c p) := by
  unfold freeCredit
  repeat' first
    | with_reducible assumption
    | (intro _)
    | simp -zeta only [Keeps.upd_iff]
    | with_reducible apply mapItem_keeps
    | (with_reducible refine Keeps.upd ?_)

theorem gatherReport_keeps {s0 s : State} (h : Keeps s0 s) (c d tag mask entries st dt) : Keeps s0 (gatherReport s c d tag mask entries st dt) := by
  unfold gatherReport
  repeat' first
    | with_reducible assumption
    | (intro _)
    | simp -zeta only [Keeps.upd_iff]
    | (extract_lets +onlyGivenNames a
       refine (fun (_ : Keeps s0 a) => ?_) ?_
       clear_value a
       rotate_left
       dsimp only [a]
       clear a)
    | (extract_lets +onlyGivenNames a
       clear_value a)
    | with_reducible apply gatherDone_keeps
    | with_reducible apply updGather_keeps
    | split

theorem sendRpart_keeps {s0 s : State} (h : Keeps s0 s) (c tag d fresh q) : Keeps s0 (sendRpart s c tag d fresh q) := by
  unfold sendRpart
  repeat' first
    | with_reducible assumption
    | simp -zeta only [Keeps.upd_iff]
    | (extract_lets +onlyGivenNames a
       refine (fun (_ : Keeps s0 a) => ?_) ?_
       clear_value a
       rotate_left
       dsimp only [a]
       clear a)
    | (extract_lets +onlyGivenNames a
       clear_value a)
    | with_reducible apply Keeps.ite
    | with_reducible apply bumpQseq_keeps
    | with_reducible apply countEv_keeps
    | with_reducible apply cross_keeps
    | with_reducible apply freeCredit_keeps
    | with_reducible apply gatherReport_keeps
    | with_reducible apply sendTo_keeps
    | split
    | (with_reducible refine Keeps.fst (by assumption) ?_)
    | (with_reducible refine Keeps.upd ?_)

theorem resendParts_keeps {s0 s : State} (h : Keeps s0 s) (a q) : Keeps s0 (resendParts s a q) := by
  unfold resendParts
  repeat' first
    | with_reducible assumption
    | (intro _)
    | simp -zeta only [Keeps.upd_iff]
    | (extract_lets +onlyGivenNames a
       refine (fun (_ : Keeps s0 a) => ?_) ?_
       clear_value a
       rotate_left
       dsimp only [a]
       clear a)
    | (extract_lets +onlyGivenNames a
       clear_value a)
    | with_reducible apply sendRpart_keeps
    | with_reducible apply timeRead_keeps
    | with_reducible apply updGather_keeps
    | with_reducible apply Keeps.foldl
    | with_reducible apply Keeps.foldl_fst
    | with_reducible apply_assumption
    | (with_reducible refine Keeps.upd ?_)

theorem partReport_keeps {s0 s : State} (h : Keeps s0 s) (p dt) : Keeps s0 (partReport s p dt) := by
  unfold partReport
  repeat' first
    | with_reducible assumption
    | (intro _)
    | simp -zeta only [Keeps.upd_iff]
    | (extract_lets +onlyGivenNames a
       refine (fun (_ : Keeps s0 a) => ?_) ?_
       clear_value a
       rotate_left
       dsimp only [a]
       clear a)
    | (extract_lets +onlyGivenNames a
       clear_value a)
    | with_reducible apply gatherReport_keeps
    | with_reducible apply sendFrom_keeps
    | with_reducible apply updGather_keeps
    | with_reducible apply Keeps.foldl
    | with_reducible apply Keeps.foldl_fst
    | split
    | with_reducible apply_assumption
    | (with_reducible refine Keeps.upd ?_)

theorem sendCommit_keeps {s0 s : State} (h : Keeps s0 s) (r tag d) : Keeps s0 (sendCommit r tag s d) := by
  unfold sendCommit
  repeat' first
    | with_reducible assumption
    | (intro _)
    | simp -zeta only [Keeps.upd_iff]
    | (extract_lets +onlyGivenNames a
       refine (fun (_ : Keeps s0 a) => ?_) ?_
       clear_value a
       rotate_left
       dsimp only [a]
       clear a)
    | (extract_lets +onlyGivenNames a
       refine (fun (_ : ∀ x, Keeps s0 x → Keeps s0 (a x)) => ?_) ?_
       clear_value a
       rotate_left
       dsimp only [a]
       clear a)
    | (extract_lets +onlyGivenNames a
       clear_value a)
    | with_reducible apply crossed_keeps
    | split
    | with_reducible apply_assumption
    | (with_reducible refine Keeps.upd ?_)

theorem partDone_keeps {s0 s : State} (h : Keeps s0 s) (tag) : Keeps s0 (partDone s tag) := by
  unfold partDone
  repeat' first
    | with_reducible assumption
    | (intro _)
    | simp -zeta only [Keeps.upd_iff]
    | with_reducible apply Keeps.ite
    | (with_reducible refine Keeps.upd ?_)

theorem partCommit_keeps {s0 s : State} (h : Keeps s0 s) (tag) : Keeps s0 (partCommit s tag) := by
  unfold partCommit
  repeat' first
    | with_reducible assumption
    | (intro _)
    | simp -zeta only [Keeps.upd_iff]
    | (extract_lets +onlyGivenNames a
       refine (fun (_ : Keeps s0 a) => ?_) ?_
       clear_value a
       rotate_left
       dsimp only [a]
       clear a)
    | (extract_lets +onlyGivenNames a
       clear_value a)
    | with_reducible apply Keeps.ite
    | with_reducible apply partDone_keeps
    | with_reducible apply partReport_keeps
    | with_reducible apply sendCommit_keeps
    | with_reducible apply timeRead_keeps
    | with_reducible apply Keeps.foldl
    | with_reducible apply Keeps.foldl_fst
    | split
    | with_reducible apply_assumption

theorem reportArrives_keeps {s0 s : State} (h : Keeps s0 s) (tag idx st) : Keeps s0 (reportArrives s tag idx st) := by
  unfold reportArrives
  repeat' first
    | with_reducible assumption
    | (intro _)
    | simp -zeta only [Keeps.upd_iff]
    | (extract_lets +onlyGivenNames a
       refine (fun (_ : Keeps s0 a) => ?_) ?_
       clear_value a
       rotate_left
       dsimp only [a]
       clear a)
    | (extract_lets +onlyGivenNames a
       clear_value a)
    | with_reducible apply Keeps.ite
    | with_reducible apply partCommit_keeps
    | with_reducible apply staleDrop_keeps
    | with_reducible apply updPart_keeps
    | split

theorem lookUp_keeps {s0 s : State} (h : Keeps s0 s) (p t n) : Keeps s0 (lookUp s p t n).1 := by
  unfold lookUp
  repeat' first
    | with_reducible assumption
    | (intro _)
    | simp -zeta only [Keeps.upd_iff]
    | (extract_lets +onlyGivenNames a
       refine (fun (_ : Keeps s0 a) => ?_) ?_
       clear_value a
       rotate_left
       dsimp only [a]
       clear a)
    | (extract_lets +onlyGivenNames a
       clear_value a)
    | with_reducible apply Keeps.ite
    | with_reducible apply chkRead_keeps
    | with_reducible apply raise_keeps
    | with_reducible apply setPier_keeps
    | split
    | (with_reducible refine Keeps.fst (by assumption) ?_)
    | (with_reducible refine Keeps.upd ?_)

theorem stageByBank_keeps {s0 s : State} (h : Keeps s0 s) (router tag e' c miss ret) : Keeps s0 (stageByBank s router tag e' c miss ret) := by
  unfold stageByBank
  repeat' first
    | with_reducible assumption
    | simp -zeta only [Keeps.upd_iff]
    | (extract_lets +onlyGivenNames a
       refine (fun (_ : Keeps s0 a) => ?_) ?_
       clear_value a
       rotate_left
       dsimp only [a]
       clear a)
    | (extract_lets +onlyGivenNames a
       clear_value a)
    | with_reducible apply bankStage_keeps
    | with_reducible apply girderPass_keeps
    | with_reducible apply reportEntry_keeps
    | split
    | (with_reducible refine Keeps.fst (by assumption) ?_)

theorem stageHome_keeps {s0 s : State} (h : Keeps s0 s) (p e') : Keeps s0 (stageHome s p e') := by
  unfold stageHome
  repeat' first
    | with_reducible assumption
    | simp -zeta only [Keeps.upd_iff]
    | (extract_lets +onlyGivenNames a
       refine (fun (_ : Keeps s0 a) => ?_) ?_
       clear_value a
       rotate_left
       dsimp only [a]
       clear a)
    | (extract_lets +onlyGivenNames a
       clear_value a)
    | with_reducible apply Keeps.ite
    | with_reducible apply girderPass_keeps
    | with_reducible apply lookUp_keeps
    | with_reducible apply reportEntry_keeps
    | with_reducible apply stageAtSlot_keeps
    | with_reducible apply stageByBank_keeps
    | with_reducible apply tagRead_keeps
    | split
    | (with_reducible refine Keeps.fst (by assumption) ?_)

theorem stageFirst_keeps {s0 s : State} (h : Keeps s0 s) (tag e') : Keeps s0 (stageFirst tag s e') := by
  unfold stageFirst
  repeat' first
    | with_reducible assumption
    | simp -zeta only [Keeps.upd_iff]
    | with_reducible apply deferEntry_keeps
    | with_reducible apply stageHome_keeps
    | split

theorem startPart_keeps {s0 s : State} (h : Keeps s0 s) (tag c origin es) : Keeps s0 (startPart s tag c origin es) := by
  unfold startPart
  repeat' first
    | with_reducible assumption
    | (intro _)
    | simp -zeta only [Keeps.upd_iff]
    | (extract_lets +onlyGivenNames a
       refine (fun (_ : Keeps s0 a) => ?_) ?_
       clear_value a
       rotate_left
       dsimp only [a]
       clear a)
    | (extract_lets +onlyGivenNames a
       clear_value a)
    | with_reducible apply bump_keeps
    | with_reducible apply stageFirst_keeps
    | with_reducible apply Keeps.foldl
    | with_reducible apply Keeps.foldl_fst
    | with_reducible apply_assumption
    | (with_reducible refine Keeps.upd ?_)

theorem newTag_keeps {s0 s : State} (h : Keeps s0 s) : Keeps s0 (newTag s).1 := by
  unfold newTag
  repeat' first
    | with_reducible assumption
    | simp -zeta only [Keeps.upd_iff]
    | split
    | (with_reducible refine Keeps.upd ?_)

theorem routeDepart_keeps {s0 s : State} (h : Keeps s0 s) (c) : Keeps s0 (routeDepart s c) := by
  unfold routeDepart
  repeat' first
    | with_reducible assumption
    | (intro _)
    | simp -zeta only [Keeps.upd_iff]
    | (extract_lets +onlyGivenNames a
       refine (fun (_ : Keeps s0 a) => ?_) ?_
       clear_value a
       rotate_left
       dsimp only [a]
       clear a)
    | (extract_lets +onlyGivenNames a
       clear_value a)
    | with_reducible apply Keeps.ite
    | with_reducible apply countStage_keeps
    | with_reducible apply gatherDone_keeps
    | with_reducible apply newTag_keeps
    | with_reducible apply sendRpart_keeps
    | with_reducible apply startPart_keeps
    | with_reducible apply Keeps.foldl
    | with_reducible apply Keeps.foldl_fst
    | split
    | with_reducible apply_assumption
    | (with_reducible refine Keeps.fst (by assumption) ?_)
    | (with_reducible refine Keeps.upd ?_)

theorem commitAtSlice_keeps {s0 s : State} (h : Keeps s0 s) (tag slice p) : Keeps s0 (commitAtSlice s tag slice p) := by
  unfold commitAtSlice
  repeat' first
    | with_reducible assumption
    | (intro _)
    | simp -zeta only [Keeps.upd_iff]
    | (extract_lets +onlyGivenNames a
       refine (fun (_ : Keeps s0 a) => ?_) ?_
       clear_value a
       rotate_left
       dsimp only [a]
       clear a)
    | (extract_lets +onlyGivenNames a
       refine (fun (_ : ∀ x b, Keeps s0 x → Keeps s0 (a x b)) => ?_) ?_
       clear_value a
       rotate_left
       dsimp only [a]
       clear a)
    | (extract_lets +onlyGivenNames a
       clear_value a)
    | with_reducible apply Keeps.ite
    | with_reducible apply runPass_keeps
    | with_reducible apply semaRead_keeps
    | with_reducible apply setSlot_keeps
    | with_reducible apply writeRel_keeps
    | with_reducible apply Keeps.foldl
    | with_reducible apply Keeps.foldl_fst
    | split
    | with_reducible apply_assumption

theorem commitAtImages_keeps {s0 s : State} (h : Keeps s0 s) (tag p) : Keeps s0 (commitAtImages s tag p) := by
  unfold commitAtImages
  repeat' first
    | with_reducible assumption
    | (intro _)
    | simp -zeta only [Keeps.upd_iff]
    | (extract_lets +onlyGivenNames a
       refine (fun (_ : Keeps s0 a) => ?_) ?_
       clear_value a
       rotate_left
       dsimp only [a]
       clear a)
    | (extract_lets +onlyGivenNames a
       clear_value a)
    | with_reducible apply setSide_keeps
    | with_reducible apply Keeps.foldl
    | with_reducible apply Keeps.foldl_fst
    | split
    | with_reducible apply_assumption
    | (with_reducible refine Keeps.upd ?_)

theorem commitArrives_keeps {s0 s : State} (h : Keeps s0 s) (tag d) : Keeps s0 (commitArrives s tag d) := by
  unfold commitArrives
  repeat' first
    | with_reducible assumption
    | (intro _)
    | simp -zeta only [Keeps.upd_iff]
    | (extract_lets +onlyGivenNames a
       refine (fun (_ : Keeps s0 a) => ?_) ?_
       clear_value a
       rotate_left
       dsimp only [a]
       clear a)
    | (extract_lets +onlyGivenNames a
       clear_value a)
    | with_reducible apply Keeps.ite
    | with_reducible apply commitAtImages_keeps
    | with_reducible apply commitAtSlice_keeps
    | with_reducible apply partDone_keeps
    | with_reducible apply staleDrop_keeps
    | split
    | (with_reducible refine Keeps.upd ?_)

end Sys2Proof.Machine
end

