-- ==== Sys2Proof/Laws/KeepPaging.lean ====
section
/-! SUPPORT. What the operations of Machine/Paging.lean keep (Laws/Keeps.lean). -/
set_option linter.tactic.unusedName false
set_option linter.unusedSimpArgs false
namespace Sys2Proof.Machine

theorem imgPut_keeps {s0 s : State} (h : Keeps s0 s) (i x) : Keeps s0 (imgPut s i x) := by
  unfold imgPut
  repeat' first
    | with_reducible assumption
    | simp -zeta only [Keeps.upd_iff]
    | (extract_lets +onlyGivenNames a
       refine (fun (_ : Keeps s0 a) => ?_) ?_
       clear_value a
       rotate_left
       dsimp only [a]
       clear a)
    | (extract_lets +onlyGivenNames a
       clear_value a)
    | with_reducible apply imgWrite_keeps
    | with_reducible apply setSide_keeps
    | (with_reducible refine Keeps.upd ?_)

theorem imgRmw_keeps {s0 s : State} (h : Keeps s0 s) (i old new h') {follow : State → State} (hfollow : ∀ x, Keeps s0 x → Keeps s0 (follow x)) : Keeps s0 (imgRmw s i old new h' follow) := by
  unfold imgRmw
  repeat' first
    | with_reducible assumption
    | (extract_lets +onlyGivenNames a
       refine (fun (_ : Keeps s0 a) => ?_) ?_
       clear_value a
       rotate_left
       dsimp only [a]
       clear a)
    | (extract_lets +onlyGivenNames a
       clear_value a)
    | with_reducible apply Keeps.ite
    | with_reducible apply imgPut_keeps
    | with_reducible apply sendMirror_keeps
    | with_reducible apply_assumption

theorem countBacking_keeps {s0 s : State} (h : Keeps s0 s) (c k st) : Keeps s0 (countBacking s c k st) := by
  unfold countBacking
  repeat' first
    | with_reducible assumption
    | with_reducible apply bump_keeps
    | with_reducible apply countEv_keeps
    | with_reducible apply countRmw_keeps

theorem imgCmd_keeps {s0 s : State} (h : Keeps s0 s) (i x c) : KeepsO s0 (imgCmd s i x c) := by
  unfold imgCmd
  extract_lets +onlyGivenNames ws done store fail
  have hd : ∀ s st r, Keeps s0 s → KeepsO s0 (done s st r) := fun s st r h =>
    .some (answer_keeps (countBacking_keeps h _ _ _) _ _ _ _)
  have ho : ∀ s y st r, Keeps s0 s → KeepsO s0 (store s y st r) := fun s y st r h =>
    .some (imgRmw_keeps (countBacking_keeps h _ _ _) _ _ _ _ fun _ hx => answer_keeps hx _ _ _ _)
  have hf : ∀ st, KeepsO s0 (fail st) := fun st => .some (rejectCmd_keeps (countEv_keeps (bump_keeps h _ _) _) _ _ _ _)
  clear_value done store fail
  apply KeepsO.ite (hf _)
  apply KeepsO.ite (hf _)
  extract_lets +onlyGivenNames signal
  have hs : ∀ op, KeepsO s0 (signal op) := by
    intro op
    dsimp -zeta only [signal]
    extract_lets n e y1 y2 s2
    refine KeepsO.ite (hf _) (ho _ _ _ _ ?_)
    exact Keeps.ite (countEv_keeps h _) h
  clear_value signal
  extract_lets +onlyGivenNames sc wait
  have hw : ∀ op, KeepsO s0 (wait op) := by
    intro op
    dsimp -zeta only [wait]
    extract_lets n
    refine KeepsO.ite (hf _) (KeepsO.ite .none ?_)
    split
    · exact ho _ _ _ _ (scopeCheck_keeps h _ _)
    · exact hd _ _ _ h
  clear_value wait
  split
  · exact hs _
  · exact hs _
  · exact hs _
  · exact hd _ _ _ (scopeCheck_keeps h _ _)
  · exact ho _ _ _ _ (scopeCheck_keeps h _ _)
  · exact hw _
  · exact hw _
  · exact hw _
  · exact .ite (hd _ _ _ (setSide_keeps (htmWrite_keeps (setHtm_keeps (unmirror_keeps h _) _ _) _) _ _)) (hf _)
  · exact hf _

theorem imgStage_keeps {s0 s : State} (h : Keeps s0 s) (i x tag e' c) : Keeps s0 (imgStage s i x tag e' c) := by
  unfold imgStage
  repeat' first
    | with_reducible assumption
    | (intro _)
    | simp -zeta only [Keeps.upd_iff]
    | (extract_lets +onlyGivenNames a
       refine (fun (_ : Keeps s0 a) => ?_) ?_
       clear_value a
       rotate_left
       dsimp only [a]
       clear a)
    | (extract_lets +onlyGivenNames a
       clear_value a)
    | with_reducible apply Keeps.ite
    | with_reducible apply countBacking_keeps
    | with_reducible apply imgRmw_keeps
    | with_reducible apply reportEntry_keeps
    | with_reducible apply setSide_keeps
    | with_reducible apply updPart_keeps
    | (with_reducible refine Keeps.upd ?_)

theorem imgFrame_keeps {s0 s : State} (h : Keeps s0 s) (i x h' phase t) : Keeps s0 (imgFrame s i x h' phase t) := by
  unfold imgFrame
  exact .ite (bump_keeps h _ _) (.ite (raise_keeps h _ _ _) (imgRmw_keeps h _ _ _ _ fun _ hx => hx))

theorem imgSetval_keeps {s0 s : State} (h : Keeps s0 s) (i x v) : Keeps s0 (imgSetval s i x v) := by
  unfold imgSetval
  exact .ite (marDone_keeps h _ _) (.ite (marDone_keeps h _ _)
    (imgRmw_keeps (marApplied_keeps (wr_keeps h _ _) _ _) _ _ _ _ fun _ hx => hx))

theorem setvalOn_keeps {s0 s : State} (h : Keeps s0 s) (i v) : Keeps s0 (setvalOn s i v) := by
  unfold setvalOn
  repeat' first
    | with_reducible assumption
    | simp -zeta only [Keeps.upd_iff]
    | (extract_lets +onlyGivenNames a
       refine (fun (_ : Keeps s0 a) => ?_) ?_
       clear_value a
       rotate_left
       dsimp only [a]
       clear a)
    | (extract_lets +onlyGivenNames a
       clear_value a)
    | with_reducible apply marDone_keeps
    | with_reducible apply pushPaging_keeps
    | with_reducible apply setvalAt_keeps
    | split

theorem cboundDone_keeps {s0 s : State} (h : Keeps s0 s) (i ctx set) : Keeps s0 (cboundDone s i ctx set) := by
  unfold cboundDone
  extract_lets e
  split
  · exact openEnds_keeps (cboundAt_keeps h _ _ _ _)
  · split
    · exact setCmdst_keeps (Keeps.upd h) _ _ _
    · exact openEnds_keeps h
  · split
    · exact openEnds_keeps (imgRmw_keeps h _ _ _ _ fun _ hx => hx)
    · exact openEnds_keeps h

theorem imgItem_keeps {s0 s : State} (h : Keeps s0 s) (k x) : Keeps s0 (imgItem s k x) := by
  unfold imgItem
  extract_lets +onlyGivenNames i e
  have hr := semaRead_keeps h 8 0 x.word 0 5
  split
  rename_i e1
  have hr := Keeps.fst e1 hr
  extract_lets g1 gone
  have hg : Keeps s0 gone := Keeps.upd hr
  clear_value gone
  refine Keeps.ite (loseItem_keeps hg _) (Keeps.ite ?_ ?_)
  · split
    · exact cboundDone_keeps hg _ _ _
    · exact setvalOn_keeps hg _ _
    · exact bankItem_keeps hg _
  · split
    · exact hr
    · extract_lets +onlyGivenNames y
      split
      · exact .ite hr (.ite (rejectCmd_keeps hg _ _ _ _) (.ite (turnAway_keeps hg _ _ _ _ _) (.getD (imgCmd_keeps hg _ _ _) hr)))
      · exact .ite (reportEntry_keeps hg _ _ _ _ _ _) (.ite (retryEntry_keeps hg _ _ _ _) (imgStage_keeps hg _ _ _ _ _))
      · exact .ite hr (imgFrame_keeps hg _ _ _ _ _)
      · exact .ite hr (cboundDone_keeps hg _ _ _)
      · exact .ite hr (imgSetval_keeps hg _ _ _)

theorem backingOp__keeps {s0 s : State} (h : Keeps s0 s) (k) : Keeps s0 (backingOp_ s k) := by
  unfold backingOp_
  repeat' first
    | with_reducible assumption
    | simp -zeta only [Keeps.upd_iff]
    | (extract_lets +onlyGivenNames a
       refine (fun (_ : Keeps s0 a) => ?_) ?_
       clear_value a
       rotate_left
       dsimp only [a]
       clear a)
    | (extract_lets +onlyGivenNames a
       clear_value a)
    | with_reducible apply Keeps.ite
    | with_reducible apply imgItem_keeps
    | split

theorem evict_keeps {s0 s : State} (h : Keeps s0 s) (key x i) : Keeps s0 (evict s key x i) := by
  unfold evict
  repeat' first
    | with_reducible assumption
    | simp -zeta only [Keeps.upd_iff]
    | (extract_lets +onlyGivenNames a
       refine (fun (_ : Keeps s0 a) => ?_) ?_
       clear_value a
       rotate_left
       dsimp only [a]
       clear a)
    | (extract_lets +onlyGivenNames a
       clear_value a)
    | with_reducible apply delSlot_keeps
    | with_reducible apply htmWrite_keeps
    | with_reducible apply imgPut_keeps
    | with_reducible apply readSlot_keeps
    | with_reducible apply setHtm_keeps
    | split

theorem evicted_keeps {s0 s : State} (h : Keeps s0 s) (i t) : Keeps s0 (evicted s i t) := by
  unfold evicted
  repeat' first
    | with_reducible assumption
    | simp -zeta only [Keeps.upd_iff]
    | (extract_lets +onlyGivenNames a
       refine (fun (_ : Keeps s0 a) => ?_) ?_
       clear_value a
       rotate_left
       dsimp only [a]
       clear a)
    | (extract_lets +onlyGivenNames a
       clear_value a)
    | with_reducible apply bump_keeps
    | with_reducible apply countEv_keeps
    | with_reducible apply htmWrite_keeps
    | with_reducible apply releaseTransit_keeps
    | with_reducible apply setHtm_keeps
    | (with_reducible refine Keeps.upd ?_)

theorem loadSlot_keeps {s0 s : State} (h : Keeps s0 s) (key i t n k) : Keeps s0 (loadSlot s key i t n k) := by
  unfold loadSlot
  repeat' first
    | with_reducible assumption
    | simp -zeta only [Keeps.upd_iff]
    | (extract_lets +onlyGivenNames a
       refine (fun (_ : Keeps s0 a) => ?_) ?_
       clear_value a
       rotate_left
       dsimp only [a]
       clear a)
    | (extract_lets +onlyGivenNames a
       clear_value a)
    | with_reducible apply Keeps.ite
    | with_reducible apply bump_keeps
    | with_reducible apply chkWrite_keeps
    | with_reducible apply countEv_keeps
    | with_reducible apply htmWrite_keeps
    | with_reducible apply setHtm_keeps
    | with_reducible apply setSide_keeps
    | with_reducible apply setSlot_keeps
    | with_reducible apply writeSlotChk_keeps
    | (with_reducible refine Keeps.upd ?_)

theorem lateRelease_keeps {s0 s : State} (h : Keeps s0 s) (key) : Keeps s0 (lateRelease s key) := by
  unfold lateRelease
  repeat' first
    | with_reducible assumption
    | (intro _)
    | simp -zeta only [Keeps.upd_iff]
    | with_reducible apply Keeps.ite
    | with_reducible apply completePhase_keeps
    | split

theorem applyAccepted_keeps {s0 s : State} (h : Keeps s0 s) (i f k) : Keeps s0 (applyAccepted i f k s) := by
  induction f generalizing s k with
  | zero => exact h
  | succ f ih =>
    unfold applyAccepted
    split
    · exact h
    · exact .ite (ih h _) (ih (imgItem_keeps h _ _) _)

theorem noteTried_keeps {s0 s : State} (h : Keeps s0 s) (k) : Keeps s0 (noteTried s k) := by
  unfold noteTried
  repeat' first
    | with_reducible assumption
    | (intro _)
    | simp -zeta only [Keeps.upd_iff]
    | (with_reducible refine Keeps.upd ?_)

theorem clearTried_keeps {s0 s : State} (h : Keeps s0 s) (i) : Keeps s0 (clearTried s i) := by
  unfold clearTried
  repeat' first
    | with_reducible assumption
    | (intro _)
    | simp -zeta only [Keeps.upd_iff]
    | with_reducible apply Keeps.ite
    | (with_reducible refine Keeps.upd ?_)

theorem beginMove_keeps {s0 s : State} (h : Keeps s0 s) (k i t n) : Keeps s0 (beginMove s k i t n) := by
  unfold beginMove
  repeat' first
    | with_reducible assumption
    | (intro _)
    | simp -zeta only [Keeps.upd_iff]
    | (extract_lets +onlyGivenNames a
       refine (fun (_ : Keeps s0 a) => ?_) ?_
       clear_value a
       rotate_left
       dsimp only [a]
       clear a)
    | (extract_lets +onlyGivenNames a
       refine (fun (_ : ∀ x b c, Keeps s0 x → Keeps s0 (a x b c)) => ?_) ?_
       clear_value a
       rotate_left
       dsimp only [a]
       clear a)
    | (extract_lets +onlyGivenNames a
       clear_value a)
    | with_reducible apply clearTried_keeps
    | with_reducible apply evict_keeps
    | with_reducible apply htmWrite_keeps
    | with_reducible apply noteTried_keeps
    | with_reducible apply setHtm_keeps
    | split
    | with_reducible apply_assumption
    | (with_reducible refine Keeps.upd ?_)

theorem restImage_keeps {s0 s : State} (h : Keeps s0 s) (t n i freeall) : Keeps s0 (restImage s t n i freeall) := by
  unfold restImage
  repeat' first
    | with_reducible assumption
    | (extract_lets +onlyGivenNames a
       refine (fun (_ : Keeps s0 a) => ?_) ?_
       clear_value a
       rotate_left
       dsimp only [a]
       clear a)
    | (extract_lets +onlyGivenNames a
       clear_value a)
    | with_reducible apply Keeps.ite
    | with_reducible apply imgWrite_keeps
    | with_reducible apply setHtm_keeps
    | with_reducible apply setSide_keeps

theorem endMove_keeps {s0 s : State} (h : Keeps s0 s) (m) : Keeps s0 (endMove s m) := by
  unfold endMove
  repeat' first
    | with_reducible assumption
    | (intro _)
    | simp -zeta only [Keeps.upd_iff]
    | (extract_lets +onlyGivenNames a
       refine (fun (_ : Keeps s0 a) => ?_) ?_
       clear_value a
       rotate_left
       dsimp only [a]
       clear a)
    | (extract_lets +onlyGivenNames a
       clear_value a)
    | with_reducible apply Keeps.ite
    | with_reducible apply bankItem_keeps
    | with_reducible apply cboundDone_keeps
    | with_reducible apply evicted_keeps
    | with_reducible apply lateRelease_keeps
    | with_reducible apply loadSlot_keeps
    | with_reducible apply releaseTransit_keeps
    | with_reducible apply restImage_keeps
    | with_reducible apply setHtm_keeps
    | with_reducible apply setSide_keeps
    | with_reducible apply setvalOn_keeps
    | with_reducible apply Keeps.foldl
    | with_reducible apply Keeps.foldl_fst
    | split
    | with_reducible apply_assumption
    | (with_reducible refine Keeps.upd ?_)

theorem pageIn__keeps {s0 s : State} (h : Keeps s0 s) (j) : Keeps s0 (pageIn_ s j) := by
  unfold pageIn_
  repeat' first
    | with_reducible assumption
    | (intro _)
    | simp -zeta only [Keeps.upd_iff]
    | (extract_lets +onlyGivenNames a
       refine (fun (_ : Keeps s0 a) => ?_) ?_
       clear_value a
       rotate_left
       dsimp only [a]
       clear a)
    | (extract_lets +onlyGivenNames a
       refine (fun (_ : ∀ x, Keeps s0 x → Keeps s0 (a x)) => ?_) ?_
       clear_value a
       rotate_left
       dsimp only [a]
       clear a)
    | (extract_lets +onlyGivenNames a
       clear_value a)
    | with_reducible apply Keeps.ite
    | with_reducible apply applyAccepted_keeps
    | with_reducible apply bankItem_keeps
    | with_reducible apply beginMove_keeps
    | with_reducible apply endMove_keeps
    | with_reducible apply rejectCmd_keeps
    | split
    | with_reducible apply_assumption
    | (with_reducible refine Keeps.upd ?_)

theorem rebuildEntry_keeps {s0 s : State} (h : Keeps s0 s) (i) : Keeps s0 (rebuildEntry s i) := by
  unfold rebuildEntry
  repeat' first
    | with_reducible assumption
    | (intro _)
    | simp -zeta only [Keeps.upd_iff]
    | (extract_lets +onlyGivenNames a
       refine (fun (_ : Keeps s0 a) => ?_) ?_
       clear_value a
       rotate_left
       dsimp only [a]
       clear a)
    | (extract_lets +onlyGivenNames a
       clear_value a)
    | with_reducible apply Keeps.ite
    | with_reducible apply chkWrite_keeps
    | with_reducible apply htmWrite_keeps
    | with_reducible apply setHtm_keeps
    | split

theorem rebuilt_keeps {s0 s : State} (h : Keeps s0 s) (w) : Keeps s0 (rebuilt s w) := by
  unfold rebuilt
  repeat' first
    | with_reducible assumption
    | (intro _)
    | simp -zeta only [Keeps.upd_iff]
    | (extract_lets +onlyGivenNames a
       refine (fun (_ : Keeps s0 a) => ?_) ?_
       clear_value a
       rotate_left
       dsimp only [a]
       clear a)
    | (extract_lets +onlyGivenNames a
       clear_value a)
    | with_reducible apply Keeps.ite
    | with_reducible apply rebuildEntry_keeps
    | with_reducible apply releaseTransit_keeps
    | with_reducible apply Keeps.foldl
    | with_reducible apply Keeps.foldl_fst
    | split
    | with_reducible apply_assumption
    | (with_reducible refine Keeps.upd ?_)

theorem pageIo_keeps {s0 s : State} (h : Keeps s0 s) (t n) : Keeps s0 (pageIo s t n) := by
  unfold pageIo
  repeat' first
    | with_reducible assumption
    | simp -zeta only [Keeps.upd_iff]
    | (extract_lets +onlyGivenNames a
       refine (fun (_ : Keeps s0 a) => ?_) ?_
       clear_value a
       rotate_left
       dsimp only [a]
       clear a)
    | (extract_lets +onlyGivenNames a
       clear_value a)
    | with_reducible apply imgPut_keeps
    | with_reducible apply raise_keeps
    | split
    | (with_reducible refine Keeps.upd ?_)

end Sys2Proof.Machine
end

