-- ==== Sys2Proof/Laws/KeepLanes.lean ====
section
/-! SUPPORT. What the operations of Machine/Lanes.lean keep (Laws/Keeps.lean). -/
set_option linter.tactic.unusedName false
set_option linter.unusedSimpArgs false
namespace Sys2Proof.Machine

theorem applyLen_keeps {s0 s : State} (h : Keeps s0 s) (l x) : Keeps s0 (applyLen s l x) := by
  unfold applyLen
  repeat' first
    | with_reducible assumption
    | (intro _)
    | with_reducible apply wr_keeps
    | with_reducible apply Keeps.foldl
    | with_reducible apply Keeps.foldl_fst
    | with_reducible apply_assumption

theorem completeLane_keeps {s0 s : State} (h : Keeps s0 s) (l) : Keeps s0 (completeLane s l) := by
  unfold completeLane
  repeat' first
    | with_reducible assumption
    | (intro _)
    | simp -zeta only [Keeps.upd_iff]
    | (extract_lets +onlyGivenNames a
       refine (fun (_ : Keeps s0 a) => ?_) ?_
       clear_value a
       rotate_left
       dsimp only [a]
       clear a)
    | (extract_lets +onlyGivenNames a
       clear_value a)
    | with_reducible apply answer_keeps
    | with_reducible apply applyLen_keeps
    | with_reducible apply bump_keeps
    | with_reducible apply countEv_keeps
    | with_reducible apply setLane_keeps
    | with_reducible apply Keeps.foldl
    | with_reducible apply Keeps.foldl_fst
    | with_reducible apply_assumption
    | (with_reducible refine Keeps.upd ?_)

theorem sendLcomp_keeps {s0 s : State} (h : Keeps s0 s) (l t) : Keeps s0 (sendLcomp s l t) := by
  unfold sendLcomp
  repeat' first
    | with_reducible assumption
    | (intro _)
    | with_reducible apply sendTo_keeps
    | with_reducible apply Keeps.foldl
    | with_reducible apply Keeps.foldl_fst
    | with_reducible apply_assumption

theorem decideNow_keeps {s0 s : State} (h : Keeps s0 s) (l) : Keeps s0 (decideNow s l) := by
  unfold decideNow
  repeat' first
    | with_reducible assumption
    | simp -zeta only [Keeps.upd_iff]
    | (extract_lets +onlyGivenNames a
       refine (fun (_ : Keeps s0 a) => ?_) ?_
       clear_value a
       rotate_left
       dsimp only [a]
       clear a)
    | (extract_lets +onlyGivenNames a
       clear_value a)
    | with_reducible apply Keeps.ite
    | with_reducible apply completeLane_keeps
    | with_reducible apply sendLcomp_keeps
    | with_reducible apply setLane_keeps
    | (with_reducible refine Keeps.upd ?_)

theorem sendWire_keeps {s0 s : State} (h : Keeps s0 s) (l) : Keeps s0 (sendWire s l) := by
  unfold sendWire
  repeat' first
    | with_reducible assumption
    | simp -zeta only [Keeps.upd_iff]
    | (extract_lets +onlyGivenNames a
       refine (fun (_ : Keeps s0 a) => ?_) ?_
       clear_value a
       rotate_left
       dsimp only [a]
       clear a)
    | (extract_lets +onlyGivenNames a
       clear_value a)
    | with_reducible apply Keeps.ite
    | with_reducible apply sendTo_keeps
    | with_reducible apply setLane_keeps
    | (with_reducible refine Keeps.upd ?_)

theorem decideLane_keeps {s0 s : State} (h : Keeps s0 s) (l) : Keeps s0 (decideLane s l) := by
  unfold decideLane
  repeat' first
    | with_reducible assumption
    | (extract_lets +onlyGivenNames a
       refine (fun (_ : Keeps s0 a) => ?_) ?_
       clear_value a
       rotate_left
       dsimp only [a]
       clear a)
    | (extract_lets +onlyGivenNames a
       clear_value a)
    | with_reducible apply Keeps.ite
    | with_reducible apply decideNow_keeps
    | with_reducible apply sendWire_keeps

theorem decideLanes_keeps {s0 s : State} (h : Keeps s0 s) : Keeps s0 (decideLanes s) := by
  unfold decideLanes
  repeat' first
    | with_reducible assumption
    | (intro _)
    | with_reducible apply decideLane_keeps
    | with_reducible apply Keeps.foldl
    | with_reducible apply Keeps.foldl_fst
    | with_reducible apply_assumption

theorem endLaneWait_keeps {s0 s : State} (h : Keeps s0 s) (l c st code die) : Keeps s0 (endLaneWait s l c st code die) := by
  unfold endLaneWait
  repeat' first
    | with_reducible assumption
    | (intro _)
    | simp -zeta only [Keeps.upd_iff]
    | (extract_lets +onlyGivenNames a
       refine (fun (_ : Keeps s0 a) => ?_) ?_
       clear_value a
       rotate_left
       dsimp only [a]
       clear a)
    | (extract_lets +onlyGivenNames a
       clear_value a)
    | with_reducible apply answer_keeps
    | with_reducible apply setLane_keeps
    | (with_reducible refine Keeps.upd ?_)

theorem forceLane__keeps {s0 s : State} (h : Keeps s0 s) (l) : Keeps s0 (forceLane_ s l) := by
  unfold forceLane_
  repeat' first
    | with_reducible assumption
    | simp -zeta only [Keeps.upd_iff]
    | with_reducible apply Keeps.ite
    | with_reducible apply completeLane_keeps
    | with_reducible apply sendLcomp_keeps
    | with_reducible apply sendWire_keeps
    | with_reducible apply setLane_keeps
    | (with_reducible refine Keeps.upd ?_)

theorem tryOnceLane_keeps {s0 s : State} (h : Keeps s0 s) (l c) : Keeps s0 (tryOnceLane s l c) := by
  unfold tryOnceLane
  repeat' first
    | with_reducible assumption
    | with_reducible apply Keeps.ite
    | with_reducible apply endLaneWait_keeps

theorem laneArrive_keeps {s0 s : State} (h : Keeps s0 s) (c) : Keeps s0 (laneArrive s c) := by
  unfold laneArrive
  repeat' first
    | with_reducible assumption
    | simp -zeta only [Keeps.upd_iff]
    | (extract_lets +onlyGivenNames a
       refine (fun (_ : Keeps s0 a) => ?_) ?_
       clear_value a
       rotate_left
       dsimp only [a]
       clear a)
    | (extract_lets +onlyGivenNames a
       clear_value a)
    | with_reducible apply Keeps.ite
    | with_reducible apply answer_keeps
    | with_reducible apply bump_keeps
    | with_reducible apply decideLane_keeps
    | with_reducible apply failWith_keeps
    | with_reducible apply refuseCmd_keeps
    | with_reducible apply setLane_keeps
    | with_reducible apply tryOnceLane_keeps
    | (with_reducible refine Keeps.upd ?_)

theorem wireAt_keeps {s0 s : State} (h : Keeps s0 s) (h' l phase) : Keeps s0 (wireAt s h' l phase) := by
  unfold wireAt
  repeat' first
    | with_reducible assumption
    | simp -zeta only [Keeps.upd_iff]
    | (extract_lets +onlyGivenNames a
       refine (fun (_ : Keeps s0 a) => ?_) ?_
       clear_value a
       rotate_left
       dsimp only [a]
       clear a)
    | (extract_lets +onlyGivenNames a
       clear_value a)
    | with_reducible apply Keeps.ite
    | with_reducible apply decideLane_keeps
    | with_reducible apply raise_keeps
    | with_reducible apply setLane_keeps
    | with_reducible apply staleDrop_keeps
    | (with_reducible refine Keeps.upd ?_)

theorem lcompAt_keeps {s0 s : State} (h : Keeps s0 s) (h' l phase t) : Keeps s0 (lcompAt s h' l phase t) := by
  unfold lcompAt
  repeat' first
    | with_reducible assumption
    | simp -zeta only [Keeps.upd_iff]
    | (extract_lets +onlyGivenNames a
       refine (fun (_ : Keeps s0 a) => ?_) ?_
       clear_value a
       rotate_left
       dsimp only [a]
       clear a)
    | (extract_lets +onlyGivenNames a
       clear_value a)
    | with_reducible apply Keeps.ite
    | with_reducible apply completeLane_keeps
    | with_reducible apply raise_keeps
    | with_reducible apply setLane_keeps
    | with_reducible apply staleDrop_keeps
    | split
    | (with_reducible refine Keeps.upd ?_)

theorem laneRelease__keeps {s0 s : State} (h : Keeps s0 s) (l) : Keeps s0 (laneRelease_ s l) := by
  unfold laneRelease_
  repeat' first
    | with_reducible assumption
    | simp -zeta only [Keeps.upd_iff]
    | (extract_lets +onlyGivenNames a
       refine (fun (_ : Keeps s0 a) => ?_) ?_
       clear_value a
       rotate_left
       dsimp only [a]
       clear a)
    | (extract_lets +onlyGivenNames a
       clear_value a)
    | with_reducible apply Keeps.ite
    | with_reducible apply bump_keeps
    | with_reducible apply completeLane_keeps
    | with_reducible apply setLane_keeps
    | split
    | (with_reducible refine Keeps.upd ?_)

theorem breakLane_keeps {s0 s : State} (h : Keeps s0 s) (l lost) : Keeps s0 (breakLane s l lost) := by
  unfold breakLane
  repeat' first
    | with_reducible assumption
    | (intro _)
    | simp -zeta only [Keeps.upd_iff]
    | (extract_lets +onlyGivenNames a
       refine (fun (_ : Keeps s0 a) => ?_) ?_
       clear_value a
       rotate_left
       dsimp only [a]
       clear a)
    | (extract_lets +onlyGivenNames a
       clear_value a)
    | with_reducible apply Keeps.ite
    | with_reducible apply answer_keeps
    | with_reducible apply applyLen_keeps
    | with_reducible apply raise_keeps
    | with_reducible apply setLane_keeps
    | with_reducible apply Keeps.foldl
    | with_reducible apply Keeps.foldl_fst
    | with_reducible apply_assumption
    | (with_reducible refine Keeps.upd ?_)

theorem resetLane_keeps {s0 s : State} (h : Keeps s0 s) (l) : Keeps s0 (resetLane s l) := by
  unfold resetLane
  repeat' first
    | with_reducible assumption
    | simp -zeta only [Keeps.upd_iff]
    | (extract_lets +onlyGivenNames a
       refine (fun (_ : Keeps s0 a) => ?_) ?_
       clear_value a
       rotate_left
       dsimp only [a]
       clear a)
    | (extract_lets +onlyGivenNames a
       clear_value a)
    | with_reducible apply applyLen_keeps
    | with_reducible apply setLane_keeps
    | (with_reducible refine Keeps.upd ?_)

end Sys2Proof.Machine
end

