-- ==== Sys2Proof/Laws/KeepPier.lean ====
section
/-! SUPPORT. What the operations of Machine/Pier.lean keep (Laws/Keeps.lean). -/
set_option linter.tactic.unusedName false
set_option linter.unusedSimpArgs false
namespace Sys2Proof.Machine

theorem aqWrite_keeps {s0 s : State} (h : Keeps s0 s) (p ag q d) : Keeps s0 (aqWrite s p ag q d) := by
  unfold aqWrite
  repeat' first
    | with_reducible assumption
    | (intro _)
    | simp -zeta only [Keeps.upd_iff]
    | (extract_lets +onlyGivenNames a
       refine (fun (_ : Keeps s0 a) => ?_) ?_
       clear_value a
       rotate_left
       dsimp only [a]
       clear a)
    | (extract_lets +onlyGivenNames a
       clear_value a)
    | with_reducible apply Keeps.ite
    | with_reducible apply chkWrite_keeps
    | with_reducible apply setQueue_keeps
    | split
    | (with_reducible refine Keeps.upd ?_)

theorem setItem_keeps {s0 s : State} (h : Keeps s0 s) (c st) : Keeps s0 (setItem s c st) := by
  unfold setItem
  repeat' first
    | with_reducible assumption
    | (intro _)
    | simp -zeta only [Keeps.upd_iff]
    | with_reducible apply mapItem_keeps
    | (with_reducible refine Keeps.upd ?_)

theorem stallItem_keeps {s0 s : State} (h : Keeps s0 s) (c why) : Keeps s0 (stallItem s c why) := by
  unfold stallItem
  repeat' first
    | with_reducible assumption
    | (intro _)
    | simp -zeta only [Keeps.upd_iff]
    | (extract_lets +onlyGivenNames a
       refine (fun (_ : Keeps s0 a) => ?_) ?_
       clear_value a
       rotate_left
       dsimp only [a]
       clear a)
    | (extract_lets +onlyGivenNames a
       clear_value a)
    | with_reducible apply Keeps.ite
    | with_reducible apply mapItem_keeps
    | (with_reducible refine Keeps.upd ?_)

theorem toBank_keeps {s0 s : State} (h : Keeps s0 s) (router c miss ret) : Keeps s0 (toBank s router c miss ret) := by
  unfold toBank
  repeat' first
    | with_reducible assumption
    | simp -zeta only [Keeps.upd_iff]
    | (extract_lets +onlyGivenNames a
       refine (fun (_ : Keeps s0 a) => ?_) ?_
       clear_value a
       rotate_left
       dsimp only [a]
       clear a)
    | (extract_lets +onlyGivenNames a
       clear_value a)
    | with_reducible apply bankCmd_keeps
    | with_reducible apply girderPass_keeps
    | with_reducible apply rejectCmd_keeps
    | split
    | (with_reducible refine Keeps.fst (by assumption) ?_)

theorem toHome_keeps {s0 s : State} (h : Keeps s0 s) (c) : Keeps s0 (toHome s c) := by
  unfold toHome
  repeat' first
    | with_reducible assumption
    | simp -zeta only [Keeps.upd_iff]
    | (extract_lets +onlyGivenNames a
       refine (fun (_ : Keeps s0 a) => ?_) ?_
       clear_value a
       rotate_left
       dsimp only [a]
       clear a)
    | (extract_lets +onlyGivenNames a
       clear_value a)
    | with_reducible apply Keeps.ite
    | with_reducible apply girderPass_keeps
    | with_reducible apply lookUp_keeps
    | with_reducible apply rejectCmd_keeps
    | with_reducible apply tagRead_keeps
    | with_reducible apply toBank_keeps
    | with_reducible apply toSlot_keeps
    | split
    | (with_reducible refine Keeps.fst (by assumption) ?_)

theorem toDie_keeps {s0 s : State} (h : Keeps s0 s) (c d) : Keeps s0 (toDie s c d) := by
  unfold toDie
  repeat' first
    | with_reducible assumption
    | (intro _)
    | simp -zeta only [Keeps.upd_iff]
    | (extract_lets +onlyGivenNames a
       refine (fun (_ : Keeps s0 a) => ?_) ?_
       clear_value a
       rotate_left
       dsimp only [a]
       clear a)
    | (extract_lets +onlyGivenNames a
       clear_value a)
    | with_reducible apply Keeps.ite
    | with_reducible apply bumpQseq_keeps
    | with_reducible apply countEv_keeps
    | with_reducible apply girderPass_keeps
    | with_reducible apply mapItem_keeps
    | with_reducible apply rejectCmd_keeps
    | with_reducible apply sendTo_keeps
    | split
    | (with_reducible refine Keeps.fst (by assumption) ?_)
    | (with_reducible refine Keeps.upd ?_)

theorem goHome_keeps {s0 s : State} (h : Keeps s0 s) (c) : Keeps s0 (goHome s c) := by
  unfold goHome
  repeat' first
    | with_reducible assumption
    | with_reducible apply Keeps.ite
    | with_reducible apply setItem_keeps
    | with_reducible apply toDie_keeps
    | with_reducible apply toHome_keeps

/-- What the unit's decision keeps. -/
structure KeepsA (s0 : State) (a : Admit) : Prop where
  keeps : ∀ t, a = .placed t → Keeps s0 t

theorem unitAdmit_keepsA {s0 s : State} (h : Keeps s0 s) (c) : KeepsA s0 (unitAdmit s c) := by
  have hf : ∀ st, KeepsA s0 (.fails st) := fun st => ⟨fun _ e => by cases e⟩
  have hh : KeepsA s0 .held := ⟨fun _ e => by cases e⟩
  have hp : ∀ {t}, Keeps s0 t → KeepsA s0 (.placed t) := fun h => ⟨fun _ e => by cases e; exact h⟩
  have hi : ∀ {a b : Admit} {p : Prop} [Decidable p], KeepsA s0 a → KeepsA s0 b → KeepsA s0 (if p then a else b) := by
    intro a b p _ ha hb; split <;> assumption
  unfold unitAdmit
  extract_lets k pidx
  split
  · exact hf _
  · refine hi (hf _) (hi (hf _) (hi (hf _) (hi (hf _) (hi hh (hi (hf _) ?_)))))
    extract_lets p
    split
    rename_i e
    refine hp (setCtx_keeps (Keeps.fst e ?_) _ _)
    split
    · exact h
    · exact askBeats_keeps h _ _ _ _

theorem unitAdmit_keeps {s0 s t : State} (h : Keeps s0 s) {c} (e : unitAdmit s c = .placed t) : Keeps s0 t :=
  (unitAdmit_keepsA h c).keeps t e

theorem combineDepart_keeps {s0 s : State} (h : Keeps s0 s) (c) : Keeps s0 (combineDepart s c) := by
  unfold combineDepart
  apply Keeps.ite (stallItem_keeps h _ _)
  extract_lets +onlyGivenNames k unit
  split
  apply Keeps.ite (failPlain_keeps h _ _ _ _)
  have hg := girderPass_keeps h (pierRouter s c.pier) (abacusRouter (k % 16))
  split
  · rename_i e; exact setItem_keeps (Keeps.fst e hg) _ _
  · rename_i e; exact failPlain_keeps (Keeps.fst e hg) _ _ _ _
  · rename_i e
    have hg := Keeps.fst e hg
    split
    rename_i s2 stands e2
    have hr : Keeps s0 s2 := by
      refine Keeps.fst e2 ?_
      split
      · exact readRecord_keeps hg _ _
      · exact hg
    split
    · exact failPlain_keeps hr _ _ _ _
    · exact Keeps.ite (failPlain_keeps hr _ _ _ _) (stallItem_keeps (Keeps.ite hr (bump_keeps hr _ _)) _ _)
    · rename_i e3
      refine goHome_keeps ?_ _
      cases stands
      · cases e3
      · exact unitAdmit_keeps hr e3

theorem depart_keeps {s0 s : State} (h : Keeps s0 s) (c) : Keeps s0 (depart s c) := by
  unfold depart
  repeat' first
    | with_reducible assumption
    | (intro _)
    | simp -zeta only [Keeps.upd_iff]
    | (extract_lets +onlyGivenNames a
       refine (fun (_ : Keeps s0 a) => ?_) ?_
       clear_value a
       rotate_left
       dsimp only [a]
       clear a)
    | (extract_lets +onlyGivenNames a
       clear_value a)
    | with_reducible apply Keeps.ite
    | with_reducible apply combineDepart_keeps
    | with_reducible apply failPlain_keeps
    | with_reducible apply failWith_keeps
    | with_reducible apply goHome_keeps
    | with_reducible apply laneArrive_keeps
    | with_reducible apply mapItem_keeps
    | with_reducible apply routeDepart_keeps
    | with_reducible apply setItem_keeps
    | with_reducible apply stallItem_keeps
    | split
    | (with_reducible refine Keeps.upd ?_)

theorem startDrain_keeps {s0 s : State} (h : Keeps s0 s) (c scope) : Keeps s0 (startDrain s c scope) := by
  unfold startDrain
  repeat' first
    | with_reducible assumption
    | simp -zeta only [Keeps.upd_iff]
    | (extract_lets +onlyGivenNames a
       refine (fun (_ : Keeps s0 a) => ?_) ?_
       clear_value a
       rotate_left
       dsimp only [a]
       clear a)
    | (extract_lets +onlyGivenNames a
       clear_value a)
    | with_reducible apply Keeps.ite
    | with_reducible apply setItem_keeps
    | with_reducible apply setQueue_keeps
    | (with_reducible refine Keeps.upd ?_)

theorem afterFence_keeps {s0 s : State} (h : Keeps s0 s) (c) : Keeps s0 (afterFence s c) := by
  unfold afterFence
  repeat' first
    | with_reducible assumption
    | simp -zeta only [Keeps.upd_iff]
    | with_reducible apply depart_keeps
    | with_reducible apply startDrain_keeps
    | split

theorem begin__keeps {s0 s : State} (h : Keeps s0 s) (c) : Keeps s0 (begin_ s c) := by
  unfold begin_
  repeat' first
    | with_reducible assumption
    | simp -zeta only [Keeps.upd_iff]
    | with_reducible apply Keeps.ite
    | with_reducible apply afterFence_keeps
    | with_reducible apply failPlain_keeps
    | with_reducible apply failWith_keeps
    | with_reducible apply setItem_keeps
    | split

theorem readEntries_keeps {s0 s : State} (h : Keeps s0 s) (p base i) : Keeps s0 (readEntries s p base i).1 := by
  unfold readEntries
  repeat' first
    | with_reducible assumption
    | (intro _)
    | simp -zeta only [Keeps.upd_iff]
    | (extract_lets +onlyGivenNames a
       refine (fun (_ : Keeps s0 a) => ?_) ?_
       clear_value a
       rotate_left
       dsimp only [a]
       clear a)
    | (extract_lets +onlyGivenNames a
       clear_value a)
    | with_reducible apply chkRead_keeps
    | with_reducible apply raise_keeps
    | with_reducible apply Keeps.foldl
    | with_reducible apply Keeps.foldl_fst
    | split
    | with_reducible apply_assumption
    | (with_reducible refine Keeps.fst (by assumption) ?_)

theorem passPointers_keeps {s0 s : State} (h : Keeps s0 s) (p g q) : Keeps s0 (passPointers s p g q) := by
  unfold passPointers
  repeat' first
    | with_reducible assumption
    | simp -zeta only [Keeps.upd_iff]
    | (extract_lets +onlyGivenNames a
       refine (fun (_ : Keeps s0 a) => ?_) ?_
       clear_value a
       rotate_left
       dsimp only [a]
       clear a)
    | (extract_lets +onlyGivenNames a
       clear_value a)
    | with_reducible apply setPier_keeps
    | (with_reducible refine Keeps.upd ?_)

theorem issueHead_keeps {s0 s : State} (h : Keeps s0 s) (p g a q i) : Keeps s0 (issueHead s p g a q i) := by
  unfold issueHead
  repeat' first
    | with_reducible assumption
    | (intro _)
    | simp -zeta only [Keeps.upd_iff]
    | (extract_lets +onlyGivenNames a
       refine (fun (_ : Keeps s0 a) => ?_) ?_
       clear_value a
       rotate_left
       dsimp only [a]
       clear a)
    | (extract_lets +onlyGivenNames a
       clear_value a)
    | with_reducible apply Keeps.ite
    | with_reducible apply begin__keeps
    | with_reducible apply countEv_keeps
    | with_reducible apply failPlain_keeps
    | with_reducible apply mapItem_keeps
    | with_reducible apply passPointers_keeps
    | with_reducible apply readEntries_keeps
    | with_reducible apply setPier_keeps
    | split
    | (with_reducible refine Keeps.fst (by assumption) ?_)
    | (with_reducible refine Keeps.upd ?_)

theorem resumeHead_keeps {s0 s : State} (h : Keeps s0 s) (p a q c why) : Keeps s0 (resumeHead s p a q c why) := by
  unfold resumeHead
  repeat' first
    | with_reducible assumption
    | simp -zeta only [Keeps.upd_iff]
    | with_reducible apply Keeps.ite
    | with_reducible apply depart_keeps
    | with_reducible apply passPointers_keeps
    | (with_reducible refine Keeps.upd ?_)

theorem issueOp_keeps {s0 s : State} (h : Keeps s0 s) (want a q) : Keeps s0 (issueOp want a q s) := by
  unfold issueOp
  repeat' first
    | with_reducible assumption
    | simp -zeta only [Keeps.upd_iff]
    | (extract_lets +onlyGivenNames a
       refine (fun (_ : Keeps s0 a) => ?_) ?_
       clear_value a
       rotate_left
       dsimp only [a]
       clear a)
    | (extract_lets +onlyGivenNames a
       clear_value a)
    | with_reducible apply Keeps.ite
    | with_reducible apply afterFence_keeps
    | with_reducible apply issueHead_keeps
    | with_reducible apply resumeHead_keeps
    | split

theorem representHead_keeps {s0 s : State} (h : Keeps s0 s) (a q) : Keeps s0 (representHead s a q) := by
  unfold representHead
  repeat' first
    | with_reducible assumption
    | simp -zeta only [Keeps.upd_iff]
    | (extract_lets +onlyGivenNames a
       refine (fun (_ : Keeps s0 a) => ?_) ?_
       clear_value a
       rotate_left
       dsimp only [a]
       clear a)
    | (extract_lets +onlyGivenNames a
       clear_value a)
    | with_reducible apply Keeps.ite
    | with_reducible apply depart_keeps
    | with_reducible apply resendParts_keeps
    | with_reducible apply setItem_keeps
    | with_reducible apply timeRead_keeps
    | split

theorem representEntry_keeps {s0 s : State} (h : Keeps s0 s) (tag idx) : Keeps s0 (representEntry s tag idx) := by
  unfold representEntry
  repeat' first
    | with_reducible assumption
    | (intro _)
    | simp -zeta only [Keeps.upd_iff]
    | (extract_lets +onlyGivenNames a
       refine (fun (_ : Keeps s0 a) => ?_) ?_
       clear_value a
       rotate_left
       dsimp only [a]
       clear a)
    | (extract_lets +onlyGivenNames a
       clear_value a)
    | with_reducible apply Keeps.ite
    | with_reducible apply reportEntry_keeps
    | with_reducible apply stageHome_keeps
    | with_reducible apply timeRead_keeps
    | with_reducible apply updPart_keeps
    | split
    | (with_reducible refine Keeps.upd ?_)

theorem drainAck_keeps {s0 s : State} (h : Keeps s0 s) (p tag err) : Keeps s0 (drainAck s p tag err) := by
  unfold drainAck
  repeat' first
    | with_reducible assumption
    | (intro _)
    | simp -zeta only [Keeps.upd_iff]
    | (extract_lets +onlyGivenNames a
       refine (fun (_ : Keeps s0 a) => ?_) ?_
       clear_value a
       rotate_left
       dsimp only [a]
       clear a)
    | (extract_lets +onlyGivenNames a
       clear_value a)
    | with_reducible apply Keeps.ite
    | with_reducible apply bump_keeps
    | with_reducible apply countEv_keeps
    | with_reducible apply depart_keeps
    | with_reducible apply hwm_keeps
    | with_reducible apply raise_keeps
    | with_reducible apply setItem_keeps
    | with_reducible apply setQueue_keeps
    | with_reducible apply startDrain_keeps
    | split
    | (with_reducible refine Keeps.upd ?_)

theorem invalAck_keeps {s0 s : State} (h : Keeps s0 s) (p tag err) : Keeps s0 (invalAck s p tag err) := by
  unfold invalAck
  repeat' first
    | with_reducible assumption
    | (intro _)
    | simp -zeta only [Keeps.upd_iff]
    | (extract_lets +onlyGivenNames a
       refine (fun (_ : Keeps s0 a) => ?_) ?_
       clear_value a
       rotate_left
       dsimp only [a]
       clear a)
    | (extract_lets +onlyGivenNames a
       clear_value a)
    | with_reducible apply Keeps.ite
    | with_reducible apply bump_keeps
    | with_reducible apply countEv_keeps
    | with_reducible apply presentOf_keeps
    | with_reducible apply raise_keeps
    | with_reducible apply setQueue_keeps
    | split
    | with_reducible apply_assumption
    | (with_reducible refine Keeps.upd ?_)

theorem replyTaken_keeps {s0 s : State} (h : Keeps s0 s) (p) : Keeps s0 (replyTaken s p) := by
  unfold replyTaken
  repeat' first
    | with_reducible assumption
    | simp -zeta only [Keeps.upd_iff]
    | (extract_lets +onlyGivenNames a
       refine (fun (_ : Keeps s0 a) => ?_) ?_
       clear_value a
       rotate_left
       dsimp only [a]
       clear a)
    | (extract_lets +onlyGivenNames a
       clear_value a)
    | with_reducible apply Keeps.ite
    | with_reducible apply countEv_keeps
    | with_reducible apply present_keeps
    | with_reducible apply setPier_keeps
    | with_reducible apply setQueue_keeps
    | with_reducible apply traceSend_keeps
    | split
    | (with_reducible refine Keeps.upd ?_)

theorem fillArrives_keeps {s0 s : State} (h : Keeps s0 s) (p) : Keeps s0 (fillArrives s p) := by
  unfold fillArrives
  repeat' first
    | with_reducible assumption
    | (intro _)
    | simp -zeta only [Keeps.upd_iff]
    | (extract_lets +onlyGivenNames a
       refine (fun (_ : Keeps s0 a) => ?_) ?_
       clear_value a
       rotate_left
       dsimp only [a]
       clear a)
    | (extract_lets +onlyGivenNames a
       clear_value a)
    | with_reducible apply Keeps.ite
    | with_reducible apply chkWrite_keeps
    | with_reducible apply setPier_keeps
    | split
    | (with_reducible refine Keeps.upd ?_)

theorem invArrives_keeps {s0 s : State} (h : Keeps s0 s) (p) : Keeps s0 (invArrives s p) := by
  unfold invArrives
  repeat' first
    | with_reducible assumption
    | (intro _)
    | simp -zeta only [Keeps.upd_iff]
    | (extract_lets +onlyGivenNames a
       refine (fun (_ : Keeps s0 a) => ?_) ?_
       clear_value a
       rotate_left
       dsimp only [a]
       clear a)
    | (extract_lets +onlyGivenNames a
       clear_value a)
    | with_reducible apply Keeps.ite
    | with_reducible apply setPier_keeps
    | split
    | (with_reducible refine Keeps.upd ?_)

theorem wakeArrives_keeps {s0 s : State} (h : Keeps s0 s) (p) : Keeps s0 (wakeArrives s p) := by
  unfold wakeArrives
  repeat' first
    | with_reducible assumption
    | (intro _)
    | simp -zeta only [Keeps.upd_iff]
    | with_reducible apply Keeps.ite
    | with_reducible apply settle_keeps
    | split
    | (with_reducible refine Keeps.upd ?_)

theorem emit_keeps {s0 s : State} (h : Keeps s0 s) (slice w) : Keeps s0 (emit slice s w) := by
  unfold emit
  repeat' first
    | with_reducible assumption
    | simp -zeta only [Keeps.upd_iff]
    | (extract_lets +onlyGivenNames a
       refine (fun (_ : Keeps s0 a) => ?_) ?_
       clear_value a
       rotate_left
       dsimp only [a]
       clear a)
    | (extract_lets +onlyGivenNames a
       clear_value a)
    | with_reducible apply Keeps.ite
    | with_reducible apply bump_keeps
    | with_reducible apply countEv_keeps
    | with_reducible apply crossBack_keeps
    | with_reducible apply sendTo_keeps
    | split
    | (with_reducible refine Keeps.fst (by assumption) ?_)
    | (with_reducible refine Keeps.upd ?_)

theorem emitPort_keeps {s0 s : State} (h : Keeps s0 s) (slice) : Keeps s0 (emitPort s slice) := by
  unfold emitPort
  repeat' first
    | with_reducible assumption
    | (intro _)
    | simp -zeta only [Keeps.upd_iff]
    | (extract_lets +onlyGivenNames a
       refine (fun (_ : Keeps s0 a) => ?_) ?_
       clear_value a
       rotate_left
       dsimp only [a]
       clear a)
    | (extract_lets +onlyGivenNames a
       clear_value a)
    | with_reducible apply emit_keeps
    | with_reducible apply Keeps.foldl
    | with_reducible apply Keeps.foldl_fst
    | with_reducible apply_assumption
    | (with_reducible refine Keeps.upd ?_)

theorem resumePasses_keeps {s0 s : State} (h : Keeps s0 s) : Keeps s0 (resumePasses s) := by
  unfold resumePasses
  repeat' first
    | with_reducible assumption
    | (intro _)
    | with_reducible apply drainInq_keeps
    | with_reducible apply runPass_keeps
    | with_reducible apply Keeps.foldl
    | with_reducible apply Keeps.foldl_fst
    | with_reducible apply_assumption

theorem takeBatch_keeps {s0 s : State} (h : Keeps s0 s) (slice k) : Keeps s0 (takeBatch s slice k) := by
  unfold takeBatch
  repeat' first
    | with_reducible assumption
    | simp -zeta only [Keeps.upd_iff]
    | (extract_lets +onlyGivenNames a
       refine (fun (_ : Keeps s0 a) => ?_) ?_
       clear_value a
       rotate_left
       dsimp only [a]
       clear a)
    | (extract_lets +onlyGivenNames a
       clear_value a)
    | with_reducible apply bump_keeps
    | with_reducible apply chkRead_keeps
    | with_reducible apply raise_keeps
    | with_reducible apply toPort_keeps
    | split
    | (with_reducible refine Keeps.fst (by assumption) ?_)
    | (with_reducible refine Keeps.upd ?_)

theorem wakeEmit__keeps {s0 s : State} (h : Keeps s0 s) (slice) : Keeps s0 (wakeEmit_ s slice) := by
  unfold wakeEmit_
  repeat' first
    | with_reducible assumption
    | simp -zeta only [Keeps.upd_iff]
    | (extract_lets +onlyGivenNames a
       refine (fun (_ : Keeps s0 a) => ?_) ?_
       clear_value a
       rotate_left
       dsimp only [a]
       clear a)
    | (extract_lets +onlyGivenNames a
       clear_value a)
    | with_reducible apply Keeps.ite
    | with_reducible apply emitPort_keeps
    | with_reducible apply resumePasses_keeps
    | with_reducible apply takeBatch_keeps
    | split

theorem beginWindow_keeps {s0 s : State} (h : Keeps s0 s) (n) : Keeps s0 (beginWindow s n) := by
  unfold beginWindow
  repeat' first
    | with_reducible assumption
    | (intro _)
    | simp -zeta only [Keeps.upd_iff]
    | (extract_lets +onlyGivenNames a
       refine (fun (_ : Keeps s0 a) => ?_) ?_
       clear_value a
       rotate_left
       dsimp only [a]
       clear a)
    | (extract_lets +onlyGivenNames a
       clear_value a)
    | with_reducible apply Keeps.ite
    | with_reducible apply bump_keeps
    | with_reducible apply countEv_keeps
    | with_reducible apply Keeps.foldl
    | with_reducible apply Keeps.foldl_fst
    | split
    | with_reducible apply_assumption
    | (with_reducible refine Keeps.upd ?_)

theorem paceWindow_keeps {s0 s : State} (h : Keeps s0 s) : Keeps s0 (paceWindow s) := by
  unfold paceWindow
  repeat' first
    | with_reducible assumption
    | (extract_lets +onlyGivenNames a
       refine (fun (_ : Keeps s0 a) => ?_) ?_
       clear_value a
       rotate_left
       dsimp only [a]
       clear a)
    | (extract_lets +onlyGivenNames a
       clear_value a)
    | with_reducible apply Keeps.ite
    | with_reducible apply beginWindow_keeps

theorem beatTaken_keeps {s0 s : State} (h : Keeps s0 s) (p) : Keeps s0 (beatTaken s p) := by
  unfold beatTaken
  repeat' first
    | with_reducible assumption
    | simp -zeta only [Keeps.upd_iff]
    | (extract_lets +onlyGivenNames a
       refine (fun (_ : Keeps s0 a) => ?_) ?_
       clear_value a
       rotate_left
       dsimp only [a]
       clear a)
    | (extract_lets +onlyGivenNames a
       clear_value a)
    | with_reducible apply Keeps.ite
    | with_reducible apply setPier_keeps
    | split
    | (with_reducible refine Keeps.upd ?_)

theorem beatDone_keeps {s0 s : State} (h : Keeps s0 s) (r) : Keeps s0 (beatDone s r) := by
  unfold beatDone
  repeat' first
    | with_reducible assumption
    | simp -zeta only [Keeps.upd_iff]
    | (extract_lets +onlyGivenNames a
       refine (fun (_ : Keeps s0 a) => ?_) ?_
       clear_value a
       rotate_left
       dsimp only [a]
       clear a)
    | (extract_lets +onlyGivenNames a
       clear_value a)
    | with_reducible apply Keeps.ite
    | with_reducible apply abortHere_keeps
    | with_reducible apply beatOver_keeps
    | with_reducible apply beatRead_keeps
    | with_reducible apply beatWritten_keeps
    | split
    | (with_reducible refine Keeps.fst (by assumption) ?_)

theorem beatAnswered_keeps {s0 s : State} (h : Keeps s0 s) (p ag data err) : Keeps s0 (beatAnswered s p ag data err) := by
  unfold beatAnswered
  repeat' first
    | with_reducible assumption
    | (intro _)
    | simp -zeta only [Keeps.upd_iff]
    | (extract_lets +onlyGivenNames a
       refine (fun (_ : Keeps s0 a) => ?_) ?_
       clear_value a
       rotate_left
       dsimp only [a]
       clear a)
    | (extract_lets +onlyGivenNames a
       clear_value a)
    | with_reducible apply Keeps.ite
    | with_reducible apply beatDone_keeps
    | with_reducible apply raise_keeps
    | with_reducible apply setPier_keeps
    | split
    | (with_reducible refine Keeps.upd ?_)

theorem heldAnswers_keeps {s0 s : State} (h : Keeps s0 s) : Keeps s0 (heldAnswers s) := by
  unfold heldAnswers
  repeat' first
    | with_reducible assumption
    | (intro _)
    | simp -zeta only [Keeps.upd_iff]
    | with_reducible apply Keeps.ite
    | with_reducible apply beatDone_keeps
    | with_reducible apply setPier_keeps
    | with_reducible apply Keeps.foldl
    | with_reducible apply Keeps.foldl_fst
    | with_reducible apply_assumption
    | (with_reducible refine Keeps.upd ?_)

theorem countExpiry_keeps {s0 s : State} (h : Keeps s0 s) (c) : Keeps s0 (countExpiry s c) := by
  unfold countExpiry
  repeat' first
    | with_reducible assumption
    | with_reducible apply bump_keeps
    | with_reducible apply countEv_keeps

theorem dropHeld_keeps {s0 s : State} (h : Keeps s0 s) (c) : Keeps s0 (dropHeld s c) := by
  unfold dropHeld
  repeat' first
    | with_reducible assumption
    | (intro _)
    | simp -zeta only [Keeps.upd_iff]
    | (extract_lets +onlyGivenNames a
       refine (fun (_ : Keeps s0 a) => ?_) ?_
       clear_value a
       rotate_left
       dsimp only [a]
       clear a)
    | (extract_lets +onlyGivenNames a
       clear_value a)
    | split
    | with_reducible apply_assumption
    | (with_reducible refine Keeps.upd ?_)

theorem endHeld_keeps {s0 s : State} (h : Keeps s0 s) (h' st code die) : Keeps s0 (endHeld s h' st code die) := by
  unfold endHeld
  repeat' first
    | with_reducible assumption
    | simp -zeta only [Keeps.upd_iff]
    | (extract_lets +onlyGivenNames a
       refine (fun (_ : Keeps s0 a) => ?_) ?_
       clear_value a
       rotate_left
       dsimp only [a]
       clear a)
    | (extract_lets +onlyGivenNames a
       clear_value a)
    | with_reducible apply Keeps.ite
    | with_reducible apply dropHeld_keeps
    | with_reducible apply endLaneWait_keeps
    | with_reducible apply endWaiterFrom_keeps
    | with_reducible apply failFrom_keeps
    | with_reducible apply failWith_keeps
    | with_reducible apply noticeIf_keeps
    | split

theorem cancelHeld_keeps {s0 s : State} (h : Keeps s0 s) (r h' code die) : Keeps s0 (cancelHeld s r h' code die) := by
  unfold cancelHeld
  repeat' first
    | with_reducible assumption
    | (intro _)
    | simp -zeta only [Keeps.upd_iff]
    | (extract_lets +onlyGivenNames a
       refine (fun (_ : Keeps s0 a) => ?_) ?_
       clear_value a
       rotate_left
       dsimp only [a]
       clear a)
    | (extract_lets +onlyGivenNames a
       refine (fun (_ : ∀ x, Keeps s0 x → Keeps s0 (a x)) => ?_) ?_
       clear_value a
       rotate_left
       dsimp only [a]
       clear a)
    | (extract_lets +onlyGivenNames a
       clear_value a)
    | with_reducible apply crossed_keeps
    | with_reducible apply endHeld_keeps
    | split
    | with_reducible apply_assumption

theorem cancelAt_keeps {s0 s : State} (h : Keeps s0 s) (die a q code) : Keeps s0 (cancelAt s die a q code) := by
  unfold cancelAt
  apply Keeps.ite h
  extract_lets +onlyGivenNames go
  have hg : ∀ x r code, Keeps s0 x → Keeps s0 (go x r code) := by
    intro x r code hx
    simp only [go]
    split
    · exact cancelHeld_keeps hx _ _ _ _
    · exact hx
  clear_value go
  apply Keeps.ite
  · split
    · exact hg _ _ _ (Keeps.upd h)
    · exact h
  · exact hg _ _ _ h

theorem expire_keeps {s0 s : State} (h : Keeps s0 s) (die a q) : Keeps s0 (expire s die a q) := by
  unfold expire
  repeat' first
    | with_reducible assumption
    | (intro _)
    | simp -zeta only [Keeps.upd_iff]
    | with_reducible apply Keeps.ite
    | with_reducible apply cancelAt_keeps
    | with_reducible apply countExpiry_keeps
    | with_reducible apply endHeld_keeps
    | with_reducible apply failWith_keeps
    | split

theorem wdogVisit_keeps {s0 s : State} (h : Keeps s0 s) (slice entry) : Keeps s0 (wdogVisit s slice entry) := by
  unfold wdogVisit
  repeat' first
    | with_reducible assumption
    | (intro _)
    | simp -zeta only [Keeps.upd_iff]
    | (extract_lets +onlyGivenNames a
       refine (fun (_ : Keeps s0 a) => ?_) ?_
       clear_value a
       rotate_left
       dsimp only [a]
       clear a)
    | (extract_lets +onlyGivenNames a
       refine (fun (_ : ∀ x, Keeps s0 x → Keeps s0 (a x)) => ?_) ?_
       clear_value a
       rotate_left
       dsimp only [a]
       clear a)
    | (extract_lets +onlyGivenNames a
       clear_value a)
    | with_reducible apply Keeps.ite
    | with_reducible apply chkWrite_keeps
    | with_reducible apply endWaiter_keeps
    | with_reducible apply raise_keeps
    | with_reducible apply readWaiters_keeps
    | with_reducible apply setSlot_keeps
    | split
    | with_reducible apply_assumption
    | (with_reducible refine Keeps.upd ?_)

theorem guardFires_keeps {s0 s : State} (h : Keeps s0 s) (a q) : Keeps s0 (guardFires s a q) := by
  unfold guardFires
  repeat' first
    | with_reducible assumption
    | (intro _)
    | simp -zeta only [Keeps.upd_iff]
    | (extract_lets +onlyGivenNames a
       refine (fun (_ : Keeps s0 a) => ?_) ?_
       clear_value a
       rotate_left
       dsimp only [a]
       clear a)
    | (extract_lets +onlyGivenNames a
       clear_value a)
    | with_reducible apply Keeps.ite
    | with_reducible apply failWith_keeps
    | with_reducible apply raise_keeps
    | split

theorem drainSlow__keeps {s0 s : State} (h : Keeps s0 s) (a q) : Keeps s0 (drainSlow_ s a q) := by
  unfold drainSlow_
  repeat' first
    | with_reducible assumption
    | simp -zeta only [Keeps.upd_iff]
    | (extract_lets +onlyGivenNames a
       refine (fun (_ : Keeps s0 a) => ?_) ?_
       clear_value a
       rotate_left
       dsimp only [a]
       clear a)
    | (extract_lets +onlyGivenNames a
       clear_value a)
    | with_reducible apply Keeps.ite
    | with_reducible apply bump_keeps
    | with_reducible apply raise_keeps
    | with_reducible apply setQueue_keeps
    | split
    | (with_reducible refine Keeps.upd ?_)

end Sys2Proof.Machine
end

