-- ==== Sys2Proof/Laws/KeepTenant.lean ====
section
/-! SUPPORT. What the operations of Machine/Tenant.lean keep (Laws/Keeps.lean). -/
set_option linter.tactic.unusedName false
set_option linter.unusedSimpArgs false
namespace Sys2Proof.Machine

theorem tenBusy_keeps {s0 s : State} (h : Keeps s0 s) (t op) : Keeps s0 (tenBusy s t op) := by
  unfold tenBusy
  repeat' first
    | with_reducible assumption
    | with_reducible apply put_keeps

theorem tenDone_keeps {s0 s : State} (h : Keeps s0 s) (t op st) : Keeps s0 (tenDone s t op st) := by
  unfold tenDone
  repeat' first
    | with_reducible assumption
    | with_reducible apply put_keeps

theorem sendCancel_keeps {s0 s : State} (h : Keeps s0 s) (c code) : Keeps s0 (sendCancel s c code) := by
  unfold sendCancel
  repeat' first
    | with_reducible assumption
    | simp -zeta only [Keeps.upd_iff]
    | with_reducible apply Keeps.ite
    | with_reducible apply sendFrom_keeps
    | (with_reducible refine Keeps.upd ?_)

theorem endLanes_keeps {s0 s : State} (h : Keeps s0 s) (p st code) : Keeps s0 (endLanes s p st code) := by
  unfold endLanes
  repeat' first
    | with_reducible assumption
    | (intro _)
    | with_reducible apply endLaneWait_keeps
    | with_reducible apply Keeps.foldl
    | with_reducible apply Keeps.foldl_fst
    | with_reducible apply_assumption

theorem beginQuiesce_keeps {s0 s : State} (h : Keeps s0 s) (t) : Keeps s0 (beginQuiesce s t) := by
  unfold beginQuiesce
  repeat' first
    | with_reducible assumption
    | (intro _)
    | simp -zeta only [Keeps.upd_iff]
    | (extract_lets +onlyGivenNames a
       refine (fun (_ : Keeps s0 a) => ?_) ?_
       clear_value a
       rotate_left
       dsimp only [a]
       clear a)
    | (extract_lets +onlyGivenNames a
       clear_value a)
    | with_reducible apply endLanes_keeps
    | with_reducible apply endWaiter_keeps
    | with_reducible apply quiesceCtxs_keeps
    | with_reducible apply sendCancel_keeps
    | with_reducible apply setTen_keeps
    | with_reducible apply tenBusy_keeps
    | with_reducible apply Keeps.foldl
    | with_reducible apply Keeps.foldl_fst
    | with_reducible apply_assumption
    | (with_reducible refine Keeps.upd ?_)

theorem doQuiesce_keeps {s0 s : State} (h : Keeps s0 s) (t) : Keeps s0 (doQuiesce s t) := by
  unfold doQuiesce
  repeat' first
    | with_reducible assumption
    | simp -zeta only [Keeps.upd_iff]
    | with_reducible apply beginQuiesce_keeps
    | with_reducible apply tenDone_keeps
    | split

theorem quiesced__keeps {s0 s : State} (h : Keeps s0 s) (t) : Keeps s0 (quiesced_ s t) := by
  unfold quiesced_
  repeat' first
    | with_reducible assumption
    | simp -zeta only [Keeps.upd_iff]
    | with_reducible apply Keeps.ite
    | with_reducible apply setTen_keeps
    | with_reducible apply tenDone_keeps
    | (with_reducible refine Keeps.upd ?_)

theorem doResume_keeps {s0 s : State} (h : Keeps s0 s) (t) : Keeps s0 (doResume s t) := by
  unfold doResume
  repeat' first
    | with_reducible assumption
    | simp -zeta only [Keeps.upd_iff]
    | with_reducible apply Keeps.ite
    | with_reducible apply setTen_keeps
    | with_reducible apply tenDone_keeps
    | (with_reducible refine Keeps.upd ?_)

theorem flushAgent_keeps {s0 s : State} (h : Keeps s0 s) (a) : Keeps s0 (flushAgent s a).1 := by
  unfold flushAgent
  repeat' first
    | with_reducible assumption
    | (intro _)
    | simp -zeta only [Keeps.upd_iff]
    | (extract_lets +onlyGivenNames a
       refine (fun (_ : Keeps s0 a) => ?_) ?_
       clear_value a
       rotate_left
       dsimp only [a]
       clear a)
    | (extract_lets +onlyGivenNames a
       clear_value a)
    | with_reducible apply Keeps.ite
    | with_reducible apply present_keeps
    | with_reducible apply releasePlace_keeps
    | with_reducible apply setAgent_keeps
    | with_reducible apply setPier_keeps
    | with_reducible apply traceFlushed_keeps
    | with_reducible apply Keeps.foldl
    | with_reducible apply Keeps.foldl_fst
    | split
    | with_reducible apply_assumption
    | (with_reducible refine Keeps.upd ?_)

theorem releaseRecords_keeps {s0 s : State} (h : Keeps s0 s) (t) : Keeps s0 (releaseRecords s t) := by
  unfold releaseRecords
  repeat' first
    | with_reducible assumption
    | (intro _)
    | simp -zeta only [Keeps.upd_iff]
    | (extract_lets +onlyGivenNames a
       refine (fun (_ : Keeps s0 a) => ?_) ?_
       clear_value a
       rotate_left
       dsimp only [a]
       clear a)
    | (extract_lets +onlyGivenNames a
       clear_value a)
    | with_reducible apply Keeps.ite
    | with_reducible apply deliverHeld_keeps
    | with_reducible apply Keeps.foldl
    | with_reducible apply Keeps.foldl_fst
    | with_reducible apply_assumption
    | (with_reducible refine Keeps.upd ?_)

theorem freeSlot_keeps {s0 s : State} (h : Keeps s0 s) (t key) : Keeps s0 (freeSlot t s key) := by
  unfold freeSlot
  repeat' first
    | with_reducible assumption
    | (intro _)
    | simp -zeta only [Keeps.upd_iff]
    | (extract_lets +onlyGivenNames a
       refine (fun (_ : Keeps s0 a) => ?_) ?_
       clear_value a
       rotate_left
       dsimp only [a]
       clear a)
    | (extract_lets +onlyGivenNames a
       clear_value a)
    | with_reducible apply Keeps.ite
    | with_reducible apply bankItem_keeps
    | with_reducible apply delSlot_keeps
    | with_reducible apply drainGirder_keeps
    | with_reducible apply endTries_keeps
    | with_reducible apply htmWrite_keeps
    | with_reducible apply setHtm_keeps
    | with_reducible apply Keeps.foldl
    | with_reducible apply Keeps.foldl_fst
    | split
    | with_reducible apply_assumption

theorem restAt_keeps {s0 s : State} (h : Keeps s0 s) (t key) : Keeps s0 (restAt t s key) := by
  unfold restAt
  repeat' first
    | with_reducible assumption
    | simp -zeta only [Keeps.upd_iff]
    | with_reducible apply setSlot_keeps
    | with_reducible apply writeSlotChk_keeps
    | split

theorem walkSlots_keeps {s0 s : State} (h : Keeps s0 s) (t freeall) : Keeps s0 (walkSlots s t freeall) := by
  unfold walkSlots
  repeat' first
    | with_reducible assumption
    | (intro _)
    | (extract_lets +onlyGivenNames a
       refine (fun (_ : Keeps s0 a) => ?_) ?_
       clear_value a
       rotate_left
       dsimp only [a]
       clear a)
    | (extract_lets +onlyGivenNames a
       clear_value a)
    | with_reducible apply Keeps.ite
    | with_reducible apply drainInq_keeps
    | with_reducible apply freeSlot_keeps
    | with_reducible apply releaseRecords_keeps
    | with_reducible apply restAt_keeps
    | with_reducible apply runPass_keeps
    | with_reducible apply Keeps.foldl
    | with_reducible apply Keeps.foldl_fst
    | with_reducible apply_assumption

theorem endImporters_keeps {s0 s : State} (h : Keeps s0 s) (t) : Keeps s0 (endImporters s t) := by
  unfold endImporters
  repeat' first
    | with_reducible assumption
    | (intro _)
    | with_reducible apply endWaiter_keeps
    | with_reducible apply Keeps.foldl
    | with_reducible apply Keeps.foldl_fst
    | with_reducible apply_assumption

theorem dropReports_keeps {s0 s : State} (h : Keeps s0 s) (t) : Keeps s0 (dropReports s t) := by
  unfold dropReports
  repeat' first
    | with_reducible assumption
    | (intro _)
    | simp -zeta only [Keeps.upd_iff]
    | (with_reducible refine Keeps.upd ?_)

theorem resetWork_keeps {s0 s : State} (h : Keeps s0 s) (t freeall) : Keeps s0 (resetWork s t freeall) := by
  unfold resetWork
  repeat' first
    | with_reducible assumption
    | (intro _)
    | (extract_lets +onlyGivenNames a
       refine (fun (_ : Keeps s0 a) => ?_) ?_
       clear_value a
       rotate_left
       dsimp only [a]
       clear a)
    | (extract_lets +onlyGivenNames a
       clear_value a)
    | with_reducible apply Keeps.ite
    | with_reducible apply dropReports_keeps
    | with_reducible apply endImporters_keeps
    | with_reducible apply forceCtxs_keeps
    | with_reducible apply resetLane_keeps
    | with_reducible apply walkSlots_keeps
    | with_reducible apply Keeps.foldl
    | with_reducible apply Keeps.foldl_fst
    | with_reducible apply_assumption

theorem enterReset_keeps {s0 s : State} (h : Keeps s0 s) (t freeall) : Keeps s0 (enterReset s t freeall) := by
  unfold enterReset
  repeat' first
    | with_reducible assumption
    | simp -zeta only [Keeps.upd_iff]
    | (extract_lets +onlyGivenNames a
       refine (fun (_ : Keeps s0 a) => ?_) ?_
       clear_value a
       rotate_left
       dsimp only [a]
       clear a)
    | (extract_lets +onlyGivenNames a
       clear_value a)
    | with_reducible apply setTen_keeps
    | split
    | (with_reducible refine Keeps.upd ?_)

theorem dropMarks_keeps {s0 s : State} (h : Keeps s0 s) (t) : Keeps s0 (dropMarks s t) := by
  unfold dropMarks
  repeat' first
    | with_reducible assumption
    | (intro _)
    | simp -zeta only [Keeps.upd_iff]
    | (extract_lets +onlyGivenNames a
       refine (fun (_ : Keeps s0 a) => ?_) ?_
       clear_value a
       rotate_left
       dsimp only [a]
       clear a)
    | (extract_lets +onlyGivenNames a
       clear_value a)
    | with_reducible apply runPass_keeps
    | with_reducible apply setSide_keeps
    | with_reducible apply Keeps.foldl
    | with_reducible apply Keeps.foldl_fst
    | with_reducible apply_assumption
    | (with_reducible refine Keeps.upd ?_)

theorem forceDiscard_keeps {s0 s : State} (h : Keeps s0 s) (t) : Keeps s0 (forceDiscard s t) := by
  unfold forceDiscard
  repeat' first
    | with_reducible assumption
    | (intro _)
    | simp -zeta only [Keeps.upd_iff]
    | (extract_lets +onlyGivenNames a
       refine (fun (_ : Keeps s0 a) => ?_) ?_
       clear_value a
       rotate_left
       dsimp only [a]
       clear a)
    | (extract_lets +onlyGivenNames a
       clear_value a)
    | with_reducible apply Keeps.ite
    | with_reducible apply bump_keeps
    | with_reducible apply dropMarks_keeps
    | with_reducible apply dropWaiter_keeps
    | with_reducible apply endWaiter_keeps
    | with_reducible apply setLane_keeps
    | with_reducible apply setPort_keeps
    | with_reducible apply Keeps.foldl
    | with_reducible apply Keeps.foldl_fst
    | with_reducible apply_assumption
    | (with_reducible refine Keeps.upd ?_)

theorem forceWork_keeps {s0 s : State} (h : Keeps s0 s) (t epoch origin freeall) : Keeps s0 (forceWork s t epoch origin freeall) := by
  unfold forceWork
  repeat' first
    | with_reducible assumption
    | (intro _)
    | simp -zeta only [Keeps.upd_iff]
    | (extract_lets +onlyGivenNames a
       refine (fun (_ : Keeps s0 a) => ?_) ?_
       clear_value a
       rotate_left
       dsimp only [a]
       clear a)
    | (extract_lets +onlyGivenNames a
       clear_value a)
    | with_reducible apply bump_keeps
    | with_reducible apply enterReset_keeps
    | with_reducible apply flushAgent_keeps
    | with_reducible apply forceDiscard_keeps
    | with_reducible apply resetWork_keeps
    | with_reducible apply setTen_keeps
    | with_reducible apply Keeps.foldl
    | with_reducible apply Keeps.foldl_fst
    | split
    | with_reducible apply_assumption
    | (with_reducible refine Keeps.fst (by assumption) ?_)
    | (with_reducible refine Keeps.upd ?_)

theorem notifyGroup_keeps {s0 s : State} (h : Keeps s0 s) (t origin resync) : Keeps s0 (notifyGroup s t origin resync) := by
  unfold notifyGroup
  repeat' first
    | with_reducible assumption
    | (intro _)
    | with_reducible apply sendTo_keeps
    | with_reducible apply Keeps.foldl
    | with_reducible apply Keeps.foldl_fst
    | with_reducible apply_assumption

theorem doReset_keeps {s0 s : State} (h : Keeps s0 s) (t freeall) : Keeps s0 (doReset s t freeall) := by
  unfold doReset
  repeat' first
    | with_reducible assumption
    | with_reducible apply Keeps.ite
    | with_reducible apply enterReset_keeps
    | with_reducible apply resetWork_keeps
    | with_reducible apply tenBusy_keeps
    | with_reducible apply tenDone_keeps

theorem doForced_keeps {s0 s : State} (h : Keeps s0 s) (t freeall) : Keeps s0 (doForced s t freeall) := by
  unfold doForced
  repeat' first
    | with_reducible assumption
    | (extract_lets +onlyGivenNames a
       refine (fun (_ : Keeps s0 a) => ?_) ?_
       clear_value a
       rotate_left
       dsimp only [a]
       clear a)
    | (extract_lets +onlyGivenNames a
       clear_value a)
    | with_reducible apply Keeps.ite
    | with_reducible apply forceWork_keeps
    | with_reducible apply notifyGroup_keeps
    | with_reducible apply sendOn_keeps
    | with_reducible apply tenBusy_keeps
    | with_reducible apply tenDone_keeps

theorem mirrorReset_keeps {s0 s : State} (h : Keeps s0 s) (t) : Keeps s0 (mirrorReset s t) := by
  unfold mirrorReset
  repeat' first
    | with_reducible assumption
    | simp -zeta only [Keeps.upd_iff]
    | with_reducible apply Keeps.ite
    | (with_reducible refine Keeps.upd ?_)

theorem resetDone_keeps {s0 s : State} (h : Keeps s0 s) (t) : Keeps s0 (resetDone s t) := by
  unfold resetDone
  repeat' first
    | with_reducible assumption
    | (intro _)
    | simp -zeta only [Keeps.upd_iff]
    | (extract_lets +onlyGivenNames a
       refine (fun (_ : Keeps s0 a) => ?_) ?_
       clear_value a
       rotate_left
       dsimp only [a]
       clear a)
    | (extract_lets +onlyGivenNames a
       clear_value a)
    | with_reducible apply Keeps.ite
    | with_reducible apply mirrorReset_keeps
    | with_reducible apply restImage_keeps
    | with_reducible apply setTen_keeps
    | with_reducible apply tenDone_keeps
    | with_reducible apply Keeps.foldl
    | with_reducible apply Keeps.foldl_fst
    | split
    | with_reducible apply_assumption
    | (with_reducible refine Keeps.upd ?_)

theorem epochNotice_keeps {s0 s : State} (h : Keeps s0 s) (port h' origin resync) : Keeps s0 (epochNotice s port h' origin resync) := by
  unfold epochNotice
  repeat' first
    | with_reducible assumption
    | (extract_lets +onlyGivenNames a
       refine (fun (_ : Keeps s0 a) => ?_) ?_
       clear_value a
       rotate_left
       dsimp only [a]
       clear a)
    | (extract_lets +onlyGivenNames a
       clear_value a)
    | with_reducible apply Keeps.ite
    | with_reducible apply forceWork_keeps
    | with_reducible apply notifyGroup_keeps

theorem resync_keeps {s0 s : State} (h : Keeps s0 s) (d) : Keeps s0 (resync s d) := by
  unfold resync
  repeat' first
    | with_reducible assumption
    | (intro _)
    | with_reducible apply Keeps.ite
    | with_reducible apply sendTo_keeps
    | with_reducible apply Keeps.foldl
    | with_reducible apply Keeps.foldl_fst
    | with_reducible apply_assumption

theorem disableItem_keeps {s0 s : State} (h : Keeps s0 s) (p a q i) : Keeps s0 (disableItem s p a q i) := by
  unfold disableItem
  repeat' first
    | with_reducible assumption
    | (intro _)
    | simp -zeta only [Keeps.upd_iff]
    | (extract_lets +onlyGivenNames a
       refine (fun (_ : Keeps s0 a) => ?_) ?_
       clear_value a
       rotate_left
       dsimp only [a]
       clear a)
    | (extract_lets +onlyGivenNames a
       clear_value a)
    | with_reducible apply failWith_keeps
    | with_reducible apply mapItem_keeps
    | split
    | (with_reducible refine Keeps.upd ?_)

theorem skipItem_keeps {s0 s : State} (h : Keeps s0 s) (a q i) : Keeps s0 (skipItem s a q i) := by
  unfold skipItem
  repeat' first
    | with_reducible assumption
    | (intro _)
    | simp -zeta only [Keeps.upd_iff]
    | (extract_lets +onlyGivenNames a
       refine (fun (_ : Keeps s0 a) => ?_) ?_
       clear_value a
       rotate_left
       dsimp only [a]
       clear a)
    | (extract_lets +onlyGivenNames a
       clear_value a)
    | with_reducible apply Keeps.ite
    | with_reducible apply mapItem_keeps
    | with_reducible apply traceFlushed_keeps
    | split
    | (with_reducible refine Keeps.upd ?_)

theorem beginDisable_keeps {s0 s : State} (h : Keeps s0 s) (a) : Keeps s0 (beginDisable s a) := by
  unfold beginDisable
  split
  · exact h
  · extract_lets g s1 each
    have h1 : Keeps s0 s1 := setAgent_keeps h _ _
    have he : ∀ {f : State → Nat → Item → State} {x : State}, (∀ x q i, Keeps s0 x → Keeps s0 (f x q i)) →
        Keeps s0 x → Keeps s0 (each x f) :=
      fun hf hx => Keeps.foldl (fun x q hx => Keeps.foldl (fun x i hx => hf x _ i hx) hx) hx
    clear_value s1 each
    refine presentOf_keeps (disableInCtxs_keeps (decideLanes_keeps (endLanes_keeps (Keeps.foldl (fun x c hx => ?_) ?_) _ _ _)) _) _
    · exact sendCancel_keeps hx _ _
    · exact he (fun x q i hx => skipItem_keeps hx _ _ _) (he (fun x q i hx => disableItem_keeps hx _ _ _ _) h1)

theorem disabled__keeps {s0 s : State} (h : Keeps s0 s) (a) : Keeps s0 (disabled_ s a) := by
  unfold disabled_
  repeat' first
    | with_reducible assumption
    | (intro _)
    | simp -zeta only [Keeps.upd_iff]
    | (extract_lets +onlyGivenNames a
       refine (fun (_ : Keeps s0 a) => ?_) ?_
       clear_value a
       rotate_left
       dsimp only [a]
       clear a)
    | (extract_lets +onlyGivenNames a
       clear_value a)
    | with_reducible apply Keeps.ite
    | with_reducible apply setAgent_keeps
    | (with_reducible refine Keeps.upd ?_)

theorem bindWrite_keeps {s0 s : State} (h : Keeps s0 s) (a w) : Keeps s0 (bindWrite s a w) := by
  unfold bindWrite
  repeat' first
    | with_reducible assumption
    | simp -zeta only [Keeps.upd_iff]
    | (extract_lets +onlyGivenNames a
       refine (fun (_ : Keeps s0 a) => ?_) ?_
       clear_value a
       rotate_left
       dsimp only [a]
       clear a)
    | (extract_lets +onlyGivenNames a
       clear_value a)
    | with_reducible apply Keeps.ite
    | with_reducible apply beginDisable_keeps
    | with_reducible apply decideLanes_keeps
    | with_reducible apply put_keeps
    | with_reducible apply raise_keeps
    | with_reducible apply setAgent_keeps
    | (with_reducible refine Keeps.upd ?_)

theorem shareWrite_keeps {s0 s : State} (h : Keeps s0 s) (t word w) : Keeps s0 (shareWrite s t word w) := by
  unfold shareWrite
  repeat' first
    | with_reducible assumption
    | (intro _)
    | (extract_lets +onlyGivenNames a
       refine (fun (_ : Keeps s0 a) => ?_) ?_
       clear_value a
       rotate_left
       dsimp only [a]
       clear a)
    | (extract_lets +onlyGivenNames a
       clear_value a)
    | with_reducible apply Keeps.ite
    | with_reducible apply raise_keeps
    | with_reducible apply wr_keeps
    | with_reducible apply_assumption

theorem cfgWrite_keeps {s0 s : State} (h : Keeps s0 s) (t w) : Keeps s0 (cfgWrite s t w) := by
  unfold cfgWrite
  repeat' first
    | with_reducible assumption
    | with_reducible apply Keeps.ite
    | with_reducible apply raise_keeps
    | with_reducible apply wr_keeps

theorem impWrite_keeps {s0 s : State} (h : Keeps s0 s) (t i w) : Keeps s0 (impWrite s t i w) := by
  unfold impWrite
  repeat' first
    | with_reducible assumption
    | (intro _)
    | (extract_lets +onlyGivenNames a
       refine (fun (_ : Keeps s0 a) => ?_) ?_
       clear_value a
       rotate_left
       dsimp only [a]
       clear a)
    | (extract_lets +onlyGivenNames a
       clear_value a)
    | with_reducible apply Keeps.ite
    | with_reducible apply raise_keeps
    | with_reducible apply wr_keeps

end Sys2Proof.Machine
end

