-- ==== Sys2Proof/Laws/KeepReach.lean ====
section
/-! SUPPORT. What the operations of Machine/Reach.lean keep (Laws/Keeps.lean). -/
set_option linter.tactic.unusedName false
set_option linter.unusedSimpArgs false
namespace Sys2Proof.Machine

theorem flood_keeps {s0 s : State} (h : Keeps s0 s) (n except) : Keeps s0 (flood s n except) := by
  unfold flood
  repeat' first
    | with_reducible assumption
    | (intro _)
    | simp -zeta only [Keeps.upd_iff]
    | (extract_lets +onlyGivenNames a
       refine (fun (_ : Keeps s0 a) => ?_) ?_
       clear_value a
       rotate_left
       dsimp only [a]
       clear a)
    | (extract_lets +onlyGivenNames a
       clear_value a)
    | with_reducible apply setPort_keeps
    | with_reducible apply Keeps.foldl
    | with_reducible apply Keeps.foldl_fst
    | with_reducible apply_assumption
    | (with_reducible refine Keeps.upd ?_)

theorem ownNotice_keeps {s0 s : State} (h : Keeps s0 s) (port code) : Keeps s0 (ownNotice s port code) := by
  unfold ownNotice
  repeat' first
    | with_reducible assumption
    | simp -zeta only [Keeps.upd_iff]
    | (extract_lets +onlyGivenNames a
       refine (fun (_ : Keeps s0 a) => ?_) ?_
       clear_value a
       rotate_left
       dsimp only [a]
       clear a)
    | (extract_lets +onlyGivenNames a
       clear_value a)
    | with_reducible apply flood_keeps
    | (with_reducible refine Keeps.upd ?_)

theorem setAl_keeps {s0 s : State} (h : Keeps s0 s) (st) : Keeps s0 (setAl s st) := by
  unfold setAl
  repeat' first
    | with_reducible assumption
    | with_reducible apply put_keeps

theorem timeLinks_keeps {s0 s : State} (h : Keeps s0 s) : Keeps s0 (timeLinks s) := by
  unfold timeLinks
  repeat' first
    | with_reducible assumption
    | (intro _)
    | simp -zeta only [Keeps.upd_iff]
    | (extract_lets +onlyGivenNames a
       refine (fun (_ : Keeps s0 a) => ?_) ?_
       clear_value a
       rotate_left
       dsimp only [a]
       clear a)
    | (extract_lets +onlyGivenNames a
       clear_value a)
    | with_reducible apply Keeps.ite
    | with_reducible apply setAl_keeps
    | (with_reducible refine Keeps.upd ?_)

theorem setReach_keeps {s0 s : State} (h : Keeps s0 s) (d reach lost) : Keeps s0 (setReach s d reach lost) := by
  unfold setReach
  repeat' first
    | with_reducible assumption
    | with_reducible apply put_keeps

theorem enterReach_keeps {s0 s : State} (h : Keeps s0 s) (d) : Keeps s0 (enterReach s d) := by
  unfold enterReach
  repeat' first
    | with_reducible assumption
    | (intro _)
    | simp -zeta only [Keeps.upd_iff]
    | (extract_lets +onlyGivenNames a
       refine (fun (_ : Keeps s0 a) => ?_) ?_
       clear_value a
       rotate_left
       dsimp only [a]
       clear a)
    | (extract_lets +onlyGivenNames a
       clear_value a)
    | with_reducible apply resync_keeps
    | with_reducible apply setReach_keeps
    | with_reducible apply_assumption
    | (with_reducible refine Keeps.upd ?_)

theorem endLostCmds_keeps {s0 s : State} (h : Keeps s0 s) (d) : Keeps s0 (endLostCmds s d) := by
  unfold endLostCmds
  repeat' first
    | with_reducible assumption
    | (intro _)
    | simp -zeta only [Keeps.upd_iff]
    | with_reducible apply Keeps.ite
    | with_reducible apply failWith_keeps
    | with_reducible apply releasePlace_keeps
    | with_reducible apply Keeps.foldl
    | with_reducible apply Keeps.foldl_fst
    | split
    | with_reducible apply_assumption

theorem endLostParts_keeps {s0 s : State} (h : Keeps s0 s) (d) : Keeps s0 (endLostParts s d) := by
  unfold endLostParts
  repeat' first
    | with_reducible assumption
    | (intro _)
    | simp -zeta only [Keeps.upd_iff]
    | (extract_lets +onlyGivenNames a
       refine (fun (_ : Keeps s0 a) => ?_) ?_
       clear_value a
       rotate_left
       dsimp only [a]
       clear a)
    | (extract_lets +onlyGivenNames a
       clear_value a)
    | with_reducible apply countStage_keeps
    | with_reducible apply gatherReport_keeps
    | with_reducible apply Keeps.foldl
    | with_reducible apply Keeps.foldl_fst
    | split
    | with_reducible apply_assumption

theorem loseDie_keeps {s0 s : State} (h : Keeps s0 s) (d) : Keeps s0 (loseDie s d) := by
  unfold loseDie
  repeat' first
    | with_reducible assumption
    | (intro _)
    | simp -zeta only [Keeps.upd_iff]
    | (extract_lets +onlyGivenNames a
       refine (fun (_ : Keeps s0 a) => ?_) ?_
       clear_value a
       rotate_left
       dsimp only [a]
       clear a)
    | (extract_lets +onlyGivenNames a
       clear_value a)
    | with_reducible apply Keeps.ite
    | with_reducible apply breakLane_keeps
    | with_reducible apply bump_keeps
    | with_reducible apply dropWaiter_keeps
    | with_reducible apply endLostCmds_keeps
    | with_reducible apply endLostParts_keeps
    | with_reducible apply lostInCtxs_keeps
    | with_reducible apply setPort_keeps
    | with_reducible apply setReach_keeps
    | with_reducible apply Keeps.foldl
    | with_reducible apply Keeps.foldl_fst
    | with_reducible apply_assumption
    | (with_reducible refine Keeps.upd ?_)

theorem reachUpdate_keeps {s0 s : State} (h : Keeps s0 s) : Keeps s0 (reachUpdate s) := by
  unfold reachUpdate
  repeat' first
    | with_reducible assumption
    | (intro _)
    | with_reducible apply Keeps.ite
    | with_reducible apply enterReach_keeps
    | with_reducible apply loseDie_keeps
    | with_reducible apply Keeps.foldl
    | with_reducible apply Keeps.foldl_fst
    | with_reducible apply_assumption

theorem linkChanged_keeps {s0 s : State} (h : Keeps s0 s) (d p code) : Keeps s0 (linkChanged s d p code) := by
  unfold linkChanged
  repeat' first
    | with_reducible assumption
    | (intro _)
    | simp -zeta only [Keeps.upd_iff]
    | (extract_lets +onlyGivenNames a
       refine (fun (_ : Keeps s0 a) => ?_) ?_
       clear_value a
       rotate_left
       dsimp only [a]
       clear a)
    | (extract_lets +onlyGivenNames a
       clear_value a)
    | with_reducible apply Keeps.ite
    | with_reducible apply loseDie_keeps
    | with_reducible apply reachUpdate_keeps
    | with_reducible apply timeLinks_keeps
    | with_reducible apply Keeps.foldl
    | with_reducible apply Keeps.foldl_fst
    | with_reducible apply_assumption
    | (with_reducible refine Keeps.upd ?_)

theorem noticeFlit_keeps {s0 s : State} (h : Keeps s0 s) (port n) : Keeps s0 (noticeFlit s port n) := by
  unfold noticeFlit
  repeat' first
    | with_reducible assumption
    | simp -zeta only [Keeps.upd_iff]
    | (extract_lets +onlyGivenNames a
       refine (fun (_ : Keeps s0 a) => ?_) ?_
       clear_value a
       rotate_left
       dsimp only [a]
       clear a)
    | (extract_lets +onlyGivenNames a
       clear_value a)
    | with_reducible apply Keeps.ite
    | with_reducible apply flood_keeps
    | with_reducible apply linkChanged_keeps
    | with_reducible apply reachUpdate_keeps
    | split
    | (with_reducible refine Keeps.upd ?_)

end Sys2Proof.Machine
end

