-- ==== Sys2Proof/Laws/KeepDeckTime.lean ====
section
/-! SUPPORT. What the operations of Machine/DeckTime.lean keep (Laws/Keeps.lean). -/
set_option linter.tactic.unusedName false
set_option linter.unusedSimpArgs false
namespace Sys2Proof.Machine

theorem alignFails_keeps {s0 s : State} (h : Keeps s0 s) : Keeps s0 (alignFails s) := by
  unfold alignFails
  repeat' first
    | with_reducible assumption
    | with_reducible apply raise_keeps
    | with_reducible apply setAl_keeps

theorem reachAligned_keeps {s0 s : State} (h : Keeps s0 s) : Keeps s0 (reachAligned s) := by
  unfold reachAligned
  repeat' first
    | with_reducible assumption
    | simp -zeta only [Keeps.upd_iff]
    | (extract_lets +onlyGivenNames a
       refine (fun (_ : Keeps s0 a) => ?_) ?_
       clear_value a
       rotate_left
       dsimp only [a]
       clear a)
    | (extract_lets +onlyGivenNames a
       clear_value a)
    | with_reducible apply Keeps.ite
    | with_reducible apply ownNotice_keeps
    | with_reducible apply reachUpdate_keeps
    | with_reducible apply setAl_keeps
    | with_reducible apply timeLinks_keeps
    | (with_reducible refine Keeps.upd ?_)

theorem stepTo_keeps {s0 s : State} (h : Keeps s0 s) (t) : Keeps s0 (stepTo s t) := by
  unfold stepTo
  repeat' first
    | with_reducible assumption
    | simp -zeta only [Keeps.upd_iff]
    | (extract_lets +onlyGivenNames a
       refine (fun (_ : Keeps s0 a) => ?_) ?_
       clear_value a
       rotate_left
       dsimp only [a]
       clear a)
    | (extract_lets +onlyGivenNames a
       clear_value a)
    | with_reducible apply put_keeps
    | (with_reducible refine Keeps.upd ?_)

theorem gatherEnd_keeps {s0 s : State} (h : Keeps s0 s) : Keeps s0 (gatherEnd s) := by
  unfold gatherEnd
  repeat' first
    | with_reducible assumption
    | (extract_lets +onlyGivenNames a
       refine (fun (_ : Keeps s0 a) => ?_) ?_
       clear_value a
       rotate_left
       dsimp only [a]
       clear a)
    | (extract_lets +onlyGivenNames a
       clear_value a)
    | with_reducible apply reachAligned_keeps
    | with_reducible apply stepTo_keeps

theorem doAlign_keeps {s0 s : State} (h : Keeps s0 s) (tx) : Keeps s0 (doAlign s tx) := by
  unfold doAlign
  repeat' first
    | with_reducible assumption
    | simp -zeta only [Keeps.upd_iff]
    | (extract_lets +onlyGivenNames a
       refine (fun (_ : Keeps s0 a) => ?_) ?_
       clear_value a
       rotate_left
       dsimp only [a]
       clear a)
    | (extract_lets +onlyGivenNames a
       clear_value a)
    | with_reducible apply Keeps.ite
    | with_reducible apply gatherEnd_keeps
    | with_reducible apply reachAligned_keeps
    | with_reducible apply sendOn_keeps
    | with_reducible apply setAl_keeps
    | (with_reducible refine Keeps.upd ?_)

theorem coarseAt_keeps {s0 s : State} (h : Keeps s0 s) (h' m) : Keeps s0 (coarseAt s h' m) := by
  unfold coarseAt
  repeat' first
    | with_reducible assumption
    | (intro _)
    | simp -zeta only [Keeps.upd_iff]
    | (extract_lets +onlyGivenNames a
       refine (fun (_ : Keeps s0 a) => ?_) ?_
       clear_value a
       rotate_left
       dsimp only [a]
       clear a)
    | (extract_lets +onlyGivenNames a
       clear_value a)
    | with_reducible apply Keeps.ite
    | with_reducible apply gatherEnd_keeps
    | with_reducible apply put_keeps
    | (with_reducible refine Keeps.upd ?_)

theorem glimPasses_keeps {s0 s : State} (h : Keeps s0 s) : Keeps s0 (glimPasses s) := by
  unfold glimPasses
  repeat' first
    | with_reducible assumption
    | with_reducible apply Keeps.ite
    | with_reducible apply gatherEnd_keeps

theorem alimPasses_keeps {s0 s : State} (h : Keeps s0 s) : Keeps s0 (alimPasses s) := by
  unfold alimPasses
  repeat' first
    | with_reducible assumption
    | (extract_lets +onlyGivenNames a
       refine (fun (_ : Keeps s0 a) => ?_) ?_
       clear_value a
       rotate_left
       dsimp only [a]
       clear a)
    | (extract_lets +onlyGivenNames a
       clear_value a)
    | with_reducible apply Keeps.ite
    | with_reducible apply alignFails_keeps

theorem doExchange_keeps {s0 s : State} (h : Keeps s0 s) (tx) : Keeps s0 (doExchange s tx) := by
  unfold doExchange
  repeat' first
    | with_reducible assumption
    | simp -zeta only [Keeps.upd_iff]
    | (extract_lets +onlyGivenNames a
       refine (fun (_ : Keeps s0 a) => ?_) ?_
       clear_value a
       rotate_left
       dsimp only [a]
       clear a)
    | (extract_lets +onlyGivenNames a
       clear_value a)
    | with_reducible apply Keeps.ite
    | with_reducible apply sendOn_keeps
    | split
    | (with_reducible refine Keeps.upd ?_)

theorem answerReq_keeps {s0 s : State} (h : Keeps s0 s) (port h' m rx tx) : Keeps s0 (answerReq s port h' m rx tx) := by
  unfold answerReq
  repeat' first
    | with_reducible assumption
    | (extract_lets +onlyGivenNames a
       refine (fun (_ : Keeps s0 a) => ?_) ?_
       clear_value a
       rotate_left
       dsimp only [a]
       clear a)
    | (extract_lets +onlyGivenNames a
       clear_value a)
    | with_reducible apply sendOn_keeps

theorem setSlew_keeps {s0 s : State} (h : Keeps s0 s) (x) : Keeps s0 (setSlew s x) := by
  unfold setSlew
  repeat' first
    | with_reducible assumption
    | simp -zeta only [Keeps.upd_iff]
    | (with_reducible refine Keeps.upd ?_)

theorem driftCheck_keeps {s0 s : State} (h : Keeps s0 s) (theta) : Keeps s0 (driftCheck s theta) := by
  unfold driftCheck
  repeat' first
    | with_reducible assumption
    | (extract_lets +onlyGivenNames a
       refine (fun (_ : Keeps s0 a) => ?_) ?_
       clear_value a
       rotate_left
       dsimp only [a]
       clear a)
    | (extract_lets +onlyGivenNames a
       clear_value a)
    | with_reducible apply Keeps.ite
    | with_reducible apply bump_keeps
    | with_reducible apply put_keeps
    | with_reducible apply raiseAll_keeps

theorem respAt_keeps {s0 s : State} (h : Keeps s0 s) (port m rx) : Keeps s0 (respAt s port m rx) := by
  unfold respAt
  repeat' first
    | with_reducible assumption
    | simp -zeta only [Keeps.upd_iff]
    | (extract_lets +onlyGivenNames a
       refine (fun (_ : Keeps s0 a) => ?_) ?_
       clear_value a
       rotate_left
       dsimp only [a]
       clear a)
    | (extract_lets +onlyGivenNames a
       clear_value a)
    | with_reducible apply Keeps.ite
    | with_reducible apply alignFails_keeps
    | with_reducible apply bump_keeps
    | with_reducible apply driftCheck_keeps
    | with_reducible apply put_keeps
    | with_reducible apply reachAligned_keeps
    | with_reducible apply setAl_keeps
    | with_reducible apply setSlew_keeps
    | with_reducible apply stepTo_keeps
    | (with_reducible refine Keeps.upd ?_)

theorem slewStep__keeps {s0 s : State} (h : Keeps s0 s) : Keeps s0 (slewStep_ s) := by
  unfold slewStep_
  repeat' first
    | with_reducible assumption
    | simp -zeta only [Keeps.upd_iff]
    | (extract_lets +onlyGivenNames a
       refine (fun (_ : Keeps s0 a) => ?_) ?_
       clear_value a
       rotate_left
       dsimp only [a]
       clear a)
    | (extract_lets +onlyGivenNames a
       clear_value a)
    | with_reducible apply Keeps.ite
    | (with_reducible refine Keeps.upd ?_)

theorem lockAt_keeps {s0 s : State} (h : Keeps s0 s) : Keeps s0 (lockAt s) := by
  unfold lockAt
  repeat' first
    | with_reducible assumption
    | with_reducible apply Keeps.ite
    | with_reducible apply put_keeps

theorem refLoss_keeps {s0 s : State} (h : Keeps s0 s) : Keeps s0 (refLoss s) := by
  unfold refLoss
  repeat' first
    | with_reducible assumption
    | with_reducible apply Keeps.ite
    | with_reducible apply put_keeps
    | with_reducible apply raise_keeps

theorem refBack_keeps {s0 s : State} (h : Keeps s0 s) : Keeps s0 (refBack s) := by
  unfold refBack
  repeat' first
    | with_reducible assumption
    | with_reducible apply put_keeps

theorem beginMeasure_keeps {s0 s : State} (h : Keeps s0 s) (which) : Keeps s0 (beginMeasure s which) := by
  unfold beginMeasure
  repeat' first
    | with_reducible assumption
    | simp -zeta only [Keeps.upd_iff]
    | with_reducible apply put_keeps
    | (with_reducible refine Keeps.upd ?_)

theorem changeOfs_keeps {s0 s : State} (h : Keeps s0 s) (p valid o) : Keeps s0 (changeOfs s p valid o) := by
  unfold changeOfs
  repeat' first
    | with_reducible assumption
    | simp -zeta only [Keeps.upd_iff]
    | (extract_lets +onlyGivenNames a
       refine (fun (_ : Keeps s0 a) => ?_) ?_
       clear_value a
       rotate_left
       dsimp only [a]
       clear a)
    | (extract_lets +onlyGivenNames a
       clear_value a)
    | with_reducible apply Keeps.ite
    | with_reducible apply put_keeps
    | with_reducible apply setPier_keeps
    | (with_reducible refine Keeps.upd ?_)

theorem pierFails_keeps {s0 s : State} (h : Keeps s0 s) (p) : Keeps s0 (pierFails s p) := by
  unfold pierFails
  repeat' first
    | with_reducible assumption
    | simp -zeta only [Keeps.upd_iff]
    | with_reducible apply changeOfs_keeps
    | with_reducible apply raise_keeps
    | (with_reducible refine Keeps.upd ?_)

theorem measureEnds_keeps {s0 s : State} (h : Keeps s0 s) (probes) : Keeps s0 (measureEnds s probes) := by
  unfold measureEnds
  repeat' first
    | with_reducible assumption
    | (intro _)
    | simp -zeta only [Keeps.upd_iff]
    | (extract_lets +onlyGivenNames a
       refine (fun (_ : Keeps s0 a) => ?_) ?_
       clear_value a
       rotate_left
       dsimp only [a]
       clear a)
    | (extract_lets +onlyGivenNames a
       clear_value a)
    | with_reducible apply Keeps.ite
    | with_reducible apply changeOfs_keeps
    | with_reducible apply pierFails_keeps
    | with_reducible apply put_keeps
    | with_reducible apply Keeps.foldl
    | with_reducible apply Keeps.foldl_fst
    | split
    | with_reducible apply_assumption
    | (with_reducible refine Keeps.upd ?_)

theorem measureFails_keeps {s0 s : State} (h : Keeps s0 s) (p) : Keeps s0 (measureFails s p) := by
  unfold measureFails
  repeat' first
    | with_reducible assumption
    | simp -zeta only [Keeps.upd_iff]
    | with_reducible apply Keeps.ite
    | with_reducible apply pierFails_keeps
    | split

theorem pierRestarts_keeps {s0 s : State} (h : Keeps s0 s) (p) : Keeps s0 (pierRestarts s p) := by
  unfold pierRestarts
  repeat' first
    | with_reducible assumption
    | simp -zeta only [Keeps.upd_iff]
    | with_reducible apply present_keeps
    | with_reducible apply setPier_keeps
    | split
    | (with_reducible refine Keeps.upd ?_)

end Sys2Proof.Machine
end

