-- ==== Sys2Proof/Laws/KeepViaduct.lean ====
section
/-! SUPPORT. What the operations of Machine/Viaduct.lean keep (Laws/Keeps.lean). -/
set_option linter.tactic.unusedName false
set_option linter.unusedSimpArgs false
namespace Sys2Proof.Machine

theorem partFails_keeps {s0 s : State} (h : Keeps s0 s) (n p st) : Keeps s0 (partFails s n p st) := by
  unfold partFails
  repeat' first
    | with_reducible assumption
    | (intro _)
    | (extract_lets +onlyGivenNames a
       refine (fun (_ : Keeps s0 a) => ?_) ?_
       clear_value a
       rotate_left
       dsimp only [a]
       clear a)
    | (extract_lets +onlyGivenNames a
       clear_value a)
    | with_reducible apply countStage_keeps
    | with_reducible apply sendFrom_keeps
    | with_reducible apply Keeps.foldl
    | with_reducible apply Keeps.foldl_fst
    | with_reducible apply_assumption

theorem forwardCmd_keeps {s0 s : State} (h : Keeps s0 s) (n m) : Keeps s0 (forwardCmd s n m) := by
  unfold forwardCmd
  repeat' first
    | with_reducible assumption
    | simp -zeta only [Keeps.upd_iff]
    | (extract_lets +onlyGivenNames a
       refine (fun (_ : Keeps s0 a) => ?_) ?_
       clear_value a
       rotate_left
       dsimp only [a]
       clear a)
    | (extract_lets +onlyGivenNames a
       clear_value a)
    | with_reducible apply newTag_keeps
    | with_reducible apply startPart_keeps
    | with_reducible apply toBank_keeps
    | split
    | (with_reducible refine Keeps.fst (by assumption) ?_)

theorem pump_keeps {s0 s : State} (h : Keeps s0 s) (n k f) : Keeps s0 (pump n k f s) := by
  induction f generalizing s with
  | zero => exact h
  | succ f ih =>
    unfold pump
    extract_lets x
    split
    · exact h
    · exact ih (forwardCmd_keeps (setPort_keeps h _ _) _ _)

theorem pumpAll_keeps {s0 s : State} (h : Keeps s0 s) (n k) : Keeps s0 (pumpAll s n k) := by
  unfold pumpAll
  repeat' first
    | with_reducible assumption
    | with_reducible apply pump_keeps

theorem refuseBack_keeps {s0 s : State} (h : Keeps s0 s) (n e' c reason) : Keeps s0 (refuseBack s n e' c reason) := by
  unfold refuseBack
  repeat' first
    | with_reducible assumption
    | simp -zeta only [Keeps.upd_iff]
    | (extract_lets +onlyGivenNames a
       refine (fun (_ : Keeps s0 a) => ?_) ?_
       clear_value a
       rotate_left
       dsimp only [a]
       clear a)
    | (extract_lets +onlyGivenNames a
       clear_value a)
    | with_reducible apply Keeps.ite
    | with_reducible apply pumpAll_keeps
    | with_reducible apply sendFrom_keeps
    | with_reducible apply setPort_keeps
    | (with_reducible refine Keeps.upd ?_)

theorem portCmd_keeps {s0 s : State} (h : Keeps s0 s) (n e' c dw) : Keeps s0 (portCmd s n e' c dw) := by
  unfold portCmd
  repeat' first
    | with_reducible assumption
    | (intro _)
    | simp -zeta only [Keeps.upd_iff]
    | (extract_lets +onlyGivenNames a
       refine (fun (_ : Keeps s0 a) => ?_) ?_
       clear_value a
       rotate_left
       dsimp only [a]
       clear a)
    | (extract_lets +onlyGivenNames a
       clear_value a)
    | with_reducible apply Keeps.ite
    | with_reducible apply bump_keeps
    | with_reducible apply countEv_keeps
    | with_reducible apply forwardCmd_keeps
    | with_reducible apply hwm_keeps
    | with_reducible apply pumpAll_keeps
    | with_reducible apply refuseBack_keeps
    | with_reducible apply setPort_keeps
    | (with_reducible refine Keeps.upd ?_)

theorem recvCmd_keeps {s0 s : State} (h : Keeps s0 s) (n e' c dw) : Keeps s0 (recvCmd s n e' c dw) := by
  unfold recvCmd
  repeat' first
    | with_reducible assumption
    | simp -zeta only [Keeps.upd_iff]
    | with_reducible apply Keeps.ite
    | with_reducible apply failPlain_keeps
    | with_reducible apply partFails_keeps
    | with_reducible apply portCmd_keeps
    | with_reducible apply refuseBack_keeps
    | split

theorem dwcMoves_keeps {s0 s : State} (h : Keeps s0 s) (die dwc) : Keeps s0 (dwcMoves s die dwc) := by
  unfold dwcMoves
  repeat' first
    | with_reducible assumption
    | with_reducible apply Keeps.ite
    | with_reducible apply put_keeps

theorem holdRelease__keeps {s0 s : State} (h : Keeps s0 s) (n i dwc) : Keeps s0 (holdRelease_ s n i dwc) := by
  unfold holdRelease_
  repeat' first
    | with_reducible assumption
    | simp -zeta only [Keeps.upd_iff]
    | (extract_lets +onlyGivenNames a
       refine (fun (_ : Keeps s0 a) => ?_) ?_
       clear_value a
       rotate_left
       dsimp only [a]
       clear a)
    | (extract_lets +onlyGivenNames a
       clear_value a)
    | with_reducible apply Keeps.ite
    | with_reducible apply dwcMoves_keeps
    | with_reducible apply forwardCmd_keeps
    | with_reducible apply pumpAll_keeps
    | with_reducible apply setPort_keeps
    | split
    | (with_reducible refine Keeps.upd ?_)

theorem markLate_keeps {s0 s : State} (h : Keeps s0 s) (t n) : Keeps s0 (markLate s t n) := by
  unfold markLate
  repeat' first
    | with_reducible assumption
    | (intro _)
    | simp -zeta only [Keeps.upd_iff]
    | (extract_lets +onlyGivenNames a
       refine (fun (_ : Keeps s0 a) => ?_) ?_
       clear_value a
       rotate_left
       dsimp only [a]
       clear a)
    | (extract_lets +onlyGivenNames a
       clear_value a)
    | with_reducible apply Keeps.ite
    | with_reducible apply setSlot_keeps
    | split
    | (with_reducible refine Keeps.upd ?_)

theorem holdDiscard__keeps {s0 s : State} (h : Keeps s0 s) (n i) : Keeps s0 (holdDiscard_ s n i) := by
  unfold holdDiscard_
  repeat' first
    | with_reducible assumption
    | (intro _)
    | simp -zeta only [Keeps.upd_iff]
    | (extract_lets +onlyGivenNames a
       refine (fun (_ : Keeps s0 a) => ?_) ?_
       clear_value a
       rotate_left
       dsimp only [a]
       clear a)
    | (extract_lets +onlyGivenNames a
       clear_value a)
    | with_reducible apply Keeps.ite
    | with_reducible apply bump_keeps
    | with_reducible apply countEv_keeps
    | with_reducible apply failPlain_keeps
    | with_reducible apply forwardCmd_keeps
    | with_reducible apply markLate_keeps
    | with_reducible apply partFails_keeps
    | with_reducible apply pumpAll_keeps
    | with_reducible apply raise_keeps
    | with_reducible apply setPort_keeps
    | with_reducible apply Keeps.foldl
    | with_reducible apply Keeps.foldl_fst
    | split
    | with_reducible apply_assumption
    | (with_reducible refine Keeps.upd ?_)

theorem endHeldAt_keeps {s0 s : State} (h : Keeps s0 s) (n i c st code die) : Keeps s0 (endHeldAt s n i c st code die) := by
  unfold endHeldAt
  repeat' first
    | with_reducible assumption
    | simp -zeta only [Keeps.upd_iff]
    | (extract_lets +onlyGivenNames a
       refine (fun (_ : Keeps s0 a) => ?_) ?_
       clear_value a
       rotate_left
       dsimp only [a]
       clear a)
    | (extract_lets +onlyGivenNames a
       clear_value a)
    | with_reducible apply failFrom_keeps
    | with_reducible apply pumpAll_keeps
    | with_reducible apply setPort_keeps
    | (with_reducible refine Keeps.upd ?_)

theorem expireAny_keeps {s0 s : State} (h : Keeps s0 s) (die a q) : Keeps s0 (expireAny s die a q) := by
  unfold expireAny
  repeat' first
    | with_reducible assumption
    | simp -zeta only [Keeps.upd_iff]
    | with_reducible apply Keeps.ite
    | with_reducible apply countExpiry_keeps
    | with_reducible apply endHeldAt_keeps
    | with_reducible apply expire_keeps
    | with_reducible apply holdDiscard__keeps
    | split

theorem cancelAny_keeps {s0 s : State} (h : Keeps s0 s) (die a q code) : Keeps s0 (cancelAny s die a q code) := by
  unfold cancelAny
  repeat' first
    | with_reducible assumption
    | simp -zeta only [Keeps.upd_iff]
    | with_reducible apply Keeps.ite
    | with_reducible apply cancelAt_keeps
    | with_reducible apply endHeldAt_keeps
    | split

theorem staleReturn_keeps {s0 s : State} (h : Keeps s0 s) (h' c) : Keeps s0 (staleReturn s h' c) := by
  unfold staleReturn
  repeat' first
    | with_reducible assumption
    | simp -zeta only [Keeps.upd_iff]
    | (extract_lets +onlyGivenNames a
       refine (fun (_ : Keeps s0 a) => ?_) ?_
       clear_value a
       rotate_left
       dsimp only [a]
       clear a)
    | (extract_lets +onlyGivenNames a
       clear_value a)
    | with_reducible apply skipItem_keeps
    | with_reducible apply staleDrop_keeps
    | split

theorem recvReply_keeps {s0 s : State} (h : Keeps s0 s) (h' c r) : Keeps s0 (recvReply s h' c r) := by
  unfold recvReply
  repeat' first
    | with_reducible assumption
    | simp -zeta only [Keeps.upd_iff]
    | with_reducible apply Keeps.ite
    | with_reducible apply releasePlace_keeps
    | with_reducible apply settle_keeps
    | with_reducible apply staleReturn_keeps
    | split

theorem recvPreport_keeps {s0 s : State} (h : Keeps s0 s) (h' c p) : Keeps s0 (recvPreport s h' c p) := by
  unfold recvPreport
  repeat' first
    | with_reducible assumption
    | (intro _)
    | simp -zeta only [Keeps.upd_iff]
    | (extract_lets +onlyGivenNames a
       refine (fun (_ : Keeps s0 a) => ?_) ?_
       clear_value a
       rotate_left
       dsimp only [a]
       clear a)
    | (extract_lets +onlyGivenNames a
       clear_value a)
    | with_reducible apply Keeps.ite
    | with_reducible apply countEv_keeps
    | with_reducible apply freeCredit_keeps
    | with_reducible apply gatherReport_keeps
    | with_reducible apply raise_keeps
    | with_reducible apply staleDrop_keeps
    | split

theorem recvRefuse_keeps {s0 s : State} (h : Keeps s0 s) (n h' c reason) : Keeps s0 (recvRefuse s n h' c reason) := by
  unfold recvRefuse
  repeat' first
    | with_reducible assumption
    | (intro _)
    | simp -zeta only [Keeps.upd_iff]
    | with_reducible apply Keeps.ite
    | with_reducible apply raise_keeps
    | with_reducible apply refused_keeps
    | with_reducible apply releasePlace_keeps
    | with_reducible apply staleDrop_keeps
    | with_reducible apply timeRead_keeps
    | with_reducible apply updGather_keeps
    | split
    | (with_reducible refine Keeps.upd ?_)

theorem recvMrec_keeps {s0 s : State} (h : Keeps s0 s) (n h' m) : Keeps s0 (recvMrec s n h' m) := by
  unfold recvMrec
  repeat' first
    | with_reducible assumption
    | (intro _)
    | simp -zeta only [Keeps.upd_iff]
    | (extract_lets +onlyGivenNames a
       refine (fun (_ : Keeps s0 a) => ?_) ?_
       clear_value a
       rotate_left
       dsimp only [a]
       clear a)
    | (extract_lets +onlyGivenNames a
       refine (fun (_ : ∀ x b, Keeps s0 x → Keeps s0 (a x b)) => ?_) ?_
       clear_value a
       rotate_left
       dsimp only [a]
       clear a)
    | (extract_lets +onlyGivenNames a
       clear_value a)
    | with_reducible apply Keeps.ite
    | with_reducible apply crossed_keeps
    | with_reducible apply imgWrite_keeps
    | with_reducible apply readSlot_keeps
    | with_reducible apply sendOn_keeps
    | with_reducible apply setMem64_keeps
    | with_reducible apply setSlot_keeps
    | with_reducible apply staleDrop_keeps
    | with_reducible apply writeSlotChk_keeps
    | split
    | with_reducible apply_assumption
    | (with_reducible refine Keeps.upd ?_)

theorem passAgain_keeps {s0 s : State} (h : Keeps s0 s) (key) : Keeps s0 (passAgain s key) := by
  unfold passAgain
  repeat' first
    | with_reducible assumption
    | with_reducible apply drainInq_keeps
    | with_reducible apply runPass_keeps

theorem mirrorRoom_keeps {s0 s : State} (h : Keeps s0 s) (slice) : Keeps s0 (mirrorRoom s slice) := by
  unfold mirrorRoom
  repeat' first
    | with_reducible assumption
    | (intro _)
    | (extract_lets +onlyGivenNames a
       refine (fun (_ : Keeps s0 a) => ?_) ?_
       clear_value a
       rotate_left
       dsimp only [a]
       clear a)
    | (extract_lets +onlyGivenNames a
       clear_value a)
    | with_reducible apply drainGirder_keeps
    | with_reducible apply passAgain_keeps
    | with_reducible apply Keeps.foldl
    | with_reducible apply Keeps.foldl_fst
    | with_reducible apply_assumption

theorem mirrorEnds_keeps {s0 s : State} (h : Keeps s0 s) (m ok) : Keeps s0 (mirrorEnds s m ok) := by
  unfold mirrorEnds
  repeat' first
    | with_reducible assumption
    | (extract_lets +onlyGivenNames a
       refine (fun (_ : Keeps s0 a) => ?_) ?_
       clear_value a
       rotate_left
       dsimp only [a]
       clear a)
    | (extract_lets +onlyGivenNames a
       clear_value a)
    | with_reducible apply Keeps.ite
    | with_reducible apply deliverHeld_keeps
    | with_reducible apply mirrorRoom_keeps
    | with_reducible apply passAgain_keeps

theorem poisonPrimary_keeps {s0 s : State} (h : Keeps s0 s) (key) : Keeps s0 (poisonPrimary s key) := by
  unfold poisonPrimary
  repeat' first
    | with_reducible assumption
    | simp -zeta only [Keeps.upd_iff]
    | with_reducible apply Keeps.ite
    | with_reducible apply imgPut_keeps
    | with_reducible apply setSlot_keeps
    | with_reducible apply writeSlotChk_keeps
    | split
    | (with_reducible refine Keeps.upd ?_)

theorem recvMack_keeps {s0 s : State} (h : Keeps s0 s) (n h' serial ok) : Keeps s0 (recvMack s n h' serial ok) := by
  unfold recvMack
  repeat' first
    | with_reducible assumption
    | (intro _)
    | simp -zeta only [Keeps.upd_iff]
    | (extract_lets +onlyGivenNames a
       refine (fun (_ : Keeps s0 a) => ?_) ?_
       clear_value a
       rotate_left
       dsimp only [a]
       clear a)
    | (extract_lets +onlyGivenNames a
       clear_value a)
    | with_reducible apply Keeps.ite
    | with_reducible apply bump_keeps
    | with_reducible apply mirrorEnds_keeps
    | with_reducible apply poisonPrimary_keeps
    | with_reducible apply raise_keeps
    | with_reducible apply staleDrop_keeps
    | split
    | (with_reducible refine Keeps.upd ?_)

theorem mirrorBreak_keeps {s0 s : State} (h : Keeps s0 s) (n hit) : Keeps s0 (mirrorBreak s n hit) := by
  unfold mirrorBreak
  repeat' first
    | with_reducible assumption
    | (intro _)
    | simp -zeta only [Keeps.upd_iff]
    | (extract_lets +onlyGivenNames a
       refine (fun (_ : Keeps s0 a) => ?_) ?_
       clear_value a
       rotate_left
       dsimp only [a]
       clear a)
    | (extract_lets +onlyGivenNames a
       clear_value a)
    | with_reducible apply Keeps.ite
    | with_reducible apply bump_keeps
    | with_reducible apply mirrorEnds_keeps
    | with_reducible apply mirrorRoom_keeps
    | with_reducible apply put_keeps
    | with_reducible apply Keeps.foldl
    | with_reducible apply Keeps.foldl_fst
    | with_reducible apply_assumption
    | (with_reducible refine Keeps.upd ?_)

theorem portLost_keeps {s0 s : State} (h : Keeps s0 s) (n evs) : Keeps s0 (portLost s n evs) := by
  unfold portLost
  repeat' first
    | with_reducible assumption
    | (extract_lets +onlyGivenNames a
       refine (fun (_ : Keeps s0 a) => ?_) ?_
       clear_value a
       rotate_left
       dsimp only [a]
       clear a)
    | (extract_lets +onlyGivenNames a
       clear_value a)
    | with_reducible apply Keeps.ite
    | with_reducible apply mirrorBreak_keeps
    | with_reducible apply raiseAll_keeps

theorem degradedMsg_keeps {s0 s : State} (h : Keeps s0 s) (n h' m) : KeepsO s0 (degradedMsg s n h' m) := by
  unfold degradedMsg
  repeat' first
    | with_reducible assumption
    | (intro _)
    | simp -zeta only [Keeps.upd_iff]
    | (extract_lets +onlyGivenNames a
       refine (fun (_ : Keeps s0 a) => ?_) ?_
       clear_value a
       rotate_left
       dsimp only [a]
       clear a)
    | (extract_lets +onlyGivenNames a
       refine (fun (_ : ∀ b c, Keeps s0 (a b c)) => ?_) ?_
       clear_value a
       rotate_left
       dsimp only [a]
       clear a)
    | (extract_lets +onlyGivenNames a
       clear_value a)
    | with_reducible exact KeepsO.none
    | with_reducible apply KeepsO.some
    | with_reducible apply KeepsO.ite
    | with_reducible apply Keeps.ite
    | with_reducible apply sendFrom_keeps
    | split
    | with_reducible apply_assumption

theorem atUnit_keeps {s0 s : State} (h : Keeps s0 s) (n h' m) : Keeps s0 (atUnit s n h' m) := by
  unfold atUnit
  repeat' first
    | with_reducible assumption
    | simp -zeta only [Keeps.upd_iff]
    | with_reducible apply answerReq_keeps
    | with_reducible apply bankFrame_keeps
    | with_reducible apply cabortAt_keeps
    | with_reducible apply cancelAny_keeps
    | with_reducible apply ccloseAt_keeps
    | with_reducible apply coarseAt_keeps
    | with_reducible apply cpartAt_keeps
    | with_reducible apply cresAt_keeps
    | with_reducible apply epochNotice_keeps
    | with_reducible apply lcompAt_keeps
    | with_reducible apply recvCmd_keeps
    | with_reducible apply recvMack_keeps
    | with_reducible apply recvMrec_keeps
    | with_reducible apply recvPreport_keeps
    | with_reducible apply recvRefuse_keeps
    | with_reducible apply recvReply_keeps
    | with_reducible apply respAt_keeps
    | with_reducible apply wireAt_keeps
    | split

theorem segmentBad_keeps {s0 s : State} (h : Keeps s0 s) (h' g) : Keeps s0 (segmentBad s h' g) := by
  unfold segmentBad
  repeat' first
    | with_reducible assumption
    | simp -zeta only [Keeps.upd_iff]
    | with_reducible apply Keeps.ite
    | with_reducible apply abortHere_keeps
    | split

theorem atUnitBad_keeps {s0 s : State} (h : Keeps s0 s) (n h' m) : Keeps s0 (atUnitBad s n h' m) := by
  unfold atUnitBad
  repeat' first
    | with_reducible assumption
    | simp -zeta only [Keeps.upd_iff]
    | with_reducible apply atUnit_keeps
    | with_reducible apply recvPreport_keeps
    | with_reducible apply recvReply_keeps
    | with_reducible apply segmentBad_keeps
    | split
    | (with_reducible refine Keeps.upd ?_)

theorem actOn_keeps {s0 s : State} (h : Keeps s0 s) (n h' m) : Keeps s0 (actOn s n h' m) := by
  unfold actOn
  repeat' first
    | with_reducible assumption
    | simp -zeta only [Keeps.upd_iff]
    | with_reducible apply atUnit_keeps
    | with_reducible apply atUnitBad_keeps
    | with_reducible apply degradedMsg_keeps
    | with_reducible apply girderPass_keeps
    | split
    | with_reducible apply Keeps.getD
    | with_reducible refine KeepsO.of_eq (by assumption) (degradedMsg_keeps ?_ _ _ _)
    | (with_reducible refine Keeps.fst (by assumption) ?_)

theorem relay_keeps {s0 s : State} (h : Keeps s0 s) (n p h' m) : Keeps s0 (relay s n p h' m) := by
  unfold relay
  repeat' first
    | with_reducible assumption
    | (intro _)
    | with_reducible apply crossed_keeps
    | with_reducible apply sendOn_keeps

theorem onward_keeps {s0 s : State} (h : Keeps s0 s) (n h' m) : Keeps s0 (onward s n h' m) := by
  unfold onward
  repeat' first
    | with_reducible assumption
    | simp -zeta only [Keeps.upd_iff]
    | with_reducible apply Keeps.ite
    | with_reducible apply actOn_keeps
    | with_reducible apply relay_keeps
    | split

theorem takeRaw_keeps {s0 s : State} (h : Keeps s0 s) (n m) : Keeps s0 (takeRaw s n m) := by
  unfold takeRaw
  repeat' first
    | with_reducible assumption
    | (intro _)
    | simp -zeta only [Keeps.upd_iff]
    | (extract_lets +onlyGivenNames a
       refine (fun (_ : Keeps s0 a) => ?_) ?_
       clear_value a
       rotate_left
       dsimp only [a]
       clear a)
    | (extract_lets +onlyGivenNames a
       clear_value a)
    | with_reducible apply setPort_keeps
    | split
    | (with_reducible refine Keeps.upd ?_)

theorem bufRead_keeps {s0 s : State} (h : Keeps s0 s) (n target word) : Keeps s0 (bufRead s n target word).1 := by
  unfold bufRead
  repeat' first
    | with_reducible assumption
    | simp -zeta only [Keeps.upd_iff]
    | (extract_lets +onlyGivenNames a
       refine (fun (_ : Keeps s0 a) => ?_) ?_
       clear_value a
       rotate_left
       dsimp only [a]
       clear a)
    | (extract_lets +onlyGivenNames a
       clear_value a)
    | with_reducible apply chkRead_keeps
    | with_reducible apply raise_keeps
    | split
    | (with_reducible refine Keeps.fst (by assumption) ?_)

theorem capFull_keeps {s0 s : State} (h : Keeps s0 s) (n) : Keeps s0 (capFull s n) := by
  unfold capFull
  repeat' first
    | with_reducible assumption
    | with_reducible apply put_keeps
    | with_reducible apply raise_keeps

theorem capture_keeps {s0 s : State} (h : Keeps s0 s) (n h' m) : Keeps s0 (capture s n h' m) := by
  unfold capture
  repeat' first
    | with_reducible assumption
    | simp -zeta only [Keeps.upd_iff]
    | (extract_lets +onlyGivenNames a
       refine (fun (_ : Keeps s0 a) => ?_) ?_
       clear_value a
       rotate_left
       dsimp only [a]
       clear a)
    | (extract_lets +onlyGivenNames a
       clear_value a)
    | with_reducible apply Keeps.ite
    | with_reducible apply capFull_keeps
    | with_reducible apply chkWrite_keeps
    | with_reducible apply put_keeps
    | with_reducible apply setPort_keeps
    | with_reducible apply takeRaw_keeps
    | (with_reducible refine Keeps.upd ?_)

theorem recvMsg_keeps {s0 s : State} (h : Keeps s0 s) (n h' m) : Keeps s0 (recvMsg s n h' m) := by
  unfold recvMsg
  repeat' first
    | with_reducible assumption
    | (extract_lets +onlyGivenNames a
       refine (fun (_ : Keeps s0 a) => ?_) ?_
       clear_value a
       rotate_left
       dsimp only [a]
       clear a)
    | (extract_lets +onlyGivenNames a
       clear_value a)
    | with_reducible apply Keeps.ite
    | with_reducible apply bufRead_keeps
    | with_reducible apply capture_keeps
    | with_reducible apply chkWrite_keeps
    | with_reducible apply onward_keeps
    | with_reducible apply takeRaw_keeps
    | split
    | (with_reducible refine Keeps.fst (by assumption) ?_)

theorem replayAll_keeps {s0 s : State} (h : Keeps s0 s) (n target from_ ms) : Keeps s0 (replayAll s n target from_ ms) := by
  unfold replayAll
  repeat' first
    | with_reducible assumption
    | (intro _)
    | (extract_lets +onlyGivenNames a
       refine (fun (_ : Keeps s0 a) => ?_) ?_
       clear_value a
       rotate_left
       dsimp only [a]
       clear a)
    | (extract_lets +onlyGivenNames a
       clear_value a)
    | with_reducible apply Keeps.ite
    | with_reducible apply bufRead_keeps
    | with_reducible apply onward_keeps
    | with_reducible apply Keeps.foldl
    | with_reducible apply Keeps.foldl_fst
    | split
    | with_reducible apply_assumption
    | (with_reducible refine Keeps.fst (by assumption) ?_)

theorem thawPort_keeps {s0 s : State} (h : Keeps s0 s) (n) : Keeps s0 (thawPort s n) := by
  unfold thawPort
  repeat' first
    | with_reducible assumption
    | simp -zeta only [Keeps.upd_iff]
    | (extract_lets +onlyGivenNames a
       refine (fun (_ : Keeps s0 a) => ?_) ?_
       clear_value a
       rotate_left
       dsimp only [a]
       clear a)
    | (extract_lets +onlyGivenNames a
       clear_value a)
    | with_reducible apply replayAll_keeps
    | with_reducible apply setPort_keeps
    | with_reducible apply wr_keeps
    | (with_reducible refine Keeps.upd ?_)

end Sys2Proof.Machine
end

