-- ==== Sys2Proof/Laws/KeepLink.lean ====
section
/-! SUPPORT. What the operations of Machine/Link.lean keep (Laws/Keeps.lean). -/
set_option linter.tactic.unusedName false
set_option linter.unusedSimpArgs false
namespace Sys2Proof.Machine

theorem linkEvent_keeps {s0 s : State} (h : Keeps s0 s) {f : State → State} (hf : ∀ x, Keeps s0 x → Keeps s0 (f x)) : Keeps s0 (linkEvent s f) := by
  unfold linkEvent
  repeat' first
    | with_reducible assumption
    | with_reducible apply Keeps.ite
    | with_reducible apply_assumption

theorem clearLink_keeps {s0 s : State} (h : Keeps s0 s) (n st) : Keeps s0 (clearLink s n st) := by
  unfold clearLink
  repeat' first
    | with_reducible assumption
    | (intro _)
    | simp -zeta only [Keeps.upd_iff]
    | (extract_lets +onlyGivenNames a
       refine (fun (_ : Keeps s0 a) => ?_) ?_
       clear_value a
       rotate_left
       dsimp only [a]
       clear a)
    | (extract_lets +onlyGivenNames a
       clear_value a)
    | with_reducible apply put_keeps
    | with_reducible apply setPort_keeps
    | with_reducible apply Keeps.foldl
    | with_reducible apply Keeps.foldl_fst
    | with_reducible apply_assumption
    | (with_reducible refine Keeps.upd ?_)

theorem announce_keeps {s0 s : State} (h : Keeps s0 s) (n code) : Keeps s0 (announce s n code) := by
  unfold announce
  repeat' first
    | with_reducible assumption
    | with_reducible apply linkChanged_keeps
    | with_reducible apply ownNotice_keeps

theorem toDown_keeps {s0 s : State} (h : Keeps s0 s) (n) : Keeps s0 (toDown s n) := by
  unfold toDown
  repeat' first
    | with_reducible assumption
    | (extract_lets +onlyGivenNames a
       refine (fun (_ : Keeps s0 a) => ?_) ?_
       clear_value a
       rotate_left
       dsimp only [a]
       clear a)
    | (extract_lets +onlyGivenNames a
       clear_value a)
    | with_reducible apply Keeps.ite
    | with_reducible apply announce_keeps
    | with_reducible apply clearLink_keeps
    | with_reducible apply portLost_keeps
    | with_reducible apply put_keeps

theorem toFailed_keeps {s0 s : State} (h : Keeps s0 s) (n) : Keeps s0 (toFailed s n) := by
  unfold toFailed
  repeat' first
    | with_reducible assumption
    | simp -zeta only [Keeps.upd_iff]
    | (extract_lets +onlyGivenNames a
       refine (fun (_ : Keeps s0 a) => ?_) ?_
       clear_value a
       rotate_left
       dsimp only [a]
       clear a)
    | (extract_lets +onlyGivenNames a
       clear_value a)
    | with_reducible apply announce_keeps
    | with_reducible apply portLost_keeps
    | with_reducible apply setPort_keeps
    | (with_reducible refine Keeps.upd ?_)

theorem trainFails_keeps {s0 s : State} (h : Keeps s0 s) (n) : Keeps s0 (trainFails s n) := by
  unfold trainFails
  repeat' first
    | with_reducible assumption
    | simp -zeta only [Keeps.upd_iff]
    | (extract_lets +onlyGivenNames a
       refine (fun (_ : Keeps s0 a) => ?_) ?_
       clear_value a
       rotate_left
       dsimp only [a]
       clear a)
    | (extract_lets +onlyGivenNames a
       clear_value a)
    | with_reducible apply Keeps.ite
    | with_reducible apply setPort_keeps
    | with_reducible apply toDown_keeps
    | with_reducible apply toFailed_keeps
    | (with_reducible refine Keeps.upd ?_)

theorem toTune_keeps {s0 s : State} (h : Keeps s0 s) (n) : Keeps s0 (toTune s n) := by
  unfold toTune
  repeat' first
    | with_reducible assumption
    | simp -zeta only [Keeps.upd_iff]
    | (extract_lets +onlyGivenNames a
       refine (fun (_ : Keeps s0 a) => ?_) ?_
       clear_value a
       rotate_left
       dsimp only [a]
       clear a)
    | (extract_lets +onlyGivenNames a
       clear_value a)
    | with_reducible apply setPort_keeps
    | (with_reducible refine Keeps.upd ?_)

theorem portOn_keeps {s0 s : State} (h : Keeps s0 s) (n) : Keeps s0 (portOn s n) := by
  unfold portOn
  repeat' first
    | with_reducible assumption
    | simp -zeta only [Keeps.upd_iff]
    | (extract_lets +onlyGivenNames a
       refine (fun (_ : Keeps s0 a) => ?_) ?_
       clear_value a
       rotate_left
       dsimp only [a]
       clear a)
    | (extract_lets +onlyGivenNames a
       clear_value a)
    | with_reducible apply openGate_keeps
    | with_reducible apply setPort_keeps
    | with_reducible apply toTune_keeps
    | (with_reducible refine Keeps.upd ?_)

theorem portOff_keeps {s0 s : State} (h : Keeps s0 s) (n) : Keeps s0 (portOff s n) := by
  unfold portOff
  repeat' first
    | with_reducible assumption
    | simp -zeta only [Keeps.upd_iff]
    | (extract_lets +onlyGivenNames a
       refine (fun (_ : Keeps s0 a) => ?_) ?_
       clear_value a
       rotate_left
       dsimp only [a]
       clear a)
    | (extract_lets +onlyGivenNames a
       clear_value a)
    | with_reducible apply Keeps.ite
    | with_reducible apply announce_keeps
    | with_reducible apply clearLink_keeps
    | with_reducible apply setPort_keeps
    | (with_reducible refine Keeps.upd ?_)

theorem portDownBit_keeps {s0 s : State} (h : Keeps s0 s) (n) : Keeps s0 (portDownBit s n) := by
  unfold portDownBit
  repeat' first
    | with_reducible assumption
    | (extract_lets +onlyGivenNames a
       refine (fun (_ : Keeps s0 a) => ?_) ?_
       clear_value a
       rotate_left
       dsimp only [a]
       clear a)
    | (extract_lets +onlyGivenNames a
       clear_value a)
    | with_reducible apply Keeps.ite
    | with_reducible apply put_keeps
    | with_reducible apply toDown_keeps

theorem viaCtlWrite_keeps {s0 s : State} (h : Keeps s0 s) (n w) : Keeps s0 (viaCtlWrite s n w) := by
  unfold viaCtlWrite
  repeat' first
    | with_reducible assumption
    | simp -zeta only [Keeps.upd_iff]
    | (extract_lets +onlyGivenNames a
       refine (fun (_ : Keeps s0 a) => ?_) ?_
       clear_value a
       rotate_left
       dsimp only [a]
       clear a)
    | (extract_lets +onlyGivenNames a
       clear_value a)
    | with_reducible apply Keeps.ite
    | with_reducible apply portDownBit_keeps
    | with_reducible apply portOff_keeps
    | with_reducible apply portOn_keeps
    | with_reducible apply put_keeps
    | split

theorem reholdPasses_keeps {s0 s : State} (h : Keeps s0 s) (n) : Keeps s0 (reholdPasses s n) := by
  unfold reholdPasses
  repeat' first
    | with_reducible assumption
    | with_reducible apply Keeps.ite
    | with_reducible apply toTune_keeps

theorem tuneEnds_keeps {s0 s : State} (h : Keeps s0 s) (n) : Keeps s0 (tuneEnds s n) := by
  unfold tuneEnds
  repeat' first
    | with_reducible assumption
    | simp -zeta only [Keeps.upd_iff]
    | (extract_lets +onlyGivenNames a
       refine (fun (_ : Keeps s0 a) => ?_) ?_
       clear_value a
       rotate_left
       dsimp only [a]
       clear a)
    | (extract_lets +onlyGivenNames a
       clear_value a)
    | with_reducible apply Keeps.ite
    | with_reducible apply setPort_keeps
    | (with_reducible refine Keeps.upd ?_)

theorem trainLimit_keeps {s0 s : State} (h : Keeps s0 s) (n st f unit) : Keeps s0 (trainLimit s n st f unit) := by
  unfold trainLimit
  repeat' first
    | with_reducible assumption
    | with_reducible apply Keeps.ite
    | with_reducible apply trainFails_keeps

theorem alignLimit_keeps {s0 s : State} (h : Keeps s0 s) (n) : Keeps s0 (alignLimit s n) := by
  unfold alignLimit
  repeat' first
    | with_reducible assumption
    | simp -zeta only [Keeps.upd_iff]
    | with_reducible apply Keeps.ite
    | with_reducible apply put_keeps
    | with_reducible apply trainFails_keeps
    | (with_reducible refine Keeps.upd ?_)

theorem alignEnds_keeps {s0 s : State} (h : Keeps s0 s) (n width2 reversed polinv lanebad) : Keeps s0 (alignEnds s n width2 reversed polinv lanebad) := by
  unfold alignEnds
  repeat' first
    | with_reducible assumption
    | simp -zeta only [Keeps.upd_iff]
    | (extract_lets +onlyGivenNames a
       refine (fun (_ : Keeps s0 a) => ?_) ?_
       clear_value a
       rotate_left
       dsimp only [a]
       clear a)
    | (extract_lets +onlyGivenNames a
       clear_value a)
    | with_reducible apply Keeps.ite
    | with_reducible apply put_keeps
    | with_reducible apply raise_keeps
    | with_reducible apply setPort_keeps
    | (with_reducible refine Keeps.upd ?_)

theorem initFlit_keeps {s0 s : State} (h : Keeps s0 s) (n f) : Keeps s0 (initFlit s n f) := by
  unfold initFlit
  repeat' first
    | with_reducible assumption
    | simp -zeta only [Keeps.upd_iff]
    | (extract_lets +onlyGivenNames a
       refine (fun (_ : Keeps s0 a) => ?_) ?_
       clear_value a
       rotate_left
       dsimp only [a]
       clear a)
    | (extract_lets +onlyGivenNames a
       clear_value a)
    | with_reducible apply Keeps.ite
    | with_reducible apply put_keeps
    | with_reducible apply raise_keeps
    | with_reducible apply setPort_keeps
    | with_reducible apply trainFails_keeps
    | (with_reducible refine Keeps.upd ?_)

theorem linkUp__keeps {s0 s : State} (h : Keeps s0 s) (n) : Keeps s0 (linkUp_ s n) := by
  unfold linkUp_
  repeat' first
    | with_reducible assumption
    | (intro _)
    | simp -zeta only [Keeps.upd_iff]
    | (extract_lets +onlyGivenNames a
       refine (fun (_ : Keeps s0 a) => ?_) ?_
       clear_value a
       rotate_left
       dsimp only [a]
       clear a)
    | (extract_lets +onlyGivenNames a
       clear_value a)
    | with_reducible apply Keeps.ite
    | with_reducible apply announce_keeps
    | with_reducible apply put_keeps
    | with_reducible apply setPort_keeps
    | with_reducible apply Keeps.foldl
    | with_reducible apply Keeps.foldl_fst
    | with_reducible apply_assumption
    | (with_reducible refine Keeps.upd ?_)

theorem lockLoss_keeps {s0 s : State} (h : Keeps s0 s) (n) : Keeps s0 (lockLoss s n) := by
  unfold lockLoss
  repeat' first
    | with_reducible assumption
    | (extract_lets +onlyGivenNames a
       refine (fun (_ : Keeps s0 a) => ?_) ?_
       clear_value a
       rotate_left
       dsimp only [a]
       clear a)
    | (extract_lets +onlyGivenNames a
       clear_value a)
    | with_reducible apply Keeps.ite
    | with_reducible apply toDown_keeps

theorem losAt_keeps {s0 s : State} (h : Keeps s0 s) (n) : Keeps s0 (losAt s n) := by
  unfold losAt
  repeat' first
    | with_reducible assumption
    | with_reducible apply Keeps.ite
    | with_reducible apply toDown_keeps

theorem recvTimeout_keeps {s0 s : State} (h : Keeps s0 s) (n) : Keeps s0 (recvTimeout s n) := by
  unfold recvTimeout
  repeat' first
    | with_reducible assumption
    | with_reducible apply Keeps.ite
    | with_reducible apply toDown_keeps

theorem retryBoundPasses_keeps {s0 s : State} (h : Keeps s0 s) (n) : Keeps s0 (retryBoundPasses s n) := by
  unfold retryBoundPasses
  repeat' first
    | with_reducible assumption
    | (intro _)
    | (extract_lets +onlyGivenNames a
       refine (fun (_ : Keeps s0 a) => ?_) ?_
       clear_value a
       rotate_left
       dsimp only [a]
       clear a)
    | (extract_lets +onlyGivenNames a
       clear_value a)
    | with_reducible apply Keeps.ite
    | with_reducible apply toDown_keeps

theorem alignCw_keeps {s0 s : State} (h : Keeps s0 s) (n matched) : Keeps s0 (alignCw s n matched) := by
  unfold alignCw
  repeat' first
    | with_reducible assumption
    | simp -zeta only [Keeps.upd_iff]
    | (extract_lets +onlyGivenNames a
       refine (fun (_ : Keeps s0 a) => ?_) ?_
       clear_value a
       rotate_left
       dsimp only [a]
       clear a)
    | (extract_lets +onlyGivenNames a
       clear_value a)
    | with_reducible apply Keeps.ite
    | with_reducible apply setPort_keeps
    | (with_reducible refine Keeps.upd ?_)

theorem restamp_keeps {s0 s : State} (h : Keeps s0 s) (n q) : Keeps s0 (restamp s n q) := by
  unfold restamp
  repeat' first
    | with_reducible assumption
    | (intro _)
    | simp -zeta only [Keeps.upd_iff]
    | (extract_lets +onlyGivenNames a
       refine (fun (_ : Keeps s0 a) => ?_) ?_
       clear_value a
       rotate_left
       dsimp only [a]
       clear a)
    | (extract_lets +onlyGivenNames a
       clear_value a)
    | with_reducible apply Keeps.ite
    | with_reducible apply setPort_keeps
    | split
    | with_reducible apply_assumption
    | (with_reducible refine Keeps.upd ?_)

theorem spend_keeps {s0 s : State} (h : Keeps s0 s) (n v k) : Keeps s0 (spend s n v k) := by
  unfold spend
  repeat' first
    | with_reducible assumption
    | with_reducible apply put_keeps

theorem fillSlots_keeps {s0 s : State} (h : Keeps s0 s) (n k ws st) : Keeps s0 (fillSlots n k s ws st).1 := by
  induction k generalizing s ws st with
  | zero => exact h
  | succ k ih =>
    unfold fillSlots
    extract_lets room
    split
    · exact h
    · split
      · exact h
      · exact ih (setPort_keeps (spend_keeps (Keeps.upd h) _ _ _) _ _) _ _

theorem newFlit_keeps {s0 s : State} (h : Keeps s0 s) (n f) : Keeps s0 (newFlit s n f).1 := by
  unfold newFlit
  repeat' first
    | with_reducible assumption
    | simp -zeta only [Keeps.upd_iff]
    | (extract_lets +onlyGivenNames a
       refine (fun (_ : Keeps s0 a) => ?_) ?_
       clear_value a
       rotate_left
       dsimp only [a]
       clear a)
    | (extract_lets +onlyGivenNames a
       clear_value a)
    | with_reducible apply chkWrite_keeps
    | with_reducible apply hwm_keeps
    | with_reducible apply setPort_keeps
    | with_reducible apply tickFixed_keeps
    | split
    | (with_reducible refine Keeps.upd ?_)

theorem dataFlit_keeps {s0 s t : State} (h : Keeps s0 s) {n f} (e : dataFlit s n = some (t, f)) : Keeps s0 t := by
  unfold dataFlit at e
  dsimp -zeta only at e
  extract_lets x at e
  split at e
  · extract_lets part left s1 at e
    have h1 : Keeps s0 s1 := spend_keeps (setPort_keeps h _ _) _ _ _
    clear_value s1
    split at e
    · cases e
    · cases e
      exact fillSlots_keeps h1 _ _ _ _
  · split at e
    · cases e
    · cases e
      exact fillSlots_keeps h _ _ _ _

theorem nextFlit_keeps {s0 s : State} (h : Keeps s0 s) (n) : Keeps s0 (nextFlit s n).1 := by
  unfold nextFlit
  extract_lets x
  split
  · exact Keeps.upd h
  · split
    · split
      · exact setPort_keeps h _ _
      · extract_lets isQ s1 s2
        have h2 : Keeps s0 s2 := hwm_keeps (put_keeps (setPort_keeps h _ _) _ _) _ _
        clear_value s2
        split
        rename_i e
        have h3 := Keeps.fst e (bufRead_keeps h2 _ _ _)
        split
        · exact restamp_keeps h3 _ _
        · exact tickFixed_keeps (restamp_keeps h3 _ _) _ _
    · split
      · exact h
      · split
        · exact newFlit_keeps (setPort_keeps h _ _) _ _
        · exact newFlit_keeps (Keeps.upd (setPort_keeps h _ _)) _ _
        · split
          · exact h
          · split
            · exact newFlit_keeps (dataFlit_keeps h (by assumption)) _ _
            · exact h

theorem sendThis_keeps {s0 s : State} (h : Keeps s0 s) (n f) : Keeps s0 (sendThis s n f) := by
  unfold sendThis
  repeat' first
    | with_reducible assumption
    | simp -zeta only [Keeps.upd_iff]
    | (extract_lets +onlyGivenNames a
       refine (fun (_ : Keeps s0 a) => ?_) ?_
       clear_value a
       rotate_left
       dsimp only [a]
       clear a)
    | (extract_lets +onlyGivenNames a
       clear_value a)
    | with_reducible apply Keeps.ite
    | with_reducible apply setPort_keeps
    | split
    | (with_reducible refine Keeps.fst (by assumption) ?_)
    | (with_reducible refine Keeps.upd ?_)

theorem sendFlit_keeps {s0 s : State} (h : Keeps s0 s) (n) : Keeps s0 (sendFlit s n) := by
  unfold sendFlit
  repeat' first
    | with_reducible assumption
    | (extract_lets +onlyGivenNames a
       refine (fun (_ : Keeps s0 a) => ?_) ?_
       clear_value a
       rotate_left
       dsimp only [a]
       clear a)
    | (extract_lets +onlyGivenNames a
       clear_value a)
    | with_reducible apply nextFlit_keeps
    | with_reducible apply sendThis_keeps
    | split
    | (with_reducible refine Keeps.fst (by assumption) ?_)

theorem sendTraining_keeps {s0 s : State} (h : Keeps s0 s) (n) : Keeps s0 (sendTraining s n) := by
  unfold sendTraining
  repeat' first
    | with_reducible assumption
    | simp -zeta only [Keeps.upd_iff]
    | with_reducible apply setPort_keeps
    | (with_reducible refine Keeps.upd ?_)

theorem transmit_keeps {s0 s : State} (h : Keeps s0 s) (n) : Keeps s0 (transmit s n) := by
  unfold transmit
  repeat' first
    | with_reducible assumption
    | simp -zeta only [Keeps.upd_iff]
    | (extract_lets +onlyGivenNames a
       refine (fun (_ : Keeps s0 a) => ?_) ?_
       clear_value a
       rotate_left
       dsimp only [a]
       clear a)
    | (extract_lets +onlyGivenNames a
       clear_value a)
    | with_reducible apply Keeps.ite
    | with_reducible apply sendFlit_keeps
    | with_reducible apply sendThis_keeps
    | with_reducible apply sendTraining_keeps
    | with_reducible apply setPort_keeps
    | (with_reducible refine Keeps.upd ?_)

theorem acked_keeps {s0 s : State} (h : Keeps s0 s) (n a) : Keeps s0 (acked s n a) := by
  unfold acked
  repeat' first
    | with_reducible assumption
    | (intro _)
    | simp -zeta only [Keeps.upd_iff]
    | (extract_lets +onlyGivenNames a
       refine (fun (_ : Keeps s0 a) => ?_) ?_
       clear_value a
       rotate_left
       dsimp only [a]
       clear a)
    | (extract_lets +onlyGivenNames a
       clear_value a)
    | with_reducible apply Keeps.ite
    | with_reducible apply put_keeps
    | with_reducible apply setPort_keeps
    | split
    | with_reducible apply_assumption
    | (with_reducible refine Keeps.upd ?_)

theorem nakAt_keeps {s0 s : State} (h : Keeps s0 s) (n a) : Keeps s0 (nakAt s n a) := by
  unfold nakAt
  repeat' first
    | with_reducible assumption
    | (intro _)
    | simp -zeta only [Keeps.upd_iff]
    | (extract_lets +onlyGivenNames a
       refine (fun (_ : Keeps s0 a) => ?_) ?_
       clear_value a
       rotate_left
       dsimp only [a]
       clear a)
    | (extract_lets +onlyGivenNames a
       clear_value a)
    | with_reducible apply Keeps.ite
    | with_reducible apply acked_keeps
    | with_reducible apply bump_keeps
    | with_reducible apply setPort_keeps
    | with_reducible apply toDown_keeps
    | (with_reducible refine Keeps.upd ?_)

theorem badFlit_keeps {s0 s : State} (h : Keeps s0 s) (n) : Keeps s0 (badFlit s n) := by
  unfold badFlit
  repeat' first
    | with_reducible assumption
    | simp -zeta only [Keeps.upd_iff]
    | (extract_lets +onlyGivenNames a
       refine (fun (_ : Keeps s0 a) => ?_) ?_
       clear_value a
       rotate_left
       dsimp only [a]
       clear a)
    | (extract_lets +onlyGivenNames a
       clear_value a)
    | with_reducible apply Keeps.ite
    | with_reducible apply setPort_keeps
    | (with_reducible refine Keeps.upd ?_)

theorem wholeMsg_keeps {s0 s : State} (h : Keeps s0 s) (n ws) : Keeps s0 (wholeMsg s n ws) := by
  unfold wholeMsg
  repeat' first
    | with_reducible assumption
    | simp -zeta only [Keeps.upd_iff]
    | (extract_lets +onlyGivenNames a
       refine (fun (_ : Keeps s0 a) => ?_) ?_
       clear_value a
       rotate_left
       dsimp only [a]
       clear a)
    | (extract_lets +onlyGivenNames a
       clear_value a)
    | with_reducible apply Keeps.ite
    | with_reducible apply raise_keeps
    | with_reducible apply setPort_keeps
    | (with_reducible refine Keeps.upd ?_)

theorem takeSlot_keeps {s0 s : State} (h : Keeps s0 s) (n start w) : Keeps s0 (takeSlot s n start w) := by
  unfold takeSlot
  repeat' first
    | with_reducible assumption
    | simp -zeta only [Keeps.upd_iff]
    | (extract_lets +onlyGivenNames a
       refine (fun (_ : Keeps s0 a) => ?_) ?_
       clear_value a
       rotate_left
       dsimp only [a]
       clear a)
    | (extract_lets +onlyGivenNames a
       clear_value a)
    | with_reducible apply Keeps.ite
    | with_reducible apply setPort_keeps
    | with_reducible apply wholeMsg_keeps
    | (with_reducible refine Keeps.upd ?_)

theorem takeSlots_keeps {s0 s : State} (h : Keeps s0 s) (n flit) : Keeps s0 (takeSlots s n flit) := by
  unfold takeSlots
  repeat' first
    | with_reducible assumption
    | (intro _)
    | with_reducible apply takeSlot_keeps
    | with_reducible apply Keeps.foldl
    | with_reducible apply Keeps.foldl_fst
    | with_reducible apply_assumption

theorem sequenced_keeps {s0 s : State} (h : Keeps s0 s) (n flit) : Keeps s0 (sequenced s n flit) := by
  unfold sequenced
  repeat' first
    | with_reducible assumption
    | simp -zeta only [Keeps.upd_iff]
    | (extract_lets +onlyGivenNames a
       refine (fun (_ : Keeps s0 a) => ?_) ?_
       clear_value a
       rotate_left
       dsimp only [a]
       clear a)
    | (extract_lets +onlyGivenNames a
       clear_value a)
    | with_reducible apply Keeps.ite
    | with_reducible apply capFull_keeps
    | with_reducible apply setPort_keeps
    | with_reducible apply takeSlots_keeps
    | (with_reducible refine Keeps.upd ?_)

theorem goodFlit_keeps {s0 s : State} (h : Keeps s0 s) (n flit) : Keeps s0 (goodFlit s n flit) := by
  unfold goodFlit
  repeat' first
    | with_reducible assumption
    | simp -zeta only [Keeps.upd_iff]
    | (extract_lets +onlyGivenNames a
       refine (fun (_ : Keeps s0 a) => ?_) ?_
       clear_value a
       rotate_left
       dsimp only [a]
       clear a)
    | (extract_lets +onlyGivenNames a
       clear_value a)
    | with_reducible apply Keeps.ite
    | with_reducible apply acked_keeps
    | with_reducible apply nakAt_keeps
    | with_reducible apply put_keeps
    | with_reducible apply sequenced_keeps
    | with_reducible apply setPort_keeps
    | (with_reducible refine Keeps.upd ?_)

theorem fecDecode_keeps {s0 s : State} (h : Keeps s0 s) (n cw) : Keeps s0 (fecDecode s n cw).1 := by
  unfold fecDecode
  repeat' first
    | with_reducible assumption
    | (intro _)
    | simp -zeta only [Keeps.upd_iff]
    | (extract_lets +onlyGivenNames a
       refine (fun (_ : Keeps s0 a) => ?_) ?_
       clear_value a
       rotate_left
       dsimp only [a]
       clear a)
    | (extract_lets +onlyGivenNames a
       clear_value a)
    | with_reducible apply Keeps.ite
    | with_reducible apply bump_keeps
    | with_reducible apply put_keeps
    | with_reducible apply Keeps.foldl
    | with_reducible apply Keeps.foldl_fst
    | split
    | with_reducible apply_assumption

theorem flitCw_keeps {s0 s : State} (h : Keeps s0 s) (n cw) : Keeps s0 (flitCw s n cw) := by
  unfold flitCw
  repeat' first
    | with_reducible assumption
    | simp -zeta only [Keeps.upd_iff]
    | (extract_lets +onlyGivenNames a
       refine (fun (_ : Keeps s0 a) => ?_) ?_
       clear_value a
       rotate_left
       dsimp only [a]
       clear a)
    | (extract_lets +onlyGivenNames a
       clear_value a)
    | with_reducible apply Keeps.ite
    | with_reducible apply badFlit_keeps
    | with_reducible apply bump_keeps
    | with_reducible apply fecDecode_keeps
    | with_reducible apply goodFlit_keeps
    | split
    | (with_reducible refine Keeps.fst (by assumption) ?_)

theorem receive_keeps {s0 s : State} (h : Keeps s0 s) (n cw) : Keeps s0 (receive s n cw) := by
  unfold receive
  repeat' first
    | with_reducible assumption
    | simp -zeta only [Keeps.upd_iff]
    | (extract_lets +onlyGivenNames a
       refine (fun (_ : Keeps s0 a) => ?_) ?_
       clear_value a
       rotate_left
       dsimp only [a]
       clear a)
    | (extract_lets +onlyGivenNames a
       clear_value a)
    | with_reducible apply Keeps.ite
    | with_reducible apply alignCw_keeps
    | with_reducible apply flitCw_keeps
    | with_reducible apply setPort_keeps
    | (with_reducible refine Keeps.upd ?_)

theorem dataAt_keeps {s0 s : State} (h : Keeps s0 s) (n cw) : Keeps s0 (dataAt s n cw) := by
  unfold dataAt
  repeat' first
    | with_reducible assumption
    | simp -zeta only [Keeps.upd_iff]
    | with_reducible apply Keeps.ite
    | with_reducible apply receive_keeps
    | with_reducible apply transmit_keeps
    | split

theorem markerAt_keeps {s0 s : State} (h : Keeps s0 s) (n) : Keeps s0 (markerAt s n) := by
  unfold markerAt
  repeat' first
    | with_reducible assumption
    | (intro _)
    | simp -zeta only [Keeps.upd_iff]
    | (extract_lets +onlyGivenNames a
       refine (fun (_ : Keeps s0 a) => ?_) ?_
       clear_value a
       rotate_left
       dsimp only [a]
       clear a)
    | (extract_lets +onlyGivenNames a
       clear_value a)
    | with_reducible apply Keeps.ite
    | with_reducible apply put_keeps
    | (with_reducible refine Keeps.upd ?_)

theorem markerLate_keeps {s0 s : State} (h : Keeps s0 s) (n) : Keeps s0 (markerLate s n) := by
  unfold markerLate
  repeat' first
    | with_reducible assumption
    | (intro _)
    | simp -zeta only [Keeps.upd_iff]
    | (extract_lets +onlyGivenNames a
       refine (fun (_ : Keeps s0 a) => ?_) ?_
       clear_value a
       rotate_left
       dsimp only [a]
       clear a)
    | (extract_lets +onlyGivenNames a
       clear_value a)
    | with_reducible apply Keeps.ite
    | with_reducible apply put_keeps
    | with_reducible apply raise_keeps
    | (with_reducible refine Keeps.upd ?_)

theorem resumeTimers_keeps {s0 s : State} (h : Keeps s0 s) (n) : Keeps s0 (resumeTimers s n) := by
  unfold resumeTimers
  repeat' first
    | with_reducible assumption
    | (intro _)
    | simp -zeta only [Keeps.upd_iff]
    | (extract_lets +onlyGivenNames a
       refine (fun (_ : Keeps s0 a) => ?_) ?_
       clear_value a
       rotate_left
       dsimp only [a]
       clear a)
    | (extract_lets +onlyGivenNames a
       clear_value a)
    | with_reducible apply setPort_keeps
    | with_reducible apply_assumption
    | (with_reducible refine Keeps.upd ?_)

end Sys2Proof.Machine
end

