-- ==== Sys2Proof/Laws/KeepClock.lean ====
section
/-! SUPPORT. What the operations of Machine/Clock.lean keep (Laws/Keeps.lean). -/
set_option linter.tactic.unusedName false
set_option linter.unusedSimpArgs false
namespace Sys2Proof.Machine

theorem setInput_keeps {s0 s : State} (h : Keeps s0 s) (i v) : Keeps s0 (setInput s i v) := by
  unfold setInput
  repeat' first
    | with_reducible assumption
    | simp -zeta only [Keeps.upd_iff]
    | with_reducible apply Keeps.ite
    | with_reducible apply put_keeps
    | (with_reducible refine Keeps.upd ?_)

theorem setSwitch_keeps {s0 s : State} (h : Keeps s0 s) (x) : Keeps s0 (setSwitch s x) := by
  unfold setSwitch
  repeat' first
    | with_reducible assumption
    | simp -zeta only [Keeps.upd_iff]
    | (with_reducible refine Keeps.upd ?_)

theorem rampOn_keeps {s0 s : State} (h : Keeps s0 s) : Keeps s0 (rampOn s) := by
  unfold rampOn
  repeat' first
    | with_reducible assumption
    | with_reducible apply put_keeps

theorem clkCtlWrite_keeps {s0 s : State} (h : Keeps s0 s) (w) : Keeps s0 (clkCtlWrite s w) := by
  unfold clkCtlWrite
  repeat' first
    | with_reducible assumption
    | (extract_lets +onlyGivenNames a
       refine (fun (_ : Keeps s0 a) => ?_) ?_
       clear_value a
       rotate_left
       dsimp only [a]
       clear a)
    | (extract_lets +onlyGivenNames a
       clear_value a)
    | with_reducible apply Keeps.ite
    | with_reducible apply put_keeps
    | with_reducible apply raise_keeps
    | with_reducible apply rampOn_keeps
    | with_reducible apply setSwitch_keeps

theorem rampEnds_keeps {s0 s : State} (h : Keeps s0 s) : Keeps s0 (rampEnds s) := by
  unfold rampEnds
  repeat' first
    | with_reducible assumption
    | simp -zeta only [Keeps.upd_iff]
    | (extract_lets +onlyGivenNames a
       refine (fun (_ : Keeps s0 a) => ?_) ?_
       clear_value a
       rotate_left
       dsimp only [a]
       clear a)
    | (extract_lets +onlyGivenNames a
       clear_value a)
    | with_reducible apply Keeps.ite
    | with_reducible apply bump_keeps
    | with_reducible apply put_keeps
    | split
    | (with_reducible refine Keeps.upd ?_)

theorem rampStep__keeps {s0 s : State} (h : Keeps s0 s) : Keeps s0 (rampStep_ s) := by
  unfold rampStep_
  repeat' first
    | with_reducible assumption
    | simp -zeta only [Keeps.upd_iff]
    | (extract_lets +onlyGivenNames a
       refine (fun (_ : Keeps s0 a) => ?_) ?_
       clear_value a
       rotate_left
       dsimp only [a]
       clear a)
    | (extract_lets +onlyGivenNames a
       clear_value a)
    | with_reducible apply Keeps.ite
    | with_reducible apply put_keeps
    | with_reducible apply rampEnds_keeps
    | with_reducible apply setSwitch_keeps
    | split
    | (with_reducible refine Keeps.upd ?_)

theorem rampFault__keeps {s0 s : State} (h : Keeps s0 s) : Keeps s0 (rampFault_ s) := by
  unfold rampFault_
  repeat' first
    | with_reducible assumption
    | simp -zeta only [Keeps.upd_iff]
    | with_reducible apply Keeps.ite
    | with_reducible apply put_keeps
    | with_reducible apply raise_keeps
    | with_reducible apply rampOn_keeps
    | with_reducible apply setSwitch_keeps
    | split

theorem restartFrom_keeps {s0 s : State} (h : Keeps s0 s) (i) : Keeps s0 (restartFrom s i) := by
  unfold restartFrom
  repeat' first
    | with_reducible assumption
    | (extract_lets +onlyGivenNames a
       refine (fun (_ : Keeps s0 a) => ?_) ?_
       clear_value a
       rotate_left
       dsimp only [a]
       clear a)
    | (extract_lets +onlyGivenNames a
       clear_value a)
    | with_reducible apply put_keeps
    | with_reducible apply rampOn_keeps
    | with_reducible apply setSwitch_keeps

theorem takeInput_keeps {s0 s : State} (h : Keeps s0 s) (i) : Keeps s0 (takeInput s i) := by
  unfold takeInput
  repeat' first
    | with_reducible assumption
    | (extract_lets +onlyGivenNames a
       refine (fun (_ : Keeps s0 a) => ?_) ?_
       clear_value a
       rotate_left
       dsimp only [a]
       clear a)
    | (extract_lets +onlyGivenNames a
       clear_value a)
    | with_reducible apply Keeps.ite
    | with_reducible apply raise_keeps
    | with_reducible apply restartFrom_keeps

theorem eclkLoss_keeps {s0 s : State} (h : Keeps s0 s) (i) : Keeps s0 (eclkLoss s i) := by
  unfold eclkLoss
  repeat' first
    | with_reducible assumption
    | (extract_lets +onlyGivenNames a
       refine (fun (_ : Keeps s0 a) => ?_) ?_
       clear_value a
       rotate_left
       dsimp only [a]
       clear a)
    | (extract_lets +onlyGivenNames a
       clear_value a)
    | with_reducible apply Keeps.ite
    | with_reducible apply bump_keeps
    | with_reducible apply put_keeps
    | with_reducible apply raise_keeps
    | with_reducible apply setInput_keeps
    | with_reducible apply takeInput_keeps

theorem inputBack_keeps {s0 s : State} (h : Keeps s0 s) (i) : Keeps s0 (inputBack s i) := by
  unfold inputBack
  repeat' first
    | with_reducible assumption
    | (extract_lets +onlyGivenNames a
       refine (fun (_ : Keeps s0 a) => ?_) ?_
       clear_value a
       rotate_left
       dsimp only [a]
       clear a)
    | (extract_lets +onlyGivenNames a
       clear_value a)
    | with_reducible apply Keeps.ite
    | with_reducible apply setInput_keeps
    | with_reducible apply takeInput_keeps

theorem gateResult_keeps {s0 s : State} (h : Keeps s0 s) (n r busy) : Keeps s0 (gateResult s n r busy) := by
  unfold gateResult
  repeat' first
    | with_reducible assumption
    | with_reducible apply put_keeps

theorem doGateOpen_keeps {s0 s : State} (h : Keeps s0 s) (n) : Keeps s0 (doGateOpen s n) := by
  unfold doGateOpen
  repeat' first
    | with_reducible assumption
    | with_reducible apply Keeps.ite
    | with_reducible apply gateResult_keeps
    | with_reducible apply openGate_keeps

theorem doGateClose_keeps {s0 s : State} (h : Keeps s0 s) (n) : Keeps s0 (doGateClose s n) := by
  unfold doGateClose
  repeat' first
    | with_reducible assumption
    | simp -zeta only [Keeps.upd_iff]
    | (extract_lets +onlyGivenNames a
       refine (fun (_ : Keeps s0 a) => ?_) ?_
       clear_value a
       rotate_left
       dsimp only [a]
       clear a)
    | (extract_lets +onlyGivenNames a
       clear_value a)
    | with_reducible apply Keeps.ite
    | with_reducible apply gateResult_keeps
    | with_reducible apply raise_keeps
    | (with_reducible refine Keeps.upd ?_)

theorem noGate_keeps {s0 s : State} (h : Keeps s0 s) : Keeps s0 (noGate s) := by
  unfold noGate
  repeat' first
    | with_reducible assumption
    | simp -zeta only [Keeps.upd_iff]
    | (with_reducible refine Keeps.upd ?_)

theorem busIdle_keeps {s0 s : State} (h : Keeps s0 s) : Keeps s0 (busIdle s) := by
  unfold busIdle
  repeat' first
    | with_reducible assumption
    | simp -zeta only [Keeps.upd_iff]
    | (extract_lets +onlyGivenNames a
       refine (fun (_ : Keeps s0 a) => ?_) ?_
       clear_value a
       rotate_left
       dsimp only [a]
       clear a)
    | (extract_lets +onlyGivenNames a
       clear_value a)
    | with_reducible apply Keeps.ite
    | with_reducible apply gateResult_keeps
    | with_reducible apply noGate_keeps
    | with_reducible apply setGate_keeps
    | split

theorem gateLate_keeps {s0 s : State} (h : Keeps s0 s) : Keeps s0 (gateLate s) := by
  unfold gateLate
  repeat' first
    | with_reducible assumption
    | simp -zeta only [Keeps.upd_iff]
    | (extract_lets +onlyGivenNames a
       refine (fun (_ : Keeps s0 a) => ?_) ?_
       clear_value a
       rotate_left
       dsimp only [a]
       clear a)
    | (extract_lets +onlyGivenNames a
       clear_value a)
    | with_reducible apply Keeps.ite
    | with_reducible apply gateResult_keeps
    | with_reducible apply noGate_keeps
    | with_reducible apply raise_keeps
    | split

theorem gateAbandon_keeps {s0 s : State} (h : Keeps s0 s) : Keeps s0 (gateAbandon s) := by
  unfold gateAbandon
  repeat' first
    | with_reducible assumption
    | simp -zeta only [Keeps.upd_iff]
    | (extract_lets +onlyGivenNames a
       refine (fun (_ : Keeps s0 a) => ?_) ?_
       clear_value a
       rotate_left
       dsimp only [a]
       clear a)
    | (extract_lets +onlyGivenNames a
       clear_value a)
    | with_reducible apply Keeps.ite
    | with_reducible apply gateResult_keeps
    | with_reducible apply noGate_keeps
    | with_reducible apply raise_keeps
    | split

theorem openAll_keeps {s0 s : State} (h : Keeps s0 s) : Keeps s0 (openAll s) := by
  unfold openAll
  repeat' first
    | with_reducible assumption
    | simp -zeta only [Keeps.upd_iff]
    | (extract_lets +onlyGivenNames a
       refine (fun (_ : Keeps s0 a) => ?_) ?_
       clear_value a
       rotate_left
       dsimp only [a]
       clear a)
    | (extract_lets +onlyGivenNames a
       clear_value a)
    | with_reducible apply gateResult_keeps
    | with_reducible apply noGate_keeps
    | with_reducible apply raise_keeps
    | with_reducible apply wr_keeps
    | split

end Sys2Proof.Machine
end

