-- ==== Sys2Proof/Laws/KeepFirmware.lean ====
section
/-! SUPPORT. What the operations of Machine/Firmware.lean keep (Laws/Keeps.lean). -/
set_option linter.tactic.unusedName false
set_option linter.unusedSimpArgs false
namespace Sys2Proof.Machine

theorem putDigest_keeps {s0 s : State} (h : Keeps s0 s) (at_ d) : Keeps s0 (putDigest s at_ d) := by
  unfold putDigest
  repeat' first
    | with_reducible assumption
    | (intro _)
    | with_reducible apply wr_keeps
    | with_reducible apply Keeps.foldl
    | with_reducible apply Keeps.foldl_fst
    | with_reducible apply_assumption

theorem fwHalt_keeps {s0 s : State} (h : Keeps s0 s) (why) : Keeps s0 (fwHalt s why) := by
  unfold fwHalt
  repeat' first
    | with_reducible assumption
    | simp -zeta only [Keeps.upd_iff]
    | with_reducible apply put_keeps
    | (with_reducible refine Keeps.upd ?_)

theorem endFwCommands_keeps {s0 s : State} (h : Keeps s0 s) : Keeps s0 (endFwCommands s) := by
  unfold endFwCommands
  repeat' first
    | with_reducible assumption
    | (intro _)
    | simp -zeta only [Keeps.upd_iff]
    | (extract_lets +onlyGivenNames a
       refine (fun (_ : Keeps s0 a) => ?_) ?_
       clear_value a
       rotate_left
       dsimp only [a]
       clear a)
    | (extract_lets +onlyGivenNames a
       clear_value a)
    | with_reducible apply Keeps.ite
    | with_reducible apply marDone_keeps
    | with_reducible apply put_keeps
    | with_reducible apply setCmdst_keeps
    | with_reducible apply tenDone_keeps
    | with_reducible apply Keeps.foldl
    | with_reducible apply Keeps.foldl_fst
    | split
    | with_reducible apply_assumption
    | (with_reducible refine Keeps.upd ?_)

theorem stillBad_keeps {s0 s : State} (h : Keeps s0 s) (target i) : Keeps s0 (stillBad s target i) := by
  unfold stillBad
  repeat' first
    | with_reducible assumption
    | simp -zeta only [Keeps.upd_iff]
    | (with_reducible refine Keeps.upd ?_)

theorem imemWord_keeps {s0 s : State} (h : Keeps s0 s) (i) : Keeps s0 (imemWord s i) := by
  unfold imemWord
  repeat' first
    | with_reducible assumption
    | simp -zeta only [Keeps.upd_iff]
    | (extract_lets +onlyGivenNames a
       refine (fun (_ : Keeps s0 a) => ?_) ?_
       clear_value a
       rotate_left
       dsimp only [a]
       clear a)
    | (extract_lets +onlyGivenNames a
       clear_value a)
    | with_reducible apply chkRead_keeps
    | with_reducible apply endFwCommands_keeps
    | with_reducible apply fwHalt_keeps
    | with_reducible apply raise_keeps
    | with_reducible apply stillBad_keeps
    | split
    | (with_reducible refine Keeps.fst (by assumption) ?_)

theorem imemRead_keeps {s0 s : State} (h : Keeps s0 s) : Keeps s0 (imemRead s).1 := by
  unfold imemRead
  repeat' first
    | with_reducible assumption
    | (intro _)
    | (extract_lets +onlyGivenNames a
       refine (fun (_ : Keeps s0 a) => ?_) ?_
       clear_value a
       rotate_left
       dsimp only [a]
       clear a)
    | (extract_lets +onlyGivenNames a
       clear_value a)
    | with_reducible apply imemWord_keeps
    | with_reducible apply Keeps.foldl
    | with_reducible apply Keeps.foldl_fst
    | split
    | with_reducible apply_assumption

theorem dmemWord_keeps {s0 s : State} (h : Keeps s0 s) (i) : Keeps s0 (dmemWord s i) := by
  unfold dmemWord
  repeat' first
    | with_reducible assumption
    | simp -zeta only [Keeps.upd_iff]
    | (extract_lets +onlyGivenNames a
       refine (fun (_ : Keeps s0 a) => ?_) ?_
       clear_value a
       rotate_left
       dsimp only [a]
       clear a)
    | (extract_lets +onlyGivenNames a
       clear_value a)
    | with_reducible apply chkRead_keeps
    | with_reducible apply raise_keeps
    | with_reducible apply stillBad_keeps
    | split
    | (with_reducible refine Keeps.fst (by assumption) ?_)

theorem dmemRead_keeps {s0 s : State} (h : Keeps s0 s) : Keeps s0 (dmemRead s) := by
  unfold dmemRead
  repeat' first
    | with_reducible assumption
    | (intro _)
    | with_reducible apply dmemWord_keeps
    | with_reducible apply Keeps.foldl
    | with_reducible apply Keeps.foldl_fst
    | with_reducible apply_assumption

theorem clearDmem_keeps {s0 s : State} (h : Keeps s0 s) : Keeps s0 (clearDmem s) := by
  unfold clearDmem
  repeat' first
    | with_reducible assumption
    | (intro _)
    | simp -zeta only [Keeps.upd_iff]
    | (extract_lets +onlyGivenNames a
       refine (fun (_ : Keeps s0 a) => ?_) ?_
       clear_value a
       rotate_left
       dsimp only [a]
       clear a)
    | (extract_lets +onlyGivenNames a
       clear_value a)
    | with_reducible apply chkWrite_keeps
    | with_reducible apply_assumption
    | (with_reducible refine Keeps.upd ?_)

theorem fwStart_keeps {s0 s : State} (h : Keeps s0 s) : Keeps s0 (fwStart s) := by
  unfold fwStart
  repeat' first
    | with_reducible assumption
    | simp -zeta only [Keeps.upd_iff]
    | (extract_lets +onlyGivenNames a
       refine (fun (_ : Keeps s0 a) => ?_) ?_
       clear_value a
       rotate_left
       dsimp only [a]
       clear a)
    | (extract_lets +onlyGivenNames a
       clear_value a)
    | with_reducible apply bump_keeps
    | with_reducible apply clearDmem_keeps
    | with_reducible apply imemRead_keeps
    | with_reducible apply put_keeps
    | (with_reducible refine Keeps.upd ?_)

theorem updState_keeps {s0 s : State} (h : Keeps s0 s) (st) : Keeps s0 (updState s st) := by
  unfold updState
  repeat' first
    | with_reducible assumption
    | with_reducible apply put_keeps

theorem updStatus_keeps {s0 s : State} (h : Keeps s0 s) (st) : Keeps s0 (updStatus s st) := by
  unfold updStatus
  repeat' first
    | with_reducible assumption
    | with_reducible apply put_keeps

theorem imgDone_keeps {s0 s : State} (h : Keeps s0 s) : Keeps s0 (imgDone s) := by
  unfold imgDone
  repeat' first
    | with_reducible assumption
    | simp -zeta only [Keeps.upd_iff]
    | (extract_lets +onlyGivenNames a
       refine (fun (_ : Keeps s0 a) => ?_) ?_
       clear_value a
       rotate_left
       dsimp only [a]
       clear a)
    | (extract_lets +onlyGivenNames a
       clear_value a)
    | with_reducible apply Keeps.ite
    | with_reducible apply put_keeps
    | (with_reducible refine Keeps.upd ?_)

theorem updStarts_keeps {s0 s : State} (h : Keeps s0 s) : Keeps s0 (updStarts s) := by
  unfold updStarts
  repeat' first
    | with_reducible assumption
    | simp -zeta only [Keeps.upd_iff]
    | (extract_lets +onlyGivenNames a
       refine (fun (_ : Keeps s0 a) => ?_) ?_
       clear_value a
       rotate_left
       dsimp only [a]
       clear a)
    | (extract_lets +onlyGivenNames a
       clear_value a)
    | with_reducible apply Keeps.ite
    | with_reducible apply clearDmem_keeps
    | with_reducible apply fwStart_keeps
    | with_reducible apply updState_keeps
    | (with_reducible refine Keeps.upd ?_)

theorem droopOver_keeps {s0 s : State} (h : Keeps s0 s) : Keeps s0 (droopOver s) := by
  unfold droopOver
  repeat' first
    | with_reducible assumption
    | with_reducible apply Keeps.ite
    | with_reducible apply updStarts_keeps

theorem measureImage_keeps {s0 s : State} (h : Keeps s0 s) : Keeps s0 (measureImage s) := by
  unfold measureImage
  repeat' first
    | with_reducible assumption
    | simp -zeta only [Keeps.upd_iff]
    | (extract_lets +onlyGivenNames a
       refine (fun (_ : Keeps s0 a) => ?_) ?_
       clear_value a
       rotate_left
       dsimp only [a]
       clear a)
    | (extract_lets +onlyGivenNames a
       clear_value a)
    | with_reducible apply Keeps.ite
    | with_reducible apply imemRead_keeps
    | with_reducible apply put_keeps
    | with_reducible apply putDigest_keeps
    | with_reducible apply raise_keeps
    | with_reducible apply updStarts_keeps
    | with_reducible apply updState_keeps
    | split
    | (with_reducible refine Keeps.fst (by assumption) ?_)
    | (with_reducible refine Keeps.upd ?_)

theorem measureReq_keeps {s0 s : State} (h : Keeps s0 s) : Keeps s0 (measureReq s) := by
  unfold measureReq
  repeat' first
    | with_reducible assumption
    | with_reducible apply Keeps.ite
    | with_reducible apply put_keeps

theorem measureReqDone_keeps {s0 s : State} (h : Keeps s0 s) : Keeps s0 (measureReqDone s) := by
  unfold measureReqDone
  repeat' first
    | with_reducible assumption
    | (extract_lets +onlyGivenNames a
       refine (fun (_ : Keeps s0 a) => ?_) ?_
       clear_value a
       rotate_left
       dsimp only [a]
       clear a)
    | (extract_lets +onlyGivenNames a
       clear_value a)
    | with_reducible apply Keeps.ite
    | with_reducible apply imemRead_keeps
    | with_reducible apply put_keeps
    | with_reducible apply putDigest_keeps
    | split
    | (with_reducible refine Keeps.fst (by assumption) ?_)

theorem keyLock__keeps {s0 s : State} (h : Keeps s0 s) : Keeps s0 (keyLock_ s) := by
  unfold keyLock_
  repeat' first
    | with_reducible assumption
    | (extract_lets +onlyGivenNames a
       refine (fun (_ : Keeps s0 a) => ?_) ?_
       clear_value a
       rotate_left
       dsimp only [a]
       clear a)
    | (extract_lets +onlyGivenNames a
       clear_value a)
    | with_reducible apply Keeps.ite
    | with_reducible apply beginMeasure_keeps
    | with_reducible apply put_keeps
    | with_reducible apply raise_keeps

theorem release_keeps {s0 s : State} (h : Keeps s0 s) : Keeps s0 (release s) := by
  unfold release
  repeat' first
    | with_reducible assumption
    | (extract_lets +onlyGivenNames a
       refine (fun (_ : Keeps s0 a) => ?_) ?_
       clear_value a
       rotate_left
       dsimp only [a]
       clear a)
    | (extract_lets +onlyGivenNames a
       clear_value a)
    | with_reducible apply Keeps.ite
    | with_reducible apply fwStart_keeps
    | with_reducible apply put_keeps

theorem completeTransit_keeps {s0 s : State} (h : Keeps s0 s) (i) : Keeps s0 (completeTransit s i) := by
  unfold completeTransit
  repeat' first
    | with_reducible assumption
    | (intro _)
    | simp -zeta only [Keeps.upd_iff]
    | (extract_lets +onlyGivenNames a
       refine (fun (_ : Keeps s0 a) => ?_) ?_
       clear_value a
       rotate_left
       dsimp only [a]
       clear a)
    | (extract_lets +onlyGivenNames a
       clear_value a)
    | with_reducible apply releaseTransit_keeps
    | with_reducible apply setHtm_keeps
    | split
    | (with_reducible refine Keeps.upd ?_)

theorem ready__keeps {s0 s : State} (h : Keeps s0 s) : Keeps s0 (ready_ s) := by
  unfold ready_
  repeat' first
    | with_reducible assumption
    | (intro _)
    | simp -zeta only [Keeps.upd_iff]
    | (extract_lets +onlyGivenNames a
       refine (fun (_ : Keeps s0 a) => ?_) ?_
       clear_value a
       rotate_left
       dsimp only [a]
       clear a)
    | (extract_lets +onlyGivenNames a
       clear_value a)
    | with_reducible apply Keeps.ite
    | with_reducible apply bump_keeps
    | with_reducible apply completeTransit_keeps
    | with_reducible apply endMove_keeps
    | with_reducible apply put_keeps
    | with_reducible apply updState_keeps
    | with_reducible apply updStatus_keeps
    | with_reducible apply Keeps.foldl
    | with_reducible apply Keeps.foldl_fst
    | with_reducible apply_assumption
    | (with_reducible refine Keeps.upd ?_)

theorem coreStep__keeps {s0 s : State} (h : Keeps s0 s) (v) : Keeps s0 (coreStep_ s v) := by
  unfold coreStep_
  repeat' first
    | with_reducible assumption
    | (intro _)
    | simp -zeta only [Keeps.upd_iff]
    | (extract_lets +onlyGivenNames a
       refine (fun (_ : Keeps s0 a) => ?_) ?_
       clear_value a
       rotate_left
       dsimp only [a]
       clear a)
    | (extract_lets +onlyGivenNames a
       clear_value a)
    | with_reducible apply Keeps.ite
    | with_reducible apply put_keeps
    | split

theorem heartbeat_keeps {s0 s : State} (h : Keeps s0 s) : Keeps s0 (heartbeat s) := by
  unfold heartbeat
  repeat' first
    | with_reducible assumption
    | simp -zeta only [Keeps.upd_iff]
    | with_reducible apply Keeps.ite
    | with_reducible apply dmemRead_keeps
    | (with_reducible refine Keeps.upd ?_)

theorem fwHang__keeps {s0 s : State} (h : Keeps s0 s) : Keeps s0 (fwHang_ s) := by
  unfold fwHang_
  repeat' first
    | with_reducible assumption
    | with_reducible apply Keeps.ite
    | with_reducible apply fwHalt_keeps
    | with_reducible apply raise_keeps
    | with_reducible apply updState_keeps

theorem updBegin_keeps {s0 s : State} (h : Keeps s0 s) : Keeps s0 (updBegin s) := by
  unfold updBegin
  repeat' first
    | with_reducible assumption
    | (extract_lets +onlyGivenNames a
       refine (fun (_ : Keeps s0 a) => ?_) ?_
       clear_value a
       rotate_left
       dsimp only [a]
       clear a)
    | (extract_lets +onlyGivenNames a
       clear_value a)
    | with_reducible apply Keeps.ite
    | with_reducible apply updState_keeps
    | with_reducible apply updStatus_keeps

theorem safePoint_keeps {s0 s : State} (h : Keeps s0 s) : Keeps s0 (safePoint s) := by
  unfold safePoint
  repeat' first
    | with_reducible assumption
    | with_reducible apply Keeps.ite
    | with_reducible apply fwHalt_keeps
    | with_reducible apply put_keeps
    | with_reducible apply updState_keeps

theorem updCommit_keeps {s0 s : State} (h : Keeps s0 s) : Keeps s0 (updCommit s) := by
  unfold updCommit
  repeat' first
    | with_reducible assumption
    | simp -zeta only [Keeps.upd_iff]
    | (extract_lets +onlyGivenNames a
       refine (fun (_ : Keeps s0 a) => ?_) ?_
       clear_value a
       rotate_left
       dsimp only [a]
       clear a)
    | (extract_lets +onlyGivenNames a
       clear_value a)
    | with_reducible apply Keeps.ite
    | with_reducible apply updState_keeps
    | with_reducible apply updStatus_keeps
    | (with_reducible refine Keeps.upd ?_)

theorem droopAt_keeps {s0 s : State} (h : Keeps s0 s) (level) : Keeps s0 (droopAt s level) := by
  unfold droopAt
  repeat' first
    | with_reducible assumption
    | simp -zeta only [Keeps.upd_iff]
    | (extract_lets +onlyGivenNames a
       refine (fun (_ : Keeps s0 a) => ?_) ?_
       clear_value a
       rotate_left
       dsimp only [a]
       clear a)
    | (extract_lets +onlyGivenNames a
       clear_value a)
    | with_reducible apply Keeps.ite
    | with_reducible apply raise_keeps
    | (with_reducible refine Keeps.upd ?_)

theorem fwReset_keeps {s0 s : State} (h : Keeps s0 s) : Keeps s0 (fwReset s) := by
  unfold fwReset
  repeat' first
    | with_reducible assumption
    | simp -zeta only [Keeps.upd_iff]
    | (extract_lets +onlyGivenNames a
       refine (fun (_ : Keeps s0 a) => ?_) ?_
       clear_value a
       rotate_left
       dsimp only [a]
       clear a)
    | (extract_lets +onlyGivenNames a
       clear_value a)
    | with_reducible apply Keeps.ite
    | with_reducible apply clearDmem_keeps
    | with_reducible apply endFwCommands_keeps
    | with_reducible apply fwStart_keeps
    | split

theorem htmReady__keeps {s0 s : State} (h : Keeps s0 s) : Keeps s0 (htmReady_ s) := by
  unfold htmReady_
  repeat' first
    | with_reducible assumption
    | (intro _)
    | simp -zeta only [Keeps.upd_iff]
    | (extract_lets +onlyGivenNames a
       refine (fun (_ : Keeps s0 a) => ?_) ?_
       clear_value a
       rotate_left
       dsimp only [a]
       clear a)
    | (extract_lets +onlyGivenNames a
       clear_value a)
    | with_reducible apply Keeps.ite
    | with_reducible apply bankItem_keeps
    | with_reducible apply put_keeps
    | with_reducible apply Keeps.foldl
    | with_reducible apply Keeps.foldl_fst
    | with_reducible apply_assumption
    | (with_reducible refine Keeps.upd ?_)

end Sys2Proof.Machine
end

