-- ==== Sys2Proof/Laws/KeepReset.lean ====
section
/-! SUPPORT. What the operations of Machine/Reset.lean keep (Laws/Keeps.lean). -/
set_option linter.tactic.unusedName false
set_option linter.unusedSimpArgs false
namespace Sys2Proof.Machine

theorem endItem_keeps {s0 s : State} (h : Keeps s0 s) (x) : Keeps s0 (endItem s x) := by
  unfold endItem
  repeat' first
    | with_reducible assumption
    | simp -zeta only [Keeps.upd_iff]
    | with_reducible apply failPlain_keeps
    | with_reducible apply marDone_keeps
    | with_reducible apply reportEntry_keeps
    | with_reducible apply setCmdst_keeps
    | split
    | (with_reducible refine Keeps.upd ?_)

theorem enterDegraded_keeps {s0 s : State} (h : Keeps s0 s) : Keeps s0 (enterDegraded s) := by
  unfold enterDegraded
  repeat' first
    | with_reducible assumption
    | (intro _)
    | simp -zeta only [Keeps.upd_iff]
    | (extract_lets +onlyGivenNames a
       refine (fun (_ : Keeps s0 a) => ?_) ?_
       clear_value a
       rotate_left
       dsimp only [a]
       clear a)
    | (extract_lets +onlyGivenNames a
       clear_value a)
    | with_reducible apply Keeps.ite
    | with_reducible apply discardPhase_keeps
    | with_reducible apply dropWaiter_keeps
    | with_reducible apply endItem_keeps
    | with_reducible apply failPlain_keeps
    | with_reducible apply partFails_keeps
    | with_reducible apply sendFrame_keeps
    | with_reducible apply setPort_keeps
    | with_reducible apply Keeps.foldl
    | with_reducible apply Keeps.foldl_fst
    | split
    | with_reducible apply_assumption
    | (with_reducible refine Keeps.upd ?_)

theorem returnItem_keeps {s0 s : State} (h : Keeps s0 s) (o x) : Keeps s0 (returnItem s o x) := by
  unfold returnItem
  repeat' first
    | with_reducible assumption
    | simp -zeta only [Keeps.upd_iff]
    | with_reducible apply marDone_keeps
    | with_reducible apply retryEntry_keeps
    | with_reducible apply setCmdst_keeps
    | with_reducible apply turnAway_keeps
    | split
    | (with_reducible refine Keeps.upd ?_)

theorem returnEntry_keeps {s0 s : State} (h : Keeps s0 s) (o target unit word x) : Keeps s0 (returnEntry s o target unit word x) := by
  unfold returnEntry
  repeat' first
    | with_reducible assumption
    | (extract_lets +onlyGivenNames a
       refine (fun (_ : Keeps s0 a) => ?_) ?_
       clear_value a
       rotate_left
       dsimp only [a]
       clear a)
    | (extract_lets +onlyGivenNames a
       clear_value a)
    | with_reducible apply Keeps.ite
    | with_reducible apply loseItem_keeps
    | with_reducible apply returnItem_keeps
    | with_reducible apply semaRead_keeps
    | split
    | (with_reducible refine Keeps.fst (by assumption) ?_)

theorem releasePend_keeps {s0 s : State} (h : Keeps s0 s) (key) : Keeps s0 (releasePend s key) := by
  unfold releasePend
  repeat' first
    | with_reducible assumption
    | simp -zeta only [Keeps.upd_iff]
    | (extract_lets +onlyGivenNames a
       refine (fun (_ : Keeps s0 a) => ?_) ?_
       clear_value a
       rotate_left
       dsimp only [a]
       clear a)
    | (extract_lets +onlyGivenNames a
       clear_value a)
    | with_reducible apply Keeps.ite
    | with_reducible apply runPass_keeps
    | with_reducible apply semaRead_keeps
    | with_reducible apply setSlot_keeps
    | split
    | (with_reducible refine Keeps.fst (by assumption) ?_)
    | (with_reducible refine Keeps.upd ?_)

theorem semaReset_keeps {s0 s : State} (h : Keeps s0 s) : Keeps s0 (semaReset s) := by
  unfold semaReset
  repeat' first
    | with_reducible assumption
    | (intro _)
    | simp -zeta only [Keeps.upd_iff]
    | (extract_lets +onlyGivenNames a
       refine (fun (_ : Keeps s0 a) => ?_) ?_
       clear_value a
       rotate_left
       dsimp only [a]
       clear a)
    | (extract_lets +onlyGivenNames a
       clear_value a)
    | with_reducible apply drainGirder_keeps
    | with_reducible apply releasePend_keeps
    | with_reducible apply returnEntry_keeps
    | with_reducible apply Keeps.foldl
    | with_reducible apply Keeps.foldl_fst
    | with_reducible apply_assumption
    | (with_reducible refine Keeps.upd ?_)

theorem abcReset_keeps {s0 s : State} (h : Keeps s0 s) (c x) : Keeps s0 (abcReset s c x) := by
  unfold abcReset
  repeat' first
    | with_reducible assumption
    | (intro _)
    | simp -zeta only [Keeps.upd_iff]
    | (extract_lets +onlyGivenNames a
       refine (fun (_ : Keeps s0 a) => ?_) ?_
       clear_value a
       rotate_left
       dsimp only [a]
       clear a)
    | (extract_lets +onlyGivenNames a
       clear_value a)
    | with_reducible apply Keeps.ite
    | with_reducible apply abortHere_keeps
    | with_reducible apply setCtx_keeps
    | split
    | with_reducible apply_assumption
    | (with_reducible refine Keeps.upd ?_)

theorem pierReset_keeps {s0 s : State} (h : Keeps s0 s) (p) : Keeps s0 (pierReset s p) := by
  unfold pierReset
  repeat' first
    | with_reducible assumption
    | (intro _)
    | simp -zeta only [Keeps.upd_iff]
    | (extract_lets +onlyGivenNames a
       refine (fun (_ : Keeps s0 a) => ?_) ?_
       clear_value a
       rotate_left
       dsimp only [a]
       clear a)
    | (extract_lets +onlyGivenNames a
       clear_value a)
    | with_reducible apply flushAgent_keeps
    | with_reducible apply sendCancel_keeps
    | with_reducible apply setLane_keeps
    | with_reducible apply setPier_keeps
    | with_reducible apply Keeps.foldl
    | with_reducible apply Keeps.foldl_fst
    | split
    | with_reducible apply_assumption
    | (with_reducible refine Keeps.upd ?_)

theorem timeReset_keeps {s0 s : State} (h : Keeps s0 s) : Keeps s0 (timeReset s) := by
  unfold timeReset
  repeat' first
    | with_reducible assumption
    | simp -zeta only [Keeps.upd_iff]
    | (extract_lets +onlyGivenNames a
       refine (fun (_ : Keeps s0 a) => ?_) ?_
       clear_value a
       rotate_left
       dsimp only [a]
       clear a)
    | (extract_lets +onlyGivenNames a
       clear_value a)
    | with_reducible apply Keeps.ite
    | with_reducible apply setAl_keeps
    | (with_reducible refine Keeps.upd ?_)

theorem clkReset_keeps {s0 s : State} (h : Keeps s0 s) : Keeps s0 (clkReset s) := by
  unfold clkReset
  repeat' first
    | with_reducible assumption
    | with_reducible apply openAll_keeps

theorem viaReset_keeps {s0 s : State} (h : Keeps s0 s) (n) : Keeps s0 (viaReset s n) := by
  unfold viaReset
  repeat' first
    | with_reducible assumption
    | simp -zeta only [Keeps.upd_iff]
    | (extract_lets +onlyGivenNames a
       refine (fun (_ : Keeps s0 a) => ?_) ?_
       clear_value a
       rotate_left
       dsimp only [a]
       clear a)
    | (extract_lets +onlyGivenNames a
       clear_value a)
    | with_reducible apply Keeps.ite
    | with_reducible apply setPort_keeps
    | with_reducible apply toDown_keeps
    | (with_reducible refine Keeps.upd ?_)

theorem resetWorkOf_keeps {s0 s : State} (h : Keeps s0 s) (b pier) : Keeps s0 (resetWorkOf s b pier) := by
  unfold resetWorkOf
  repeat' first
    | with_reducible assumption
    | (intro _)
    | simp -zeta only [Keeps.upd_iff]
    | with_reducible apply abcReset_keeps
    | with_reducible apply clkReset_keeps
    | with_reducible apply decideLanes_keeps
    | with_reducible apply fwReset_keeps
    | with_reducible apply pierReset_keeps
    | with_reducible apply semaReset_keeps
    | with_reducible apply timeReset_keeps
    | with_reducible apply viaReset_keeps
    | with_reducible apply Keeps.foldl
    | with_reducible apply Keeps.foldl_fst
    | split
    | with_reducible apply_assumption
    | (with_reducible refine Keeps.upd ?_)

theorem blockReset_keeps {s0 s : State} (h : Keeps s0 s) (b pier) : Keeps s0 (blockReset s b pier) := by
  unfold blockReset
  repeat' first
    | with_reducible assumption
    | simp -zeta only [Keeps.upd_iff]
    | (extract_lets +onlyGivenNames a
       refine (fun (_ : Keeps s0 a) => ?_) ?_
       clear_value a
       rotate_left
       dsimp only [a]
       clear a)
    | (extract_lets +onlyGivenNames a
       clear_value a)
    | with_reducible apply Keeps.ite
    | with_reducible apply resetWorkOf_keeps
    | (with_reducible refine Keeps.upd ?_)

theorem carryResets_keeps {s0 s : State} (h : Keeps s0 s) (n done) : Keeps s0 (carryResets n done s) := by
  induction n generalizing s done with
  | zero => exact h
  | succ n ih =>
    unfold carryResets
    split
    · exact h
    · exact Keeps.ite (ih (Keeps.upd h) _) (Keeps.ite (ih (Keeps.upd h) _) (ih (blockReset_keeps (Keeps.upd h) _ _) _))

theorem resumeResets_keeps {s0 s : State} (h : Keeps s0 s) : Keeps s0 (resumeResets s) := by
  unfold resumeResets
  repeat' first
    | with_reducible assumption
    | simp -zeta only [Keeps.upd_iff]
    | (with_reducible refine Keeps.upd ?_)

theorem specialFaults_keeps {s0 s : State} (h : Keeps s0 s) : Keeps s0 (specialFaults s) := by
  unfold specialFaults
  repeat' first
    | with_reducible assumption
    | (extract_lets +onlyGivenNames a
       refine (fun (_ : Keeps s0 a) => ?_) ?_
       clear_value a
       rotate_left
       dsimp only [a]
       clear a)
    | (extract_lets +onlyGivenNames a
       clear_value a)
    | with_reducible apply Keeps.ite
    | with_reducible apply enterDegraded_keeps
    | with_reducible apply finjDone_keeps
    | with_reducible apply raise_keeps

theorem carryOn_keeps {s0 s : State} (h : Keeps s0 s) : Keeps s0 (carryOn s) := by
  unfold carryOn
  repeat' first
    | with_reducible assumption
    | with_reducible apply closeReady_keeps
    | with_reducible apply droopOver_keeps
    | with_reducible apply heldAnswers_keeps
    | with_reducible apply openEnds_keeps
    | with_reducible apply serveBeats_keeps

theorem finishStep_keeps {s0 s : State} (h : Keeps s0 s) : Keeps s0 (finishStep s) := by
  unfold finishStep
  repeat' first
    | with_reducible assumption
    | (extract_lets +onlyGivenNames a
       refine (fun (_ : Keeps s0 a) => ?_) ?_
       clear_value a
       rotate_left
       dsimp only [a]
       clear a)
    | (extract_lets +onlyGivenNames a
       clear_value a)
    | with_reducible apply carryOn_keeps
    | with_reducible apply carryResets_keeps
    | with_reducible apply gateAbandon_keeps
    | with_reducible apply specialFaults_keeps

theorem sealedRegs_wf (s : State) : Regs.wf (sealedRegs s) = true := by
  have hf : ∀ b ∈ List.range 17, w64 (regReset (rFstat b)) = 0 ∧ w64 (regReset (rFfirst b)) = 0 := by decide
  have hk : ∀ (l : List Nat) (f : SMap Word → Nat → SMap Word) (m : SMap Word),
      (∀ b ∈ l, ∀ m, Regs.wf m = true → Regs.wf (f m b) = true) → Regs.wf m = true → Regs.wf (l.foldl f m) = true := by
    intro l f
    induction l with
    | nil => intro m _ h; exact h
    | cons a r ih =>
      intro m hs h
      exact ih _ (fun b hb => hs b (List.mem_cons_of_mem _ hb)) (hs a List.mem_cons_self _ h)
  refine hk _ _ _ (fun b hb m hm => ?_) rfl
  obtain ⟨h1, h2⟩ := hf b hb
  have hst : ∀ v, Regs.wf (mset m (rFstat b) 0 v) = true := fun v => h1 ▸ regs_mset_wf (rFstat b) v hm
  extract_lets bits rec4 st m1
  split
  · exact h2 ▸ regs_mset_wf (rFfirst b) _ (hst _)
  · exact hst _

theorem resetFalls_keeps {s0 s : State} (h : Keeps s0 s) (powerOn) : Keeps s0 (resetFalls s powerOn) := by
  refine h.trans ?_
  unfold resetFalls
  extract_lets base
  split
  · exact ⟨rfl, rfl, fun i => ⟨i.mem, rfl⟩⟩
  · exact ⟨rfl, rfl, fun i => ⟨i.mem, sealedRegs_wf s⟩⟩

theorem resetRises_keeps {s0 s : State} (h : Keeps s0 s) : Keeps s0 (resetRises s) := by
  unfold resetRises
  repeat' first
    | with_reducible assumption
    | (intro _)
    | simp -zeta only [Keeps.upd_iff]
    | (extract_lets +onlyGivenNames a
       refine (fun (_ : Keeps s0 a) => ?_) ?_
       clear_value a
       rotate_left
       dsimp only [a]
       clear a)
    | (extract_lets +onlyGivenNames a
       clear_value a)
    | with_reducible apply Keeps.ite
    | with_reducible apply raise_keeps
    | with_reducible apply setPier_keeps
    | with_reducible apply Keeps.foldl
    | with_reducible apply Keeps.foldl_fst
    | with_reducible apply_assumption
    | (with_reducible refine Keeps.upd ?_)

end Sys2Proof.Machine
end

