-- ==== Sys2Proof/Laws/KeepObserve.lean ====
section
/-! SUPPORT. What the operations of Machine/Observe.lean keep (Laws/Keeps.lean). -/
set_option linter.tactic.unusedName false
set_option linter.unusedSimpArgs false
namespace Sys2Proof.Machine

theorem clearCounters_keeps {s0 s : State} (h : Keeps s0 s) (first last) : Keeps s0 (clearCounters s first last) := by
  unfold clearCounters
  repeat' first
    | with_reducible assumption
    | (intro _)
    | simp -zeta only [Keeps.upd_iff]
    | (extract_lets +onlyGivenNames a
       refine (fun (_ : Keeps s0 a) => ?_) ?_
       clear_value a
       rotate_left
       dsimp only [a]
       clear a)
    | (extract_lets +onlyGivenNames a
       clear_value a)
    | with_reducible apply Keeps.ite
    | with_reducible apply put_keeps
    | with_reducible apply Keeps.foldl
    | with_reducible apply Keeps.foldl_fst
    | with_reducible apply_assumption
    | (with_reducible refine Keeps.upd ?_)

theorem takeSample_keeps {s0 s : State} (h : Keeps s0 s) : Keeps s0 (takeSample s) := by
  unfold takeSample
  repeat' first
    | with_reducible assumption
    | (intro _)
    | simp -zeta only [Keeps.upd_iff]
    | (extract_lets +onlyGivenNames a
       refine (fun (_ : Keeps s0 a) => ?_) ?_
       clear_value a
       rotate_left
       dsimp only [a]
       clear a)
    | (extract_lets +onlyGivenNames a
       clear_value a)
    | with_reducible apply Keeps.ite
    | with_reducible apply bump_keeps
    | (with_reducible refine Keeps.upd ?_)

theorem ringWrite_wf {m : List Host.Cell} (base log c l) (h : Memory.wf m = true) : Memory.wf (ringWrite m base log c l) = true := by
  induction l generalizing m c with
  | nil => exact h
  | cons b r ih => exact ih _ (memPut_wf _ _ h)

theorem sampleWritten_keeps {s0 s : State} (h : Keeps s0 s) (err) : Keeps s0 (sampleWritten s err) := by
  unfold sampleWritten
  split
  · exact h
  · exact Keeps.ite (raise_keeps (bump_keeps (Keeps.upd (Keeps.upd h)) _ _) _ _ _)
      (tickFixed_keeps (put_keeps (Keeps.updMem (ringWrite_wf _ _ _ _) (Keeps.upd h)) _ _) _ _)

theorem traceWritten_keeps {s0 s : State} (h : Keeps s0 s) (err) : Keeps s0 (traceWritten s err) := by
  unfold traceWritten
  split
  · exact h
  · exact Keeps.ite (raise_keeps (bump_keeps (Keeps.upd h) _ _) _ _ _)
      (tickFixed_keeps (put_keeps (Keeps.updMem (ringWrite_wf _ _ _ _) (Keeps.upd h)) _ _) _ _)

theorem masterResponse_keeps {s0 s : State} (h : Keeps s0 s) (kind err) : Keeps s0 (masterResponse s kind err) := by
  unfold masterResponse
  repeat' first
    | with_reducible assumption
    | simp -zeta only [Keeps.upd_iff]
    | with_reducible apply Keeps.ite
    | with_reducible apply pageIo_keeps
    | with_reducible apply raise_keeps
    | with_reducible apply sampleWritten_keeps
    | with_reducible apply traceWritten_keeps
    | split

theorem sampWrite_keeps {s0 s : State} (h : Keeps s0 s) (w) : Keeps s0 (sampWrite s w) := by
  unfold sampWrite
  repeat' first
    | with_reducible assumption
    | simp -zeta only [Keeps.upd_iff]
    | (extract_lets +onlyGivenNames a
       refine (fun (_ : Keeps s0 a) => ?_) ?_
       clear_value a
       rotate_left
       dsimp only [a]
       clear a)
    | (extract_lets +onlyGivenNames a
       clear_value a)
    | with_reducible apply Keeps.ite
    | with_reducible apply wr_keeps
    | (with_reducible refine Keeps.upd ?_)

theorem ringSet_keeps {s0 s : State} (h : Keeps s0 s) (w) : Keeps s0 (ringSet s w) := by
  unfold ringSet
  repeat' first
    | with_reducible assumption
    | with_reducible apply Keeps.ite
    | with_reducible apply put_keeps
    | with_reducible apply wr_keeps

theorem trRingSet_keeps {s0 s : State} (h : Keeps s0 s) (w) : Keeps s0 (trRingSet s w) := by
  unfold trRingSet
  repeat' first
    | with_reducible assumption
    | with_reducible apply Keeps.ite
    | with_reducible apply put_keeps
    | with_reducible apply wr_keeps

theorem tailWrite_keeps {s0 s : State} (h : Keeps s0 s) (head tail log v) : Keeps s0 (tailWrite s head tail log v) := by
  unfold tailWrite
  repeat' first
    | with_reducible assumption
    | with_reducible apply Keeps.ite
    | with_reducible apply put_keeps

theorem stop_keeps {s0 s : State} (h : Keeps s0 s) (late) : Keeps s0 (stop s late) := by
  unfold stop
  repeat' first
    | with_reducible assumption
    | (intro _)
    | simp -zeta only [Keeps.upd_iff]
    | (extract_lets +onlyGivenNames a
       refine (fun (_ : Keeps s0 a) => ?_) ?_
       clear_value a
       rotate_left
       dsimp only [a]
       clear a)
    | (extract_lets +onlyGivenNames a
       clear_value a)
    | with_reducible apply Keeps.ite
    | with_reducible apply put_keeps
    | with_reducible apply setPort_keeps
    | with_reducible apply wr_keeps
    | with_reducible apply Keeps.foldl
    | with_reducible apply Keeps.foldl_fst
    | with_reducible apply_assumption
    | (with_reducible refine Keeps.upd ?_)

theorem doArm_keeps {s0 s : State} (h : Keeps s0 s) (holdto) : Keeps s0 (doArm s holdto) := by
  unfold doArm
  repeat' first
    | with_reducible assumption
    | simp -zeta only [Keeps.upd_iff]
    | (extract_lets +onlyGivenNames a
       refine (fun (_ : Keeps s0 a) => ?_) ?_
       clear_value a
       rotate_left
       dsimp only [a]
       clear a)
    | (extract_lets +onlyGivenNames a
       clear_value a)
    | with_reducible apply Keeps.ite
    | with_reducible apply stop_keeps
    | with_reducible apply wr_keeps
    | (with_reducible refine Keeps.upd ?_)

theorem doDisarm_keeps {s0 s : State} (h : Keeps s0 s) : Keeps s0 (doDisarm s) := by
  unfold doDisarm
  repeat' first
    | with_reducible assumption
    | with_reducible apply Keeps.ite
    | with_reducible apply put_keeps

theorem freezeTick_keeps {s0 s : State} (h : Keeps s0 s) : Keeps s0 (freezeTick s) := by
  unfold freezeTick
  repeat' first
    | with_reducible assumption
    | with_reducible apply Keeps.ite
    | with_reducible apply stop_keeps

theorem frozenAt_keeps {s0 s : State} (h : Keeps s0 s) : Keeps s0 (frozenAt s) := by
  unfold frozenAt
  repeat' first
    | with_reducible assumption
    | (intro _)
    | (extract_lets +onlyGivenNames a
       refine (fun (_ : Keeps s0 a) => ?_) ?_
       clear_value a
       rotate_left
       dsimp only [a]
       clear a)
    | (extract_lets +onlyGivenNames a
       clear_value a)
    | with_reducible apply Keeps.ite
    | with_reducible apply put_keeps

theorem thawFrom_keeps {s0 s : State} (h : Keeps s0 s) (h') : Keeps s0 (thawFrom s h') := by
  unfold thawFrom
  repeat' first
    | with_reducible assumption
    | simp -zeta only [Keeps.upd_iff]
    | with_reducible apply put_keeps
    | (with_reducible refine Keeps.upd ?_)

theorem doThaw_keeps {s0 s : State} (h : Keeps s0 s) : Keeps s0 (doThaw s) := by
  unfold doThaw
  repeat' first
    | with_reducible assumption
    | with_reducible apply Keeps.ite
    | with_reducible apply thawFrom_keeps

theorem doThawat_keeps {s0 s : State} (h : Keeps s0 s) : Keeps s0 (doThawat s) := by
  unfold doThawat
  repeat' first
    | with_reducible assumption
    | simp -zeta only [Keeps.upd_iff]
    | (extract_lets +onlyGivenNames a
       refine (fun (_ : Keeps s0 a) => ?_) ?_
       clear_value a
       rotate_left
       dsimp only [a]
       clear a)
    | (extract_lets +onlyGivenNames a
       clear_value a)
    | with_reducible apply Keeps.ite
    | with_reducible apply thawFrom_keeps
    | (with_reducible refine Keeps.upd ?_)

theorem thawTick__keeps {s0 s : State} (h : Keeps s0 s) : Keeps s0 (thawTick_ s) := by
  unfold thawTick_
  repeat' first
    | with_reducible assumption
    | simp -zeta only [Keeps.upd_iff]
    | with_reducible apply Keeps.ite
    | with_reducible apply thawFrom_keeps
    | split

theorem advance_keeps {s0 s : State} (h : Keeps s0 s) (d) : Keeps s0 (advance s d) := by
  unfold advance
  repeat' first
    | with_reducible assumption
    | (intro _)
    | simp -zeta only [Keeps.upd_iff]
    | (with_reducible refine Keeps.upd ?_)

theorem runDeferred_keeps {s0 s : State} (h : Keeps s0 s) (x0) : Keeps s0 (runDeferred s x0) := by
  unfold runDeferred
  repeat' first
    | with_reducible assumption
    | with_reducible apply beginMeasure_keeps
    | with_reducible apply doAlign_keeps
    | with_reducible apply doClose_keeps
    | with_reducible apply doForced_keeps
    | with_reducible apply doGateClose_keeps
    | with_reducible apply doGateOpen_keeps
    | with_reducible apply doOpen_keeps
    | with_reducible apply doQuiesce_keeps
    | with_reducible apply doReset_keeps
    | with_reducible apply doResume_keeps
    | with_reducible apply put_keeps
    | split

theorem thawed_keeps {s0 s : State} (h : Keeps s0 s) : Keeps s0 (thawed s) := by
  unfold thawed
  repeat' first
    | with_reducible assumption
    | (intro _)
    | simp -zeta only [Keeps.upd_iff]
    | (extract_lets +onlyGivenNames a
       refine (fun (_ : Keeps s0 a) => ?_) ?_
       clear_value a
       rotate_left
       dsimp only [a]
       clear a)
    | (extract_lets +onlyGivenNames a
       clear_value a)
    | with_reducible apply Keeps.ite
    | with_reducible apply advance_keeps
    | with_reducible apply decideLanes_keeps
    | with_reducible apply present_keeps
    | with_reducible apply put_keeps
    | with_reducible apply resumeResets_keeps
    | with_reducible apply resumeTimers_keeps
    | with_reducible apply runDeferred_keeps
    | with_reducible apply setPort_keeps
    | with_reducible apply thawPort_keeps
    | with_reducible apply Keeps.foldl
    | with_reducible apply Keeps.foldl_fst
    | split
    | with_reducible apply_assumption
    | (with_reducible refine Keeps.upd ?_)

theorem mirrorWhole_keeps {s0 s : State} (h : Keeps s0 s) (t) : Keeps s0 (mirrorWhole s t) := by
  unfold mirrorWhole
  repeat' first
    | with_reducible assumption
    | (intro _)
    | simp -zeta only [Keeps.upd_iff]
    | (extract_lets +onlyGivenNames a
       refine (fun (_ : Keeps s0 a) => ?_) ?_
       clear_value a
       rotate_left
       dsimp only [a]
       clear a)
    | (extract_lets +onlyGivenNames a
       clear_value a)
    | with_reducible apply Keeps.ite
    | with_reducible apply put_keeps
    | (with_reducible refine Keeps.upd ?_)

theorem idle_keeps {s0 s : State} (h : Keeps s0 s) : Keeps s0 (idle s) := by
  unfold idle
  repeat' first
    | with_reducible assumption
    | (intro _)
    | simp -zeta only [Keeps.upd_iff]
    | (extract_lets +onlyGivenNames a
       refine (fun (_ : Keeps s0 a) => ?_) ?_
       clear_value a
       rotate_left
       dsimp only [a]
       clear a)
    | (extract_lets +onlyGivenNames a
       clear_value a)
    | with_reducible apply Keeps.ite
    | with_reducible apply mirrorWhole_keeps
    | with_reducible apply Keeps.foldl
    | with_reducible apply Keeps.foldl_fst
    | with_reducible apply_assumption
    | (with_reducible refine Keeps.upd ?_)

end Sys2Proof.Machine
end

