-- ==== Sys2Proof/Laws/KeepSnapshot.lean ====
section
/-! SUPPORT. What the operations of Machine/Snapshot.lean keep (Laws/Keeps.lean). -/
set_option linter.tactic.unusedName false
set_option linter.unusedSimpArgs false
namespace Sys2Proof.Machine

theorem windowRead_keeps {s0 s : State} (h : Keeps s0 s) (b target unit index ce ue detail) : Keeps s0 (windowRead s b target unit index ce ue detail) := by
  unfold windowRead
  repeat' first
    | with_reducible assumption
    | simp -zeta only [Keeps.upd_iff]
    | (extract_lets +onlyGivenNames a
       refine (fun (_ : Keeps s0 a) => ?_) ?_
       clear_value a
       rotate_left
       dsimp only [a]
       clear a)
    | (extract_lets +onlyGivenNames a
       clear_value a)
    | with_reducible apply chkRead_keeps
    | with_reducible apply raise_keeps
    | split
    | (with_reducible refine Keeps.fst (by assumption) ?_)
    | (with_reducible refine Keeps.upd ?_)

theorem objectRead_keeps {s0 s : State} (h : Keeps s0 s) (key j) : Keeps s0 (objectRead s key j) := by
  unfold objectRead
  repeat' first
    | with_reducible assumption
    | simp -zeta only [Keeps.upd_iff]
    | (extract_lets +onlyGivenNames a
       refine (fun (_ : Keeps s0 a) => ?_) ?_
       clear_value a
       rotate_left
       dsimp only [a]
       clear a)
    | (extract_lets +onlyGivenNames a
       clear_value a)
    | with_reducible apply Keeps.ite
    | with_reducible apply chkRead_keeps
    | with_reducible apply poisonObj_keeps
    | with_reducible apply raise_keeps
    | with_reducible apply tagRead_keeps
    | with_reducible apply windowRead_keeps
    | split
    | (with_reducible refine Keeps.fst (by assumption) ?_)

theorem waiterRead_keeps {s0 s : State} (h : Keeps s0 s) (r j) : Keeps s0 (waiterRead s r j) := by
  unfold waiterRead
  repeat' first
    | with_reducible assumption
    | simp -zeta only [Keeps.upd_iff]
    | (extract_lets +onlyGivenNames a
       refine (fun (_ : Keeps s0 a) => ?_) ?_
       clear_value a
       rotate_left
       dsimp only [a]
       clear a)
    | (extract_lets +onlyGivenNames a
       clear_value a)
    | with_reducible apply chkRead_keeps
    | with_reducible apply dropWaiter_keeps
    | with_reducible apply raise_keeps
    | split
    | (with_reducible refine Keeps.fst (by assumption) ?_)

theorem headRead_keeps {s0 s : State} (h : Keeps s0 s) (a q j) : Keeps s0 (headRead s a q j) := by
  unfold headRead
  repeat' first
    | with_reducible assumption
    | simp -zeta only [Keeps.upd_iff]
    | (extract_lets +onlyGivenNames a
       refine (fun (_ : Keeps s0 a) => ?_) ?_
       clear_value a
       rotate_left
       dsimp only [a]
       clear a)
    | (extract_lets +onlyGivenNames a
       clear_value a)
    | with_reducible apply Keeps.ite
    | with_reducible apply windowRead_keeps
    | split

theorem flyingRead_keeps {s0 s : State} (h : Keeps s0 s) (f) : Keeps s0 (flyingRead s f) := by
  unfold flyingRead
  repeat' first
    | with_reducible assumption
    | simp -zeta only [Keeps.upd_iff]
    | with_reducible apply windowRead_keeps
    | split

theorem snapRead_keeps {s0 s : State} (h : Keeps s0 s) (k) : Keeps s0 (snapRead s k) := by
  unfold snapRead
  repeat' first
    | with_reducible assumption
    | simp -zeta only [Keeps.upd_iff]
    | (extract_lets +onlyGivenNames a
       refine (fun (_ : Keeps s0 a) => ?_) ?_
       clear_value a
       rotate_left
       dsimp only [a]
       clear a)
    | (extract_lets +onlyGivenNames a
       clear_value a)
    | with_reducible apply Keeps.ite
    | with_reducible apply flyingRead_keeps
    | with_reducible apply headRead_keeps
    | with_reducible apply objectRead_keeps
    | with_reducible apply readRecord_keeps
    | with_reducible apply waiterRead_keeps
    | with_reducible apply windowRead_keeps
    | split

theorem sncmdEnds_keeps {s0 s : State} (h : Keeps s0 s) (st) : Keeps s0 (sncmdEnds s st) := by
  unfold sncmdEnds
  repeat' first
    | with_reducible assumption
    | with_reducible apply put_keeps

theorem sncmdBegin_keeps {s0 s : State} (h : Keeps s0 s) (hang) : Keeps s0 (sncmdBegin s hang) := by
  unfold sncmdBegin
  repeat' first
    | with_reducible assumption
    | simp -zeta only [Keeps.upd_iff]
    | with_reducible apply Keeps.ite
    | with_reducible apply put_keeps
    | with_reducible apply sncmdEnds_keeps
    | (with_reducible refine Keeps.upd ?_)

theorem sncmdReserved_keeps {s0 s : State} (h : Keeps s0 s) : Keeps s0 (sncmdReserved s) := by
  unfold sncmdReserved
  repeat' first
    | with_reducible assumption
    | with_reducible apply Keeps.ite
    | with_reducible apply sncmdEnds_keeps

theorem sncmdFinish_keeps {s0 s : State} (h : Keeps s0 s) : Keeps s0 (sncmdFinish s) := by
  unfold sncmdFinish
  split
  · exact h
  · apply Keeps.ite h
    generalize (List.range 2097152).map (snapWord s) = ws
    extract_lets +onlyGivenNames done
    have hd : ∀ x, Keeps s0 x → Keeps s0 (done x) := fun x hx => sncmdEnds_keeps (Keeps.upd hx) _
    clear_value done
    apply Keeps.ite (hd _ (Keeps.updMem (memWords_wf _ _) h))
    exact hd _ (put_keeps (put_keeps (Keeps.updMem (memWords_wf _ _) h) _ _) _ _)

end Sys2Proof.Machine
end

