-- ==== Sys2Proof/Laws/KeepMarionette.lean ====
section
/-! SUPPORT. What the operations of Machine/Marionette.lean keep (Laws/Keeps.lean). -/
set_option linter.tactic.unusedName false
set_option linter.unusedSimpArgs false
namespace Sys2Proof.Machine

theorem doSetval_keeps {s0 s : State} (h : Keeps s0 s) : Keeps s0 (doSetval s) := by
  unfold doSetval
  repeat' first
    | with_reducible assumption
    | simp -zeta only [Keeps.upd_iff]
    | (extract_lets +onlyGivenNames a
       refine (fun (_ : Keeps s0 a) => ?_) ?_
       clear_value a
       rotate_left
       dsimp only [a]
       clear a)
    | (extract_lets +onlyGivenNames a
       clear_value a)
    | with_reducible apply Keeps.ite
    | with_reducible apply imgSetval_keeps
    | with_reducible apply marDone_keeps
    | with_reducible apply marWaits_keeps
    | with_reducible apply pushPaging_keeps
    | with_reducible apply setvalAt_keeps
    | split

theorem doMarRead_keeps {s0 s : State} (h : Keeps s0 s) : Keeps s0 (doMarRead s) := by
  unfold doMarRead
  repeat' first
    | with_reducible assumption
    | simp -zeta only [Keeps.upd_iff]
    | (extract_lets +onlyGivenNames a
       refine (fun (_ : Keeps s0 a) => ?_) ?_
       clear_value a
       rotate_left
       dsimp only [a]
       clear a)
    | (extract_lets +onlyGivenNames a
       clear_value a)
    | with_reducible apply marApplied_keeps
    | with_reducible apply marDone_keeps
    | with_reducible apply readSlot_keeps
    | with_reducible apply wr_keeps
    | split

theorem doCancelQ_keeps {s0 s : State} (h : Keeps s0 s) : Keeps s0 (doCancelQ s) := by
  unfold doCancelQ
  repeat' first
    | with_reducible assumption
    | simp -zeta only [Keeps.upd_iff]
    | (extract_lets +onlyGivenNames a
       refine (fun (_ : Keeps s0 a) => ?_) ?_
       clear_value a
       rotate_left
       dsimp only [a]
       clear a)
    | (extract_lets +onlyGivenNames a
       clear_value a)
    | with_reducible apply Keeps.ite
    | with_reducible apply endHeld_keeps
    | with_reducible apply failWith_keeps
    | with_reducible apply marApplied_keeps
    | with_reducible apply marDone_keeps
    | with_reducible apply sendCancel_keeps
    | split
    | (with_reducible refine Keeps.upd ?_)

theorem doCancelW_keeps {s0 s : State} (h : Keeps s0 s) : Keeps s0 (doCancelW s) := by
  unfold doCancelW
  repeat' first
    | with_reducible assumption
    | (intro _)
    | simp -zeta only [Keeps.upd_iff]
    | (extract_lets +onlyGivenNames a
       refine (fun (_ : Keeps s0 a) => ?_) ?_
       clear_value a
       rotate_left
       dsimp only [a]
       clear a)
    | (extract_lets +onlyGivenNames a
       clear_value a)
    | with_reducible apply Keeps.ite
    | with_reducible apply bump_keeps
    | with_reducible apply endWaiter_keeps
    | with_reducible apply marApplied_keeps
    | with_reducible apply marDone_keeps
    | split

theorem doForceLane_keeps {s0 s : State} (h : Keeps s0 s) : Keeps s0 (doForceLane s) := by
  unfold doForceLane
  repeat' first
    | with_reducible assumption
    | (extract_lets +onlyGivenNames a
       refine (fun (_ : Keeps s0 a) => ?_) ?_
       clear_value a
       rotate_left
       dsimp only [a]
       clear a)
    | (extract_lets +onlyGivenNames a
       clear_value a)
    | with_reducible apply Keeps.ite
    | with_reducible apply forceLane__keeps
    | with_reducible apply marApplied_keeps
    | with_reducible apply marDone_keeps

theorem marReserved_keeps {s0 s : State} (h : Keeps s0 s) (op) : Keeps s0 (marReserved s op) := by
  unfold marReserved
  repeat' first
    | with_reducible assumption
    | with_reducible apply marDone_keeps

end Sys2Proof.Machine
end

