-- ==== Sys2Proof/Laws/KeepManage.lean ====
section
/-! SUPPORT. What the operations of Machine/Manage.lean keep (Laws/Keeps.lean). -/
set_option linter.tactic.unusedName false
set_option linter.unusedSimpArgs false
namespace Sys2Proof.Machine

theorem noRight_keeps {s0 s : State} (h : Keeps s0 s) (r effective) : Keeps s0 (noRight s r effective) := by
  unfold noRight
  repeat' first
    | with_reducible assumption
    | with_reducible apply Keeps.ite
    | with_reducible apply raise_keeps

theorem withRight_keeps {s0 s : State} (h : Keeps s0 s) (r right effective) {f : State → State} (hf : ∀ x, Keeps s0 x → Keeps s0 (f x)) : Keeps s0 (withRight s r right effective f) := by
  unfold withRight
  repeat' first
    | with_reducible assumption
    | simp -zeta only [Keeps.upd_iff]
    | with_reducible apply Keeps.ite
    | with_reducible apply noRight_keeps
    | with_reducible apply_assumption

theorem badAccess_keeps {s0 s : State} (h : Keeps s0 s) (r) : Keeps s0 (badAccess s r) := by
  unfold badAccess
  repeat' first
    | with_reducible assumption
    | with_reducible apply raise_keeps

theorem access_keeps {s0 s : State} (h : Keeps s0 s) (r off) {f : State → State} (hf : ∀ x, Keeps s0 x → Keeps s0 (f x)) : Keeps s0 (access s r off f) := by
  unfold access
  repeat' first
    | with_reducible assumption
    | with_reducible apply Keeps.ite
    | with_reducible apply badAccess_keeps
    | with_reducible apply_assumption

theorem plainWrite_keeps {s0 s : State} (h : Keeps s0 s) (r off data) : Keeps s0 (plainWrite s r off data) := by
  unfold plainWrite
  repeat' first
    | with_reducible assumption
    | simp -zeta only [Keeps.upd_iff]
    | (extract_lets +onlyGivenNames a
       refine (fun (_ : Keeps s0 a) => ?_) ?_
       clear_value a
       rotate_left
       dsimp only [a]
       clear a)
    | (extract_lets +onlyGivenNames a
       clear_value a)
    | with_reducible apply Keeps.ite
    | with_reducible apply raise_keeps
    | with_reducible apply wr_keeps
    | split

theorem wCoreStep_keeps {s0 s : State} (h : Keeps s0 s) (r data) : Keeps s0 (wCoreStep s r data) := by
  unfold wCoreStep
  repeat' first
    | with_reducible assumption
    | (intro _)
    | simp -zeta only [Keeps.upd_iff]
    | (extract_lets +onlyGivenNames a
       refine (fun (_ : Keeps s0 a) => ?_) ?_
       clear_value a
       rotate_left
       dsimp only [a]
       clear a)
    | (extract_lets +onlyGivenNames a
       clear_value a)
    | with_reducible apply coreStep__keeps
    | with_reducible apply withRight_keeps

theorem wKeyCtl_keeps {s0 s : State} (h : Keeps s0 s) (data) : Keeps s0 (wKeyCtl s data) := by
  unfold wKeyCtl
  repeat' first
    | with_reducible assumption
    | with_reducible apply Keeps.ite
    | with_reducible apply keyLock__keeps

theorem wTenCfg_keeps {s0 s : State} (h : Keeps s0 s) (r t data) : Keeps s0 (wTenCfg s r t data) := by
  unfold wTenCfg
  repeat' first
    | with_reducible assumption
    | (intro _)
    | simp -zeta only [Keeps.upd_iff]
    | with_reducible apply cfgWrite_keeps
    | with_reducible apply withRight_keeps

theorem wTenShare_keeps {s0 s : State} (h : Keeps s0 s) (r t word data) : Keeps s0 (wTenShare s r t word data) := by
  unfold wTenShare
  repeat' first
    | with_reducible assumption
    | (intro _)
    | simp -zeta only [Keeps.upd_iff]
    | (extract_lets +onlyGivenNames a
       refine (fun (_ : Keeps s0 a) => ?_) ?_
       clear_value a
       rotate_left
       dsimp only [a]
       clear a)
    | (extract_lets +onlyGivenNames a
       clear_value a)
    | with_reducible apply Keeps.ite
    | with_reducible apply shareWrite_keeps
    | with_reducible apply withRight_keeps

theorem wTenImp_keeps {s0 s : State} (h : Keeps s0 s) (r t i data) : Keeps s0 (wTenImp s r t i data) := by
  unfold wTenImp
  repeat' first
    | with_reducible assumption
    | (intro _)
    | simp -zeta only [Keeps.upd_iff]
    | with_reducible apply impWrite_keeps
    | with_reducible apply withRight_keeps

theorem wAgtBind_keeps {s0 s : State} (h : Keeps s0 s) (r a data) : Keeps s0 (wAgtBind s r a data) := by
  unfold wAgtBind
  repeat' first
    | with_reducible assumption
    | (intro _)
    | simp -zeta only [Keeps.upd_iff]
    | with_reducible apply bindWrite_keeps
    | with_reducible apply withRight_keeps

theorem defer_keeps {s0 s : State} (h : Keeps s0 s) (c) : Keeps s0 (defer s c) := by
  unfold defer
  repeat' first
    | with_reducible assumption
    | simp -zeta only [Keeps.upd_iff]
    | (with_reducible refine Keeps.upd ?_)

theorem wTenOp_keeps {s0 s : State} (h : Keeps s0 s) (r t op c) {f : State → State} (hf : ∀ x, Keeps s0 x → Keeps s0 (f x)) : Keeps s0 (wTenOp s r t op c f) := by
  unfold wTenOp
  repeat' first
    | with_reducible assumption
    | (intro _)
    | simp -zeta only [Keeps.upd_iff]
    | with_reducible apply Keeps.ite
    | with_reducible apply defer_keeps
    | with_reducible apply tenBusy_keeps
    | with_reducible apply withRight_keeps
    | with_reducible apply_assumption

theorem wTenCmd_keeps {s0 s : State} (h : Keeps s0 s) (r t data) : Keeps s0 (wTenCmd s r t data) := by
  unfold wTenCmd
  repeat' first
    | with_reducible assumption
    | (intro _)
    | simp -zeta only [Keeps.upd_iff]
    | (extract_lets +onlyGivenNames a
       refine (fun (_ : Keeps s0 a) => ?_) ?_
       clear_value a
       rotate_left
       dsimp only [a]
       clear a)
    | (extract_lets +onlyGivenNames a
       clear_value a)
    | with_reducible apply Keeps.ite
    | with_reducible apply doForced_keeps
    | with_reducible apply doQuiesce_keeps
    | with_reducible apply doReset_keeps
    | with_reducible apply doResume_keeps
    | with_reducible apply wTenOp_keeps
    | split

theorem wSemaHtw_keeps {s0 s : State} (h : Keeps s0 s) (r t data) : Keeps s0 (wSemaHtw s r t data) := by
  unfold wSemaHtw
  repeat' first
    | with_reducible assumption
    | (intro _)
    | simp -zeta only [Keeps.upd_iff]
    | (extract_lets +onlyGivenNames a
       refine (fun (_ : Keeps s0 a) => ?_) ?_
       clear_value a
       rotate_left
       dsimp only [a]
       clear a)
    | (extract_lets +onlyGivenNames a
       clear_value a)
    | with_reducible apply Keeps.ite
    | with_reducible apply raise_keeps
    | with_reducible apply withRight_keeps
    | with_reducible apply wr_keeps

theorem wSemaBack_keeps {s0 s : State} (h : Keeps s0 s) (r t data) : Keeps s0 (wSemaBack s r t data) := by
  unfold wSemaBack
  repeat' first
    | with_reducible assumption
    | (intro _)
    | simp -zeta only [Keeps.upd_iff]
    | (extract_lets +onlyGivenNames a
       refine (fun (_ : Keeps s0 a) => ?_) ?_
       clear_value a
       rotate_left
       dsimp only [a]
       clear a)
    | (extract_lets +onlyGivenNames a
       clear_value a)
    | with_reducible apply Keeps.ite
    | with_reducible apply raise_keeps
    | with_reducible apply withRight_keeps
    | with_reducible apply wr_keeps

theorem wSemaPair_keeps {s0 s : State} (h : Keeps s0 s) (r data) : Keeps s0 (wSemaPair s r data) := by
  unfold wSemaPair
  repeat' first
    | with_reducible assumption
    | (intro _)
    | simp -zeta only [Keeps.upd_iff]
    | (extract_lets +onlyGivenNames a
       refine (fun (_ : Keeps s0 a) => ?_) ?_
       clear_value a
       rotate_left
       dsimp only [a]
       clear a)
    | (extract_lets +onlyGivenNames a
       clear_value a)
    | with_reducible apply Keeps.ite
    | with_reducible apply raise_keeps
    | with_reducible apply withRight_keeps
    | with_reducible apply wr_keeps

theorem wAbcOp_keeps {s0 s : State} (h : Keeps s0 s) (r bits) {f : State → State} (hf : ∀ x, Keeps s0 x → Keeps s0 (f x)) : Keeps s0 (wAbcOp s r bits f) := by
  unfold wAbcOp
  repeat' first
    | with_reducible assumption
    | (intro _)
    | simp -zeta only [Keeps.upd_iff]
    | with_reducible apply Keeps.ite
    | with_reducible apply raise_keeps
    | with_reducible apply withRight_keeps
    | with_reducible apply_assumption

theorem wAbcOpen_keeps {s0 s : State} (h : Keeps s0 s) (r c) : Keeps s0 (wAbcOpen s r c) := by
  unfold wAbcOpen
  repeat' first
    | with_reducible assumption
    | (intro _)
    | with_reducible apply Keeps.ite
    | with_reducible apply defer_keeps
    | with_reducible apply doOpen_keeps
    | with_reducible apply setCmdst_keeps
    | with_reducible apply wAbcOp_keeps

theorem wAbcClose_keeps {s0 s : State} (h : Keeps s0 s) (r c) : Keeps s0 (wAbcClose s r c) := by
  unfold wAbcClose
  repeat' first
    | with_reducible assumption
    | (intro _)
    | with_reducible apply Keeps.ite
    | with_reducible apply defer_keeps
    | with_reducible apply doClose_keeps
    | with_reducible apply setCmdst_keeps
    | with_reducible apply wAbcOp_keeps

theorem wAbcRead_keeps {s0 s : State} (h : Keeps s0 s) (r c) : Keeps s0 (wAbcRead s r c) := by
  unfold wAbcRead
  repeat' first
    | with_reducible assumption
    | (intro _)
    | with_reducible apply doRead_keeps
    | with_reducible apply wAbcOp_keeps

theorem wAbcCmd_keeps {s0 s : State} (h : Keeps s0 s) (r data) : Keeps s0 (wAbcCmd s r data) := by
  unfold wAbcCmd
  repeat' first
    | with_reducible assumption
    | (intro _)
    | simp -zeta only [Keeps.upd_iff]
    | (extract_lets +onlyGivenNames a
       refine (fun (_ : Keeps s0 a) => ?_) ?_
       clear_value a
       rotate_left
       dsimp only [a]
       clear a)
    | (extract_lets +onlyGivenNames a
       clear_value a)
    | with_reducible apply setCmdst_keeps
    | with_reducible apply wAbcClose_keeps
    | with_reducible apply wAbcOp_keeps
    | with_reducible apply wAbcOpen_keeps
    | with_reducible apply wAbcRead_keeps
    | split

theorem lenWrite_keeps {s0 s : State} (h : Keeps s0 s) (l w data) : Keeps s0 (lenWrite s l w data) := by
  unfold lenWrite
  repeat' first
    | with_reducible assumption
    | simp -zeta only [Keeps.upd_iff]
    | (extract_lets +onlyGivenNames a
       refine (fun (_ : Keeps s0 a) => ?_) ?_
       clear_value a
       rotate_left
       dsimp only [a]
       clear a)
    | (extract_lets +onlyGivenNames a
       clear_value a)
    | with_reducible apply Keeps.ite
    | with_reducible apply decideLane_keeps
    | with_reducible apply setLane_keeps
    | with_reducible apply wr_keeps
    | (with_reducible refine Keeps.upd ?_)

theorem wTrsLen_keeps {s0 s : State} (h : Keeps s0 s) (r l w data) : Keeps s0 (wTrsLen s r l w data) := by
  unfold wTrsLen
  repeat' first
    | with_reducible assumption
    | (intro _)
    | simp -zeta only [Keeps.upd_iff]
    | with_reducible apply lenWrite_keeps
    | with_reducible apply withRight_keeps

theorem wTrsLcfg_keeps {s0 s : State} (h : Keeps s0 s) (r l xdie data) : Keeps s0 (wTrsLcfg s r l xdie data) := by
  unfold wTrsLcfg
  repeat' first
    | with_reducible assumption
    | (intro _)
    | simp -zeta only [Keeps.upd_iff]
    | (extract_lets +onlyGivenNames a
       refine (fun (_ : Keeps s0 a) => ?_) ?_
       clear_value a
       rotate_left
       dsimp only [a]
       clear a)
    | (extract_lets +onlyGivenNames a
       clear_value a)
    | with_reducible apply Keeps.ite
    | with_reducible apply openGate_keeps
    | with_reducible apply raise_keeps
    | with_reducible apply withRight_keeps
    | with_reducible apply wr_keeps

theorem wTrsLstat_keeps {s0 s : State} (h : Keeps s0 s) (l data) : Keeps s0 (wTrsLstat s l data) := by
  unfold wTrsLstat
  repeat' first
    | with_reducible assumption
    | simp -zeta only [Keeps.upd_iff]
    | with_reducible apply Keeps.ite
    | with_reducible apply decideLane_keeps
    | with_reducible apply setLane_keeps
    | (with_reducible refine Keeps.upd ?_)

theorem wViaCtl_keeps {s0 s : State} (h : Keeps s0 s) (r n data) : Keeps s0 (wViaCtl s r n data) := by
  unfold wViaCtl
  repeat' first
    | with_reducible assumption
    | (intro _)
    | simp -zeta only [Keeps.upd_iff]
    | with_reducible apply viaCtlWrite_keeps
    | with_reducible apply withRight_keeps

theorem wDtAlign_keeps {s0 s : State} (h : Keeps s0 s) (r tx) : Keeps s0 (wDtAlign s r tx) := by
  unfold wDtAlign
  repeat' first
    | with_reducible assumption
    | (intro _)
    | simp -zeta only [Keeps.upd_iff]
    | with_reducible apply Keeps.ite
    | with_reducible apply defer_keeps
    | with_reducible apply doAlign_keeps
    | with_reducible apply withRight_keeps

theorem wDtMeasure_keeps {s0 s : State} (h : Keeps s0 s) (r which c) : Keeps s0 (wDtMeasure s r which c) := by
  unfold wDtMeasure
  repeat' first
    | with_reducible assumption
    | (intro _)
    | simp -zeta only [Keeps.upd_iff]
    | with_reducible apply Keeps.ite
    | with_reducible apply beginMeasure_keeps
    | with_reducible apply defer_keeps
    | with_reducible apply put_keeps
    | with_reducible apply withRight_keeps

theorem wDtCmd_keeps {s0 s : State} (h : Keeps s0 s) (r data) : Keeps s0 (wDtCmd s r data) := by
  unfold wDtCmd
  repeat' first
    | with_reducible assumption
    | simp -zeta only [Keeps.upd_iff]
    | (extract_lets +onlyGivenNames a
       refine (fun (_ : Keeps s0 a) => ?_) ?_
       clear_value a
       rotate_left
       dsimp only [a]
       clear a)
    | (extract_lets +onlyGivenNames a
       clear_value a)
    | with_reducible apply wDtAlign_keeps
    | with_reducible apply wDtMeasure_keeps
    | split

theorem wClkCtl_keeps {s0 s : State} (h : Keeps s0 s) (r data) : Keeps s0 (wClkCtl s r data) := by
  unfold wClkCtl
  repeat' first
    | with_reducible assumption
    | (intro _)
    | simp -zeta only [Keeps.upd_iff]
    | with_reducible apply Keeps.ite
    | with_reducible apply clkCtlWrite_keeps
    | with_reducible apply withRight_keeps

theorem wGateOpen_keeps {s0 s : State} (h : Keeps s0 s) (r n) : Keeps s0 (wGateOpen s r n) := by
  unfold wGateOpen
  repeat' first
    | with_reducible assumption
    | with_reducible apply Keeps.ite
    | with_reducible apply defer_keeps
    | with_reducible apply doGateOpen_keeps
    | with_reducible apply gateResult_keeps

theorem wGateClose_keeps {s0 s : State} (h : Keeps s0 s) (r n) : Keeps s0 (wGateClose s r n) := by
  unfold wGateClose
  repeat' first
    | with_reducible assumption
    | with_reducible apply Keeps.ite
    | with_reducible apply defer_keeps
    | with_reducible apply doGateClose_keeps
    | with_reducible apply gateResult_keeps

theorem wClkGreq_keeps {s0 s : State} (h : Keeps s0 s) (r data) : Keeps s0 (wClkGreq s r data) := by
  unfold wClkGreq
  repeat' first
    | with_reducible assumption
    | (extract_lets +onlyGivenNames a
       refine (fun (_ : Keeps s0 a) => ?_) ?_
       clear_value a
       rotate_left
       dsimp only [a]
       clear a)
    | (extract_lets +onlyGivenNames a
       clear_value a)
    | with_reducible apply Keeps.ite
    | with_reducible apply wGateClose_keeps
    | with_reducible apply wGateOpen_keeps

theorem wFwImg_keeps {s0 s : State} (h : Keeps s0 s) (r data) : Keeps s0 (wFwImg s r data) := by
  unfold wFwImg
  repeat' first
    | with_reducible assumption
    | (intro _)
    | simp -zeta only [Keeps.upd_iff]
    | (extract_lets +onlyGivenNames a
       refine (fun (_ : Keeps s0 a) => ?_) ?_
       clear_value a
       rotate_left
       dsimp only [a]
       clear a)
    | (extract_lets +onlyGivenNames a
       clear_value a)
    | with_reducible apply Keeps.ite
    | with_reducible apply imgDone_keeps
    | with_reducible apply put_keeps
    | with_reducible apply withRight_keeps

theorem wFwStat_keeps {s0 s : State} (h : Keeps s0 s) (r data) : Keeps s0 (wFwStat s r data) := by
  unfold wFwStat
  repeat' first
    | with_reducible assumption
    | simp -zeta only [Keeps.upd_iff]
    | with_reducible apply Keeps.ite
    | with_reducible apply ready__keeps
    | split

theorem wFwHbeat_keeps {s0 s : State} (h : Keeps s0 s) (r) : Keeps s0 (wFwHbeat s r) := by
  unfold wFwHbeat
  repeat' first
    | with_reducible assumption
    | simp -zeta only [Keeps.upd_iff]
    | with_reducible apply heartbeat_keeps
    | split

theorem wFwUpd_keeps {s0 s : State} (h : Keeps s0 s) (r data) : Keeps s0 (wFwUpd s r data) := by
  unfold wFwUpd
  repeat' first
    | with_reducible assumption
    | (intro _)
    | simp -zeta only [Keeps.upd_iff]
    | with_reducible apply updBegin_keeps
    | with_reducible apply updCommit_keeps
    | with_reducible apply updStatus_keeps
    | with_reducible apply withRight_keeps
    | split

theorem wFwMreq_keeps {s0 s : State} (h : Keeps s0 s) (data) : Keeps s0 (wFwMreq s data) := by
  unfold wFwMreq
  repeat' first
    | with_reducible assumption
    | with_reducible apply Keeps.ite
    | with_reducible apply measureReq_keeps

theorem wImem_keeps {s0 s : State} (h : Keeps s0 s) (r off data) : Keeps s0 (wImem s r off data) := by
  unfold wImem
  repeat' first
    | with_reducible assumption
    | simp -zeta only [Keeps.upd_iff]
    | (extract_lets +onlyGivenNames a
       refine (fun (_ : Keeps s0 a) => ?_) ?_
       clear_value a
       rotate_left
       dsimp only [a]
       clear a)
    | (extract_lets +onlyGivenNames a
       clear_value a)
    | with_reducible apply Keeps.ite
    | with_reducible apply chkWrite_keeps
    | (with_reducible refine Keeps.upd ?_)

theorem wObsSamp_keeps {s0 s : State} (h : Keeps s0 s) (r data) : Keeps s0 (wObsSamp s r data) := by
  unfold wObsSamp
  repeat' first
    | with_reducible assumption
    | (intro _)
    | simp -zeta only [Keeps.upd_iff]
    | with_reducible apply sampWrite_keeps
    | with_reducible apply withRight_keeps

theorem wObsRing_keeps {s0 s : State} (h : Keeps s0 s) (r data) : Keeps s0 (wObsRing s r data) := by
  unfold wObsRing
  repeat' first
    | with_reducible assumption
    | (intro _)
    | simp -zeta only [Keeps.upd_iff]
    | with_reducible apply ringSet_keeps
    | with_reducible apply withRight_keeps

theorem wObsTrring_keeps {s0 s : State} (h : Keeps s0 s) (r data) : Keeps s0 (wObsTrring s r data) := by
  unfold wObsTrring
  repeat' first
    | with_reducible assumption
    | (intro _)
    | simp -zeta only [Keeps.upd_iff]
    | with_reducible apply trRingSet_keeps
    | with_reducible apply withRight_keeps

theorem wTail_keeps {s0 s : State} (h : Keeps s0 s) (r head tail log data) : Keeps s0 (wTail s r head tail log data) := by
  unfold wTail
  repeat' first
    | with_reducible assumption
    | (intro _)
    | simp -zeta only [Keeps.upd_iff]
    | (extract_lets +onlyGivenNames a
       refine (fun (_ : Keeps s0 a) => ?_) ?_
       clear_value a
       rotate_left
       dsimp only [a]
       clear a)
    | (extract_lets +onlyGivenNames a
       clear_value a)
    | with_reducible apply tailWrite_keeps
    | with_reducible apply withRight_keeps

theorem wFrzt_keeps {s0 s : State} (h : Keeps s0 s) (r data) : Keeps s0 (wFrzt s r data) := by
  unfold wFrzt
  repeat' first
    | with_reducible assumption
    | (intro _)
    | simp -zeta only [Keeps.upd_iff]
    | with_reducible apply Keeps.ite
    | with_reducible apply withRight_keeps
    | with_reducible apply wr_keeps

theorem wCcmd_keeps {s0 s : State} (h : Keeps s0 s) (data) : Keeps s0 (wCcmd s data) := by
  unfold wCcmd
  repeat' first
    | with_reducible assumption
    | simp -zeta only [Keeps.upd_iff]
    | with_reducible apply clearCounters_keeps
    | split

theorem wFrzcmd_keeps {s0 s : State} (h : Keeps s0 s) (data) : Keeps s0 (wFrzcmd s data) := by
  unfold wFrzcmd
  repeat' first
    | with_reducible assumption
    | simp -zeta only [Keeps.upd_iff]
    | with_reducible apply doArm_keeps
    | with_reducible apply doDisarm_keeps
    | with_reducible apply doThaw_keeps
    | with_reducible apply doThawat_keeps
    | split

theorem wSncmd_keeps {s0 s : State} (h : Keeps s0 s) (data) : Keeps s0 (wSncmd s data) := by
  unfold wSncmd
  repeat' first
    | with_reducible assumption
    | simp -zeta only [Keeps.upd_iff]
    | with_reducible apply sncmdBegin_keeps
    | with_reducible apply sncmdReserved_keeps
    | split

theorem wMarOp_keeps {s0 s : State} (h : Keeps s0 s) (r) {f : State → State} (hf : ∀ x, Keeps s0 x → Keeps s0 (f x)) : Keeps s0 (wMarOp s r f) := by
  unfold wMarOp
  repeat' first
    | with_reducible assumption
    | (intro _)
    | simp -zeta only [Keeps.upd_iff]
    | with_reducible apply Keeps.ite
    | with_reducible apply withRight_keeps
    | with_reducible apply_assumption

theorem wMarCmd_keeps {s0 s : State} (h : Keeps s0 s) (r data) : Keeps s0 (wMarCmd s r data) := by
  unfold wMarCmd
  repeat' first
    | with_reducible assumption
    | (intro _)
    | simp -zeta only [Keeps.upd_iff]
    | with_reducible apply doCancelQ_keeps
    | with_reducible apply doCancelW_keeps
    | with_reducible apply doForceLane_keeps
    | with_reducible apply doMarRead_keeps
    | with_reducible apply doSetval_keeps
    | with_reducible apply marReserved_keeps
    | with_reducible apply wMarOp_keeps
    | split

theorem fstatWrite_keeps {s0 s : State} (h : Keeps s0 s) (b data) : Keeps s0 (fstatWrite s b data) := by
  unfold fstatWrite
  repeat' first
    | with_reducible assumption
    | (intro _)
    | simp -zeta only [Keeps.upd_iff]
    | (extract_lets +onlyGivenNames a
       refine (fun (_ : Keeps s0 a) => ?_) ?_
       clear_value a
       rotate_left
       dsimp only [a]
       clear a)
    | (extract_lets +onlyGivenNames a
       clear_value a)
    | with_reducible apply put_keeps
    | with_reducible apply_assumption
    | (with_reducible refine Keeps.upd ?_)

theorem wFstat_keeps {s0 s : State} (h : Keeps s0 s) (r b data) : Keeps s0 (wFstat s r b data) := by
  unfold wFstat
  repeat' first
    | with_reducible assumption
    | (intro _)
    | simp -zeta only [Keeps.upd_iff]
    | (extract_lets +onlyGivenNames a
       refine (fun (_ : Keeps s0 a) => ?_) ?_
       clear_value a
       rotate_left
       dsimp only [a]
       clear a)
    | (extract_lets +onlyGivenNames a
       clear_value a)
    | with_reducible apply fstatWrite_keeps
    | with_reducible apply withRight_keeps

theorem ffirstWrite_keeps {s0 s : State} (h : Keeps s0 s) (b data) : Keeps s0 (ffirstWrite s b data) := by
  unfold ffirstWrite
  repeat' first
    | with_reducible assumption
    | with_reducible apply Keeps.ite
    | with_reducible apply put_keeps
    | with_reducible apply wr_keeps

theorem wFfirst_keeps {s0 s : State} (h : Keeps s0 s) (r b data) : Keeps s0 (wFfirst s r b data) := by
  unfold wFfirst
  repeat' first
    | with_reducible assumption
    | (intro _)
    | simp -zeta only [Keeps.upd_iff]
    | with_reducible apply ffirstWrite_keeps
    | with_reducible apply withRight_keeps

theorem keyedWrite_keeps {s0 s : State} (h : Keeps s0 s) (r b off new breaks) : Keeps s0 (keyedWrite s r b off new breaks) := by
  unfold keyedWrite
  repeat' first
    | with_reducible assumption
    | (intro _)
    | simp -zeta only [Keeps.upd_iff]
    | with_reducible apply raise_keeps
    | with_reducible apply withRight_keeps
    | with_reducible apply wr_keeps
    | split

theorem wFsev_keeps {s0 s : State} (h : Keeps s0 s) (r b data) : Keeps s0 (wFsev s r b data) := by
  unfold wFsev
  repeat' first
    | with_reducible assumption
    | with_reducible apply keyedWrite_keeps

theorem wFrct_keeps {s0 s : State} (h : Keeps s0 s) (r b data) : Keeps s0 (wFrct s r b data) := by
  unfold wFrct
  repeat' first
    | with_reducible assumption
    | with_reducible apply keyedWrite_keeps

theorem wFinj_keeps {s0 s : State} (h : Keeps s0 s) (r b data) : Keeps s0 (wFinj s r b data) := by
  unfold wFinj
  repeat' first
    | with_reducible assumption
    | (intro _)
    | simp -zeta only [Keeps.upd_iff]
    | (extract_lets +onlyGivenNames a
       refine (fun (_ : Keeps s0 a) => ?_) ?_
       clear_value a
       rotate_left
       dsimp only [a]
       clear a)
    | (extract_lets +onlyGivenNames a
       clear_value a)
    | with_reducible apply Keeps.ite
    | with_reducible apply withRight_keeps
    | with_reducible apply wr_keeps

theorem wFault_keeps {s0 s : State} (h : Keeps s0 s) (r b k data) : Keeps s0 (wFault s r b k data) := by
  unfold wFault
  repeat' first
    | with_reducible assumption
    | simp -zeta only [Keeps.upd_iff]
    | with_reducible apply wFfirst_keeps
    | with_reducible apply wFinj_keeps
    | with_reducible apply wFrct_keeps
    | with_reducible apply wFsev_keeps
    | with_reducible apply wFstat_keeps
    | split

theorem writeOne_keeps {s0 s : State} (h : Keeps s0 s) (r off data) : KeepsO s0 (writeOne s r off data) := by
  unfold writeOne
  repeat' first
    | with_reducible assumption
    | simp -zeta only [Keeps.upd_iff]
    | with_reducible exact KeepsO.none
    | with_reducible apply KeepsO.some
    | with_reducible apply KeepsO.ite
    | with_reducible apply wAbcCmd_keeps
    | with_reducible apply wCcmd_keeps
    | with_reducible apply wClkCtl_keeps
    | with_reducible apply wClkGreq_keeps
    | with_reducible apply wCoreStep_keeps
    | with_reducible apply wDtCmd_keeps
    | with_reducible apply wFrzcmd_keeps
    | with_reducible apply wFrzt_keeps
    | with_reducible apply wFwHbeat_keeps
    | with_reducible apply wFwImg_keeps
    | with_reducible apply wFwMreq_keeps
    | with_reducible apply wFwStat_keeps
    | with_reducible apply wFwUpd_keeps
    | with_reducible apply wKeyCtl_keeps
    | with_reducible apply wMarCmd_keeps
    | with_reducible apply wObsRing_keeps
    | with_reducible apply wObsSamp_keeps
    | with_reducible apply wObsTrring_keeps
    | with_reducible apply wSemaPair_keeps
    | with_reducible apply wSncmd_keeps
    | with_reducible apply wTail_keeps
    | split

theorem writeMany_keeps {s0 s : State} (h : Keeps s0 s) (r off data) : KeepsO s0 (writeMany s r off data) := by
  unfold writeMany
  repeat' first
    | with_reducible assumption
    | (intro _)
    | (extract_lets +onlyGivenNames a
       refine (fun (_ : Keeps s0 a) => ?_) ?_
       clear_value a
       rotate_left
       dsimp only [a]
       clear a)
    | (extract_lets +onlyGivenNames a
       clear_value a)
    | with_reducible exact KeepsO.none
    | with_reducible apply KeepsO.some
    | with_reducible apply KeepsO.ite
    | with_reducible apply wAgtBind_keeps
    | with_reducible apply wSemaBack_keeps
    | with_reducible apply wSemaHtw_keeps
    | with_reducible apply wTenCfg_keeps
    | with_reducible apply wTenCmd_keeps
    | with_reducible apply wTenImp_keeps
    | with_reducible apply wTenShare_keeps
    | with_reducible apply wTrsLcfg_keeps
    | with_reducible apply wTrsLen_keeps
    | with_reducible apply wTrsLstat_keeps
    | with_reducible apply wViaCtl_keeps
    | with_reducible apply KeepsO.orElse
    | with_reducible apply KeepsO.map
    | with_reducible apply KeepsO.findSome
    | with_reducible apply_assumption

theorem writeAt_keeps {s0 s : State} (h : Keeps s0 s) (r off data) : Keeps s0 (writeAt s r off data) := by
  unfold writeAt
  repeat' first
    | with_reducible assumption
    | simp -zeta only [Keeps.upd_iff]
    | with_reducible apply Keeps.ite
    | with_reducible apply plainWrite_keeps
    | with_reducible apply wFault_keeps
    | with_reducible apply wImem_keeps
    | with_reducible apply writeMany_keeps
    | with_reducible apply writeOne_keeps
    | split
    | with_reducible apply Keeps.getD
    | with_reducible refine KeepsO.of_eq (by assumption) (writeMany_keeps ?_ _ _ _)
    | with_reducible refine KeepsO.of_eq (by assumption) (writeOne_keeps ?_ _ _ _)

theorem anyWrite_keeps {s0 s : State} (h : Keeps s0 s) (r offset width data) : Keeps s0 (anyWrite s r offset width data) := by
  unfold anyWrite
  repeat' first
    | with_reducible assumption
    | (intro _)
    | (extract_lets +onlyGivenNames a
       refine (fun (_ : Keeps s0 a) => ?_) ?_
       clear_value a
       rotate_left
       dsimp only [a]
       clear a)
    | (extract_lets +onlyGivenNames a
       clear_value a)
    | with_reducible apply Keeps.ite
    | with_reducible apply access_keeps
    | with_reducible apply badAccess_keeps
    | with_reducible apply writeAt_keeps

theorem writeAnswer_keeps {s0 s : State} (h : Keeps s0 s) (r offset width data) : Keeps s0 (writeAnswer s r offset width data).1 := by
  unfold writeAnswer
  repeat' first
    | with_reducible assumption
    | with_reducible apply anyWrite_keeps
    | split

theorem readEffect_keeps {s0 s : State} (h : Keeps s0 s) (r offset width) : Keeps s0 (readEffect s r offset width) := by
  unfold readEffect
  repeat' first
    | with_reducible assumption
    | (intro _)
    | (extract_lets +onlyGivenNames a
       refine (fun (_ : Keeps s0 a) => ?_) ?_
       clear_value a
       rotate_left
       dsimp only [a]
       clear a)
    | (extract_lets +onlyGivenNames a
       clear_value a)
    | with_reducible apply Keeps.ite
    | with_reducible apply access_keeps
    | with_reducible apply badAccess_keeps
    | with_reducible apply dmemWord_keeps
    | with_reducible apply imemWord_keeps
    | with_reducible apply snapRead_keeps

theorem anyRead_keeps {s0 s : State} (h : Keeps s0 s) (r offset width) : Keeps s0 (anyRead s r offset width).1 := by
  unfold anyRead
  repeat' first
    | with_reducible assumption
    | (extract_lets +onlyGivenNames a
       refine (fun (_ : Keeps s0 a) => ?_) ?_
       clear_value a
       rotate_left
       dsimp only [a]
       clear a)
    | (extract_lets +onlyGivenNames a
       clear_value a)
    | with_reducible apply readEffect_keeps
    | split

end Sys2Proof.Machine
end

