-- ==== Sys2Proof/Laws/KeepPackets.lean ====
section
/-! SUPPORT. What the operations of Machine/Packets.lean keep (Laws/Keeps.lean). -/
set_option linter.tactic.unusedName false
set_option linter.unusedSimpArgs false
namespace Sys2Proof.Machine

theorem execAqValid_keeps {s0 s : State} (h : Keeps s0 s) (pier ag queue data) : ∀ {z}, execAqValid pier ag queue data s = .next z → Keeps s0 z := by
  intro z e
  rw [← Host.Outcome.next.inj e]
  repeat' first
    | with_reducible assumption
    | with_reducible apply aqWrite_keeps
    | with_reducible apply finishStep_keeps

theorem execSigAdd_keeps {s0 s : State} (h : Keeps s0 s) (agent queue) : ∀ {z}, execSigAdd agent queue s = .next z → Keeps s0 z := by
  intro z e
  rw [← Host.Outcome.next.inj e]
  repeat' first
    | with_reducible assumption
    | with_reducible apply finishStep_keeps
    | with_reducible apply issueOp_keeps

theorem execSigSub_keeps {s0 s : State} (h : Keeps s0 s) (agent queue) : ∀ {z}, execSigSub agent queue s = .next z → Keeps s0 z := by
  intro z e
  rw [← Host.Outcome.next.inj e]
  repeat' first
    | with_reducible assumption
    | with_reducible apply finishStep_keeps
    | with_reducible apply issueOp_keeps

theorem execPoll_keeps {s0 s : State} (h : Keeps s0 s) (agent queue) : ∀ {z}, execPoll agent queue s = .next z → Keeps s0 z := by
  intro z e
  rw [← Host.Outcome.next.inj e]
  repeat' first
    | with_reducible assumption
    | with_reducible apply finishStep_keeps
    | with_reducible apply issueOp_keeps

theorem execTake_keeps {s0 s : State} (h : Keeps s0 s) (agent queue) : ∀ {z}, execTake agent queue s = .next z → Keeps s0 z := by
  intro z e
  rw [← Host.Outcome.next.inj e]
  repeat' first
    | with_reducible assumption
    | with_reducible apply finishStep_keeps
    | with_reducible apply issueOp_keeps

theorem execGive_keeps {s0 s : State} (h : Keeps s0 s) (agent queue) : ∀ {z}, execGive agent queue s = .next z → Keeps s0 z := by
  intro z e
  rw [← Host.Outcome.next.inj e]
  repeat' first
    | with_reducible assumption
    | with_reducible apply finishStep_keeps
    | with_reducible apply issueOp_keeps

theorem execFence_keeps {s0 s : State} (h : Keeps s0 s) (agent queue) : ∀ {z}, execFence agent queue s = .next z → Keeps s0 z := by
  intro z e
  rw [← Host.Outcome.next.inj e]
  repeat' first
    | with_reducible assumption
    | with_reducible apply finishStep_keeps
    | with_reducible apply issueOp_keeps

theorem execMember_keeps {s0 s : State} (h : Keeps s0 s) (agent queue) : ∀ {z}, execMember agent queue s = .next z → Keeps s0 z := by
  intro z e
  rw [← Host.Outcome.next.inj e]
  repeat' first
    | with_reducible assumption
    | with_reducible apply finishStep_keeps
    | with_reducible apply issueOp_keeps

theorem execAlloc_keeps {s0 s : State} (h : Keeps s0 s) (agent queue) : ∀ {z}, execAlloc agent queue s = .next z → Keeps s0 z := by
  intro z e
  rw [← Host.Outcome.next.inj e]
  repeat' first
    | with_reducible assumption
    | with_reducible apply finishStep_keeps
    | with_reducible apply issueOp_keeps

theorem execFree_keeps {s0 s : State} (h : Keeps s0 s) (agent queue) : ∀ {z}, execFree agent queue s = .next z → Keeps s0 z := by
  intro z e
  rw [← Host.Outcome.next.inj e]
  repeat' first
    | with_reducible assumption
    | with_reducible apply finishStep_keeps
    | with_reducible apply issueOp_keeps

theorem execAudit_keeps {s0 s : State} (h : Keeps s0 s) (agent queue) : ∀ {z}, execAudit agent queue s = .next z → Keeps s0 z := by
  intro z e
  rw [← Host.Outcome.next.inj e]
  repeat' first
    | with_reducible assumption
    | with_reducible apply finishStep_keeps
    | with_reducible apply issueOp_keeps

theorem execTranslationFill_keeps {s0 s : State} (h : Keeps s0 s) (pier) : ∀ {z}, execTranslationFill pier s = .next z → Keeps s0 z := by
  intro z e
  rw [← Host.Outcome.next.inj e]
  repeat' first
    | with_reducible assumption
    | with_reducible apply fillArrives_keeps
    | with_reducible apply finishStep_keeps

theorem execInvalidation_keeps {s0 s : State} (h : Keeps s0 s) (pier) : ∀ {z}, execInvalidation pier s = .next z → Keeps s0 z := by
  intro z e
  rw [← Host.Outcome.next.inj e]
  repeat' first
    | with_reducible assumption
    | with_reducible apply finishStep_keeps
    | with_reducible apply invArrives_keeps

end Sys2Proof.Machine
end

