-- ==== Sys2Proof/Laws/KeepWaitOps.lean ====
section
/-! SUPPORT. What the operations of Machine/WaitOps.lean keep (Laws/Keeps.lean). -/
set_option linter.tactic.unusedName false
set_option linter.unusedSimpArgs false
namespace Sys2Proof.Machine

theorem execWaitGe_keeps {s0 s : State} (h : Keeps s0 s) (agent queue) : ∀ {z}, execWaitGe agent queue s = .next z → Keeps s0 z := by
  intro z e
  rw [← Host.Outcome.next.inj e]
  repeat' first
    | with_reducible assumption
    | with_reducible apply finishStep_keeps
    | with_reducible apply issueOp_keeps

theorem execWaitTake_keeps {s0 s : State} (h : Keeps s0 s) (agent queue) : ∀ {z}, execWaitTake agent queue s = .next z → Keeps s0 z := by
  intro z e
  rw [← Host.Outcome.next.inj e]
  repeat' first
    | with_reducible assumption
    | with_reducible apply finishStep_keeps
    | with_reducible apply issueOp_keeps

theorem execWake_keeps {s0 s : State} (h : Keeps s0 s) (pier) : ∀ {z}, execWake pier s = .next z → Keeps s0 z := by
  intro z e
  rw [← Host.Outcome.next.inj e]
  repeat' first
    | with_reducible assumption
    | with_reducible apply finishStep_keeps
    | with_reducible apply wakeArrives_keeps

theorem execWakeEmit_keeps {s0 s : State} (h : Keeps s0 s) (slice) : ∀ {z}, execWakeEmit slice s = .next z → Keeps s0 z := by
  intro z e
  rw [← Host.Outcome.next.inj e]
  repeat' first
    | with_reducible assumption
    | with_reducible apply finishStep_keeps
    | with_reducible apply wakeEmit__keeps

theorem execPacingWindow_keeps {s0 s : State} (h : Keeps s0 s) : ∀ {z}, execPacingWindow s = .next z → Keeps s0 z := by
  intro z e
  rw [← Host.Outcome.next.inj e]
  repeat' first
    | with_reducible assumption
    | with_reducible apply finishStep_keeps
    | with_reducible apply paceWindow_keeps

theorem execExpiry_keeps {s0 s : State} (h : Keeps s0 s) (die agent queue) : ∀ {z}, execExpiry die agent queue s = .next z → Keeps s0 z := by
  intro z e
  rw [← Host.Outcome.next.inj e]
  repeat' first
    | with_reducible assumption
    | with_reducible apply expireAny_keeps
    | with_reducible apply finishStep_keeps

theorem represented_keeps {s0 s : State} (h : Keeps s0 s) (x0) : Keeps s0 (represented s x0) := by
  unfold represented
  repeat' first
    | with_reducible assumption
    | with_reducible apply representEntry_keeps
    | with_reducible apply representHead_keeps
    | split

theorem execRepresent_keeps {s0 s : State} (h : Keeps s0 s) (target) : ∀ {z}, execRepresent target s = .next z → Keeps s0 z := by
  intro z e
  rw [← Host.Outcome.next.inj e]
  repeat' first
    | with_reducible assumption
    | with_reducible apply finishStep_keeps
    | with_reducible apply represented_keeps

theorem execCancel_keeps {s0 s : State} (h : Keeps s0 s) (die agent queue code) : ∀ {z}, execCancel die agent queue code s = .next z → Keeps s0 z := by
  intro z e
  rw [← Host.Outcome.next.inj e]
  repeat' first
    | with_reducible assumption
    | with_reducible apply cancelAny_keeps
    | with_reducible apply finishStep_keeps

end Sys2Proof.Machine
end

