-- ==== Sys2Proof/Laws/KeepBarrierOps.lean ====
section
/-! SUPPORT. What the operations of Machine/BarrierOps.lean keep (Laws/Keeps.lean). -/
set_option linter.tactic.unusedName false
set_option linter.unusedSimpArgs false
namespace Sys2Proof.Machine

theorem execArrive_keeps {s0 s : State} (h : Keeps s0 s) (agent queue) : ∀ {z}, execArrive agent queue s = .next z → Keeps s0 z := by
  intro z e
  rw [← Host.Outcome.next.inj e]
  repeat' first
    | with_reducible assumption
    | with_reducible apply finishStep_keeps
    | with_reducible apply issueOp_keeps

theorem execArriveLane_keeps {s0 s : State} (h : Keeps s0 s) (agent queue) : ∀ {z}, execArriveLane agent queue s = .next z → Keeps s0 z := by
  intro z e
  rw [← Host.Outcome.next.inj e]
  repeat' first
    | with_reducible assumption
    | with_reducible apply finishStep_keeps
    | with_reducible apply issueOp_keeps

theorem execArriveCombine_keeps {s0 s : State} (h : Keeps s0 s) (agent queue) : ∀ {z}, execArriveCombine agent queue s = .next z → Keeps s0 z := by
  intro z e
  rw [← Host.Outcome.next.inj e]
  repeat' first
    | with_reducible assumption
    | with_reducible apply finishStep_keeps
    | with_reducible apply issueOp_keeps

theorem execTimedRelease_keeps {s0 s : State} (h : Keeps s0 s) (slice slot) : ∀ {z}, execTimedRelease slice slot s = .next z → Keeps s0 z := by
  intro z e
  rw [← Host.Outcome.next.inj e]
  repeat' first
    | with_reducible assumption
    | with_reducible apply finishStep_keeps
    | with_reducible apply timedRelease__keeps

theorem execTimeFrame_keeps {s0 s : State} (h : Keeps s0 s) (port hdr obj phase t) : ∀ {z}, execTimeFrame port hdr obj phase t s = .next z → Keeps s0 z := by
  intro z e
  rw [← Host.Outcome.next.inj e]
  repeat' first
    | with_reducible assumption
    | with_reducible apply finishStep_keeps
    | with_reducible apply recvMsg_keeps

theorem execCombineReport_keeps {s0 s : State} (h : Keeps s0 s) (ctx) : ∀ {z}, execCombineReport ctx s = .next z → Keeps s0 z := by
  intro z e
  rw [← Host.Outcome.next.inj e]
  repeat' first
    | with_reducible assumption
    | with_reducible apply combineReportAt_keeps
    | with_reducible apply finishStep_keeps

theorem execWire_keeps {s0 s : State} (h : Keeps s0 s) (port hdr lane phase) : ∀ {z}, execWire port hdr lane phase s = .next z → Keeps s0 z := by
  intro z e
  rw [← Host.Outcome.next.inj e]
  repeat' first
    | with_reducible assumption
    | with_reducible apply finishStep_keeps
    | with_reducible apply recvMsg_keeps

theorem execLcomp_keeps {s0 s : State} (h : Keeps s0 s) (port hdr lane phase t) : ∀ {z}, execLcomp port hdr lane phase t s = .next z → Keeps s0 z := by
  intro z e
  rw [← Host.Outcome.next.inj e]
  repeat' first
    | with_reducible assumption
    | with_reducible apply finishStep_keeps
    | with_reducible apply recvMsg_keeps

theorem execLaneRelease_keeps {s0 s : State} (h : Keeps s0 s) (lane) : ∀ {z}, execLaneRelease lane s = .next z → Keeps s0 z := by
  intro z e
  rw [← Host.Outcome.next.inj e]
  repeat' first
    | with_reducible assumption
    | with_reducible apply finishStep_keeps
    | with_reducible apply laneRelease__keeps

end Sys2Proof.Machine
end

