-- ==== Sys2Proof/Laws/KeepPagingOps.lean ====
section
/-! SUPPORT. What the operations of Machine/PagingOps.lean keep (Laws/Keeps.lean). -/
set_option linter.tactic.unusedName false
set_option linter.unusedSimpArgs false
namespace Sys2Proof.Machine

theorem execBackingOp_keeps {s0 s : State} (h : Keeps s0 s) (index) : ∀ {z}, execBackingOp index s = .next z → Keeps s0 z := by
  intro z e
  rw [← Host.Outcome.next.inj e]
  repeat' first
    | with_reducible assumption
    | with_reducible apply backingOp__keeps
    | with_reducible apply finishStep_keeps

theorem execPageIn_keeps {s0 s : State} (h : Keeps s0 s) (index) : ∀ {z}, execPageIn index s = .next z → Keeps s0 z := by
  intro z e
  rw [← Host.Outcome.next.inj e]
  repeat' first
    | with_reducible assumption
    | with_reducible apply finishStep_keeps
    | with_reducible apply pageIn__keeps

theorem execTagRebuild_keeps {s0 s : State} (h : Keeps s0 s) (word) : ∀ {z}, execTagRebuild word s = .next z → Keeps s0 z := by
  intro z e
  rw [← Host.Outcome.next.inj e]
  repeat' first
    | with_reducible assumption
    | with_reducible apply finishStep_keeps
    | with_reducible apply rebuilt_keeps

theorem execHtmReady_keeps {s0 s : State} (h : Keeps s0 s) : ∀ {z}, execHtmReady s = .next z → Keeps s0 z := by
  intro z e
  rw [← Host.Outcome.next.inj e]
  repeat' first
    | with_reducible assumption
    | with_reducible apply finishStep_keeps
    | with_reducible apply htmReady__keeps

end Sys2Proof.Machine
end

