-- ==== Sys2Proof/Laws/KeepRouteMsgs.lean ====
section
/-! SUPPORT. What the operations of Machine/RouteMsgs.lean keep (Laws/Keeps.lean). -/
set_option linter.tactic.unusedName false
set_option linter.unusedSimpArgs false
namespace Sys2Proof.Machine

theorem execRoute_keeps {s0 s : State} (h : Keeps s0 s) (agent queue) : ∀ {z}, execRoute agent queue s = .next z → Keeps s0 z := by
  intro z e
  rw [← Host.Outcome.next.inj e]
  repeat' first
    | with_reducible assumption
    | with_reducible apply finishStep_keeps
    | with_reducible apply issueOp_keeps

theorem reportTaken_keeps {s0 s : State} (h : Keeps s0 s) (tag idx) : Keeps s0 (reportTaken s tag idx) := by
  unfold reportTaken
  repeat' first
    | with_reducible assumption
    | (intro _)
    | simp -zeta only [Keeps.upd_iff]
    | with_reducible apply Keeps.ite
    | with_reducible apply reportArrives_keeps
    | split
    | (with_reducible refine Keeps.upd ?_)

theorem execStagingReport_keeps {s0 s : State} (h : Keeps s0 s) (tag idx) : ∀ {z}, execStagingReport tag idx s = .next z → Keeps s0 z := by
  intro z e
  rw [← Host.Outcome.next.inj e]
  repeat' first
    | with_reducible assumption
    | with_reducible apply finishStep_keeps
    | with_reducible apply reportTaken_keeps

theorem execRouteCommit_keeps {s0 s : State} (h : Keeps s0 s) (tag dest) : ∀ {z}, execRouteCommit tag dest s = .next z → Keeps s0 z := by
  intro z e
  rw [← Host.Outcome.next.inj e]
  repeat' first
    | with_reducible assumption
    | with_reducible apply commitArrives_keeps
    | with_reducible apply finishStep_keeps

theorem execRpart_keeps {s0 s : State} (h : Keeps s0 s) (port hdr part) : ∀ {z}, execRpart port hdr part s = .next z → Keeps s0 z := by
  intro z e
  rw [← Host.Outcome.next.inj e]
  repeat' first
    | with_reducible assumption
    | with_reducible apply finishStep_keeps
    | with_reducible apply recvMsg_keeps

theorem execPreport_keeps {s0 s : State} (h : Keeps s0 s) (port hdr c report) : ∀ {z}, execPreport port hdr c report s = .next z → Keeps s0 z := by
  intro z e
  rw [← Host.Outcome.next.inj e]
  repeat' first
    | with_reducible assumption
    | with_reducible apply finishStep_keeps
    | with_reducible apply recvMsg_keeps

end Sys2Proof.Machine
end

