-- ==== Sys2Proof/Laws/KeepMessages.lean ====
section
/-! SUPPORT. What the operations of Machine/Messages.lean keep (Laws/Keeps.lean). -/
set_option linter.tactic.unusedName false
set_option linter.unusedSimpArgs false
namespace Sys2Proof.Machine

theorem execCmd_keeps {s0 s : State} (h : Keeps s0 s) (port hdr c) : ∀ {z}, execCmd port hdr c s = .next z → Keeps s0 z := by
  intro z e
  rw [← Host.Outcome.next.inj e]
  repeat' first
    | with_reducible assumption
    | with_reducible apply finishStep_keeps
    | with_reducible apply recvMsg_keeps

theorem execXcmd_keeps {s0 s : State} (h : Keeps s0 s) (port hdr c) : ∀ {z}, execXcmd port hdr c s = .next z → Keeps s0 z := by
  intro z e
  rw [← Host.Outcome.next.inj e]
  repeat' first
    | with_reducible assumption
    | with_reducible apply finishStep_keeps
    | with_reducible apply recvMsg_keeps

theorem execReply_keeps {s0 s : State} (h : Keeps s0 s) (port hdr c r) : ∀ {z}, execReply port hdr c r s = .next z → Keeps s0 z := by
  intro z e
  rw [← Host.Outcome.next.inj e]
  repeat' first
    | with_reducible assumption
    | with_reducible apply finishStep_keeps
    | with_reducible apply recvMsg_keeps

theorem execRefuse_keeps {s0 s : State} (h : Keeps s0 s) (port hdr c reason) : ∀ {z}, execRefuse port hdr c reason s = .next z → Keeps s0 z := by
  intro z e
  rw [← Host.Outcome.next.inj e]
  repeat' first
    | with_reducible assumption
    | with_reducible apply finishStep_keeps
    | with_reducible apply recvMsg_keeps

theorem execHoldRelease_keeps {s0 s : State} (h : Keeps s0 s) (port index dwc) : ∀ {z}, execHoldRelease port index dwc s = .next z → Keeps s0 z := by
  intro z e
  rw [← Host.Outcome.next.inj e]
  repeat' first
    | with_reducible assumption
    | with_reducible apply finishStep_keeps
    | with_reducible apply holdRelease__keeps

theorem execHoldDiscard_keeps {s0 s : State} (h : Keeps s0 s) (port index) : ∀ {z}, execHoldDiscard port index s = .next z → Keeps s0 z := by
  intro z e
  rw [← Host.Outcome.next.inj e]
  repeat' first
    | with_reducible assumption
    | with_reducible apply finishStep_keeps
    | with_reducible apply holdDiscard__keeps

theorem execMrec_keeps {s0 s : State} (h : Keeps s0 s) (port hdr rec) : ∀ {z}, execMrec port hdr rec s = .next z → Keeps s0 z := by
  intro z e
  rw [← Host.Outcome.next.inj e]
  repeat' first
    | with_reducible assumption
    | with_reducible apply finishStep_keeps
    | with_reducible apply recvMsg_keeps

theorem execMack_keeps {s0 s : State} (h : Keeps s0 s) (port hdr serial ok) : ∀ {z}, execMack port hdr serial ok s = .next z → Keeps s0 z := by
  intro z e
  rw [← Host.Outcome.next.inj e]
  repeat' first
    | with_reducible assumption
    | with_reducible apply finishStep_keeps
    | with_reducible apply recvMsg_keeps

theorem execEpoch_keeps {s0 s : State} (h : Keeps s0 s) (port hdr origin resync) : ∀ {z}, execEpoch port hdr origin resync s = .next z → Keeps s0 z := by
  intro z e
  rw [← Host.Outcome.next.inj e]
  repeat' first
    | with_reducible assumption
    | with_reducible apply finishStep_keeps
    | with_reducible apply recvMsg_keeps

theorem execNotice_keeps {s0 s : State} (h : Keeps s0 s) (port n) : ∀ {z}, execNotice port n s = .next z → Keeps s0 z := by
  intro z e
  rw [← Host.Outcome.next.inj e]
  repeat' first
    | with_reducible assumption
    | with_reducible apply finishStep_keeps
    | with_reducible apply noticeFlit_keeps

end Sys2Proof.Machine
end

