-- ==== Sys2Proof/Laws/KeepCombineOps.lean ====
section
/-! SUPPORT. What the operations of Machine/CombineOps.lean keep (Laws/Keeps.lean). -/
set_option linter.tactic.unusedName false
set_option linter.unusedSimpArgs false
namespace Sys2Proof.Machine

theorem execArrivalAccepted_keeps {s0 s : State} (h : Keeps s0 s) (ctx remote) : ∀ {z}, execArrivalAccepted ctx remote s = .next z → Keeps s0 z := by
  intro z e
  rw [← Host.Outcome.next.inj e]
  repeat' first
    | with_reducible assumption
    | with_reducible apply arrivalNotice_keeps
    | with_reducible apply finishStep_keeps

theorem execChunkComplete_keeps {s0 s : State} (h : Keeps s0 s) (ctx) : ∀ {z}, execChunkComplete ctx s = .next z → Keeps s0 z := by
  intro z e
  rw [← Host.Outcome.next.inj e]
  repeat' first
    | with_reducible assumption
    | with_reducible apply chunkDone_keeps
    | with_reducible apply finishStep_keeps

theorem execCpart_keeps {s0 s : State} (h : Keeps s0 s) (port hdr seg es) : ∀ {z}, execCpart port hdr seg es s = .next z → Keeps s0 z := by
  intro z e
  rw [← Host.Outcome.next.inj e]
  repeat' first
    | with_reducible assumption
    | with_reducible apply finishStep_keeps
    | with_reducible apply recvMsg_keeps

theorem execCres_keeps {s0 s : State} (h : Keeps s0 s) (port hdr seg off bytes) : ∀ {z}, execCres port hdr seg off bytes s = .next z → Keeps s0 z := by
  intro z e
  rw [← Host.Outcome.next.inj e]
  repeat' first
    | with_reducible assumption
    | with_reducible apply finishStep_keeps
    | with_reducible apply recvMsg_keeps

theorem execCclose_keeps {s0 s : State} (h : Keeps s0 s) (port hdr ctx phase n) : ∀ {z}, execCclose port hdr ctx phase n s = .next z → Keeps s0 z := by
  intro z e
  rw [← Host.Outcome.next.inj e]
  repeat' first
    | with_reducible assumption
    | with_reducible apply finishStep_keeps
    | with_reducible apply recvMsg_keeps

theorem execCabort_keeps {s0 s : State} (h : Keeps s0 s) (port hdr ctx phase a) : ∀ {z}, execCabort port hdr ctx phase a s = .next z → Keeps s0 z := by
  intro z e
  rw [← Host.Outcome.next.inj e]
  repeat' first
    | with_reducible assumption
    | with_reducible apply finishStep_keeps
    | with_reducible apply recvMsg_keeps

theorem execOpen_keeps {s0 s : State} (h : Keeps s0 s) (req ctx) : ∀ {z}, execOpen req ctx s = .next z → Keeps s0 z := by
  intro z e
  rw [← Host.Outcome.next.inj e]
  repeat' first
    | with_reducible assumption
    | (intro _)
    | with_reducible apply access_keeps
    | with_reducible apply finishStep_keeps
    | with_reducible apply wAbcOpen_keeps

theorem execClose_keeps {s0 s : State} (h : Keeps s0 s) (req ctx) : ∀ {z}, execClose req ctx s = .next z → Keeps s0 z := by
  intro z e
  rw [← Host.Outcome.next.inj e]
  repeat' first
    | with_reducible assumption
    | (intro _)
    | with_reducible apply access_keeps
    | with_reducible apply finishStep_keeps
    | with_reducible apply wAbcClose_keeps

theorem execRead_keeps {s0 s : State} (h : Keeps s0 s) (req ctx) : ∀ {z}, execRead req ctx s = .next z → Keeps s0 z := by
  intro z e
  rw [← Host.Outcome.next.inj e]
  repeat' first
    | with_reducible assumption
    | (intro _)
    | with_reducible apply access_keeps
    | with_reducible apply finishStep_keeps
    | with_reducible apply wAbcRead_keeps

theorem execArbitrationWindow_keeps {s0 s : State} (h : Keeps s0 s) : ∀ {z}, execArbitrationWindow s = .next z → Keeps s0 z := by
  intro z e
  rw [← Host.Outcome.next.inj e]
  repeat' first
    | with_reducible assumption
    | with_reducible apply arbWindow_keeps
    | with_reducible apply finishStep_keeps

end Sys2Proof.Machine
end

