-- ==== Sys2Proof/Laws/KeepClientOps.lean ====
section
/-! SUPPORT. What the operations of Machine/ClientOps.lean keep (Laws/Keeps.lean). -/
set_option linter.tactic.unusedName false
set_option linter.unusedSimpArgs false
namespace Sys2Proof.Machine

theorem execSpRvalid_keeps {s0 s : State} (h : Keeps s0 s) (pier ag data err) : ∀ {z}, execSpRvalid pier ag data err s = .next z → Keeps s0 z := by
  intro z e
  rw [← Host.Outcome.next.inj e]
  repeat' first
    | with_reducible assumption
    | with_reducible apply beatAnswered_keeps
    | with_reducible apply finishStep_keeps

theorem execDrAck_keeps {s0 s : State} (h : Keeps s0 s) (pier tag err) : ∀ {z}, execDrAck pier tag err s = .next z → Keeps s0 z := by
  intro z e
  rw [← Host.Outcome.next.inj e]
  repeat' first
    | with_reducible assumption
    | with_reducible apply drainAck_keeps
    | with_reducible apply finishStep_keeps

theorem execIvAck_keeps {s0 s : State} (h : Keeps s0 s) (pier tag err) : ∀ {z}, execIvAck pier tag err s = .next z → Keeps s0 z := by
  intro z e
  rw [← Host.Outcome.next.inj e]
  repeat' first
    | with_reducible assumption
    | with_reducible apply finishStep_keeps
    | with_reducible apply invalAck_keeps

theorem execArRdy_keeps {s0 s : State} (h : Keeps s0 s) (pier) : ∀ {z}, execArRdy pier s = .next z → Keeps s0 z := by
  intro z e
  rw [← Host.Outcome.next.inj e]
  repeat' first
    | with_reducible assumption
    | with_reducible apply finishStep_keeps
    | with_reducible apply replyTaken_keeps

theorem execSpRdy_keeps {s0 s : State} (h : Keeps s0 s) (pier) : ∀ {z}, execSpRdy pier s = .next z → Keeps s0 z := by
  intro z e
  rw [← Host.Outcome.next.inj e]
  repeat' first
    | with_reducible assumption
    | with_reducible apply beatTaken_keeps
    | with_reducible apply finishStep_keeps

theorem execPierClockRestart_keeps {s0 s : State} (h : Keeps s0 s) (pier) : ∀ {z}, execPierClockRestart pier s = .next z → Keeps s0 z := by
  intro z e
  rw [← Host.Outcome.next.inj e]
  repeat' first
    | with_reducible assumption
    | with_reducible apply finishStep_keeps
    | with_reducible apply pierRestarts_keeps

end Sys2Proof.Machine
end

