-- ==== Sys2Proof/Laws/KeepTimeOps.lean ====
section
/-! SUPPORT. What the operations of Machine/TimeOps.lean keep (Laws/Keeps.lean). -/
set_option linter.tactic.unusedName false
set_option linter.unusedSimpArgs false
namespace Sys2Proof.Machine

theorem execSyncReq_keeps {s0 s : State} (h : Keeps s0 s) (port hdr m rx tx) : ∀ {z}, execSyncReq port hdr m rx tx s = .next z → Keeps s0 z := by
  intro z e
  rw [← Host.Outcome.next.inj e]
  repeat' first
    | with_reducible assumption
    | with_reducible apply finishStep_keeps
    | with_reducible apply recvMsg_keeps

theorem execSyncResp_keeps {s0 s : State} (h : Keeps s0 s) (port hdr m rx) : ∀ {z}, execSyncResp port hdr m rx s = .next z → Keeps s0 z := by
  intro z e
  rw [← Host.Outcome.next.inj e]
  repeat' first
    | with_reducible assumption
    | with_reducible apply finishStep_keeps
    | with_reducible apply recvMsg_keeps

theorem execCoarse_keeps {s0 s : State} (h : Keeps s0 s) (port hdr m) : ∀ {z}, execCoarse port hdr m s = .next z → Keeps s0 z := by
  intro z e
  rw [← Host.Outcome.next.inj e]
  repeat' first
    | with_reducible assumption
    | with_reducible apply finishStep_keeps
    | with_reducible apply recvMsg_keeps

theorem execExchange_keeps {s0 s : State} (h : Keeps s0 s) (tx) : ∀ {z}, execExchange tx s = .next z → Keeps s0 z := by
  intro z e
  rw [← Host.Outcome.next.inj e]
  repeat' first
    | with_reducible assumption
    | with_reducible apply doExchange_keeps
    | with_reducible apply finishStep_keeps

theorem execGlim_keeps {s0 s : State} (h : Keeps s0 s) : ∀ {z}, execGlim s = .next z → Keeps s0 z := by
  intro z e
  rw [← Host.Outcome.next.inj e]
  repeat' first
    | with_reducible assumption
    | with_reducible apply finishStep_keeps
    | with_reducible apply glimPasses_keeps

theorem execAlim_keeps {s0 s : State} (h : Keeps s0 s) : ∀ {z}, execAlim s = .next z → Keeps s0 z := by
  intro z e
  rw [← Host.Outcome.next.inj e]
  repeat' first
    | with_reducible assumption
    | with_reducible apply alimPasses_keeps
    | with_reducible apply finishStep_keeps

theorem execSlewStep_keeps {s0 s : State} (h : Keeps s0 s) : ∀ {z}, execSlewStep s = .next z → Keeps s0 z := by
  intro z e
  rw [← Host.Outcome.next.inj e]
  repeat' first
    | with_reducible assumption
    | with_reducible apply finishStep_keeps
    | with_reducible apply slewStep__keeps

theorem execAlign_keeps {s0 s : State} (h : Keeps s0 s) (req tx) : ∀ {z}, execAlign req tx s = .next z → Keeps s0 z := by
  intro z e
  rw [← Host.Outcome.next.inj e]
  repeat' first
    | with_reducible assumption
    | (intro _)
    | with_reducible apply access_keeps
    | with_reducible apply finishStep_keeps
    | with_reducible apply wDtAlign_keeps

theorem execRemeasureAll_keeps {s0 s : State} (h : Keeps s0 s) (req) : ∀ {z}, execRemeasureAll req s = .next z → Keeps s0 z := by
  intro z e
  rw [← Host.Outcome.next.inj e]
  repeat' first
    | with_reducible assumption
    | (intro _)
    | with_reducible apply access_keeps
    | with_reducible apply finishStep_keeps
    | with_reducible apply wDtMeasure_keeps

theorem execRemeasureOne_keeps {s0 s : State} (h : Keeps s0 s) (req pier) : ∀ {z}, execRemeasureOne req pier s = .next z → Keeps s0 z := by
  intro z e
  rw [← Host.Outcome.next.inj e]
  repeat' first
    | with_reducible assumption
    | (intro _)
    | with_reducible apply access_keeps
    | with_reducible apply finishStep_keeps
    | with_reducible apply wDtMeasure_keeps

theorem execPmeasDone_keeps {s0 s : State} (h : Keeps s0 s) (probes) : ∀ {z}, execPmeasDone probes s = .next z → Keeps s0 z := by
  intro z e
  rw [← Host.Outcome.next.inj e]
  repeat' first
    | with_reducible assumption
    | with_reducible apply finishStep_keeps
    | with_reducible apply measureEnds_keeps

theorem execPmeasFail_keeps {s0 s : State} (h : Keeps s0 s) (pier) : ∀ {z}, execPmeasFail pier s = .next z → Keeps s0 z := by
  intro z e
  rw [← Host.Outcome.next.inj e]
  repeat' first
    | with_reducible assumption
    | with_reducible apply finishStep_keeps
    | with_reducible apply measureFails_keeps

theorem execMultiplierLock_keeps {s0 s : State} (h : Keeps s0 s) : ∀ {z}, execMultiplierLock s = .next z → Keeps s0 z := by
  intro z e
  rw [← Host.Outcome.next.inj e]
  repeat' first
    | with_reducible assumption
    | with_reducible apply finishStep_keeps
    | with_reducible apply lockAt_keeps

theorem execRefLost_keeps {s0 s : State} (h : Keeps s0 s) : ∀ {z}, execRefLost s = .next z → Keeps s0 z := by
  intro z e
  rw [← Host.Outcome.next.inj e]
  repeat' first
    | with_reducible assumption
    | with_reducible apply finishStep_keeps
    | with_reducible apply refLoss_keeps

theorem execRefReturn_keeps {s0 s : State} (h : Keeps s0 s) : ∀ {z}, execRefReturn s = .next z → Keeps s0 z := by
  intro z e
  rw [← Host.Outcome.next.inj e]
  repeat' first
    | with_reducible assumption
    | with_reducible apply finishStep_keeps
    | with_reducible apply refBack_keeps

end Sys2Proof.Machine
end

