-- ==== Sys2Proof/Laws/KeepLinkOps.lean ====
section
/-! SUPPORT. What the operations of Machine/LinkOps.lean keep (Laws/Keeps.lean). -/
set_option linter.tactic.unusedName false
set_option linter.unusedSimpArgs false
namespace Sys2Proof.Machine

theorem execMarker_keeps {s0 s : State} (h : Keeps s0 s) (port _t) : ∀ {z}, execMarker port _t s = .next z → Keeps s0 z := by
  intro z e
  rw [← Host.Outcome.next.inj e]
  repeat' first
    | with_reducible assumption
    | (intro _)
    | with_reducible apply finishStep_keeps
    | with_reducible apply linkEvent_keeps
    | with_reducible apply markerAt_keeps

theorem execMarkerLost_keeps {s0 s : State} (h : Keeps s0 s) (port) : ∀ {z}, execMarkerLost port s = .next z → Keeps s0 z := by
  intro z e
  rw [← Host.Outcome.next.inj e]
  repeat' first
    | with_reducible assumption
    | (intro _)
    | with_reducible apply finishStep_keeps
    | with_reducible apply linkEvent_keeps
    | with_reducible apply markerLate_keeps

theorem execData_keeps {s0 s : State} (h : Keeps s0 s) (port codeword) : ∀ {z}, execData port codeword s = .next z → Keeps s0 z := by
  intro z e
  rw [← Host.Outcome.next.inj e]
  repeat' first
    | with_reducible assumption
    | with_reducible apply dataAt_keeps
    | with_reducible apply finishStep_keeps

theorem execNak_keeps {s0 s : State} (h : Keeps s0 s) (port ack) : ∀ {z}, execNak port ack s = .next z → Keeps s0 z := by
  intro z e
  rw [← Host.Outcome.next.inj e]
  repeat' first
    | with_reducible assumption
    | (intro _)
    | with_reducible apply finishStep_keeps
    | with_reducible apply linkEvent_keeps
    | with_reducible apply nakAt_keeps

theorem execRetryBound_keeps {s0 s : State} (h : Keeps s0 s) (port) : ∀ {z}, execRetryBound port s = .next z → Keeps s0 z := by
  intro z e
  rw [← Host.Outcome.next.inj e]
  repeat' first
    | with_reducible assumption
    | (intro _)
    | with_reducible apply finishStep_keeps
    | with_reducible apply linkEvent_keeps
    | with_reducible apply retryBoundPasses_keeps

theorem execReceiveTimeout_keeps {s0 s : State} (h : Keeps s0 s) (port) : ∀ {z}, execReceiveTimeout port s = .next z → Keeps s0 z := by
  intro z e
  rw [← Host.Outcome.next.inj e]
  repeat' first
    | with_reducible assumption
    | (intro _)
    | with_reducible apply finishStep_keeps
    | with_reducible apply linkEvent_keeps
    | with_reducible apply recvTimeout_keeps

theorem execLockLost_keeps {s0 s : State} (h : Keeps s0 s) (port) : ∀ {z}, execLockLost port s = .next z → Keeps s0 z := by
  intro z e
  rw [← Host.Outcome.next.inj e]
  repeat' first
    | with_reducible assumption
    | (intro _)
    | with_reducible apply finishStep_keeps
    | with_reducible apply linkEvent_keeps
    | with_reducible apply lockLoss_keeps

theorem execLos_keeps {s0 s : State} (h : Keeps s0 s) (port) : ∀ {z}, execLos port s = .next z → Keeps s0 z := by
  intro z e
  rw [← Host.Outcome.next.inj e]
  repeat' first
    | with_reducible assumption
    | (intro _)
    | with_reducible apply finishStep_keeps
    | with_reducible apply linkEvent_keeps
    | with_reducible apply losAt_keeps

theorem execAlignmentCodeword_keeps {s0 s : State} (h : Keeps s0 s) (port matched) : ∀ {z}, execAlignmentCodeword port matched s = .next z → Keeps s0 z := by
  intro z e
  rw [← Host.Outcome.next.inj e]
  repeat' first
    | with_reducible assumption
    | (intro _)
    | with_reducible apply alignCw_keeps
    | with_reducible apply finishStep_keeps
    | with_reducible apply linkEvent_keeps

theorem execTuneDone_keeps {s0 s : State} (h : Keeps s0 s) (port) : ∀ {z}, execTuneDone port s = .next z → Keeps s0 z := by
  intro z e
  rw [← Host.Outcome.next.inj e]
  repeat' first
    | with_reducible assumption
    | (intro _)
    | with_reducible apply finishStep_keeps
    | with_reducible apply linkEvent_keeps
    | with_reducible apply tuneEnds_keeps

theorem execPmaLim_keeps {s0 s : State} (h : Keeps s0 s) (port) : ∀ {z}, execPmaLim port s = .next z → Keeps s0 z := by
  intro z e
  rw [← Host.Outcome.next.inj e]
  repeat' first
    | with_reducible assumption
    | (intro _)
    | with_reducible apply finishStep_keeps
    | with_reducible apply linkEvent_keeps
    | with_reducible apply trainLimit_keeps

theorem execAlignLock_keeps {s0 s : State} (h : Keeps s0 s) (port width2 reversed polinv lanebad) : ∀ {z}, execAlignLock port width2 reversed polinv lanebad s = .next z → Keeps s0 z := by
  intro z e
  rw [← Host.Outcome.next.inj e]
  repeat' first
    | with_reducible assumption
    | (intro _)
    | with_reducible apply alignEnds_keeps
    | with_reducible apply finishStep_keeps
    | with_reducible apply linkEvent_keeps

theorem execAlignLim_keeps {s0 s : State} (h : Keeps s0 s) (port) : ∀ {z}, execAlignLim port s = .next z → Keeps s0 z := by
  intro z e
  rw [← Host.Outcome.next.inj e]
  repeat' first
    | with_reducible assumption
    | (intro _)
    | with_reducible apply alignLimit_keeps
    | with_reducible apply finishStep_keeps
    | with_reducible apply linkEvent_keeps

theorem execInit_keeps {s0 s : State} (h : Keeps s0 s) (port f) : ∀ {z}, execInit port f s = .next z → Keeps s0 z := by
  intro z e
  rw [← Host.Outcome.next.inj e]
  repeat' first
    | with_reducible assumption
    | (intro _)
    | with_reducible apply finishStep_keeps
    | with_reducible apply initFlit_keeps
    | with_reducible apply linkEvent_keeps

theorem execInitLim_keeps {s0 s : State} (h : Keeps s0 s) (port) : ∀ {z}, execInitLim port s = .next z → Keeps s0 z := by
  intro z e
  rw [← Host.Outcome.next.inj e]
  repeat' first
    | with_reducible assumption
    | (intro _)
    | with_reducible apply finishStep_keeps
    | with_reducible apply linkEvent_keeps
    | with_reducible apply trainLimit_keeps

theorem execLinkUp_keeps {s0 s : State} (h : Keeps s0 s) (port) : ∀ {z}, execLinkUp port s = .next z → Keeps s0 z := by
  intro z e
  rw [← Host.Outcome.next.inj e]
  repeat' first
    | with_reducible assumption
    | (intro _)
    | with_reducible apply finishStep_keeps
    | with_reducible apply linkEvent_keeps
    | with_reducible apply linkUp__keeps

theorem execRehold_keeps {s0 s : State} (h : Keeps s0 s) (port) : ∀ {z}, execRehold port s = .next z → Keeps s0 z := by
  intro z e
  rw [← Host.Outcome.next.inj e]
  repeat' first
    | with_reducible assumption
    | (intro _)
    | with_reducible apply finishStep_keeps
    | with_reducible apply linkEvent_keeps
    | with_reducible apply reholdPasses_keeps

theorem execPortEn_keeps {s0 s : State} (h : Keeps s0 s) (req port data) : ∀ {z}, execPortEn req port data s = .next z → Keeps s0 z := by
  intro z e
  rw [← Host.Outcome.next.inj e]
  repeat' first
    | with_reducible assumption
    | (intro _)
    | with_reducible apply access_keeps
    | with_reducible apply finishStep_keeps
    | with_reducible apply wViaCtl_keeps

theorem execPortDown_keeps {s0 s : State} (h : Keeps s0 s) (req port) : ∀ {z}, execPortDown req port s = .next z → Keeps s0 z := by
  intro z e
  rw [← Host.Outcome.next.inj e]
  repeat' first
    | with_reducible assumption
    | (intro _)
    | with_reducible apply access_keeps
    | with_reducible apply finishStep_keeps
    | with_reducible apply wViaCtl_keeps

end Sys2Proof.Machine
end

