-- ==== Sys2Proof/Laws/KeepTenantOps.lean ====
section
/-! SUPPORT. What the operations of Machine/TenantOps.lean keep (Laws/Keeps.lean). -/
set_option linter.tactic.unusedName false
set_option linter.unusedSimpArgs false
namespace Sys2Proof.Machine

theorem execQuiesce_keeps {s0 s : State} (h : Keeps s0 s) (req tenant) : ∀ {z}, execQuiesce req tenant s = .next z → Keeps s0 z := by
  intro z e
  rw [← Host.Outcome.next.inj e]
  repeat' first
    | with_reducible assumption
    | (intro _)
    | with_reducible apply access_keeps
    | with_reducible apply doQuiesce_keeps
    | with_reducible apply finishStep_keeps
    | with_reducible apply wTenOp_keeps

theorem execQuiesced_keeps {s0 s : State} (h : Keeps s0 s) (tenant) : ∀ {z}, execQuiesced tenant s = .next z → Keeps s0 z := by
  intro z e
  rw [← Host.Outcome.next.inj e]
  repeat' first
    | with_reducible assumption
    | with_reducible apply finishStep_keeps
    | with_reducible apply quiesced__keeps

theorem execResume_keeps {s0 s : State} (h : Keeps s0 s) (req tenant) : ∀ {z}, execResume req tenant s = .next z → Keeps s0 z := by
  intro z e
  rw [← Host.Outcome.next.inj e]
  repeat' first
    | with_reducible assumption
    | (intro _)
    | with_reducible apply access_keeps
    | with_reducible apply doResume_keeps
    | with_reducible apply finishStep_keeps
    | with_reducible apply wTenOp_keeps

theorem execReset_keeps {s0 s : State} (h : Keeps s0 s) (req tenant freeall) : ∀ {z}, execReset req tenant freeall s = .next z → Keeps s0 z := by
  intro z e
  rw [← Host.Outcome.next.inj e]
  repeat' first
    | with_reducible assumption
    | (intro _)
    | with_reducible apply access_keeps
    | with_reducible apply doReset_keeps
    | with_reducible apply finishStep_keeps
    | with_reducible apply wTenOp_keeps

theorem execForcedReset_keeps {s0 s : State} (h : Keeps s0 s) (req tenant freeall) : ∀ {z}, execForcedReset req tenant freeall s = .next z → Keeps s0 z := by
  intro z e
  rw [← Host.Outcome.next.inj e]
  repeat' first
    | with_reducible assumption
    | (intro _)
    | with_reducible apply access_keeps
    | with_reducible apply doForced_keeps
    | with_reducible apply finishStep_keeps
    | with_reducible apply wTenOp_keeps

theorem execResetComplete_keeps {s0 s : State} (h : Keeps s0 s) (tenant) : ∀ {z}, execResetComplete tenant s = .next z → Keeps s0 z := by
  intro z e
  rw [← Host.Outcome.next.inj e]
  repeat' first
    | with_reducible assumption
    | with_reducible apply finishStep_keeps
    | with_reducible apply resetDone_keeps

theorem execAgtBind_keeps {s0 s : State} (h : Keeps s0 s) (req agent data) : ∀ {z}, execAgtBind req agent data s = .next z → Keeps s0 z := by
  intro z e
  rw [← Host.Outcome.next.inj e]
  repeat' first
    | with_reducible assumption
    | (intro _)
    | with_reducible apply Keeps.ite
    | with_reducible apply access_keeps
    | with_reducible apply finishStep_keeps
    | with_reducible apply wAgtBind_keeps

theorem execDisable_keeps {s0 s : State} (h : Keeps s0 s) (req agent) : ∀ {z}, execDisable req agent s = .next z → Keeps s0 z := by
  intro z e
  rw [← Host.Outcome.next.inj e]
  repeat' first
    | with_reducible assumption
    | (intro _)
    | with_reducible apply Keeps.ite
    | with_reducible apply access_keeps
    | with_reducible apply finishStep_keeps
    | with_reducible apply wAgtBind_keeps

theorem execDisabled_keeps {s0 s : State} (h : Keeps s0 s) (agent) : ∀ {z}, execDisabled agent s = .next z → Keeps s0 z := by
  intro z e
  rw [← Host.Outcome.next.inj e]
  repeat' first
    | with_reducible assumption
    | with_reducible apply disabled__keeps
    | with_reducible apply finishStep_keeps

theorem execTenShare_keeps {s0 s : State} (h : Keeps s0 s) (req tenant word data) : ∀ {z}, execTenShare req tenant word data s = .next z → Keeps s0 z := by
  intro z e
  rw [← Host.Outcome.next.inj e]
  repeat' first
    | with_reducible assumption
    | (intro _)
    | with_reducible apply Keeps.ite
    | with_reducible apply access_keeps
    | with_reducible apply finishStep_keeps
    | with_reducible apply wTenShare_keeps

theorem execTenCfg_keeps {s0 s : State} (h : Keeps s0 s) (req tenant data) : ∀ {z}, execTenCfg req tenant data s = .next z → Keeps s0 z := by
  intro z e
  rw [← Host.Outcome.next.inj e]
  repeat' first
    | with_reducible assumption
    | (intro _)
    | with_reducible apply access_keeps
    | with_reducible apply finishStep_keeps
    | with_reducible apply wTenCfg_keeps

theorem execTenImp_keeps {s0 s : State} (h : Keeps s0 s) (req tenant win data) : ∀ {z}, execTenImp req tenant win data s = .next z → Keeps s0 z := by
  intro z e
  rw [← Host.Outcome.next.inj e]
  repeat' first
    | with_reducible assumption
    | (intro _)
    | with_reducible apply access_keeps
    | with_reducible apply finishStep_keeps
    | with_reducible apply wTenImp_keeps

end Sys2Proof.Machine
end

