-- ==== Sys2Proof/Laws/KeepConfigOps.lean ====
section
/-! SUPPORT. What the operations of Machine/ConfigOps.lean keep (Laws/Keeps.lean). -/
set_option linter.tactic.unusedName false
set_option linter.unusedSimpArgs false
namespace Sys2Proof.Machine

theorem execSemaHtw_keeps {s0 s : State} (h : Keeps s0 s) (req tenant data) : ∀ {z}, execSemaHtw req tenant data s = .next z → Keeps s0 z := by
  intro z e
  rw [← Host.Outcome.next.inj e]
  repeat' first
    | with_reducible assumption
    | (intro _)
    | with_reducible apply access_keeps
    | with_reducible apply finishStep_keeps
    | with_reducible apply wSemaHtw_keeps

theorem execSemaBack_keeps {s0 s : State} (h : Keeps s0 s) (req tenant data) : ∀ {z}, execSemaBack req tenant data s = .next z → Keeps s0 z := by
  intro z e
  rw [← Host.Outcome.next.inj e]
  repeat' first
    | with_reducible assumption
    | (intro _)
    | with_reducible apply access_keeps
    | with_reducible apply finishStep_keeps
    | with_reducible apply wSemaBack_keeps

theorem execSemaPair_keeps {s0 s : State} (h : Keeps s0 s) (req data) : ∀ {z}, execSemaPair req data s = .next z → Keeps s0 z := by
  intro z e
  rw [← Host.Outcome.next.inj e]
  repeat' first
    | with_reducible assumption
    | (intro _)
    | with_reducible apply access_keeps
    | with_reducible apply finishStep_keeps
    | with_reducible apply wSemaPair_keeps

theorem execWaitCtl_keeps {s0 s : State} (h : Keeps s0 s) (req data) : ∀ {z}, execWaitCtl req data s = .next z → Keeps s0 z := by
  intro z e
  rw [← Host.Outcome.next.inj e]
  repeat' first
    | with_reducible assumption
    | (intro _)
    | with_reducible apply access_keeps
    | with_reducible apply finishStep_keeps
    | with_reducible apply plainWrite_keeps

theorem execTrsLen_keeps {s0 s : State} (h : Keeps s0 s) (req lane w data) : ∀ {z}, execTrsLen req lane w data s = .next z → Keeps s0 z := by
  intro z e
  rw [← Host.Outcome.next.inj e]
  repeat' first
    | with_reducible assumption
    | (intro _)
    | with_reducible apply access_keeps
    | with_reducible apply finishStep_keeps
    | with_reducible apply wTrsLen_keeps

theorem execTrsLcfg_keeps {s0 s : State} (h : Keeps s0 s) (req lane xdie data) : ∀ {z}, execTrsLcfg req lane xdie data s = .next z → Keeps s0 z := by
  intro z e
  rw [← Host.Outcome.next.inj e]
  repeat' first
    | with_reducible assumption
    | (intro _)
    | with_reducible apply Keeps.ite
    | with_reducible apply access_keeps
    | with_reducible apply finishStep_keeps
    | with_reducible apply wTrsLcfg_keeps

theorem execTrsLstat_keeps {s0 s : State} (h : Keeps s0 s) (req lane data) : ∀ {z}, execTrsLstat req lane data s = .next z → Keeps s0 z := by
  intro z e
  rw [← Host.Outcome.next.inj e]
  repeat' first
    | with_reducible assumption
    | (intro _)
    | with_reducible apply access_keeps
    | with_reducible apply finishStep_keeps
    | with_reducible apply wTrsLstat_keeps

theorem execKeyLock_keeps {s0 s : State} (h : Keeps s0 s) (req) : ∀ {z}, execKeyLock req s = .next z → Keeps s0 z := by
  intro z e
  rw [← Host.Outcome.next.inj e]
  repeat' first
    | with_reducible assumption
    | (intro _)
    | with_reducible apply access_keeps
    | with_reducible apply finishStep_keeps
    | with_reducible apply wKeyCtl_keeps

theorem execCoreStep_keeps {s0 s : State} (h : Keeps s0 s) (req data) : ∀ {z}, execCoreStep req data s = .next z → Keeps s0 z := by
  intro z e
  rw [← Host.Outcome.next.inj e]
  repeat' first
    | with_reducible assumption
    | (intro _)
    | with_reducible apply access_keeps
    | with_reducible apply finishStep_keeps
    | with_reducible apply wCoreStep_keeps

theorem execRegisterWrite_keeps {s0 s : State} (h : Keeps s0 s) (req offset width data) : ∀ {z}, execRegisterWrite req offset width data s = .next z → Keeps s0 z := by
  intro z e
  rw [← Host.Outcome.next.inj e]
  repeat' first
    | with_reducible assumption
    | with_reducible apply anyWrite_keeps
    | with_reducible apply finishStep_keeps

end Sys2Proof.Machine
end

