-- ==== Sys2Proof/Laws/KeepClockOps.lean ====
section
/-! SUPPORT. What the operations of Machine/ClockOps.lean keep (Laws/Keeps.lean). -/
set_option linter.tactic.unusedName false
set_option linter.unusedSimpArgs false
namespace Sys2Proof.Machine

theorem execRamp_keeps {s0 s : State} (h : Keeps s0 s) (req data) : ∀ {z}, execRamp req data s = .next z → Keeps s0 z := by
  intro z e
  rw [← Host.Outcome.next.inj e]
  repeat' first
    | with_reducible assumption
    | (intro _)
    | with_reducible apply access_keeps
    | with_reducible apply finishStep_keeps
    | with_reducible apply wClkCtl_keeps

theorem execSourceSwitch_keeps {s0 s : State} (h : Keeps s0 s) (req data) : ∀ {z}, execSourceSwitch req data s = .next z → Keeps s0 z := by
  intro z e
  rw [← Host.Outcome.next.inj e]
  repeat' first
    | with_reducible assumption
    | (intro _)
    | with_reducible apply access_keeps
    | with_reducible apply finishStep_keeps
    | with_reducible apply wClkCtl_keeps

theorem execRampStep_keeps {s0 s : State} (h : Keeps s0 s) : ∀ {z}, execRampStep s = .next z → Keeps s0 z := by
  intro z e
  rw [← Host.Outcome.next.inj e]
  repeat' first
    | with_reducible assumption
    | with_reducible apply finishStep_keeps
    | with_reducible apply rampStep__keeps

theorem execRampFault_keeps {s0 s : State} (h : Keeps s0 s) : ∀ {z}, execRampFault s = .next z → Keeps s0 z := by
  intro z e
  rw [← Host.Outcome.next.inj e]
  repeat' first
    | with_reducible assumption
    | with_reducible apply finishStep_keeps
    | with_reducible apply rampFault__keeps

theorem execEclkLost_keeps {s0 s : State} (h : Keeps s0 s) (input) : ∀ {z}, execEclkLost input s = .next z → Keeps s0 z := by
  intro z e
  rw [← Host.Outcome.next.inj e]
  repeat' first
    | with_reducible assumption
    | with_reducible apply eclkLoss_keeps
    | with_reducible apply finishStep_keeps

theorem execInputReturn_keeps {s0 s : State} (h : Keeps s0 s) (input) : ∀ {z}, execInputReturn input s = .next z → Keeps s0 z := by
  intro z e
  rw [← Host.Outcome.next.inj e]
  repeat' first
    | with_reducible assumption
    | with_reducible apply finishStep_keeps
    | with_reducible apply inputBack_keeps

theorem execGateOpen_keeps {s0 s : State} (h : Keeps s0 s) (req node) : ∀ {z}, execGateOpen req node s = .next z → Keeps s0 z := by
  intro z e
  rw [← Host.Outcome.next.inj e]
  repeat' first
    | with_reducible assumption
    | (intro _)
    | with_reducible apply access_keeps
    | with_reducible apply finishStep_keeps
    | with_reducible apply wGateOpen_keeps

theorem execGateClose_keeps {s0 s : State} (h : Keeps s0 s) (req node) : ∀ {z}, execGateClose req node s = .next z → Keeps s0 z := by
  intro z e
  rw [← Host.Outcome.next.inj e]
  repeat' first
    | with_reducible assumption
    | (intro _)
    | with_reducible apply access_keeps
    | with_reducible apply finishStep_keeps
    | with_reducible apply wGateClose_keeps

theorem execBusIdleAck_keeps {s0 s : State} (h : Keeps s0 s) : ∀ {z}, execBusIdleAck s = .next z → Keeps s0 z := by
  intro z e
  rw [← Host.Outcome.next.inj e]
  repeat' first
    | with_reducible assumption
    | with_reducible apply busIdle_keeps
    | with_reducible apply finishStep_keeps

theorem execGateTimeout_keeps {s0 s : State} (h : Keeps s0 s) : ∀ {z}, execGateTimeout s = .next z → Keeps s0 z := by
  intro z e
  rw [← Host.Outcome.next.inj e]
  repeat' first
    | with_reducible assumption
    | with_reducible apply finishStep_keeps
    | with_reducible apply gateLate_keeps

theorem execClkObs_keeps {s0 s : State} (h : Keeps s0 s) (req data) : ∀ {z}, execClkObs req data s = .next z → Keeps s0 z := by
  intro z e
  rw [← Host.Outcome.next.inj e]
  repeat' first
    | with_reducible assumption
    | (intro _)
    | with_reducible apply access_keeps
    | with_reducible apply finishStep_keeps
    | with_reducible apply plainWrite_keeps

theorem execDroopWarn_keeps {s0 s : State} (h : Keeps s0 s) (level) : ∀ {z}, execDroopWarn level s = .next z → Keeps s0 z := by
  intro z e
  rw [← Host.Outcome.next.inj e]
  repeat' first
    | with_reducible assumption
    | with_reducible apply droopAt_keeps
    | with_reducible apply finishStep_keeps

theorem execColdReset_keeps {s0 s : State} (h : Keeps s0 s) : ∀ {z}, execColdReset s = .next z → Keeps s0 z := by
  intro z e
  rw [← Host.Outcome.next.inj e]
  repeat' first
    | with_reducible assumption
    | with_reducible apply finishStep_keeps
    | with_reducible apply resetFalls_keeps

theorem execPowerOnReset_keeps {s0 s : State} (h : Keeps s0 s) : ∀ {z}, execPowerOnReset s = .next z → Keeps s0 z := by
  intro z e
  rw [← Host.Outcome.next.inj e]
  repeat' first
    | with_reducible assumption
    | with_reducible apply finishStep_keeps
    | with_reducible apply resetFalls_keeps

theorem execResetRelease_keeps {s0 s : State} (h : Keeps s0 s) : ∀ {z}, execResetRelease s = .next z → Keeps s0 z := by
  intro z e
  rw [← Host.Outcome.next.inj e]
  repeat' first
    | with_reducible assumption
    | with_reducible apply finishStep_keeps
    | with_reducible apply resetRises_keeps

end Sys2Proof.Machine
end

