-- ==== Sys2Proof/Laws/KeepFirmwareOps.lean ====
section
/-! SUPPORT. What the operations of Machine/FirmwareOps.lean keep (Laws/Keeps.lean). -/
set_option linter.tactic.unusedName false
set_option linter.unusedSimpArgs false
namespace Sys2Proof.Machine

theorem execFwImgDone_keeps {s0 s : State} (h : Keeps s0 s) (req) : ∀ {z}, execFwImgDone req s = .next z → Keeps s0 z := by
  intro z e
  rw [← Host.Outcome.next.inj e]
  repeat' first
    | with_reducible assumption
    | (intro _)
    | with_reducible apply access_keeps
    | with_reducible apply finishStep_keeps
    | with_reducible apply wFwImg_keeps

theorem execMeasured_keeps {s0 s : State} (h : Keeps s0 s) : ∀ {z}, execMeasured s = .next z → Keeps s0 z := by
  intro z e
  rw [← Host.Outcome.next.inj e]
  repeat' first
    | with_reducible assumption
    | with_reducible apply finishStep_keeps
    | with_reducible apply measureImage_keeps

theorem execFirmwareStart_keeps {s0 s : State} (h : Keeps s0 s) : ∀ {z}, execFirmwareStart s = .next z → Keeps s0 z := by
  intro z e
  rw [← Host.Outcome.next.inj e]
  repeat' first
    | with_reducible assumption
    | with_reducible apply finishStep_keeps
    | with_reducible apply release_keeps

theorem execReady_keeps {s0 s : State} (h : Keeps s0 s) : ∀ {z}, execReady s = .next z → Keeps s0 z := by
  intro z e
  rw [← Host.Outcome.next.inj e]
  repeat' first
    | with_reducible assumption
    | (intro _)
    | with_reducible apply access_keeps
    | with_reducible apply finishStep_keeps
    | with_reducible apply wFwStat_keeps

theorem execFwHbeat_keeps {s0 s : State} (h : Keeps s0 s) (req) : ∀ {z}, execFwHbeat req s = .next z → Keeps s0 z := by
  intro z e
  rw [← Host.Outcome.next.inj e]
  repeat' first
    | with_reducible assumption
    | (intro _)
    | with_reducible apply access_keeps
    | with_reducible apply finishStep_keeps
    | with_reducible apply wFwHbeat_keeps

theorem execFwHang_keeps {s0 s : State} (h : Keeps s0 s) : ∀ {z}, execFwHang s = .next z → Keeps s0 z := by
  intro z e
  rw [← Host.Outcome.next.inj e]
  repeat' first
    | with_reducible assumption
    | with_reducible apply finishStep_keeps
    | with_reducible apply fwHang__keeps

theorem execBegin_keeps {s0 s : State} (h : Keeps s0 s) (req) : ∀ {z}, execBegin req s = .next z → Keeps s0 z := by
  intro z e
  rw [← Host.Outcome.next.inj e]
  repeat' first
    | with_reducible assumption
    | (intro _)
    | with_reducible apply access_keeps
    | with_reducible apply finishStep_keeps
    | with_reducible apply wFwUpd_keeps

theorem execSafepointAck_keeps {s0 s : State} (h : Keeps s0 s) : ∀ {z}, execSafepointAck s = .next z → Keeps s0 z := by
  intro z e
  rw [← Host.Outcome.next.inj e]
  repeat' first
    | with_reducible assumption
    | with_reducible apply finishStep_keeps
    | with_reducible apply safePoint_keeps

theorem execCommit_keeps {s0 s : State} (h : Keeps s0 s) (req) : ∀ {z}, execCommit req s = .next z → Keeps s0 z := by
  intro z e
  rw [← Host.Outcome.next.inj e]
  repeat' first
    | with_reducible assumption
    | (intro _)
    | with_reducible apply access_keeps
    | with_reducible apply finishStep_keeps
    | with_reducible apply wFwUpd_keeps

theorem execMeasure_keeps {s0 s : State} (h : Keeps s0 s) (req) : ∀ {z}, execMeasure req s = .next z → Keeps s0 z := by
  intro z e
  rw [← Host.Outcome.next.inj e]
  repeat' first
    | with_reducible assumption
    | (intro _)
    | with_reducible apply access_keeps
    | with_reducible apply finishStep_keeps
    | with_reducible apply wFwMreq_keeps

theorem execMeasureDone_keeps {s0 s : State} (h : Keeps s0 s) : ∀ {z}, execMeasureDone s = .next z → Keeps s0 z := by
  intro z e
  rw [← Host.Outcome.next.inj e]
  repeat' first
    | with_reducible assumption
    | with_reducible apply finishStep_keeps
    | with_reducible apply measureReqDone_keeps

theorem fwException_keeps {s0 s : State} (h : Keeps s0 s) (pc) : Keeps s0 (fwException s pc) := by
  unfold fwException
  repeat' first
    | with_reducible assumption
    | with_reducible apply Keeps.ite
    | with_reducible apply raise_keeps

theorem execFwTrap_keeps {s0 s : State} (h : Keeps s0 s) (pc) : ∀ {z}, execFwTrap pc s = .next z → Keeps s0 z := by
  intro z e
  rw [← Host.Outcome.next.inj e]
  repeat' first
    | with_reducible assumption
    | with_reducible apply finishStep_keeps
    | with_reducible apply fwException_keeps

end Sys2Proof.Machine
end

