-- ==== Sys2Proof/Laws/KeepObserveOps.lean ====
section
/-! SUPPORT. What the operations of Machine/ObserveOps.lean keep (Laws/Keeps.lean). -/
set_option linter.tactic.unusedName false
set_option linter.unusedSimpArgs false
namespace Sys2Proof.Machine

theorem execClear_keeps {s0 s : State} (h : Keeps s0 s) (req first last) : ∀ {z}, execClear req first last s = .next z → Keeps s0 z := by
  intro z e
  rw [← Host.Outcome.next.inj e]
  repeat' first
    | with_reducible assumption
    | (intro _)
    | with_reducible apply access_keeps
    | with_reducible apply clearCounters_keeps
    | with_reducible apply finishStep_keeps

theorem execClearAll_keeps {s0 s : State} (h : Keeps s0 s) (req) : ∀ {z}, execClearAll req s = .next z → Keeps s0 z := by
  intro z e
  rw [← Host.Outcome.next.inj e]
  repeat' first
    | with_reducible assumption
    | (intro _)
    | with_reducible apply access_keeps
    | with_reducible apply clearCounters_keeps
    | with_reducible apply finishStep_keeps

theorem execSample_keeps {s0 s : State} (h : Keeps s0 s) : ∀ {z}, execSample s = .next z → Keeps s0 z := by
  intro z e
  rw [← Host.Outcome.next.inj e]
  repeat' first
    | with_reducible assumption
    | with_reducible apply finishStep_keeps
    | with_reducible apply takeSample_keeps

theorem execObsSamp_keeps {s0 s : State} (h : Keeps s0 s) (req data) : ∀ {z}, execObsSamp req data s = .next z → Keeps s0 z := by
  intro z e
  rw [← Host.Outcome.next.inj e]
  repeat' first
    | with_reducible assumption
    | (intro _)
    | with_reducible apply access_keeps
    | with_reducible apply finishStep_keeps
    | with_reducible apply wObsSamp_keeps

theorem execObsRing_keeps {s0 s : State} (h : Keeps s0 s) (req data) : ∀ {z}, execObsRing req data s = .next z → Keeps s0 z := by
  intro z e
  rw [← Host.Outcome.next.inj e]
  repeat' first
    | with_reducible assumption
    | (intro _)
    | with_reducible apply access_keeps
    | with_reducible apply finishStep_keeps
    | with_reducible apply wObsRing_keeps

theorem execObsTrring_keeps {s0 s : State} (h : Keeps s0 s) (req data) : ∀ {z}, execObsTrring req data s = .next z → Keeps s0 z := by
  intro z e
  rw [← Host.Outcome.next.inj e]
  repeat' first
    | with_reducible assumption
    | (intro _)
    | with_reducible apply access_keeps
    | with_reducible apply finishStep_keeps
    | with_reducible apply wObsTrring_keeps

theorem execArm_keeps {s0 s : State} (h : Keeps s0 s) (req holdto) : ∀ {z}, execArm req holdto s = .next z → Keeps s0 z := by
  intro z e
  rw [← Host.Outcome.next.inj e]
  repeat' first
    | with_reducible assumption
    | (intro _)
    | with_reducible apply access_keeps
    | with_reducible apply doArm_keeps
    | with_reducible apply finishStep_keeps

theorem execDisarm_keeps {s0 s : State} (h : Keeps s0 s) (req) : ∀ {z}, execDisarm req s = .next z → Keeps s0 z := by
  intro z e
  rw [← Host.Outcome.next.inj e]
  repeat' first
    | with_reducible assumption
    | (intro _)
    | with_reducible apply access_keeps
    | with_reducible apply doDisarm_keeps
    | with_reducible apply finishStep_keeps

theorem execFreeze_keeps {s0 s : State} (h : Keeps s0 s) : ∀ {z}, execFreeze s = .next z → Keeps s0 z := by
  intro z e
  rw [← Host.Outcome.next.inj e]
  repeat' first
    | with_reducible assumption
    | with_reducible apply finishStep_keeps
    | with_reducible apply freezeTick_keeps

theorem execFrozen_keeps {s0 s : State} (h : Keeps s0 s) : ∀ {z}, execFrozen s = .next z → Keeps s0 z := by
  intro z e
  rw [← Host.Outcome.next.inj e]
  repeat' first
    | with_reducible assumption
    | with_reducible apply finishStep_keeps
    | with_reducible apply frozenAt_keeps

theorem execThaw_keeps {s0 s : State} (h : Keeps s0 s) (req) : ∀ {z}, execThaw req s = .next z → Keeps s0 z := by
  intro z e
  rw [← Host.Outcome.next.inj e]
  repeat' first
    | with_reducible assumption
    | (intro _)
    | with_reducible apply access_keeps
    | with_reducible apply doThaw_keeps
    | with_reducible apply finishStep_keeps

theorem execThawat_keeps {s0 s : State} (h : Keeps s0 s) (req) : ∀ {z}, execThawat req s = .next z → Keeps s0 z := by
  intro z e
  rw [← Host.Outcome.next.inj e]
  repeat' first
    | with_reducible assumption
    | (intro _)
    | with_reducible apply access_keeps
    | with_reducible apply doThawat_keeps
    | with_reducible apply finishStep_keeps

theorem execThawTick_keeps {s0 s : State} (h : Keeps s0 s) : ∀ {z}, execThawTick s = .next z → Keeps s0 z := by
  intro z e
  rw [← Host.Outcome.next.inj e]
  repeat' first
    | with_reducible assumption
    | with_reducible apply finishStep_keeps
    | with_reducible apply thawTick__keeps

theorem execThawingDone_keeps {s0 s : State} (h : Keeps s0 s) : ∀ {z}, execThawingDone s = .next z → Keeps s0 z := by
  intro z e
  rw [← Host.Outcome.next.inj e]
  repeat' first
    | with_reducible assumption
    | with_reducible apply finishStep_keeps
    | with_reducible apply thawed_keeps

theorem execCopy_keeps {s0 s : State} (h : Keeps s0 s) (req) : ∀ {z}, execCopy req s = .next z → Keeps s0 z := by
  intro z e
  rw [← Host.Outcome.next.inj e]
  repeat' first
    | with_reducible assumption
    | (intro _)
    | with_reducible apply access_keeps
    | with_reducible apply finishStep_keeps
    | with_reducible apply sncmdBegin_keeps

theorem execHangscan_keeps {s0 s : State} (h : Keeps s0 s) (req) : ∀ {z}, execHangscan req s = .next z → Keeps s0 z := by
  intro z e
  rw [← Host.Outcome.next.inj e]
  repeat' first
    | with_reducible assumption
    | (intro _)
    | with_reducible apply access_keeps
    | with_reducible apply finishStep_keeps
    | with_reducible apply sncmdBegin_keeps

theorem execSncmdDone_keeps {s0 s : State} (h : Keeps s0 s) : ∀ {z}, execSncmdDone s = .next z → Keeps s0 z := by
  intro z e
  rw [← Host.Outcome.next.inj e]
  repeat' first
    | with_reducible assumption
    | with_reducible apply finishStep_keeps
    | with_reducible apply sncmdFinish_keeps

theorem execSetval_keeps {s0 s : State} (h : Keeps s0 s) (req) : ∀ {z}, execSetval req s = .next z → Keeps s0 z := by
  intro z e
  rw [← Host.Outcome.next.inj e]
  repeat' first
    | with_reducible assumption
    | (intro _)
    | with_reducible apply access_keeps
    | with_reducible apply doSetval_keeps
    | with_reducible apply finishStep_keeps
    | with_reducible apply wMarOp_keeps

theorem execCancelQ_keeps {s0 s : State} (h : Keeps s0 s) (req) : ∀ {z}, execCancelQ req s = .next z → Keeps s0 z := by
  intro z e
  rw [← Host.Outcome.next.inj e]
  repeat' first
    | with_reducible assumption
    | (intro _)
    | with_reducible apply access_keeps
    | with_reducible apply doCancelQ_keeps
    | with_reducible apply finishStep_keeps
    | with_reducible apply wMarOp_keeps

theorem execCancelW_keeps {s0 s : State} (h : Keeps s0 s) (req) : ∀ {z}, execCancelW req s = .next z → Keeps s0 z := by
  intro z e
  rw [← Host.Outcome.next.inj e]
  repeat' first
    | with_reducible assumption
    | (intro _)
    | with_reducible apply access_keeps
    | with_reducible apply doCancelW_keeps
    | with_reducible apply finishStep_keeps
    | with_reducible apply wMarOp_keeps

theorem execForceLane_keeps {s0 s : State} (h : Keeps s0 s) (req) : ∀ {z}, execForceLane req s = .next z → Keeps s0 z := by
  intro z e
  rw [← Host.Outcome.next.inj e]
  repeat' first
    | with_reducible assumption
    | (intro _)
    | with_reducible apply access_keeps
    | with_reducible apply doForceLane_keeps
    | with_reducible apply finishStep_keeps
    | with_reducible apply wMarOp_keeps

theorem execMarRead_keeps {s0 s : State} (h : Keeps s0 s) (req) : ∀ {z}, execMarRead req s = .next z → Keeps s0 z := by
  intro z e
  rw [← Host.Outcome.next.inj e]
  repeat' first
    | with_reducible assumption
    | (intro _)
    | with_reducible apply access_keeps
    | with_reducible apply doMarRead_keeps
    | with_reducible apply finishStep_keeps
    | with_reducible apply wMarOp_keeps

end Sys2Proof.Machine
end

