-- ==== Sys2Proof/Laws/KeepFaultOps.lean ====
section
/-! SUPPORT. What the operations of Machine/FaultOps.lean keep (Laws/Keeps.lean). -/
set_option linter.tactic.unusedName false
set_option linter.unusedSimpArgs false
namespace Sys2Proof.Machine

theorem execFstat_keeps {s0 s : State} (h : Keeps s0 s) (req block data) : ∀ {z}, execFstat req block data s = .next z → Keeps s0 z := by
  intro z e
  rw [← Host.Outcome.next.inj e]
  repeat' first
    | with_reducible assumption
    | (intro _)
    | with_reducible apply access_keeps
    | with_reducible apply finishStep_keeps
    | with_reducible apply wFstat_keeps

theorem execFfirst_keeps {s0 s : State} (h : Keeps s0 s) (req block data) : ∀ {z}, execFfirst req block data s = .next z → Keeps s0 z := by
  intro z e
  rw [← Host.Outcome.next.inj e]
  repeat' first
    | with_reducible assumption
    | (intro _)
    | with_reducible apply access_keeps
    | with_reducible apply finishStep_keeps
    | with_reducible apply wFfirst_keeps

theorem execFsev_keeps {s0 s : State} (h : Keeps s0 s) (req block data) : ∀ {z}, execFsev req block data s = .next z → Keeps s0 z := by
  intro z e
  rw [← Host.Outcome.next.inj e]
  repeat' first
    | with_reducible assumption
    | (intro _)
    | with_reducible apply access_keeps
    | with_reducible apply finishStep_keeps
    | with_reducible apply wFsev_keeps

theorem execFrct_keeps {s0 s : State} (h : Keeps s0 s) (req block data) : ∀ {z}, execFrct req block data s = .next z → Keeps s0 z := by
  intro z e
  rw [← Host.Outcome.next.inj e]
  repeat' first
    | with_reducible assumption
    | (intro _)
    | with_reducible apply access_keeps
    | with_reducible apply finishStep_keeps
    | with_reducible apply wFrct_keeps

theorem execFinj_keeps {s0 s : State} (h : Keeps s0 s) (req block data) : ∀ {z}, execFinj req block data s = .next z → Keeps s0 z := by
  intro z e
  rw [← Host.Outcome.next.inj e]
  repeat' first
    | with_reducible assumption
    | (intro _)
    | with_reducible apply access_keeps
    | with_reducible apply finishStep_keeps
    | with_reducible apply wFinj_keeps

theorem shadowCloses_keeps {s0 s : State} (h : Keeps s0 s) (b) : Keeps s0 (shadowCloses s b) := by
  unfold shadowCloses
  repeat' first
    | with_reducible assumption
    | (intro _)
    | simp -zeta only [Keeps.upd_iff]
    | (extract_lets +onlyGivenNames a
       refine (fun (_ : Keeps s0 a) => ?_) ?_
       clear_value a
       rotate_left
       dsimp only [a]
       clear a)
    | (extract_lets +onlyGivenNames a
       clear_value a)
    | (with_reducible refine Keeps.upd ?_)

theorem execShadowEnd_keeps {s0 s : State} (h : Keeps s0 s) (block) : ∀ {z}, execShadowEnd block s = .next z → Keeps s0 z := by
  intro z e
  rw [← Host.Outcome.next.inj e]
  repeat' first
    | with_reducible assumption
    | with_reducible apply finishStep_keeps
    | with_reducible apply shadowCloses_keeps

theorem execWdog_keeps {s0 s : State} (h : Keeps s0 s) (slice entry) : ∀ {z}, execWdog slice entry s = .next z → Keeps s0 z := by
  intro z e
  rw [← Host.Outcome.next.inj e]
  repeat' first
    | with_reducible assumption
    | with_reducible apply finishStep_keeps
    | with_reducible apply wdogVisit_keeps

theorem execReplyGuard_keeps {s0 s : State} (h : Keeps s0 s) (agent queue) : ∀ {z}, execReplyGuard agent queue s = .next z → Keeps s0 z := by
  intro z e
  rw [← Host.Outcome.next.inj e]
  repeat' first
    | with_reducible assumption
    | with_reducible apply finishStep_keeps
    | with_reducible apply guardFires_keeps

theorem execDrainSlow_keeps {s0 s : State} (h : Keeps s0 s) (agent queue) : ∀ {z}, execDrainSlow agent queue s = .next z → Keeps s0 z := by
  intro z e
  rw [← Host.Outcome.next.inj e]
  repeat' first
    | with_reducible assumption
    | with_reducible apply drainSlow__keeps
    | with_reducible apply finishStep_keeps

theorem execMasterPortResponse_keeps {s0 s : State} (h : Keeps s0 s) (kind err) : ∀ {z}, execMasterPortResponse kind err s = .next z → Keeps s0 z := by
  intro z e
  rw [← Host.Outcome.next.inj e]
  repeat' first
    | with_reducible assumption
    | with_reducible apply finishStep_keeps
    | with_reducible apply masterResponse_keeps

end Sys2Proof.Machine
end

