-- ==== Sys2Proof/Laws/State.lean ====
section
/-! SUPPORT. What each named change of the state leaves as it was, field by field, and what a register, a field or a table holds
after it. -/
namespace Sys2Proof.Machine

/-! wr changes rf only. -/
@[simp] theorem wr_pending (s : State) (off v) : (wr s off v).pending = s.pending := rfl
@[simp] theorem wr_now (s : State) (off v) : (wr s off v).now = s.now := rfl
@[simp] theorem wr_net (s : State) (off v) : (wr s off v).net = s.net := rfl
@[simp] theorem wr_agents (s : State) (off v) : (wr s off v).agents = s.agents := rfl
@[simp] theorem wr_piers (s : State) (off v) : (wr s off v).piers = s.piers := rfl
@[simp] theorem wr_sema (s : State) (off v) : (wr s off v).sema = s.sema := rfl
@[simp] theorem wr_wk (s : State) (off v) : (wr s off v).wk = s.wk := rfl
@[simp] theorem wr_gir (s : State) (off v) : (wr s off v).gir = s.gir := rfl
@[simp] theorem wr_rt (s : State) (off v) : (wr s off v).rt = s.rt := rfl
@[simp] theorem wr_lanes (s : State) (off v) : (wr s off v).lanes = s.lanes := rfl
@[simp] theorem wr_abc (s : State) (off v) : (wr s off v).abc = s.abc := rfl
@[simp] theorem wr_ports (s : State) (off v) : (wr s off v).ports = s.ports := rfl
@[simp] theorem wr_span (s : State) (off v) : (wr s off v).span = s.span := rfl
@[simp] theorem wr_dt (s : State) (off v) : (wr s off v).dt = s.dt := rfl
@[simp] theorem wr_clk (s : State) (off v) : (wr s off v).clk = s.clk := rfl
@[simp] theorem wr_fw (s : State) (off v) : (wr s off v).fw = s.fw := rfl
@[simp] theorem wr_obs (s : State) (off v) : (wr s off v).obs = s.obs := rfl
@[simp] theorem wr_tens (s : State) (off v) : (wr s off v).tens = s.tens := rfl
@[simp] theorem wr_flt (s : State) (off v) : (wr s off v).flt = s.flt := rfl
@[simp] theorem wr_mem (s : State) (off v) : (wr s off v).mem = s.mem := rfl
@[simp] theorem wr_fresh (s : State) (off v) : (wr s off v).fresh = s.fresh := rfl
@[simp] theorem wr_order (s : State) (off v) : (wr s off v).order = s.order := rfl
@[simp] theorem wr_turn (s : State) (off v) : (wr s off v).turn = s.turn := rfl

/-! put changes rf only. -/
@[simp] theorem put_pending (s : State) (f v) : (put s f v).pending = s.pending := rfl
@[simp] theorem put_now (s : State) (f v) : (put s f v).now = s.now := rfl
@[simp] theorem put_net (s : State) (f v) : (put s f v).net = s.net := rfl
@[simp] theorem put_agents (s : State) (f v) : (put s f v).agents = s.agents := rfl
@[simp] theorem put_piers (s : State) (f v) : (put s f v).piers = s.piers := rfl
@[simp] theorem put_sema (s : State) (f v) : (put s f v).sema = s.sema := rfl
@[simp] theorem put_wk (s : State) (f v) : (put s f v).wk = s.wk := rfl
@[simp] theorem put_gir (s : State) (f v) : (put s f v).gir = s.gir := rfl
@[simp] theorem put_rt (s : State) (f v) : (put s f v).rt = s.rt := rfl
@[simp] theorem put_lanes (s : State) (f v) : (put s f v).lanes = s.lanes := rfl
@[simp] theorem put_abc (s : State) (f v) : (put s f v).abc = s.abc := rfl
@[simp] theorem put_ports (s : State) (f v) : (put s f v).ports = s.ports := rfl
@[simp] theorem put_span (s : State) (f v) : (put s f v).span = s.span := rfl
@[simp] theorem put_dt (s : State) (f v) : (put s f v).dt = s.dt := rfl
@[simp] theorem put_clk (s : State) (f v) : (put s f v).clk = s.clk := rfl
@[simp] theorem put_fw (s : State) (f v) : (put s f v).fw = s.fw := rfl
@[simp] theorem put_obs (s : State) (f v) : (put s f v).obs = s.obs := rfl
@[simp] theorem put_tens (s : State) (f v) : (put s f v).tens = s.tens := rfl
@[simp] theorem put_flt (s : State) (f v) : (put s f v).flt = s.flt := rfl
@[simp] theorem put_mem (s : State) (f v) : (put s f v).mem = s.mem := rfl
@[simp] theorem put_fresh (s : State) (f v) : (put s f v).fresh = s.fresh := rfl
@[simp] theorem put_order (s : State) (f v) : (put s f v).order = s.order := rfl
@[simp] theorem put_turn (s : State) (f v) : (put s f v).turn = s.turn := rfl

/-! bump changes rf only. -/
@[simp] theorem bump_pending (s : State) (f n) : (bump s f n).pending = s.pending := rfl
@[simp] theorem bump_now (s : State) (f n) : (bump s f n).now = s.now := rfl
@[simp] theorem bump_net (s : State) (f n) : (bump s f n).net = s.net := rfl
@[simp] theorem bump_agents (s : State) (f n) : (bump s f n).agents = s.agents := rfl
@[simp] theorem bump_piers (s : State) (f n) : (bump s f n).piers = s.piers := rfl
@[simp] theorem bump_sema (s : State) (f n) : (bump s f n).sema = s.sema := rfl
@[simp] theorem bump_wk (s : State) (f n) : (bump s f n).wk = s.wk := rfl
@[simp] theorem bump_gir (s : State) (f n) : (bump s f n).gir = s.gir := rfl
@[simp] theorem bump_rt (s : State) (f n) : (bump s f n).rt = s.rt := rfl
@[simp] theorem bump_lanes (s : State) (f n) : (bump s f n).lanes = s.lanes := rfl
@[simp] theorem bump_abc (s : State) (f n) : (bump s f n).abc = s.abc := rfl
@[simp] theorem bump_ports (s : State) (f n) : (bump s f n).ports = s.ports := rfl
@[simp] theorem bump_span (s : State) (f n) : (bump s f n).span = s.span := rfl
@[simp] theorem bump_dt (s : State) (f n) : (bump s f n).dt = s.dt := rfl
@[simp] theorem bump_clk (s : State) (f n) : (bump s f n).clk = s.clk := rfl
@[simp] theorem bump_fw (s : State) (f n) : (bump s f n).fw = s.fw := rfl
@[simp] theorem bump_obs (s : State) (f n) : (bump s f n).obs = s.obs := rfl
@[simp] theorem bump_tens (s : State) (f n) : (bump s f n).tens = s.tens := rfl
@[simp] theorem bump_flt (s : State) (f n) : (bump s f n).flt = s.flt := rfl
@[simp] theorem bump_mem (s : State) (f n) : (bump s f n).mem = s.mem := rfl
@[simp] theorem bump_fresh (s : State) (f n) : (bump s f n).fresh = s.fresh := rfl
@[simp] theorem bump_order (s : State) (f n) : (bump s f n).order = s.order := rfl
@[simp] theorem bump_turn (s : State) (f n) : (bump s f n).turn = s.turn := rfl

/-! setAgent changes agents only. -/
@[simp] theorem setAgent_pending (s : State) (a g) : (setAgent s a g).pending = s.pending := rfl
@[simp] theorem setAgent_now (s : State) (a g) : (setAgent s a g).now = s.now := rfl
@[simp] theorem setAgent_net (s : State) (a g) : (setAgent s a g).net = s.net := rfl
@[simp] theorem setAgent_rf (s : State) (a g) : (setAgent s a g).rf = s.rf := rfl
@[simp] theorem setAgent_piers (s : State) (a g) : (setAgent s a g).piers = s.piers := rfl
@[simp] theorem setAgent_sema (s : State) (a g) : (setAgent s a g).sema = s.sema := rfl
@[simp] theorem setAgent_wk (s : State) (a g) : (setAgent s a g).wk = s.wk := rfl
@[simp] theorem setAgent_gir (s : State) (a g) : (setAgent s a g).gir = s.gir := rfl
@[simp] theorem setAgent_rt (s : State) (a g) : (setAgent s a g).rt = s.rt := rfl
@[simp] theorem setAgent_lanes (s : State) (a g) : (setAgent s a g).lanes = s.lanes := rfl
@[simp] theorem setAgent_abc (s : State) (a g) : (setAgent s a g).abc = s.abc := rfl
@[simp] theorem setAgent_ports (s : State) (a g) : (setAgent s a g).ports = s.ports := rfl
@[simp] theorem setAgent_span (s : State) (a g) : (setAgent s a g).span = s.span := rfl
@[simp] theorem setAgent_dt (s : State) (a g) : (setAgent s a g).dt = s.dt := rfl
@[simp] theorem setAgent_clk (s : State) (a g) : (setAgent s a g).clk = s.clk := rfl
@[simp] theorem setAgent_fw (s : State) (a g) : (setAgent s a g).fw = s.fw := rfl
@[simp] theorem setAgent_obs (s : State) (a g) : (setAgent s a g).obs = s.obs := rfl
@[simp] theorem setAgent_tens (s : State) (a g) : (setAgent s a g).tens = s.tens := rfl
@[simp] theorem setAgent_flt (s : State) (a g) : (setAgent s a g).flt = s.flt := rfl
@[simp] theorem setAgent_mem (s : State) (a g) : (setAgent s a g).mem = s.mem := rfl
@[simp] theorem setAgent_fresh (s : State) (a g) : (setAgent s a g).fresh = s.fresh := rfl
@[simp] theorem setAgent_order (s : State) (a g) : (setAgent s a g).order = s.order := rfl
@[simp] theorem setAgent_turn (s : State) (a g) : (setAgent s a g).turn = s.turn := rfl

/-! setQueue changes agents only. -/
@[simp] theorem setQueue_pending (s : State) (a q x) : (setQueue s a q x).pending = s.pending := rfl
@[simp] theorem setQueue_now (s : State) (a q x) : (setQueue s a q x).now = s.now := rfl
@[simp] theorem setQueue_net (s : State) (a q x) : (setQueue s a q x).net = s.net := rfl
@[simp] theorem setQueue_rf (s : State) (a q x) : (setQueue s a q x).rf = s.rf := rfl
@[simp] theorem setQueue_piers (s : State) (a q x) : (setQueue s a q x).piers = s.piers := rfl
@[simp] theorem setQueue_sema (s : State) (a q x) : (setQueue s a q x).sema = s.sema := rfl
@[simp] theorem setQueue_wk (s : State) (a q x) : (setQueue s a q x).wk = s.wk := rfl
@[simp] theorem setQueue_gir (s : State) (a q x) : (setQueue s a q x).gir = s.gir := rfl
@[simp] theorem setQueue_rt (s : State) (a q x) : (setQueue s a q x).rt = s.rt := rfl
@[simp] theorem setQueue_lanes (s : State) (a q x) : (setQueue s a q x).lanes = s.lanes := rfl
@[simp] theorem setQueue_abc (s : State) (a q x) : (setQueue s a q x).abc = s.abc := rfl
@[simp] theorem setQueue_ports (s : State) (a q x) : (setQueue s a q x).ports = s.ports := rfl
@[simp] theorem setQueue_span (s : State) (a q x) : (setQueue s a q x).span = s.span := rfl
@[simp] theorem setQueue_dt (s : State) (a q x) : (setQueue s a q x).dt = s.dt := rfl
@[simp] theorem setQueue_clk (s : State) (a q x) : (setQueue s a q x).clk = s.clk := rfl
@[simp] theorem setQueue_fw (s : State) (a q x) : (setQueue s a q x).fw = s.fw := rfl
@[simp] theorem setQueue_obs (s : State) (a q x) : (setQueue s a q x).obs = s.obs := rfl
@[simp] theorem setQueue_tens (s : State) (a q x) : (setQueue s a q x).tens = s.tens := rfl
@[simp] theorem setQueue_flt (s : State) (a q x) : (setQueue s a q x).flt = s.flt := rfl
@[simp] theorem setQueue_mem (s : State) (a q x) : (setQueue s a q x).mem = s.mem := rfl
@[simp] theorem setQueue_fresh (s : State) (a q x) : (setQueue s a q x).fresh = s.fresh := rfl
@[simp] theorem setQueue_order (s : State) (a q x) : (setQueue s a q x).order = s.order := rfl
@[simp] theorem setQueue_turn (s : State) (a q x) : (setQueue s a q x).turn = s.turn := rfl

/-! setPier changes piers only. -/
@[simp] theorem setPier_pending (s : State) (p x) : (setPier s p x).pending = s.pending := rfl
@[simp] theorem setPier_now (s : State) (p x) : (setPier s p x).now = s.now := rfl
@[simp] theorem setPier_net (s : State) (p x) : (setPier s p x).net = s.net := rfl
@[simp] theorem setPier_rf (s : State) (p x) : (setPier s p x).rf = s.rf := rfl
@[simp] theorem setPier_agents (s : State) (p x) : (setPier s p x).agents = s.agents := rfl
@[simp] theorem setPier_sema (s : State) (p x) : (setPier s p x).sema = s.sema := rfl
@[simp] theorem setPier_wk (s : State) (p x) : (setPier s p x).wk = s.wk := rfl
@[simp] theorem setPier_gir (s : State) (p x) : (setPier s p x).gir = s.gir := rfl
@[simp] theorem setPier_rt (s : State) (p x) : (setPier s p x).rt = s.rt := rfl
@[simp] theorem setPier_lanes (s : State) (p x) : (setPier s p x).lanes = s.lanes := rfl
@[simp] theorem setPier_abc (s : State) (p x) : (setPier s p x).abc = s.abc := rfl
@[simp] theorem setPier_ports (s : State) (p x) : (setPier s p x).ports = s.ports := rfl
@[simp] theorem setPier_span (s : State) (p x) : (setPier s p x).span = s.span := rfl
@[simp] theorem setPier_dt (s : State) (p x) : (setPier s p x).dt = s.dt := rfl
@[simp] theorem setPier_clk (s : State) (p x) : (setPier s p x).clk = s.clk := rfl
@[simp] theorem setPier_fw (s : State) (p x) : (setPier s p x).fw = s.fw := rfl
@[simp] theorem setPier_obs (s : State) (p x) : (setPier s p x).obs = s.obs := rfl
@[simp] theorem setPier_tens (s : State) (p x) : (setPier s p x).tens = s.tens := rfl
@[simp] theorem setPier_flt (s : State) (p x) : (setPier s p x).flt = s.flt := rfl
@[simp] theorem setPier_mem (s : State) (p x) : (setPier s p x).mem = s.mem := rfl
@[simp] theorem setPier_fresh (s : State) (p x) : (setPier s p x).fresh = s.fresh := rfl
@[simp] theorem setPier_order (s : State) (p x) : (setPier s p x).order = s.order := rfl
@[simp] theorem setPier_turn (s : State) (p x) : (setPier s p x).turn = s.turn := rfl

/-! setTen changes tens only. -/
@[simp] theorem setTen_pending (s : State) (t x) : (setTen s t x).pending = s.pending := rfl
@[simp] theorem setTen_now (s : State) (t x) : (setTen s t x).now = s.now := rfl
@[simp] theorem setTen_net (s : State) (t x) : (setTen s t x).net = s.net := rfl
@[simp] theorem setTen_rf (s : State) (t x) : (setTen s t x).rf = s.rf := rfl
@[simp] theorem setTen_agents (s : State) (t x) : (setTen s t x).agents = s.agents := rfl
@[simp] theorem setTen_piers (s : State) (t x) : (setTen s t x).piers = s.piers := rfl
@[simp] theorem setTen_sema (s : State) (t x) : (setTen s t x).sema = s.sema := rfl
@[simp] theorem setTen_wk (s : State) (t x) : (setTen s t x).wk = s.wk := rfl
@[simp] theorem setTen_gir (s : State) (t x) : (setTen s t x).gir = s.gir := rfl
@[simp] theorem setTen_rt (s : State) (t x) : (setTen s t x).rt = s.rt := rfl
@[simp] theorem setTen_lanes (s : State) (t x) : (setTen s t x).lanes = s.lanes := rfl
@[simp] theorem setTen_abc (s : State) (t x) : (setTen s t x).abc = s.abc := rfl
@[simp] theorem setTen_ports (s : State) (t x) : (setTen s t x).ports = s.ports := rfl
@[simp] theorem setTen_span (s : State) (t x) : (setTen s t x).span = s.span := rfl
@[simp] theorem setTen_dt (s : State) (t x) : (setTen s t x).dt = s.dt := rfl
@[simp] theorem setTen_clk (s : State) (t x) : (setTen s t x).clk = s.clk := rfl
@[simp] theorem setTen_fw (s : State) (t x) : (setTen s t x).fw = s.fw := rfl
@[simp] theorem setTen_obs (s : State) (t x) : (setTen s t x).obs = s.obs := rfl
@[simp] theorem setTen_flt (s : State) (t x) : (setTen s t x).flt = s.flt := rfl
@[simp] theorem setTen_mem (s : State) (t x) : (setTen s t x).mem = s.mem := rfl
@[simp] theorem setTen_fresh (s : State) (t x) : (setTen s t x).fresh = s.fresh := rfl
@[simp] theorem setTen_order (s : State) (t x) : (setTen s t x).order = s.order := rfl
@[simp] theorem setTen_turn (s : State) (t x) : (setTen s t x).turn = s.turn := rfl

/-! setPort changes ports only. -/
@[simp] theorem setPort_pending (s : State) (n x) : (setPort s n x).pending = s.pending := rfl
@[simp] theorem setPort_now (s : State) (n x) : (setPort s n x).now = s.now := rfl
@[simp] theorem setPort_net (s : State) (n x) : (setPort s n x).net = s.net := rfl
@[simp] theorem setPort_rf (s : State) (n x) : (setPort s n x).rf = s.rf := rfl
@[simp] theorem setPort_agents (s : State) (n x) : (setPort s n x).agents = s.agents := rfl
@[simp] theorem setPort_piers (s : State) (n x) : (setPort s n x).piers = s.piers := rfl
@[simp] theorem setPort_sema (s : State) (n x) : (setPort s n x).sema = s.sema := rfl
@[simp] theorem setPort_wk (s : State) (n x) : (setPort s n x).wk = s.wk := rfl
@[simp] theorem setPort_gir (s : State) (n x) : (setPort s n x).gir = s.gir := rfl
@[simp] theorem setPort_rt (s : State) (n x) : (setPort s n x).rt = s.rt := rfl
@[simp] theorem setPort_lanes (s : State) (n x) : (setPort s n x).lanes = s.lanes := rfl
@[simp] theorem setPort_abc (s : State) (n x) : (setPort s n x).abc = s.abc := rfl
@[simp] theorem setPort_span (s : State) (n x) : (setPort s n x).span = s.span := rfl
@[simp] theorem setPort_dt (s : State) (n x) : (setPort s n x).dt = s.dt := rfl
@[simp] theorem setPort_clk (s : State) (n x) : (setPort s n x).clk = s.clk := rfl
@[simp] theorem setPort_fw (s : State) (n x) : (setPort s n x).fw = s.fw := rfl
@[simp] theorem setPort_obs (s : State) (n x) : (setPort s n x).obs = s.obs := rfl
@[simp] theorem setPort_tens (s : State) (n x) : (setPort s n x).tens = s.tens := rfl
@[simp] theorem setPort_flt (s : State) (n x) : (setPort s n x).flt = s.flt := rfl
@[simp] theorem setPort_mem (s : State) (n x) : (setPort s n x).mem = s.mem := rfl
@[simp] theorem setPort_fresh (s : State) (n x) : (setPort s n x).fresh = s.fresh := rfl
@[simp] theorem setPort_order (s : State) (n x) : (setPort s n x).order = s.order := rfl
@[simp] theorem setPort_turn (s : State) (n x) : (setPort s n x).turn = s.turn := rfl

/-! setLane changes lanes only. -/
@[simp] theorem setLane_pending (s : State) (l x) : (setLane s l x).pending = s.pending := rfl
@[simp] theorem setLane_now (s : State) (l x) : (setLane s l x).now = s.now := rfl
@[simp] theorem setLane_net (s : State) (l x) : (setLane s l x).net = s.net := rfl
@[simp] theorem setLane_rf (s : State) (l x) : (setLane s l x).rf = s.rf := rfl
@[simp] theorem setLane_agents (s : State) (l x) : (setLane s l x).agents = s.agents := rfl
@[simp] theorem setLane_piers (s : State) (l x) : (setLane s l x).piers = s.piers := rfl
@[simp] theorem setLane_sema (s : State) (l x) : (setLane s l x).sema = s.sema := rfl
@[simp] theorem setLane_wk (s : State) (l x) : (setLane s l x).wk = s.wk := rfl
@[simp] theorem setLane_gir (s : State) (l x) : (setLane s l x).gir = s.gir := rfl
@[simp] theorem setLane_rt (s : State) (l x) : (setLane s l x).rt = s.rt := rfl
@[simp] theorem setLane_abc (s : State) (l x) : (setLane s l x).abc = s.abc := rfl
@[simp] theorem setLane_ports (s : State) (l x) : (setLane s l x).ports = s.ports := rfl
@[simp] theorem setLane_span (s : State) (l x) : (setLane s l x).span = s.span := rfl
@[simp] theorem setLane_dt (s : State) (l x) : (setLane s l x).dt = s.dt := rfl
@[simp] theorem setLane_clk (s : State) (l x) : (setLane s l x).clk = s.clk := rfl
@[simp] theorem setLane_fw (s : State) (l x) : (setLane s l x).fw = s.fw := rfl
@[simp] theorem setLane_obs (s : State) (l x) : (setLane s l x).obs = s.obs := rfl
@[simp] theorem setLane_tens (s : State) (l x) : (setLane s l x).tens = s.tens := rfl
@[simp] theorem setLane_flt (s : State) (l x) : (setLane s l x).flt = s.flt := rfl
@[simp] theorem setLane_mem (s : State) (l x) : (setLane s l x).mem = s.mem := rfl
@[simp] theorem setLane_fresh (s : State) (l x) : (setLane s l x).fresh = s.fresh := rfl
@[simp] theorem setLane_order (s : State) (l x) : (setLane s l x).order = s.order := rfl
@[simp] theorem setLane_turn (s : State) (l x) : (setLane s l x).turn = s.turn := rfl

/-! setSlot changes sema only. -/
@[simp] theorem setSlot_pending (s : State) (k x) : (setSlot s k x).pending = s.pending := rfl
@[simp] theorem setSlot_now (s : State) (k x) : (setSlot s k x).now = s.now := rfl
@[simp] theorem setSlot_net (s : State) (k x) : (setSlot s k x).net = s.net := rfl
@[simp] theorem setSlot_rf (s : State) (k x) : (setSlot s k x).rf = s.rf := rfl
@[simp] theorem setSlot_agents (s : State) (k x) : (setSlot s k x).agents = s.agents := rfl
@[simp] theorem setSlot_piers (s : State) (k x) : (setSlot s k x).piers = s.piers := rfl
@[simp] theorem setSlot_wk (s : State) (k x) : (setSlot s k x).wk = s.wk := rfl
@[simp] theorem setSlot_gir (s : State) (k x) : (setSlot s k x).gir = s.gir := rfl
@[simp] theorem setSlot_rt (s : State) (k x) : (setSlot s k x).rt = s.rt := rfl
@[simp] theorem setSlot_lanes (s : State) (k x) : (setSlot s k x).lanes = s.lanes := rfl
@[simp] theorem setSlot_abc (s : State) (k x) : (setSlot s k x).abc = s.abc := rfl
@[simp] theorem setSlot_ports (s : State) (k x) : (setSlot s k x).ports = s.ports := rfl
@[simp] theorem setSlot_span (s : State) (k x) : (setSlot s k x).span = s.span := rfl
@[simp] theorem setSlot_dt (s : State) (k x) : (setSlot s k x).dt = s.dt := rfl
@[simp] theorem setSlot_clk (s : State) (k x) : (setSlot s k x).clk = s.clk := rfl
@[simp] theorem setSlot_fw (s : State) (k x) : (setSlot s k x).fw = s.fw := rfl
@[simp] theorem setSlot_obs (s : State) (k x) : (setSlot s k x).obs = s.obs := rfl
@[simp] theorem setSlot_tens (s : State) (k x) : (setSlot s k x).tens = s.tens := rfl
@[simp] theorem setSlot_flt (s : State) (k x) : (setSlot s k x).flt = s.flt := rfl
@[simp] theorem setSlot_mem (s : State) (k x) : (setSlot s k x).mem = s.mem := rfl
@[simp] theorem setSlot_fresh (s : State) (k x) : (setSlot s k x).fresh = s.fresh := rfl
@[simp] theorem setSlot_order (s : State) (k x) : (setSlot s k x).order = s.order := rfl
@[simp] theorem setSlot_turn (s : State) (k x) : (setSlot s k x).turn = s.turn := rfl

/-! delSlot changes sema only. -/
@[simp] theorem delSlot_pending (s : State) (k) : (delSlot s k).pending = s.pending := rfl
@[simp] theorem delSlot_now (s : State) (k) : (delSlot s k).now = s.now := rfl
@[simp] theorem delSlot_net (s : State) (k) : (delSlot s k).net = s.net := rfl
@[simp] theorem delSlot_rf (s : State) (k) : (delSlot s k).rf = s.rf := rfl
@[simp] theorem delSlot_agents (s : State) (k) : (delSlot s k).agents = s.agents := rfl
@[simp] theorem delSlot_piers (s : State) (k) : (delSlot s k).piers = s.piers := rfl
@[simp] theorem delSlot_wk (s : State) (k) : (delSlot s k).wk = s.wk := rfl
@[simp] theorem delSlot_gir (s : State) (k) : (delSlot s k).gir = s.gir := rfl
@[simp] theorem delSlot_rt (s : State) (k) : (delSlot s k).rt = s.rt := rfl
@[simp] theorem delSlot_lanes (s : State) (k) : (delSlot s k).lanes = s.lanes := rfl
@[simp] theorem delSlot_abc (s : State) (k) : (delSlot s k).abc = s.abc := rfl
@[simp] theorem delSlot_ports (s : State) (k) : (delSlot s k).ports = s.ports := rfl
@[simp] theorem delSlot_span (s : State) (k) : (delSlot s k).span = s.span := rfl
@[simp] theorem delSlot_dt (s : State) (k) : (delSlot s k).dt = s.dt := rfl
@[simp] theorem delSlot_clk (s : State) (k) : (delSlot s k).clk = s.clk := rfl
@[simp] theorem delSlot_fw (s : State) (k) : (delSlot s k).fw = s.fw := rfl
@[simp] theorem delSlot_obs (s : State) (k) : (delSlot s k).obs = s.obs := rfl
@[simp] theorem delSlot_tens (s : State) (k) : (delSlot s k).tens = s.tens := rfl
@[simp] theorem delSlot_flt (s : State) (k) : (delSlot s k).flt = s.flt := rfl
@[simp] theorem delSlot_mem (s : State) (k) : (delSlot s k).mem = s.mem := rfl
@[simp] theorem delSlot_fresh (s : State) (k) : (delSlot s k).fresh = s.fresh := rfl
@[simp] theorem delSlot_order (s : State) (k) : (delSlot s k).order = s.order := rfl
@[simp] theorem delSlot_turn (s : State) (k) : (delSlot s k).turn = s.turn := rfl

/-! setHtm changes sema only. -/
@[simp] theorem setHtm_pending (s : State) (i e) : (setHtm s i e).pending = s.pending := rfl
@[simp] theorem setHtm_now (s : State) (i e) : (setHtm s i e).now = s.now := rfl
@[simp] theorem setHtm_net (s : State) (i e) : (setHtm s i e).net = s.net := rfl
@[simp] theorem setHtm_rf (s : State) (i e) : (setHtm s i e).rf = s.rf := rfl
@[simp] theorem setHtm_agents (s : State) (i e) : (setHtm s i e).agents = s.agents := rfl
@[simp] theorem setHtm_piers (s : State) (i e) : (setHtm s i e).piers = s.piers := rfl
@[simp] theorem setHtm_wk (s : State) (i e) : (setHtm s i e).wk = s.wk := rfl
@[simp] theorem setHtm_gir (s : State) (i e) : (setHtm s i e).gir = s.gir := rfl
@[simp] theorem setHtm_rt (s : State) (i e) : (setHtm s i e).rt = s.rt := rfl
@[simp] theorem setHtm_lanes (s : State) (i e) : (setHtm s i e).lanes = s.lanes := rfl
@[simp] theorem setHtm_abc (s : State) (i e) : (setHtm s i e).abc = s.abc := rfl
@[simp] theorem setHtm_ports (s : State) (i e) : (setHtm s i e).ports = s.ports := rfl
@[simp] theorem setHtm_span (s : State) (i e) : (setHtm s i e).span = s.span := rfl
@[simp] theorem setHtm_dt (s : State) (i e) : (setHtm s i e).dt = s.dt := rfl
@[simp] theorem setHtm_clk (s : State) (i e) : (setHtm s i e).clk = s.clk := rfl
@[simp] theorem setHtm_fw (s : State) (i e) : (setHtm s i e).fw = s.fw := rfl
@[simp] theorem setHtm_obs (s : State) (i e) : (setHtm s i e).obs = s.obs := rfl
@[simp] theorem setHtm_tens (s : State) (i e) : (setHtm s i e).tens = s.tens := rfl
@[simp] theorem setHtm_flt (s : State) (i e) : (setHtm s i e).flt = s.flt := rfl
@[simp] theorem setHtm_mem (s : State) (i e) : (setHtm s i e).mem = s.mem := rfl
@[simp] theorem setHtm_fresh (s : State) (i e) : (setHtm s i e).fresh = s.fresh := rfl
@[simp] theorem setHtm_order (s : State) (i e) : (setHtm s i e).order = s.order := rfl
@[simp] theorem setHtm_turn (s : State) (i e) : (setHtm s i e).turn = s.turn := rfl

/-! setCtx changes abc only. -/
@[simp] theorem setCtx_pending (s : State) (c x) : (setCtx s c x).pending = s.pending := rfl
@[simp] theorem setCtx_now (s : State) (c x) : (setCtx s c x).now = s.now := rfl
@[simp] theorem setCtx_net (s : State) (c x) : (setCtx s c x).net = s.net := rfl
@[simp] theorem setCtx_rf (s : State) (c x) : (setCtx s c x).rf = s.rf := rfl
@[simp] theorem setCtx_agents (s : State) (c x) : (setCtx s c x).agents = s.agents := rfl
@[simp] theorem setCtx_piers (s : State) (c x) : (setCtx s c x).piers = s.piers := rfl
@[simp] theorem setCtx_sema (s : State) (c x) : (setCtx s c x).sema = s.sema := rfl
@[simp] theorem setCtx_wk (s : State) (c x) : (setCtx s c x).wk = s.wk := rfl
@[simp] theorem setCtx_gir (s : State) (c x) : (setCtx s c x).gir = s.gir := rfl
@[simp] theorem setCtx_rt (s : State) (c x) : (setCtx s c x).rt = s.rt := rfl
@[simp] theorem setCtx_lanes (s : State) (c x) : (setCtx s c x).lanes = s.lanes := rfl
@[simp] theorem setCtx_ports (s : State) (c x) : (setCtx s c x).ports = s.ports := rfl
@[simp] theorem setCtx_span (s : State) (c x) : (setCtx s c x).span = s.span := rfl
@[simp] theorem setCtx_dt (s : State) (c x) : (setCtx s c x).dt = s.dt := rfl
@[simp] theorem setCtx_clk (s : State) (c x) : (setCtx s c x).clk = s.clk := rfl
@[simp] theorem setCtx_fw (s : State) (c x) : (setCtx s c x).fw = s.fw := rfl
@[simp] theorem setCtx_obs (s : State) (c x) : (setCtx s c x).obs = s.obs := rfl
@[simp] theorem setCtx_tens (s : State) (c x) : (setCtx s c x).tens = s.tens := rfl
@[simp] theorem setCtx_flt (s : State) (c x) : (setCtx s c x).flt = s.flt := rfl
@[simp] theorem setCtx_mem (s : State) (c x) : (setCtx s c x).mem = s.mem := rfl
@[simp] theorem setCtx_fresh (s : State) (c x) : (setCtx s c x).fresh = s.fresh := rfl
@[simp] theorem setCtx_order (s : State) (c x) : (setCtx s c x).order = s.order := rfl
@[simp] theorem setCtx_turn (s : State) (c x) : (setCtx s c x).turn = s.turn := rfl

/-! setMem64 changes mem only. -/
@[simp] theorem setMem64_pending (s : State) (a v) : (setMem64 s a v).pending = s.pending := rfl
@[simp] theorem setMem64_now (s : State) (a v) : (setMem64 s a v).now = s.now := rfl
@[simp] theorem setMem64_net (s : State) (a v) : (setMem64 s a v).net = s.net := rfl
@[simp] theorem setMem64_rf (s : State) (a v) : (setMem64 s a v).rf = s.rf := rfl
@[simp] theorem setMem64_agents (s : State) (a v) : (setMem64 s a v).agents = s.agents := rfl
@[simp] theorem setMem64_piers (s : State) (a v) : (setMem64 s a v).piers = s.piers := rfl
@[simp] theorem setMem64_sema (s : State) (a v) : (setMem64 s a v).sema = s.sema := rfl
@[simp] theorem setMem64_wk (s : State) (a v) : (setMem64 s a v).wk = s.wk := rfl
@[simp] theorem setMem64_gir (s : State) (a v) : (setMem64 s a v).gir = s.gir := rfl
@[simp] theorem setMem64_rt (s : State) (a v) : (setMem64 s a v).rt = s.rt := rfl
@[simp] theorem setMem64_lanes (s : State) (a v) : (setMem64 s a v).lanes = s.lanes := rfl
@[simp] theorem setMem64_abc (s : State) (a v) : (setMem64 s a v).abc = s.abc := rfl
@[simp] theorem setMem64_ports (s : State) (a v) : (setMem64 s a v).ports = s.ports := rfl
@[simp] theorem setMem64_span (s : State) (a v) : (setMem64 s a v).span = s.span := rfl
@[simp] theorem setMem64_dt (s : State) (a v) : (setMem64 s a v).dt = s.dt := rfl
@[simp] theorem setMem64_clk (s : State) (a v) : (setMem64 s a v).clk = s.clk := rfl
@[simp] theorem setMem64_fw (s : State) (a v) : (setMem64 s a v).fw = s.fw := rfl
@[simp] theorem setMem64_obs (s : State) (a v) : (setMem64 s a v).obs = s.obs := rfl
@[simp] theorem setMem64_tens (s : State) (a v) : (setMem64 s a v).tens = s.tens := rfl
@[simp] theorem setMem64_flt (s : State) (a v) : (setMem64 s a v).flt = s.flt := rfl
@[simp] theorem setMem64_fresh (s : State) (a v) : (setMem64 s a v).fresh = s.fresh := rfl
@[simp] theorem setMem64_order (s : State) (a v) : (setMem64 s a v).order = s.order := rfl
@[simp] theorem setMem64_turn (s : State) (a v) : (setMem64 s a v).turn = s.turn := rfl

/-! Words. -/

/-- A field of a word, bit by bit. -/
theorem wbits_testBit (w : Word) (lo n i : Nat) :
    (wbits w lo n).testBit i = (decide (i < n) && w.getLsbD (lo + i)) := by
  unfold wbits
  rw [Nat.testBit_mod_two_pow, Nat.testBit_div_two_pow, Nat.add_comm]; rfl

/-- A word with a field replaced, bit by bit. -/
theorem wput_getLsbD (w : Word) (lo n v i : Nat) (h : i < 64) :
    (wput w lo n v).getLsbD i = if lo ≤ i ∧ i < lo + n then v.testBit (i - lo) else w.getLsbD i := by
  unfold wput
  simp only [BitVec.getLsbD_or, BitVec.getLsbD_and, BitVec.getLsbD_not, BitVec.getLsbD_ofNat, h, decide_true, Bool.true_and,
    Nat.testBit_mul_two_pow, Nat.testBit_two_pow_sub_one, Nat.testBit_mod_two_pow]
  by_cases h1 : lo ≤ i
  · by_cases h2 : i < lo + n
    · have : i - lo < n := by omega
      simp [h1, h2, this]
    · have : ¬ i - lo < n := by omega
      simp [h2, this]
  · simp [h1]

theorem wbits_lt (w : Word) (lo n : Nat) : wbits w lo n < 2 ^ n := Nat.mod_lt _ (Nat.two_pow_pos n)

/-- A field reads as it was put. -/
theorem wbits_wput_same (w : Word) (lo n v : Nat) (h : lo + n ≤ 64) : wbits (wput w lo n v) lo n = v % 2 ^ n := by
  apply Nat.eq_of_testBit_eq
  intro i
  rw [wbits_testBit, Nat.testBit_mod_two_pow]
  by_cases hi : i < n
  · rw [wput_getLsbD _ _ _ _ _ (by omega), if_pos (by omega)]; simp [hi]
  · simp [hi]

/-- A field leaves those apart from it alone. -/
theorem wbits_wput_other (w : Word) (lo n v lo' n' : Nat) (h : lo' + n' ≤ lo ∨ lo + n ≤ lo') :
    wbits (wput w lo n v) lo' n' = wbits w lo' n' := by
  apply Nat.eq_of_testBit_eq
  intro i
  rw [wbits_testBit, wbits_testBit]
  by_cases hi : i < n'
  · by_cases h64 : lo' + i < 64
    · rw [wput_getLsbD _ _ _ _ _ h64, if_neg (by omega)]
    · rw [BitVec.getLsbD_of_ge _ _ (by omega), BitVec.getLsbD_of_ge _ _ (by omega)]
  · simp [hi]

/-! Registers and their fields. -/

/-- A register reads as it was written. -/
@[simp] theorem rd_wr_same (s : State) (off : Nat) (v : Word) : rd (wr s off v) off = v := mgetD_mset_same _ _ _

/-- A write to a register leaves the others alone. -/
theorem rd_wr_other (s : State) {off o : Nat} (v : Word) (h : o ≠ off) : rd (wr s off v) o = rd s o := mgetD_mset_other _ _ _ h

/-- Registers read alike in states with one register file. -/
theorem rd_congr {s t : State} (h : t.rf = s.rf) (off : Nat) : rd t off = rd s off := by simp only [rd, h]
theorem get_congr {s t : State} (h : t.rf = s.rf) (f : Fld) : get t f = get s f := by simp only [get, rd, h]
theorem on_congr {s t : State} (h : t.rf = s.rf) (f : Fld) : on t f = on s f := by unfold on; rw [get_congr h]

theorem rd_put_same (s : State) (f : Fld) (v : Nat) : rd (put s f v) f.off = wput (rd s f.off) f.lo f.w v := rd_wr_same _ _ _
theorem rd_put_other (s : State) (f : Fld) (v : Nat) {o : Nat} (h : o ≠ f.off) : rd (put s f v) o = rd s o := rd_wr_other _ _ h

/-- A field reads as it was put, modulo its width. -/
theorem get_put_same (s : State) (f : Fld) (v : Nat) (h : f.lo + f.w ≤ 64) : get (put s f v) f = v % 2 ^ f.w := by
  unfold get
  rw [rd_put_same]
  exact wbits_wput_same _ _ _ _ h

/-- Putting a field leaves the fields of other registers alone. -/
theorem get_put_off (s : State) (f g : Fld) (v : Nat) (h : g.off ≠ f.off) : get (put s f v) g = get s g := by
  unfold get
  rw [rd_put_other _ _ _ h]

/-- Putting a field leaves the other fields of its register alone. -/
theorem get_put_bits (s : State) (f g : Fld) (v : Nat) (h : g.lo + g.w ≤ f.lo ∨ f.lo + f.w ≤ g.lo) :
    get (put s f v) g = get s g := by
  by_cases e : g.off = f.off
  · unfold get
    rw [e, rd_put_same]
    exact wbits_wput_other _ _ _ _ _ _ h
  · exact get_put_off _ _ _ _ e

theorem on_put_same (s : State) (f : Fld) (b : Bool) (h : f.lo + f.w ≤ 64) (hw : f.w ≠ 0) : on (put s f (b2n b)) f = b := by
  unfold on
  rw [get_put_same _ _ _ h, Nat.mod_eq_of_lt]
  · cases b <;> rfl
  · have := Nat.one_lt_two_pow hw
    cases b <;> simp [b2n] <;> omega

/-- A counter reads one more, or as many as were counted, wrapping at its width. -/
theorem get_bump_same (s : State) (f : Fld) (n : Nat) (h : f.lo + f.w ≤ 64) : get (bump s f n) f = (get s f + n) % 2 ^ f.w :=
  get_put_same _ _ _ h

theorem wr_regsOnly (s : State) (off : Nat) (v : Word) : RegsOnly s (wr s off v) [off] :=
  ⟨rfl, fun o h => rd_wr_other _ _ (by simpa using h)⟩

theorem put_regsOnly (s : State) (f : Fld) (v : Nat) : RegsOnly s (put s f v) [f.off] := wr_regsOnly _ _ _

theorem SameRegs.refl (s : State) (l : List Nat) : SameRegs s s l := fun _ _ => rfl

theorem SameRegs.mono {s t : State} {l m : List Nat} (h : SameRegs s t l) (hs : ∀ x ∈ l, x ∈ m) : SameRegs s t m :=
  fun o ho => h o fun hl => ho (hs o hl)

theorem SameRegs.trans {s t u : State} {l : List Nat} (h : SameRegs s t l) (k : SameRegs t u l) : SameRegs s u l :=
  fun o ho => (k o ho).trans (h o ho)

theorem RegsOnly.refl (s : State) (l : List Nat) : RegsOnly s s l := ⟨rfl, SameRegs.refl s l⟩

theorem RegsOnly.mono {s t : State} {l m : List Nat} (h : RegsOnly s t l) (hs : ∀ x ∈ l, x ∈ m) : RegsOnly s t m :=
  ⟨h.1, h.2.mono hs⟩

theorem RegsOnly.trans {s t u : State} {l : List Nat} (h : RegsOnly s t l) (k : RegsOnly t u l) : RegsOnly s u l :=
  ⟨k.1.trans (congrArg (fun x : State => { x with rf := u.rf }) h.1), h.2.trans k.2⟩

/-! The tables of the units. -/
@[simp] theorem agentSt_setAgent (s : State) (a : Nat) (g : Agent) : agentSt (setAgent s a g) a = g := mgetD_mset_same _ _ _
theorem agentSt_setAgent_other (s : State) {a b : Nat} (g : Agent) (h : b ≠ a) : agentSt (setAgent s a g) b = agentSt s b :=
  mgetD_mset_other _ _ _ h
@[simp] theorem queueOf_setQueue (s : State) (a q : Nat) (x : Queue) : queueOf (setQueue s a q x) a q = x := by
  unfold queueOf setQueue
  rw [agentSt_setAgent]
  exact mgetD_mset_same _ _ _
theorem queueOf_setQueue_other (s : State) {a q b p : Nat} (x : Queue) (h : (b, p) ≠ (a, q)) :
    queueOf (setQueue s a q x) b p = queueOf s b p := by
  unfold queueOf setQueue
  by_cases e : b = a
  · subst e
    rw [agentSt_setAgent]
    exact mgetD_mset_other _ _ _ fun hp => h (by rw [hp])
  · rw [agentSt_setAgent_other _ _ e]
@[simp] theorem pierSt_setPier (s : State) (p : Nat) (x : Pier) : pierSt (setPier s p x) p = x := mgetD_mset_same _ _ _
theorem pierSt_setPier_other (s : State) {p q : Nat} (x : Pier) (h : q ≠ p) : pierSt (setPier s p x) q = pierSt s q :=
  mgetD_mset_other _ _ _ h
@[simp] theorem tenSt_setTen (s : State) (t : Nat) (x : Tenant) : tenSt (setTen s t x) t = x := mgetD_mset_same _ _ _
theorem tenSt_setTen_other (s : State) {t v : Nat} (x : Tenant) (h : v ≠ t) : tenSt (setTen s t x) v = tenSt s v :=
  mgetD_mset_other _ _ _ h
@[simp] theorem portSt_setPort (s : State) (n : Nat) (x : Port) : portSt (setPort s n x) n = x := mgetD_mset_same _ _ _
theorem portSt_setPort_other (s : State) {n m : Nat} (x : Port) (h : m ≠ n) : portSt (setPort s n x) m = portSt s m :=
  mgetD_mset_other _ _ _ h
@[simp] theorem laneSt_setLane (s : State) (l : Nat) (x : Lane) : laneSt (setLane s l x) l = x := mgetD_mset_same _ _ _
theorem laneSt_setLane_other (s : State) {l k : Nat} (x : Lane) (h : k ≠ l) : laneSt (setLane s l x) k = laneSt s k :=
  mgetD_mset_other _ _ _ h
@[simp] theorem slotAt_setSlot (s : State) (k : Nat) (x : Slot) : slotAt (setSlot s k x) k = some x := mget_mput_same _ _
theorem slotAt_setSlot_other (s : State) {k j : Nat} (x : Slot) (h : j ≠ k) : slotAt (setSlot s k x) j = slotAt s j :=
  mget_mput_other _ h
@[simp] theorem slotAt_delSlot (s : State) (k : Nat) : slotAt (delSlot s k) k = none := mget_mdel_same _
theorem slotAt_delSlot_other (s : State) {k j : Nat} (h : j ≠ k) : slotAt (delSlot s k) j = slotAt s j := mget_mdel_other h
@[simp] theorem htmAt_setHtm (s : State) (i : Nat) (e : HEntry) : htmAt (setHtm s i e) i = e := mgetD_mset_same _ _ _
theorem htmAt_setHtm_other (s : State) {i j : Nat} (e : HEntry) (h : j ≠ i) : htmAt (setHtm s i e) j = htmAt s j :=
  mgetD_mset_other _ _ _ h
@[simp] theorem ctxAt_setCtx (s : State) (c : Nat) (x : Ctx) : ctxAt (setCtx s c x) c = some x := mget_mput_same _ _
theorem ctxAt_setCtx_other (s : State) {c d : Nat} (x : Ctx) (h : d ≠ c) : ctxAt (setCtx s c x) d = ctxAt s d :=
  mget_mput_other _ h

/-! The end of a command, and management accesses. -/

theorem calm_of_quiet {s : State} (h : quiet s = true) : calm s = true := by
  simp only [quiet, Bool.and_eq_true] at h
  exact h.1.1

theorem noInjection_of_calm {s : State} (h : calm s = true) : noInjection s = true := by
  simp only [calm, Bool.and_eq_true] at h
  exact h.1.1.2

/-- An injection that strikes by itself needs one that is armed. -/
theorem specialFaults_of_noInjection {s : State} (h : noInjection s = true) : specialFaults s = s := by
  simp only [noInjection, Bool.and_eq_true, Bool.not_eq_true'] at h
  obtain ⟨⟨⟨h0, h1⟩, h2⟩, h3⟩ := h
  simp [specialFaults, h0, h1, h2, h3]

theorem gateAbandon_of_none {s : State} (h : s.clk.gateAt = none) : gateAbandon s = s := by
  simp [gateAbandon, h]

theorem carryResets_of_nil (n : Nat) (done : List (Nat × Nat)) {s : State} (h : s.flt.resets = []) : carryResets n done s = s := by
  cases n with
  | zero => rfl
  | succ n => simp only [carryResets]; rw [h]

/-- A fold whose every step leaves the state as it is. -/
theorem foldl_stays {α : Type} {f : State → α → State} {s : State} {l : List α} (h : ∀ a ∈ l, f s a = s) : l.foldl f s = s := by
  induction l with
  | nil => rfl
  | cons a r ih =>
    rw [List.foldl_cons, h a (List.mem_cons_self ..)]
    exact ih fun b hb => h b (List.mem_cons_of_mem _ hb)

/-- A table whose every entry is empty gives the empty list at every key. -/
theorem mgetD_of_empty {α : Type} {m : SMap (List α)} (h : ∀ x ∈ m, x.2.isEmpty = true) (k : Nat) : mgetD m k [] = [] := by
  unfold mgetD
  cases hk : mget m k with
  | none => rfl
  | some l => exact List.isEmpty_iff.mp (h _ (mget_mem hk))

/-- A unit that wants no beat and holds no partial serves none. -/
theorem serveUnit_of_empty {s : State} {u : Nat} (hw : mgetD s.abc.want u [] = []) (hp : mgetD s.abc.waitParts u [] = []) (n : Nat) :
    serveUnit u n s = s := by
  cases n <;> simp [serveUnit, serveOne, hw, hp]

/-- Where no work waits, the units do nothing more. -/
theorem carryOn_of_noWork {s : State} (h : noWork s = true) : carryOn s = s := by
  simp only [noWork, Bool.and_eq_true, Bool.or_eq_true, Option.isNone_iff_eq_none, List.all_eq_true, decide_eq_true_eq] at h
  obtain ⟨⟨⟨⟨⟨hd, hp⟩, hc⟩, hw⟩, hq⟩, ha⟩ := h
  have h1 : droopOver s = s := by
    unfold droopOver
    rcases hd with hd | hd <;> simp [hd]
  have h2 : openEnds s = s := by unfold openEnds; rw [hp]
  have h3 : closeReady s = s := by
    unfold closeReady
    exact foldl_stays fun y hy => by simpa using fun a b d => absurd (hc y hy) (by simp [a, b, d])
  have h4 : heldAnswers s = s := by
    have : s.piers.filter (fun x => decide (x.2.answered ≠ [])) = [] :=
      List.filter_eq_nil_iff.mpr fun x hx => by simpa using ha x hx
    unfold heldAnswers
    rw [this]
    split <;> rfl
  have h5 : serveBeats s = s := by
    unfold serveBeats
    split
    · exact foldl_stays fun u _ => serveUnit_of_empty (mgetD_of_empty hw u) (mgetD_of_empty hq u) _
    · rfl
  unfold carryOn
  rw [h1, h2, h3, h4, h5]

/-- A state with nothing left to do at the end of a command stays as it is. -/
theorem finishStep_of_calm {s : State} (h : calm s = true) : finishStep s = s := by
  have hi := noInjection_of_calm h
  simp only [calm, Bool.and_eq_true, List.isEmpty_iff, Option.isNone_iff_eq_none] at h
  unfold finishStep
  simp only [specialFaults_of_noInjection hi, carryOn_of_noWork h.2, gateAbandon_of_none h.1.2]
  exact carryResets_of_nil _ _ h.1.1.1

/-- Whether work of other units waits hangs on FW_UPDST, DROOP_WARN, the Abacus units and the piers alone. -/
theorem noWork_congr {s t : State} (ha : t.abc = s.abc) (hp : t.piers = s.piers) (hd : t.clk.droop = s.clk.droop)
    (hu : rd t rFwUpdst = rd s rFwUpdst) : noWork t = noWork s := by
  have hg : get t fFwUpdstState = get s fFwUpdstState := congrArg (fun w => wbits w 0 3) hu
  unfold noWork
  rw [ha, hp, hd, hg]

/-- Whether anything is left to do hangs on these alone. -/
theorem calm_congr {s t : State} (hr : t.flt.resets = s.flt.resets) (hg : t.clk.gateAt = s.clk.gateAt)
    (hf : ∀ b, rd t (rFinj b) = rd s (rFinj b)) (ha : t.abc = s.abc) (hp : t.piers = s.piers) (hd : t.clk.droop = s.clk.droop)
    (hu : rd t rFwUpdst = rd s rFwUpdst) (h : calm s = true) : calm t = true := by
  have hj : ∀ b k, finjFor t b k = finjFor s b k := fun b k => by unfold finjFor; rw [hf b]
  have hn : noInjection t = noInjection s := by unfold noInjection; simp only [hj]
  unfold calm at *
  rw [hr, hg, hn, noWork_congr ha hp hd hu]
  exact h

/-- A change of registers other than FINJ and FW_UPDST leaves nothing to do. -/
theorem calm_of_regsOnly {s t : State} {l : List Nat} (h : calm s = true) (k : RegsOnly s t l) (hl : ∀ b, rFinj b ∉ l)
    (hu : rFwUpdst ∉ l) : calm t = true :=
  calm_congr (s := s) ((congrArg (fun x : State => x.flt.resets) k.1).trans rfl)
    ((congrArg (fun x : State => x.clk.gateAt) k.1).trans rfl)
    (fun b => k.2 _ (hl b)) ((congrArg (fun x : State => x.abc) k.1).trans rfl)
    ((congrArg (fun x : State => x.piers) k.1).trans rfl) ((congrArg (fun x : State => x.clk.droop) k.1).trans rfl) (k.2 _ hu) h

/-- A served access is carried out. -/
theorem access_of_served {s : State} {r : Requester} {off : Nat} (f : State → State) (h : served s r off = true) :
    access s r off f = f s := by
  simp only [served, Bool.and_eq_true, Bool.not_eq_true', Bool.or_eq_true] at h
  obtain ⟨⟨⟨h0, h1⟩, h2⟩, h3⟩ := h
  have h4 : (on s fClkStatStopped && !servedStopped off) = false := by
    rcases h2 with h2 | h2 <;> simp [h2]
  simp [access, h0, h1, h3, h4]

/-- A served access that leaves nothing to do is the whole of its command. -/
theorem finishStep_access {s : State} {r : Requester} {off : Nat} {f : State → State} (h : served s r off = true)
    (hc : calm (f s) = true) : finishStep (access s r off f) = f s := by
  rw [access_of_served f h]
  exact finishStep_of_calm hc

theorem served_of_manages {s : State} {r : Requester} {off : Nat} (h : manages s r off = true) : served s r off = true := by
  simp only [manages, Bool.and_eq_true] at h
  exact h.1

theorem isManager_of_manages {s : State} {r : Requester} {off : Nat} (h : manages s r off = true) : isManager s r = true := by
  simp only [manages, Bool.and_eq_true] at h
  exact h.2

/-- A write that takes a right, from a requester that has it. -/
theorem withRight_true (s : State) (r : Requester) (e : Bool) (f : State → State) : withRight s r true e f = f s := rfl

/-! Recording a fault. -/

theorem SameRegs.wr {s t : State} {l : List Nat} (h : SameRegs s t l) {off : Nat} (hm : off ∈ l) (v : Word) :
    SameRegs s (wr t off v) l :=
  fun o ho => (rd_wr_other _ _ (fun e => ho (by rw [e]; exact hm))).trans (h o ho)

theorem RegsOnly.wr {s t : State} {l : List Nat} (h : RegsOnly s t l) {off : Nat} (hm : off ∈ l) (v : Word) :
    RegsOnly s (wr t off v) l :=
  ⟨congrArg (fun x : State => { x with rf := (Machine.wr t off v).rf }) h.1, h.2.wr hm v⟩

theorem RegsOnly.put {s t : State} {l : List Nat} (h : RegsOnly s t l) (f : Fld) (hm : f.off ∈ l) (v : Nat) :
    RegsOnly s (put t f v) l := h.wr hm _

/-- The record of an event is in the block's FSTAT and FFIRST. -/
theorem recordEvent_regsOnly (s : State) (b src sev : Nat) (conseq : Option Nat) (retry : Bool) (d : Nat) :
    RegsOnly s (recordEvent s b src sev conseq retry d) [rFstat b, rFfirst b] := by
  have h := RegsOnly.refl s [rFstat b, rFfirst b]
  unfold recordEvent
  split
  · exact (h.wr (by simp) _).put _ (by simp) _
  · split
    · exact (h.wr (by simp) _).put _ (by simp) _
    · dsimp only
      have k := (h.put (fFirstLater b) (by simp) (get s (fFirstLater b) ||| 2 ^ src)).put (fFirstCount b) (by simp)
        (min 63 (get (put s (fFirstLater b) (get s (fFirstLater b) ||| 2 ^ src)) (fFirstCount b) + 1))
      split
      · exact k.put _ (by simp) _
      · exact k

/-- An event outside every shadow, of a source that asks for no block reset and is not the one link retry changes, is recorded
in its block alone, and asks for nothing. -/
theorem raise_recorded {s : State} {b src : Nat} (d : Nat) (hs : s.flt.shadows = []) (hr : resetsNothing s b src = true)
    (hb : src < 12) (hx : ¬(b = 2 ∧ src = 2)) :
    Recorded s (raise s b src d) b src ∧ (raise s b src d).flt.resets = s.flt.resets := by
  have hretry : (decide (b = 2) && decide (src = 2) && anyRetry s) = false := by
    simp only [Bool.and_eq_false_iff, decide_eq_false_iff_not]
    by_cases h2 : b = 2
    · exact .inl (.inr fun h => hx ⟨h2, h⟩)
    · exact .inl (.inl h2)
  have hsh : shadowOver s b = none := by simp [shadowOver, hs]
  have hc : (if sevOf s b src = 4 then none else shadowOver s b) = none := by rw [hsh]; exact ite_self _
  have hn : nbit (reactions (sevOf s b src) (rctOf s b src)) 2 = false := by simpa [resetsNothing] using hr
  have hrec := recordEvent_regsOnly s b src (sevOf s b src) none false d
  unfold raise
  simp only [hretry, Bool.false_and, Bool.false_eq_true, if_false, hc, hn]
  generalize recordEvent s b src (sevOf s b src) none false d = s1 at hrec ⊢
  obtain ⟨rf', e⟩ : ∃ rf', s1 = { s with rf := rf' } := ⟨_, hrec.1⟩
  subst e
  refine ⟨⟨?_, rfl, fun o ho => ?_⟩, ?_⟩
  · refine Eq.trans (congrArg (nbit · src) (get_congr (s := put _ (fStatSticky b) _) rfl _)) ?_
    rw [get_put_same _ _ _ (by simp)]
    unfold nbit
    rw [Nat.testBit_mod_two_pow, Nat.testBit_or, Nat.testBit_two_pow_self]
    simp only [hb, decide_true, Bool.or_true, Bool.and_self]
  · refine (rd_congr (s := put _ (fStatSticky b) _) rfl o).trans ?_
    exact (rd_put_other _ _ _ fun e => ho (by rw [e]; simp)).trans (hrec.2 o ho)
  · split <;> split <;> rfl

end Sys2Proof.Machine
end

