-- ==== Sys2Proof/WellFormed.lean ====
section
/-! DEFINITION. Which commands are well formed: every operand lies in the range the spec gives it (agents 11 bits, queues 2,
tenants and epochs 8, dies 6, contexts 10, ports 3 and so on). A command's meaning does not ask it (log entry 13). -/
namespace Sys2Proof

/-- The header names dies, a tenant and an epoch that exist (R280). -/
def Hdr.wf (h : Hdr) : Bool :=
  decide (h.src < 64) && decide (h.dst < 64) && decide (h.tenant < 256) && decide (h.epoch < 256) && decide (h.qseq < 65536)

/-- A command carries one entry or an extended packet, and a stamp that fits (R60, R61). -/
def Cmd.wf (c : Cmd) : Bool :=
  decide (c.die < 64) && decide (c.agent < 2048) && decide (c.queue < 4) && decide (c.tenant < 256) && decide (c.epoch < 256)
    && (decide (c.words.length = 4) || decide (c.words.length = 16))

/-- A requester ID has 16 bits (R487). -/
def Requester.wf : Requester → Bool
  | .port id => decide (id < 65536)
  | .firmware => true

/-- A re-presentation names an agent and queue, or a tag and one of the entries of a ROUTE. -/
def RepTarget.wf : RepTarget → Bool
  | .head a q => decide (a < 2048) && decide (q < 4)
  | .entry _ idx => decide (idx < 32)

/-- A commit goes to one of 64 slices or to firmware. -/
def CommitTo.wf : CommitTo → Bool
  | .slice i => decide (i < 64)
  | .firmware => true

/-- A tag word is the tag of a slot of a slice, or an entry of the handle-table memory (R22, R32). -/
def TagWord.wf : TagWord → Bool
  | .slotTag slice slot => decide (slice < 64) && decide (slot < 4096)
  | .tableEntry i => decide (i < 1048576)

/-- A message on a port. -/
def onPort (port : Nat) (h : Hdr) : Bool := decide (port < 8) && h.wf

/-- An agent and one of its queues. -/
def onQueue (agent queue : Nat) : Bool := decide (agent < 2048) && decide (queue < 4)

/-- A combine segment names a context (R228). -/
def CSeg.wf (g : CSeg) : Bool := decide (g.ctx < 1024)

/-- Well-formedness of a command. -/
def Instr.wf (i : Instr) : Bool :=
  match i with
  | .aqValid pier ag queue _ => decide (pier < 2048) && decide (ag < 8) && decide (queue < 4)
  | .sigAdd a q => onQueue a q
  | .sigSub a q => onQueue a q
  | .poll a q => onQueue a q
  | .waitGe a q => onQueue a q
  | .waitTake a q => onQueue a q
  | .take a q => onQueue a q
  | .give a q => onQueue a q
  | .arrive a q => onQueue a q
  | .arriveLane a q => onQueue a q
  | .arriveCombine a q => onQueue a q
  | .fence a q => onQueue a q
  | .route a q => onQueue a q
  | .member a q => onQueue a q
  | .alloc a q => onQueue a q
  | .free a q => onQueue a q
  | .audit a q => onQueue a q
  | .translationFill pier => decide (pier < 2048)
  | .invalidation pier => decide (pier < 2048)
  | .wake pier => decide (pier < 2048)
  | .wakeEmit slice => decide (slice < 64)
  | .pacingWindow => true
  | .expiry die a q => decide (die < 64) && onQueue a q
  | .represent t => t.wf
  | .timedRelease slice slot => decide (slice < 64) && decide (slot < 4096)
  | .timeFrame port hdr obj _ _ => onPort port hdr && decide (obj < 67108864)
  | .combineReport ctx => decide (ctx < 1024)
  | .backingOp _ => true
  | .pageIn _ => true
  | .stagingReport _ idx => decide (idx < 32)
  | .routeCommit _ dest => dest.wf
  | .preport port hdr c _ => onPort port hdr && c.wf
  | .rpart port hdr part => onPort port hdr && part.cmd.wf && decide (part.entries.length ≤ 32)
  | .mrec port hdr _ => onPort port hdr
  | .mack port hdr _ _ => onPort port hdr
  | .holdRelease port index _ => decide (port < 8) && decide (index < 192)
  | .holdDiscard port _ => decide (port < 8)
  | .refuse port hdr c _ => onPort port hdr && c.wf
  | .reply port hdr c _ => onPort port hdr && c.wf
  | .cmd port hdr c => onPort port hdr && c.wf
  | .xcmd port hdr c => onPort port hdr && c.wf
  | .cancel die a q code => decide (die < 64) && onQueue a q && decide (code < 8)
  | .arrivalAccepted ctx _ => decide (ctx < 1024)
  | .chunkComplete ctx => decide (ctx < 1024)
  | .cpart port hdr seg _ => onPort port hdr && seg.wf
  | .cres port hdr seg _ _ => onPort port hdr && seg.wf
  | .cclose port hdr ctx _ _ => onPort port hdr && decide (ctx < 1024)
  | .cabort port hdr ctx _ _ => onPort port hdr && decide (ctx < 1024)
  | .spRvalid pier ag _ _ => decide (pier < 2048) && decide (ag < 8)
  | .drAck pier tag _ => decide (pier < 2048) && decide (tag < 32)
  | .ivAck pier tag _ => decide (pier < 2048) && decide (tag < 32)
  | .arRdy pier => decide (pier < 2048)
  | .wire port hdr lane _ => onPort port hdr && decide (lane < 64)
  | .lcomp port hdr lane _ _ => onPort port hdr && decide (lane < 64)
  | .laneRelease lane => decide (lane < 64)
  | .syncReq port hdr _ rx tx => onPort port hdr && decide (rx ≤ tx)
  | .syncResp port hdr _ _ => onPort port hdr
  | .coarse port hdr _ => onPort port hdr
  | .exchange _ => true
  | .glim => true
  | .alim => true
  | .slewStep => true
  | .epoch port hdr origin _ => onPort port hdr && decide (origin < 64)
  | .notice port _ => decide (port < 8)
  | .marker port _ => decide (port < 8)
  | .markerLost port => decide (port < 8)
  | .data port _ => decide (port < 8)
  | .nak port _ => decide (port < 8)
  | .retryBound port => decide (port < 8)
  | .receiveTimeout port => decide (port < 8)
  | .lockLost port => decide (port < 8)
  | .los port => decide (port < 8)
  | .tuneDone port => decide (port < 8)
  | .pmaLim port => decide (port < 8)
  | .alignLock port _ _ _ _ => decide (port < 8)
  | .alignLim port => decide (port < 8)
  | .init port _ => decide (port < 8)
  | .initLim port => decide (port < 8)
  | .linkUp port => decide (port < 8)
  | .rehold port => decide (port < 8)
  | .open req ctx => req.wf && decide (ctx < 1024)
  | .close req ctx => req.wf && decide (ctx < 1024)
  | .read req ctx => req.wf && decide (ctx < 1024)
  | .quiesce req t => req.wf && decide (t < 256)
  | .quiesced t => decide (t < 256)
  | .resume req t => req.wf && decide (t < 256)
  | .reset req t _ => req.wf && decide (t < 256)
  | .forcedReset req t _ => req.wf && decide (t < 256)
  | .resetComplete t => decide (t < 256)
  | .agtBind req a _ => req.wf && decide (a < 2048)
  | .disable req a => req.wf && decide (a < 2048)
  | .disabled a => decide (a < 2048)
  | .tenShare req t word _ => req.wf && decide (t < 256) && decide (word < 2)
  | .tenCfg req t _ => req.wf && decide (t < 256)
  | .tenImp req t i _ => req.wf && decide (t < 256) && decide (i < 4)
  | .semaHtw req t _ => req.wf && decide (t < 256)
  | .semaBack req t _ => req.wf && decide (t < 256)
  | .semaPair req _ => req.wf
  | .waitCtl req _ => req.wf
  | .trsLen req lane w _ => req.wf && decide (lane < 64) && decide (w < 32)
  | .trsLcfg req lane _ _ => req.wf && decide (lane < 64)
  | .trsLstat req lane _ => req.wf && decide (lane < 64)
  | .keyLock req => req.wf
  | .coreStep req _ => req.wf
  | .align req _ => req.wf
  | .remeasureAll req => req.wf
  | .remeasureOne req pier => req.wf && decide (pier < 2048)
  | .pmeasDone _ => true
  | .pmeasFail pier => decide (pier < 2048)
  | .multiplierLock => true
  | .refLost => true
  | .refReturn => true
  | .ramp req _ => req.wf
  | .sourceSwitch req _ => req.wf
  | .rampStep => true
  | .rampFault => true
  | .eclkLost _ => true
  | .inputReturn _ => true
  | .gateOpen req node => req.wf && decide (node < 128)
  | .gateClose req node => req.wf && decide (node < 128)
  | .busIdleAck => true
  | .gateTimeout => true
  | .clkObs req _ => req.wf
  | .droopWarn _ => true
  | .fwImgDone req => req.wf
  | .measured => true
  | .firmwareStart => true
  | .ready => true
  | .fwHbeat req => req.wf
  | .fwHang => true
  | .begin req => req.wf
  | .safepointAck => true
  | .commit req => req.wf
  | .measure req => req.wf
  | .measureDone => true
  | .clear req first last => req.wf && decide (first < 512) && decide (last < 512)
  | .clearAll req => req.wf
  | .sample => true
  | .obsSamp req _ => req.wf
  | .obsRing req _ => req.wf
  | .obsTrring req _ => req.wf
  | .arm req _ => req.wf
  | .disarm req => req.wf
  | .freeze => true
  | .frozen => true
  | .thaw req => req.wf
  | .thawat req => req.wf
  | .thawTick => true
  | .thawingDone => true
  | .copy req => req.wf
  | .hangscan req => req.wf
  | .setval req => req.wf
  | .cancelQ req => req.wf
  | .cancelW req => req.wf
  | .forceLane req => req.wf
  | .marRead req => req.wf
  | .fstat req b _ => req.wf && decide (b < 17)
  | .ffirst req b _ => req.wf && decide (b < 17)
  | .fsev req b _ => req.wf && decide (b < 17)
  | .frct req b _ => req.wf && decide (b < 17)
  | .finj req b _ => req.wf && decide (b < 17)
  | .shadowEnd b => decide (b < 17)
  | .wdog slice _ => decide (slice < 64)
  | .replyGuard a q => onQueue a q
  | .drainSlow a q => onQueue a q
  | .arbitrationWindow => true
  | .portEn req port _ => req.wf && decide (port < 8)
  | .portDown req port => req.wf && decide (port < 8)
  | .coldReset => true
  | .powerOnReset => true
  | .resetRelease => true
  | .registerWrite req offset width _ => req.wf && decide (offset < 4194304) && decide (width ≤ 64)
  | .alignmentCodeword port _ => decide (port < 8)
  | .masterPortResponse _ _ => true
  | .tagRebuild word => word.wf
  | .fwTrap _ => true
  | .htmReady => true
  | .pierClockRestart pier => decide (pier < 2048)
  | .spRdy pier => decide (pier < 2048)
  | .sncmdDone => true

end Sys2Proof
end

