-- ==== Sys2Proof/Tests/Slice0.lean ====
section
/-! SUPPORT. Tests of the model: the well-formedness checks, worked cases of the spec, and for every statement with hypotheses a
state and operands that meet them, clause by clause. Each is about one small state. -/
open Sys2Proof Sys2Proof.Machine

namespace Sys2Proof.Tests
/-- Two piers with three agents; the boot requester has ID 1. -/
def net : Netlist := ⟨[⟨3, 3, [(10, 20), (11, 20)], true⟩, ⟨5, 5, [(12, 20)], false⟩], 1⟩
/-- Register fields set. -/
def set (s : State) (l : List (Fld × Nat)) : State := l.foldl (fun s x => put s x.1 x.2) s
/-- The reset state of a small die. -/
def cold : State := { State.reset with net := net, now := 5000 }
/-- The requester that is the manager before KEY_LOCK and after it. -/
def boss : Requester := .port 1
/-- A die that has started: locked, with firmware, the translation memory clear and Deck Time running. -/
def live : State :=
  let s :=
  set cold [(fCoreStepStep, 9), (fFwStatRun, 1), (fFwStatReady, 1), (fSemaStatHtmReady, 1), (fSemaCtlPageEn, 1),
    (fKeyMgrId 0, 1), (fKeyMgrValid 0, 1), (fKeyCtlLock, 1), (fDtStatLock, 1), (fClkStatRamp, 0), (fClkStatCdiv, 1)]
  { s with fw := { s.fw with stop := .running } }
/-- The words of a packet of one entry (R61). -/
def packet (op flags aux obj : Nat) (operand : Word) (timeout : Nat := 100) : List Word :=
  [w64 (op + 256 * flags), w64 (obj + 2 ^ 32 * aux), operand, w64 timeout]
/-- A command of this die that agent a issued from queue 0 at tick 4000. -/
def cmdOf (a pier tenant : Nat) (ws : List Word) : Cmd := ⟨0, a, 0, 0, pier, tenant, 0, ws, some 104000, 4000⟩
/-- A waiter of a command, in slice 3's table. -/
def waiter (c : Cmd) (target : Word) (entry : Nat := 0) : Waiter := ⟨c, target, 3, entry, 0, 0, none⟩
/-- Object 5 of a tenant in slot 9 of slice 3, with the window of numbers from 0. -/
def withObj (s : State) (x : Slot) (state : HState := .resident) : State :=
  let s := set s [(fSemaHtwLen x.tenant, 1)]
  setSlot (setHtm s 5 ⟨state, 3, 9, x.kind⟩) (slotKey 3 9) x
def obj7 (k : Kind) (p : BitVec 48) (v : Word) : Slot := newSlot k p v 7 0 5 1000 false
/-- Tenant 7 with one count. -/
def oneObj : State := withObj live (obj7 .count 0 6)
/-- Tenant 7 waits on an object of tenant 9. -/
def imported : State :=
  withObj live { newSlot .count 0 6 9 0 5 1000 false with waiters := [waiter (cmdOf 10 3 7 (packet 4 0 0 5 8)) 8] }
/-- Agent 10's WAIT_GE on object 5 waits in slice 3. -/
def waitCmd : Cmd := cmdOf 10 3 7 (packet 4 0 0 5 8)
def outItem : Item := ⟨0, waitCmd.words, .out, some waitCmd, [], false, none, 0, 0, 0⟩
def waited : Slot := { obj7 .count 0 6 with waiters := [waiter waitCmd 8 2] }
def waitsOut : State := setQueue (withObj live waited) 10 0 { Queue.zero with items := [outItem] }
/-- Die 1 of a torus of two dies, with port 0, towards die 0, and port 1 UP, in an alignment state. -/
def torus (al : Nat) (good : Nat := 0) : State :=
  let s := set live [(fCoreSpancfgMode, 1), (fCoreSpancfgXs, 1), (fCoreSpancfgDie, 1), (fDtAlstatState, al)]
  let s := setPort s 0 { Port.zero with st := .up, locked := true }
  let s := setPort s 1 { Port.zero with st := .up, locked := true }
  { s with dt := { s.dt with xseq := 5, good := good } }
def fromZero : Hdr := ⟨0, 1, 7, 0, 0⟩
/-- An answer that shows the parent ahead by theta sixteenths. -/
def resp (theta : Int) : Sync := ⟨true, 5, 100000, (100200 + theta).toNat, (100200 + theta).toNat⟩
/-- Die 0, the master, in GATHER. -/
def master : State := setPort (set live [(fCoreSpancfgMode, 1), (fCoreSpancfgXs, 2), (fDtAlstatState, 1)]) 0 { Port.zero with st := .up }
/-- A codeword with five symbols in error, and a DATA flit of number 0 that carries nothing. -/
def badCw : BitVec 1360 := BitVec.ofNat 1360 (1 + 2 ^ 100 + 2 ^ 200 + 2 ^ 300 + 2 ^ 400)
def dataBits : Nat := flitBits ⟨1, 0, 0, []⟩ 1023 false 0 0
/-- A die alone with a port in a state. -/
def port (st : LinkSt) (s : State := live) : State :=
  setPort (set s [(fViaCtlEn 7, 1)]) 7 { Port.zero with st := st, locked := true, since := 1000 }
def tried (n : Nat) : Replay := ⟨⟨1, 3, 0, []⟩, n, 4900⟩
/-- Agent 10, bound to tenant 7, has one packet at the head of its queue 0; object 5 is as given. -/
def p3 : PierNet := ⟨3, 3, [(10, 20), (11, 20)], true⟩
def item (ws : List Word) : Item := ⟨0, ws, .unissued, none, [], false, none, 0, 0, 0⟩
def bind (s : State) : State := set s [(fAgtBindTenant 10, 7), (fAgtBindBound 10, 1), (fTenShare0Waits 7, 1), (fTenShare1Cred 7, 4)]
def ready (ws : List Word) (x : Slot := obj7 .count 0 6) : State :=
  setQueue (bind (withObj live x)) 10 0 { Queue.zero with items := [item ws], tail := 1 }
/-- The same on die 1 of a torus, for an object of die 0. -/
def remote (ws : List Word) : State :=
  setQueue (bind (set (torus 4) [(⟨rCoreReach, 0, 1⟩, 1)])) 10 0 { Queue.zero with items := [item ws], tail := 1 }
def addPkt (n : Word) : List Word := packet 1 0 0 5 n
/-- Agent 10's command held at its pier. -/
def held (ws : List Word) (st : ItemSt) (x : Slot := obj7 .count 0 6) : State :=
  setQueue (bind (withObj live x)) 10 0
    { Queue.zero with items := [{ item ws with st := st, cmd := some (cmdOf 10 3 7 ws) }], tail := 1, drain := some ⟨4000, 1, cmdOf 10 3 7 ws, false⟩ }
def barPkt (op flags : Nat) (aux : Nat := 0) (timeout : Nat := 100) : List Word := packet op flags aux 5 0 timeout
/-- A SIG_ADD that has left its pier. -/
def outAdd : Item := { item (addPkt 3) with entry := 15, st := .out, cmd := some { cmdOf 10 3 7 (addPkt 3) with entry := 15 } }
def relPkt : List Word := [w64 (1 + 256 + 2 ^ 24), 5#64, 2#64, 0#64]

def memb (x : Slot) (m b : BitVec 512) : Slot := { x with members := [(m, b)] }
def zeros12 : List Word := List.replicate 12 0#64
/-- Lane 5 of tenant 7 counts agents 10 and 11 on this die. -/
def laneCfg (s : State) (l : List (Fld × Nat)) : State :=
  set s ([(⟨rTrsLen 5 0, 10, 2⟩, 3), (fTrsLcfgEn 5, 1), (fTrsLcfgTenant 5, 7), (fAgtBindTenant 11, 7), (fAgtBindBound 11, 1)] ++ l)
def lanes (s : State) (x : Lane) (l : List (Fld × Nat)) : State := setLane (laneCfg s l) 5 x
/-- Agent 11's arrival is raised on the lane. -/
def raised11 : Lane := { Lane.zero with raised := [11] }
def lanePkt (flags : Nat) (timeout : Nat := 100) : List Word := packet 8 (32 + flags) 5 0 0 timeout
def xen0 : List (Fld × Nat) := [(fTrsLcfgXen 5, 1), (fTrsLcfgXroot 5, 0), (⟨rTrsLxdie 5, 0, 64⟩, 3)]
def xen1 : List (Fld × Nat) := [(fTrsLcfgXen 5, 1), (fTrsLcfgXroot 5, 1), (⟨rTrsLxdie 5, 0, 64⟩, 3)]
def dr (s : State) : State := { s with clk := { s.clk with droop := true } }
/-- An open entry of context 3 for tenant 7's barrier 5: SUM of 32 FP32 elements in one chunk. -/
def ctx7 : Ctx :=
  { root := true, desc := 0x110, bhandle := 5, tenant := 7, n := 32, closed1 := false, dies := 1, eloc := 2, lmax := 4, pcap := 8
    buf := 1, chunkSize := 32, chunks := 1, st := .open, phase := false, parts := [], chunk := 0, counts := [], closeAt := none
    partials := [], whole := [], carry := [], carryAt := 0, resPos := [], bins := [], arith := 0, offender := none
    writing := false, reported := false, aborted := false }
def combPkt (flags pidx src dst : Nat) (timeout : Nat := 100) : List Word :=
  packet (9) flags (3 + 1024 * pidx) 5 (w64 (src + 2 ^ 32 * dst)) timeout
def combHeld (ws : List Word) (x : Ctx) (y : Slot) (w : Stall := .barrier) : State := setCtx (held ws (.stalled w) y) 3 x
def combCmd (a pidx : Nat) : Cmd := cmdOf a 3 7 (combPkt 0 pidx 0 128)
def part (a pidx : Nat) : Particip := ⟨combCmd a pidx, pidx, 0, 128, true, [], [], 0, false⟩
def part0 (a pidx : Nat) : Particip := { part a pidx with accepted := false }
def withNotice (s : State) (n : Nat × Cmd × Verdict) : State := { s with gir := { s.gir with notices := [n] } }
/-- A ROUTE on object 5 of n + 1 entries, given as their 24 bits. -/
def routePkt (n e0 : Nat) (e1 : Nat := 0) : List Word :=
  [w64 (0x10 + 2 ^ 27 * n), 5#64, w64 (e0 + 2 ^ 24 * e1)] ++ List.replicate 13 0#64
def ent (off count die : Nat) : Nat := count + 2 ^ 10 * off + 2 ^ 18 * die
def routeCmd : Cmd := { cmdOf 10 3 7 (routePkt 0 (ent 0 3 0)) with deadline := none }
def partOf (c : Cmd) (e : REntry) : Part := ⟨4, c, none, [(e, none)], [], []⟩
def gatherOf (c : Cmd) (w : List (Nat × Nat)) : Gather := ⟨c, w, [], [], none, []⟩
def routing (c : Cmd) (x : Slot) (gs : List Gather) (ps : List Part) (s0 : State) : State :=
  let s := setQueue (bind (withObj s0 x)) 10 0 { Queue.zero with items := [{ item c.words with st := .out, cmd := some c }], tail := 1 }
  { s with rt := { s.rt with gathers := gs, parts := ps, nextTag := 9 } }
def sreport (s : State) (r : Nat × Nat × Nat × Status) : State := { s with gir := { s.gir with sreports := [r] } }
def commit (s : State) (r : Nat × CommitTo × Nat) : State := { s with gir := { s.gir with commits := [r] } }
/-- Die 0 in a torus of two dies; agent 10's ROUTE has a part on die 1 (tag 6). -/
def torus0 : State :=
  setPort (set live [(fCoreSpancfgMode, 1), (fCoreSpancfgXs, 1), (fDtAlstatState, 4), (⟨rCoreReach, 1, 1⟩, 1)]) 0
    { Port.zero with st := .up, locked := true }
def fromOne : Hdr := ⟨1, 0, 7, 0, 0⟩
def routeCmd2 : Cmd := { cmdOf 10 3 7 (routePkt 1 (ent 0 3 0) (ent 1 1 1)) with deadline := none }
def withDie (c : Cmd) (d : Nat) : Cmd := { c with die := d, deadline := none }
def fills (s : State) (f i : List (Nat × Xlat)) : State :=
  setPier { s with gir := { s.gir with fills := f, invs := i } } 3 { pierSt s 3 with cache := [⟨7, 5, 3, 9, 0⟩, ⟨7, 6, 4, 1, 1⟩] }
def xl (o sl st : Nat) : Xlat := ⟨7, o, sl, st, 0⟩
def waitCmd11 : Cmd := cmdOf 11 3 7 (packet 4 0 0 5 8)
def wakeOf (c : Cmd) : Wake := ⟨c, ⟨8, .ok, 0, 4990⟩, .seq⟩
def waking (s : State) (ports : SMap (List Wake)) (pool : List Batch) (b : Option Nat) : State :=
  { s with wk := { s.wk with ports := ports, pool := pool, window := 3, budget := b } }
def girWakes (s : State) (l : List Wake) : State := { s with gir := { s.gir with wakes := l.map fun w => (3, w) } }
/-- Agent 10's WAIT_GE, with a deadline, held in its pier's queue, refused from its bank. -/
def heldWait (d : Nat) : State :=
  setQueue (bind (withObj live (obj7 .count 0 6))) 10 0
    { Queue.zero with items := [{ item waitCmd.words with st := .stalled .bank, cmd := some { waitCmd with deadline := some d } }], tail := 1 }
def atNow (s : State) (n : Nat) : State := { s with now := n }
def waitsAt (d : Option Nat) (wdog : Nat := 0) : State :=
  let c := { waitCmd with deadline := d }
  setQueue (withObj live { obj7 .count 0 6 with waiters := [{ waiter c 8 2 with wdog := wdog }] }) 10 0
    { Queue.zero with items := [{ outItem with cmd := some c }] }
def withCancel (s : State) (x : Cmd × Nat) : State := { s with gir := { s.gir with cancels := [x] } }
def withReport (s : State) (x : Nat × (Nat × Nat) × Nat × Bool) : State := { s with gir := { s.gir with reports := [x] } }
/-- Object 5 of tenant 7 is BACKED: a SEQ of value 6 in the image at 0x10050. -/
def backed (s0 : State) (pg : List PgItem) (m : Word := metaWord .seq 0 false false false false 0) : State :=
  let s := set (bind s0) [(fSemaHtwLen 7, 1), (fSemaBackEn 7, 1), (fSemaBackAddr 7, 16), (fTenShare0Res 7, 1)]
  let s := setHtm s 5 ⟨.backed, 3, 0, .seq⟩
  let s := imgWrite s 7 5 6 m
  { s with sema := { s.sema with paging := pg } }
def pgCmd (ws : List Word) : Cmd := { cmdOf 10 3 7 ws with deadline := none }
def pgState (ws : List Word) (tr : Bool := false) : State :=
  setQueue (backed live [⟨5, 0, .cmd (pgCmd ws) false none, tr⟩]) 10 0 { Queue.zero with items := [{ item ws with st := .out, cmd := some (pgCmd ws) }] }
def moving (s : State) (m : Move) : State := { s with sema := { s.sema with moves := [m], htm := (setHtm s 5 ⟨.transit, 3, 0, .seq⟩).sema.htm } }
/-- Die 1's own object 5 of tenant 7, for commands of die 0. -/
def home (x : Slot) : State := set (withObj (torus 4) x) [(⟨rCoreReach, 0, 1⟩, 1)]
def farCmd (ws : List Word) : Cmd := { cmdOf 10 3 7 ws with deadline := none }
def far (op flags aux : Nat) (n : Word) (dw : Nat := 0) : List Word := [w64 (op + 256 * flags), w64 (5 + 2 ^ 26 + 2 ^ 32 * aux), n, w64 (2 ^ 32 * dw)]
/-- Agent 10 of die 0 waits for the answer of a command to die 1. -/
def asked (c : Cmd) : State :=
  setQueue (bind torus0) 10 0 { Queue.zero with items := [{ item c.words with st := .out, cmd := some c }], tail := 1 }
def askCmd : Cmd := farCmd (far 1 0 0 2)
def mrecOf (x : Slot) (v : Word) (m : Word) : MRec := ⟨4, 5, x.value, x.metaOf, v, m, none⟩
def mirOut : MirrorOut := ⟨4, slotKey 3 9, some { waitCmd with words := addPkt 1 }, some ⟨7, .ok, 0, 4900⟩, 0, none, true⟩
def mirroring : State :=
  let c : Cmd := { waitCmd with words := addPkt 1 }
  let s := setQueue (withObj torus0 (obj7 .count 0 7)) 10 0 { Queue.zero with items := [{ item (addPkt 1) with st := .out, cmd := some c }], tail := 1 }
  { s with span := { s.span with mirror := [mirOut] } }
def heldOne (ws : List Word) (lim : Nat) : Held := ⟨⟨⟨0, 1, 7, 0, 0⟩, .cmd (farCmd ws)⟩, 4000, lim, true⟩
def holding (ws : List Word) (lim : Nat) (x : Slot) : State :=
  let s := home x
  setPort s 0 { portSt s 0 with hold := [heldOne ws lim], qexp := [(40, 1)] }
/-- Payload beats 0 and 1 of 32 FP32 elements, all 1.0 or all 2.0. -/
def ones (v : Nat) : SMap (BitVec 512) :=
  let b := BitVec.ofNat 512 ((List.range 16).foldl (fun n i => n + v * 2 ^ (32 * i)) 0)
  [(0, b), (1, b)]
def fed (a pidx v : Nat) : Particip := { part a pidx with beats := ones v }
def beatOf (write : Bool) (addr : Nat) : Beat := ⟨10, write, addr, 0, 0, 3, 0⟩
def spq3 (s : State) (q out : List Beat) : State := setPier s 3 { pierSt s 3 with spq := q, spOut := out }
def closed7 : Ctx := { ctx7 with st := .closed, parts := [fed 10 0 0x3F800000, fed 11 1 0x40000000] }
def stage7 : Ctx := { ctx7 with root := false, dies := 3, st := .active }
/-- ABC_CTXD0 to ABC_CTXD3 hold the record of context 3, bound to a barrier of a die. -/
def record (die : Nat) (s : State := live) (l : List (Fld × Nat) := []) : State :=
  set s ([(⟨rAbcCtxd0, 0, 64⟩, 0x110), (fAbcCtxd1Bhandle, 5 + 2 ^ 26 * die), (fAbcCtxd1Tenant, 7), (fAbcCtxd1Nm1, 31),
    (⟨rAbcCtxd2, 0, 64⟩, 3), (fAbcCtxd3Eloc, 2), (fAbcCtxd3Lmax, 4), (fAbcCtxd3Pcap, 8), (fAbcCtxd3Buf, 1),
    (fSemaHtwLen 7, 1), (fTenShare0Buf 7, 4)] ++ l)

/-! Well-formedness: for each check of each command a term that fails that check alone. -/
def okHdr : Hdr := ⟨0, 1, 7, 0, 0⟩
def badHdr : Hdr := ⟨0, 64, 7, 0, 0⟩
def okCmd : Cmd := ⟨0, 10, 0, 0, 3, 7, 0, [1, 5, 2, 0], none, 0⟩
def badCmd : Cmd := { okCmd with words := [1, 5, 2] }
def okSeg : CSeg := ⟨1023, false, 0, 0, true⟩
def okReply : Reply := ⟨0, .ok, 0, 0⟩
/-- A well-formed term of each command, part 0. -/
def wellFormed0 : List Instr :=
  [.aqValid 0 0 0 0, .sigAdd 0 0, .sigSub 0 0, .poll 0 0, .waitGe 0 0, .waitTake 0 0, .take 0 0, .give 0 0, .arrive 0 0,
   .arriveLane 0 0, .arriveCombine 0 0, .fence 0 0, .route 0 0, .member 0 0, .alloc 0 0, .free 0 0, .audit 0 0,
   .translationFill 0, .invalidation 0, .wake 0, .wakeEmit 0, .pacingWindow, .expiry 0 0 0, .represent (.head 0 0),
   .timedRelease 0 0, .timeFrame 0 okHdr 0 false 0, .combineReport 0, .backingOp 0, .pageIn 0, .stagingReport 0 0,
   .routeCommit 0 (.slice 63), .preport 0 okHdr okCmd ⟨0, 0, .ok, none⟩, .rpart 0 okHdr ⟨okCmd, 0, none, []⟩,
   .mrec 0 okHdr ⟨0, 0, 0, 0, 0, 0, none⟩, .mack 0 okHdr 0 false, .holdRelease 0 0 0, .holdDiscard 0 0, .refuse 0 okHdr okCmd 0,
   .reply 0 okHdr okCmd okReply, .cmd 0 okHdr okCmd, .xcmd 0 okHdr okCmd, .cancel 0 0 0 0, .arrivalAccepted 0 none,
   .chunkComplete 0, .cpart 0 okHdr okSeg [], .cres 0 okHdr okSeg 0 [], .cclose 0 okHdr 0 false 0,
   .cabort 0 okHdr 0 false ⟨1, 0, 0⟩, .spRvalid 0 0 0 false, .drAck 0 0 false, .ivAck 0 0 false, .arRdy 0, .wire 0 okHdr 0 false,
   .lcomp 0 okHdr 0 false none, .laneRelease 0, .syncReq 0 okHdr ⟨false, 0, 0, 0, 0⟩ 0 0, .syncResp 0 okHdr ⟨false, 0, 0, 0, 0⟩ 0,
   .coarse 0 okHdr ⟨false, 0, 0, 0, 0⟩, .exchange 0, .glim, .alim, .slewStep, .epoch 0 okHdr 0 false, .notice 0 ⟨0, none, 0, 0⟩,
   .marker 0 0, .markerLost 0, .data 0 0, .nak 0 0, .retryBound 0, .receiveTimeout 0]
/-- A well-formed term of each command, part 1. -/
def wellFormed1 : List Instr :=
  [.lockLost 0, .los 0, .tuneDone 0, .pmaLim 0, .alignLock 0 false false 0 0, .alignLim 0,
   .init 0 ⟨0, 0, 0, 0, false, false, false, false, false⟩, .initLim 0, .linkUp 0, .rehold 0, .open (.port 1) 0,
   .close (.port 1) 0, .read (.port 1) 0, .quiesce (.port 1) 0, .quiesced 0, .resume (.port 1) 0, .reset (.port 1) 0 false,
   .forcedReset (.port 1) 0 false, .resetComplete 0, .agtBind (.port 1) 0 0, .disable (.port 1) 0, .disabled 0,
   .tenShare (.port 1) 0 0 0, .tenCfg (.port 1) 0 0, .tenImp (.port 1) 0 0 0, .semaHtw (.port 1) 0 0, .semaBack (.port 1) 0 0,
   .semaPair (.port 1) 0, .waitCtl (.port 1) 0, .trsLen (.port 1) 0 0 0, .trsLcfg (.port 1) 0 false 0, .trsLstat (.port 1) 0 0,
   .keyLock (.port 1), .coreStep (.port 1) 0, .align (.port 1) 0, .remeasureAll (.port 1), .remeasureOne (.port 1) 0,
   .pmeasDone [], .pmeasFail 0, .multiplierLock, .refLost, .refReturn, .ramp (.port 1) 0, .sourceSwitch (.port 1) 0, .rampStep,
   .rampFault, .eclkLost false, .inputReturn false, .gateOpen (.port 1) 0, .gateClose (.port 1) 0, .busIdleAck, .gateTimeout,
   .clkObs (.port 1) 0, .droopWarn false, .fwImgDone (.port 1), .measured, .firmwareStart, .ready, .fwHbeat (.port 1), .fwHang,
   .begin (.port 1), .safepointAck, .commit (.port 1), .measure (.port 1), .measureDone, .clear (.port 1) 0 0,
   .clearAll (.port 1), .sample, .obsSamp (.port 1) 0, .obsRing (.port 1) 0]
/-- A well-formed term of each command, part 2. -/
def wellFormed2 : List Instr :=
  [.obsTrring (.port 1) 0, .arm (.port 1) false, .disarm (.port 1), .freeze, .frozen, .thaw (.port 1), .thawat (.port 1),
   .thawTick, .thawingDone, .copy (.port 1), .hangscan (.port 1), .setval (.port 1), .cancelQ (.port 1), .cancelW (.port 1),
   .forceLane (.port 1), .marRead (.port 1), .fstat (.port 1) 0 0, .ffirst (.port 1) 0 0, .fsev (.port 1) 0 0,
   .frct (.port 1) 0 0, .finj (.port 1) 0 0, .shadowEnd 0, .wdog 0 0, .replyGuard 0 0, .drainSlow 0 0, .arbitrationWindow,
   .portEn (.port 1) 0 0, .portDown (.port 1) 0, .coldReset, .powerOnReset, .resetRelease, .registerWrite (.port 1) 0 0 0,
   .alignmentCodeword 0 false, .masterPortResponse .other false, .tagRebuild (.tableEntry 0), .fwTrap 0, .htmReady,
   .pierClockRestart 0, .spRdy 0, .sncmdDone]
/-- Ill-formed terms, one for each check, part 0. -/
def illFormed0 : List Instr :=
  [.aqValid 2048 0 0 0, .aqValid 0 8 0 0, .aqValid 0 0 4 0, .sigAdd 2048 0, .sigAdd 0 4, .sigSub 2048 0, .sigSub 0 4,
   .poll 2048 0, .poll 0 4, .waitGe 2048 0, .waitGe 0 4, .waitTake 2048 0, .waitTake 0 4, .take 2048 0, .take 0 4, .give 2048 0,
   .give 0 4, .arrive 2048 0, .arrive 0 4, .arriveLane 2048 0, .arriveLane 0 4, .arriveCombine 2048 0, .arriveCombine 0 4,
   .fence 2048 0, .fence 0 4, .route 2048 0, .route 0 4, .member 2048 0, .member 0 4, .alloc 2048 0, .alloc 0 4, .free 2048 0,
   .free 0 4, .audit 2048 0, .audit 0 4, .translationFill 2048, .invalidation 2048, .wake 2048, .wakeEmit 64, .expiry 64 0 0,
   .expiry 0 2048 0, .expiry 0 0 4, .represent (.head 2048 0), .represent (.head 0 4), .represent (.entry 0 32),
   .timedRelease 64 0, .timedRelease 0 4096, .timeFrame 8 okHdr 0 false 0, .timeFrame 0 badHdr 0 false 0,
   .timeFrame 0 okHdr 67108864 false 0, .combineReport 1024, .stagingReport 0 32, .routeCommit 0 (.slice 64),
   .preport 8 okHdr okCmd ⟨0, 0, .ok, none⟩, .preport 0 badHdr okCmd ⟨0, 0, .ok, none⟩, .preport 0 okHdr badCmd ⟨0, 0, .ok, none⟩,
   .rpart 8 okHdr ⟨okCmd, 0, none, []⟩, .rpart 0 badHdr ⟨okCmd, 0, none, []⟩, .rpart 0 okHdr ⟨badCmd, 0, none, []⟩,
   .rpart 0 okHdr ⟨okCmd, 0, none, List.replicate 33 ⟨0, 1, 0, 0⟩⟩, .mrec 8 okHdr ⟨0, 0, 0, 0, 0, 0, none⟩,
   .mrec 0 badHdr ⟨0, 0, 0, 0, 0, 0, none⟩, .mack 8 okHdr 0 false, .mack 0 badHdr 0 false, .holdRelease 8 0 0,
   .holdRelease 0 192 0, .holdDiscard 8 0, .refuse 8 okHdr okCmd 0, .refuse 0 badHdr okCmd 0, .refuse 0 okHdr badCmd 0]
/-- Ill-formed terms, one for each check, part 1. -/
def illFormed1 : List Instr :=
  [.reply 8 okHdr okCmd okReply, .reply 0 badHdr okCmd okReply, .reply 0 okHdr badCmd okReply, .cmd 8 okHdr okCmd,
   .cmd 0 badHdr okCmd, .cmd 0 okHdr badCmd, .xcmd 8 okHdr okCmd, .xcmd 0 badHdr okCmd, .xcmd 0 okHdr badCmd, .cancel 64 0 0 0,
   .cancel 0 2048 0 0, .cancel 0 0 4 0, .cancel 0 0 0 8, .arrivalAccepted 1024 none, .chunkComplete 1024, .cpart 8 okHdr okSeg [],
   .cpart 0 badHdr okSeg [], .cpart 0 okHdr ⟨1024, false, 0, 0, true⟩ [], .cres 8 okHdr okSeg 0 [], .cres 0 badHdr okSeg 0 [],
   .cres 0 okHdr ⟨1024, false, 0, 0, true⟩ 0 [], .cclose 8 okHdr 0 false 0, .cclose 0 badHdr 0 false 0,
   .cclose 0 okHdr 1024 false 0, .cabort 8 okHdr 0 false ⟨1, 0, 0⟩, .cabort 0 badHdr 0 false ⟨1, 0, 0⟩,
   .cabort 0 okHdr 1024 false ⟨1, 0, 0⟩, .spRvalid 2048 0 0 false, .spRvalid 0 8 0 false, .drAck 2048 0 false, .drAck 0 32 false,
   .ivAck 2048 0 false, .ivAck 0 32 false, .arRdy 2048, .wire 8 okHdr 0 false, .wire 0 badHdr 0 false, .wire 0 okHdr 64 false,
   .lcomp 8 okHdr 0 false none, .lcomp 0 badHdr 0 false none, .lcomp 0 okHdr 64 false none, .laneRelease 64,
   .syncReq 8 okHdr ⟨false, 0, 0, 0, 0⟩ 0 0, .syncReq 0 badHdr ⟨false, 0, 0, 0, 0⟩ 0 0, .syncReq 0 okHdr ⟨false, 0, 0, 0, 0⟩ 1 0,
   .syncResp 8 okHdr ⟨false, 0, 0, 0, 0⟩ 0, .syncResp 0 badHdr ⟨false, 0, 0, 0, 0⟩ 0, .coarse 8 okHdr ⟨false, 0, 0, 0, 0⟩,
   .coarse 0 badHdr ⟨false, 0, 0, 0, 0⟩, .epoch 8 okHdr 0 false, .epoch 0 badHdr 0 false, .epoch 0 okHdr 64 false,
   .notice 8 ⟨0, none, 0, 0⟩, .marker 8 0, .markerLost 8, .data 8 0, .nak 8 0, .retryBound 8, .receiveTimeout 8, .lockLost 8,
   .los 8, .tuneDone 8, .pmaLim 8, .alignLock 8 false false 0 0, .alignLim 8,
   .init 8 ⟨0, 0, 0, 0, false, false, false, false, false⟩, .initLim 8, .linkUp 8, .rehold 8, .open (.port 65536) 0,
   .open (.port 1) 1024]
/-- Ill-formed terms, one for each check, part 2. -/
def illFormed2 : List Instr :=
  [.close (.port 65536) 0, .close (.port 1) 1024, .read (.port 65536) 0, .read (.port 1) 1024, .quiesce (.port 65536) 0,
   .quiesce (.port 1) 256, .quiesced 256, .resume (.port 65536) 0, .resume (.port 1) 256, .reset (.port 65536) 0 false,
   .reset (.port 1) 256 false, .forcedReset (.port 65536) 0 false, .forcedReset (.port 1) 256 false, .resetComplete 256,
   .agtBind (.port 65536) 0 0, .agtBind (.port 1) 2048 0, .disable (.port 65536) 0, .disable (.port 1) 2048, .disabled 2048,
   .tenShare (.port 65536) 0 0 0, .tenShare (.port 1) 256 0 0, .tenShare (.port 1) 0 2 0, .tenCfg (.port 65536) 0 0,
   .tenCfg (.port 1) 256 0, .tenImp (.port 65536) 0 0 0, .tenImp (.port 1) 256 0 0, .tenImp (.port 1) 0 4 0,
   .semaHtw (.port 65536) 0 0, .semaHtw (.port 1) 256 0, .semaBack (.port 65536) 0 0, .semaBack (.port 1) 256 0,
   .semaPair (.port 65536) 0, .waitCtl (.port 65536) 0, .trsLen (.port 65536) 0 0 0, .trsLen (.port 1) 64 0 0,
   .trsLen (.port 1) 0 32 0, .trsLcfg (.port 65536) 0 false 0, .trsLcfg (.port 1) 64 false 0, .trsLstat (.port 65536) 0 0,
   .trsLstat (.port 1) 64 0, .keyLock (.port 65536), .coreStep (.port 65536) 0, .align (.port 65536) 0,
   .remeasureAll (.port 65536), .remeasureOne (.port 65536) 0, .remeasureOne (.port 1) 2048, .pmeasFail 2048,
   .ramp (.port 65536) 0, .sourceSwitch (.port 65536) 0, .gateOpen (.port 65536) 0, .gateOpen (.port 1) 128,
   .gateClose (.port 65536) 0, .gateClose (.port 1) 128, .clkObs (.port 65536) 0, .fwImgDone (.port 65536),
   .fwHbeat (.port 65536), .begin (.port 65536), .commit (.port 65536), .measure (.port 65536), .clear (.port 65536) 0 0,
   .clear (.port 1) 512 0, .clear (.port 1) 0 512, .clearAll (.port 65536), .obsSamp (.port 65536) 0, .obsRing (.port 65536) 0,
   .obsTrring (.port 65536) 0, .arm (.port 65536) false, .disarm (.port 65536), .thaw (.port 65536), .thawat (.port 65536)]
/-- Ill-formed terms, one for each check, part 3. -/
def illFormed3 : List Instr :=
  [.copy (.port 65536), .hangscan (.port 65536), .setval (.port 65536), .cancelQ (.port 65536), .cancelW (.port 65536),
   .forceLane (.port 65536), .marRead (.port 65536), .fstat (.port 65536) 0 0, .fstat (.port 1) 17 0, .ffirst (.port 65536) 0 0,
   .ffirst (.port 1) 17 0, .fsev (.port 65536) 0 0, .fsev (.port 1) 17 0, .frct (.port 65536) 0 0, .frct (.port 1) 17 0,
   .finj (.port 65536) 0 0, .finj (.port 1) 17 0, .shadowEnd 17, .wdog 64 0, .replyGuard 2048 0, .replyGuard 0 4,
   .drainSlow 2048 0, .drainSlow 0 4, .portEn (.port 65536) 0 0, .portEn (.port 1) 8 0, .portDown (.port 65536) 0,
   .portDown (.port 1) 8, .registerWrite (.port 65536) 0 0 0, .registerWrite (.port 1) 4194304 0 0,
   .registerWrite (.port 1) 0 65 0, .alignmentCodeword 8 false, .tagRebuild (.slotTag 64 0), .tagRebuild (.slotTag 0 4096),
   .tagRebuild (.tableEntry 1048576), .pierClockRestart 2048, .spRdy 2048]
theorem test_wellFormed_taken : ((wellFormed0 ++ wellFormed1 ++ wellFormed2).all fun i => i.wf) = true := by decide +kernel
theorem test_illFormed_refused : ((illFormed0 ++ illFormed1 ++ illFormed2 ++ illFormed3).all fun i => !i.wf) = true := by decide +kernel
theorem test_illFormed_header : Hdr.wf { okHdr with src := 64 } = false ∧ Hdr.wf { okHdr with dst := 64 } = false ∧
    Hdr.wf { okHdr with tenant := 256 } = false ∧ Hdr.wf { okHdr with epoch := 256 } = false ∧
    Hdr.wf { okHdr with qseq := 65536 } = false ∧ Hdr.wf okHdr = true := by decide
theorem test_illFormed_cmd : Cmd.wf { okCmd with die := 64 } = false ∧ Cmd.wf { okCmd with agent := 2048 } = false ∧
    Cmd.wf { okCmd with queue := 4 } = false ∧ Cmd.wf { okCmd with tenant := 256 } = false ∧
    Cmd.wf { okCmd with epoch := 256 } = false ∧ Cmd.wf badCmd = false ∧ Cmd.wf okCmd = true := by decide

section Witnesses
/- One theorem at a time: each evaluation takes memory of its own. -/
set_option Elab.async false

/-! Worked cases of the spec; the expected values are the spec's. -/

/-- The addresses of chapter 16's worked case. -/
theorem test_register_addresses :
    rCoreId = 0 ∧ (fKeyCap0Res 5).off = 0x11050 ∧ rTenShare0 5 = 0x20508 ∧ rTenStat 5 = 0x20518 ∧ rAgtBind 0xA2 = 0x30A20 ∧
    rAgtStat 0xA2 = 0x30A28 ∧ rSemaHtw 5 = 0x40028 ∧ rSemaBack 5 = 0x40828 ∧ rWaitTuse 5 = 0x50828 ∧ rAbcCsr 0x85 1 = 0x630A8 ∧
    rViaLstat 2 = 0xA0010 ∧ rFrct (bVia 2) = 0xAF018 ∧ rObsCfg0 7 = 0x141038 := by decide
/-- The handle of object 0x230 on die 3 (chapter 2), and the ROUTE entry of chapter 3: bytes 03 14 04. -/
theorem test_handle_and_entry :
    handleOf 3 0x230 = 0x0C000230 ∧ routeEntry [0, 0, 0x041403, 0] 0 = ⟨0, 3, 5, 1⟩ := by decide +kernel
/-- Window 750 begins at 40,000 dt (chapter 4). -/
theorem test_window : windowStart 750 = 40000 ∧ windowOf 40000 = 750 ∧ windowOf 39999 = 749 := by decide
/-- C and K of the abs-max combine of chapter 8, with BUF 2, 4 and 7. -/
def absMax (buf : Nat) : Ctx :=
  ctxFrom (set live [(⟨rAbcCtxd0, 0, 64⟩, 0x8114), (fAbcCtxd1Bhandle, 0xA0), (fAbcCtxd1Tenant, 3), (fAbcCtxd1Nm1, 1023),
    (⟨rAbcCtxd2, 0, 64⟩, 3), (fAbcCtxd3Eloc, 4), (fAbcCtxd3Lmax, 4), (fAbcCtxd3Pcap, 4), (fAbcCtxd3Buf, buf)])
theorem test_chunks :
    ((absMax 2).chunkSize, (absMax 2).chunks) = (384, 3) ∧ ((absMax 4).chunkSize, (absMax 4).chunks) = (768, 2) ∧
    (absMax 7).chunks = 1 := by decide +kernel
/-- theta is 1,950,412.5 dt and delta 131 dt (chapter 11); times are in sixteenths of a dt. -/
theorem test_exchange :
    thetaOf (16 * 3300000) (16 * 5250543 + 8) (16 * 5250743 + 8) (16 * 3300462) = 16 * 1950412 + 8 ∧
    deltaOf (16 * 3300000) (16 * 5250543 + 8) (16 * 5250743 + 8) (16 * 3300462) = 16 * 131 := by decide
/-- A participant whose payload beat is given. -/
def paid (a pidx beat : Nat) : Particip := { part a pidx with beats := [(0, BitVec.ofNat 512 beat)] }
/-- The state after the unit's chunk 0 of a context. -/
def afterChunk (x : Ctx) : State :=
  match exec (.chunkComplete 3) (setCtx (bind live) 3 x) with
  | .next u => u
  | _ => live
/-- The first result byte count of a root's chunk, as a number. -/
def firstBeat (x : Ctx) (bytes : Nat) : Option Nat := ((afterChunk x).piers.head?.bind (·.2.spq.head?)).map fun b => b.data.toNat % 256 ^ bytes
/-- The order of PIDX decides an FP64 sum (chapter 7). -/
def fp64 (v0 v1 v2 v3 : Nat) : Ctx :=
  { closed7 with desc := 0, n := 1, eloc := 4, parts := [paid 11 3 v3, paid 10 1 v1, paid 10 0 v0, paid 11 2 v2] }
theorem test_sum_by_pidx :
    firstBeat (fp64 0x44F0000000000000 0x3FF0000000000001 0xC4F0000000000000 0x3FF0000000000001) 8 = some 0 ∧
    firstBeat (fp64 0x44F0000000000000 0xC4F0000000000000 0x3FF0000000000001 0x3FF0000000000001) 8 = some 0x4000000000000001 := by
  decide +kernel
/-- Chapter 7's weighted sum: the result bytes 00 64 00 FC 00 7E 00 00 00 7C, bin 0 of the histogram 16 bytes on, and the
arithmetic status word. -/
def wsum7 : Ctx :=
  let p (a i w e0 e1 e2 e3 e4 : Nat) : Particip :=
    paid a i (w + 2 ^ 64 * (e0 + 2 ^ 32 * e1 + 2 ^ 64 * e2 + 2 ^ 96 * e3 + 2 ^ 128 * e4))
  { closed7 with
    desc := 0x0FF2A211, n := 5, eloc := 4
    parts := [p 10 0 0x3F000000 0x44FFE000 0x3F800000 0x40000000 0x38800000 0x48000000,
      p 10 1 0x3E800000 0x3F800000 0xFF800000 0x3F800000 0 0, p 11 2 0x3E800000 0x40400000 0x40000000 0x7FA00000 0 0,
      p 11 3 0 0x40E00000 0x40800000 0x7F800000 0 0] }
theorem test_weighted_sum :
    firstBeat wsum7 10 = some 0x7C0000007E00FC006400 ∧ (firstBeat wsum7 20).map (· / 2 ^ 128) = some 1 ∧
    (ctxAt (afterChunk wsum7) 3).map (fun x => arithWord x.arith.toNat x.offender) = some 0x800C04F := by decide +kernel

/-! Witnesses that the statements' hypotheses can be met: for each clause a state and operands that meet its hypotheses
together. Where a hypothesis is a disjunction or an existence, the witness gives a case or an instance of it. -/

/-- No item of any queue is refused. -/
def noneRefused (s : State) : Bool :=
  s.agents.all fun x => x.2.queues.all fun y => y.2.items.all fun i => match i.st with | .refused _ _ => false | _ => true
theorem mgetD_all {α : Type} (P : α → Bool) (m : SMap α) (k : Nat) (d : α) (hd : P d = true) (h : (m.all fun x => P x.2) = true) :
    P (mgetD m k d) = true := by
  unfold mgetD
  induction m with
  | nil => exact hd
  | cons y m ih =>
    simp only [List.all_cons, Bool.and_eq_true] at h
    simp only [mget]
    split
    · exact h.1
    · exact ih h.2
/-- What `noneRefused` gives: a hypothesis of WaitsEnd. -/
theorem noneRefused_spec (s : State) (h : noneRefused s = true) :
    ∀ b r, ∀ i ∈ (queueOf s b r).items, ∀ w t, i.st ≠ .refused w t := by
  intro b r i hi w t hw
  have hq := mgetD_all (fun g : Agent => g.queues.all fun y => y.2.items.all fun i =>
    match i.st with | .refused _ _ => false | _ => true) s.agents b Agent.zero rfl h
  have hi' := mgetD_all (fun y : Queue => y.items.all fun i => match i.st with | .refused _ _ => false | _ => true)
    (agentSt s b).queues r Queue.zero rfl hq
  have := List.all_eq_true.mp hi' i hi
  simp [hw] at this
/-- What an empty list of agents gives: a hypothesis of DisableAndDisabled. -/
theorem nothing_deliverable (s : State) (h : s.agents = []) : ∀ b q, deliverable s b q = false := by
  intro b q
  simp [deliverable, queueOf, agentSt, h]
  rfl
theorem test_witness_EmptyQueueTicks :
    live.pending = [] ∧ live.clk.inReset = false ∧ on live fDtStatLock = true ∧
    on (set live [(fDtStatLock, 0)]) fDtStatLock = false := by decide +kernel
/-- A state with a command waiting that meets the invariant, and whose step answers. -/
def waiting1 : State := { ready (addPkt 2) with pending := [.sigAdd 10 0, .poll 10 0] }
theorem test_witness_InvariantKept :
    Inv waiting1 ∧ (match step waiting1 with | .next _ => true | _ => false) = true := by
  exact ⟨⟨by decide +kernel, by decide +kernel⟩, by decide +kernel⟩

theorem test_witness_TenantRegistersWritten :
    (let r : Requester := boss; let t : Nat := 255; let d : Word := 1#64;
     let s : State := set live [(fKeyCap0Mir 255, 1), (fKeyCap0Res 255, 3), (fKeyCap0Weight 255, 2), (fKeyCap0Cred 255, 7)];
     quiet s = true ∧ t < 256 ∧ manages s r (rTenCfg t) = true ∧ (nbit d.toNat 0 = true → on s (fKeyCap0Mir t) = true) ∧
     (nbit d.toNat 1 = true → on s (fKeyCap0Exp t) = true)) ∧
    (let r : Requester := boss; let t : Nat := 255; let d : Word := 0x200000003#64;
     let s : State := set live [(fKeyCap0Mir 255, 1), (fKeyCap0Res 255, 3), (fKeyCap0Weight 255, 2), (fKeyCap0Cred 255, 7)];
     quiet s = true ∧ t < 256 ∧ manages s r (rTenShare0 t) = true ∧ wbits d 0 11 ≤ get s (fKeyCap0Res t) ∧
     wbits d 11 11 ≤ get s (fKeyCap0Waits t) ∧ wbits d 22 10 ≤ get s (fKeyCap0Buf t) ∧ wbits d 32 8 ≤ get s (fKeyCap0Weight t)) ∧
    (let r : Requester := boss; let t : Nat := 255; let d : Word := 0xff00000000000007#64;
     let s : State := set live [(fKeyCap0Mir 255, 1), (fKeyCap0Res 255, 3), (fKeyCap0Weight 255, 2), (fKeyCap0Cred 255, 7)];
     quiet s = true ∧ t < 256 ∧ manages s r (rTenShare1 t) = true ∧ wbits d 0 7 ≤ get s (fKeyCap0Cred t) ∧
     wbits d 7 7 ≤ get s (fKeyCap0Lanes t) ∧ wbits d 14 12 ≤ get s (fKeyCap1Agents t)) ∧
    (let r : Requester := boss; let t : Nat := 255;
     let s : State := set live [(fKeyCap0Mir 255, 1), (fKeyCap0Res 255, 3), (fKeyCap0Weight 255, 2), (fKeyCap0Cred 255, 7)];
     let i := 3;
     quiet s = true ∧ t < 256 ∧ i < 4 ∧ manages s r (rTenImp t i) = true ∧
     (((allWaiters s).any fun x => decide (x.2.cmd.tenant = t) && decide (((slotAt s x.1).map (·.tenant)) ≠ some t)) = false)) := by
  refine ⟨?_, ?_, ?_, ?_⟩ <;> decide +kernel

theorem test_witness_CapsAndWindowsHold :
    (let r : Requester := boss; let t : Nat := 7; let d : Word := 3#64; let s : State := set live [(fKeyCap0Exp 7, 0)];
     quiet s = true ∧ s.flt.shadows = [] ∧ t < 256 ∧ manages s r (rTenCfg t) = true ∧
     ((nbit d.toNat 0 = true ∧ on s (fKeyCap0Mir t) = false) ∨ (nbit d.toNat 1 = true ∧ on s (fKeyCap0Exp t) = false))) ∧
    (let r : Requester := boss; let t : Nat := 7; let d : Word := 0x7ff#64; let s : State := live;
     quiet s = true ∧ s.flt.shadows = [] ∧ t < 256 ∧ manages s r (rTenShare0 t) = true ∧
     (get s (fKeyCap0Res t) < wbits d 0 11 ∨ get s (fKeyCap0Waits t) < wbits d 11 11 ∨ get s (fKeyCap0Buf t) < wbits d 22 10 ∨ get s (fKeyCap0Weight t) < wbits d 32 8)) ∧
    (let r : Requester := boss; let t : Nat := 7; let d : Word := 0x300#64;
     let s : State := set live [(fKeyCap0Cred 7, 0), (fKeyCap0Lanes 7, 5), (fKeyCap1Agents 7, 0)];
     quiet s = true ∧ s.flt.shadows = [] ∧ t < 256 ∧ manages s r (rTenShare1 t) = true ∧
     (get s (fKeyCap0Cred t) < wbits d 0 7 ∨ get s (fKeyCap0Lanes t) < wbits d 7 7 ∨ get s (fKeyCap1Agents t) < wbits d 14 12)) ∧
    (let r : Requester := boss; let t : Nat := 7; let d : Word := 0x100000000000000#64; let s : State := imported; let i := 0;
     quiet s = true ∧ s.flt.shadows = [] ∧ t < 256 ∧ i < 4 ∧ manages s r (rTenImp t i) = true ∧ nbit d.toNat 56 = true ∧
     rd s (rTenImp t i) ≠ w64 (d.toNat % 2 ^ 57) ∧
     (((allWaiters s).any fun x => decide (x.2.cmd.tenant = t) && decide (((slotAt s x.1).map (·.tenant)) ≠ some t)) = true)) ∧
    (let r : Requester := boss; let t : Nat := 7; let s : State := oneObj;
     quiet s = true ∧ s.flt.shadows = [] ∧ t < 256 ∧ manages s r (rSemaHtw t) = true ∧ allocatedOf s t ≠ [] ∧
     resetsNothing s bSema 7 = true) ∧
    (let r : Requester := Requester.port 2; let t : Nat := 7; let d : Word := 1#64;
     let s : State := set live [(fKeyCap0Mir 7, 1)];
     quiet s = true ∧ s.flt.shadows = [] ∧ t < 256 ∧ served s r (rTenCfg t) = true ∧ isManager s r = false ∧
     nbit d.toNat 0 = true ∧ nbit d.toNat 1 = false ∧ on s (fKeyCap0Mir t) = true ∧ on s (fTenCfgMirrored t) = false) := by
  refine ⟨?_, ?_, ?_, ?_, ?_, ?_⟩ <;> decide +kernel

theorem test_witness_BindingsWritten :
    (let r : Requester := boss; let a : Nat := 10; let d : Word := 0x307#64; let s : State := set live [(fTenShare1Agents 7, 1)];
     quiet s = true ∧ a < 2048 ∧ (pierOf s a).isSome = true ∧ manages s r (rAgtBind a) = true ∧
     (∀ l < 64, on s (fTrsLcfgEn l) = false) ∧
     ((agentSt s a).port = .disabled ∨ ((agentSt s a).port = .open ∧ on s (fAgtBindBound a) = false)) ∧
     wbits d 9 1 = get s (fAgtBindEn a) ∧ wbits d 8 1 = 1 ∧ agentsOf s (wbits d 0 8) < get s (fTenShare1Agents (wbits d 0 8))) ∧
    (let r : Requester := boss; let a : Nat := 10; let d : Word := 0x200#64;
     let s : State := setAgent (set live [(fAgtBindEn 10, 0)]) 10 { Agent.zero with port := .disabled };
     quiet s = true ∧ a < 2048 ∧ (pierOf s a).isSome = true ∧ manages s r (rAgtBind a) = true ∧
     (∀ l < 64, on s (fTrsLcfgEn l) = false) ∧ (agentSt s a).port = .disabled ∧ get s (fAgtBindEn a) = 0 ∧ wbits d 9 1 = 1 ∧
     wbits d 0 8 = get s (fAgtBindTenant a) ∧ wbits d 8 1 = get s (fAgtBindBound a)) := by
  refine ⟨?_, ?_⟩ <;> decide +kernel

theorem test_witness_DisableAndDisabled :
    (let r : Requester := boss; let a : Nat := 11; let s : State := live;
     quiet s = true ∧ a < 2048 ∧ (pierOf s a).isSome = true ∧ manages s r (rAgtBind a) = true ∧ on s (fAgtBindEn a) = true ∧
     (agentSt s a).queues = [] ∧ s.lanes = [] ∧ (∀ l < 64, on s (fTrsLcfgEn l) = false) ∧ s.abc.ctxs = [] ∧
     (outBlocking s (fun c => decide (c.agent = a)) = []) ∧ s.agents = []) ∧
    (let a : Nat := 11; let s : State := setAgent live 11 { Agent.zero with port := .disabling };
     quiet s = true ∧ a < 2048 ∧ eclkRuns s = true ∧ (agentSt s a).port = .disabling ∧
     (((agentSt s a).queues.all fun q => q.2.items.all fun i => i.st.finished) = true)) := by
  refine ⟨?_, ?_⟩ <;> decide +kernel

theorem test_witness_TenantStateCommands :
    (let r : Requester := boss; let t : Nat := 7; let s : State := live;
     quiet s = true ∧ t < 256 ∧ freezing s = false ∧ manages s r (rTenCmd t) = true ∧ on s (fTenCmdstBusy t) = false ∧
     (tenSt s t).st = .active ∧ tenWaiters s t = [] ∧ s.lanes = [] ∧ s.abc.ctxs = [] ∧
     (outBlocking s (fun c => decide (c.tenant = t)) = [])) ∧
    (let t : Nat := 7; let s : State := setTen live 7 { Tenant.zero with st := .quiescing };
     quiet s = true ∧ t < 256 ∧ freezing s = false ∧ eclkRuns s = true ∧ (tenSt s t).st = .quiescing ∧ drained s t = true) ∧
    (let r : Requester := boss; let t : Nat := 7; let s : State := setTen live 7 { Tenant.zero with st := .quiesced };
     quiet s = true ∧ t < 256 ∧ freezing s = false ∧ manages s r (rTenCmd t) = true ∧ on s (fTenCmdstBusy t) = false) := by
  refine ⟨?_, ?_, ?_⟩ <;> decide +kernel

theorem test_witness_TenantResets :
    (let r : Requester := boss; let t : Nat := 7; let s : State := setTen oneObj 7 { Tenant.zero with st := .quiesced };
     quiet s = true ∧ t < 256 ∧ freezing s = false ∧ fwRuns s = true ∧ manages s r (rTenCmd t) = true ∧
     on s (fTenCmdstBusy t) = false ∧ degradedOn s = false ∧ (tenSt s t).st = .quiesced ∧ s.lanes = [] ∧
     (∀ l < 64, get s (fTrsLcfgTenant l) ≠ t) ∧ s.abc.ctxs = [] ∧ s.span.mirror = [] ∧
     (∀ p ∈ s.sema.slots, p.2.waiters = [] ∧ p.2.tries = [] ∧ p.2.inq = [])) ∧
    (let r : Requester := boss; let t : Nat := 7; let s : State := live;
     quiet s = true ∧ t < 256 ∧ freezing s = false ∧ fwRuns s = true ∧ manages s r (rTenCmd t) = true ∧
     on s (fTenCmdstBusy t) = false ∧ degradedOn s = false ∧ (tenSt s t).st ≠ .resetting ∧ boundAgents s t = [] ∧ s.lanes = [] ∧
     (∀ l < 64, get s (fTrsLcfgTenant l) ≠ t) ∧ s.abc.ctxs = [] ∧ s.sema.slots = [] ∧ s.span.mirror = [] ∧ s.ports = [] ∧
     members s = [dieOf s] ∧ on s fCoreSpancfgMirror = false) ∧
    (let t : Nat := 7; let s : State := setTen live 7 { Tenant.zero with st := .resetting, ret := .quiesced };
     quiet s = true ∧ t < 256 ∧ freezing s = false ∧ fwRuns s = true ∧ coreRuns s = true ∧ (tenSt s t).st = .resetting ∧
     allocatedOf s t = [] ∧ s.sema.moves = []) := by
  refine ⟨?_, ?_, ?_⟩ <;> decide +kernel

theorem test_witness_ConfigurationWritten :
    (let r : Requester := boss; let t : Nat := 255; let d : Word := 0x3ff0001#64; let s : State := live;
     quiet s = true ∧ t < 256 ∧ manages s r (rSemaHtw t) = true ∧ allocatedOf s t = [] ∧ wbits d 0 10 + wbits d 16 11 ≤ 1024 ∧
     (∀ u < 256, u ≠ t → windowsMeet (wbits d 0 10) (wbits d 16 11) (get s (fSemaHtwBase u)) (get s (fSemaHtwLen u)) = false)) ∧
    (let r : Requester := boss; let t : Nat := 255; let s : State := live;
     quiet s = true ∧ t < 256 ∧ manages s r (rSemaBack t) = true ∧ backInUse s t = false) ∧
    (let r : Requester := boss; let t : Nat := 255; let s : State := live;
     quiet s = true ∧ t < 256 ∧ manages s r rSemaPair = true ∧ s.sema.slots = [] ∧ s.sema.moves = []) ∧
    (let r : Requester := boss; let t : Nat := 255; let s : State := live;
     quiet s = true ∧ t < 256 ∧ manages s r rWaitCtl = true) ∧
    (let r : Requester := boss; let t : Nat := 255; let s : State := live;
     quiet s = true ∧ t < 256 ∧ manages s r rClkObs = true) := by
  refine ⟨?_, ?_, ?_, ?_, ?_⟩ <;> decide +kernel

theorem test_witness_RegisterWrites :
    (let r : Requester := boss; let s : State := live;
     quiet s = true ∧ manages s r rWaitWdog = true) ∧
    (let r : Requester := boss; let s : State := live; let off := 0x1ffff8; let width := 64;
     quiet s = true ∧ s.flt.shadows = [] ∧ off < 2 ^ 22 ∧ served s r off = true ∧ width = 64 ∧ off % 8 = 0 ∧ off < 0x200000 ∧
     assigned s off = false) ∧
    (let r : Requester := boss; let s : State := live; let off := 0x3ffffc; let width := 64;
     quiet s = true ∧ s.flt.shadows = [] ∧ off < 2 ^ 22 ∧ served s r off = true ∧ (width ≠ 64 ∨ off % 8 ≠ 0)) := by
  refine ⟨?_, ?_, ?_⟩ <;> decide +kernel

theorem test_witness_KeyLockAndSteps :
    (let r : Requester := boss; let s : State := set live [(fKeyCtlLock, 0), (fCoreStepStep, 2)];
     quiet s = true ∧ served s r rKeyCtl = true ∧ on s fKeyCtlLock = false ∧ (on s fFwStatMeasured && measBad s) = false) ∧
    (let r : Requester := boss; let s : State := set live [(fCoreStepStep, 8)];
     quiet s = true ∧ served s r rKeyCtl = true ∧ on s fKeyCtlLock = true) ∧
    (let r : Requester := boss; let d : Word := 9#64; let s : State := set live [(fCoreStepStep, 8)];
     quiet s = true ∧ manages s r rCoreStep = true ∧ wbits d 0 4 = get s fCoreStepStep + 1 ∧
     ((wbits d 0 4 = 5 ∧ on s fFwStatReady = true) ∨ wbits d 0 4 = 6 ∨ (wbits d 0 4 = 7 ∧ ∀ n < 8, on s (fViaCtlEn n) = false ∨ (portSt s n).st = .up ∨ (portSt s n).st = .failed) ∨ (wbits d 0 4 = 8 ∧ (alState s = alAligned ∨ alState s = alFailed)) ∨ wbits d 0 4 = 9)) ∧
    (let r : Requester := boss; let d : Word := 7#64; let s : State := set live [(fCoreStepStep, 8)];
     quiet s = true ∧ manages s r rCoreStep = true ∧ wbits d 0 4 ≠ get s fCoreStepStep + 1) ∧
    (let s : State := cold;
     quiet s = true ∧ eclkRuns s = true ∧ on s fSemaStatHtmReady = false ∧ s.sema.early = []) ∧
    (let s : State := { oneObj with sema := { oneObj.sema with rebuild := [5, 6] } }; let i := 5; let t := 7; let n := 5;
     quiet s = true ∧ coreRuns s = true ∧ fwRuns s = true ∧ s.sema.rebuild.contains i = true ∧ ownerOf s i = some (t, n) ∧
     ((s.sema.transit.all fun x => decide (x.1 ≠ i) && decide (x.1 ≠ htmTwin i)) = true)) := by
  refine ⟨?_, ?_, ?_, ?_, ?_, ?_⟩ <;> decide +kernel
theorem test_witness_KeyLockAndSteps_2 :
    (let s : State := { oneObj with sema := { oneObj.sema with rebuild := [5] } }; let i := 5; let t := 7; let n := 5;
     let key := slotKey 3 9; let x := obj7 .count 0 6;
     quiet s = true ∧ coreRuns s = true ∧ fwRuns s = true ∧ s.sema.rebuild = [i] ∧ (htmAt s i).state = .resident ∧
     ownerOf s i = some (t, n) ∧ ((s.sema.slots.find? fun y => decide (y.2.tenant = t) && decide (y.2.obj = n)) = some (key, x)) ∧
     ((s.sema.transit.all fun z => decide (z.1 ≠ i)) = true)) := by decide +kernel

theorem test_witness_ClockControl :
    (let r : Requester := boss; let d : Word := 0x0e#64; let s : State := live;
     quiet s = true ∧ manages s r rClkCtl = true ∧ on s fClkStatRamp = false ∧ decide (wbits d 0 1 = 1) = inputSel s ∧
     wbits d 1 4 ≠ get s fClkCtlDiv) ∧
    (let r : Requester := boss; let d : Word := 1#64; let s : State := set live [(fClkStatIn1ok, 1)];
     quiet s = true ∧ manages s r rClkCtl = true ∧ on s fClkStatRamp = false ∧ decide (wbits d 0 1 = 1) ≠ inputSel s ∧
     inputOk s (decide (wbits d 0 1 = 1)) = true) ∧
    (let r : Requester := boss; let s : State := set live [(fClkStatRamp, 1)];
     quiet s = true ∧ served s r rClkCtl = true ∧ on s fClkStatRamp = true) ∧
    (let s : State := set live [(fClkStatRamp, 1), (fClkCtlDiv, 3)];
     quiet s = true ∧ s.clk.inReset = false ∧ on s fClkStatStopped = false ∧ on s fClkStatRamp = true ∧ stepDue s = true ∧
     s.clk.switch = none) ∧
    (let s : State := { set live [(fClkStatRamp, 1), (fClkStatCdiv, 7)] with clk := { live.clk with switch := some ⟨true, false⟩ } };
     let target := true;
     quiet s = true ∧ s.clk.inReset = false ∧ on s fClkStatStopped = false ∧ on s fClkStatRamp = true ∧ stepDue s = true ∧
     s.clk.switch = some ⟨target, false⟩ ∧ cdiv s < 8) ∧
    (let s : State := { set live [(fClkStatRamp, 1), (fClkStatCdiv, 8)] with clk := { live.clk with switch := some ⟨true, false⟩ } };
     let target := true;
     quiet s = true ∧ s.clk.inReset = false ∧ on s fClkStatStopped = false ∧ on s fClkStatRamp = true ∧ stepDue s = true ∧
     s.clk.switch = some ⟨target, false⟩ ∧ cdiv s = 8 ∧ divGoal s ≠ 8) := by
  refine ⟨?_, ?_, ?_, ?_, ?_, ?_⟩ <;> decide +kernel
theorem test_witness_ClockControl_2 :
    (let s : State := { set live [(fClkStatRamp, 1), (fClkStatCdiv, 8)] with clk := { live.clk with switch := some ⟨true, false⟩ } };
     let target := true;
     quiet s = true ∧ s.clk.inReset = false ∧ on s fClkStatStopped = false ∧ on s fClkStatRamp = true ∧
     s.clk.switch = some ⟨target, false⟩ ∧ cdiv s = 8 ∧ s.clk.lastStep + 1064 ≤ s.now ∧ s.flt.shadows = [] ∧
     resetsNothing s bClk 4 = true) := by decide +kernel

theorem test_witness_InputsLostAndBack :
    (let i : Bool := true; let s : State := set live [(fClkStatIn1ok, 1)];
     quiet s = true ∧ s.clk.inReset = false ∧ s.flt.shadows = [] ∧ resetsNothing s bClk 0 = true ∧ resetsNothing s bClk 1 = true ∧
     inputSel s ≠ i ∧ inputLost s i = false) ∧
    (let i : Bool := false; let s : State := set live [(fClkStatIn1ok, 1), (fClkCtlFailover, 1)];
     quiet s = true ∧ s.clk.inReset = false ∧ s.flt.shadows = [] ∧ resetsNothing s bClk 0 = true ∧ resetsNothing s bClk 1 = true ∧
     inputSel s = i ∧ inputLost s i = false ∧ on s fClkCtlFailover = true ∧ inputOk s (!i) = true) ∧
    (let i : Bool := false; let s : State := set live [(fClkCtlFailover, 0)];
     quiet s = true ∧ s.clk.inReset = false ∧ s.flt.shadows = [] ∧ resetsNothing s bClk 0 = true ∧ resetsNothing s bClk 1 = true ∧
     inputSel s = i ∧ inputLost s i = false ∧ on s fClkCtlFailover = false) ∧
    (let s : State := live;
     quiet s = true ∧ s.clk.inReset = false ∧ s.flt.shadows = [] ∧ resetsNothing s bClk 0 = true ∧ resetsNothing s bClk 1 = true ∧
     on s fClkStatStopped = false) ∧
    (let s : State := set live [(fClkStatStopped, 1)];
     quiet s = true ∧ s.clk.inReset = false ∧ s.flt.shadows = [] ∧ resetsNothing s bClk 0 = true ∧ resetsNothing s bClk 1 = true ∧
     on s fClkStatStopped = true) ∧
    (let s : State := live;
     quiet s = true ∧ s.clk.inReset = false ∧ s.flt.shadows = [] ∧ resetsNothing s bClk 0 = true ∧ resetsNothing s bClk 1 = true ∧
     s.clk.droop = false ∧ resetsNothing s bClk 5 = true) := by
  refine ⟨?_, ?_, ?_, ?_, ?_, ?_⟩ <;> decide +kernel
theorem test_witness_InputsLostAndBack_2 :
    (let s : State := { live with clk := { live.clk with droop := true } };
     quiet s = true ∧ s.clk.inReset = false ∧ s.flt.shadows = [] ∧ resetsNothing s bClk 0 = true ∧ resetsNothing s bClk 1 = true ∧
     get s fFwUpdstState ≠ 4) := by decide +kernel

theorem test_witness_GateRequests :
    (let r : Requester := boss; let n : Nat := 97; let s : State := live;
     n ≤ 97 ∧ s.flt.shadows = [] ∧ freezing s = false ∧ quiet s = true ∧ served s r rClkGreq = true ∧
     on s fClkGreqstBusy = false ∧ gateOn s n = true ∧ gateIdle s n = true) ∧
    (let r : Requester := boss; let n : Nat := 0; let s : State := live;
     n ≤ 97 ∧ s.flt.shadows = [] ∧ freezing s = false ∧ quiet s = true ∧ served s r rClkGreq = true ∧
     on s fClkGreqstBusy = false ∧ gateOn s n = true ∧ gateIdle s n = false ∧ resetsNothing s bClk 2 = true) ∧
    (let n : Nat := 97;
     let s : State := { set live [(fClkGreqstBusy, 1), (fClkGreqstNode, 97)] with clk := { live.clk with gateAt := some 3000 } };
     let t := 3000;
     n ≤ 97 ∧ s.flt.shadows = [] ∧ freezing s = false ∧ s.clk.gateAt = some t ∧
     quiet { s with clk := { s.clk with gateAt := none } } = true ∧ get s fClkGreqstNode = n ∧ eclkRuns s = true ∧
     unitBusy s n = false) ∧
    (let n : Nat := 12;
     let s : State := { set (girWakes live [⟨waitCmd, ⟨7, .ok, 0, 4900⟩, .seq⟩]) [(fClkGreqstBusy, 1), (fClkGreqstNode, 12)] with clk := { live.clk with gateAt := some 3000 } };
     let t := 3000;
     n ≤ 97 ∧ s.flt.shadows = [] ∧ freezing s = false ∧ s.clk.gateAt = some t ∧
     quiet { s with clk := { s.clk with gateAt := none } } = true ∧ get s fClkGreqstNode = n ∧ unitBusy s n = true ∧
     gateIdle s n = true) ∧
    (let n : Nat := 97;
     let s : State := { set live [(fClkGreqstBusy, 1), (fClkGreqstNode, 97)] with clk := { live.clk with gateAt := some 3000 } };
     let t := 3000;
     n ≤ 97 ∧ s.flt.shadows = [] ∧ freezing s = false ∧ s.clk.gateAt = some t ∧
     quiet { s with clk := { s.clk with gateAt := none } } = true ∧ get s fClkGreqstNode = n ∧ t + 1000 ≤ s.now ∧
     resetsNothing s bClk 3 = true) := by
  refine ⟨?_, ?_, ?_, ?_, ?_⟩ <;> decide +kernel

theorem test_witness_ImageMeasured :
    (let r : Requester := boss; let s : State := live;
     quiet s = true ∧ served s r rFwImg = true ∧ (on s fFwImgDone = true ∨ on s fKeyCtlLock = true)) ∧
    (let r : Requester := boss; let s : State := set live [(fKeyCtlLock, 0)];
     quiet s = true ∧ served s r rFwImg = true ∧ on s fFwImgDone = false ∧ on s fKeyCtlLock = false) ∧
    (let s : State := { set live [(fFwImgLen, 1)] with fw := { live.fw with measuring := true, imem := [(0, 5), (31, 7)] } };
     quiet s = true ∧ s.fw.measuring = true ∧ eclkRuns s = true ∧ get s fFwUpdstState = 0 ∧ s.flt.shadows = [] ∧
     resetsNothing s bFw 0 = true) ∧
    (let r : Requester := boss; let s : State := live;
     quiet s = true ∧ served s r rFwMreq = true ∧ s.fw.measuring = false ∧ on s fFwMstatBusy = false ∧ get s fFwUpdstState = 0) ∧
    (let s : State := set live [(fFwMstatBusy, 1), (fFwImgLen, 1)];
     quiet s = true ∧ on s fFwMstatBusy = true ∧ eclkRuns s = true) := by
  refine ⟨?_, ?_, ?_, ?_, ?_⟩ <;> decide +kernel

theorem test_witness_BridgeKeeperRuns :
    (let s : State := { set live [(fCoreStepStep, 3), (fFwStatRun, 0), (fFwStatReady, 0), (fFwStatMeasured, 1), (fDtPmstatDone, 1)] with fw := { live.fw with stop := .unreleased }, clk := { live.clk with memInit := true } };
     quiet s = true ∧ releasable s = true) ∧
    (let s : State := set live [(fFwStatReady, 0), (fFwUpdstState, 5)];
     quiet s = true ∧ served s .firmware rFwStat = true ∧ on s fFwStatReady = false ∧ s.sema.moves = [] ∧
     ((s.sema.htm.all fun x => decide (x.2.state ≠ .transit)) = true)) ∧
    (let s : State := live;
     quiet s = true ∧ served s .firmware rFwHbeat = true) ∧
    (let s : State := live; let id := 1;
     quiet s = true ∧ served s (.port id) rFwHbeat = true) ∧
    (let s : State := { set live [(fFwCtlHben, 1), (⟨rFsev bFw, 15, 3⟩, 2)] with now := 20000000 };
     quiet s = true ∧ eclkRuns s = true ∧ on s fFwStatRun = true ∧ s.flt.shadows = [] ∧ resetsNothing s bFw 5 = true ∧
     get s fFwUpdstState ≠ 1 ∧ on s fFwCtlHben = true ∧ s.fw.beatAt + hbLimit s ≤ s.now) ∧
    (let s : State := { set live [(fFwUpdstState, 1), (fFwUpdstDt, 5000), (⟨rFsev bFw, 15, 3⟩, 2)] with now := 20000000 };
     quiet s = true ∧ eclkRuns s = true ∧ on s fFwStatRun = true ∧ s.flt.shadows = [] ∧ resetsNothing s bFw 5 = true ∧
     get s fFwUpdstState = 1 ∧ hbLimit s ≤ (s.now + 2 ^ 40 - get s fFwUpdstDt) % 2 ^ 40) := by
  refine ⟨?_, ?_, ?_, ?_, ?_, ?_⟩ <;> decide +kernel
theorem test_witness_BridgeKeeperRuns_2 :
    (let s : State := set live [(⟨rFsev bFw, 18, 3⟩, 2)];
     quiet s = true ∧ eclkRuns s = true ∧ on s fFwStatRun = true ∧ s.flt.shadows = [] ∧ resetsNothing s bFw 6 = true) := by decide +kernel

theorem test_witness_LiveUpdate :
    (let r : Requester := boss; let s : State := set live [(fKeyMpolLive, 1)];
     quiet s = true ∧ manages s r rFwUpd = true) ∧
    (let s : State := { set live [(fFwUpdstState, 1)] with obs := { live.obs with sncmd := some true } };
     quiet s = true ∧ fwBusy s = true) ∧
    (let s : State := set live [(fFwUpdstState, 1)];
     quiet s = true ∧ get s fFwUpdstState = 1 ∧ eclkRuns s = true ∧ fwBusy s = false) ∧
    (let r : Requester := boss; let s : State := set live [(fFwUpdstState, 2)];
     quiet s = true ∧ manages s r rFwUpd = true ∧ get s fFwUpdstState = 2) ∧
    (let r : Requester := boss; let s : State := live;
     quiet s = true ∧ manages s r rFwUpd = true ∧ get s fFwUpdstState ≠ 2) ∧
    (let s : State := { set live [(fFwUpdstState, 3), (fFwImgLen, 1)] with fw := { live.fw with measuring := true, stop := .update } };
     quiet s = true ∧ s.fw.measuring = true ∧ eclkRuns s = true ∧ get s fFwUpdstState = 3 ∧ s.flt.shadows = [] ∧
     resetsNothing s bFw 0 = true) := by
  refine ⟨?_, ?_, ?_, ?_, ?_, ?_⟩ <;> decide +kernel
theorem test_witness_LiveUpdate_2 :
    (let s : State := { dr (set live [(fFwUpdstState, 4)]) with fw := { live.fw with stop := .update } };
     quiet s = true ∧ s.clk.droop = true ∧ eclkRuns s = true ∧ get s fFwUpdstState = 4) := by decide +kernel

theorem test_witness_FaultRegistersWritten :
    (let r : Requester := boss; let b : Nat := 16;
     let s : State := { set live [(fStatSticky 16, 0x13), (fFirstValid 16, 1), (fFirstSev 16, 3), (fStatFdt 16, 77)] with flt := { live.flt with levels := [(256, 19), (260, 3)], sealedBits := [(16, 1)] } };
     quiet s = true ∧ b < 17 ∧ manages s r (rFstat b) = true) ∧
    (let r : Requester := boss; let b : Nat := 16; let d : Word := 0x1011#64;
     let s : State := { set live [(fStatSticky 16, 0x13), (fFirstValid 16, 1), (fFirstSev 16, 3), (fStatFdt 16, 77)] with flt := { live.flt with levels := [(256, 19), (260, 3)], sealedBits := [(16, 1)] } };
     quiet s = true ∧ b < 17 ∧ manages s r (rFfirst b) = true ∧ nbit d.toNat 4 = true ∧
     (on s (fFirstValid b) && decide (get s (fFirstSev b) = 4)) = false) ∧
    (let r : Requester := boss; let b : Nat := 16; let d : Word := 0x1011#64;
     let s : State := set live [(fFirstValid 16, 1), (fFirstSev 16, 4)];
     quiet s = true ∧ b < 17 ∧ manages s r (rFfirst b) = true ∧
     (nbit d.toNat 4 = false ∨ (on s (fFirstValid b) = true ∧ get s (fFirstSev b) = 4))) ∧
    (let r : Requester := boss; let b : Nat := 4; let d : Word := 0x1011#64; let s : State := live;
     quiet s = true ∧ b < 17 ∧ manages s r (rFsev b) = true ∧ sevBreaks s b d = none) ∧
    (let r : Requester := boss; let b : Nat := 16; let d : Word := 0#64; let s : State := set live [(⟨rKeyNodown 16, 0, 12⟩, 1)];
     quiet s = true ∧ b < 17 ∧ manages s r (rFsev b) = true ∧ sevBreaks s b d ≠ none ∧ s.flt.shadows = []) ∧
    (let r : Requester := boss; let b : Nat := 4; let d : Word := 0#64; let s : State := live;
     quiet s = true ∧ b < 17 ∧ manages s r (rFrct b) = true ∧ rctBreaks s b d = none) := by
  refine ⟨?_, ?_, ?_, ?_, ?_, ?_⟩ <;> decide +kernel
theorem test_witness_FaultRegistersWritten_2 :
    (let r : Requester := boss; let b : Nat := 16; let d : Word := 0#64; let s : State := set live [(⟨rKeyNodown 16, 0, 12⟩, 1)];
     quiet s = true ∧ b < 17 ∧ manages s r (rFrct b) = true ∧ rctBreaks s b d ≠ none ∧ s.flt.shadows = []) ∧
    (let r : Requester := boss; let b : Nat := 4; let d : Word := 0x7ffff0fe#64; let s : State := live;
     quiet s = true ∧ b < 17 ∧ manages s r (rFinj b) = true ∧ b ≠ bClk ∧ (¬ (b = bCore ∧ (wbits d 0 4 = 0 ∨ wbits d 0 4 = 15))) ∧
     (¬ ((b = bTrs ∨ b = bTime) ∧ wbits d 0 4 = 15))) ∧
    (let r : Requester := boss; let b : Nat := 16; let d : Word := 0xfc100f#64;
     let s : State := set live [(⟨rFsev bTrs, 12, 3⟩, 2)];
     quiet s = true ∧ b < 17 ∧ manages s r (rFinj bTrs) = true ∧ wbits d 0 4 = 15 ∧ nbit d.toNat 12 = true ∧ eclkRuns s = true ∧
     s.flt.shadows = [] ∧ resetsNothing s bTrs 4 = true) ∧
    (let r : Requester := boss; let b : Nat := 16; let d : Word := 0x100f#64; let s : State := live;
     quiet s = true ∧ b < 17 ∧ manages s r (rFinj bTime) = true ∧ wbits d 0 4 = 15 ∧ nbit d.toNat 12 = true ∧ s.flt.shadows = [] ∧
     resetsNothing s bTime 5 = true) ∧
    (let r : Requester := boss; let b : Nat := 16; let s : State := live;
     quiet s = true ∧ b < 17 ∧ manages s r (rFinj bClk) = true) ∧
    (let b : Nat := 16;
     let s : State := { live with flt := { live.flt with shadows := [(16, 3000, 4000), (16, 4900, 9000), (3, 3000, 4000)] } };
     quiet s = true ∧ b < 17) := by
  refine ⟨?_, ?_, ?_, ?_, ?_, ?_⟩ <;> decide +kernel

theorem test_witness_FaultsRecorded :
    (let s : State := live; let b : Nat := 16; let src : Nat := 11; let i := 11;
     b < 17 ∧ src < 12 ∧ s.flt.shadows = [] ∧ (b = 2 → src = 2 → anyRetry s = false) ∧ i < 12) ∧
    (let s : State := live; let b : Nat := 16; let src : Nat := 11;
     b < 17 ∧ src < 12 ∧ s.flt.shadows = [] ∧ (b = 2 → src = 2 → anyRetry s = false) ∧ on s (fFirstValid b) = false) ∧
    (let s : State := set live [(fFirstValid 16, 1), (fFirstSrc 16, 3), (fFirstCount 16, 62), (fFirstDetail 16, 99), (fFirstLater 16, 5)];
     let b : Nat := 16; let src : Nat := 11; let i := 0;
     b < 17 ∧ src < 12 ∧ s.flt.shadows = [] ∧ (b = 2 → src = 2 → anyRetry s = false) ∧ on s (fFirstValid b) = true ∧
     on s (fFirstConseq b) = false ∧ i < 12) := by
  refine ⟨?_, ?_, ?_⟩ <;> decide +kernel

theorem test_witness_CountersAndSamples :
    (let r : Requester := boss; let s : State := set live [(fObsCvalValue 0, 4), (fObsCvalValue 510, 3), (fObsCvalValue 511, 9)];
     let first := 510; let last := 511;
     quiet s = true ∧ served s r rObsCcmd = true ∧ first ≤ last ∧ last ≤ 511) ∧
    (let s : State := { set live [(fObsSampEn, 1), (fObsCfg0Samp 3, 1), (fObsRingLog2, 16)] with now := 2 ^ 40 };
     quiet s = true ∧ eclkRuns s = true ∧ on s fObsSampEn = true ∧ nextSample s ≤ s.now ∧
     (frozen s = true ∨ (dueBy s (nextSample s) = false ∧ (frzState s = 1 → nextSample s < s.obs.frzT))) ∧ s.obs.writing = none ∧
     16 + 8 * (sampleWords s).length ≤ ringRoom s) ∧
    (let s : State := { set live [(fObsSampEn, 1), (fObsCfg0Samp 3, 1), (fObsRingLog2, 16), (fObsRheadHead, 65530)] with now := 2 ^ 40 };
     quiet s = true ∧ eclkRuns s = true ∧ on s fObsSampEn = true ∧ nextSample s ≤ s.now ∧
     (frozen s = true ∨ (dueBy s (nextSample s) = false ∧ (frzState s = 1 → nextSample s < s.obs.frzT))) ∧
     (s.obs.writing ≠ none ∨ ringRoom s < 16 + 8 * (sampleWords s).length)) ∧
    (let r : Requester := boss; let s : State := live;
     quiet s = true ∧ manages s r rObsSamp = true) ∧
    (let r : Requester := boss; let s : State := live;
     quiet s = true ∧ manages s r rObsRing = true ∧ on s fObsSampEn = false) ∧
    (let r : Requester := boss; let s : State := set live [(fObsSampEn, 1)];
     quiet s = true ∧ manages s r rObsRing = true ∧ on s fObsSampEn = true) := by
  refine ⟨?_, ?_, ?_, ?_, ?_, ?_⟩ <;> decide +kernel

theorem test_witness_MasterPortResponses :
    (let s : State := { set live [(fObsRingLog2, 12), (fObsRheadHead, 4095), (fObsRingAddr, 2)] with mem := [(8192, 9#8), (8194, 7#8)], obs := { live.obs with writing := some [1#8, 2#8, 0#8] } };
     let bytes := [1#8, 2#8, 0#8];
     quiet s = true ∧ s.clk.inReset = false ∧ Memory.wf s.mem = true ∧ s.obs.writing = some bytes ∧
     bytes.length ≤ 2 ^ ringLog (get s fObsRingLog2)) ∧
    (let s : State := { set live [(⟨rFsev bFw, 21, 3⟩, 2), (fObsRingLog2, 12), (fObsRheadHead, 4095), (fObsRingAddr, 2)] with mem := [(8192, 9#8), (8194, 7#8)], obs := { live.obs with writing := some [1#8, 2#8, 0#8] } };
     let bytes := [1#8, 2#8, 0#8];
     quiet s = true ∧ s.clk.inReset = false ∧ Memory.wf s.mem = true ∧ s.obs.writing = some bytes ∧ s.flt.shadows = [] ∧
     resetsNothing s bFw 7 = true) ∧
    (let s : State := { set live [(fObsTrringLog2, 12), (fObsTrheadHead, 4080), (fObsTrringAddr, 2)] with mem := [(8192, 9#8), (9000, 7#8)], obs := { live.obs with collector := [[1#64, 0x0200000000000000#64, 3#64, 4#64]] } };
     let rc := [1#64, 0x0200000000000000#64, 3#64, 4#64]; let rest := [];
     quiet s = true ∧ s.clk.inReset = false ∧ Memory.wf s.mem = true ∧ s.obs.collector = rc :: rest ∧ rc.length = 4) ∧
    (let s : State := { set live [(fObsTrringLog2, 12), (fObsTrheadHead, 4080), (fObsTrringAddr, 2)] with mem := [(8192, 9#8), (9000, 7#8)], obs := { live.obs with collector := [[1#64, 0x0200000000000000#64, 3#64, 4#64]] } };
     let rc := [1#64, 0x0200000000000000#64, 3#64, 4#64]; let rest := [];
     quiet s = true ∧ s.clk.inReset = false ∧ Memory.wf s.mem = true ∧ s.obs.collector = rc :: rest ∧ s.flt.shadows = [] ∧
     resetsNothing s bFw 7 = true) ∧
    (let s : State := live;
     quiet s = true ∧ s.clk.inReset = false ∧ Memory.wf s.mem = true ∧ s.flt.shadows = [] ∧ resetsNothing s bFw 7 = true) ∧
    (let s : State := oneObj; let t := 7; let n := 5; let i := 5;
     quiet s = true ∧ s.clk.inReset = false ∧ Memory.wf s.mem = true ∧ s.flt.shadows = [] ∧ resetsNothing s bSema 6 = true ∧
     htmIdx s t n = some i ∧ (htmAt s i).state = .resident) := by
  refine ⟨?_, ?_, ?_, ?_, ?_, ?_⟩ <;> decide +kernel

theorem test_witness_FreezeAndThaw :
    (let r : Requester := boss; let s : State := set live [(⟨rObsFrzt, 0, 64⟩, 5000)];
     quiet s = true ∧ served s r rObsFrzcmd = true ∧ frzState s = 0 ∧ s.now ≤ (rd s rObsFrzt).toNat) ∧
    (let r : Requester := boss; let s : State := set live [(⟨rObsFrzt, 0, 64⟩, 4999)];
     quiet s = true ∧ served s r rObsFrzcmd = true ∧ frzState s = 0 ∧ (rd s rObsFrzt).toNat < s.now) ∧
    (let r : Requester := boss; let s : State := set live [(fObsFrzstState, 1)];
     quiet s = true ∧ served s r rObsFrzcmd = true ∧ frzState s = 1) ∧
    (let s : State := { set (waitsAt (some 4984)) [(fObsFrzstState, 1)] with obs := { live.obs with frzT := 5000 } };
     quiet s = true ∧ eclkRuns s = true ∧ frzState s = 1 ∧ s.obs.frzT ≤ s.now ∧ dueBy s s.obs.frzT = true) ∧
    (let s : State := { set (setPort live 7 { Port.zero with st := .up }) [(fObsFrzstState, 1)] with obs := { live.obs with frzT := 5000 } };
     quiet s = true ∧ eclkRuns s = true ∧ frzState s = 1 ∧ s.obs.frzT ≤ s.now ∧ dueBy s s.obs.frzT = false) ∧
    (let s : State := set live [(fObsFrzstState, 2), (fViaFrzMlost 7, 1)];
     quiet s = true ∧ eclkRuns s = true ∧ frzState s = 2 ∧ s.obs.cut = []) := by
  refine ⟨?_, ?_, ?_, ?_, ?_, ?_⟩ <;> decide +kernel
theorem test_witness_FreezeAndThaw_2 :
    (let r : Requester := boss; let s : State := set live [(fObsFrzstState, 3)];
     quiet s = true ∧ served s r rObsFrzcmd = true ∧ frzState s = 3) ∧
    (let s : State := { set live [(fObsFrzstState, 3)] with obs := { live.obs with thawH := some 5000 } }; let h := 5000;
     quiet s = true ∧ eclkRuns s = true ∧ frzState s = 3 ∧ s.obs.thawH = some h ∧ h ≤ s.now) ∧
    (let s : State := { set imported [(fObsFrzstState, 4), (fObsFrzstHoldto, 1)] with obs := { live.obs with thawH := some 5000, frzT := 4600 } };
     let h := 5000;
     quiet s = true ∧ eclkRuns s = true ∧ frzState s = 4 ∧ s.obs.thawH = some h ∧ s.ports = [] ∧ s.lanes = [] ∧
     (∀ l < 64, on s (fTrsLcfgEn l) = false) ∧ s.obs.deferred = [] ∧ s.flt.putOff = []) := by
  refine ⟨?_, ?_, ?_⟩ <;> decide +kernel

theorem test_witness_SnapshotCommands :
    (let r : Requester := boss; let s : State := live;
     quiet s = true ∧ served s r rObsSncmd = true ∧ on s fObsSnstBusy = false ∧ frzState s ≠ 3) ∧
    (let r : Requester := boss; let s : State := set live [(fObsFrzstState, 3), (fFwStatRun, 0)];
     quiet s = true ∧ served s r rObsSncmd = true ∧ on s fObsSnstBusy = false ∧ frzState s = 3 ∧ fwRuns s = false) ∧
    (let r : Requester := boss; let s : State := set live [(fObsFrzstState, 3)];
     quiet s = true ∧ served s r rObsSncmd = true ∧ on s fObsSnstBusy = false ∧ frzState s = 3 ∧ fwRuns s = true) ∧
    (let s : State := { set live [(fObsFrzstState, 3)] with obs := { live.obs with sncmd := some false } };
     quiet s = true ∧ eclkRuns s = true ∧ fwRuns s = true ∧ Memory.wf s.mem = true ∧ s.obs.sncmd = some false) ∧
    (let s : State := { set imported [(fObsFrzstState, 3), (fObsSnargLen, 3), (fObsSnargAddr, 2)] with mem := [(128, 9#8), (223, 8#8), (224, 7#8)], obs := { live.obs with sncmd := some true } };
     quiet s = true ∧ eclkRuns s = true ∧ fwRuns s = true ∧ Memory.wf s.mem = true ∧ s.obs.sncmd = some true ∧
     (hangRecords s).length + 1 ≤ max 1 (get s fObsSnargLen)) := by
  refine ⟨?_, ?_, ?_, ?_, ?_⟩ <;> decide +kernel

theorem test_witness_MarionetteActs :
    (let r : Requester := boss; let s : State := set oneObj [(fMarArg0Tenant, 7), (fMarArg0Obj, 5), (⟨rMarArg1, 0, 64⟩, 9)];
     let i := 5; let x := obj7 .count 0 6; let key := slotKey (htmAt s i).slice (htmAt s i).slot;
     quiet s = true ∧ manages s r rMarCmd = true ∧ on s fMarStBusy = false ∧ degradedOn s = false ∧
     htmIdx s (get s fMarArg0Tenant) (get s fMarArg0Obj) = some i ∧ (htmAt s i).state = .resident ∧ slotAt s key = some x ∧
     x.poison = false ∧ (x.paired && s.flt.differ.contains key) = false ∧ setvalBad x.kind x.param (rd s rMarArg1) = false ∧
     x.waiters = [] ∧ x.tries = [] ∧ x.paused = false ∧ mirrored s x.tenant = false ∧ noCredit s (sliceOf key) = false) ∧
    (let r : Requester := boss;
     let s : State := set (withObj live (obj7 .pool 3 2)) [(fMarArg0Tenant, 7), (fMarArg0Obj, 5), (⟨rMarArg1, 0, 64⟩, 9)];
     let i := 5; let x := obj7 .pool 3 2; let key := slotKey (htmAt s i).slice (htmAt s i).slot;
     quiet s = true ∧ manages s r rMarCmd = true ∧ on s fMarStBusy = false ∧ degradedOn s = false ∧
     htmIdx s (get s fMarArg0Tenant) (get s fMarArg0Obj) = some i ∧ (htmAt s i).state = .resident ∧ slotAt s key = some x ∧
     x.poison = false ∧ (x.paired && s.flt.differ.contains key) = false ∧ setvalBad x.kind x.param (rd s rMarArg1) = true ∧
     x.paused = false ∧ mirrored s x.tenant = false ∧ noCredit s (sliceOf key) = false) ∧
    (let r : Requester := boss;
     let s : State := set (withObj live { obj7 .count 0 6 with paused := true }) [(fMarArg0Tenant, 7), (fMarArg0Obj, 5), (⟨rMarArg1, 0, 64⟩, 9)];
     let i := 5; let x := { obj7 .count 0 6 with paused := true }; let key := slotKey (htmAt s i).slice (htmAt s i).slot;
     quiet s = true ∧ manages s r rMarCmd = true ∧ on s fMarStBusy = false ∧ degradedOn s = false ∧
     htmIdx s (get s fMarArg0Tenant) (get s fMarArg0Obj) = some i ∧ (htmAt s i).state = .resident ∧ slotAt s key = some x ∧
     x.poison = false ∧ (x.paired && s.flt.differ.contains key) = false ∧ x.paused = true ∧ mirrored s x.tenant = false ∧
     noCredit s (sliceOf key) = false) ∧
    (let r : Requester := boss; let s : State := set waitsOut [(fMarArg0Agent, 10)]; let i := outItem; let c := waitCmd;
     quiet s = true ∧ manages s r rMarCmd = true ∧ on s fMarStBusy = false ∧ degradedOn s = false ∧
     blockedHead s (get s fMarArg0Agent) (get s fMarArg0Queue) = some i ∧ i.cmd = some c ∧ i.st = .out ∧ frozen s = false ∧
     (isLane c.words = true ∨ pDie c.words = dieOf s)) ∧
    (let r : Requester := boss; let s : State := set live [(fMarArg0Agent, 10)];
     quiet s = true ∧ manages s r rMarCmd = true ∧ on s fMarStBusy = false ∧ degradedOn s = false ∧
     blockedHead s (get s fMarArg0Agent) (get s fMarArg0Queue) = none) ∧
    (let r : Requester := boss; let s : State := set waitsOut [(fMarArg0Slice, 3), (⟨rMarArg1, 0, 64⟩, 2)];
     let key := slotKey 3 9; let w := waiter waitCmd 8 2; let x := waited;
     quiet s = true ∧ manages s r rMarCmd = true ∧ on s fMarStBusy = false ∧ degradedOn s = false ∧
     ((allWaiters s).find? (fun x => decide (x.2.table = get s fMarArg0Slice) && decide (x.2.entry = wbits (rd s rMarArg1) 0 10)) = some (key, w)) ∧
     slotAt s key = some x) := by
  refine ⟨?_, ?_, ?_, ?_, ?_, ?_⟩ <;> decide +kernel

theorem test_witness_TraceRingWrites :
    (let r : Requester := boss; let s : State := set live [(fObsTrctlEn, 1), (fObsTrheadHead, 64)];
     quiet s = true ∧ served s r rObsTrring = true ∧ on s fObsTrctlEn = true) ∧
    (let r : Requester := boss; let s : State := set live [(fObsTrheadHead, 64), (fObsTrtailTail, 32)];
     quiet s = true ∧ served s r rObsTrring = true ∧ on s fObsTrctlEn = false ∧ isManager s r = true) := by
  refine ⟨?_, ?_⟩ <;> decide +kernel

theorem test_witness_GateRequestsIgnored :
    (let r : Requester := Requester.port 9; let n : Nat := 98; let s : State := set live [(fClkGreqstBusy, 1)];
     quiet s = true ∧ served s r rClkGreq = true ∧ n < 128 ∧ on s fClkGreqstBusy = true) ∧
    (let r : Requester := Requester.port 9; let n : Nat := 98; let s : State := live;
     quiet s = true ∧ served s r rClkGreq = true ∧ n < 128 ∧ on s fClkGreqstBusy = false ∧ freezing s = false ∧ 97 < n) ∧
    (let r : Requester := Requester.port 9; let n : Nat := 127; let s : State := live;
     quiet s = true ∧ served s r rClkGreq = true ∧ n < 128 ∧ on s fClkGreqstBusy = false ∧ freezing s = false ∧ 97 < n) := by
  refine ⟨?_, ?_, ?_⟩ <;> decide +kernel

theorem test_witness_BackingRegionHeld :
    (let r : Requester := boss; let t : Nat := 7; let d : Word := 0x2001#64;
     let s : State := set (withObj live (obj7 .count 0 6) .backed) [(fSemaBackEn 7, 1)];
     quiet s = true ∧ t < 256 ∧ served s r (rSemaBack t) = true ∧ s.flt.shadows = [] ∧ resetsNothing s bSema 8 = true ∧
     (∃ x ∈ allocatedOf s t, x.2.state = .backed) ∧
     ((on s (fSemaBackEn t) = true ∧ wbits d 0 1 = 0) ∨ wbits d 12 36 ≠ get s (fSemaBackAddr t))) := by decide +kernel

theorem test_witness_SyncMessagesActed :
    (let n : Nat := 0; let h : Hdr := fromZero; let m : Sync := resp 2; let rx : Nat := 100400; let s : State := torus 2;
     let theta := thetaOf m.t1 m.t2 m.t3 (rx - get s (fDtPortcalRxlat n));
     delivers s n h = true ∧ s.dt.answered = false ∧ m.xseq = s.dt.xseq ∧ (parentOf s).map (·.1) = some n ∧ s.flt.shadows = [] ∧
     alState s = alWait ∧ m.aligned = true ∧ -stepThr s < theta ∧ theta < stepThr s) ∧
    (let n : Nat := 0; let h : Hdr := fromZero; let m : Sync := resp 40000; let rx : Nat := 100400; let s : State := torus 2;
     let theta := thetaOf m.t1 m.t2 m.t3 (rx - get s (fDtPortcalRxlat n));
     delivers s n h = true ∧ s.dt.answered = false ∧ m.xseq = s.dt.xseq ∧ (parentOf s).map (·.1) = some n ∧ s.flt.shadows = [] ∧
     alState s = alWait ∧ m.aligned = true ∧ stepThr s ≤ theta ∧ on s fDtStatStepped = false) ∧
    (let n : Nat := 0; let h : Hdr := fromZero; let m : Sync := resp (-40000); let rx : Nat := 100400;
     let s : State := set (torus 2) [(⟨rFsev bTime, 6, 3⟩, 2)];
     let theta := thetaOf m.t1 m.t2 m.t3 (rx - get s (fDtPortcalRxlat n));
     delivers s n h = true ∧ s.dt.answered = false ∧ m.xseq = s.dt.xseq ∧ (parentOf s).map (·.1) = some n ∧ s.flt.shadows = [] ∧
     alState s = alWait ∧ m.aligned = true ∧ theta ≤ -stepThr s ∧ resetsNothing s bTime 2 = true) ∧
    (let n : Nat := 0; let h : Hdr := fromZero; let m : Sync := resp 4; let rx : Nat := 100400; let s : State := torus 3 6;
     let theta := thetaOf m.t1 m.t2 m.t3 (rx - get s (fDtPortcalRxlat n));
     delivers s n h = true ∧ s.dt.answered = false ∧ m.xseq = s.dt.xseq ∧ (parentOf s).map (·.1) = some n ∧ s.flt.shadows = [] ∧
     alState s = alFine ∧ (4 < theta.natAbs ∨ s.dt.good < 7)) ∧
    (let n : Nat := 0; let h : Hdr := fromZero; let m : Sync := resp (-4); let rx : Nat := 100400;
     let s : State := { torus 3 7 with span := { live.span with aligned := [1] } };
     let theta := thetaOf m.t1 m.t2 m.t3 (rx - get s (fDtPortcalRxlat n));
     delivers s n h = true ∧ s.dt.answered = false ∧ m.xseq = s.dt.xseq ∧ (parentOf s).map (·.1) = some n ∧ s.flt.shadows = [] ∧
     alState s = alFine ∧ theta.natAbs ≤ 4 ∧ 7 ≤ s.dt.good ∧ s.span.aligned.contains (dieOf s) = true ∧
     (isMaster s = true ∨ (masterRoute s).any (isBroken s) = false)) ∧
    (let n : Nat := 0; let h : Hdr := fromZero; let m : Sync := resp 16; let rx : Nat := 100400; let s : State := torus 4;
     let theta := thetaOf m.t1 m.t2 m.t3 (rx - get s (fDtPortcalRxlat n));
     delivers s n h = true ∧ s.dt.answered = false ∧ m.xseq = s.dt.xseq ∧ (parentOf s).map (·.1) = some n ∧ s.flt.shadows = [] ∧
     alState s = alAligned ∧ theta.natAbs ≤ get s fDtAlctlDriftthr ∧ theta.natAbs ≤ 64) := by
  refine ⟨?_, ?_, ?_, ?_, ?_, ?_⟩ <;> decide +kernel
theorem test_witness_SyncMessagesActed_2 :
    (let n : Nat := 0; let h : Hdr := fromZero; let m : Sync := resp 65; let rx : Nat := 100400; let s : State := torus 4;
     let theta := thetaOf m.t1 m.t2 m.t3 (rx - get s (fDtPortcalRxlat n));
     delivers s n h = true ∧ s.dt.answered = false ∧ m.xseq = s.dt.xseq ∧ (parentOf s).map (·.1) = some n ∧ s.flt.shadows = [] ∧
     alState s = alAligned ∧ 64 < theta.natAbs ∧ on s fDtStatOob = false ∧ resetsNothing s bTime 3 = true ∧
     resetsNothing s bTime 4 = true) ∧
    (let n : Nat := 0; let h : Hdr := ⟨2, 0, 7, 0, 0⟩; let s : State := master;
     let others := (members s).filter fun d => decide (d ≠ dieOf s);
     delivers s n h = true ∧ isMaster s = true ∧ alState s = alGather ∧ h.src < 64 ∧
     (∃ d ∈ others, d ≠ h.src ∧ nbit (rd s rDtHeard).toNat d = false)) ∧
    (let n : Nat := 0; let h : Hdr := ⟨2, 0, 7, 0, 0⟩; let s : State := set master [(⟨rDtHeard, 1, 1⟩, 1), (⟨rDtHeard, 3, 1⟩, 1)];
     let others := (members s).filter fun d => decide (d ≠ dieOf s);
     delivers s n h = true ∧ isMaster s = true ∧ alState s = alGather ∧ h.src < 64 ∧
     (∀ d ∈ others, d < 64 ∧ (d = h.src ∨ nbit (rd s rDtHeard).toNat d = true)) ∧
     (∀ d ∈ others, inReach s d = false ∧ s.span.aligned.contains d = false)) := by
  refine ⟨?_, ?_, ?_⟩ <;> decide +kernel

theorem test_witness_AlignmentAdvances :
    (let r : Requester := boss; let s : State := live;
     quiet s = true ∧ manages s r rDtCmd = true ∧ freezing s = false ∧ alState s = alIdle ∧ spanMode s = 0) ∧
    (let r : Requester := boss; let s : State := set live [(fCoreSpancfgMode, 1), (fCoreSpancfgXs, 1)];
     quiet s = true ∧ manages s r rDtCmd = true ∧ freezing s = false ∧ alState s = alIdle ∧ spanMode s ≠ 0 ∧ isMaster s = true ∧
     2 ≤ (members s).length) ∧
    (let r : Requester := boss; let s : State := torus 0;
     quiet s = true ∧ manages s r rDtCmd = true ∧ freezing s = false ∧ alState s = alIdle ∧ spanMode s ≠ 0 ∧ isMaster s = false) ∧
    (let s : State := { torus 4 with now := 20000000 }; let k := 64000; let p := 0; let d := 0;
     quiet s = true ∧ period s = some k ∧ parentOf s = some (p, d) ∧ s.dt.lastReq + k ≤ s.now ∧ isUp s p = true ∧
     eclkRuns s = true) ∧
    (let s : State := { master with now := 100000000000 };
     quiet s = true ∧ alState s = alGather ∧ s.dt.alignAt + glimOf s ≤ s.now ∧
     (∀ d ∈ members s, d = dieOf s ∨ (inReach s d = false ∧ s.span.aligned.contains d = false))) ∧
    (let s : State := { torus 3 with now := 10000000000 };
     quiet s = true ∧ alState s ≠ alIdle ∧ alState s ≠ alFailed ∧ s.span.aligned.contains (dieOf s) = false ∧
     s.dt.alignAt + us (100 * max 1 (get s fDtAlctlAlim)) ≤ s.now ∧ s.flt.shadows = [] ∧ resetsNothing s bTime 2 = true) := by
  refine ⟨?_, ?_, ?_, ?_, ?_, ?_⟩ <;> decide +kernel
theorem test_witness_AlignmentAdvances_2 :
    (let s : State := { live with dt := { live.dt with slew := -5 } };
     quiet s = true ∧ s.dt.slew ≠ 0 ∧ s.dt.lastSlew + 2 ^ max 4 (min 10 (get s fDtAlctlSlew)) ≤ s.now) := by decide +kernel

theorem test_witness_OffsetsAndReference :
    (let r : Requester := boss; let s : State := live;
     quiet s = true ∧ manages s r rDtCmd = true ∧ on s fDtPmstatBusy = false ∧ freezing s = false) ∧
    (let s : State := { live with dt := { live.dt with measure := some (some 5) } };
     let probes : List (Nat × List (Nat × Nat × Nat)) := []; let late := unanswered s probes;
     quiet s = true ∧ s.dt.measure ≠ none ∧ (∀ x ∈ s.net.piers, x.pier < 2048) ∧ late ≠ [] ∧ s.now < s.dt.measAt + 10000) ∧
    (let s : State := { live with dt := { live.dt with measure := some (some 5) } };
     let probes : List (Nat × List (Nat × Nat × Nat)) := [(5, List.replicate 16 (100, 160, 220))];
     let late := unanswered s probes;
     quiet s = true ∧ s.dt.measure ≠ none ∧ (∀ x ∈ s.net.piers, x.pier < 2048) ∧
     (late = [] ∨ (s.dt.measAt + 10000 ≤ s.now ∧ s.flt.shadows = [] ∧ resetsNothing s bTime 1 = true))) ∧
    (let s : State := { live with now := 20000, dt := { live.dt with measure := some (some 5) } }; let p := 5;
     let x : PierNet := ⟨5, 5, [(12, 20)], false⟩;
     quiet s = true ∧ pierNet s p = some x ∧ measuring s x = true ∧ p < 2048 ∧ s.dt.measAt + 10000 ≤ s.now ∧
     s.dt.failed.contains p = false ∧ s.flt.shadows = [] ∧ resetsNothing s bTime 1 = true) ∧
    (let s : State := setPier live 3 { Pier.zero with stopped := true }; let p := 3;
     let x : PierNet := ⟨3, 3, [(10, 20), (11, 20)], true⟩;
     quiet s = true ∧ pierNet s p = some x) ∧
    (let s : State := live;
     quiet s = true ∧ s.clk.inReset = false) := by
  refine ⟨?_, ?_, ?_, ?_, ?_, ?_⟩ <;> decide +kernel
theorem test_witness_OffsetsAndReference_2 :
    (let s : State := live;
     quiet s = true ∧ on s fDtStatLock = true ∧ on s fDtStatHoldover = false ∧ s.flt.shadows = [] ∧ resetsNothing s bTime 0 = true) ∧
    (let s : State := set live [(fDtStatHoldover, 1)];
     quiet s = true) := by
  refine ⟨?_, ?_⟩ <;> decide +kernel

theorem test_witness_GroupKnowledge :
    (let n : Nat := 0; let s : State := torus 4; let h : Hdr := ⟨0, 1, 7, 1, 0⟩;
     n < 8 ∧ quiet s = true ∧ delivers s n h = true ∧ isNewer (epochOf s h.tenant) h.epoch = true ∧ mirrorOn s = false ∧
     boundAgents s h.tenant = [] ∧ s.lanes = [] ∧ (∀ l < 64, get s (fTrsLcfgTenant l) ≠ h.tenant) ∧ s.abc.ctxs = [] ∧
     s.sema.slots = []) ∧
    (let n : Nat := 0; let s : State := torus 4; let h : Hdr := ⟨0, 1, 7, 0, 0⟩;
     n < 8 ∧ quiet s = true ∧ delivers s n h = true ∧ isNewer (epochOf s h.tenant) h.epoch = false) ∧
    (let n : Nat := 0; let s : State := set (torus 3) [(⟨rCoreLost, 0, 1⟩, 1)]; let m : Notice := ⟨0, some 2, 6, 44⟩; let p := 2;
     n < 8 ∧ quiet s = true ∧ eclkRuns s = true ∧ isUp s n = true ∧ s.span.seen.contains (m.origin, m.number) = false ∧
     settled s = true ∧ m.origin ≠ dieOf s ∧ m.port = some p) ∧
    (let n : Nat := 0; let s : State := set (torus 3) [(⟨rCoreLost, 0, 1⟩, 1)]; let m : Notice := ⟨0, none, 4, 44⟩;
     n < 8 ∧ quiet s = true ∧ eclkRuns s = true ∧ isUp s n = true ∧ s.span.seen.contains (m.origin, m.number) = false ∧
     settled s = true ∧ m.origin ≠ dieOf s ∧ m.port = none ∧ m.state = alAligned ∧ s.span.aligned.contains (dieOf s) = false) ∧
    (let n : Nat := 0; let s : State := { torus 3 with span := { live.span with seen := [(0, 44)] } };
     let m : Notice := ⟨0, some 2, 6, 44⟩;
     n < 8 ∧ quiet s = true ∧ s.span.seen.contains (m.origin, m.number) = true) ∧
    (let n : Nat := 0; let s : State := { set (torus 4) [(fObsFrzstState, 2)] with obs := { live.obs with cut := [0, 1] } };
     n < 8 ∧ quiet s = true ∧ eclkRuns s = true ∧ freezing s = true ∧ isUp s n = true ∧ s.obs.cut.contains n = true ∧
     on s (fViaFrzMlost n) = false) := by
  refine ⟨?_, ?_, ?_, ?_, ?_, ?_⟩ <;> decide +kernel
theorem test_witness_GroupKnowledge_2 :
    (let n : Nat := 0;
     let s : State := { set (torus 4) [(fObsFrzstState, 2)] with now := 20000, obs := { live.obs with cut := [0, 1] } };
     n < 8 ∧ quiet s = true ∧ eclkRuns s = true ∧ freezing s = true ∧ s.obs.cut.contains n = true ∧ s.obs.frzT + 10000 ≤ s.now ∧
     s.flt.shadows = [] ∧ resetsNothing s (bVia n) 7 = true) := by decide +kernel

set_option maxRecDepth 20000 in
theorem test_witness_FlitsReceived :
    (let n : Nat := 1; let cw : BitVec 1360 := badCw; let s : State := torus 4; let x := portSt s n;
     n < 8 ∧ quiet s = true ∧ eclkRuns s = true ∧ x.st = .up ∧ x.locked = true ∧ alignDue x = false ∧
     rsDecode (symbolsOf 136 cw.toNat) = none ∧ x.resend = [] ∧ x.replay = [] ∧ x.mark = none ∧ x.notes = [] ∧ x.txOpen = none ∧
     x.sent = [] ∧ x.owed = [] ∧ (x.txCw + 1) % 16384 ≠ 0) ∧
    (let n : Nat := 1; let cw : BitVec 1360 := codewordOf dataBits; let s : State := torus 4;
     let data := symbolsOf 128 (dataBits + 2 ^ 1256 * crcOf 157 dataBits); let x := portSt s n; let flit := ofSymbols data;
     n < 8 ∧ quiet s = true ∧ eclkRuns s = true ∧ x.st = .up ∧ x.locked = true ∧ alignDue x = false ∧
     rsDecode (symbolsOf 136 cw.toNat) = some (data, []) ∧ frozen s = false ∧ s.flt.shadows = [] ∧
     resetsNothing s (bVia n) 4 = true ∧ x.replay = [] ∧ x.resend = [] ∧ crcOf 157 flit = flit / 2 ^ 1256 ∧ flit % 16 = 1 ∧
     flit.testBit 24 = false) ∧
    (let n : Nat := 1;
     let s : State := setPort (torus 4) 1 { Port.zero with st := .up, replay := [⟨⟨1, 2, 0, []⟩, 1, 4800⟩, tried 7] }; let a := 2;
     let i := 0; let x := portSt s n;
     n < 8 ∧ quiet s = true ∧ eclkRuns s = true ∧ isUp s n = true ∧
     ((x.replay.findIdx? fun r => decide (r.flit.seq = a)) = some i) ∧ x.replay.drop (i + 1) ≠ [] ∧
     (((x.replay.drop (i + 1)).all fun r => decide (r.attempts < 8)) = true)) ∧
    (let n : Nat := 1; let s : State := torus 4; let x := portSt s n;
     n < 8 ∧ quiet s = true ∧ eclkRuns s = true ∧ (x.st = .up ∨ x.st = .init)) ∧
    (let n : Nat := 1; let cw : BitVec 1360 := alignCodeword 4;
     let s : State := setPort (torus 4) 1 { Port.zero with st := .up, locked := true, missed := 3, rxCw := 63 };
     let x := portSt s n;
     n < 8 ∧ quiet s = true ∧ eclkRuns s = true ∧ (x.st = .up ∨ x.st = .init) ∧ alignDue x = true ∧
     cw = alignCodeword (linkLanes s n)) ∧
    (let n : Nat := 1; let s : State := setPort (torus 4) 1 { Port.zero with st := .up, locked := true, missed := 3 };
     let x := portSt s n;
     n < 8 ∧ quiet s = true ∧ eclkRuns s = true ∧ (x.st = .up ∨ x.st = .init) ∧ x.locked = true ∧ x.missed = 3) := by
  refine ⟨?_, ?_, ?_, ?_, ?_, ?_⟩ <;> decide +kernel
set_option maxRecDepth 20000 in
theorem test_witness_FlitsReceived_2 :
    (let n : Nat := 1; let s : State := setPort (torus 4) 1 { Port.zero with st := .up, locked := true, missed := 2 };
     let x := portSt s n;
     n < 8 ∧ quiet s = true ∧ eclkRuns s = true ∧ (x.st = .up ∨ x.st = .init) ∧ x.missed < 3) := by decide +kernel

theorem test_witness_LinksGoDown :
    (let n : Nat := 7; let s : State := setPort live 7 { Port.zero with st := .up, replay := [tried 8] }; let x := portSt s n;
     n < 8 ∧ quiet s = true ∧ eclkRuns s = true ∧ settled s = true ∧ s.flt.shadows = [] ∧ resetsNothing s (bVia n) 0 = true ∧
     resetsNothing s (bVia n) 1 = true ∧ x.st = .up ∧
     ((x.replay.any fun y => decide (8 ≤ y.attempts) || (!frozen s && decide (y.first + 2000 ≤ s.now))) = true)) ∧
    (let n : Nat := 7; let s : State := port .up; let x := portSt s n;
     n < 8 ∧ quiet s = true ∧ eclkRuns s = true ∧ settled s = true ∧ s.flt.shadows = [] ∧ resetsNothing s (bVia n) 0 = true ∧
     resetsNothing s (bVia n) 1 = true ∧ x.st = .up ∧ x.lastGood + 2000 ≤ s.now) ∧
    (let n : Nat := 7; let s : State := setPort live 7 { Port.zero with st := .up }; let x := portSt s n;
     n < 8 ∧ quiet s = true ∧ eclkRuns s = true ∧ settled s = true ∧ s.flt.shadows = [] ∧ resetsNothing s (bVia n) 0 = true ∧
     resetsNothing s (bVia n) 1 = true ∧ x.st = .up ∧ x.locked = false ∧ x.unlockedAt + 1000 ≤ s.now) ∧
    (let n : Nat := 7; let r : Requester := boss; let s : State := port .up;
     n < 8 ∧ quiet s = true ∧ eclkRuns s = true ∧ settled s = true ∧ s.flt.shadows = [] ∧ resetsNothing s (bVia n) 0 = true ∧
     resetsNothing s (bVia n) 1 = true ∧ manages s r (rViaCtl n) = true ∧ on s (fViaCtlEn n) = true ∧ linkActive s n = true) ∧
    (let n : Nat := 7;
     let s : State := set (port .init) [(fViaTctlPmaLim 7, 1), (fViaTctlAlignLim 7, 1), (fViaTctlInitLim 7, 1), (fViaTctlTries 7, 2)];
     let c := Instr.initLim 7; let st := LinkSt.init; let f := fViaTctlInitLim 7; let unit := 1000; let x := portSt s n;
     n < 8 ∧ quiet s = true ∧ eclkRuns s = true ∧ settled s = true ∧ s.flt.shadows = [] ∧ resetsNothing s (bVia n) 0 = true ∧
     resetsNothing s (bVia n) 1 = true ∧
     ((c = Instr.pmaLim n ∧ st = .pmaTune ∧ f = fViaTctlPmaLim n ∧ unit = 1000000) ∨ (c = Instr.alignLim n ∧ st = .align ∧ f = fViaTctlAlignLim n ∧ unit = 1000) ∨ (c = Instr.initLim n ∧ st = .init ∧ f = fViaTctlInitLim n ∧ unit = 1000)) ∧
     x.st = st ∧ x.since + unit * max 1 (get s f) ≤ s.now ∧ x.fails + 1 < max 1 (get s (fViaTctlTries n))) ∧
    (let n : Nat := 7;
     let s : State := set (port .init) [(fViaTctlPmaLim 7, 1), (fViaTctlAlignLim 7, 1), (fViaTctlInitLim 7, 1), (fViaTctlTries 7, 1)];
     let c := Instr.initLim 7; let st := LinkSt.init; let f := fViaTctlInitLim 7; let unit := 1000; let x := portSt s n;
     n < 8 ∧ quiet s = true ∧ eclkRuns s = true ∧ settled s = true ∧ s.flt.shadows = [] ∧ resetsNothing s (bVia n) 0 = true ∧
     resetsNothing s (bVia n) 1 = true ∧
     ((c = Instr.pmaLim n ∧ st = .pmaTune ∧ f = fViaTctlPmaLim n ∧ unit = 1000000) ∨ (c = Instr.alignLim n ∧ st = .align ∧ f = fViaTctlAlignLim n ∧ unit = 1000) ∨ (c = Instr.initLim n ∧ st = .init ∧ f = fViaTctlInitLim n ∧ unit = 1000)) ∧
     x.st = st ∧ x.since + unit * max 1 (get s f) ≤ s.now ∧ max 1 (get s (fViaTctlTries n)) ≤ x.fails + 1) := by
  refine ⟨?_, ?_, ?_, ?_, ?_, ?_⟩ <;> decide +kernel
theorem test_witness_LinksGoDown_2 :
    (let n : Nat := 0; let s : State := torus 4;
     n < 8 ∧ quiet s = true ∧ eclkRuns s = true ∧ s.flt.shadows = [] ∧ (portSt s n).st = .up ∧ mirrorOn s = false ∧
     resetsNothing s (bVia n) 0 = true) := by decide +kernel

theorem test_witness_LinksTrain :
    (let n : Nat := 7; let s : State := port .pmaTune; let x := portSt s n;
     n < 8 ∧ quiet s = true ∧ eclkRuns s = true ∧ settled s = true ∧ s.flt.shadows = [] ∧
     (∀ k < 4, resetsNothing s (bVia n) k = true) ∧ x.st = .pmaTune) ∧
    (let n : Nat := 7; let s : State := setPort live 7 { Port.zero with st := .align, locked := true, txCw := 63 };
     let x := portSt s n;
     n < 8 ∧ quiet s = true ∧ eclkRuns s = true ∧ settled s = true ∧ s.flt.shadows = [] ∧
     (∀ k < 4, resetsNothing s (bVia n) k = true) ∧ x.st = .align ∧ (x.txCw + 1) % 64 = 0) ∧
    (let n : Nat := 7; let s : State := set (port .align) [(fViaCtlW2En 7, 0)]; let x := portSt s n;
     n < 8 ∧ quiet s = true ∧ eclkRuns s = true ∧ settled s = true ∧ s.flt.shadows = [] ∧
     (∀ k < 4, resetsNothing s (bVia n) k = true) ∧ x.st = .align ∧ on s (fViaCtlW2En n) = false) ∧
    (let n : Nat := 7; let s : State := set (port .align) [(fViaCtlW2En 7, 1)]; let w : Bool := true; let x := portSt s n;
     n < 8 ∧ quiet s = true ∧ eclkRuns s = true ∧ settled s = true ∧ s.flt.shadows = [] ∧
     (∀ k < 4, resetsNothing s (bVia n) k = true) ∧ x.st = .align ∧ (w = true → on s (fViaCtlW2En n) = true)) ∧
    (let n : Nat := 7; let s : State := port .init; let f : InitFlit := ⟨0, 0, 0, 0, false, false, false, false, false⟩;
     let x := portSt s n;
     n < 8 ∧ quiet s = true ∧ eclkRuns s = true ∧ settled s = true ∧ s.flt.shadows = [] ∧
     (∀ k < 4, resetsNothing s (bVia n) k = true) ∧ x.st = .init ∧ initMatches s n f = true) ∧
    (let n : Nat := 7; let s : State := port .init; let f : InitFlit := ⟨1, 0, 0, 0, false, false, false, false, false⟩;
     let x := portSt s n;
     n < 8 ∧ quiet s = true ∧ eclkRuns s = true ∧ settled s = true ∧ s.flt.shadows = [] ∧
     (∀ k < 4, resetsNothing s (bVia n) k = true) ∧ x.st = .init ∧ initMatches s n f = false) := by
  refine ⟨?_, ?_, ?_, ?_, ?_, ?_⟩ <;> decide +kernel
theorem test_witness_LinksTrain_2 :
    (let n : Nat := 7; let s : State := setPort live 7 { Port.zero with st := .init, initOk := true, locked := true };
     let x := portSt s n;
     n < 8 ∧ quiet s = true ∧ eclkRuns s = true ∧ settled s = true ∧ s.flt.shadows = [] ∧
     (∀ k < 4, resetsNothing s (bVia n) k = true) ∧ x.st = .init ∧ x.initOk = true) ∧
    (let n : Nat := 7; let s : State := set (port .down) [(fViaCtlAuto 7, 1), (fViaTctlRehold 7, 1)]; let x := portSt s n;
     n < 8 ∧ quiet s = true ∧ eclkRuns s = true ∧ settled s = true ∧ s.flt.shadows = [] ∧
     (∀ k < 4, resetsNothing s (bVia n) k = true) ∧ x.st = .down ∧ on s (fViaCtlEn n) = true ∧ on s (fViaCtlAuto n) = true ∧
     on s (fViaCtlDown n) = false ∧ x.since + 1000 * max 1 (get s (fViaTctlRehold n)) ≤ s.now) ∧
    (let n : Nat := 7; let r : Requester := boss; let s : State := set live [(⟨rClkGopen1, 32, 1⟩, 0)]; let d : Word := 0x1b#64;
     let x := portSt s n;
     n < 8 ∧ quiet s = true ∧ eclkRuns s = true ∧ settled s = true ∧ s.flt.shadows = [] ∧
     (∀ k < 4, resetsNothing s (bVia n) k = true) ∧ manages s r (rViaCtl n) = true ∧ on s (fViaCtlEn n) = false ∧
     (x.st = .off ∨ x.st = .failed) ∧ wbits d 0 1 = 1 ∧ wbits d 5 1 = 0) ∧
    (let n : Nat := 7; let r : Requester := boss; let s : State := port .up; let d : Word := 0x10#64;
     n < 8 ∧ quiet s = true ∧ eclkRuns s = true ∧ settled s = true ∧ s.flt.shadows = [] ∧
     (∀ k < 4, resetsNothing s (bVia n) k = true) ∧ manages s r (rViaCtl n) = true ∧ on s (fViaCtlEn n) = true ∧
     linkActive s n = true ∧ wbits d 0 1 = 0 ∧ wbits d 5 1 = 0) := by
  refine ⟨?_, ?_, ?_, ?_⟩ <;> decide +kernel

theorem test_witness_EntriesTaken :
    (let p : Nat := 3; let ag : Nat := 1; let q : Nat := 3; let a : Nat := 11; let n : PierNet := p3;
     let s : State := setQueue live 11 3 { Queue.zero with items := List.replicate 16 (item (addPkt 1)) };
     quiet s = true ∧ pierRuns s = true ∧ q < 4 ∧ pierNet s p = some n ∧ agentAt n ag = some a ∧ (pierSt s p).stopped = false ∧
     aqReady s a q = false) ∧
    (let p : Nat := 3; let ag : Nat := 1; let q : Nat := 3; let a : Nat := 11; let n : PierNet := p3;
     let d : BitVec 256 := 0x10#256; let s : State := live; let x := queueOf s a q;
     let ws := x.part ++ [d.extractLsb' 0 64, d.extractLsb' 64 64, d.extractLsb' 128 64, d.extractLsb' 192 64];
     let ext := decide (16 ≤ pOpcode ws) && decide (pOpcode ws ≤ 23);
     quiet s = true ∧ pierRuns s = true ∧ q < 4 ∧ pierNet s p = some n ∧ agentAt n ag = some a ∧ (pierSt s p).stopped = false ∧
     aqReady s a q = true ∧ ext = true ∧ ws.length ≠ 16) ∧
    (let p : Nat := 3; let ag : Nat := 1; let q : Nat := 3; let a : Nat := 11; let n : PierNet := p3; let d : BitVec 256 := 7#256;
     let s : State := setQueue live 11 3 { Queue.zero with part := packet 16 0 0 5 0 ++ packet 0 0 0 0 0 ++ packet 0 0 0 0 0, tail := 3 };
     let x := queueOf s a q;
     let ws := x.part ++ [d.extractLsb' 0 64, d.extractLsb' 64 64, d.extractLsb' 128 64, d.extractLsb' 192 64];
     let ext := decide (16 ≤ pOpcode ws) && decide (pOpcode ws ≤ 23);
     quiet s = true ∧ pierRuns s = true ∧ q < 4 ∧ pierNet s p = some n ∧ agentAt n ag = some a ∧ (pierSt s p).stopped = false ∧
     aqReady s a q = true ∧ ext = true ∧ ws.length = 16) ∧
    (let p : Nat := 3; let ag : Nat := 1; let q : Nat := 3; let a : Nat := 11; let n : PierNet := p3; let d : BitVec 256 := 1#256;
     let s : State := setQueue live 11 3 { Queue.zero with tail := 15 }; let x := queueOf s a q;
     let ws := x.part ++ [d.extractLsb' 0 64, d.extractLsb' 64 64, d.extractLsb' 128 64, d.extractLsb' 192 64];
     let ext := decide (16 ≤ pOpcode ws) && decide (pOpcode ws ≤ 23);
     quiet s = true ∧ pierRuns s = true ∧ q < 4 ∧ pierNet s p = some n ∧ agentAt n ag = some a ∧ (pierSt s p).stopped = false ∧
     aqReady s a q = true ∧ ext = false) := by
  refine ⟨?_, ?_, ?_, ?_⟩ <;> decide +kernel

theorem test_witness_CommandsAtThePier :
    (let a : Nat := 10; let q : Nat := 0; let p : PierNet := p3; let i : Item := item (addPkt 1);
     let s : State := set (ready (addPkt 1)) [(fAgtBindBound 10, 0)]; let st := Status.prot; let c := stamp s p a q i;
     issues s a q p i = true ∧ pierCheck s c = some st ∧ st ≠ .disabled) ∧
    (let a : Nat := 10; let q : Nat := 0; let p : PierNet := p3; let i : Item := item (packet 4 0 0 5 8);
     let s : State := setAgent (ready (packet 4 0 0 5 8)) 10 { agentSt (ready (packet 4 0 0 5 8)) 10 with port := .disabling };
     let c := stamp s p a q i;
     issues s a q p i = true ∧ pierCheck s c = some .disabled) ∧
    (let a : Nat := 10; let q : Nat := 0; let p : PierNet := p3; let i : Item := item (addPkt 1);
     let s : State := { ready (addPkt 1) with flt := { live.flt with degraded := true } };
     issues s a q p i = true ∧ degradedOn s = true ∧ isLane i.words = false) ∧
    (let a : Nat := 10; let q : Nat := 0; let p : PierNet := p3; let i : Item := item (addPkt 1);
     let s : State := setAgent (ready (addPkt 1)) 10 { agentSt (ready (addPkt 1)) 10 with port := .disabled };
     issues s a q p i = true ∧ degradedOn s = false ∧ (agentSt s a).port ≠ .open) ∧
    (let a : Nat := 10; let q : Nat := 0; let p : PierNet := p3; let i : Item := item (packet 0xff 0 0 5 1);
     let s : State := ready (packet 0xff 0 0 5 1);
     issues s a q p i = true ∧ degradedOn s = false ∧ (agentSt s a).port = .open ∧
     (pOp i.words = none ∨ 1024 ≤ pFlags i.words ∨ (fREL i.words = true ∧ 4 < pScope i.words))) ∧
    (let a : Nat := 10; let q : Nat := 0; let p : PierNet := p3; let i : Item := item (addPkt 1);
     let s : State := set (ready (addPkt 1)) [(fAgtBindBound 10, 0)]; let d := pDie i.words;
     issues s a q p i = true ∧ degradedOn s = false ∧ (agentSt s a).port = .open ∧ pOp i.words = some .sigAdd ∧
     pFlags i.words = 0 ∧ (on s (fAgtBindBound a) = false ∨ isMember s d = false)) := by
  refine ⟨?_, ?_, ?_, ?_, ?_, ?_⟩ <;> decide +kernel
theorem test_witness_CommandsAtThePier_2 :
    (let a : Nat := 10; let q : Nat := 0; let p : PierNet := p3; let i : Item := item (addPkt 1);
     let s : State := ready (addPkt 1); let c := stamp s p a q i; let d := pDie i.words;
     issues s a q p i = true ∧ degradedOn s = false ∧ (agentSt s a).port = .open ∧ pOp i.words = some .sigAdd ∧
     pFlags i.words = 0 ∧ on s (fAgtBindBound a) = true ∧ isMember s d = true ∧ on s (fTenCfgMirrored c.tenant) = false) ∧
    (let a : Nat := 10; let q : Nat := 0; let p : PierNet := p3; let i : Item := item (addPkt 1);
     let s : State := setTen (ready (addPkt 1)) 7 { Tenant.zero with st := .quiesced }; let c := stamp s p a q i;
     issues s a q p i = true ∧ pierCheck s c = none ∧
     ((drainScope i.words = none ∧ (pOp i.words = some .fence → clearBefore s a q i = true))) ∧ (tenSt s c.tenant).st ≠ .active) ∧
    (let a : Nat := 10; let q : Nat := 0; let p : PierNet := p3; let i : Item := item (packet 1 8 0 5 1);
     let s : State := set (ready (packet 1 8 0 5 1)) [(fCoreStepStep, 4)]; let why := .step5; let c := stamp s p a q i;
     issues s a q p i = true ∧ pierCheck s c = none ∧
     ((drainScope i.words = none ∧ (pOp i.words = some .fence → clearBefore s a q i = true))) ∧ (tenSt s c.tenant).st = .active ∧
     pierStall s c = some why ∧ fTRY i.words = true) ∧
    (let a : Nat := 10; let q : Nat := 0; let p : PierNet := p3; let i : Item := item (packet 1 0 0 5 1);
     let s : State := set (ready (packet 1 0 0 5 1)) [(fCoreStepStep, 4)]; let why := .step5; let c := stamp s p a q i;
     issues s a q p i = true ∧ pierCheck s c = none ∧
     ((drainScope i.words = none ∧ (pOp i.words = some .fence → clearBefore s a q i = true))) ∧ (tenSt s c.tenant).st = .active ∧
     pierStall s c = some why ∧ fTRY i.words = false) ∧
    (let a : Nat := 10; let q : Nat := 0; let p : PierNet := p3; let i : Item := item (packet 4 0 0 5 8);
     let s : State := set (remote (packet 4 0 0 5 8)) [(⟨rCoreReach, 0, 1⟩, 0), (⟨rCoreLost, 0, 1⟩, 1)]; let c := stamp s p a q i;
     let d := pDie i.words;
     issues s a q p i = true ∧ passes s c = true ∧
     ((drainScope i.words = none ∧ (pOp i.words = some .fence → clearBefore s a q i = true))) ∧ isLane i.words = false ∧
     pOp i.words ≠ some .route ∧ d ≠ dieOf s ∧ inLost s d = true) ∧
    (let a : Nat := 10; let q : Nat := 0; let p : PierNet := p3; let i : Item := item (addPkt 1);
     let s : State := remote (addPkt 1); let k := 0; let c := stamp s p a q i; let d := pDie i.words;
     issues s a q p i = true ∧ passes s c = true ∧
     ((drainScope i.words = none ∧ (pOp i.words = some .fence → clearBefore s a q i = true))) ∧ isLane i.words = false ∧
     pOp i.words ≠ some .route ∧ d ≠ dieOf s ∧ inLost s d = false ∧ nextPort s (dieOf s) d = some k) := by
  refine ⟨?_, ?_, ?_, ?_, ?_, ?_⟩ <;> decide +kernel

theorem test_witness_SignalsApply :
    (let a : Nat := 10; let q : Nat := 0; let key : Nat := slotKey 3 9; let p : PierNet := p3;
     let i : Item := item (packet 1 0 0 5 1#64); let x : Slot := obj7 .count 0 0x7ffffffffffffffe#64; let op : Op := .sigAdd;
     let s : State := ready (packet 1 0 0 5 1#64) (obj7 .count 0 0x7ffffffffffffffe#64); let c := stamp s p a q i;
     issues s a q p i = true ∧ departs s c = true ∧ homes s c key x = true ∧ unwatched x = true ∧ pOp i.words = some op ∧
     (op = .sigAdd ∨ op = .sigSub ∨ op = .give)) ∧
    (let a : Nat := 10; let q : Nat := 0; let key : Nat := slotKey 3 9; let p : PierNet := p3;
     let i : Item := item (packet 1 0 0 5 1#64); let x : Slot := obj7 .count 0 0x7fffffffffffffff#64; let op : Op := .sigAdd;
     let s : State := ready (packet 1 0 0 5 1#64) (obj7 .count 0 0x7fffffffffffffff#64); let c := stamp s p a q i;
     issues s a q p i = true ∧ departs s c = true ∧ homes s c key x = true ∧ unwatched x = true ∧ pOp i.words = some op ∧
     (op = .sigAdd ∨ op = .sigSub ∨ op = .give)) ∧
    (let a : Nat := 10; let q : Nat := 0; let key : Nat := slotKey 3 9; let p : PierNet := p3;
     let i : Item := item (packet 2 0 0 5 7#64); let x : Slot := obj7 .count 0 6#64; let op : Op := .sigSub;
     let s : State := ready (packet 2 0 0 5 7#64) (obj7 .count 0 6#64); let c := stamp s p a q i;
     issues s a q p i = true ∧ departs s c = true ∧ homes s c key x = true ∧ unwatched x = true ∧ pOp i.words = some op ∧
     (op = .sigAdd ∨ op = .sigSub ∨ op = .give)) ∧
    (let a : Nat := 10; let q : Nat := 0; let key : Nat := slotKey 3 9; let p : PierNet := p3;
     let i : Item := item (packet 7 0 0 5 2#64); let x : Slot := obj7 .pool 8 6#64; let op : Op := .give;
     let s : State := ready (packet 7 0 0 5 2#64) (obj7 .pool 8 6#64); let c := stamp s p a q i;
     issues s a q p i = true ∧ departs s c = true ∧ homes s c key x = true ∧ unwatched x = true ∧ pOp i.words = some op ∧
     (op = .sigAdd ∨ op = .sigSub ∨ op = .give)) := by
  refine ⟨?_, ?_, ?_, ?_⟩ <;> decide +kernel

theorem test_witness_ReadsAnswer :
    (let a : Nat := 10; let q : Nat := 0; let key : Nat := slotKey 3 9; let p : PierNet := p3;
     let i : Item := { item (packet 10 0 0 5 0) with st := .fenced, cmd := some (cmdOf 10 3 7 (packet 10 0 0 5 0)) };
     let x : Slot := obj7 .count 0 6; let s : State := held (packet 10 0 0 5 0) .fenced;
     let d : Cmd := cmdOf 10 3 7 (packet 10 0 0 5 0);
     s.flt.shadows = [] ∧ resetsNothing s bSema 9 = true ∧ resumes s a q p i d = true ∧ pOp i.words = some .fence ∧
     i.st = .fenced ∧ drainScope i.words = none ∧ homes s d key x = true ∧ fenceClear s d = true ∧
     ((match x.rel with | none => true | some r => !fACQ i.words || scopeHolds (min r.scope (pScope i.words)) r.agent r.pier r.die a p.pier (dieOf s)) = true)) ∧
    (let a : Nat := 10; let q : Nat := 0; let key : Nat := slotKey 3 9; let p : PierNet := p3;
     let i : Item := item (packet 3 0 0 5 0); let x : Slot := obj7 .count 0 6; let s : State := ready (packet 3 0 0 5 0);
     let c := stamp s p a q i;
     s.flt.shadows = [] ∧ resetsNothing s bSema 9 = true ∧ issues s a q p i = true ∧ pOp i.words = some .poll ∧
     departs s c = true ∧ homes s c key x = true) ∧
    (let a : Nat := 10; let q : Nat := 0; let key : Nat := slotKey 3 9; let p : PierNet := p3;
     let i : Item := item (packet 10 0 0 5 0); let x : Slot := obj7 .count 0 6; let s : State := ready (packet 10 0 0 5 0);
     let c := stamp s p a q i;
     s.flt.shadows = [] ∧ resetsNothing s bSema 9 = true ∧ issues s a q p i = true ∧ pOp i.words = some .fence ∧
     departs s c = true ∧ homes s c key x = true ∧ clearBefore s a q i = true) ∧
    (let a : Nat := 10; let q : Nat := 0; let p : PierNet := p3; let i : Item := item (packet 10 0 0 5 0);
     let s : State := setQueue (ready (packet 10 0 0 5 0)) 10 0 { Queue.zero with items := [outAdd, item (packet 10 0 0 5 0)] };
     let c := stamp s p a q i;
     s.flt.shadows = [] ∧ resetsNothing s bSema 9 = true ∧ issues s a q p i = true ∧ pOp i.words = some .fence ∧
     passes s c = true ∧ clearBefore s a q i = false) := by
  refine ⟨?_, ?_, ?_, ?_⟩ <;> decide +kernel

theorem test_witness_WaitsEvaluated :
    (let a : Nat := 10; let q : Nat := 0; let key : Nat := slotKey 3 9; let p : PierNet := p3;
     let i : Item := item (packet 6 0 0 5 1#64 100); let x : Slot := obj7 .count 0 6#64; let op : Op := .take;
     let s : State := ready (packet 6 0 0 5 1#64 100) (obj7 .count 0 6#64); let c := stamp s p a q i;
     s.flt.shadows = [] ∧ issues s a q p i = true ∧ departs s c = true ∧ homes s c key x = true ∧ unwatched x = true ∧
     (tenSt s x.tenant).st ≠ .quiescing ∧ pOp i.words = some op ∧ (op = .waitGe ∨ op = .waitTake ∨ op = .take) ∧
     (∀ r, x.rel = some r → fACQ i.words = true → scopeHolds (min r.scope (pScope i.words)) r.agent r.pier r.die a p.pier (dieOf s) = true) ∧
     ¬ (False)) ∧
    (let a : Nat := 10; let q : Nat := 0; let key : Nat := slotKey 3 9; let p : PierNet := p3;
     let i : Item := item (packet 4 0 0 5 6#64 100); let x : Slot := obj7 .count 0 6#64; let op : Op := .waitGe;
     let s : State := ready (packet 4 0 0 5 6#64 100) (obj7 .count 0 6#64); let c := stamp s p a q i;
     s.flt.shadows = [] ∧ issues s a q p i = true ∧ departs s c = true ∧ homes s c key x = true ∧ unwatched x = true ∧
     (tenSt s x.tenant).st ≠ .quiescing ∧ pOp i.words = some op ∧ (op = .waitGe ∨ op = .waitTake ∨ op = .take) ∧
     (∀ r, x.rel = some r → fACQ i.words = true → scopeHolds (min r.scope (pScope i.words)) r.agent r.pier r.die a p.pier (dieOf s) = true) ∧
     (True) ∧ (True)) ∧
    (let a : Nat := 10; let q : Nat := 0; let key : Nat := slotKey 3 9; let p : PierNet := p3;
     let i : Item := item (packet 4 0 0 5 7#64 0); let x : Slot := obj7 .count 0 6#64; let op : Op := .waitGe;
     let s : State := ready (packet 4 0 0 5 7#64 0) (obj7 .count 0 6#64); let c := stamp s p a q i;
     s.flt.shadows = [] ∧ issues s a q p i = true ∧ departs s c = true ∧ homes s c key x = true ∧ unwatched x = true ∧
     (tenSt s x.tenant).st ≠ .quiescing ∧ pOp i.words = some op ∧ (op = .waitGe ∨ op = .waitTake ∨ op = .take) ∧
     (∀ r, x.rel = some r → fACQ i.words = true → scopeHolds (min r.scope (pScope i.words)) r.agent r.pier r.die a p.pier (dieOf s) = true) ∧
     (True) ∧ ¬ (False) ∧
     ((pTimeout i.words = 0 ∧ isPendingObj s key x = false) ∨ (pTimeout i.words ≠ 0 ∧ ∃ d, c.deadline = some d ∧ d < s.now))) ∧
    (let a : Nat := 10; let q : Nat := 0; let key : Nat := slotKey 3 9; let p : PierNet := p3;
     let i : Item := item (packet 4 0 0 5 7#64 100); let x : Slot := obj7 .count 0 6#64; let op : Op := .waitGe;
     let s : State := ready (packet 4 0 0 5 7#64 100) (obj7 .count 0 6#64); let c := stamp s p a q i;
     s.flt.shadows = [] ∧ issues s a q p i = true ∧ departs s c = true ∧ homes s c key x = true ∧ unwatched x = true ∧
     (tenSt s x.tenant).st ≠ .quiescing ∧ pOp i.words = some op ∧ (op = .waitGe ∨ op = .waitTake ∨ op = .take) ∧
     (∀ r, x.rel = some r → fACQ i.words = true → scopeHolds (min r.scope (pScope i.words)) r.agent r.pier r.die a p.pier (dieOf s) = true) ∧
     (True) ∧ ¬ (False) ∧ pTimeout i.words ≠ 0 ∧ (∀ d, c.deadline = some d → s.now ≤ d) ∧
     tenWaits s c.tenant < 64 * get s (fTenShare0Waits c.tenant) ∧ tableUse s (sliceOf key) < 1024 ∧
     sliceOn s (sliceOf key) = true) ∧
    (let a : Nat := 10; let q : Nat := 0; let key : Nat := slotKey 3 9; let p : PierNet := p3;
     let i : Item := item (packet 4 8 0 5 7#64 100); let x : Slot := obj7 .count 0 6#64; let op : Op := .waitGe;
     let s : State := set (ready (packet 4 8 0 5 7#64 100) (obj7 .count 0 6#64)) [(fTenShare0Waits 7, 0)];
     let c := stamp s p a q i;
     s.flt.shadows = [] ∧ issues s a q p i = true ∧ departs s c = true ∧ homes s c key x = true ∧ unwatched x = true ∧
     (tenSt s x.tenant).st ≠ .quiescing ∧ pOp i.words = some op ∧ (op = .waitGe ∨ op = .waitTake ∨ op = .take) ∧
     (∀ r, x.rel = some r → fACQ i.words = true → scopeHolds (min r.scope (pScope i.words)) r.agent r.pier r.die a p.pier (dieOf s) = true) ∧
     (True) ∧ ¬ (False) ∧ pTimeout i.words ≠ 0 ∧ (∀ d, c.deadline = some d → s.now ≤ d) ∧
     64 * get s (fTenShare0Waits c.tenant) ≤ tenWaits s c.tenant ∧ fTRY i.words = true) ∧
    (let a : Nat := 10; let q : Nat := 0; let key : Nat := slotKey 3 9; let p : PierNet := p3;
     let i : Item := item (packet 4 0 0 5 7#64 100); let x : Slot := obj7 .count 0 6#64; let op : Op := .waitGe;
     let s : State := set (ready (packet 4 0 0 5 7#64 100) (obj7 .count 0 6#64)) [(fTenShare0Waits 7, 0)];
     let c := stamp s p a q i;
     s.flt.shadows = [] ∧ issues s a q p i = true ∧ departs s c = true ∧ homes s c key x = true ∧ unwatched x = true ∧
     (tenSt s x.tenant).st ≠ .quiescing ∧ pOp i.words = some op ∧ (op = .waitGe ∨ op = .waitTake ∨ op = .take) ∧
     (∀ r, x.rel = some r → fACQ i.words = true → scopeHolds (min r.scope (pScope i.words)) r.agent r.pier r.die a p.pier (dieOf s) = true) ∧
     (True) ∧ ¬ (False) ∧ pTimeout i.words ≠ 0 ∧ (∀ d, c.deadline = some d → s.now ≤ d) ∧
     64 * get s (fTenShare0Waits c.tenant) ≤ tenWaits s c.tenant ∧ fTRY i.words = false) := by
  refine ⟨?_, ?_, ?_, ?_, ?_, ?_⟩ <;> decide +kernel
theorem test_witness_WaitsEvaluated_2 :
    (let a : Nat := 10; let q : Nat := 0; let key : Nat := slotKey 3 9; let p : PierNet := p3;
     let i : Item := item (packet 6 0 0 5 3#64 100); let x : Slot := obj7 .pool 9 8#64; let op : Op := .take;
     let s : State := ready (packet 6 0 0 5 3#64 100) (obj7 .pool 9 8#64); let c := stamp s p a q i;
     s.flt.shadows = [] ∧ issues s a q p i = true ∧ departs s c = true ∧ homes s c key x = true ∧ unwatched x = true ∧
     (tenSt s x.tenant).st ≠ .quiescing ∧ pOp i.words = some op ∧ (op = .waitGe ∨ op = .waitTake ∨ op = .take) ∧
     (∀ r, x.rel = some r → fACQ i.words = true → scopeHolds (min r.scope (pScope i.words)) r.agent r.pier r.die a p.pier (dieOf s) = true) ∧
     (True) ∧ (True)) ∧
    (let a : Nat := 10; let q : Nat := 0; let key : Nat := slotKey 3 9; let p : PierNet := p3;
     let i : Item := item (packet 4 0 0 5 1#64 100); let x : Slot := obj7 .barrier 1 0x2#64; let op : Op := .waitGe;
     let s : State := ready (packet 4 0 0 5 1#64 100) (obj7 .barrier 1 0x2#64); let c := stamp s p a q i;
     s.flt.shadows = [] ∧ issues s a q p i = true ∧ departs s c = true ∧ homes s c key x = true ∧ unwatched x = true ∧
     (tenSt s x.tenant).st ≠ .quiescing ∧ pOp i.words = some op ∧ (op = .waitGe ∨ op = .waitTake ∨ op = .take) ∧
     (∀ r, x.rel = some r → fACQ i.words = true → scopeHolds (min r.scope (pScope i.words)) r.agent r.pier r.die a p.pier (dieOf s) = true) ∧
     (True) ∧ (True)) := by
  refine ⟨?_, ?_⟩ <;> decide +kernel

theorem test_witness_ReleaseDrains :
    (let a : Nat := 10; let q : Nat := 0; let p : PierNet := p3; let i : Item := item relPkt;
     let s : State := ready relPkt (obj7 .seq 0 6); let sc := 1; let c := stamp s p a q i;
     issues s a q p i = true ∧ passes s c = true ∧ (queueOf s a q).drain = none ∧
     ((fREL i.words = true ∧ sc = pScope i.words) ∨ (fREL i.words = false ∧ pOp i.words = some .arriveCombine ∧ sc = 0)) ∧
     (pOp i.words = some .fence → clearBefore s a q i = true)) ∧
    (let a : Nat := 10; let q : Nat := 0; let key : Nat := slotKey 3 9; let p : PierNet := p3;
     let i : Item := { item relPkt with st := .draining, cmd := some (cmdOf 10 3 7 relPkt) }; let x : Slot := obj7 .seq 0 6;
     let s : State := held relPkt .draining (obj7 .seq 0 6); let ag : Nat := 0;
     let d : Drain := ⟨4000, 1, cmdOf 10 3 7 relPkt, false⟩; let c : Cmd := cmdOf 10 3 7 relPkt; let op : Op := .sigAdd;
     let n : Word := 2;
     agentAt p ag = some a ∧ resumes s a q p i c = true ∧ i.st = .draining ∧ (queueOf s a q).drain = some d ∧ d.cmd = c ∧
     (((queueOf s a q).items.find? fun j => decide (j.st = .draining)) = some i) ∧ pOp i.words = some op ∧
     (op = .sigAdd ∨ op = .sigSub) ∧ x.kind = .seq ∧ n = pOperand i.words ∧ n ≠ 0 ∧ fREL i.words = true ∧ homes s c key x = true ∧
     unwatched x = true) ∧
    (let a : Nat := 10; let q : Nat := 0; let s : State := { held relPkt .draining with now := 100000000 };
     let d : Drain := ⟨4000, 1, cmdOf 10 3 7 relPkt, false⟩;
     quiet s = true ∧ eclkRuns s = true ∧ s.flt.shadows = [] ∧ resetsNothing s bPier 2 = true ∧ (queueOf s a q).drain = some d ∧
     d.slow = false ∧ d.start + 1000 * max 1 (get s fPierOrdctlDrlim) ≤ s.now) ∧
    (let a : Nat := 10; let q : Nat := 0; let s : State := held relPkt .draining;
     let d : Drain := ⟨4000, 1, cmdOf 10 3 7 relPkt, false⟩;
     quiet s = true ∧ eclkRuns s = true ∧ s.flt.shadows = [] ∧ resetsNothing s bPier 2 = true ∧ (queueOf s a q).drain = some d ∧
     (d.slow = true ∨ s.now < d.start + 1000 * max 1 (get s fPierOrdctlDrlim))) := by
  refine ⟨?_, ?_, ?_, ?_⟩ <;> decide +kernel

theorem test_witness_ArrivalsRecorded :
    (let a : Nat := 10; let q : Nat := 0; let key : Nat := slotKey 3 9; let p : PierNet := p3;
     let i : Item := item (packet 8 0 0 5 0 100); let x : Slot := obj7 .count 0 0;
     let s : State := ready (packet 8 0 0 5 0 100) (obj7 .count 0 0); let c := stamp s p a q i;
     issues s a q p i = true ∧ departs s c = true ∧ homes s c key x = true ∧ unwatched x = true ∧
     (tenSt s x.tenant).st ≠ .quiescing ∧ (parSpan x.param = false ∨ members s = [dieOf s]) ∧ pOp i.words = some .arrive ∧
     fLANE i.words = false ∧ x.kind ≠ .barrier) ∧
    (let a : Nat := 10; let q : Nat := 0; let key : Nat := slotKey 3 9; let p : PierNet := p3;
     let i : Item := item (packet 8 0 0 5 0 100); let x : Slot := obj7 .barrier 3 (barWord false 0 true false 0);
     let s : State := ready (packet 8 0 0 5 0 100) (obj7 .barrier 3 (barWord false 0 true false 0)); let c := stamp s p a q i;
     let held := barArmed x.value || barChold x.value;
     issues s a q p i = true ∧ departs s c = true ∧ homes s c key x = true ∧ unwatched x = true ∧
     (tenSt s x.tenant).st ≠ .quiescing ∧ (parSpan x.param = false ∨ members s = [dieOf s]) ∧ pOp i.words = some .arrive ∧
     fLANE i.words = false ∧ x.kind = .barrier ∧ held = true) ∧
    (let a : Nat := 10; let q : Nat := 0; let key : Nat := slotKey 3 9; let p : PierNet := p3;
     let i : Item := item (packet 8 0 0 5 0 100); let x : Slot := obj7 .barrier 16387 0;
     let s : State := ready (packet 8 0 0 5 0 100) (obj7 .barrier 16387 0); let c := stamp s p a q i;
     let held := barArmed x.value || barChold x.value;
     issues s a q p i = true ∧ departs s c = true ∧ homes s c key x = true ∧ unwatched x = true ∧
     (tenSt s x.tenant).st ≠ .quiescing ∧ (parSpan x.param = false ∨ members s = [dieOf s]) ∧ pOp i.words = some .arrive ∧
     fLANE i.words = false ∧ x.kind = .barrier ∧ parMode x.param = 2 ∧ held = false) ∧
    (let a : Nat := 10; let q : Nat := 0; let key : Nat := slotKey 3 9; let p : PierNet := p3;
     let i : Item := item (packet 8 0 1 5 0 100); let x : Slot := memb (obj7 .barrier 8192 0) 1#512 0#512;
     let s : State := ready (packet 8 0 1 5 0 100) (memb (obj7 .barrier 8192 0) 1#512 0#512); let c := stamp s p a q i;
     let held := barArmed x.value || barChold x.value; let k := pAux i.words % 4096; let w := x.members[k / 512]?;
     issues s a q p i = true ∧ departs s c = true ∧ homes s c key x = true ∧ unwatched x = true ∧
     (tenSt s x.tenant).st ≠ .quiescing ∧ (parSpan x.param = false ∨ members s = [dieOf s]) ∧ pOp i.words = some .arrive ∧
     fLANE i.words = false ∧ x.kind = .barrier ∧ parMode x.param = 1 ∧ held = false ∧
     (w = none ∨ ∃ y : BitVec 512 × BitVec 512, w = some y ∧ y.1.getLsbD (k % 512) = false)) ∧
    (let a : Nat := 10; let q : Nat := 0; let key : Nat := slotKey 3 9; let p : PierNet := p3;
     let i : Item := item (packet 8 0 0 5 0 100); let x : Slot := memb (obj7 .barrier 8192 0) 3#512 1#512;
     let s : State := ready (packet 8 0 0 5 0 100) (memb (obj7 .barrier 8192 0) 3#512 1#512); let m := 1#512 ||| 2#512;
     let b := 1#512; let c := stamp s p a q i; let held := barArmed x.value || barChold x.value; let k := pAux i.words % 4096;
     let w := x.members[k / 512]?;
     issues s a q p i = true ∧ departs s c = true ∧ homes s c key x = true ∧ unwatched x = true ∧
     (tenSt s x.tenant).st ≠ .quiescing ∧ (parSpan x.param = false ∨ members s = [dieOf s]) ∧ pOp i.words = some .arrive ∧
     fLANE i.words = false ∧ x.kind = .barrier ∧ parMode x.param = 1 ∧ held = false ∧ w = some (m, b) ∧
     m.getLsbD (k % 512) = true ∧ b.getLsbD (k % 512) = true) ∧
    (let a : Nat := 10; let q : Nat := 0; let key : Nat := slotKey 3 9; let p : PierNet := p3;
     let i : Item := item (packet 8 16 0 5 0 100); let x : Slot := obj7 .barrier 3 0;
     let s : State := ready (packet 8 16 0 5 0 100) (obj7 .barrier 3 0); let mem := []; let c := stamp s p a q i;
     let held := barArmed x.value || barChold x.value; let n := if parMode x.param = 1 then memberCount x else parExpect x.param;
     let timed := parTimed x.param;
     issues s a q p i = true ∧ departs s c = true ∧ homes s c key x = true ∧ unwatched x = true ∧
     (tenSt s x.tenant).st ≠ .quiescing ∧ (parSpan x.param = false ∨ members s = [dieOf s]) ∧ pOp i.words = some .arrive ∧
     fLANE i.words = false ∧ x.kind = .barrier ∧ held = false ∧ x.combine = false ∧ parMode x.param = 0 ∧ mem = x.members ∧
     (¬ (barArrived x.value + 1 = n) ∨ timed = true) ∧ fSPLIT i.words = true) := by
  refine ⟨?_, ?_, ?_, ?_, ?_, ?_⟩ <;> decide +kernel
theorem test_witness_ArrivalsRecorded_2 :
    (let a : Nat := 10; let q : Nat := 0; let key : Nat := slotKey 3 9; let p : PierNet := p3;
     let i : Item := item (packet 8 0 0 5 0 0); let x : Slot := obj7 .barrier 3 0;
     let s : State := ready (packet 8 0 0 5 0 0) (obj7 .barrier 3 0); let mem := []; let c := stamp s p a q i;
     let held := barArmed x.value || barChold x.value; let n := if parMode x.param = 1 then memberCount x else parExpect x.param;
     let timed := parTimed x.param; let late := pTimeout i.words = 0 ∨ ∃ d, c.deadline = some d ∧ d < s.now;
     issues s a q p i = true ∧ departs s c = true ∧ homes s c key x = true ∧ unwatched x = true ∧
     (tenSt s x.tenant).st ≠ .quiescing ∧ (parSpan x.param = false ∨ members s = [dieOf s]) ∧ pOp i.words = some .arrive ∧
     fLANE i.words = false ∧ x.kind = .barrier ∧ held = false ∧ x.combine = false ∧ parMode x.param = 0 ∧ mem = x.members ∧
     (¬ (barArrived x.value + 1 = n) ∨ timed = true) ∧ fSPLIT i.words = false ∧ late) ∧
    (let a : Nat := 10; let q : Nat := 0; let key : Nat := slotKey 3 9; let p : PierNet := p3;
     let i : Item := item (packet 8 0 0 5 0 100); let x : Slot := obj7 .barrier 3 0;
     let s : State := ready (packet 8 0 0 5 0 100) (obj7 .barrier 3 0); let mem := []; let c := stamp s p a q i;
     let held := barArmed x.value || barChold x.value; let n := if parMode x.param = 1 then memberCount x else parExpect x.param;
     let timed := parTimed x.param; let late := pTimeout i.words = 0 ∨ ∃ d, c.deadline = some d ∧ d < s.now;
     issues s a q p i = true ∧ departs s c = true ∧ homes s c key x = true ∧ unwatched x = true ∧
     (tenSt s x.tenant).st ≠ .quiescing ∧ (parSpan x.param = false ∨ members s = [dieOf s]) ∧ pOp i.words = some .arrive ∧
     fLANE i.words = false ∧ x.kind = .barrier ∧ held = false ∧ x.combine = false ∧ parMode x.param = 0 ∧ mem = x.members ∧
     (¬ (barArrived x.value + 1 = n) ∨ timed = true) ∧ fSPLIT i.words = false ∧ ¬ late ∧
     tenWaits s c.tenant < 64 * get s (fTenShare0Waits c.tenant) ∧ tableUse s (sliceOf key) < 1024 ∧
     sliceOn s (sliceOf key) = true) ∧
    (let a : Nat := 10; let q : Nat := 0; let key : Nat := slotKey 3 9; let p : PierNet := p3;
     let i : Item := item (packet 8 0 0 5 0 100); let x : Slot := obj7 .barrier 3 (barWord true 2 false false 0);
     let s : State := ready (packet 8 0 0 5 0 100) (obj7 .barrier 3 (barWord true 2 false false 0)); let mem := [];
     let c := stamp s p a q i; let ph := barPhase x.value; let held := barArmed x.value || barChold x.value;
     let waits := (boundRoots s x.tenant x.obj).any fun o => o.2.aborted && (o.2.phase == ph);
     let n := if parMode x.param = 1 then memberCount x else parExpect x.param; let timed := parTimed x.param;
     issues s a q p i = true ∧ departs s c = true ∧ homes s c key x = true ∧ unwatched x = true ∧
     (tenSt s x.tenant).st ≠ .quiescing ∧ (parSpan x.param = false ∨ members s = [dieOf s]) ∧ pOp i.words = some .arrive ∧
     fLANE i.words = false ∧ x.kind = .barrier ∧ held = false ∧ x.combine = false ∧ parMode x.param = 0 ∧ mem = x.members ∧
     (barArrived x.value + 1 = n) ∧ timed = false ∧
     (∀ r, x.rel = some r → fACQ i.words = true → fSPLIT i.words = false → scopeHolds (min r.scope (pScope i.words)) r.agent r.pier r.die a p.pier (dieOf s) = true) ∧
     waits = false) ∧
    (let a : Nat := 10; let q : Nat := 0; let key : Nat := slotKey 3 9; let p : PierNet := p3;
     let i : Item := item (packet 8 0 0 5 0 100); let x : Slot := obj7 .barrier 3 (barWord true 2 false false 0);
     let s : State := setCtx (ready (packet 8 0 0 5 0 100) (obj7 .barrier 3 (barWord true 2 false false 0))) 3 { ctx7 with aborted := true, phase := true };
     let mem := []; let kc := 3; let root := { ctx7 with aborted := true, phase := true }; let c := stamp s p a q i;
     let ph := barPhase x.value; let held := barArmed x.value || barChold x.value;
     let waits := (boundRoots s x.tenant x.obj).any fun o => o.2.aborted && (o.2.phase == ph);
     let n := if parMode x.param = 1 then memberCount x else parExpect x.param; let timed := parTimed x.param;
     issues s a q p i = true ∧ departs s c = true ∧ homes s c key x = true ∧ unwatched x = true ∧
     (tenSt s x.tenant).st ≠ .quiescing ∧ (parSpan x.param = false ∨ members s = [dieOf s]) ∧ pOp i.words = some .arrive ∧
     fLANE i.words = false ∧ x.kind = .barrier ∧ held = false ∧ x.combine = false ∧ parMode x.param = 0 ∧ mem = x.members ∧
     (barArrived x.value + 1 = n) ∧ timed = false ∧
     (∀ r, x.rel = some r → fACQ i.words = true → fSPLIT i.words = false → scopeHolds (min r.scope (pScope i.words)) r.agent r.pier r.die a p.pier (dieOf s) = true) ∧
     boundRoots s x.tenant x.obj = [(kc, root)] ∧ waits = true) ∧
    (let a : Nat := 10; let q : Nat := 0; let key : Nat := slotKey 3 9; let p : PierNet := p3;
     let i : Item := item (packet 0x11 0 1 5 1#64 0 ++ zeros12);
     let x : Slot := memb (obj7 .barrier 8192 (barWord false 0 true false 0)) 1#512 0#512;
     let s : State := ready (packet 0x11 0 1 5 1#64 0 ++ zeros12) (memb (obj7 .barrier 8192 (barWord false 0 true false 0)) 1#512 0#512);
     let c := stamp s p a q i; let held := barArmed x.value || barChold x.value;
     issues s a q p i = true ∧ departs s c = true ∧ homes s c key x = true ∧ unwatched x = true ∧
     (tenSt s x.tenant).st ≠ .quiescing ∧ (parSpan x.param = false ∨ members s = [dieOf s]) ∧ pOp i.words = some .member ∧
     x.kind = .barrier ∧ held = true) ∧
    (let a : Nat := 10; let q : Nat := 0; let key : Nat := slotKey 3 9; let p : PierNet := p3;
     let i : Item := item (packet 0x11 0 1 5 1#64 0 ++ zeros12); let x : Slot := obj7 .count 0 0;
     let s : State := ready (packet 0x11 0 1 5 1#64 0 ++ zeros12) (obj7 .count 0 0); let c := stamp s p a q i;
     let held := barArmed x.value || barChold x.value;
     issues s a q p i = true ∧ departs s c = true ∧ homes s c key x = true ∧ unwatched x = true ∧
     (tenSt s x.tenant).st ≠ .quiescing ∧ (parSpan x.param = false ∨ members s = [dieOf s]) ∧ pOp i.words = some .member ∧
     (x.kind ≠ .barrier ∨ (held = false ∧ parMode x.param ≠ 1))) := by
  refine ⟨?_, ?_, ?_, ?_, ?_, ?_⟩ <;> decide +kernel
theorem test_witness_ArrivalsRecorded_3 :
    (let a : Nat := 10; let q : Nat := 0; let key : Nat := slotKey 3 9; let p : PierNet := p3;
     let i : Item := item (packet 0x11 0 2 5 1#64 0 ++ zeros12); let x : Slot := memb (obj7 .barrier 8192 0) 3#512 1#512;
     let s : State := ready (packet 0x11 0 2 5 1#64 0 ++ zeros12) (memb (obj7 .barrier 8192 0) 3#512 1#512);
     let c := stamp s p a q i; let held := barArmed x.value || barChold x.value; let w := x.members[memberWin i.words]?;
     let mask := memberMask i.words;
     let next (m : BitVec 512) : BitVec 512 := match memberMode i.words with | 0 => mask | 1 => m ||| mask | _ => m &&& ~~~mask;
     issues s a q p i = true ∧ departs s c = true ∧ homes s c key x = true ∧ unwatched x = true ∧
     (tenSt s x.tenant).st ≠ .quiescing ∧ (parSpan x.param = false ∨ members s = [dieOf s]) ∧ pOp i.words = some .member ∧
     x.kind = .barrier ∧ parMode x.param = 1 ∧ held = false ∧
     (∃ y : BitVec 512 × BitVec 512, w = some y ∧ y.2 &&& ~~~ next y.1 ≠ 0#512)) ∧
    (let a : Nat := 10; let q : Nat := 0; let key : Nat := slotKey 3 9; let p : PierNet := p3;
     let i : Item := item (packet 0x11 0 1 5 4#64 0 ++ zeros12); let x : Slot := memb (obj7 .barrier 8192 0) 3#512 1#512;
     let s : State := ready (packet 0x11 0 1 5 4#64 0 ++ zeros12) (memb (obj7 .barrier 8192 0) 3#512 1#512); let m := 3#512;
     let b := 1#512; let c := stamp s p a q i; let held := barArmed x.value || barChold x.value;
     let w := x.members[memberWin i.words]?; let mask := memberMask i.words;
     let next (m : BitVec 512) : BitVec 512 := match memberMode i.words with | 0 => mask | 1 => m ||| mask | _ => m &&& ~~~mask;
     let y := { x with members := x.members.set (memberWin i.words) (next m, b) }; let n := memberCount y;
     issues s a q p i = true ∧ departs s c = true ∧ homes s c key x = true ∧ unwatched x = true ∧
     (tenSt s x.tenant).st ≠ .quiescing ∧ (parSpan x.param = false ∨ members s = [dieOf s]) ∧ pOp i.words = some .member ∧
     x.kind = .barrier ∧ parMode x.param = 1 ∧ held = false ∧ w = some (m, b) ∧ b &&& ~~~ next m = 0#512 ∧
     (next m = m ∨ barArrived x.value ≠ n ∨ n = 0)) ∧
    (let a : Nat := 10; let q : Nat := 0; let key : Nat := slotKey 3 9; let p : PierNet := p3;
     let i : Item := item (packet 0x11 0 2 5 2#64 0 ++ zeros12);
     let x : Slot := memb (obj7 .barrier 8192 (barWord false 1 false false 0)) 3#512 1#512;
     let s : State := ready (packet 0x11 0 2 5 2#64 0 ++ zeros12) (memb (obj7 .barrier 8192 (barWord false 1 false false 0)) 3#512 1#512);
     let m := 3#512; let b := 1#512; let c := stamp s p a q i; let ph := barPhase x.value;
     let held := barArmed x.value || barChold x.value;
     let waits := (boundRoots s x.tenant x.obj).any fun o => o.2.aborted && (o.2.phase == ph);
     let w := x.members[memberWin i.words]?; let mask := memberMask i.words;
     let next (m : BitVec 512) : BitVec 512 := match memberMode i.words with | 0 => mask | 1 => m ||| mask | _ => m &&& ~~~mask;
     let y := { x with members := x.members.set (memberWin i.words) (next m, b) }; let n := memberCount y;
     issues s a q p i = true ∧ departs s c = true ∧ homes s c key x = true ∧ unwatched x = true ∧
     (tenSt s x.tenant).st ≠ .quiescing ∧ (parSpan x.param = false ∨ members s = [dieOf s]) ∧ pOp i.words = some .member ∧
     x.kind = .barrier ∧ parMode x.param = 1 ∧ held = false ∧ w = some (m, b) ∧ b &&& ~~~ next m = 0#512 ∧ next m ≠ m ∧
     barArrived x.value = n ∧ 1 ≤ n ∧ parTimed x.param = false ∧ x.combine = false ∧ waits = false) := by
  refine ⟨?_, ?_, ?_⟩ <;> decide +kernel

theorem test_witness_LaneArrivals :
    (let a : Nat := 10; let q : Nat := 0; let l : Nat := 5;
     let s : State := lanes (ready (lanePkt 0 100)) ({ Lane.zero with broken := true }) []; let p : PierNet := p3;
     let i : Item := item (lanePkt 0 100); let x := laneSt s l; let c := stamp s p a q i;
     l < 64 ∧ issues s a q p i = true ∧ departs s c = true ∧ isLane i.words = true ∧ pLane i.words = l ∧ x.lenNext = [] ∧
     x.broken = true) ∧
    (let a : Nat := 10; let q : Nat := 0; let l : Nat := 5;
     let s : State := lanes (ready (lanePkt 0 100)) ({ raised11 with armed := some 90000, due := some 90000 }) [];
     let p : PierNet := p3; let i : Item := item (lanePkt 0 100); let x := laneSt s l; let c := stamp s p a q i;
     l < 64 ∧ issues s a q p i = true ∧ departs s c = true ∧ isLane i.words = true ∧ pLane i.words = l ∧ x.lenNext = [] ∧
     x.broken = false ∧ x.armed.isSome = true ∧ a ∉ x.raised) ∧
    (let a : Nat := 10; let q : Nat := 0; let l : Nat := 5;
     let s : State := lanes (ready (lanePkt 0 100)) (Lane.zero) [(⟨rClkGopen1, 33, 1⟩, 0)]; let p : PierNet := p3;
     let i : Item := item (lanePkt 0 100); let x := laneSt s l; let c := stamp s p a q i;
     l < 64 ∧ issues s a q p i = true ∧ departs s c = true ∧ isLane i.words = true ∧ pLane i.words = l ∧ x.lenNext = [] ∧
     x.broken = false ∧ x.armed = none ∧ on s (fTrsLcfgEn l) = true ∧ gateOn s 97 = false ∧
     (fSPLIT i.words = true ∨ pTimeout i.words ≠ 0)) ∧
    (let a : Nat := 10; let q : Nat := 0; let l : Nat := 5; let s : State := lanes (ready (lanePkt 0 100)) (Lane.zero) [];
     let p : PierNet := p3; let i : Item := item (lanePkt 0 100); let x := laneSt s l; let c := stamp s p a q i;
     let y := { x with raised := insNat x.raised a, waiting := if fSPLIT i.words = true then x.waiting else x.waiting ++ [c] };
     let all := (counted s l).all fun g => y.raised.contains g || decide ((agentSt s g).port ≠ .open);
     l < 64 ∧ issues s a q p i = true ∧ departs s c = true ∧ isLane i.words = true ∧ pLane i.words = l ∧ x.lenNext = [] ∧
     x.broken = false ∧ x.armed = none ∧ x.forced = false ∧ on s (fTrsLcfgEn l) = true ∧ gateOn s 97 = true ∧
     on s (fTrsLcfgXen l) = false ∧ (all = false ∨ on s (fTrsLcfgTimed l) = true) ∧ (fSPLIT i.words = true ∨ pTimeout i.words ≠ 0)) ∧
    (let a : Nat := 10; let q : Nat := 0; let l : Nat := 5; let s : State := lanes (ready (lanePkt 0 0)) (Lane.zero) [];
     let p : PierNet := p3; let i : Item := item (lanePkt 0 0); let x := laneSt s l; let c := stamp s p a q i;
     let y := { x with raised := insNat x.raised a, waiting := if fSPLIT i.words = true then x.waiting else x.waiting ++ [c] };
     let all := (counted s l).all fun g => y.raised.contains g || decide ((agentSt s g).port ≠ .open);
     l < 64 ∧ issues s a q p i = true ∧ departs s c = true ∧ isLane i.words = true ∧ pLane i.words = l ∧ x.lenNext = [] ∧
     x.broken = false ∧ x.armed = none ∧ x.forced = false ∧ on s (fTrsLcfgEn l) = true ∧ gateOn s 97 = true ∧
     on s (fTrsLcfgXen l) = false ∧ (all = false ∨ on s (fTrsLcfgTimed l) = true) ∧ fSPLIT i.words = false ∧ pTimeout i.words = 0) ∧
    (let a : Nat := 10; let q : Nat := 0; let l : Nat := 5; let s : State := lanes (ready (lanePkt 0 100)) (raised11) [];
     let p : PierNet := p3; let i : Item := item (lanePkt 0 100); let x := laneSt s l; let c := stamp s p a q i;
     let y := { x with raised := insNat x.raised a, waiting := if fSPLIT i.words = true then x.waiting else x.waiting ++ [c] };
     let all := (counted s l).all fun g => y.raised.contains g || decide ((agentSt s g).port ≠ .open);
     l < 64 ∧ issues s a q p i = true ∧ departs s c = true ∧ isLane i.words = true ∧ pLane i.words = l ∧ x.lenNext = [] ∧
     x.broken = false ∧ x.armed = none ∧ x.forced = false ∧ on s (fTrsLcfgEn l) = true ∧ gateOn s 97 = true ∧
     on s (fTrsLcfgXen l) = false ∧ all = true ∧ on s (fTrsLcfgTimed l) = false ∧ x.waiting = []) := by
  refine ⟨?_, ?_, ?_, ?_, ?_, ?_⟩ <;> decide +kernel
theorem test_witness_LaneArrivals_2 :
    (let a : Nat := 10; let q : Nat := 0; let l : Nat := 5; let s : State := lanes (remote (lanePkt 0 100)) (raised11) xen0;
     let p : PierNet := p3; let i : Item := item (lanePkt 0 100); let x := laneSt s l; let c := stamp s p a q i;
     let y := { x with raised := insNat x.raised a, waiting := if fSPLIT i.words = true then x.waiting else x.waiting ++ [c] };
     let all := (counted s l).all fun g => y.raised.contains g || decide ((agentSt s g).port ≠ .open);
     l < 64 ∧ issues s a q p i = true ∧ departs s c = true ∧ isLane i.words = true ∧ pLane i.words = l ∧ x.lenNext = [] ∧
     x.broken = false ∧ x.armed = none ∧ x.forced = false ∧ on s (fTrsLcfgEn l) = true ∧ gateOn s 97 = true ∧
     on s (fTrsLcfgXen l) = true ∧ get s (fTrsLcfgXroot l) ≠ dieOf s ∧ all = true ∧ x.sent = false ∧
     (fSPLIT i.words = true ∨ pTimeout i.words ≠ 0)) ∧
    (let l : Nat := 5; let s : State := set (lanes (torus 4) Lane.zero xen1) [(⟨rClkGopen1, 33, 1⟩, 0)]; let n : Nat := 0;
     let h : Hdr := fromZero;
     l < 64 ∧ delivers s n h = true ∧ isOlder (epochOf s h.tenant) h.epoch = false ∧ gateOn s 97 = false) ∧
    (let l : Nat := 5; let s : State := lanes (torus 4) Lane.zero xen1; let n : Nat := 0; let h : Hdr := fromZero;
     let ph : Bool := true; let x := laneSt s l;
     l < 64 ∧ delivers s n h = true ∧ isOlder (epochOf s h.tenant) h.epoch = false ∧ x.phase ≠ ph ∧ gateOn s 97 = true ∧
     s.flt.shadows = [] ∧ resetsNothing s bTrs 1 = true) ∧
    (let l : Nat := 5; let s : State := lanes (torus 4) Lane.zero xen0; let n : Nat := 0; let h : Hdr := fromZero;
     let ph : Bool := true; let x := laneSt s l;
     l < 64 ∧ delivers s n h = true ∧ isOlder (epochOf s h.tenant) h.epoch = false ∧ x.phase ≠ ph ∧ gateOn s 97 = true ∧
     s.flt.shadows = [] ∧ resetsNothing s bTrs 1 = true) ∧
    (let l : Nat := 5; let s : State := lanes (torus 4) (raised11) xen0; let n : Nat := 0; let h : Hdr := fromZero;
     let ph : Bool := false; let x := laneSt s l;
     l < 64 ∧ delivers s n h = true ∧ isOlder (epochOf s h.tenant) h.epoch = false ∧ x.phase = ph ∧ gateOn s 97 = true ∧
     x.lenNext = [] ∧ x.waiting = []) ∧
    (let l : Nat := 5; let s : State := bind (lanes (torus 4) raised11 xen1); let n : Nat := 0; let h : Hdr := fromZero;
     let ph : Bool := false; let x := laneSt s l; let y := { x with frames := insNat x.frames h.src };
     l < 64 ∧ delivers s n h = true ∧ isOlder (epochOf s h.tenant) h.epoch = false ∧ x.phase = ph ∧ gateOn s 97 = true ∧
     x.lenNext = [] ∧ x.waiting = [] ∧ on s (fTrsLcfgEn l) = true ∧ on s (fTrsLcfgXen l) = true ∧
     get s (fTrsLcfgXroot l) = dieOf s ∧ on s (fTrsLcfgTimed l) = false ∧ x.armed = none ∧ x.broken = false ∧
     (localAnd s l && (otherDies s l).all y.frames.contains) = false) := by
  refine ⟨?_, ?_, ?_, ?_, ?_, ?_⟩ <;> decide +kernel
theorem test_witness_LaneArrivals_3 :
    (let l : Nat := 5; let s : State := bind (lanes (torus 4) { Lane.zero with raised := [10, 11] } xen1); let n : Nat := 0;
     let h : Hdr := fromZero; let ph : Bool := false; let x := laneSt s l; let y := { x with frames := insNat x.frames h.src };
     l < 64 ∧ delivers s n h = true ∧ isOlder (epochOf s h.tenant) h.epoch = false ∧ x.phase = ph ∧ gateOn s 97 = true ∧
     x.lenNext = [] ∧ x.waiting = [] ∧ on s (fTrsLcfgEn l) = true ∧ on s (fTrsLcfgXen l) = true ∧
     get s (fTrsLcfgXroot l) = dieOf s ∧ on s (fTrsLcfgTimed l) = false ∧ x.armed = none ∧ x.broken = false ∧
     (localAnd s l && (otherDies s l).all y.frames.contains) = true) ∧
    (let l : Nat := 5; let s : State := lanes live { raised11 with armed := some 6000, due := some 6000 } []; let d : Nat := 6000;
     let e : Nat := 6000; let x := laneSt s l; let first := laneDueBefore s d l = false ∧ laneExpiryBefore s d = false;
     l < 64 ∧ quiet s = true ∧ coreRuns s = true ∧ x.armed = some e ∧ x.due = some d ∧ gateOn s 97 = true ∧ x.lenNext = [] ∧
     x.waiting = [] ∧ (s.now < d ∨ ¬ first)) ∧
    (let l : Nat := 5; let s : State := lanes live { raised11 with armed := some 4000, due := some 4500 } []; let d : Nat := 4500;
     let e : Nat := 4000; let x := laneSt s l; let first := laneDueBefore s d l = false ∧ laneExpiryBefore s d = false;
     l < 64 ∧ quiet s = true ∧ coreRuns s = true ∧ x.armed = some e ∧ x.due = some d ∧ gateOn s 97 = true ∧ x.lenNext = [] ∧
     x.waiting = [] ∧ first ∧ d ≤ s.now ∧ (s.clk.droop = false ∨ d ≠ e)) ∧
    (let l : Nat := 5; let s : State := lanes (dr live) { raised11 with armed := some 4000, due := some 4000 } [];
     let d : Nat := 4000; let e : Nat := 4000; let x := laneSt s l;
     let first := laneDueBefore s d l = false ∧ laneExpiryBefore s d = false;
     l < 64 ∧ quiet s = true ∧ coreRuns s = true ∧ x.armed = some e ∧ x.due = some d ∧ gateOn s 97 = true ∧ x.lenNext = [] ∧
     x.waiting = [] ∧ first ∧ d ≤ s.now ∧ s.clk.droop = true ∧ d = e) ∧
    (let l : Nat := 5; let s : State := lanes live raised11 [(fMarArg0Lane, 5)]; let r : Requester := boss; let x := laneSt s l;
     l < 64 ∧ quiet s = true ∧ manages s r rMarCmd = true ∧ get s fMarArg0Lane = l ∧ on s fMarStBusy = false ∧
     on s (fTrsLcfgEn l) = true ∧ on s (fTrsLcfgXen l) = false ∧ x.lenNext = [] ∧ x.waiting = []) ∧
    (let l : Nat := 5; let s : State := set live [(fMarArg0Lane, 5)]; let r : Requester := boss;
     l < 64 ∧ quiet s = true ∧ manages s r rMarCmd = true ∧ get s fMarArg0Lane = l ∧ on s fMarStBusy = false ∧
     on s (fTrsLcfgEn l) = false) := by
  refine ⟨?_, ?_, ?_, ?_, ?_, ?_⟩ <;> decide +kernel

theorem test_witness_ObjectsAllocatedAndFreed :
    (let a : Nat := 10; let q : Nat := 0; let p : PierNet := p3; let i : Item := item (packet 0x18 64 0 0 0x123#64);
     let s : State := set (ready (packet 0x18 64 0 0 0x123#64)) [(fTenShare0Res 7, 1)]; let k : Kind := .count; let n : Nat := 0;
     let key := slotKey 3 0; let c := stamp s p a q i; let t := c.tenant;
     let entry (n : Nat) : HEntry := htmAt s (1024 * get s (fSemaHtwBase t) + n);
     let param := BitVec.ofNat 48 (wbits (pOperand i.words) 0 48);
     let pref := if fPREF i.words = true then pAux i.words / 8 % 64 else p.router;
     issues s a q p i = true ∧ departs s c = true ∧ pDie i.words = dieOf s ∧ on s fSemaStatHtmReady = true ∧
     SMap.wf s.sema.htm = true ∧ Memory.wf s.mem = true ∧ pOp i.words = some .alloc ∧ kindOf (pAux i.words % 8) = some k ∧
     paramLegal k param = true ∧ n < 1024 * get s (fSemaHtwLen t) ∧ (entry n).state = .unallocated ∧
     ((fANY i.words = true ∧ ∀ m < n, (entry m).state ≠ .unallocated) ∨ (fANY i.words = false ∧ pObj i.words = n ∧ importOf s t n = none)) ∧
     shareFull s t = false ∧ chooseSlot s k param pref = some key) ∧
    (let a : Nat := 10; let q : Nat := 0; let p : PierNet := p3; let i : Item := item (packet 0x18 64 0 0 7#64);
     let s : State := set (ready (packet 0x18 64 0 0 7#64)) [(fTenShare0Res 7, 1),(fTenShare0Res 7, 0), (fSemaBackEn 7, 1), (fSemaBackAddr 7, 16)];
     let k : Kind := .count; let n : Nat := 0; let c := stamp s p a q i; let t := c.tenant;
     let entry (n : Nat) : HEntry := htmAt s (1024 * get s (fSemaHtwBase t) + n);
     let param := BitVec.ofNat 48 (wbits (pOperand i.words) 0 48);
     let pref := if fPREF i.words = true then pAux i.words / 8 % 64 else p.router;
     issues s a q p i = true ∧ departs s c = true ∧ pDie i.words = dieOf s ∧ on s fSemaStatHtmReady = true ∧
     SMap.wf s.sema.htm = true ∧ Memory.wf s.mem = true ∧ pOp i.words = some .alloc ∧ kindOf (pAux i.words % 8) = some k ∧
     paramLegal k param = true ∧ n < 1024 * get s (fSemaHtwLen t) ∧ (entry n).state = .unallocated ∧
     ((fANY i.words = true ∧ ∀ m < n, (entry m).state ≠ .unallocated) ∨ (fANY i.words = false ∧ pObj i.words = n ∧ importOf s t n = none)) ∧
     (shareFull s t = true ∨ chooseSlot s k param pref = none) ∧ on s (fSemaBackEn t) = true) ∧
    (let a : Nat := 10; let q : Nat := 0; let p : PierNet := p3; let i : Item := item (packet 0x18 64 0 0 7#64);
     let s : State := set (ready (packet 0x18 64 0 0 7#64)) [(fTenShare0Res 7, 1),(fTenShare0Res 7, 0)]; let k : Kind := .count;
     let n : Nat := 0; let c := stamp s p a q i; let t := c.tenant;
     let entry (n : Nat) : HEntry := htmAt s (1024 * get s (fSemaHtwBase t) + n);
     let param := BitVec.ofNat 48 (wbits (pOperand i.words) 0 48);
     let pref := if fPREF i.words = true then pAux i.words / 8 % 64 else p.router;
     issues s a q p i = true ∧ departs s c = true ∧ pDie i.words = dieOf s ∧ on s fSemaStatHtmReady = true ∧
     SMap.wf s.sema.htm = true ∧ Memory.wf s.mem = true ∧ pOp i.words = some .alloc ∧ kindOf (pAux i.words % 8) = some k ∧
     paramLegal k param = true ∧ n < 1024 * get s (fSemaHtwLen t) ∧ (entry n).state = .unallocated ∧
     ((fANY i.words = true ∧ ∀ m < n, (entry m).state ≠ .unallocated) ∨ (fANY i.words = false ∧ pObj i.words = n ∧ importOf s t n = none)) ∧
     (shareFull s t = true ∨ chooseSlot s k param pref = none) ∧ on s (fSemaBackEn t) = false) ∧
    (let a : Nat := 10; let q : Nat := 0; let p : PierNet := p3; let i : Item := item (packet 0x18 0 0 1024 7#64);
     let s : State := set (ready (packet 0x18 0 0 1024 7#64)) [(fTenShare0Res 7, 1)]; let c := stamp s p a q i; let t := c.tenant;
     issues s a q p i = true ∧ departs s c = true ∧ pDie i.words = dieOf s ∧ on s fSemaStatHtmReady = true ∧
     SMap.wf s.sema.htm = true ∧ Memory.wf s.mem = true ∧ pOp i.words = some .alloc ∧ fANY i.words = false ∧
     1024 * get s (fSemaHtwLen t) ≤ pObj i.words) ∧
    (let a : Nat := 10; let q : Nat := 0; let p : PierNet := p3; let i : Item := item (packet 0x18 0 0 5 7#64);
     let s : State := set (ready (packet 0x18 0 0 5 7#64)) [(fTenShare0Res 7, 1)]; let c := stamp s p a q i; let t := c.tenant;
     let entry (n : Nat) : HEntry := htmAt s (1024 * get s (fSemaHtwBase t) + n);
     issues s a q p i = true ∧ departs s c = true ∧ pDie i.words = dieOf s ∧ on s fSemaStatHtmReady = true ∧
     SMap.wf s.sema.htm = true ∧ Memory.wf s.mem = true ∧ pOp i.words = some .alloc ∧ fANY i.words = false ∧
     pObj i.words < 1024 * get s (fSemaHtwLen t) ∧ importOf s t (pObj i.words) = none ∧
     (entry (pObj i.words)).state ≠ .unallocated) ∧
    (let a : Nat := 10; let q : Nat := 0; let p : PierNet := p3; let i : Item := item (packet 0x18 64 5 0 7#64);
     let s : State := set (ready (packet 0x18 64 5 0 7#64)) [(fTenShare0Res 7, 1)]; let c := stamp s p a q i;
     let param := BitVec.ofNat 48 (wbits (pOperand i.words) 0 48);
     issues s a q p i = true ∧ departs s c = true ∧ pDie i.words = dieOf s ∧ on s fSemaStatHtmReady = true ∧
     SMap.wf s.sema.htm = true ∧ Memory.wf s.mem = true ∧ pOp i.words = some .alloc ∧ fANY i.words = true ∧
     (kindOf (pAux i.words % 8) = none ∨ (∃ k, kindOf (pAux i.words % 8) = some k ∧ paramLegal k param = false))) := by
  refine ⟨?_, ?_, ?_, ?_, ?_, ?_⟩ <;> decide +kernel
theorem test_witness_ObjectsAllocatedAndFreed_2 :
    (let a : Nat := 10; let q : Nat := 0; let p : PierNet := p3; let i : Item := item (packet 0x19 0 0 5 0);
     let s : State := set (ready (packet 0x19 0 0 5 0) (obj7 .count 6 6)) [(fTenShare0Res 7, 1)]; let key : Nat := slotKey 3 9;
     let x : Slot := obj7 .count 6 6; let c := stamp s p a q i; let t := c.tenant;
     issues s a q p i = true ∧ departs s c = true ∧ pDie i.words = dieOf s ∧ on s fSemaStatHtmReady = true ∧
     SMap.wf s.sema.htm = true ∧ Memory.wf s.mem = true ∧ pOp i.words = some .free ∧ importOf s t (pObj i.words) = none ∧
     pObj i.words < 1024 * get s (fSemaHtwLen t) ∧ homes s c key x = true ∧
     (((obj7 .count 6 6 : Slot).waiters = [] ∧ (obj7 .count 6 6 : Slot).role = false ∧ (obj7 .count 6 6 : Slot).cbound = false ∧ (if (obj7 .count 6 6 : Slot).kind = .barrier then barArrived (obj7 .count 6 6 : Slot).value = 0 ∧ barArmed (obj7 .count 6 6 : Slot).value = false ∧ barChold (obj7 .count 6 6 : Slot).value = false ∧ barTrel (obj7 .count 6 6 : Slot).value = 0 else if (obj7 .count 6 6 : Slot).kind = .event then (obj7 .count 6 6 : Slot).value.toNat % 2 = (obj7 .count 6 6 : Slot).param.toNat % 2 else (obj7 .count 6 6 : Slot).value.toNat = (obj7 .count 6 6 : Slot).param.toNat))) ∧
     x.tries = [] ∧ mirrorOut s key = false) ∧
    (let a : Nat := 10; let q : Nat := 0; let p : PierNet := p3; let i : Item := item (packet 0x19 0 0 5 0);
     let s : State := set (ready (packet 0x19 0 0 5 0) (obj7 .count 0 6)) [(fTenShare0Res 7, 1)]; let key : Nat := slotKey 3 9;
     let x : Slot := obj7 .count 0 6; let c := stamp s p a q i; let t := c.tenant;
     issues s a q p i = true ∧ departs s c = true ∧ pDie i.words = dieOf s ∧ on s fSemaStatHtmReady = true ∧
     SMap.wf s.sema.htm = true ∧ Memory.wf s.mem = true ∧ pOp i.words = some .free ∧ importOf s t (pObj i.words) = none ∧
     pObj i.words < 1024 * get s (fSemaHtwLen t) ∧ homes s c key x = true ∧
     (¬ ((obj7 .count 0 6 : Slot).waiters = [] ∧ (obj7 .count 0 6 : Slot).role = false ∧ (obj7 .count 0 6 : Slot).cbound = false ∧ (if (obj7 .count 0 6 : Slot).kind = .barrier then barArrived (obj7 .count 0 6 : Slot).value = 0 ∧ barArmed (obj7 .count 0 6 : Slot).value = false ∧ barChold (obj7 .count 0 6 : Slot).value = false ∧ barTrel (obj7 .count 0 6 : Slot).value = 0 else if (obj7 .count 0 6 : Slot).kind = .event then (obj7 .count 0 6 : Slot).value.toNat % 2 = (obj7 .count 0 6 : Slot).param.toNat % 2 else (obj7 .count 0 6 : Slot).value.toNat = (obj7 .count 0 6 : Slot).param.toNat)))) ∧
    (let a : Nat := 10; let q : Nat := 0; let p : PierNet := p3; let i : Item := item (packet 0x19 0 0 4 0);
     let s : State := set (ready (packet 0x19 0 0 4 0)) [(fTenShare0Res 7, 1)]; let c := stamp s p a q i; let t := c.tenant;
     let entry (n : Nat) : HEntry := htmAt s (1024 * get s (fSemaHtwBase t) + n);
     issues s a q p i = true ∧ departs s c = true ∧ pDie i.words = dieOf s ∧ on s fSemaStatHtmReady = true ∧
     SMap.wf s.sema.htm = true ∧ Memory.wf s.mem = true ∧ pOp i.words = some .free ∧ importOf s t (pObj i.words) = none ∧
     pObj i.words < 1024 * get s (fSemaHtwLen t) ∧ (entry (pObj i.words)).state = .unallocated ∧
     (((pierSt s p.pier).cache.find? fun y => decide (y.tenant = t) && decide (y.obj = pObj i.words)) = none) ∧
     s.sema.rebuild = []) ∧
    (let a : Nat := 10; let q : Nat := 0; let p : PierNet := p3; let i : Item := item (packet 0x1A 0 0 0 0);
     let s : State := set (ready (packet 0x1A 0 0 0 0)) [(fTenShare0Res 7, 1),(fFwStatRun, 0)]; let c := stamp s p a q i;
     issues s a q p i = true ∧ departs s c = true ∧ pDie i.words = dieOf s ∧ on s fSemaStatHtmReady = true ∧
     SMap.wf s.sema.htm = true ∧ Memory.wf s.mem = true ∧ pOp i.words = some .audit ∧ fwRuns s = false) ∧
    (let a : Nat := 10; let q : Nat := 0; let p : PierNet := p3; let i : Item := item (packet 0x1A 0 0 0 0);
     let s : State := set (ready (packet 0x1A 0 0 0 0)) [(fTenShare0Res 7, 1)]; let c := stamp s p a q i; let t := c.tenant;
     issues s a q p i = true ∧ departs s c = true ∧ pDie i.words = dieOf s ∧ on s fSemaStatHtmReady = true ∧
     SMap.wf s.sema.htm = true ∧ Memory.wf s.mem = true ∧ pOp i.words = some .audit ∧ fwRuns s = true ∧
     on s (fSemaBackEn t) = false) ∧
    (let a : Nat := 10; let q : Nat := 0; let p : PierNet := p3; let i : Item := item (packet 0x1A 0 0 0 0);
     let s : State := set (ready (packet 0x1A 0 0 0 0)) [(fTenShare0Res 7, 1),(fSemaBackEn 7, 1), (fSemaBackAddr 7, 16), (fSemaBackAudn 7, 1)];
     let c := stamp s p a q i; let t := c.tenant;
     issues s a q p i = true ∧ departs s c = true ∧ pDie i.words = dieOf s ∧ on s fSemaStatHtmReady = true ∧
     SMap.wf s.sema.htm = true ∧ Memory.wf s.mem = true ∧ pOp i.words = some .audit ∧ fwRuns s = true ∧
     on s (fSemaBackEn t) = true ∧ (∀ y ∈ s.sema.slots, y.2.tenant = t → (y.2.paired && s.flt.differ.contains y.1) = false)) := by
  refine ⟨?_, ?_, ?_, ?_, ?_, ?_⟩ <;> decide +kernel

theorem test_witness_CombineArrivals :
    (let a : Nat := 10; let q : Nat := 0; let k : Nat := 3; let p : PierNet := p3;
     let i : Item := { item (combPkt 0 1 0 128 100) with st := .stalled .barrier, cmd := some (cmdOf 10 3 7 (combPkt 0 1 0 128 100)) };
     let c : Cmd := cmdOf 10 3 7 (combPkt 0 1 0 128 100);
     let s : State := held (combPkt 0 1 0 128 100) (.stalled .barrier) (obj7 .barrier 3 0);
     ctxAt s k = none ∧ resumes s a q p i c = true ∧ nextToIssue s p = some (localIdx p a, q) ∧ noticeDue s c = false ∧
     i.st = .stalled .barrier ∧ pOp i.words = some .arriveCombine ∧ pCtx i.words = k ∧ pDie i.words = dieOf s ∧
     inScratch s a (pSrc i.words) 1 = true ∧ inScratch s a (pDst i.words) 1 = true) ∧
    (let a : Nat := 10; let q : Nat := 0; let k : Nat := 3; let p : PierNet := p3;
     let i : Item := { item (combPkt 0 8 0 128 100) with st := .stalled .barrier, cmd := some (cmdOf 10 3 7 (combPkt 0 8 0 128 100)) };
     let c : Cmd := cmdOf 10 3 7 (combPkt 0 8 0 128 100);
     let s : State := combHeld (combPkt 0 8 0 128 100) (ctx7) (obj7 .barrier 3 0); let x : Ctx := ctx7;
     let sp (o n : Nat) : Bool := inScratch s a o n; let src := pSrc i.words; let dst := pDst i.words;
     ctxAt s k = some x ∧ resumes s a q p i c = true ∧ nextToIssue s p = some (localIdx p a, q) ∧ noticeDue s c = false ∧
     i.st = .stalled .barrier ∧ pOp i.words = some .arriveCombine ∧ pCtx i.words = k ∧ pDie i.words = dieOf s ∧
     sp src (payLen x) = true ∧ sp dst (resLen x) = true ∧
     ((x.tenant ≠ c.tenant ∨ x.bhandle ≠ pHandle i.words ∨ x.pcap ≤ pPidx i.words ∨ src % 64 ≠ 0 ∨ dst % 64 ≠ 0 ∨ (∃ o ∈ x.parts, o.pidx = pPidx i.words)))) ∧
    (let a : Nat := 10; let q : Nat := 0; let k : Nat := 3; let p : PierNet := p3;
     let i : Item := { item (combPkt 8 0 0 128 100) with st := .stalled .bound, cmd := some (cmdOf 10 3 7 (combPkt 8 0 0 128 100)) };
     let c : Cmd := cmdOf 10 3 7 (combPkt 8 0 0 128 100);
     let s : State := combHeld (combPkt 8 0 0 128 100) ({ ctx7 with st := .closed }) (obj7 .barrier 3 0) .bound;
     let x : Ctx := { ctx7 with st := .closed }; let sp (o n : Nat) : Bool := inScratch s a o n; let src := pSrc i.words;
     let dst := pDst i.words;
     ctxAt s k = some x ∧ resumes s a q p i c = true ∧ nextToIssue s p = some (localIdx p a, q) ∧ noticeDue s c = false ∧
     i.st = .stalled .bound ∧ pOp i.words = some .arriveCombine ∧ pCtx i.words = k ∧ pDie i.words = dieOf s ∧
     sp src (payLen x) = true ∧ sp dst (resLen x) = true ∧
     (¬ (x.tenant ≠ c.tenant ∨ x.bhandle ≠ pHandle i.words ∨ x.pcap ≤ pPidx i.words ∨ src % 64 ≠ 0 ∨ dst % 64 ≠ 0 ∨ (∃ o ∈ x.parts, o.pidx = pPidx i.words))) ∧
     x.st = .closed ∧ fTRY i.words = true) ∧
    (let a : Nat := 10; let q : Nat := 0; let k : Nat := 3; let p : PierNet := p3;
     let i : Item := { item (combPkt 0 0 0 128 100) with st := .stalled .bound, cmd := some (cmdOf 10 3 7 (combPkt 0 0 0 128 100)) };
     let c : Cmd := cmdOf 10 3 7 (combPkt 0 0 0 128 100);
     let s : State := combHeld (combPkt 0 0 0 128 100) ({ ctx7 with st := .closed }) (obj7 .barrier 3 0) .bound;
     let x : Ctx := { ctx7 with st := .closed }; let sp (o n : Nat) : Bool := inScratch s a o n; let src := pSrc i.words;
     let dst := pDst i.words;
     ctxAt s k = some x ∧ resumes s a q p i c = true ∧ nextToIssue s p = some (localIdx p a, q) ∧ noticeDue s c = false ∧
     i.st = .stalled .bound ∧ pOp i.words = some .arriveCombine ∧ pCtx i.words = k ∧ pDie i.words = dieOf s ∧
     sp src (payLen x) = true ∧ sp dst (resLen x) = true ∧
     (¬ (x.tenant ≠ c.tenant ∨ x.bhandle ≠ pHandle i.words ∨ x.pcap ≤ pPidx i.words ∨ src % 64 ≠ 0 ∨ dst % 64 ≠ 0 ∨ (∃ o ∈ x.parts, o.pidx = pPidx i.words))) ∧
     x.st = .closed ∧ fTRY i.words = false) ∧
    (let a : Nat := 10; let q : Nat := 0; let k : Nat := 3; let p : PierNet := p3;
     let i : Item := { item (combPkt 0 0 0 128 100) with st := .stalled .barrier, cmd := some (cmdOf 10 3 7 (combPkt 0 0 0 128 100)) };
     let c : Cmd := cmdOf 10 3 7 (combPkt 0 0 0 128 100);
     let s : State := combHeld (combPkt 0 0 0 128 100) (ctx7) (obj7 .barrier 3 0); let x : Ctx := ctx7;
     let key : Nat := slotKey 3 9; let b : Slot := obj7 .barrier 3 0; let sp (o n : Nat) : Bool := inScratch s a o n;
     let src := pSrc i.words; let dst := pDst i.words;
     ctxAt s k = some x ∧ resumes s a q p i c = true ∧ nextToIssue s p = some (localIdx p a, q) ∧ noticeDue s c = false ∧
     i.st = .stalled .barrier ∧ pOp i.words = some .arriveCombine ∧ pCtx i.words = k ∧ pDie i.words = dieOf s ∧
     sp src (payLen x) = true ∧ sp dst (resLen x) = true ∧
     (¬ (x.tenant ≠ c.tenant ∨ x.bhandle ≠ pHandle i.words ∨ x.pcap ≤ pPidx i.words ∨ src % 64 ≠ 0 ∨ dst % 64 ≠ 0 ∨ (∃ o ∈ x.parts, o.pidx = pPidx i.words))) ∧
     (x.st = .open ∨ x.st = .active) ∧ x.parts.length < x.lmax ∧ x.aborted = false ∧ x.tenant < 256 ∧ homes s c key b = true ∧
     b.kind = .barrier ∧ parMode b.param = 0 ∧ barArmed b.value = false ∧ barChold b.value = false ∧
     barArrived b.value + 1 < parExpect b.param ∧ unwatched b = true ∧ b.aborted = false ∧ (tenSt s b.tenant).st ≠ .quiescing ∧
     (fSPLIT i.words = true ∨ (outOfTime s c = false ∧ tenWaits s c.tenant < 64 * get s (fTenShare0Waits c.tenant) ∧ tableUse s (sliceOf key) < 1024 ∧ sliceOn s (sliceOf key) = true))) ∧
    (let k : Nat := 3; let c : Cmd := combCmd 10 0;
     let s : State := withNotice (setCtx live 3 ({ ctx7 with parts := [part0 10 0] })) (3, combCmd 10 0, .accepted true);
     let x : Ctx := { ctx7 with parts := [part0 10 0] }; let rest := []; let ph := true;
     ctxAt s k = some x ∧ quiet s = true ∧ coreRuns s = true ∧ isOlder (epochOf s c.tenant) c.epoch = false ∧ x.closed1 = false ∧
     x.aborted = false ∧ x.st ≠ .closed ∧ s.gir.notices = (k, c, .accepted ph) :: rest) := by
  refine ⟨?_, ?_, ?_, ?_, ?_, ?_⟩ <;> decide +kernel
theorem test_witness_CombineArrivals_2 :
    (let k : Nat := 3; let c : Cmd := combCmd 10 0;
     let s : State := withNotice (setCtx live 3 ({ ctx7 with st := .active, parts := [part 11 1, part0 10 0] })) (3, combCmd 10 0, .rejected .badop);
     let x : Ctx := { ctx7 with st := .active, parts := [part 11 1, part0 10 0] }; let rest := []; let st := .badop;
     ctxAt s k = some x ∧ quiet s = true ∧ coreRuns s = true ∧ isOlder (epochOf s c.tenant) c.epoch = false ∧ x.closed1 = false ∧
     x.aborted = false ∧ x.st ≠ .closed ∧ s.gir.notices = (k, c, .rejected st) :: rest) := by decide +kernel

theorem test_witness_RoutesStaged :
    (let a : Nat := 10; let q : Nat := 0; let p : PierNet := p3; let i : Item := item (routePkt 0 (ent 0 3 0));
     let s : State := ready (routePkt 0 (ent 0 3 0)) (obj7 .count 0 6); let c := stamp s p a q i; let ds := routeDies s i.words;
     let live := ds.filter fun d => decide (d = dieOf s) || !inLost s d;
     issues s a q p i = true ∧ departs s c = true ∧ pOp i.words = some .route ∧ live ≠ [] ∧ s.rt.gathers = []) ∧
    (let key : Nat := slotKey 3 9; let tag : Nat := 4;
     let i : Item := { item routeCmd.words with st := .out, cmd := some routeCmd }; let c : Cmd := routeCmd;
     let s : State := sreport (routing routeCmd { obj7 .count 0 9 with pend := [4] } [gatherOf routeCmd [(0, 4)]] [{ partOf routeCmd ⟨0, 3, 0, 0⟩ with staged := [(0, .slice 3, slotKey 3 9)] }] live) (3, 4, 0, .ok);
     let i : Item := { item routeCmd.words with st := .out, cmd := some routeCmd }; let g : Gather := gatherOf routeCmd [(0, 4)];
     let pt : Part := { partOf routeCmd ⟨0, 3, 0, 0⟩ with staged := [(0, .slice 3, slotKey 3 9)] };
     let e : REntry := ⟨0, 3, 0, 0⟩; let st : Status := .ok; let src : Nat := 3;
     quiet s = true ∧ coreRuns s = true ∧ itemOf s c = some i ∧ i.words = c.words ∧ c.die = dieOf s ∧ pOp c.words = some .route ∧
     isOlder (epochOf s c.tenant) c.epoch = false ∧ s.gir.sreports = [(src, tag, e.idx, st)] ∧
     ((s.gir.commits.any fun y => decide (y.1 = tag)) = false) ∧ s.rt.parts = [pt] ∧ pt.tag = tag ∧ pt.cmd = c ∧
     pt.origin = none ∧ pt.entries = [(e, none)] ∧ e.idx < 32 ∧ s.rt.gathers = [g] ∧ g.cmd = c ∧ g.waiting = [(dieOf s, tag)] ∧
     g.resend = [] ∧ g.failed = [] ∧ g.dt = none ∧ (pt.staged = (if st = .ok then [(e.idx, .slice (sliceOf key), key)] else []))) ∧
    (let key : Nat := slotKey 3 9; let tag : Nat := 4;
     let s : State := commit (routing routeCmd ({ obj7 .count 0 9 with pend := [4], stagedRel := [(4, ⟨10, 3, 0, 0⟩)] }) [] [{ partOf routeCmd ⟨0, 3, 0, 0⟩ with staged := [(0, .slice 3, slotKey 3 9)], entries := [(⟨0, 3, 0, 0⟩, some .ok)] }] live) (4, .slice 3, 0);
     let pt : Part := { partOf routeCmd ⟨0, 3, 0, 0⟩ with staged := [(0, .slice 3, slotKey 3 9)], entries := [(⟨0, 3, 0, 0⟩, some .ok)] };
     let x : Slot := { obj7 .count 0 9 with pend := [4], stagedRel := [(4, ⟨10, 3, 0, 0⟩)] }; let idx : Nat := 0;
     let w : Nat := 0;
     quiet s = true ∧ coreRuns s = true ∧ s.rt.parts = [pt] ∧ pt.tag = tag ∧
     isOlder (epochOf s pt.cmd.tenant) pt.cmd.epoch = false ∧ pt.staged = [(idx, .slice (sliceOf key), key)] ∧
     ((pt.entries.any fun e => decide (e.1.idx = idx)) = true) ∧ s.gir.commits = [(tag, .slice (sliceOf key), w)] ∧
     slotAt s key = some x ∧ unwatched x = true ∧ x.paused = false) := by
  refine ⟨?_, ?_, ?_⟩ <;> decide +kernel

theorem test_witness_RoutesAcrossDies :
    (let n : Nat := 0; let h : Hdr := fromZero; let s : State := set (bind (torus 4)) [(⟨rCoreReach, 0, 1⟩, 1)];
     let pt : RPart := ⟨withDie routeCmd 0, 6, none, [⟨0, 3, 0, 1⟩]⟩; let c := pt.cmd; let x := portSt s n;
     delivers s n h = true ∧ stampOf s.now h c = c ∧ c.die ≠ dieOf s ∧ x.gone = [] ∧ inReach s c.die = true ∧
     epochOf s c.tenant = c.epoch ∧ (tenSt s c.tenant).st = .active ∧ x.hold = [] ∧ qexpOf x (qKey c) = h.qseq ∧ h.qseq < 65536 ∧
     pt.dw = none ∧ s.rt.parts = []) ∧
    (let n : Nat := 0; let h : Hdr := fromZero; let s : State := set (bind (torus 4)) [(⟨rCoreReach, 0, 1⟩, 1)];
     let pt : RPart := ⟨withDie routeCmd 0, 6, some 70#32, [⟨0, 3, 0, 1⟩]⟩; let c := pt.cmd; let x := portSt s n;
     delivers s n h = true ∧ stampOf s.now h c = c ∧ c.die ≠ dieOf s ∧ x.gone = [] ∧ inReach s c.die = true ∧
     epochOf s c.tenant = c.epoch ∧ (tenSt s c.tenant).st = .active ∧ x.hold = [] ∧ qexpOf x (qKey c) = h.qseq ∧ h.qseq < 65536 ∧
     dwPass s c pt.dw = false) ∧
    (let n : Nat := 0; let h : Hdr := fromOne;
     let s : State := routing routeCmd2 (obj7 .count 0 6) [gatherOf routeCmd2 [(1, 6)]] [] torus0;
     let i : Item := { item routeCmd2.words with st := .out, cmd := some routeCmd2 }; let c : Cmd := routeCmd2;
     let g : Gather := gatherOf routeCmd2 [(1, 6)]; let r : PReport := ⟨6, 0, .ok, some 4800⟩;
     delivers s n h = true ∧ ownCmd s c = some c ∧ itemOf s c = some i ∧ i.words = c.words ∧ c.die = dieOf s ∧
     (((queueOf s c.agent c.queue).items.find? fun j => decide (j.cmd = some c)) = some i) ∧ pOp c.words = some .route ∧
     isOlder (epochOf s h.tenant) h.epoch = false ∧ isOlder (epochOf s c.tenant) c.epoch = false ∧ s.rt.gathers = [g] ∧
     g.cmd = c ∧ r.status ≠ .dataLate ∧ g.failed = [] ∧ g.resend = [] ∧ g.waiting = [(h.src, r.tag)] ∧ g.dt = none) ∧
    (let n : Nat := 0; let h : Hdr := fromOne;
     let s : State := routing routeCmd2 (obj7 .count 0 6) [gatherOf routeCmd2 [(0, 4), (1, 6)]] [] torus0;
     let i : Item := { item routeCmd2.words with st := .out, cmd := some routeCmd2 }; let c : Cmd := routeCmd2;
     let g : Gather := gatherOf routeCmd2 [(0, 4), (1, 6)]; let r : PReport := ⟨6, 0, .ok, some 4800⟩; let w := (0, 4);
     delivers s n h = true ∧ ownCmd s c = some c ∧ itemOf s c = some i ∧ i.words = c.words ∧ c.die = dieOf s ∧
     (((queueOf s c.agent c.queue).items.find? fun j => decide (j.cmd = some c)) = some i) ∧ pOp c.words = some .route ∧
     isOlder (epochOf s h.tenant) h.epoch = false ∧ isOlder (epochOf s c.tenant) c.epoch = false ∧ s.rt.gathers = [g] ∧
     g.cmd = c ∧ r.status ≠ .dataLate ∧ g.failed = [] ∧ g.resend = [] ∧ w ∈ g.waiting ∧ w ≠ (h.src, r.tag) ∧
     (h.src, r.tag) ∈ g.waiting) := by
  refine ⟨?_, ?_, ?_, ?_⟩ <;> decide +kernel

theorem test_witness_TranslationsAndReplies :
    (let p : Nat := 3; let s : State := fills live [(5, xl 5 1 1), (3, xl 5 2 2), (3, xl 8 1 1)] [];
     let pre := [((5 : Nat), xl 5 1 1)]; let x := xl 5 2 2; let rest := [((3 : Nat), xl 8 1 1)];
     quiet s = true ∧ coreRuns s = true ∧ s.gir.fills = pre ++ (p, x) :: rest ∧ (∀ f ∈ pre, f.1 ≠ p)) ∧
    (let p : Nat := 3; let s : State := fills live [] [(3, xl 5 3 9)]; let pre := ([] : List (Nat × Xlat)); let x := xl 5 3 9;
     let rest := ([] : List (Nat × Xlat));
     quiet s = true ∧ coreRuns s = true ∧ s.gir.invs = pre ++ (p, x) :: rest ∧ (∀ f ∈ pre, f.1 ≠ p)) ∧
    (let p : Nat := 3;
     let s : State := setQueue (bind live) 10 0 { Queue.zero with items := [{ item (addPkt 1) with st := .done ⟨7, .ok, 0, 4900⟩ (.invalAsked 0), cmd := some (cmdOf 10 3 7 (addPkt 1)) }, { item (addPkt 1) with st := .done ⟨7, .ok, 0, 4900⟩ .inval, cmd := some (cmdOf 10 3 7 (addPkt 1)) }] };
     let n : PierNet := p3; let ag : Nat := 0; let a : Nat := 10; let q : Nat := 0; let sc : Nat := 0;
     let i : Item := { item (addPkt 1) with st := .done ⟨7, .ok, 0, 4900⟩ (.invalAsked 0), cmd := some (cmdOf 10 3 7 (addPkt 1)) };
     let r : Reply := ⟨7, .ok, 0, 4900⟩;
     quiet s = true ∧ pierNet s p = some n ∧ agentAt n ag = some a ∧ q < 4 ∧ pierOf s a = some n ∧ n.pier = p ∧
     (((queueOf s a q).items.find? fun j => (match j.st with | .done _ (.invalAsked _) => true | _ => false)) = some i) ∧
     i.st = .done r (.invalAsked sc)) ∧
    (let p : Nat := 3;
     let s : State := setPier (setQueue (bind live) 10 0 { Queue.zero with items := { ({ item (addPkt 1) with st := .done ⟨7, .ok, 0, 4900⟩ .nothing, cmd := some (cmdOf 10 3 7 (addPkt 1)) } : Item) with traced := false } :: [] }) 3 { pierSt live 3 with ar := some (10, 0) };
     let n : PierNet := p3; let a : Nat := 10; let q : Nat := 0;
     let i : Item := { ({ item (addPkt 1) with st := .done ⟨7, .ok, 0, 4900⟩ .nothing, cmd := some (cmdOf 10 3 7 (addPkt 1)) } : Item) with traced := false };
     let rest : List Item := []; let r : Reply := ⟨7, .ok, 0, 4900⟩; let c : Cmd := cmdOf 10 3 7 (addPkt 1);
     quiet s = true ∧ pierRuns s = true ∧ pierNet s p = some n ∧ n.pier = p ∧ (pierSt s p).ar = some (a, q) ∧
     (queueOf s a q).items = i :: rest ∧ i.st = .done r .nothing ∧ i.cmd = some c) := by
  refine ⟨?_, ?_, ?_, ?_⟩ <;> decide +kernel

theorem test_witness_WakesGoOut :
    (let s : State := ready (addPkt 2) ({ obj7 .seq 0 6 with waiters := [waiter waitCmd11 8] }); let a : Nat := 10;
     let q : Nat := 0; let key : Nat := slotKey 3 9; let p : PierNet := p3; let i : Item := item (addPkt 2);
     let x : Slot := { obj7 .seq 0 6 with waiters := [waiter waitCmd11 8] }; let w : Waiter := waiter waitCmd11 8;
     let c := stamp s p a q i;
     quiet s = true ∧ coreRuns s = true ∧ issues s a q p i = true ∧ departs s c = true ∧ homes s c key x = true ∧
     pOp i.words = some .sigAdd ∧ x.kind = .seq ∧ x.waiters = [w] ∧ x.tries = [] ∧ pOp w.cmd.words = some .waitGe ∧
     fACQ w.cmd.words = false ∧ isPendingObj s key x = false ∧ pOperand i.words ≠ 0) ∧
    (let s : State := waking (set live [(fWaitCtlPaceEn, 1)]) [(3, [wakeOf waitCmd, wakeOf waitCmd11])] [] (some 1);
     quiet s = true ∧ coreRuns s = true ∧ windowDue s s.now = true) ∧
    (let s : State := waking live [(3, [wakeOf waitCmd, wakeOf waitCmd11])] [] (some 1); let sl : Nat := 3;
     quiet s = true ∧ coreRuns s = true ∧ (∀ y ∈ s.wk.ports, y.1 ≠ sl → y.2 = [])) ∧
    (let s : State := waking live [(3, [wakeOf waitCmd, wakeOf waitCmd11])] [] none; let sl : Nat := 3;
     let own := mgetD s.wk.ports sl [];
     quiet s = true ∧ coreRuns s = true ∧ windowDue s s.now = false ∧ own ≠ [] ∧ (∀ w ∈ own, w.cmd.die = dieOf s)) ∧
    (let s : State := waking (set live [(fWaitCtlStealEn, 1)]) [] [(⟨5, 0, [wakeOf waitCmd, wakeOf waitCmd11]⟩ : Batch), (⟨9, 1, [wakeOf waitCmd]⟩ : Batch)] none;
     let sl : Nat := 0; let pre := ([] : List Batch); let t := (⟨5, 0, [wakeOf waitCmd, wakeOf waitCmd11]⟩ : Batch);
     let rest := [(⟨9, 1, [wakeOf waitCmd]⟩ : Batch)]; let own := mgetD s.wk.ports sl [];
     quiet s = true ∧ coreRuns s = true ∧ windowDue s s.now = false ∧ own = [] ∧ s.wk.budget = none ∧ sliceOn s sl = true ∧
     s.wk.pool = pre ++ t :: rest ∧ (on s fWaitCtlStealEn = true → pre.length = count (sliceFree s) (List.range sl)) ∧
     (on s fWaitCtlStealEn = false → t.slice = sl ∧ ∀ y ∈ pre, y.slice ≠ sl) ∧ (∀ x ∈ s.sema.slots, x.2.paused = false) ∧
     (∀ w ∈ t.wakes, w.cmd.die = dieOf s)) ∧
    (let s : State := girWakes waitsOut [wakeOf (cmdOf 12 5 7 (packet 4 0 0 5 8)), wakeOf waitCmd]; let p : Nat := 3;
     let sl : Nat := 3; let pre : List (Nat × Wake) := [((3 : Nat), wakeOf (cmdOf 12 5 7 (packet 4 0 0 5 8)))];
     let w : Wake := wakeOf waitCmd; let rest : List (Nat × Wake) := ([] : List (Nat × Wake)); let i : Item := outItem;
     quiet s = true ∧ coreRuns s = true ∧ s.gir.wakes = pre ++ (sl, w) :: rest ∧ (∀ v ∈ pre, v.2.cmd.pier ≠ p) ∧ w.cmd.pier = p ∧
     itemOf s w.cmd = some i ∧ i.words = w.cmd.words ∧ w.cmd.die = dieOf s ∧ pDie w.cmd.words = dieOf s ∧
     isOlder (epochOf s w.cmd.tenant) w.cmd.epoch = false ∧ w.reply.status ≠ .dataLate) := by
  refine ⟨?_, ?_, ?_, ?_, ?_, ?_⟩ <;> decide +kernel
theorem test_witness_WakesGoOut_2 :
    (let s : State := waking { live with now := 200 } [] [] (some 1); let n := windowOf (firstDue s);
     quiet s = true ∧ coreRuns s = true ∧ n ≤ s.wk.window) ∧
    (let s : State := waking { live with now := 5000000 } [] [] (some 1); let n := windowOf (firstDue s);
     quiet s = true ∧ coreRuns s = true ∧ s.wk.window < n) := by
  refine ⟨?_, ?_⟩ <;> decide +kernel

theorem test_witness_WaitsEnd :
    (let a : Nat := 10; let q : Nat := 0;
     let i : Item := { item waitCmd.words with st := .stalled .bank, cmd := some { waitCmd with deadline := some 4984 } };
     let c : Cmd := { waitCmd with deadline := some 4984 }; let s : State := heldWait 4984; let d := 4984;
     quiet s = true ∧ coreRuns s = true ∧ s.flt.shadows = [] ∧ heldOf s (dieOf s) a q = none ∧ noneRefused s = true ∧
     c.agent = a ∧ c.queue = q ∧ c.die = dieOf s ∧ itemOf s c = some i ∧ i.cmd = some c ∧ i.words = c.words ∧
     blocking c.words = true ∧ isOlder (epochOf s c.tenant) c.epoch = false ∧ pOp c.words ≠ some .arriveCombine ∧
     pDie c.words = dieOf s ∧ heldAtPier s a q = some c ∧ c.deadline = some d ∧ pTimeout c.words ≠ 0 ∧
     ceilTo 16 d ≤ pierTime s c.pier) ∧
    (let a : Nat := 10; let q : Nat := 0;
     let i : Item := { item waitCmd.words with st := .stalled .bank, cmd := some { waitCmd with deadline := some 4993 } };
     let c : Cmd := { waitCmd with deadline := some 4993 }; let s : State := heldWait 4993; let d := 4993;
     quiet s = true ∧ coreRuns s = true ∧ s.flt.shadows = [] ∧ heldOf s (dieOf s) a q = none ∧ noneRefused s = true ∧
     c.agent = a ∧ c.queue = q ∧ c.die = dieOf s ∧ itemOf s c = some i ∧ i.cmd = some c ∧ i.words = c.words ∧
     blocking c.words = true ∧ isOlder (epochOf s c.tenant) c.epoch = false ∧ pOp c.words ≠ some .arriveCombine ∧
     pDie c.words = dieOf s ∧ heldAtPier s a q = some c ∧ c.deadline = some d ∧ pTimeout c.words ≠ 0 ∧
     pierTime s c.pier < ceilTo 16 d) ∧
    (let a : Nat := 10; let q : Nat := 0; let i : Item := { outItem with cmd := some ({ waitCmd with deadline := some 4984 }) };
     let c : Cmd := { waitCmd with deadline := some 4984 }; let s : State := waitsAt (some 4984); let key : Nat := slotKey 3 9;
     let w : Waiter := { waiter ({ waitCmd with deadline := some 4984 }) 8 2 with wdog := 0 };
     let x : Slot := { obj7 .count 0 6 with waiters := [{ waiter ({ waitCmd with deadline := some 4984 }) 8 2 with wdog := 0 }] };
     let d := 4984;
     quiet s = true ∧ coreRuns s = true ∧ s.flt.shadows = [] ∧ heldOf s (dieOf s) a q = none ∧ noneRefused s = true ∧
     c.agent = a ∧ c.queue = q ∧ c.die = dieOf s ∧ itemOf s c = some i ∧ i.cmd = some c ∧ i.words = c.words ∧
     blocking c.words = true ∧ isOlder (epochOf s c.tenant) c.epoch = false ∧ pOp c.words ≠ some .arriveCombine ∧
     pDie c.words = dieOf s ∧ i.st = .out ∧ heldAtPier s a q = none ∧ allWaiters s = [(key, w)] ∧ w.cmd = c ∧
     slotAt s key = some x ∧ x.waiters = [w] ∧ w.cause = none ∧ isLane c.words = false ∧ c.deadline = some d ∧
     pTimeout c.words ≠ 0 ∧ ceilTo 16 d ≤ s.now ∧ cancelsOf s a q = [] ∧ windowDue s (ceilTo 16 d) = false ∧
     releaseBefore s (sliceOf key) (ceilTo 16 d + 1) 0 = false) ∧
    (let a : Nat := 10; let q : Nat := 0; let i : Item := { outItem with cmd := some ({ waitCmd with deadline := none }) };
     let c : Cmd := { waitCmd with deadline := none };
     let s : State := withCancel (waitsAt none) ({ waitCmd with deadline := none }, 1); let key : Nat := slotKey 3 9;
     let w : Waiter := { waiter ({ waitCmd with deadline := none }) 8 2 with wdog := 0 };
     let x : Slot := { obj7 .count 0 6 with waiters := [{ waiter ({ waitCmd with deadline := none }) 8 2 with wdog := 0 }] };
     let code := 1;
     quiet s = true ∧ coreRuns s = true ∧ s.flt.shadows = [] ∧ heldOf s (dieOf s) a q = none ∧ noneRefused s = true ∧
     c.agent = a ∧ c.queue = q ∧ c.die = dieOf s ∧ itemOf s c = some i ∧ i.cmd = some c ∧ i.words = c.words ∧
     blocking c.words = true ∧ isOlder (epochOf s c.tenant) c.epoch = false ∧ pOp c.words ≠ some .arriveCombine ∧
     pDie c.words = dieOf s ∧ i.st = .out ∧ heldAtPier s a q = none ∧ allWaiters s = [(key, w)] ∧ w.cmd = c ∧
     slotAt s key = some x ∧ x.waiters = [w] ∧ w.cause = none ∧ isLane c.words = false ∧ code < 256 ∧ s.gir.cancels = [(c, code)]) ∧
    (let a : Nat := 10; let q : Nat := 0; let i : Item := { outItem with cmd := some ({ waitCmd with deadline := none }) };
     let c : Cmd := { waitCmd with deadline := none };
     let s : State := set (waitsAt none 4990) [(fWaitWdogEn, 1), (fWaitWdogEnd, 1)]; let key : Nat := slotKey 3 9;
     let w : Waiter := { waiter ({ waitCmd with deadline := none }) 8 2 with wdog := 4990 };
     let x : Slot := { obj7 .count 0 6 with waiters := [{ waiter ({ waitCmd with deadline := none }) 8 2 with wdog := 4990 }] };
     quiet s = true ∧ coreRuns s = true ∧ s.flt.shadows = [] ∧ heldOf s (dieOf s) a q = none ∧ noneRefused s = true ∧
     c.agent = a ∧ c.queue = q ∧ c.die = dieOf s ∧ itemOf s c = some i ∧ i.cmd = some c ∧ i.words = c.words ∧
     blocking c.words = true ∧ isOlder (epochOf s c.tenant) c.epoch = false ∧ pOp c.words ≠ some .arriveCombine ∧
     pDie c.words = dieOf s ∧ i.st = .out ∧ heldAtPier s a q = none ∧ allWaiters s = [(key, w)] ∧ w.cmd = c ∧
     slotAt s key = some x ∧ x.waiters = [w] ∧ w.cause = none ∧ isLane c.words = false ∧ on s fWaitWdogEn = true ∧
     c.deadline = none ∧ w.wdog < s.now ∧ resetsNothing s bWait 2 = true ∧ on s fWaitWdogEnd = true) ∧
    (let a : Nat := 10; let q : Nat := 0; let i : Item := { outItem with cmd := some ({ waitCmd with deadline := none }) };
     let c : Cmd := { waitCmd with deadline := none };
     let s : State := set (waitsAt none 4990) [(fWaitWdogEn, 1), (fWaitWdogEnd, 0)]; let key : Nat := slotKey 3 9;
     let w : Waiter := { waiter ({ waitCmd with deadline := none }) 8 2 with wdog := 4990 };
     let x : Slot := { obj7 .count 0 6 with waiters := [{ waiter ({ waitCmd with deadline := none }) 8 2 with wdog := 4990 }] };
     quiet s = true ∧ coreRuns s = true ∧ s.flt.shadows = [] ∧ heldOf s (dieOf s) a q = none ∧ noneRefused s = true ∧
     c.agent = a ∧ c.queue = q ∧ c.die = dieOf s ∧ itemOf s c = some i ∧ i.cmd = some c ∧ i.words = c.words ∧
     blocking c.words = true ∧ isOlder (epochOf s c.tenant) c.epoch = false ∧ pOp c.words ≠ some .arriveCombine ∧
     pDie c.words = dieOf s ∧ i.st = .out ∧ heldAtPier s a q = none ∧ allWaiters s = [(key, w)] ∧ w.cmd = c ∧
     slotAt s key = some x ∧ x.waiters = [w] ∧ w.cause = none ∧ isLane c.words = false ∧ on s fWaitWdogEn = true ∧
     c.deadline = none ∧ w.wdog < s.now ∧ resetsNothing s bWait 2 = true ∧ on s fWaitWdogEnd = false) := by
  refine ⟨?_, ?_, ?_, ?_, ?_, ?_⟩ <;> decide +kernel
theorem test_witness_WaitsEnd_2 :
    (let a : Nat := 10; let q : Nat := 0; let i : Item := { outItem with cmd := some ({ waitCmd with deadline := none }) };
     let c : Cmd := { waitCmd with deadline := none };
     let s : State := set (waitsAt none 5000) [(fWaitWdogEn, 1), (fWaitWdogEnd, 0)]; let key : Nat := slotKey 3 9;
     let w : Waiter := { waiter ({ waitCmd with deadline := none }) 8 2 with wdog := 5000 };
     let x : Slot := { obj7 .count 0 6 with waiters := [{ waiter ({ waitCmd with deadline := none }) 8 2 with wdog := 5000 }] };
     quiet s = true ∧ coreRuns s = true ∧ s.flt.shadows = [] ∧ heldOf s (dieOf s) a q = none ∧ noneRefused s = true ∧
     c.agent = a ∧ c.queue = q ∧ c.die = dieOf s ∧ itemOf s c = some i ∧ i.cmd = some c ∧ i.words = c.words ∧
     blocking c.words = true ∧ isOlder (epochOf s c.tenant) c.epoch = false ∧ pOp c.words ≠ some .arriveCombine ∧
     pDie c.words = dieOf s ∧ i.st = .out ∧ heldAtPier s a q = none ∧ allWaiters s = [(key, w)] ∧ w.cmd = c ∧
     slotAt s key = some x ∧ x.waiters = [w] ∧ w.cause = none ∧ isLane c.words = false ∧ s.now ≤ w.wdog) ∧
    (let a : Nat := 10; let q : Nat := 0; let i : Item := { outItem with cmd := some ({ waitCmd with deadline := some 4000 }) };
     let c : Cmd := { waitCmd with deadline := some 4000 };
     let s : State := atNow (set (setQueue live 10 0 { Queue.zero with items := [{ outItem with cmd := some ({ waitCmd with deadline := some 4000 }) }] }) [(fPierGuardEn, 1), (fPierGuardGuard, 20)]) 23999;
     let d := 4000; let at_ := d + us (max 16 (get s fPierGuardGuard));
     quiet s = true ∧ coreRuns s = true ∧ s.flt.shadows = [] ∧ heldOf s (dieOf s) a q = none ∧ noneRefused s = true ∧
     c.agent = a ∧ c.queue = q ∧ c.die = dieOf s ∧ itemOf s c = some i ∧ i.cmd = some c ∧ i.words = c.words ∧
     blocking c.words = true ∧ isOlder (epochOf s c.tenant) c.epoch = false ∧ pOp c.words ≠ some .arriveCombine ∧
     pDie c.words = dieOf s ∧ on s fPierGuardEn = true ∧
     (((queueOf s a q).items.find? fun j => decide (j.st = .out) && blocking j.words) = some i) ∧ c.deadline = some d ∧
     resetsNothing s bPier 4 = true ∧ pierTime s c.pier < at_) ∧
    (let a : Nat := 10; let q : Nat := 0; let i : Item := { outItem with cmd := some ({ waitCmd with deadline := some 4000 }) };
     let c : Cmd := { waitCmd with deadline := some 4000 };
     let s : State := atNow (set (setQueue live 10 0 { Queue.zero with items := [{ outItem with cmd := some ({ waitCmd with deadline := some 4000 }) }] }) [(fPierGuardEn, 1), (fPierGuardGuard, 20)]) 24000;
     let d := 4000; let at_ := d + us (max 16 (get s fPierGuardGuard));
     quiet s = true ∧ coreRuns s = true ∧ s.flt.shadows = [] ∧ heldOf s (dieOf s) a q = none ∧ noneRefused s = true ∧
     c.agent = a ∧ c.queue = q ∧ c.die = dieOf s ∧ itemOf s c = some i ∧ i.cmd = some c ∧ i.words = c.words ∧
     blocking c.words = true ∧ isOlder (epochOf s c.tenant) c.epoch = false ∧ pOp c.words ≠ some .arriveCombine ∧
     pDie c.words = dieOf s ∧ on s fPierGuardEn = true ∧
     (((queueOf s a q).items.find? fun j => decide (j.st = .out) && blocking j.words) = some i) ∧ c.deadline = some d ∧
     resetsNothing s bPier 4 = true ∧ at_ ≤ pierTime s c.pier) ∧
    (let a : Nat := 10; let q : Nat := 0; let key : Nat := slotKey 3 9; let due : Nat := 5001; let why : Stall := .bank;
     let p : PierNet := p3;
     let i : Item := { item (packet 4 0 0 5 6) with st := .refused .bank 5001, cmd := some (cmdOf 10 3 7 (packet 4 0 0 5 6)) };
     let x : Slot := obj7 .seq 0 6; let c : Cmd := cmdOf 10 3 7 (packet 4 0 0 5 6);
     let s : State := held (packet 4 0 0 5 6) (.refused .bank 5001) (obj7 .seq 0 6);
     resumes s a q p i c = true ∧ s.rt.gathers = [] ∧ i.st = .refused why due ∧ pOp i.words = some .waitGe ∧
     fACQ i.words = false ∧ homes s c key x = true ∧ x.kind = .seq ∧ (x.value - pOperand i.words).toNat < 2 ^ 63 ∧
     isPendingObj s key x = false ∧ pierTime s p.pier < due) ∧
    (let a : Nat := 10; let q : Nat := 0; let key : Nat := slotKey 3 9; let due : Nat := 5000; let why : Stall := .bank;
     let p : PierNet := p3;
     let i : Item := { item (packet 4 0 0 5 6) with st := .refused .bank 5000, cmd := some (cmdOf 10 3 7 (packet 4 0 0 5 6)) };
     let x : Slot := obj7 .seq 0 6; let c : Cmd := cmdOf 10 3 7 (packet 4 0 0 5 6);
     let s : State := held (packet 4 0 0 5 6) (.refused .bank 5000) (obj7 .seq 0 6);
     resumes s a q p i c = true ∧ s.rt.gathers = [] ∧ i.st = .refused why due ∧ pOp i.words = some .waitGe ∧
     fACQ i.words = false ∧ homes s c key x = true ∧ x.kind = .seq ∧ (x.value - pOperand i.words).toNat < 2 ^ 63 ∧
     isPendingObj s key x = false ∧ due ≤ pierTime s p.pier) ∧
    (let tag : Nat := 4; let key : Nat := slotKey 3 9; let due : Nat := 5001;
     let pt : Part := { partOf routeCmd ⟨0, 3, 0, 0⟩ with retry := [(0, 5001)] }; let e : REntry := ⟨0, 3, 0, 0⟩;
     let x : Slot := obj7 .seq 0 6;
     let s : State := routing routeCmd (obj7 .seq 0 6) [] [{ partOf routeCmd ⟨0, 3, 0, 0⟩ with retry := [(0, 5001)] }] live;
     quiet s = true ∧ coreRuns s = true ∧ s.rt.parts = [pt] ∧ pt.tag = tag ∧ pt.entries = [(e, none)] ∧
     pt.retry = [(e.idx, due)] ∧
     ((match pt.origin with | none => homeSlot s pt.cmd .route (pObj pt.cmd.words + e.offset) | some _ => bankSlot s pt.cmd .route (pObj pt.cmd.words + e.offset)) = some key) ∧
     takesOp s key x = true ∧ isOlder (epochOf s pt.cmd.tenant) pt.cmd.epoch = false ∧ x.kind = .seq ∧
     pendUse s (sliceOf key) < 256 ∧ tag ∉ x.pend ∧ degradedOn s = false ∧ coordTime s pt < due) := by
  refine ⟨?_, ?_, ?_, ?_, ?_, ?_⟩ <;> decide +kernel
theorem test_witness_WaitsEnd_3 :
    (let tag : Nat := 4; let key : Nat := slotKey 3 9; let due : Nat := 5000;
     let pt : Part := { partOf routeCmd ⟨0, 3, 0, 0⟩ with retry := [(0, 5000)] }; let e : REntry := ⟨0, 3, 0, 0⟩;
     let x : Slot := obj7 .seq 0 6;
     let s : State := routing routeCmd (obj7 .seq 0 6) [] [{ partOf routeCmd ⟨0, 3, 0, 0⟩ with retry := [(0, 5000)] }] live;
     quiet s = true ∧ coreRuns s = true ∧ s.rt.parts = [pt] ∧ pt.tag = tag ∧ pt.entries = [(e, none)] ∧
     pt.retry = [(e.idx, due)] ∧
     ((match pt.origin with | none => homeSlot s pt.cmd .route (pObj pt.cmd.words + e.offset) | some _ => bankSlot s pt.cmd .route (pObj pt.cmd.words + e.offset)) = some key) ∧
     takesOp s key x = true ∧ isOlder (epochOf s pt.cmd.tenant) pt.cmd.epoch = false ∧ x.kind = .seq ∧
     pendUse s (sliceOf key) < 256 ∧ tag ∉ x.pend ∧ degradedOn s = false ∧ due ≤ coordTime s pt) := by decide +kernel

theorem test_witness_TimedReleases :
    (let sl : Nat := 3; let st : Nat := 9;
     let s : State := withObj live ({ obj7 .barrier 262147 (barWord true 3 true false 6000) with due := some 6000 });
     let x : Slot := { obj7 .barrier 262147 (barWord true 3 true false 6000) with due := some 6000 }; let d := 6000;
     let key := slotKey sl st; let first := windowDue s d = false ∧ releaseBefore s sl d st = false ∧ expiryBefore s sl d = false;
     quiet s = true ∧ coreRuns s = true ∧ st < 4096 ∧ slotAt s key = some x ∧ x.kind = .barrier ∧ unwatched x = true ∧
     x.paused = false ∧ (x.paired && s.flt.differ.contains key) = false ∧ mirrored s x.tenant = false ∧ x.due = some d ∧
     boundRoots s x.tenant x.obj = [] ∧ (s.now < d ∨ ¬ first)) ∧
    (let sl : Nat := 3; let st : Nat := 9;
     let s : State := withObj live ({ obj7 .barrier 262147 (barWord true 3 true true 4000) with due := some 4000 });
     let x : Slot := { obj7 .barrier 262147 (barWord true 3 true true 4000) with due := some 4000 }; let d := 4000;
     let key := slotKey sl st; let first := windowDue s d = false ∧ releaseBefore s sl d st = false ∧ expiryBefore s sl d = false;
     quiet s = true ∧ coreRuns s = true ∧ st < 4096 ∧ slotAt s key = some x ∧ x.kind = .barrier ∧ unwatched x = true ∧
     x.paused = false ∧ (x.paired && s.flt.differ.contains key) = false ∧ mirrored s x.tenant = false ∧ x.due = some d ∧
     boundRoots s x.tenant x.obj = [] ∧ first ∧ d ≤ s.now ∧ barChold x.value = true) ∧
    (let sl : Nat := 3; let st : Nat := 9;
     let s : State := { dr (withObj live ({ obj7 .barrier 262147 (barWord true 3 true false 4000) with due := some 4500 })) with wk := { live.wk with window := 93 } };
     let x : Slot := { obj7 .barrier 262147 (barWord true 3 true false 4000) with due := some 4500 }; let d := 4500;
     let key := slotKey sl st; let first := windowDue s d = false ∧ releaseBefore s sl d st = false ∧ expiryBefore s sl d = false;
     quiet s = true ∧ coreRuns s = true ∧ st < 4096 ∧ slotAt s key = some x ∧ x.kind = .barrier ∧ unwatched x = true ∧
     x.paused = false ∧ (x.paired && s.flt.differ.contains key) = false ∧ mirrored s x.tenant = false ∧ x.due = some d ∧
     boundRoots s x.tenant x.obj = [] ∧ first ∧ d ≤ s.now ∧ barChold x.value = false ∧
     (s.clk.droop = false ∨ d % 2 ^ 40 ≠ barTrel x.value)) ∧
    (let sl : Nat := 3; let st : Nat := 9;
     let s : State := { dr (withObj live ({ obj7 .barrier 262147 (barWord true 3 true false 4000) with due := some 4000 })) with wk := { live.wk with window := 93 } };
     let x : Slot := { obj7 .barrier 262147 (barWord true 3 true false 4000) with due := some 4000 }; let d := 4000;
     let key := slotKey sl st; let first := windowDue s d = false ∧ releaseBefore s sl d st = false ∧ expiryBefore s sl d = false;
     quiet s = true ∧ coreRuns s = true ∧ st < 4096 ∧ slotAt s key = some x ∧ x.kind = .barrier ∧ unwatched x = true ∧
     x.paused = false ∧ (x.paired && s.flt.differ.contains key) = false ∧ mirrored s x.tenant = false ∧ x.due = some d ∧
     boundRoots s x.tenant x.obj = [] ∧ first ∧ d ≤ s.now ∧ barChold x.value = false ∧ s.clk.droop = true ∧
     d % 2 ^ 40 = barTrel x.value) ∧
    (let sl : Nat := 3; let st : Nat := 9; let s : State := withObj (torus 4) (obj7 .barrier 3 (barWord true 3 false false 0));
     let x : Slot := obj7 .barrier 3 (barWord true 3 false false 0); let n : Nat := 0; let obj : Nat := 5; let i : Nat := 5;
     let h : Hdr := fromZero; let key := slotKey sl st;
     quiet s = true ∧ coreRuns s = true ∧ st < 4096 ∧ slotAt s key = some x ∧ x.kind = .barrier ∧ unwatched x = true ∧
     x.paused = false ∧ (x.paired && s.flt.differ.contains key) = false ∧ mirrored s x.tenant = false ∧ delivers s n h = true ∧
     on s fSemaStatHtmReady = true ∧ isOlder (epochOf s h.tenant) h.epoch = false ∧ htmIdx s h.tenant obj = some i ∧
     heldAtBank s i = false ∧ (htmAt s i).state = .resident ∧ slotKey (htmAt s i).slice (htmAt s i).slot = key ∧
     s.flt.shadows = [] ∧ noCredit s sl = false ∧ boundRoots s x.tenant x.obj = [] ∧ resetsNothing s bTrs 0 = true ∧
     resetsNothing s bTrs 1 = true ∧ parMode x.param ≠ 2) ∧
    (let sl : Nat := 3; let st : Nat := 9;
     let s : State := withObj (torus 4) (obj7 .barrier 16384 (barWord true 0 false false 0));
     let x : Slot := obj7 .barrier 16384 (barWord true 0 false false 0); let n : Nat := 0; let obj : Nat := 5; let i : Nat := 5;
     let h : Hdr := fromZero; let f : Bool := false; let key := slotKey sl st; let ph := barPhase x.value;
     quiet s = true ∧ coreRuns s = true ∧ st < 4096 ∧ slotAt s key = some x ∧ x.kind = .barrier ∧ unwatched x = true ∧
     x.paused = false ∧ (x.paired && s.flt.differ.contains key) = false ∧ mirrored s x.tenant = false ∧ delivers s n h = true ∧
     on s fSemaStatHtmReady = true ∧ isOlder (epochOf s h.tenant) h.epoch = false ∧ htmIdx s h.tenant obj = some i ∧
     heldAtBank s i = false ∧ (htmAt s i).state = .resident ∧ slotKey (htmAt s i).slice (htmAt s i).slot = key ∧
     s.flt.shadows = [] ∧ noCredit s sl = false ∧ boundRoots s x.tenant x.obj = [] ∧ resetsNothing s bTrs 0 = true ∧
     resetsNothing s bTrs 1 = true ∧ parMode x.param = 2 ∧ f ≠ ph) := by
  refine ⟨?_, ?_, ?_, ?_, ?_, ?_⟩ <;> decide +kernel
theorem test_witness_TimedReleases_2 :
    (let sl : Nat := 3; let st : Nat := 9;
     let s : State := withObj (torus 4) (obj7 .barrier 16384 (barWord true 0 false false 0));
     let x : Slot := obj7 .barrier 16384 (barWord true 0 false false 0); let n : Nat := 0; let t : Nat := 6000;
     let obj : Nat := 5; let i : Nat := 5; let h : Hdr := fromZero; let f : Bool := true; let key := slotKey sl st;
     let ph := barPhase x.value;
     quiet s = true ∧ coreRuns s = true ∧ st < 4096 ∧ slotAt s key = some x ∧ x.kind = .barrier ∧ unwatched x = true ∧
     x.paused = false ∧ (x.paired && s.flt.differ.contains key) = false ∧ mirrored s x.tenant = false ∧ delivers s n h = true ∧
     on s fSemaStatHtmReady = true ∧ isOlder (epochOf s h.tenant) h.epoch = false ∧ htmIdx s h.tenant obj = some i ∧
     heldAtBank s i = false ∧ (htmAt s i).state = .resident ∧ slotKey (htmAt s i).slice (htmAt s i).slot = key ∧
     s.flt.shadows = [] ∧ noCredit s sl = false ∧ boundRoots s x.tenant x.obj = [] ∧ resetsNothing s bTrs 0 = true ∧
     resetsNothing s bTrs 1 = true ∧ parMode x.param = 2 ∧ f = ph ∧ s.now < t) ∧
    (let sl : Nat := 3; let st : Nat := 9;
     let s : State := withObj (torus 4) (obj7 .barrier 16384 (barWord true 0 false false 0));
     let x : Slot := obj7 .barrier 16384 (barWord true 0 false false 0); let n : Nat := 0; let t : Nat := 5000;
     let obj : Nat := 5; let i : Nat := 5; let h : Hdr := fromZero; let f : Bool := true; let key := slotKey sl st;
     let ph := barPhase x.value;
     quiet s = true ∧ coreRuns s = true ∧ st < 4096 ∧ slotAt s key = some x ∧ x.kind = .barrier ∧ unwatched x = true ∧
     x.paused = false ∧ (x.paired && s.flt.differ.contains key) = false ∧ mirrored s x.tenant = false ∧ delivers s n h = true ∧
     on s fSemaStatHtmReady = true ∧ isOlder (epochOf s h.tenant) h.epoch = false ∧ htmIdx s h.tenant obj = some i ∧
     heldAtBank s i = false ∧ (htmAt s i).state = .resident ∧ slotKey (htmAt s i).slice (htmAt s i).slot = key ∧
     s.flt.shadows = [] ∧ noCredit s sl = false ∧ boundRoots s x.tenant x.obj = [] ∧ resetsNothing s bTrs 0 = true ∧
     resetsNothing s bTrs 1 = true ∧ parMode x.param = 2 ∧ f = ph ∧ t ≤ s.now) ∧
    (let sl : Nat := 3; let st : Nat := 9;
     let s : State := withReport (setCtx (withObj live ({ obj7 .barrier 3 (barWord true 3 false true 0) with combine := true, role := true })) 3 ({ ctx7 with st := .closed, phase := true, parts := [part 10 0, part 11 1], arith := 0x25 })) (3, (7, 0), 5, false);
     let x : Slot := { obj7 .barrier 3 (barWord true 3 false true 0) with combine := true, role := true }; let k : Nat := 3;
     let t : Nat := 7; let ep : Nat := 0; let obj : Nat := 5; let i : Nat := 5;
     let y : Ctx := { ctx7 with st := .closed, phase := true, parts := [part 10 0, part 11 1], arith := 0x25 };
     let ab : Bool := false; let rest : List (Nat × (Nat × Nat) × Nat × Bool) := ([] : List (Nat × (Nat × Nat) × Nat × Bool));
     let key := slotKey sl st; let ph := barPhase x.value; let early := barArmed x.value && x.due.any fun d => decide (s.now < d);
     quiet s = true ∧ coreRuns s = true ∧ st < 4096 ∧ slotAt s key = some x ∧ x.kind = .barrier ∧ unwatched x = true ∧
     x.paused = false ∧ (x.paired && s.flt.differ.contains key) = false ∧ mirrored s x.tenant = false ∧ ctxAt s k = some y ∧
     s.gir.reports = (k, (t, ep), obj, ab) :: rest ∧ isOlder (epochOf s t) ep = false ∧ noCredit s sl = false ∧
     htmIdx s t obj = some i ∧ (htmAt s i).state = .resident ∧ slotKey (htmAt s i).slice (htmAt s i).slot = key ∧ ab = false ∧
     barChold x.value = true ∧ early = false ∧ x.combine = true ∧ boundRoots s x.tenant x.obj = [(k, y)] ∧ y.st = .closed ∧
     y.aborted = false ∧ y.phase = ph) ∧
    (let sl : Nat := 3; let st : Nat := 9;
     let s : State := withReport (setCtx (withObj live ({ obj7 .barrier 3 (barWord true 3 true true 90000) with combine := true, role := true, due := some 90000 })) 3 ({ ctx7 with st := .closed, phase := true, parts := [part 10 0, part 11 1], arith := 0x25 })) (3, (7, 0), 5, false);
     let x : Slot := { obj7 .barrier 3 (barWord true 3 true true 90000) with combine := true, role := true, due := some 90000 };
     let k : Nat := 3; let t : Nat := 7; let ep : Nat := 0; let obj : Nat := 5; let i : Nat := 5;
     let y : Ctx := { ctx7 with st := .closed, phase := true, parts := [part 10 0, part 11 1], arith := 0x25 };
     let ab : Bool := false; let rest : List (Nat × (Nat × Nat) × Nat × Bool) := ([] : List (Nat × (Nat × Nat) × Nat × Bool));
     let key := slotKey sl st; let early := barArmed x.value && x.due.any fun d => decide (s.now < d);
     quiet s = true ∧ coreRuns s = true ∧ st < 4096 ∧ slotAt s key = some x ∧ x.kind = .barrier ∧ unwatched x = true ∧
     x.paused = false ∧ (x.paired && s.flt.differ.contains key) = false ∧ mirrored s x.tenant = false ∧ ctxAt s k = some y ∧
     s.gir.reports = (k, (t, ep), obj, ab) :: rest ∧ isOlder (epochOf s t) ep = false ∧ noCredit s sl = false ∧
     htmIdx s t obj = some i ∧ (htmAt s i).state = .resident ∧ slotKey (htmAt s i).slice (htmAt s i).slot = key ∧ ab = false ∧
     barChold x.value = true ∧ early = true) ∧
    (let sl : Nat := 3; let st : Nat := 9;
     let s : State := withReport (setCtx (withObj live ({ obj7 .barrier 3 (barWord true 3 false true 0) with combine := true, role := true })) 3 ({ ctx7 with phase := true, aborted := true })) (3, (7, 0), 5, true);
     let x : Slot := { obj7 .barrier 3 (barWord true 3 false true 0) with combine := true, role := true }; let k : Nat := 3;
     let t : Nat := 7; let ep : Nat := 0; let obj : Nat := 5; let i : Nat := 5;
     let y : Ctx := { ctx7 with phase := true, aborted := true }; let ab : Bool := true;
     let rest : List (Nat × (Nat × Nat) × Nat × Bool) := ([] : List (Nat × (Nat × Nat) × Nat × Bool)); let key := slotKey sl st;
     let ph := barPhase x.value; let early := barArmed x.value && x.due.any fun d => decide (s.now < d);
     quiet s = true ∧ coreRuns s = true ∧ st < 4096 ∧ slotAt s key = some x ∧ x.kind = .barrier ∧ unwatched x = true ∧
     x.paused = false ∧ (x.paired && s.flt.differ.contains key) = false ∧ mirrored s x.tenant = false ∧ ctxAt s k = some y ∧
     s.gir.reports = (k, (t, ep), obj, ab) :: rest ∧ isOlder (epochOf s t) ep = false ∧ noCredit s sl = false ∧
     htmIdx s t obj = some i ∧ (htmAt s i).state = .resident ∧ slotKey (htmAt s i).slice (htmAt s i).slot = key ∧ ab = true ∧
     barChold x.value = true ∧ early = false ∧ boundRoots s x.tenant x.obj = [(k, y)] ∧ y.aborted = true ∧ y.phase = ph) ∧
    (let sl : Nat := 3; let st : Nat := 9;
     let s : State := withReport (setCtx (withObj live ({ obj7 .barrier 3 (barWord true 2 false false 0) with combine := true, role := true })) 3 ({ ctx7 with st := .closed, phase := true, parts := [part 10 0, part 11 1], arith := 0x25 })) (3, (7, 0), 5, true);
     let x : Slot := { obj7 .barrier 3 (barWord true 2 false false 0) with combine := true, role := true }; let k : Nat := 3;
     let t : Nat := 7; let ep : Nat := 0; let obj : Nat := 5; let i : Nat := 5;
     let y : Ctx := { ctx7 with st := .closed, phase := true, parts := [part 10 0, part 11 1], arith := 0x25 };
     let ab : Bool := true; let rest : List (Nat × (Nat × Nat) × Nat × Bool) := ([] : List (Nat × (Nat × Nat) × Nat × Bool));
     let key := slotKey sl st;
     quiet s = true ∧ coreRuns s = true ∧ st < 4096 ∧ slotAt s key = some x ∧ x.kind = .barrier ∧ unwatched x = true ∧
     x.paused = false ∧ (x.paired && s.flt.differ.contains key) = false ∧ mirrored s x.tenant = false ∧ ctxAt s k = some y ∧
     s.gir.reports = (k, (t, ep), obj, ab) :: rest ∧ isOlder (epochOf s t) ep = false ∧ noCredit s sl = false ∧
     htmIdx s t obj = some i ∧ (htmAt s i).state = .resident ∧ slotKey (htmAt s i).slice (htmAt s i).slot = key ∧ ab = true ∧
     barChold x.value = false) := by
  refine ⟨?_, ?_, ?_, ?_, ?_, ?_⟩ <;> decide +kernel

theorem test_witness_PagingServes :
    (let i : Nat := 5; let t : Nat := 7; let n : Nat := 5; let s : State := pgState (addPkt 3) false;
     let c : Cmd := pgCmd (addPkt 3); let it : Item := { item (addPkt 3) with st := .out, cmd := some (pgCmd (addPkt 3)) };
     let wd : Nat := 0; let ms : Bool := false; let tr : Bool := false; let imp : Option Import := none;
     let addr := 4096 * get s (fSemaBackAddr t) + 16 * n; let m := mem64 s (addr + 8); let e := htmAt s i;
     quiet s = true ∧ coreRuns s = true ∧ fwRuns s = true ∧ on s fSemaCtlPageEn = true ∧ Memory.wf s.mem = true ∧
     s.sema.paging = [⟨i, wd, .cmd c ms imp, tr⟩] ∧ importStale s imp = false ∧ mirrored s t = false ∧ e.state = .backed ∧
     ownerOf s i = some (t, n) ∧ nbit m.toNat 52 = false ∧ kindOf (wbits m 48 3) = some .seq ∧
     isOlder (epochOf s c.tenant) c.epoch = false ∧ (sideAt s i).pend = [] ∧ c.die = dieOf s ∧ pDie c.words = c.die ∧
     itemOf s c = some it ∧ it.words = c.words ∧ fREL c.words = false ∧ fACQ c.words = false ∧ pOp c.words = some .sigAdd) ∧
    (let i : Nat := 5; let t : Nat := 7; let n : Nat := 5; let s : State := pgState (packet 3 0 0 5 0) false;
     let c : Cmd := pgCmd (packet 3 0 0 5 0);
     let it : Item := { item (packet 3 0 0 5 0) with st := .out, cmd := some (pgCmd (packet 3 0 0 5 0)) }; let wd : Nat := 0;
     let ms : Bool := false; let tr : Bool := false; let imp : Option Import := none;
     let addr := 4096 * get s (fSemaBackAddr t) + 16 * n; let m := mem64 s (addr + 8); let e := htmAt s i;
     quiet s = true ∧ coreRuns s = true ∧ fwRuns s = true ∧ on s fSemaCtlPageEn = true ∧ Memory.wf s.mem = true ∧
     s.sema.paging = [⟨i, wd, .cmd c ms imp, tr⟩] ∧ importStale s imp = false ∧ mirrored s t = false ∧ e.state = .backed ∧
     ownerOf s i = some (t, n) ∧ nbit m.toNat 52 = false ∧ kindOf (wbits m 48 3) = some .seq ∧
     isOlder (epochOf s c.tenant) c.epoch = false ∧ (sideAt s i).pend = [] ∧ c.die = dieOf s ∧ pDie c.words = c.die ∧
     itemOf s c = some it ∧ it.words = c.words ∧ fREL c.words = false ∧ fACQ c.words = false ∧ pOp c.words = some .poll) ∧
    (let i : Nat := 5; let t : Nat := 7; let n : Nat := 5; let s : State := pgState (packet 4 0 0 5 9 0) false;
     let c : Cmd := pgCmd (packet 4 0 0 5 9 0);
     let it : Item := { item (packet 4 0 0 5 9 0) with st := .out, cmd := some (pgCmd (packet 4 0 0 5 9 0)) }; let wd : Nat := 0;
     let ms : Bool := false; let tr : Bool := false; let imp : Option Import := none;
     let addr := 4096 * get s (fSemaBackAddr t) + 16 * n; let v := mem64 s addr; let m := mem64 s (addr + 8); let e := htmAt s i;
     quiet s = true ∧ coreRuns s = true ∧ fwRuns s = true ∧ on s fSemaCtlPageEn = true ∧ Memory.wf s.mem = true ∧
     s.sema.paging = [⟨i, wd, .cmd c ms imp, tr⟩] ∧ importStale s imp = false ∧ mirrored s t = false ∧ e.state = .backed ∧
     ownerOf s i = some (t, n) ∧ nbit m.toNat 52 = false ∧ kindOf (wbits m 48 3) = some .seq ∧
     isOlder (epochOf s c.tenant) c.epoch = false ∧ (sideAt s i).pend = [] ∧ c.die = dieOf s ∧ pDie c.words = c.die ∧
     itemOf s c = some it ∧ it.words = c.words ∧ fREL c.words = false ∧ fACQ c.words = false ∧ pOp c.words = some .waitGe ∧
     tryOnce c.words = true ∧ e.kind = .seq ∧ 2 ^ 63 ≤ (v - pOperand c.words).toNat) ∧
    (let i : Nat := 5; let t : Nat := 7; let n : Nat := 5; let s : State := pgState (packet 4 0 0 5 9) false;
     let c : Cmd := pgCmd (packet 4 0 0 5 9);
     let it : Item := { item (packet 4 0 0 5 9) with st := .out, cmd := some (pgCmd (packet 4 0 0 5 9)) }; let wd : Nat := 0;
     let ms : Bool := false; let tr : Bool := false; let imp : Option Import := none; let key := slotKey 3 0;
     let addr := 4096 * get s (fSemaBackAddr t) + 16 * n; let m := mem64 s (addr + 8); let e := htmAt s i;
     let param := BitVec.ofNat 48 (wbits m 0 48);
     quiet s = true ∧ coreRuns s = true ∧ fwRuns s = true ∧ on s fSemaCtlPageEn = true ∧ Memory.wf s.mem = true ∧
     s.sema.paging = [⟨i, wd, .cmd c ms imp, tr⟩] ∧ importStale s imp = false ∧ mirrored s t = false ∧ e.state = .backed ∧
     ownerOf s i = some (t, n) ∧ nbit m.toNat 52 = false ∧ kindOf (wbits m 48 3) = some .seq ∧
     isOlder (epochOf s c.tenant) c.epoch = false ∧ (sideAt s i).pend = [] ∧ c.die = dieOf s ∧ pDie c.words = c.die ∧
     itemOf s c = some it ∧ it.words = c.words ∧ fREL c.words = false ∧ fACQ c.words = false ∧ pOp c.words = some .waitGe ∧
     tryOnce c.words = false ∧ s.sema.moves = [] ∧ shareFull s t = false ∧ chooseSlot s e.kind param e.slice = some key) ∧
    (let i : Nat := 5; let t : Nat := 7; let n : Nat := 5;
     let s : State := set (pgState (packet 4 0 0 5 9) false) [(fTenShare0Res 7, 0)]; let c : Cmd := pgCmd (packet 4 0 0 5 9);
     let it : Item := { item (packet 4 0 0 5 9) with st := .out, cmd := some (pgCmd (packet 4 0 0 5 9)) }; let wd : Nat := 0;
     let ms : Bool := false; let tr : Bool := false; let imp : Option Import := none;
     let addr := 4096 * get s (fSemaBackAddr t) + 16 * n; let m := mem64 s (addr + 8); let e := htmAt s i;
     quiet s = true ∧ coreRuns s = true ∧ fwRuns s = true ∧ on s fSemaCtlPageEn = true ∧ Memory.wf s.mem = true ∧
     s.sema.paging = [⟨i, wd, .cmd c ms imp, tr⟩] ∧ importStale s imp = false ∧ mirrored s t = false ∧ e.state = .backed ∧
     ownerOf s i = some (t, n) ∧ nbit m.toNat 52 = false ∧ kindOf (wbits m 48 3) = some .seq ∧
     isOlder (epochOf s c.tenant) c.epoch = false ∧ (sideAt s i).pend = [] ∧ c.die = dieOf s ∧ pDie c.words = c.die ∧
     itemOf s c = some it ∧ it.words = c.words ∧ fREL c.words = false ∧ fACQ c.words = false ∧ pOp c.words = some .waitGe ∧
     tryOnce c.words = false ∧ s.sema.moves = [] ∧ shareFull s t = true ∧ s.sema.slots = []) ∧
    (let i : Nat := 5; let t : Nat := 7; let n : Nat := 5;
     let s : State := moving (backed live []) ⟨5, 7, 5, slotKey 3 7, 0, none⟩; let mv : Move := ⟨5, 7, 5, slotKey 3 7, 0, none⟩;
     let addr := 4096 * get s (fSemaBackAddr t) + 16 * n; let v := mem64 s addr; let m := mem64 s (addr + 8);
     quiet s = true ∧ coreRuns s = true ∧ fwRuns s = true ∧ on s fSemaCtlPageEn = true ∧ Memory.wf s.mem = true ∧
     s.sema.moves = [mv] ∧ mv.index = i ∧ mv.tenant = t ∧ mv.obj = n ∧ mv.victim = none ∧ s.sema.paging = [] ∧
     s.sema.transit = [] ∧ (tenSt s t).st ≠ .resetting ∧ (kindOf (wbits m 48 3) = some .barrier → barArmed v = false)) := by
  refine ⟨?_, ?_, ?_, ?_, ?_, ?_⟩ <;> decide +kernel

theorem test_witness_CommandMessages :
    (let n : Nat := 0; let h : Hdr := fromZero; let s : State := home (obj7 .seq 0 6); let c : Cmd := farCmd (far 1 0 0 2);
     let key : Nat := slotKey 3 9; let o : Slot := obj7 .seq 0 6; let x := portSt s n;
     delivers s n h = true ∧ stampOf s.now h c = c ∧ c.die ≠ dieOf s ∧ c.die < 64 ∧ inReach s c.die = true ∧
     epochOf s c.tenant = c.epoch ∧ x.hold = [] ∧ x.gone = [] ∧ h.qseq < 65536 ∧ pDie c.words = dieOf s ∧
     (((tenSt s c.tenant).st = .active ∧ qexpOf x (qKey c) = h.qseq ∧ (pOp c.words).bind (fun op => bankSlot s c op (pObj c.words)) = some key ∧ takesOp s key o = true ∧ unwatched o = true)) ∧
     dwPass s c (dwOf c.words) = true ∧ pOp c.words = some .sigAdd ∧ fREL c.words = false ∧ o.kind = .seq ∧ pOperand c.words ≠ 0) ∧
    (let n : Nat := 0; let h : Hdr := fromZero; let s : State := home (memb (obj7 .barrier 8192 0) 3#512 1#512);
     let c : Cmd := farCmd (far 0x11 0 1 4 ++ zeros12); let key : Nat := slotKey 3 9;
     let o : Slot := memb (obj7 .barrier 8192 0) 3#512 1#512; let m := 3#512; let b := 1#512; let x := portSt s n;
     delivers s n h = true ∧ stampOf s.now h c = c ∧ c.die ≠ dieOf s ∧ c.die < 64 ∧ inReach s c.die = true ∧
     epochOf s c.tenant = c.epoch ∧ x.hold = [] ∧ x.gone = [] ∧ h.qseq < 65536 ∧ pDie c.words = dieOf s ∧
     (((tenSt s c.tenant).st = .active ∧ qexpOf x (qKey c) = h.qseq ∧ (pOp c.words).bind (fun op => bankSlot s c op (pObj c.words)) = some key ∧ takesOp s key o = true ∧ unwatched o = true)) ∧
     dwPass s c (dwOf c.words) = true ∧ pOp c.words = some .member ∧ fREL c.words = false ∧ o.kind = .barrier ∧
     parMode o.param = 1 ∧ barArmed o.value = false ∧ barChold o.value = false ∧ o.members[memberWin c.words]? = some (m, b) ∧
     memberMode c.words = 1 ∧ barArrived o.value = 0 ∧ b &&& ~~~ (m ||| memberMask c.words) = 0#512) ∧
    (let n : Nat := 0; let h : Hdr := fromZero; let s : State := home (obj7 .seq 0 6); let c : Cmd := farCmd (far 1 5 0 2 70);
     let x := portSt s n;
     delivers s n h = true ∧ stampOf s.now h c = c ∧ c.die ≠ dieOf s ∧ c.die < 64 ∧ inReach s c.die = true ∧
     epochOf s c.tenant = c.epoch ∧ x.hold = [] ∧ x.gone = [] ∧ h.qseq < 65536 ∧ pDie c.words = dieOf s ∧
     (tenSt s c.tenant).st = .active ∧ qexpOf x (qKey c) = h.qseq ∧ dwPass s c (dwOf c.words) = false) ∧
    (let n : Nat := 0; let h : Hdr := fromZero;
     let s : State := setTen (home (obj7 .seq 0 6)) 7 { Tenant.zero with st := .quiesced }; let c : Cmd := farCmd (far 1 0 0 2);
     let x := portSt s n;
     delivers s n h = true ∧ stampOf s.now h c = c ∧ c.die ≠ dieOf s ∧ c.die < 64 ∧ inReach s c.die = true ∧
     epochOf s c.tenant = c.epoch ∧ x.hold = [] ∧ x.gone = [] ∧ h.qseq < 65536 ∧ pDie c.words = dieOf s ∧
     (tenSt s c.tenant).st ≠ .active ∧ fTRY c.words = false) ∧
    (let n : Nat := 0; let h : Hdr := fromOne; let s : State := asked askCmd; let c : Cmd := askCmd;
     let i : Item := { item askCmd.words with st := .out, cmd := some askCmd }; let r : Reply := ⟨8, .ok, 128, 4900⟩;
     delivers s n h = true ∧ isOlder (epochOf s h.tenant) h.epoch = false ∧ ownCmd s c = some c ∧ itemOf s c = some i ∧
     i.words = c.words ∧ c.die = dieOf s ∧ isOlder (epochOf s c.tenant) c.epoch = false ∧ pOp c.words ≠ some .arriveCombine ∧
     pOp c.words ≠ some .route ∧ isLane c.words = false ∧ r.status ≠ .dataLate) ∧
    (let n : Nat := 0; let h : Hdr := fromOne; let s : State := asked askCmd; let c : Cmd := askCmd;
     let i : Item := { item askCmd.words with st := .out, cmd := some askCmd }; let k : Nat := 1;
     delivers s n h = true ∧ isOlder (epochOf s h.tenant) h.epoch = false ∧ ownCmd s c = some c ∧ itemOf s c = some i ∧
     i.words = c.words ∧ c.die = dieOf s ∧ isOlder (epochOf s c.tenant) c.epoch = false ∧ pOp c.words ≠ some .arriveCombine ∧
     pOp c.words ≠ some .route ∧ isLane c.words = false ∧ 1 ≤ k ∧ k ≤ 6 ∧ (fTRY c.words = false ∨ k = 5)) := by
  refine ⟨?_, ?_, ?_, ?_, ?_, ?_⟩ <;> decide +kernel
theorem test_witness_CommandMessages_2 :
    (let n : Nat := 0; let h : Hdr := fromOne; let s : State := asked (farCmd (far 1 8 0 2)); let c : Cmd := farCmd (far 1 8 0 2);
     let i : Item := { item (far 1 8 0 2) with st := .out, cmd := some (farCmd (far 1 8 0 2)) }; let k : Nat := 3;
     delivers s n h = true ∧ isOlder (epochOf s h.tenant) h.epoch = false ∧ ownCmd s c = some c ∧ itemOf s c = some i ∧
     i.words = c.words ∧ c.die = dieOf s ∧ isOlder (epochOf s c.tenant) c.epoch = false ∧ pOp c.words ≠ some .arriveCombine ∧
     pOp c.words ≠ some .route ∧ isLane c.words = false ∧ 1 ≤ k ∧ k ≤ 6 ∧ fTRY c.words = true ∧ k ≠ 5) ∧
    (let n : Nat := 0; let h : Hdr := fromZero; let s : State := home (obj7 .seq 0 6);
     let m : MRec := mrecOf (obj7 .seq 0 6) 9 (metaWord .seq 3 false true false false 0); let i : Nat := 5;
     let key : Nat := slotKey 3 9; let o : Slot := obj7 .seq 0 6;
     delivers s n h = true ∧ isOlder (epochOf s h.tenant) h.epoch = false ∧ htmIdx s h.tenant m.obj = some i ∧
     (htmAt s i).state = .resident ∧ slotKey (htmAt s i).slice (htmAt s i).slot = key ∧ slotAt s key = some o ∧
     (o.paired && s.flt.differ.contains key) = false ∧ o.value = m.oldV ∧ o.metaOf = m.oldM ∧ m.win = none) ∧
    (let n : Nat := 0; let h : Hdr := fromZero; let s : State := home (obj7 .seq 0 6);
     let m : MRec := mrecOf (obj7 .seq 0 7) 9 (metaWord .seq 3 false true false false 0); let i : Nat := 5;
     let key : Nat := slotKey 3 9; let o : Slot := obj7 .seq 0 6;
     delivers s n h = true ∧ isOlder (epochOf s h.tenant) h.epoch = false ∧ htmIdx s h.tenant m.obj = some i ∧
     (htmAt s i).state = .resident ∧ slotKey (htmAt s i).slice (htmAt s i).slot = key ∧ slotAt s key = some o ∧
     (o.paired && s.flt.differ.contains key) = false ∧ (o.value ≠ m.oldV ∨ o.metaOf ≠ m.oldM)) ∧
    (let n : Nat := 0; let h : Hdr := fromOne; let s : State := mirroring; let m : MirrorOut := mirOut;
     let c : Cmd := { waitCmd with words := addPkt 1 }; let r : Reply := ⟨7, .ok, 0, 4900⟩;
     let i : Item := { item (addPkt 1) with st := .out, cmd := some { waitCmd with words := addPkt 1 } };
     let o : Slot := obj7 .count 0 7;
     delivers s n h = true ∧ isOlder (epochOf s h.tenant) h.epoch = false ∧ s.span.mirror = [m] ∧ m.port = n ∧ m.live = true ∧
     m.key < 2 ^ 20 ∧ m.cmd = some c ∧ m.reply = some r ∧ m.stage = none ∧ itemOf s c = some i ∧ i.words = c.words ∧
     c.die = dieOf s ∧ pDie c.words = c.die ∧ isOlder (epochOf s c.tenant) c.epoch = false ∧ r.status ≠ .dataLate ∧
     slotAt s m.key = some o ∧ unwatched o = true ∧ o.paused = false ∧ s.flt.shadows = [] ∧ resetsNothing s (bVia n) 8 = true) ∧
    (let n : Nat := 0; let g : Held := heldOne (far 1 5 0 2 70) 9000; let c : Cmd := farCmd (far 1 5 0 2 70);
     let w : BitVec 32 := 70#32; let s : State := holding (far 1 5 0 2 70) 9000 (obj7 .seq 0 6); let die := 2;
     quiet s = true ∧ coreRuns s = true ∧ n < 8 ∧ (portSt s n).hold = [g] ∧ g.env.msg = .cmd c ∧ dwOf c.words = some w ∧
     c.die ≠ dieOf s ∧ c.die < 64 ∧ isOlder (epochOf s c.tenant) c.epoch = false ∧ pDie c.words = dieOf s ∧
     pOp c.words = some .sigAdd ∧ die < 64) ∧
    (let n : Nat := 0; let g : Held := heldOne (far 1 5 0 2 70) 9000; let c : Cmd := farCmd (far 1 5 0 2 70);
     let w : BitVec 32 := 70#32; let s : State := holding (far 1 5 0 2 70) 9000 (obj7 .seq 0 6); let dwc : BitVec 32 := 69#32;
     let reached := decide ((dwc - w).toNat < 2 ^ 31);
     quiet s = true ∧ coreRuns s = true ∧ n < 8 ∧ (portSt s n).hold = [g] ∧ g.env.msg = .cmd c ∧ dwOf c.words = some w ∧
     c.die ≠ dieOf s ∧ c.die < 64 ∧ isOlder (epochOf s c.tenant) c.epoch = false ∧ pDie c.words = dieOf s ∧
     pOp c.words = some .sigAdd ∧ reached = false) := by
  refine ⟨?_, ?_, ?_, ?_, ?_, ?_⟩ <;> decide +kernel
theorem test_witness_CommandMessages_3 :
    (let n : Nat := 0; let g : Held := heldOne (far 1 5 0 2 70) 9000; let c : Cmd := farCmd (far 1 5 0 2 70);
     let w : BitVec 32 := 70#32; let s : State := holding (far 1 5 0 2 70) 9000 (obj7 .seq 0 6); let dwc : BitVec 32 := 70#32;
     let key : Nat := slotKey 3 9; let o : Slot := obj7 .seq 0 6; let reached := decide ((dwc - w).toNat < 2 ^ 31);
     quiet s = true ∧ coreRuns s = true ∧ n < 8 ∧ (portSt s n).hold = [g] ∧ g.env.msg = .cmd c ∧ dwOf c.words = some w ∧
     c.die ≠ dieOf s ∧ c.die < 64 ∧ isOlder (epochOf s c.tenant) c.epoch = false ∧ pDie c.words = dieOf s ∧
     pOp c.words = some .sigAdd ∧ reached = true ∧ seqSeen (qexpOf (portSt s n) (qKey c)) g.env.hdr.qseq = true ∧
     bankSlot s c .sigAdd (pObj c.words) = some key ∧ takesOp s key o = true ∧ unwatched o = true ∧ fREL c.words = true ∧
     o.kind = .seq ∧ pOperand c.words ≠ 0) ∧
    (let n : Nat := 0; let g : Held := heldOne (far 1 5 0 2 70) 5001; let c : Cmd := farCmd (far 1 5 0 2 70);
     let w : BitVec 32 := 70#32; let s : State := holding (far 1 5 0 2 70) 5001 (obj7 .seq 0 6);
     quiet s = true ∧ coreRuns s = true ∧ n < 8 ∧ (portSt s n).hold = [g] ∧ g.env.msg = .cmd c ∧ dwOf c.words = some w ∧
     c.die ≠ dieOf s ∧ c.die < 64 ∧ isOlder (epochOf s c.tenant) c.epoch = false ∧ pDie c.words = dieOf s ∧
     pOp c.words = some .sigAdd ∧ g.rdata = true ∧ s.now < g.limit) ∧
    (let n : Nat := 0; let g : Held := heldOne (far 1 5 0 2 70) 5000; let c : Cmd := farCmd (far 1 5 0 2 70);
     let w : BitVec 32 := 70#32; let s : State := holding (far 1 5 0 2 70) 5000 (obj7 .seq 0 6);
     quiet s = true ∧ coreRuns s = true ∧ n < 8 ∧ (portSt s n).hold = [g] ∧ g.env.msg = .cmd c ∧ dwOf c.words = some w ∧
     c.die ≠ dieOf s ∧ c.die < 64 ∧ isOlder (epochOf s c.tenant) c.epoch = false ∧ pDie c.words = dieOf s ∧
     pOp c.words = some .sigAdd ∧ g.rdata = true ∧ g.limit ≤ s.now ∧ mayGo s (portSt s n) g = false ∧ s.flt.shadows = [] ∧
     resetsNothing s (bVia n) 5 = true) := by
  refine ⟨?_, ?_, ?_⟩ <;> decide +kernel

theorem test_witness_CombineDataMoves :
    (let k : Nat := 3; let x : Ctx := ctx7;
     let s : State := spq3 (setCtx (bind live) 3 (ctx7)) [beatOf false 0, beatOf false 1] []; let p : Nat := 3;
     let b : Beat := beatOf false 0; let rest : List Beat := [beatOf false 1];
     quiet s = true ∧ coreRuns s = true ∧ ctxAt s k = some x ∧ (pierSt s p).spq = b :: rest ∧ (pierSt s p).stopped = false ∧
     (pierSt s p).spOut.length < 16) ∧
    (let k : Nat := 3; let x : Ctx := ctx7;
     let s : State := spq3 (setCtx (bind live) 3 (ctx7)) [beatOf false 0, beatOf false 1] (List.replicate 16 (beatOf false 0));
     let p : Nat := 3; let b : Beat := beatOf false 0; let rest : List Beat := [beatOf false 1];
     quiet s = true ∧ coreRuns s = true ∧ ctxAt s k = some x ∧ (pierSt s p).spq = b :: rest ∧ (pierSt s p).stopped = false ∧
     16 ≤ (pierSt s p).spOut.length) ∧
    (let k : Nat := 3; let x : Ctx := { ctx7 with st := .active, parts := [{ part 10 0 with asked := [0, 1] }] };
     let s : State := spq3 (setCtx (bind live) 3 ({ ctx7 with st := .active, parts := [{ part 10 0 with asked := [0, 1] }] })) [] [beatOf false 0];
     let p : Nat := 3; let ag : Nat := 0; let a : Nat := 10; let n : PierNet := p3; let b : Beat := beatOf false 0;
     let rest : List Beat := []; let o : Particip := { part 10 0 with asked := [0, 1] };
     quiet s = true ∧ coreRuns s = true ∧ ctxAt s k = some x ∧ pierNet s p = some n ∧ agentAt n ag = some a ∧
     (pierSt s p).spOut = b :: rest ∧ b.agent = a ∧ b.ctx = k ∧ x.parts = [o] ∧ o.pidx = b.pidx ∧ o.cmd.agent = a ∧
     b.write = false ∧ b.addr ∈ o.asked) ∧
    (let k : Nat := 3;
     let x : Ctx := { ctx7 with st := .closed, writing := true, chunk := 1, parts := [{ part 10 0 with final := true, left := 1 }] };
     let s : State := spq3 (setCtx (bind live) 3 ({ ctx7 with st := .closed, writing := true, chunk := 1, parts := [{ part 10 0 with final := true, left := 1 }] })) [] [beatOf true 2];
     let p : Nat := 3; let ag : Nat := 0; let a : Nat := 10; let n : PierNet := p3; let b : Beat := beatOf true 2;
     let rest : List Beat := []; let o : Particip := { part 10 0 with final := true, left := 1 };
     quiet s = true ∧ coreRuns s = true ∧ ctxAt s k = some x ∧ pierNet s p = some n ∧ agentAt n ag = some a ∧
     (pierSt s p).spOut = b :: rest ∧ b.agent = a ∧ b.ctx = k ∧ x.parts = [o] ∧ o.pidx = b.pidx ∧ o.cmd.agent = a ∧
     b.write = true ∧ x.root = true ∧ x.writing = true ∧ x.reported = false ∧ o.accepted = true ∧ o.final = true ∧ o.left = 1 ∧
     s.gir.reports = []) ∧
    (let k : Nat := 3; let x : Ctx := { stage7 with st := .closed, parts := [fed 10 0 0x3F800000] };
     let s : State := setCtx (bind (torus 4)) 3 ({ stage7 with st := .closed, parts := [fed 10 0 0x3F800000] }); let j := x.chunk;
     let mine := treeVec (dOp x.desc) ((localSeq x).map fun p => leavesOf (dieOf s) x p j);
     quiet s = true ∧ coreRuns s = true ∧ ctxAt s k = some x ∧ x.st = .closed ∧ j < x.chunks ∧ chunkRead x j = true ∧
     0 < accepted x ∧ x.root = false ∧ mine.length ≤ 252 ∧ mine ≠ [] ∧ j + 1 = x.chunks) ∧
    (let k : Nat := 3; let x : Ctx := { closed7 with dies := 3 };
     let s : State := setCtx (bind torus0) 3 ({ closed7 with dies := 3 }); let j := x.chunk;
     quiet s = true ∧ coreRuns s = true ∧ ctxAt s k = some x ∧ x.st = .closed ∧ j < x.chunks ∧ chunkRead x j = true ∧
     0 < accepted x ∧ x.root = true ∧ (∃ d ∈ partialDies s x, d ≠ dieOf s ∧ 64 * j + d ∉ x.whole) ∧ 64 * j + dieOf s ∉ x.whole ∧
     dieOf s < 64) := by
  refine ⟨?_, ?_, ?_, ?_, ?_, ?_⟩ <;> decide +kernel
theorem test_witness_CombineDataMoves_2 :
    (let k : Nat := 3; let x : Ctx := { closed7 with parts := [fed 10 0 0x3F800000] };
     let s : State := setCtx (bind live) 3 ({ closed7 with parts := [fed 10 0 0x3F800000] });
     let o : Particip := fed 10 0 0x3F800000; let p : PierNet := p3; let j := x.chunk;
     quiet s = true ∧ coreRuns s = true ∧ ctxAt s k = some x ∧ x.st = .closed ∧ j < x.chunks ∧ chunkRead x j = true ∧
     0 < accepted x ∧ x.root = true ∧ x.dies = w64 (2 ^ dieOf s) ∧ dieOf s < 64 ∧ j = 0 ∧ x.chunks = 1 ∧ x.parts = [o] ∧
     x.carry = [] ∧ x.carryAt = 0 ∧ x.resPos = [] ∧ x.bins = [] ∧ x.partials = [] ∧ x.whole = [] ∧ x.arith = 0 ∧
     x.offender = none ∧ dOp x.desc ≠ oArgmax ∧ dHist x.desc = false ∧ 1 ≤ x.n ∧ x.n ≤ x.chunkSize ∧
     (agentSt s o.cmd.agent).port = .open ∧ pierOf s o.cmd.agent = some p) ∧
    (let k : Nat := 3; let x : Ctx := { ctx7 with dies := 3, st := .active, parts := [part 10 0] };
     let s : State := setCtx (bind torus0) 3 ({ ctx7 with dies := 3, st := .active, parts := [part 10 0] }); let n : Nat := 0;
     let h : Hdr := fromOne; let ph : Bool := false;
     quiet s = true ∧ coreRuns s = true ∧ ctxAt s k = some x ∧ delivers s n h = true ∧
     isOlder (epochOf s h.tenant) h.epoch = false ∧ k < 1024 ∧ x.tenant < 256 ∧ x.root = true ∧ x.aborted = false ∧ x.phase = ph ∧
     h.src < 64 ∧ 64 * x.chunk + h.src ∉ x.whole ∧
     (x.st ≠ .closed ∨ (∃ d ∈ partialDies s x, d ≠ h.src ∧ 64 * x.chunk + d ∉ x.whole))) ∧
    (let k : Nat := 3; let x : Ctx := { stage7 with st := .closed, parts := [part 10 0], chunk := 0 };
     let s : State := setCtx (bind (torus 4)) 3 ({ stage7 with st := .closed, parts := [part 10 0], chunk := 0 });
     let n : Nat := 0; let h : Hdr := fromZero; let bs : List Byte := List.replicate 100 1#8; let o : Particip := part 10 0;
     let p : PierNet := p3;
     quiet s = true ∧ coreRuns s = true ∧ ctxAt s k = some x ∧ delivers s n h = true ∧
     isOlder (epochOf s h.tenant) h.epoch = false ∧ x.root = false ∧ x.aborted = false ∧ x.st = .closed ∧ x.parts = [o] ∧
     o.accepted = true ∧ o.left = 0 ∧ bs ≠ [] ∧ (agentSt s o.cmd.agent).port = .open ∧ pierOf s o.cmd.agent = some p ∧
     x.chunk + 1 ≤ x.chunks) ∧
    (let k : Nat := 3; let x : Ctx := { stage7 with closed1 := true, parts := [part 10 0] };
     let s : State := setCtx (bind (torus 4)) 3 ({ stage7 with closed1 := true, parts := [part 10 0] }); let n : Nat := 0;
     let h : Hdr := fromZero; let m : Nat := 1; let ph : Bool := true;
     quiet s = true ∧ coreRuns s = true ∧ ctxAt s k = some x ∧ delivers s n h = true ∧
     isOlder (epochOf s h.tenant) h.epoch = false ∧ x.root = false ∧ x.closed1 = true ∧ (x.aborted = false ∨ x.phase ≠ ph) ∧
     x.st ≠ .closed ∧ (m = 0 → accepted x = 0)) ∧
    (let k : Nat := 3; let x : Ctx := stage7; let s : State := setCtx (bind (torus 4)) 3 (stage7); let n : Nat := 0;
     let h : Hdr := fromZero; let ph : Bool := true;
     quiet s = true ∧ coreRuns s = true ∧ ctxAt s k = some x ∧ delivers s n h = true ∧
     isOlder (epochOf s h.tenant) h.epoch = false ∧ x.parts = [] ∧ (x.aborted = false ∨ x.phase ≠ ph) ∧ x.root = false) ∧
    (let k : Nat := 3; let x : Ctx := { ctx7 with dies := 3, st := .active };
     let s : State := setCtx (bind torus0) 3 ({ ctx7 with dies := 3, st := .active }); let n : Nat := 0; let h : Hdr := fromOne;
     let ph : Bool := false; let a : Abort := ⟨1, 0, 0⟩;
     quiet s = true ∧ coreRuns s = true ∧ ctxAt s k = some x ∧ delivers s n h = true ∧
     isOlder (epochOf s h.tenant) h.epoch = false ∧ x.parts = [] ∧ (x.aborted = false ∨ x.phase ≠ ph) ∧ x.root = true ∧
     x.phase = ph ∧ x.st ≠ .open ∧ x.reported = false ∧ (x.writing = false ∨ a.code = 5)) := by
  refine ⟨?_, ?_, ?_, ?_, ?_, ?_⟩ <;> decide +kernel

theorem test_witness_ContextCommands :
    (let r : Requester := boss; let k : Nat := 3; let s : State := record 1 live [(fAbcCmdstBusy, 1)];
     quiet s = true ∧ k < 1024 ∧ manages s r rAbcCmd = true ∧ freezing s = false ∧ degradedOn s = false ∧
     on s fAbcCmdstBusy = true ∧ s.flt.shadows = [] ∧ resetsNothing s bAbc 3 = true) ∧
    (let r : Requester := boss; let k : Nat := 3; let s : State := setCtx (record 0) 3 ctx7;
     quiet s = true ∧ k < 1024 ∧ manages s r rAbcCmd = true ∧ freezing s = false ∧ degradedOn s = false ∧
     on s fAbcCmdstBusy = false ∧ (ctxAt s k ≠ none ∨ descLegal (rd s rAbcCtxd0) (get s fAbcCtxd1Nm1 + 1) = false)) ∧
    (let r : Requester := boss; let k : Nat := 3; let s : State := record 1; let x := ctxFrom s;
     quiet s = true ∧ k < 1024 ∧ manages s r rAbcCmd = true ∧ freezing s = false ∧ degradedOn s = false ∧
     on s fAbcCmdstBusy = false ∧ ctxAt s k = none ∧ descLegal x.desc x.n = true ∧ ctxInRange s x = true ∧
     fmtBytes (dIfmt x.desc) x.n ≤ 4096 ∧ (dOp x.desc = oHisto → x.n ≤ 1024) ∧ smaxOf x.lmax x.dies ≤ 16 * x.buf ∧
     get s (fSemaHtwLen x.tenant) ≠ 0 ∧ unitUse s (k % 16) + x.buf ≤ 32 ∧
     tenBuf s x.tenant + x.buf ≤ get s (fTenShare0Buf x.tenant) ∧ get s fAbcCtxd1Bhandle / 2 ^ 26 ≠ dieOf s) ∧
    (let r : Requester := boss; let k : Nat := 3; let s : State := record 0 (withObj live (obj7 .barrier 3 0)); let i : Nat := 5;
     let key : Nat := slotKey 3 9; let o : Slot := obj7 .barrier 3 0; let x := ctxFrom s;
     quiet s = true ∧ k < 1024 ∧ manages s r rAbcCmd = true ∧ freezing s = false ∧ degradedOn s = false ∧
     on s fAbcCmdstBusy = false ∧ ctxAt s k = none ∧ descLegal x.desc x.n = true ∧ ctxInRange s x = true ∧
     fmtBytes (dIfmt x.desc) x.n ≤ 4096 ∧ (dOp x.desc = oHisto → x.n ≤ 1024) ∧ smaxOf x.lmax x.dies ≤ 16 * x.buf ∧
     get s (fSemaHtwLen x.tenant) ≠ 0 ∧ unitUse s (k % 16) + x.buf ≤ 32 ∧
     tenBuf s x.tenant + x.buf ≤ get s (fTenShare0Buf x.tenant) ∧ get s fAbcCtxd1Bhandle / 2 ^ 26 = dieOf s ∧
     htmIdx s x.tenant (get s fAbcCtxd1Bhandle % 2 ^ 26) = some i ∧ (htmAt s i).kind = .barrier ∧ (htmAt s i).state = .resident ∧
     key = slotKey (htmAt s i).slice (htmAt s i).slot ∧
     (slotAt s (key : Nat) = some (o : Slot) ∧ noCredit s (sliceOf (key : Nat)) = false ∧ (o : Slot).paused = false ∧ ((o : Slot).paired && s.flt.differ.contains (key : Nat)) = false ∧ mirrored s (o : Slot).tenant = false ∧ cboundWaits s = false) ∧
     parMode o.param ≤ 1 ∧ o.cbound = false) ∧
    (let r : Requester := boss; let k : Nat := 3; let s : State := record 0;
     quiet s = true ∧ k < 1024 ∧ manages s r rAbcCmd = true ∧ freezing s = false ∧ degradedOn s = false ∧
     on s fAbcCmdstBusy = false ∧ ctxAt s k = none) ∧
    (let r : Requester := boss; let k : Nat := 3; let s : State := setCtx (record 0) 3 closed7; let y := closed7;
     quiet s = true ∧ k < 1024 ∧ manages s r rAbcCmd = true ∧ freezing s = false ∧ degradedOn s = false ∧
     on s fAbcCmdstBusy = false ∧ ctxAt s k = some y ∧ y.st ≠ .open) := by
  refine ⟨?_, ?_, ?_, ?_, ?_, ?_⟩ <;> decide +kernel
theorem test_witness_ContextCommands_2 :
    (let r : Requester := boss; let k : Nat := 3;
     let s : State := setCtx live 3 { ctx7 with root := false, dies := 3, bhandle := 5 + 2 ^ 26 };
     let y := { ctx7 with root := false, dies := 3, bhandle := 5 + 2 ^ 26 };
     quiet s = true ∧ k < 1024 ∧ manages s r rAbcCmd = true ∧ freezing s = false ∧ degradedOn s = false ∧
     on s fAbcCmdstBusy = false ∧ ctxAt s k = some y ∧ y.st = .open ∧ (∀ p ∈ y.parts, p.accepted = false) ∧ y.root = false) ∧
    (let r : Requester := boss; let k : Nat := 3;
     let s : State := setCtx (withObj live { obj7 .barrier 3 0 with cbound := true }) 3 ctx7; let y := ctx7; let i : Nat := 5;
     let key : Nat := slotKey 3 9; let o : Slot := { obj7 .barrier 3 0 with cbound := true };
     quiet s = true ∧ k < 1024 ∧ manages s r rAbcCmd = true ∧ freezing s = false ∧ degradedOn s = false ∧
     on s fAbcCmdstBusy = false ∧ ctxAt s k = some y ∧ y.st = .open ∧ (∀ p ∈ y.parts, p.accepted = false) ∧ y.root = true ∧
     htmIdx s y.tenant (y.bhandle % 2 ^ 26) = some i ∧ (htmAt s i).kind = .barrier ∧ (htmAt s i).state = .resident ∧
     key = slotKey (htmAt s i).slice (htmAt s i).slot ∧
     (slotAt s (key : Nat) = some (o : Slot) ∧ noCredit s (sliceOf (key : Nat)) = false ∧ (o : Slot).paused = false ∧ ((o : Slot).paired && s.flt.differ.contains (key : Nat)) = false ∧ mirrored s (o : Slot).tenant = false ∧ cboundWaits s = false)) ∧
    (let k : Nat := 3; let s : State := { live with abc := { live.abc with window := 5 } };
     quiet s = true ∧ k < 1024 ∧ (s.now / 1000 ≤ s.abc.window ∨ coreRuns s = false)) ∧
    (let k : Nat := 3; let s : State := setCtx (set live [(fAbcCtlArbEn, 1), (fTenShare0Weight 7, 9)]) 3 ctx7;
     quiet s = true ∧ k < 1024 ∧ s.abc.window < s.now / 1000 ∧ coreRuns s = true) := by
  refine ⟨?_, ?_, ?_, ?_⟩ <;> decide +kernel

theorem test_witness_LaneRegisters :
    (let r : Requester := boss; let l : Nat := 5; let w : Nat := 0;
     let s : State := lanes live { raised11 with sent := true } xen0; let x := laneSt s l;
     quiet s = true ∧ l < 64 ∧ w < 32 ∧ manages s r (rTrsLen l w) = true ∧ x.sent = true) ∧
    (let r : Requester := boss; let l : Nat := 5; let w : Nat := 0; let s : State := laneCfg live []; let x := laneSt s l;
     quiet s = true ∧ l < 64 ∧ w < 32 ∧ manages s r (rTrsLen l w) = true ∧ x.sent = false ∧
     (on s (fTrsLcfgEn l) = false ∨ (x.forced = false ∧ x.raised = [] ∧ x.waiting = []) ∨ x.broken = true ∨ x.armed ≠ none ∨ gateOn s 97 = false)) ∧
    (let r : Requester := boss; let l : Nat := 5; let w : Nat := 0; let d : Word := 0x3fffff01ff07#64;
     let s : State := set live [(fTenShare1Lanes 7, 1)]; let x := laneSt s l;
     quiet s = true ∧ l < 64 ∧ w < 32 ∧ manages s r (rTrsLcfg l) = true ∧ x.raised = [] ∧ x.waiting = [] ∧ x.armed = none ∧
     (wbits d 8 1 = 0 ∨ (on s (fTrsLcfgEn l) = true ∧ get s (fTrsLcfgTenant l) = wbits d 0 8) ∨ lanesOf s (wbits d 0 8) < get s (fTenShare1Lanes (wbits d 0 8)))) ∧
    (let r : Requester := boss; let l : Nat := 5; let w : Nat := 0; let s : State := lanes live raised11 []; let x := laneSt s l;
     quiet s = true ∧ l < 64 ∧ w < 32 ∧ manages s r (rTrsLcfg l) = true ∧ (x.raised ≠ [] ∨ x.waiting ≠ [] ∨ x.armed ≠ none) ∧
     s.flt.shadows = [] ∧ resetsNothing s bTrs 3 = true) ∧
    (let r : Requester := boss; let l : Nat := 5; let w : Nat := 0; let s : State := live; let x := laneSt s l;
     quiet s = true ∧ l < 64 ∧ w < 32 ∧ manages s r (rTrsLxdie l) = true ∧ x.raised = [] ∧ x.waiting = [] ∧ x.armed = none) ∧
    (let r : Requester := boss; let l : Nat := 5; let w : Nat := 0; let s : State := lanes live raised11 []; let x := laneSt s l;
     quiet s = true ∧ l < 64 ∧ w < 32 ∧ manages s r (rTrsLxdie l) = true ∧ (x.raised ≠ [] ∨ x.waiting ≠ [] ∨ x.armed ≠ none) ∧
     s.flt.shadows = [] ∧ resetsNothing s bTrs 3 = true) := by
  refine ⟨?_, ?_, ?_, ?_, ?_, ?_⟩ <;> decide +kernel
theorem test_witness_LaneRegisters_2 :
    (let r : Requester := boss; let l : Nat := 5; let w : Nat := 0; let d : Word := 0xffffffffefffffff#64; let s : State := live;
     quiet s = true ∧ l < 64 ∧ w < 32 ∧ served s r (rTrsLstat l) = true ∧ wbits d 28 1 = 0) ∧
    (let r : Requester := boss; let l : Nat := 5; let w : Nat := 0; let d : Word := 0x10000000#64;
     let s : State := lanes live { Lane.zero with broken := true } xen1; let x := laneSt s l;
     quiet s = true ∧ l < 64 ∧ w < 32 ∧ served s r (rTrsLstat l) = true ∧ wbits d 28 1 = 1 ∧ x.raised = [] ∧ x.waiting = [] ∧
     x.forced = false) := by
  refine ⟨?_, ?_⟩ <;> decide +kernel

end Witnesses
end Sys2Proof.Tests
end

section
/-! The writes of the register map as commands: what a served write that comes down to one register leaves, which write an
offset is, and the record of an access turned away. -/
namespace Sys2Proof.Machine

/-! The end of a write that changes one register. -/

/-- The fault registers of every block begin at the same place of its 64 KiB of offsets. -/
theorem faultBase_mod (b : Nat) : faultBase b % 65536 = 0xF000 := by
  unfold faultBase
  split <;> omega

theorem rFinj_mod (b : Nat) : rFinj b % 65536 = 0xF020 := by
  have := faultBase_mod b
  simp only [rFinj]
  omega

/-- A register that is no FINJ and not FW_UPDST leaves nothing to do when it is written. -/
theorem calm_wr {s : State} {o : Nat} (v : Word) (h : calm s = true) (hf : o % 65536 ≠ 0xF020) (hu : o ≠ rFwUpdst) :
    calm (wr s o v) = true :=
  calm_of_regsOnly h (wr_regsOnly s o v) (fun b hb => hf (List.mem_singleton.1 hb ▸ rFinj_mod b))
    fun hm => hu (List.mem_singleton.1 hm).symm

/-- A command that is a served write of one such register is that write and nothing more. -/
theorem exec_of_wr {c : Instr} {s : State} {r : Requester} {off : Nat} {f : State → State} {o : Nat} {v : Word}
    (hc : exec c s = .next (finishStep (access s r off f))) (hq : quiet s = true) (hs : served s r off = true)
    (hw : f s = wr s o v) (hf : o % 65536 ≠ 0xF020) (hu : o ≠ rFwUpdst) : exec c s = .next (wr s o v) := by
  rw [hc, finishStep_access hs (hw ▸ calm_wr v (calm_of_quiet hq) hf hu), hw]

/-! Masks. -/

/-- A field inside a mask reads through it. -/
theorem wbits_and_mask (w m : Word) {lo n : Nat} (h : wbits m lo n = 2 ^ n - 1) : wbits (w &&& m) lo n = wbits w lo n := by
  apply Nat.eq_of_testBit_eq
  intro i
  have hm : (wbits m lo n).testBit i = decide (i < n) := by rw [h, Nat.testBit_two_pow_sub_one]
  rw [wbits_testBit] at hm ⊢
  rw [wbits_testBit, BitVec.getLsbD_and]
  by_cases hi : i < n
  · rw [decide_eq_true hi, Bool.true_and] at hm
    rw [hm, Bool.and_true]
  · simp [hi]

/-- A field inside a mask reads, from a register written through the mask, as the data has it. -/
theorem get_wr_mask (s : State) (off : Nat) (w m : Word) {lo n : Nat} (h : wbits m lo n = 2 ^ n - 1) :
    get (wr s off (w &&& m)) ⟨off, lo, n⟩ = wbits w lo n := by
  rw [get, rd_wr_same, wbits_and_mask w m h]

/-- The low 32 bits of a word, as a mask and as a remainder. -/
theorem and_low32 (w : Word) : w &&& 0xffffffff = w64 (w.toNat % 2 ^ 32) := by
  apply BitVec.eq_of_toNat_eq
  rw [BitVec.toNat_and, BitVec.toNat_ofNat, Nat.mod_eq_of_lt (b := 2 ^ 64) (by omega)]
  exact Nat.and_two_pow_sub_one_eq_mod w.toNat 32

/-! Writes that the units do not refuse (R54, R55, R57). -/

theorem wSemaHtw_of_fits {s : State} {r : Requester} {t : Nat} {d : Word} (hm : isManager s r = true) (ha : allocatedOf s t = [])
    (hl : wbits d 0 10 + wbits d 16 11 ≤ 1024)
    (hw : ∀ u < 256, u ≠ t → windowsMeet (wbits d 0 10) (wbits d 16 11) (get s (fSemaHtwBase u)) (get s (fSemaHtwLen u)) = false) :
    wSemaHtw s r t d = wr s (rSemaHtw t) (d &&& 0x7ff03ff) := by
  have hb : htwBad s t d = false := by
    simpa [htwBad, ha, hl] using hw
  simp only [wSemaHtw, hm, hb, withRight_true, Bool.false_eq_true, if_false]

theorem wSemaBack_of_unused {s : State} {r : Requester} {t : Nat} (d : Word) (hm : isManager s r = true)
    (hu : backInUse s t = false) : wSemaBack s r t d = wr s (rSemaBack t) (d &&& 0xfffffffff0f1) := by
  have hb : backBad s t d = false := by simp only [backBad, hu, Bool.and_false]
  simp only [wSemaBack, hm, hb, withRight_true, Bool.false_eq_true, if_false]

theorem slotsIn_of_empty {s : State} (hs : s.sema.slots = []) (hv : s.sema.moves = []) (i : Nat) : slotsIn s i = 0 := by
  simp [slotsIn, hs, hv, count]

theorem wSemaPair_of_empty {s : State} {r : Requester} (d : Word) (hm : isManager s r = true) (hs : s.sema.slots = [])
    (hv : s.sema.moves = []) : wSemaPair s r d = wr s rSemaPair (w64 (d.toNat % 2 ^ 32)) := by
  have hb : pairBad s d = false := by simp [pairBad, slotsIn_of_empty hs hv]
  simp only [wSemaPair, hm, hb, withRight_true, and_low32, Bool.false_eq_true, if_false]

/-- A manager's write to a register whose fields are all RW or RWM sets them and keeps the other bits (R4). -/
theorem plainWrite_of_manager {s : State} {r : Requester} {off : Nat} {row : RegRow} (d : Word) (hm : isManager s r = true)
    (hr : regRow off = some row) (hk : row.rwk = 0) (hc : row.w1c = 0) (h1 : row.w1s = 0) :
    plainWrite s r off d = wr s off ((rd s off &&& ~~~w64 row.rwm) ||| (d &&& w64 row.rwm)) := by
  have hl : plainLacks s row true off d = false := by simp [plainLacks, hk]
  have hw : plainWord s row true off d = (rd s off &&& ~~~w64 row.rwm) ||| (d &&& w64 row.rwm) := by
    have h0 : (if (true && !on s fKeyCtlLock) = true then w64 0 else 0) = 0#64 := ite_self _
    simp only [plainWord, hk, hc, h1, h0, if_true, BitVec.or_zero, BitVec.and_zero, BitVec.not_zero, BitVec.and_allOnes]
  simp only [plainWrite, hr, hm, hl, hw, Bool.false_eq_true, if_false]

/-- A command that is such a write, from a manager, sets the register's writable fields and does nothing more. -/
theorem exec_plainWrite_of_manager {c : Instr} {s : State} {r : Requester} {off : Nat} {d m : Word} {row : RegRow}
    (hc : exec c s = .next (finishStep (access s r off fun s => plainWrite s r off d))) (hq : quiet s = true)
    (hm : manages s r off = true) (hr : regRow off = some row) (hk : row.rwk = 0) (h1c : row.w1c = 0) (h1s : row.w1s = 0)
    (hrwm : w64 row.rwm = m) (hf : off % 65536 ≠ 0xF020) (hu : off ≠ rFwUpdst) :
    ∃ u, exec c s = .next u ∧ rd u off = (rd s off &&& ~~~m) ||| (d &&& m) ∧ RegsOnly s u [off] := by
  subst hrwm
  have hwr := plainWrite_of_manager d (isManager_of_manages hm) hr hk h1c h1s
  exact ⟨_, exec_of_wr hc hq (served_of_manages hm) hwr hf hu, rd_wr_same _ _ _, wr_regsOnly _ _ _⟩

/-! Which write an offset is (R2, R464). -/

/-- A 64-bit write at an aligned offset of the aperture is the write of that offset. -/
theorem exec_registerWrite_aligned (r : Requester) {off : Nat} (d : Word) (s : State) (hlt : off < 2 ^ 22) (hal : off % 8 = 0) :
    exec (.registerWrite r off 64 d) s = .next (finishStep (access s r off fun s => writeAt s r off d)) := by
  change Host.Outcome.next (finishStep (anyWrite s r off 64 d)) = _
  have hw : wellFormed 64 off = true := by simp [wellFormed, hal]
  simp only [anyWrite, Nat.mod_eq_of_lt hlt, hw, if_true]

/-- An offset of a register that is neither a fault register nor one of an agent is assigned in every state. -/
theorem assigned_of_regRow (s : State) {off : Nat} (hr : (regRow off).isSome = true) (hp : off < 0x30000 ∨ 0x38000 ≤ off) :
    assigned s off = true := by
  have hn : (decide (0x30000 ≤ off) && decide (off < 0x38000)) = false := by
    rw [Bool.and_eq_false_iff, decide_eq_false_iff_not, decide_eq_false_iff_not]
    omega
  simp only [assigned, hr, hn, Bool.true_or, Bool.false_and, Bool.not_false, Bool.and_self]

/-- An offset below the windows is not in the instruction window. -/
theorem not_imem_of_lt {off : Nat} (hlt : off < 0x200000) : ¬(0x200000 ≤ off ∧ off < 0x280000) :=
  fun h => Nat.not_lt.2 h.1 hlt

/-- A register with behaviour of its own takes its own write. -/
theorem writeAt_of_writeOne {s s' : State} {r : Requester} {off : Nat} {d : Word} (hlt : off < 0x200000)
    (ha : assigned s off = true) (hf : faultRegAt off = none) (hw : writeOne s r off d = some s') : writeAt s r off d = s' := by
  simp only [writeAt, if_neg (not_imem_of_lt hlt), ha, hf, hw, Bool.not_true, Bool.false_eq_true, if_false]

/-- A register of plain fields takes the plain write. -/
theorem writeAt_of_plain {s : State} {r : Requester} {off : Nat} {d : Word} (hlt : off < 0x200000) (ha : assigned s off = true)
    (hf : faultRegAt off = none) (ho : writeOne s r off d = none) (hm : writeMany s r off d = none) :
    writeAt s r off d = plainWrite s r off d := by
  simp only [writeAt, if_neg (not_imem_of_lt hlt), ha, hf, ho, hm, Bool.not_true, Bool.false_eq_true, if_false]

theorem writeAt_of_unassigned {s : State} (r : Requester) {off : Nat} (d : Word) (hlt : off < 0x200000)
    (ha : assigned s off = false) : writeAt s r off d = s := by
  simp only [writeAt, if_neg (not_imem_of_lt hlt), ha, Bool.not_false, if_true]

/-- The offset of a register below the windows that is neither a fault register nor one of an agent. -/
def ownOffset (off : Nat) : Bool :=
  decide (off % 8 = 0) && decide (off < 0x200000) && (decide (off < 0x30000) || decide (0x38000 ≤ off))
    && (regRow off).isSome && (faultRegAt off).isNone

theorem ownOffset_iff {off : Nat} : ownOffset off = true ↔ off % 8 = 0 ∧ off < 0x200000 ∧ (off < 0x30000 ∨ 0x38000 ≤ off) ∧
    (regRow off).isSome = true ∧ faultRegAt off = none := by
  simp [ownOffset, and_assoc]

/-- A 64-bit write at the offset of such a register that has behaviour of its own is an access with that behaviour. -/
theorem exec_registerWrite_of_writeOne {r : Requester} {off : Nat} {d : Word} {f : State → State} (s : State)
    (ho : ownOffset off = true) (hw : ∀ s, writeOne s r off d = some (f s)) :
    exec (.registerWrite r off 64 d) s = .next (finishStep (access s r off f)) := by
  obtain ⟨hal, hlt, hp, hr, hf⟩ := ownOffset_iff.1 ho
  have he : (fun s => writeAt s r off d) = f := funext fun s => writeAt_of_writeOne hlt (assigned_of_regRow s hr hp) hf (hw s)
  rw [exec_registerWrite_aligned r d s (by omega) hal, he]

/-- A 64-bit write at the offset of such a register of plain fields is an access with the plain write. -/
theorem exec_registerWrite_of_plain {r : Requester} {off : Nat} {d : Word} (s : State) (ho : ownOffset off = true)
    (h1 : ∀ s, writeOne s r off d = none) (hm : ∀ s, writeMany s r off d = none) :
    exec (.registerWrite r off 64 d) s = .next (finishStep (access s r off fun s => plainWrite s r off d)) := by
  obtain ⟨hal, hlt, hp, hr, hf⟩ := ownOffset_iff.1 ho
  have he : (fun s => writeAt s r off d) = fun s => plainWrite s r off d :=
    funext fun s => writeAt_of_plain hlt (assigned_of_regRow s hr hp) hf (h1 s) (hm s)
  rw [exec_registerWrite_aligned r d s (by omega) hal, he]

/-- A write that the aperture does not take is the record of a bad access. -/
theorem exec_registerWrite_malformed (r : Requester) {off width : Nat} (d : Word) (s : State) (hlt : off < 2 ^ 22)
    (hb : width ≠ 64 ∨ off % 8 ≠ 0) :
    exec (.registerWrite r off width d) s = .next (finishStep (access s r off fun s => badAccess s r)) := by
  have hw : wellFormed width off = false := by simpa [wellFormed, Decidable.imp_iff_not_or] using hb
  change Host.Outcome.next (finishStep (anyWrite s r off width d)) = _
  simp only [anyWrite, Nat.mod_eq_of_lt hlt, hw, Bool.false_eq_true, if_false]

/-! The record of an access turned away (R2, R398). -/

/-- Outside every shadow an event of block CORE is recorded in the block alone, and asks for no block reset whatever its
reactions (R371). -/
theorem raise_core_recorded {s : State} {src : Nat} (d : Nat) (hs : s.flt.shadows = []) (hlt : src < 12) :
    Recorded s (raise s bCore src d) bCore src ∧ (raise s bCore src d).flt.resets = s.flt.resets := by
  have hsh : shadowOver s bCore = none := by simp [shadowOver, hs]
  have hretry : (decide (bCore = 2) && decide (src = 2) && anyRetry s) = false := rfl
  have hrec := recordEvent_regsOnly s bCore src (sevOf s bCore src) none false d
  generalize h1 : recordEvent s bCore src (sevOf s bCore src) none false d = s1 at hrec
  have hraise : raise s bCore src d =
        { put s1 (fStatSticky bCore) (get s1 (fStatSticky bCore) ||| 2 ^ src) with flt := (raise s bCore src d).flt } ∧
      (raise s bCore src d).flt.resets = s1.flt.resets := by
    subst h1
    simp only [raise, hretry, Bool.false_and, Bool.false_eq_true, if_false, hsh, ite_self, ne_eq, not_true, decide_false,
      Bool.and_false, true_and]
    split <;> split <;> rfl
  generalize raise s bCore src d = u at hraise ⊢
  obtain ⟨hu, hres⟩ := hraise
  have hrf : u.rf = (put s1 (fStatSticky bCore) (get s1 (fStatSticky bCore) ||| 2 ^ src)).rf := congrArg (·.rf) hu
  refine ⟨⟨?_, ?_, ?_⟩, ?_⟩
  · rw [get_congr hrf, get_put_same _ _ _ (by simp)]
    unfold nbit
    rw [Nat.testBit_mod_two_pow, Nat.testBit_or, Nat.testBit_two_pow_self]
    simp [hlt]
  · obtain ⟨rf, rfl⟩ : ∃ rf, s1 = { s with rf := rf } := ⟨_, hrec.1⟩
    rw [hu]
    rfl
  · exact fun o ho => (rd_congr hrf o).trans ((hrec.put (fStatSticky bCore) (by simp) _).2 o ho)
  · exact hres.trans (congrArg (·.flt.resets) hrec.1)

/-- An access turned away outside every shadow is recorded and asks for nothing. -/
theorem badAccess_recorded {s : State} (r : Requester) (hs : s.flt.shadows = []) :
    Recorded s (badAccess s r) bCore 9 ∧ (badAccess s r).flt.resets = s.flt.resets :=
  raise_core_recorded (reqId s r) hs (by decide)

/-- A fault that is only recorded leaves nothing to do. -/
theorem calm_of_recorded {s t : State} {b src : Nat} (h : calm s = true) (hrec : Recorded s t b src)
    (hr : t.flt.resets = s.flt.resets) : calm t = true := by
  obtain ⟨-, ht, hsame⟩ := hrec
  have hb := faultBase_mod b
  have hlow : ∀ o, o % 65536 ≠ 0xF000 → o % 65536 ≠ 0xF008 → rd t o = rd s o := fun o h0 h8 =>
    hsame o (by simp only [List.mem_cons, List.not_mem_nil, or_false, rFstat, rFfirst]; omega)
  refine calm_congr hr ?_ (fun k => ?_) ?_ ?_ ?_ (hlow _ (by decide) (by decide)) h
  · exact congrArg (·.clk.gateAt) ht
  · exact hlow _ (by rw [rFinj_mod]; decide) (by rw [rFinj_mod]; decide)
  · exact congrArg (·.abc) ht
  · exact congrArg (·.piers) ht
  · exact congrArg (·.clk.droop) ht

end Sys2Proof.Machine
end

section
/-! The statements on writes to the register map. -/
namespace Sys2Proof.Machine

/-- Settles O14: each of the five writes comes down to its one register, and the fields lie inside the mask. -/
theorem configurationWritten : Obligations.ConfigurationWritten := by
  intro r t d s hq ht
  refine ⟨fun hm ha hl hw => ?htw, fun hm hu => ?back, fun hm hs hv => ?pair, fun hm => ?waitCtl, fun hm => ?clkObs⟩
  case htw =>
    have hwr := wSemaHtw_of_fits (isManager_of_manages hm) ha hl hw
    exact ⟨_, exec_of_wr rfl hq (served_of_manages hm) hwr (by simp only [rSemaHtw]; omega)
        (by simp only [rSemaHtw, rFwUpdst]; omega),
      get_wr_mask _ _ _ _ (by decide), get_wr_mask _ _ _ _ (by decide), wr_regsOnly _ _ _⟩
  case back =>
    have hwr := wSemaBack_of_unused d (isManager_of_manages hm) hu
    exact ⟨_, exec_of_wr rfl hq (served_of_manages hm) hwr (by simp only [rSemaBack]; omega)
        (by simp only [rSemaBack, rFwUpdst]; omega),
      get_wr_mask _ _ _ _ (by decide), get_wr_mask _ _ _ _ (by decide),
      get_wr_mask _ _ _ _ (by decide), wr_regsOnly _ _ _⟩
  case pair =>
    have hwr := wSemaPair_of_empty d (isManager_of_manages hm) hs hv
    exact ⟨_, exec_of_wr rfl hq (served_of_manages hm) hwr (by decide) (by decide), rd_wr_same _ _ _, wr_regsOnly _ _ _⟩
  case waitCtl => exact exec_plainWrite_of_manager rfl hq hm rfl rfl rfl rfl rfl (by decide) (by decide)
  case clkObs => exact exec_plainWrite_of_manager rfl hq hm rfl rfl rfl rfl rfl (by decide) (by decide)

/-- Settles O15: the offset decides which write it is, and a write the aperture does not take is recorded in block CORE. -/
theorem registerWrites : Obligations.RegisterWrites := by
  intro r d s
  refine ⟨?coreStep, ?semaPair, ?waitCtl, ?clkCtl, ?clkObs, ?fwHbeat, ?obsSamp, ?obsRing, ?obsTrring, fun hq hm => ?waitWdog,
    fun off width hq hs hlt hsv => ⟨fun hw hal hwin ha => ?unassigned, fun hb => ?malformed⟩⟩
  case coreStep => exact exec_registerWrite_of_writeOne s (by decide) fun _ => rfl
  case semaPair => exact exec_registerWrite_of_writeOne s (by decide) fun _ => rfl
  case waitCtl => exact exec_registerWrite_of_plain s (by decide) (fun _ => rfl) fun _ => rfl
  case clkCtl => exact exec_registerWrite_of_writeOne s (by decide) fun _ => rfl
  case clkObs => exact exec_registerWrite_of_plain s (by decide) (fun _ => rfl) fun _ => rfl
  case fwHbeat => exact exec_registerWrite_of_writeOne s (by decide) fun _ => rfl
  case obsSamp => exact exec_registerWrite_of_writeOne s (by decide) fun _ => rfl
  case obsRing => exact exec_registerWrite_of_writeOne s (by decide) fun _ => rfl
  case obsTrring => exact exec_registerWrite_of_writeOne s (by decide) fun _ => rfl
  case waitWdog =>
    have hplain := exec_registerWrite_of_plain (r := r) (off := rWaitWdog) (d := d) s (by decide) (fun _ => rfl) fun _ => rfl
    exact exec_plainWrite_of_manager hplain hq hm rfl rfl rfl rfl rfl (by decide) (by decide)
  case unassigned =>
    subst hw
    have hstay : writeAt s r off d = s := writeAt_of_unassigned r d hwin ha
    rw [exec_registerWrite_aligned r d s hlt hal, finishStep_access hsv (hstay.symm ▸ calm_of_quiet hq), hstay]
  case malformed =>
    obtain ⟨hrec, hres⟩ := badAccess_recorded r hs
    have hcalm : calm (badAccess s r) = true := calm_of_recorded (calm_of_quiet hq) hrec hres
    rw [exec_registerWrite_malformed r d s hlt hb, finishStep_access (f := fun s => badAccess s r) hsv hcalm]
    exact ⟨_, rfl, hrec⟩

end Sys2Proof.Machine
end

section
/-! Every command of the block answers a next state, and keeps the waiting commands, the netlist and the canonical form. -/
namespace Sys2Proof.Machine

/-- What one command keeps, whichever it is: the laws of the 180 commands, gathered. -/
theorem exec_keeps (c : Instr) {s z : State} (hz : exec c s = .next z) : Keeps s z :=
  match c with
  | .aqValid pier ag queue data => execAqValid_keeps (Keeps.refl s) pier ag queue data hz
  | .sigAdd agent queue => execSigAdd_keeps (Keeps.refl s) agent queue hz
  | .sigSub agent queue => execSigSub_keeps (Keeps.refl s) agent queue hz
  | .poll agent queue => execPoll_keeps (Keeps.refl s) agent queue hz
  | .waitGe agent queue => execWaitGe_keeps (Keeps.refl s) agent queue hz
  | .waitTake agent queue => execWaitTake_keeps (Keeps.refl s) agent queue hz
  | .take agent queue => execTake_keeps (Keeps.refl s) agent queue hz
  | .give agent queue => execGive_keeps (Keeps.refl s) agent queue hz
  | .arrive agent queue => execArrive_keeps (Keeps.refl s) agent queue hz
  | .arriveLane agent queue => execArriveLane_keeps (Keeps.refl s) agent queue hz
  | .arriveCombine agent queue => execArriveCombine_keeps (Keeps.refl s) agent queue hz
  | .fence agent queue => execFence_keeps (Keeps.refl s) agent queue hz
  | .route agent queue => execRoute_keeps (Keeps.refl s) agent queue hz
  | .member agent queue => execMember_keeps (Keeps.refl s) agent queue hz
  | .alloc agent queue => execAlloc_keeps (Keeps.refl s) agent queue hz
  | .free agent queue => execFree_keeps (Keeps.refl s) agent queue hz
  | .audit agent queue => execAudit_keeps (Keeps.refl s) agent queue hz
  | .translationFill pier => execTranslationFill_keeps (Keeps.refl s) pier hz
  | .invalidation pier => execInvalidation_keeps (Keeps.refl s) pier hz
  | .wake pier => execWake_keeps (Keeps.refl s) pier hz
  | .wakeEmit slice => execWakeEmit_keeps (Keeps.refl s) slice hz
  | .pacingWindow => execPacingWindow_keeps (Keeps.refl s) hz
  | .expiry die agent queue => execExpiry_keeps (Keeps.refl s) die agent queue hz
  | .represent target => execRepresent_keeps (Keeps.refl s) target hz
  | .timedRelease slice slot => execTimedRelease_keeps (Keeps.refl s) slice slot hz
  | .timeFrame port hdr obj phase t => execTimeFrame_keeps (Keeps.refl s) port hdr obj phase t hz
  | .combineReport ctx => execCombineReport_keeps (Keeps.refl s) ctx hz
  | .backingOp index => execBackingOp_keeps (Keeps.refl s) index hz
  | .pageIn index => execPageIn_keeps (Keeps.refl s) index hz
  | .stagingReport tag idx => execStagingReport_keeps (Keeps.refl s) tag idx hz
  | .routeCommit tag dest => execRouteCommit_keeps (Keeps.refl s) tag dest hz
  | .preport port hdr c report => execPreport_keeps (Keeps.refl s) port hdr c report hz
  | .rpart port hdr part => execRpart_keeps (Keeps.refl s) port hdr part hz
  | .mrec port hdr rec => execMrec_keeps (Keeps.refl s) port hdr rec hz
  | .mack port hdr serial ok => execMack_keeps (Keeps.refl s) port hdr serial ok hz
  | .holdRelease port index dwc => execHoldRelease_keeps (Keeps.refl s) port index dwc hz
  | .holdDiscard port index => execHoldDiscard_keeps (Keeps.refl s) port index hz
  | .refuse port hdr c reason => execRefuse_keeps (Keeps.refl s) port hdr c reason hz
  | .reply port hdr c r => execReply_keeps (Keeps.refl s) port hdr c r hz
  | .cmd port hdr c => execCmd_keeps (Keeps.refl s) port hdr c hz
  | .xcmd port hdr c => execXcmd_keeps (Keeps.refl s) port hdr c hz
  | .cancel die agent queue code => execCancel_keeps (Keeps.refl s) die agent queue code hz
  | .arrivalAccepted ctx remote => execArrivalAccepted_keeps (Keeps.refl s) ctx remote hz
  | .chunkComplete ctx => execChunkComplete_keeps (Keeps.refl s) ctx hz
  | .cpart port hdr seg es => execCpart_keeps (Keeps.refl s) port hdr seg es hz
  | .cres port hdr seg off bytes => execCres_keeps (Keeps.refl s) port hdr seg off bytes hz
  | .cclose port hdr ctx phase n => execCclose_keeps (Keeps.refl s) port hdr ctx phase n hz
  | .cabort port hdr ctx phase a => execCabort_keeps (Keeps.refl s) port hdr ctx phase a hz
  | .spRvalid pier ag data err => execSpRvalid_keeps (Keeps.refl s) pier ag data err hz
  | .drAck pier tag err => execDrAck_keeps (Keeps.refl s) pier tag err hz
  | .ivAck pier tag err => execIvAck_keeps (Keeps.refl s) pier tag err hz
  | .arRdy pier => execArRdy_keeps (Keeps.refl s) pier hz
  | .wire port hdr lane phase => execWire_keeps (Keeps.refl s) port hdr lane phase hz
  | .lcomp port hdr lane phase t => execLcomp_keeps (Keeps.refl s) port hdr lane phase t hz
  | .laneRelease lane => execLaneRelease_keeps (Keeps.refl s) lane hz
  | .syncReq port hdr m rx tx => execSyncReq_keeps (Keeps.refl s) port hdr m rx tx hz
  | .syncResp port hdr m rx => execSyncResp_keeps (Keeps.refl s) port hdr m rx hz
  | .coarse port hdr m => execCoarse_keeps (Keeps.refl s) port hdr m hz
  | .exchange tx => execExchange_keeps (Keeps.refl s) tx hz
  | .glim => execGlim_keeps (Keeps.refl s) hz
  | .alim => execAlim_keeps (Keeps.refl s) hz
  | .slewStep => execSlewStep_keeps (Keeps.refl s) hz
  | .epoch port hdr origin resync => execEpoch_keeps (Keeps.refl s) port hdr origin resync hz
  | .notice port n => execNotice_keeps (Keeps.refl s) port n hz
  | .marker port t => execMarker_keeps (Keeps.refl s) port t hz
  | .markerLost port => execMarkerLost_keeps (Keeps.refl s) port hz
  | .data port codeword => execData_keeps (Keeps.refl s) port codeword hz
  | .nak port ack => execNak_keeps (Keeps.refl s) port ack hz
  | .retryBound port => execRetryBound_keeps (Keeps.refl s) port hz
  | .receiveTimeout port => execReceiveTimeout_keeps (Keeps.refl s) port hz
  | .lockLost port => execLockLost_keeps (Keeps.refl s) port hz
  | .los port => execLos_keeps (Keeps.refl s) port hz
  | .tuneDone port => execTuneDone_keeps (Keeps.refl s) port hz
  | .pmaLim port => execPmaLim_keeps (Keeps.refl s) port hz
  | .alignLock port width2 reversed polinv lanebad => execAlignLock_keeps (Keeps.refl s) port width2 reversed polinv lanebad hz
  | .alignLim port => execAlignLim_keeps (Keeps.refl s) port hz
  | .init port f => execInit_keeps (Keeps.refl s) port f hz
  | .initLim port => execInitLim_keeps (Keeps.refl s) port hz
  | .linkUp port => execLinkUp_keeps (Keeps.refl s) port hz
  | .rehold port => execRehold_keeps (Keeps.refl s) port hz
  | .open req ctx => execOpen_keeps (Keeps.refl s) req ctx hz
  | .close req ctx => execClose_keeps (Keeps.refl s) req ctx hz
  | .read req ctx => execRead_keeps (Keeps.refl s) req ctx hz
  | .quiesce req tenant => execQuiesce_keeps (Keeps.refl s) req tenant hz
  | .quiesced tenant => execQuiesced_keeps (Keeps.refl s) tenant hz
  | .resume req tenant => execResume_keeps (Keeps.refl s) req tenant hz
  | .reset req tenant freeall => execReset_keeps (Keeps.refl s) req tenant freeall hz
  | .forcedReset req tenant freeall => execForcedReset_keeps (Keeps.refl s) req tenant freeall hz
  | .resetComplete tenant => execResetComplete_keeps (Keeps.refl s) tenant hz
  | .agtBind req agent data => execAgtBind_keeps (Keeps.refl s) req agent data hz
  | .disable req agent => execDisable_keeps (Keeps.refl s) req agent hz
  | .disabled agent => execDisabled_keeps (Keeps.refl s) agent hz
  | .tenShare req tenant word data => execTenShare_keeps (Keeps.refl s) req tenant word data hz
  | .tenCfg req tenant data => execTenCfg_keeps (Keeps.refl s) req tenant data hz
  | .tenImp req tenant win data => execTenImp_keeps (Keeps.refl s) req tenant win data hz
  | .semaHtw req tenant data => execSemaHtw_keeps (Keeps.refl s) req tenant data hz
  | .semaBack req tenant data => execSemaBack_keeps (Keeps.refl s) req tenant data hz
  | .semaPair req data => execSemaPair_keeps (Keeps.refl s) req data hz
  | .waitCtl req data => execWaitCtl_keeps (Keeps.refl s) req data hz
  | .trsLen req lane w data => execTrsLen_keeps (Keeps.refl s) req lane w data hz
  | .trsLcfg req lane xdie data => execTrsLcfg_keeps (Keeps.refl s) req lane xdie data hz
  | .trsLstat req lane data => execTrsLstat_keeps (Keeps.refl s) req lane data hz
  | .keyLock req => execKeyLock_keeps (Keeps.refl s) req hz
  | .coreStep req data => execCoreStep_keeps (Keeps.refl s) req data hz
  | .align req tx => execAlign_keeps (Keeps.refl s) req tx hz
  | .remeasureAll req => execRemeasureAll_keeps (Keeps.refl s) req hz
  | .remeasureOne req pier => execRemeasureOne_keeps (Keeps.refl s) req pier hz
  | .pmeasDone probes => execPmeasDone_keeps (Keeps.refl s) probes hz
  | .pmeasFail pier => execPmeasFail_keeps (Keeps.refl s) pier hz
  | .multiplierLock => execMultiplierLock_keeps (Keeps.refl s) hz
  | .refLost => execRefLost_keeps (Keeps.refl s) hz
  | .refReturn => execRefReturn_keeps (Keeps.refl s) hz
  | .ramp req data => execRamp_keeps (Keeps.refl s) req data hz
  | .sourceSwitch req data => execSourceSwitch_keeps (Keeps.refl s) req data hz
  | .rampStep => execRampStep_keeps (Keeps.refl s) hz
  | .rampFault => execRampFault_keeps (Keeps.refl s) hz
  | .eclkLost input => execEclkLost_keeps (Keeps.refl s) input hz
  | .inputReturn input => execInputReturn_keeps (Keeps.refl s) input hz
  | .gateOpen req node => execGateOpen_keeps (Keeps.refl s) req node hz
  | .gateClose req node => execGateClose_keeps (Keeps.refl s) req node hz
  | .busIdleAck => execBusIdleAck_keeps (Keeps.refl s) hz
  | .gateTimeout => execGateTimeout_keeps (Keeps.refl s) hz
  | .clkObs req data => execClkObs_keeps (Keeps.refl s) req data hz
  | .droopWarn level => execDroopWarn_keeps (Keeps.refl s) level hz
  | .fwImgDone req => execFwImgDone_keeps (Keeps.refl s) req hz
  | .measured => execMeasured_keeps (Keeps.refl s) hz
  | .firmwareStart => execFirmwareStart_keeps (Keeps.refl s) hz
  | .ready => execReady_keeps (Keeps.refl s) hz
  | .fwHbeat req => execFwHbeat_keeps (Keeps.refl s) req hz
  | .fwHang => execFwHang_keeps (Keeps.refl s) hz
  | .begin req => execBegin_keeps (Keeps.refl s) req hz
  | .safepointAck => execSafepointAck_keeps (Keeps.refl s) hz
  | .commit req => execCommit_keeps (Keeps.refl s) req hz
  | .measure req => execMeasure_keeps (Keeps.refl s) req hz
  | .measureDone => execMeasureDone_keeps (Keeps.refl s) hz
  | .clear req first last => execClear_keeps (Keeps.refl s) req first last hz
  | .clearAll req => execClearAll_keeps (Keeps.refl s) req hz
  | .sample => execSample_keeps (Keeps.refl s) hz
  | .obsSamp req data => execObsSamp_keeps (Keeps.refl s) req data hz
  | .obsRing req data => execObsRing_keeps (Keeps.refl s) req data hz
  | .obsTrring req data => execObsTrring_keeps (Keeps.refl s) req data hz
  | .arm req holdto => execArm_keeps (Keeps.refl s) req holdto hz
  | .disarm req => execDisarm_keeps (Keeps.refl s) req hz
  | .freeze => execFreeze_keeps (Keeps.refl s) hz
  | .frozen => execFrozen_keeps (Keeps.refl s) hz
  | .thaw req => execThaw_keeps (Keeps.refl s) req hz
  | .thawat req => execThawat_keeps (Keeps.refl s) req hz
  | .thawTick => execThawTick_keeps (Keeps.refl s) hz
  | .thawingDone => execThawingDone_keeps (Keeps.refl s) hz
  | .copy req => execCopy_keeps (Keeps.refl s) req hz
  | .hangscan req => execHangscan_keeps (Keeps.refl s) req hz
  | .setval req => execSetval_keeps (Keeps.refl s) req hz
  | .cancelQ req => execCancelQ_keeps (Keeps.refl s) req hz
  | .cancelW req => execCancelW_keeps (Keeps.refl s) req hz
  | .forceLane req => execForceLane_keeps (Keeps.refl s) req hz
  | .marRead req => execMarRead_keeps (Keeps.refl s) req hz
  | .fstat req block data => execFstat_keeps (Keeps.refl s) req block data hz
  | .ffirst req block data => execFfirst_keeps (Keeps.refl s) req block data hz
  | .fsev req block data => execFsev_keeps (Keeps.refl s) req block data hz
  | .frct req block data => execFrct_keeps (Keeps.refl s) req block data hz
  | .finj req block data => execFinj_keeps (Keeps.refl s) req block data hz
  | .shadowEnd block => execShadowEnd_keeps (Keeps.refl s) block hz
  | .wdog slice entry => execWdog_keeps (Keeps.refl s) slice entry hz
  | .replyGuard agent queue => execReplyGuard_keeps (Keeps.refl s) agent queue hz
  | .drainSlow agent queue => execDrainSlow_keeps (Keeps.refl s) agent queue hz
  | .arbitrationWindow => execArbitrationWindow_keeps (Keeps.refl s) hz
  | .portEn req port data => execPortEn_keeps (Keeps.refl s) req port data hz
  | .portDown req port => execPortDown_keeps (Keeps.refl s) req port hz
  | .coldReset => execColdReset_keeps (Keeps.refl s) hz
  | .powerOnReset => execPowerOnReset_keeps (Keeps.refl s) hz
  | .resetRelease => execResetRelease_keeps (Keeps.refl s) hz
  | .registerWrite req offset width data => execRegisterWrite_keeps (Keeps.refl s) req offset width data hz
  | .alignmentCodeword port matched => execAlignmentCodeword_keeps (Keeps.refl s) port matched hz
  | .masterPortResponse kind err => execMasterPortResponse_keeps (Keeps.refl s) kind err hz
  | .tagRebuild word => execTagRebuild_keeps (Keeps.refl s) word hz
  | .fwTrap pc => execFwTrap_keeps (Keeps.refl s) pc hz
  | .htmReady => execHtmReady_keeps (Keeps.refl s) hz
  | .pierClockRestart pier => execPierClockRestart_keeps (Keeps.refl s) pier hz
  | .spRdy pier => execSpRdy_keeps (Keeps.refl s) pier hz
  | .sncmdDone => execSncmdDone_keeps (Keeps.refl s) hz

/-- No command faults and none is refused (R91). -/
theorem exec_next (c : Instr) (s : State) : ∃ t, exec c s = .next t := by
  cases c <;> exact ⟨_, rfl⟩

/-- Settles O5: the answer exists for every command, and what every command keeps has the two parts named. -/
theorem everyCommandAnswers : Obligations.EveryCommandAnswers := by
  intro c s
  obtain ⟨t, ht⟩ := exec_next c s
  have hk := exec_keeps c ht
  exact ⟨t, ht, hk.pending, hk.net⟩

end Sys2Proof.Machine
end

section
/-! The entries that a client writes into a queue (R58, R72, R477). -/
namespace Sys2Proof.Machine

/-- A check word written with no injection armed and no word bad changes nothing. -/
theorem chkWrite_of_quiet {s : State} (h : quiet s = true) {b : Nat} (hb : b < 17) (target unit index : Nat) :
    chkWrite s b target unit index = s := by
  simp only [quiet, Bool.and_eq_true, List.isEmpty_iff, List.all_eq_true, List.mem_range, decide_eq_true_eq] at h
  obtain ⟨⟨-, hbad⟩, harm⟩ := h
  have hmiss : finjHits s b target unit = false := by simp [finjHits, harm b hb]
  have hkeep : { s.flt with bad := [] } = s.flt := by rw [← hbad]
  simp [chkWrite, hmiss, hbad, hkeep]

theorem quiet_setQueue (s : State) (a q : Nat) (x : Queue) : quiet (setQueue s a q x) = quiet s := rfl

/-- The words of an entry are its four slices. -/
theorem entryWords_eq (d : BitVec 256) :
    entryWords d = [d.extractLsb' 0 64, d.extractLsb' 64 64, d.extractLsb' 128 64, d.extractLsb' 192 64] := by
  have hslice (k : Nat) : w64 (d.toNat / 2 ^ k) = d.extractLsb' k 64 :=
    BitVec.eq_of_toNat_eq (by simp [w64, Nat.shiftRight_eq_div_pow])
  have hlist : entryWords d =
      [w64 (d.toNat / 2 ^ 0), w64 (d.toNat / 2 ^ 64), w64 (d.toNat / 2 ^ 128), w64 (d.toNat / 2 ^ 192)] := rfl
  simp only [hlist, hslice]

/-- The queue once an entry has joined it: with the fourth entry of an extended packet, or with the one of any other, the packet is
whole. -/
def withEntry (x : Queue) (d : BitVec 256) : Queue :=
  let ws := x.part ++ entryWords d
  let first := if isExt (pOpcode ws) then (x.tail + 13) % 16 else x.tail
  let y := if isExt (pOpcode ws) = false ∨ ws.length = 16 then
      { x with items := x.items ++ [⟨first, ws, .unissued, none, [], false, none, 0, 0, 0⟩], part := [] }
    else { x with part := ws }
  { y with tail := (x.tail + 1) % 16 }

section
variable {s : State} {p ag q a : Nat} {n : PierNet} (d : BitVec 256)
  (hq : q < 4) (hn : pierNet s p = some n) (ha : agentAt n ag = some a)
include hq hn ha

theorem exec_aqValid_of_not_ready (hquiet : quiet s = true) (hr : aqReady s a q = false) :
    exec (.aqValid p ag q d) s = .next s := by
  have hw : aqWrite s p ag q d = s := by simp [aqWrite, hn, ha, Nat.mod_eq_of_lt hq, hr]
  change Host.Outcome.next (finishStep (aqWrite s p ag q d)) = _
  rw [hw, finishStep_of_calm (calm_of_quiet hquiet)]

theorem exec_aqValid_of_ready (hquiet : quiet s = true) (hruns : pierRuns s = true) (hstop : (pierSt s p).stopped = false)
    (hr : aqReady s a q = true) :
    exec (.aqValid p ag q d) s = .next (setQueue s a q (withEntry (queueOf s a q) d)) := by
  have hset : quiet (setQueue s a q (withEntry (queueOf s a q) d)) = true := hquiet
  have hw : aqWrite s p ag q d = setQueue s a q (withEntry (queueOf s a q) d) := by
    simp only [aqWrite, hn, ha, Option.bind_some, Nat.mod_eq_of_lt hq, hruns, hstop, hr, Bool.not_true, Bool.or_self,
      Bool.false_eq_true, if_false]
    rw [← chkWrite_of_quiet hset (b := bPier) (by decide) 0 p (entryIdx ag q (queueOf s a q).tail)]
    simp [withEntry]
  change Host.Outcome.next (finishStep (aqWrite s p ag q d)) = _
  rw [hw, finishStep_of_calm (calm_of_quiet hset)]

end

/-- Settles O40: while the queue is ready the entry joins it, and nothing but that queue is written. -/
theorem entriesTaken : Obligations.EntriesTaken := by
  intro p ag q a n d s hquiet hruns hq hn ha hstop x ws ext taken
  refine ⟨exec_aqValid_of_not_ready d hq hn ha hquiet, fun hr => ?_⟩
  have htaken : taken (withEntry x d) :=
    ⟨_, exec_aqValid_of_ready d hq hn ha hquiet hruns hstop hr, queueOf_setQueue s a q _,
      fun b r h => queueOf_setQueue_other s _ h, fun b => ?agents, rfl⟩
  case agents =>
    by_cases hb : b = a
    · subst hb
      rw [setQueue, agentSt_setAgent]
    · rw [setQueue, agentSt_setAgent_other _ _ hb]
  have hws : x.part ++ entryWords d = ws := by rw [entryWords_eq]
  have hext : isExt (pOpcode ws) = ext := rfl
  simp only [withEntry, hws, hext] at htaken
  refine ⟨fun he hl => ?third, fun he hl => ?fourth, fun he => ?plain⟩
  case third => simpa [he, hl] using htaken
  case fourth => simpa [he, hl] using htaken
  case plain => simpa [he] using htaken

end Sys2Proof.Machine
end

section
/-! The concrete states that the refutations below evaluate: a small die that has started, and one command of agent 10 in it. -/
namespace Sys2Proof.Machine

/-- Fields of registers, set one after another. -/
def withFields (s : State) (l : List (Fld × Nat)) : State := l.foldl (fun s x => put s x.1 x.2) s

/-- One pier, number 3, whose agent 10 is privileged: such a pier reads this die's Deck Time as it is. -/
def onePier : PierNet := ⟨3, 3, [(10, 20)], true⟩

/-- A die with that pier, started and locked, with firmware, the translation memory clear and Deck Time running. -/
def startedDie : State :=
  let s := withFields { State.reset with net := ⟨[onePier], 1⟩, now := 5000 }
    [(fCoreStepStep, 9), (fFwStatRun, 1), (fFwStatReady, 1), (fSemaStatHtmReady, 1), (fSemaCtlPageEn, 1), (fKeyMgrId 0, 1),
      (fKeyMgrValid 0, 1), (fKeyCtlLock, 1), (fDtStatLock, 1), (fClkStatRamp, 0), (fClkStatCdiv, 1)]
  { s with fw := { s.fw with stop := .running } }

/-- The words of a packet of one entry (R61). -/
def packetWords (opcode flags aux obj : Nat) (operand : Word) (timeout : Nat) : List Word :=
  [w64 (opcode + 2 ^ 8 * flags), w64 (obj + 2 ^ 32 * aux), operand, w64 timeout]

/-- The command of such a packet that agent 10 issued for tenant 7 from the first entry of its queue 0 at tick 4000. -/
def agentCmd (ws : List Word) : Cmd := ⟨0, 10, 0, 0, 3, 7, 0, ws, none, 4000⟩

/-- The packet as a queue entry in a state, with the stamp of its issue. -/
def queued (ws : List Word) (st : ItemSt) (c : Option Cmd) : Item := ⟨0, ws, st, c, [], false, none, 0, 0, 0⟩

/-- Agent 10's queue 0 holds the one entry. -/
def withQueued (s : State) (i : Item) : State := setQueue s 10 0 { Queue.zero with items := [i], tail := 1 }

/-- Object 5 of a tenant is resident in slot 9 of slice 3. -/
def withResident (s : State) (x : Slot) : State :=
  setSlot (setHtm (withFields s [(fSemaHtwLen x.tenant, 1)]) 5 ⟨.resident, 3, 9, x.kind⟩) (slotKey 3 9) x

/-- What is read, by `f`, of the state that a command answers. -/
def seenAfter {α : Type} (c : Instr) (s : State) (f : State → α) : Option α :=
  match exec c s with
  | .next u => some (f u)
  | _ => none

theorem seen_of_seenAfter {α : Type} {c : Instr} {s u : State} {f : State → α} {v : α} (h : exec c s = .next u)
    (hv : seenAfter c s f = some v) : f u = v := by
  rw [seenAfter, h] at hv
  exact Option.some.inj hv

/-- Every entry of every queue is the one that was put there. -/
theorem eq_of_mem_withQueued {s : State} (hs : s.agents = []) {i j : Item} {b r : Nat}
    (hj : j ∈ (queueOf (withQueued s i) b r).items) : j = i := by
  by_cases h : (b, r) = (10, 0)
  · obtain ⟨rfl, rfl⟩ := Prod.mk.inj h
    simpa [withQueued] using hj
  · rw [withQueued, queueOf_setQueue_other s _ h, queueOf, agentSt, hs] at hj
    simp [mgetD, mget, Agent.zero, Queue.zero] at hj

end Sys2Proof.Machine
end

section
/-! The count of the commands that Marionette's CANCEL_Q ended (R461), at the end of a ROUTE. -/
namespace Sys2Proof.Machine

/-- Agent 10's ROUTE of one entry: it adds 3 to object 5. -/
def oneEntryRoute : Cmd := agentCmd ([w64 0x10, 5, 3] ++ List.replicate 13 0)

def addThree : REntry := ⟨0, 3, 0, 0⟩

/-- The part of this die under tag 4, with nothing staged. -/
def unstagedPart : Part := ⟨4, oneEntryRoute, none, [(addThree, none)], [], []⟩

def routeGather : Gather := ⟨oneEntryRoute, [(0, 4)], [], [], none, []⟩

def routeItem : Item := queued oneEntryRoute.words .out (some oneEntryRoute)

/-- CANCEL_Q has marked the ROUTE, and its one entry comes back from slice 3 with CANCELLED. -/
def markedRoute : State :=
  let s := withQueued startedDie routeItem
  { s with
    rt := { s.rt with gathers := [routeGather], parts := [unstagedPart] }
    gir := { s.gir with sreports := [(3, 4, 0, .cancelled)] }
    obs := { s.obs with marked := [markOf oneEntryRoute] } }

/-- The end of the marked command counts in MAR_CNT. -/
theorem marCnt_after_report : seenAfter (.stagingReport 4 0) markedRoute (rd · fMarCntCancels.off) = some 0x100000000 := by
  decide +kernel

/-- Refutes O50: a ROUTE that CANCEL_Q marked and that ends with CANCELLED is counted in MAR_CNT (R461), which is no counter of the
observation block, and the clause on the last report leaves no other register changed. -/
theorem not_routesStaged : ¬ Obligations.RoutesStaged := by
  intro h
  have hlast := (h 10 0 0 4 onePier routeItem oneEntryRoute markedRoute).2.1 routeItem routeGather unstagedPart addThree
    .cancelled 3 (by decide +kernel) (by decide +kernel) (by decide +kernel) rfl (by decide +kernel) (by decide +kernel)
    (by decide +kernel)
    rfl rfl rfl rfl rfl rfl rfl (by decide) rfl rfl (by decide +kernel) rfl rfl rfl rfl
  obtain ⟨u, hu, -, -, -, -, -, -, -, hregs⟩ := hlast
  have hcount := hregs fMarCntCancels.off List.not_mem_nil (by decide)
  have hkept := (seen_of_seenAfter hu marCnt_after_report).symm.trans hcount
  exact absurd hkept (by decide +kernel)

end Sys2Proof.Machine
end

section
/-! The watchdog's record in link retry (R388), with the severity that has no block reset turned into the one that has. -/
namespace Sys2Proof.Machine

/-- Agent 10's WAIT_GE without timeout for the value 8 of a COUNT that holds 6. -/
def endlessWait : Cmd := agentCmd (packetWords 4 0 0 5 8 0)

/-- Its entry of slice 3's home table; the watchdog looks at it from tick 4990. -/
def endlessWaiter : Waiter := ⟨endlessWait, 8, 3, 2, 0, 4990, none⟩

def endlessSlot : Slot := { newSlot .count 0 6 7 0 5 1000 false with waiters := [endlessWaiter] }

/-- The watchdog is on with END set, its source is of severity 4, whose reactions hold no block reset, a port is in link retry, and
wakes are held back. -/
def watchedInRetry : State :=
  let s := withFields (withResident startedDie endlessSlot)
    [(fWaitWdogEn, 1), (fWaitWdogEnd, 1), (⟨rFsev bWait, 6, 3⟩, 4), (fViaLstatRetry 0, 1)]
  withQueued { s with wk := { s.wk with heldBack := true } } (queued endlessWait.words .out (some endlessWait))

/-- In link retry the record has severity 3, which resets block WAIT, and the reset lets the wakes go. -/
theorem not_heldBack_after_watchdog : seenAfter (.wdog 3 2) watchedInRetry (·.wk.heldBack) = some false := by decide +kernel

/-- Refutes O54: `resetsNothing` reads the source's programmed severity, and link retry records it one lower (R388). Of severity 4
it asks for no block reset, of severity 3 it does, and the reset of WAIT changes more than the waiter's end: wakes held back go. -/
theorem not_waitsEnd : ¬ Obligations.WaitsEnd := by
  intro h
  have hqueue : ∀ b r, ∀ j ∈ (queueOf watchedInRetry b r).items, ∀ w t, j.st ≠ .refused w t := by
    intro b r j hj w t
    rw [eq_of_mem_withQueued (by decide +kernel) hj]
    exact ItemSt.noConfusion
  have hwait := (h.1 10 0 (queued endlessWait.words .out (some endlessWait)) endlessWait watchedInRetry (by decide +kernel)
    (by decide +kernel) (by decide +kernel) (by decide +kernel) hqueue rfl rfl (by decide +kernel) (by decide +kernel) rfl rfl
    (by decide +kernel) (by decide +kernel) (by decide +kernel) (by decide +kernel)).2.1
  have hwdog := (hwait (slotKey 3 9) endlessWaiter endlessSlot rfl (by decide +kernel) (by decide +kernel) rfl (by decide +kernel)
    rfl rfl (by decide +kernel)).2.2.1
  obtain ⟨u, hu, ⟨-, hframe⟩, -⟩ :=
    (hwdog (by decide +kernel) rfl (by decide +kernel) (by decide +kernel)).1 (by decide +kernel)
  have hkept : u.wk.heldBack = true := congrArg (·.wk.heldBack) hframe
  have hgone : u.wk.heldBack = false := seen_of_seenAfter hu not_heldBack_after_watchdog
  rw [hkept] at hgone
  exact absurd hgone (by decide)

end Sys2Proof.Machine
end

section
/-! The reply that ends the aborted phase of a stage: what it waits for is read after the phase has turned (R232, R233). -/
namespace Sys2Proof.Machine

/-- Die 0 of a torus of two dies, whose port 0 leads to die 1. -/
def dieOfTwo : State :=
  setPort (withFields startedDie [(fCoreSpancfgMode, 1), (fCoreSpancfgXs, 1), (fDtAlstatState, 4), (⟨rCoreReach, 1, 1⟩, 1)]) 0
    { Port.zero with st := .up, locked := true }

/-- Object 5 of die 1, as a handle. -/
def farHandle : Nat := 5 + 2 ^ 26

/-- Agent 10 waits for the end of phase 0 of die 1's barrier. -/
def farWait : Cmd := agentCmd (packetWords 4 0 0 farHandle 0 0)

/-- The split arrival that agent 10 made in that phase, its results still to come. -/
def splitArrival : Particip := ⟨agentCmd (packetWords 9 16 3 farHandle (w64 (2 ^ 39)) 0), 0, 0, 128, true, [], [], 0, false⟩

/-- This die's stage of that barrier's context; phase 0 has aborted. -/
def abortedStage : Ctx where
  root := false
  desc := 0x110
  bhandle := farHandle
  tenant := 7
  n := 32
  closed1 := false
  dies := 3
  eloc := 2
  lmax := 4
  pcap := 8
  buf := 1
  chunkSize := 32
  chunks := 1
  st := .active
  phase := false
  parts := [splitArrival]
  chunk := 0
  counts := []
  closeAt := none
  partials := []
  whole := []
  carry := []
  carryAt := 0
  resPos := []
  bins := []
  arith := 0
  offender := none
  writing := false
  reported := false
  aborted := true

/-- The wait has left for die 1. -/
def farWaitOut : Item := queued farWait.words .out (some farWait)

def stageAsks : State := withQueued (setCtx dieOfTwo 3 abortedStage) farWaitOut

def fromDieOne : Hdr := ⟨1, 0, 7, 0, 0⟩

def phaseOver : Reply := ⟨0, .ok, 0, 4990⟩

/-- The reply turns the stage's phase, and then no result beat of the phase waited for is outstanding. -/
theorem items_after_reply :
    seenAfter (.reply 0 fromDieOne farWait phaseOver) stageAsks (fun u => dropSkips (queueOf u 10 0).items) = some
      [{ farWaitOut with st := .done { phaseOver with rflags := 128 } .nothing, since := 1 }] := by decide +kernel

/-- Refutes O57: the reply of the WAIT_GE that ends an aborted phase turns the stage's phase before it looks for the result beats
to wait for, and `Item.replied` looks in the state before, where agent 10's split arrival still counts. -/
theorem not_commandMessages : ¬ Obligations.CommandMessages := by
  intro h
  have hreply := ((h.1 0 fromDieOne stageAsks (by decide +kernel)).2.1 farWait farWaitOut phaseOver 1 (by decide +kernel)
    (by decide +kernel) (by decide +kernel) rfl (by decide +kernel) (by decide +kernel) (by decide +kernel) (by decide +kernel)
    (by decide +kernel)).1
  obtain ⟨u, hu, ⟨hitems, -⟩, -⟩ := hreply (by decide +kernel)
  have hawait := (seen_of_seenAfter hu items_after_reply).symm.trans hitems
  exact absurd hawait (by decide +kernel)

end Sys2Proof.Machine
end

section
/-! A command that unbinds its own agent. The statements on issue take any agent number the netlist has, and the model reads
AGT_BIND at 0x30000 + 16 a for any a, where the architecture has 2048 agents (R10). From 0x11400 on the binding of an agent is a
fixed counter (R438), and the issue of a command, which counts, comes between its stamp and its pier's checks. -/
namespace Sys2Proof.Machine

/-- The agent whose AGT_BIND is fixed counter k, for an even k. -/
def agentOfCounter (k : Nat) : Nat := 0x11400 + k / 2

/-- The started die, its pier's one agent bound to tenant 255 by fixed counter k; one more event clears BOUND. -/
def dieOfCounter (k : Nat) : State :=
  withFields { startedDie with net := ⟨[⟨3, 3, [(agentOfCounter k, 20)], true⟩], 1⟩ } [(⟨rObsFix k, 0, 64⟩, 0x1FF)]

def pierOfCounter (k : Nat) : PierNet := ⟨3, 3, [(agentOfCounter k, 20)], true⟩

/-- A packet in the second entry of a queue, not issued. -/
def unissued (ws : List Word) : Item := ⟨1, ws, .unissued, none, [], false, none, 0, 0, 0⟩

/-- Queue 0 of the agent holds such a packet, behind the entries given. -/
def withUnissued (s : State) (k : Nat) (ws : List Word) (before : List Item := []) : State :=
  setQueue s (agentOfCounter k) 0 { Queue.zero with items := before ++ [unissued ws], tail := 2 }

/-- The states of the agent's entries in queue 0. -/
def statesInQueue (k : Nat) (u : State) : List ItemSt := (dropSkips (queueOf u (agentOfCounter k) 0).items).map (·.st)

/-- Where entry i has become j, so have the states. -/
theorem statesInQueue_of_becomes {k : Nat} {s u : State} {i j : Item} (h : Becomes s u (agentOfCounter k) 0 i j) :
    statesInQueue k u =
      (dropSkips (mapFirst (fun m => decide (m = i)) (fun _ => j) (queueOf s (agentOfCounter k) 0).items)).map (·.st) := by
  rw [statesInQueue, h.1]

/-- The refusal of an agent that is not bound. -/
def notBound : ItemSt := .done ⟨0, .prot, 0, 5000⟩ .nothing

/-! SIG_SUB of a tenant that does not run (R89). -/

def subtraction : List Word := packetWords 2 0 0 5 1 0

def subtractionIssued : State :=
  setTen (withUnissued (dieOfCounter 22) 22 subtraction) 255 { Tenant.zero with st := .quiesced }

theorem states_after_subtraction :
    seenAfter (rowOf (agentOfCounter 22) 0 subtraction) subtractionIssued (statesInQueue 22) = some [notBound] := by decide +kernel

/-- Refutes O41: the command of a tenant that is not ACTIVE passes the checks in the state before, and is to stall; counted by the
counter that is its agent's binding it ends with PROT. -/
theorem not_commandsAtThePier : ¬ Obligations.CommandsAtThePier := by
  intro h
  obtain ⟨-, -, -, -, -, hstall, -⟩ :=
    h (agentOfCounter 22) 0 (pierOfCounter 22) (unissued subtraction) subtractionIssued (by decide +kernel)
  obtain ⟨u, hu, hitem, -⟩ := hstall (by decide +kernel) ⟨by decide +kernel, by decide +kernel⟩ (by decide +kernel)
  have hstates := (seen_of_seenAfter hu states_after_subtraction).symm.trans (statesInQueue_of_becomes hitem)
  exact absurd hstates (by decide +kernel)

/-! FENCE behind a command that is under way (R88). -/

def fence : List Word := packetWords 10 0 0 5 0 0

/-- A SIG_ADD of the agent that waits for its reply. -/
def additionOut : Item :=
  let ws := packetWords 1 0 0 5 1 0
  queued ws .out (some ⟨0, agentOfCounter 30, 0, 0, 3, 255, 0, ws, none, 4000⟩)

def fenceIssued : State := withUnissued (dieOfCounter 30) 30 fence [additionOut]

theorem states_after_fence :
    seenAfter (.fence (agentOfCounter 30) 0) fenceIssued (statesInQueue 30) = some [.out, notBound] := by decide +kernel

/-- Refutes O43: a FENCE with a command before it is to be held at its queue's head; counted by the counter that is its agent's
binding it ends with PROT. -/
theorem not_readsAnswer : ¬ Obligations.ReadsAnswer := by
  intro h
  have hissue := (h (agentOfCounter 30) 0 0 (pierOfCounter 30) (unissued fence) (newSlot .count 0 6 255 0 5 1000 false) fenceIssued
    rfl (by decide +kernel)).2 (by decide +kernel)
  obtain ⟨u, hu, hitem, -⟩ := hissue.2.2 (by decide +kernel) (by decide +kernel) (by decide +kernel)
  have hstates := (seen_of_seenAfter hu states_after_fence).symm.trans (statesInQueue_of_becomes hitem)
  exact absurd hstates (by decide +kernel)

/-! WAIT_GE and ARRIVE on a COUNT. -/

/-- Tenant 255's object 5, a COUNT of value 6. -/
def countOfSix : Slot := newSlot .count 0 6 255 0 5 1000 false

def waitForThree : List Word := packetWords 4 0 0 5 3 0

def waitIssued : State := withUnissued (withResident (dieOfCounter 24) countOfSix) 24 waitForThree

theorem states_after_wait :
    seenAfter (rowOf (agentOfCounter 24) 0 waitForThree) waitIssued (statesInQueue 24) = some [notBound] := by decide +kernel

/-- Refutes O44: the COUNT satisfies the wait, which is to answer OK; counted by the counter that is its agent's binding it ends
with PROT. -/
theorem not_waitsEvaluated : ¬ Obligations.WaitsEvaluated := by
  intro h
  have hwait := h (agentOfCounter 24) 0 (slotKey 3 9) (pierOfCounter 24) (unissued waitForThree) countOfSix .waitGe waitIssued rfl
    (by decide +kernel) (by decide +kernel) (by decide +kernel) rfl (by decide +kernel) (by decide +kernel) (Or.inl rfl)
    fun r hr => nomatch hr
  have hlegal : (pOperand waitForThree).toNat < 2 ^ 63 := by decide
  have hmet : (pOperand waitForThree).toNat ≤ countOfSix.value.toNat := by decide
  obtain ⟨u, hu, hitem, -⟩ := hwait.2.1 hlegal ⟨hmet, Or.inl (by decide +kernel)⟩
  have hstates := (seen_of_seenAfter hu states_after_wait).symm.trans (statesInQueue_of_becomes hitem)
  exact absurd hstates (by decide +kernel)

def arrival : List Word := packetWords 8 0 0 5 0 0

def arrivalIssued : State := withUnissued (withResident (dieOfCounter 28) countOfSix) 28 arrival

theorem states_after_arrival :
    seenAfter (.arrive (agentOfCounter 28) 0) arrivalIssued (statesInQueue 28) = some [notBound] := by decide +kernel

/-- Refutes O46: an ARRIVE on an object that is no barrier is to answer BADOP; counted by the counter that is its agent's binding
it ends with PROT, which comes before. -/
theorem not_arrivalsRecorded : ¬ Obligations.ArrivalsRecorded := by
  intro h
  have harrive := (h (agentOfCounter 28) 0 (slotKey 3 9) (pierOfCounter 28) (unissued arrival) countOfSix arrivalIssued
    (by decide +kernel) (by decide +kernel) (by decide +kernel) rfl (by decide +kernel) (Or.inl rfl)).1
  obtain ⟨u, hu, hitem, -⟩ := (harrive (by decide +kernel) (by decide +kernel)).1 (by decide +kernel)
  have hstates := (seen_of_seenAfter hu states_after_arrival).symm.trans (statesInQueue_of_becomes hitem)
  exact absurd hstates (by decide +kernel)

end Sys2Proof.Machine
end

section
/-! The issue of a command as a chain of equations, for a state that cannot be evaluated whole: an ordinary pier reads its Deck Time
with a lag that the model leaves free (log entry 110). -/
namespace Sys2Proof.Machine

/-! The Deck Time of an ordinary pier just before its counter jumps. -/

/-- A pier that has yet to see the counter jump, from 0 to a later time, hears 0 whatever its lag. -/
theorem heardNow_of_jump {s : State} {after : Nat} (p : Nat) (hj : s.dt.jump = some (0, after)) (hn : s.now < after) :
    heardNow s p = 0 := by
  have hv : s.now - min 40 (Config.pierLag p s.now) < after := by omega
  simp only [heardNow, hj, hv, if_true, Nat.zero_sub]

theorem pierNow_of_jump {s : State} {p : PierNet} {after : Nat} (hj : s.dt.jump = some (0, after)) (hn : s.now < after)
    (hp : p.priv = false) (hv : on s (fDtPofsValid p.pier) = false) :
    pierNow s p = max (pierSt s p.pier).lastDt (ofsNow s p.pier).toNat := by
  simp [pierNow, pierReads, heardNow_of_jump p.pier hj hn, hp, hv]

/-! From the head of a queue to its lane. -/

theorem issueOp_of_issues {s : State} {want : List Word → Bool} {a q : Nat} {p : PierNet} {i : Item} (h : issues s a q p i = true)
    (hw : want i.words = true) : issueOp want a q s = issueHead s p (localIdx p a) a q i := by
  simp only [issues, Bool.and_eq_true, decide_eq_true_eq, Bool.not_eq_true', and_assoc] at h
  obtain ⟨-, hruns, hq, hp, -, hstop, hhead, hst, -, -, -, hnext, -⟩ := h
  simp only [issueOp, Nat.mod_eq_of_lt hq, hp, hhead, hruns, hstop, hw, hst, hnext, Bool.not_true, Bool.or_self,
    Bool.false_eq_true, if_false, if_true]

/-- With no word found bad, the entries of a packet read well. -/
theorem readEntries_of_good {s : State} (h : s.flt.bad = []) (p base : Nat) (i : Item) : readEntries s p base i = (s, false) := by
  have hread (n : Nat) : chkRead s bPier 0 p n = (s, .good) := by simp [chkRead, h, takeFirst]
  unfold readEntries
  induction List.range (i.words.length / 4) with
  | nil => rfl
  | cons k ks ih => simpa only [List.foldl_cons, hread] using ih

/-- The state in which the checks of an issued command are made: the stamp is in the queue, the pier's pointers have passed on, the
pier has read its Deck Time, and the issue is counted. -/
def countedIssue (s : State) (p : PierNet) (g a q : Nat) (i : Item) (c : Cmd) : State :=
  let tr := isTraced s a i.words
  let n := s.order + 1
  let s := mapItem { s with order := n } a q (fun j => decide (j = i)) fun j =>
    { j with st := .stalled .bound, cmd := some c, traced := tr, ord := n }
  let s := passPointers s p g q
  let s := if p.priv then s else setPier s p.pier { pierSt s p.pier with lastDt := c.issue }
  let s := countEv s (Ev.ofCmd 0x01 c none none)
  if tr then countEv s (Ev.ofCmd 0x24 c none none) else s

theorem issueHead_of_good {s : State} {p : PierNet} {g a q : Nat} {i : Item} {c : Cmd} (hc : stamp s p a q i = c)
    (h : (countedIssue s p g a q i c).flt.bad = []) : issueHead s p g a q i = begin_ (countedIssue s p g a q i c) c := by
  have hgood := readEntries_of_good h p.pier (entryIdx g q 0) i
  simp only [countedIssue] at hgood
  simp only [issueHead, hc, countedIssue, hgood]

/-- A lane arrival without REL or TRY that passes the checks of its pier reaches its lane. -/
theorem begin_of_lane {s : State} {c : Cmd} (hcheck : pierCheck s c = none) (htry : fTRY c.words = false)
    (hrel : drainScope c.words = none) (hlane : isLane c.words = true) (hop : pOp c.words ≠ some .fence)
    (hten : (tenSt s c.tenant).st = .active) (hstall : pierStall s c = none) :
    begin_ s c = laneArrive (setItem s c .out) c := by
  have hdie : targetDie c.words = none := by simp [targetDie, hlane]
  simp only [begin_, hcheck, htry, hop, afterFence, hrel, depart, hlane, hten, hstall, hdie, ite_self, Bool.not_true,
    Bool.and_false, Bool.false_and, Bool.false_eq_true, false_and, if_false, if_true, ne_eq, not_true]

/-- An armed lane refuses an arrival that is not yet raised, and the pier reads its Deck Time for the delay (R162). -/
theorem laneArrive_of_armed {s : State} {c : Cmd} (hb : (laneSt s (pLane c.words)).broken = false)
    (ha : (laneSt s (pLane c.words)).armed.isSome = true) (hr : c.agent ∉ (laneSt s (pLane c.words)).raised)
    (hd : c.die = dieOf s) : laneArrive s c = holdRefused (bump s fTrsCnt2Repres) c .barrier 256 := by
  have hd' : c.die = dieOf (bump s fTrsCnt2Repres) := hd.trans (get_put_off _ fTrsCnt2Repres fCoreSpancfgDie _ (by decide)).symm
  simp [laneArrive, hb, ha, hr, refuseCmd, crossed, cross, refused, hd']

/-- A refused command of an ordinary pier is put off from the Deck Time that the pier reads then. -/
theorem holdRefused_of_pierNow {s : State} {p : PierNet} {c : Cmd} {t : Nat} (hn : pierNet s c.pier = some p)
    (hp : p.priv = false) (ht : pierNow s p = t) (why : Stall) (delay : Nat) :
    holdRefused s c why delay = mapItem (setPier s c.pier { pierSt s c.pier with lastDt := t }) c.agent c.queue (holds c)
      fun i => { i with st := .refused why (t + delay) } := by
  simp [holdRefused, timeRead, pierTime, hn, hp, ht]

end Sys2Proof.Machine
end

section
/-! A lane arrival whose issue moves its own pier's Deck Time. The statement on lanes takes any pier number the netlist has, and
the model reads DT_POFS at 0x101000 + 8 p for any p, where the register map ends at p = 2047. The offset of pier 34332 is fixed
counter 28, which counts the ARRIVEs issued (R438). -/
namespace Sys2Proof.Machine

/-- An ordinary pier whose offset register is fixed counter 28. -/
def pierOfArrivals : PierNet := ⟨34332, 3, [(10, 20)], false⟩

/-- ARRIVE with LANE on lane 5. -/
def laneArrival : List Word := packetWords 8 32 5 0 0 100

def armedItem : Item := queued laneArrival .unissued none

/-- Lane 5 of tenant 7 counts agent 10 and is armed. The pier's offset is 7 sixteenths of a tick, which is none, and the counter is
about to jump from 0. -/
def armedLane : State :=
  let s := withFields { startedDie with net := ⟨[pierOfArrivals], 1⟩ }
    [(fAgtBindTenant 10, 7), (fAgtBindBound 10, 1), (fTrsLcfgEn 5, 1), (fTrsLcfgTenant 5, 7), (⟨rTrsLen 5 0, 10, 1⟩, 1),
      (⟨rObsFix 28, 0, 64⟩, 7)]
  let s := setLane s 5 { Lane.zero with armed := some 6000, due := some 6000 }
  withQueued { s with dt := { s.dt with jump := some (0, 10000) } } armedItem

/-- The arrival's stamp: its pier reads 0. -/
def armedCmd : Cmd := ⟨0, 10, 0, 0, 34332, 7, 0, laneArrival, some 1600, 0⟩

theorem stamp_armedLane : stamp armedLane pierOfArrivals 10 0 armedItem = armedCmd := by
  have hnow : pierNow armedLane pierOfArrivals = 0 := by
    rw [pierNow_of_jump (after := 10000) (by decide +kernel) (by decide +kernel) rfl (by decide +kernel)]
    decide +kernel
  simp only [stamp, hnow]
  decide +kernel

/-- The state once the arrival is issued, and counted as refused. -/
def armedCounted : State :=
  bump (setItem (countedIssue armedLane pierOfArrivals 0 10 0 armedItem armedCmd) armedCmd .out) fTrsCnt2Repres

/-- The issue made the offset 8 sixteenths, which is a tick. -/
theorem pierNow_armedCounted : pierNow armedCounted pierOfArrivals = 1 := by
  rw [pierNow_of_jump (after := 10000) (by decide +kernel) (by decide +kernel) rfl (by decide +kernel)]
  decide +kernel

/-- The arrival refused. -/
def armedRefused : State :=
  mapItem (setPier armedCounted 34332 { pierSt armedCounted 34332 with lastDt := 1 }) 10 0 (holds armedCmd)
    fun i => { i with st := .refused .barrier 257 }

theorem issues_armedLane : issues armedLane 10 0 pierOfArrivals armedItem = true := by decide +kernel

theorem exec_armedLane : exec (.arriveLane 10 0) armedLane = .next (finishStep armedRefused) := by
  let s := countedIssue armedLane pierOfArrivals 0 10 0 armedItem armedCmd
  have hissue := issueOp_of_issues (want := arriveAt true) issues_armedLane (by decide)
  have hhead := issueHead_of_good (g := localIdx pierOfArrivals 10) stamp_armedLane (by decide +kernel)
  have hbegin := begin_of_lane (s := s) (c := armedCmd) (by decide +kernel) (by decide) (by decide) (by decide) (by decide)
    (by decide +kernel) (by decide +kernel)
  have hlane := laneArrive_of_armed (s := setItem s armedCmd .out) (c := armedCmd) (by decide +kernel)
    (by decide +kernel) (by decide +kernel) (by decide +kernel)
  have hheld := holdRefused_of_pierNow (s := armedCounted) (c := armedCmd) (by decide +kernel) rfl pierNow_armedCounted .barrier 256
  change Host.Outcome.next (finishStep (issueOp (arriveAt true) 10 0 armedLane)) = _
  exact congrArg (fun t => Host.Outcome.next (finishStep t)) (hissue.trans (hhead.trans (hbegin.trans (hlane.trans hheld))))

/-- The command is put off by 256 from 1, the Deck Time after the issue. -/
theorem states_after_armedArrival :
    seenAfter (.arriveLane 10 0) armedLane (fun u => (dropSkips (queueOf u 10 0).items).map (·.st)) =
      some [.refused .barrier 257] := by
  rw [seenAfter, exec_armedLane]
  decide +kernel

/-- Refutes O47: an armed lane's refusal is to put the arrival off by 256 from the Deck Time of its issue; the model reads the pier's
time again, and the issue, counted by the counter that is the pier's offset, has moved it. -/
theorem not_laneArrivals : ¬ Obligations.LaneArrivals := by
  intro h
  have harrive := (h 10 0 5 armedLane (by decide)).1 pierOfArrivals armedItem issues_armedLane (by decide +kernel) (by decide)
    (by decide) (by decide +kernel)
  obtain ⟨u, hu, -, hitem⟩ := harrive.2.1 (by decide +kernel) (by decide +kernel) (by decide +kernel)
  have hstates := (seen_of_seenAfter hu states_after_armedArrival).symm.trans (congrArg (List.map (fun i : Item => i.st)) hitem.1)
  rw [stamp_armedLane] at hstates
  exact absurd hstates (by decide +kernel)

end Sys2Proof.Machine
end

section
/-! A SIG_ADD that unbinds its own agent. The statement on wakes takes any agent number the netlist has, where the architecture has 2048
agents (R10), and the model reads AGT_BIND at 0x30000 + 16 a for any a. Programmable counter 0, set to count the commands issued (R434),
is the binding of agent 0x11300. -/
namespace Sys2Proof.Machine

/-- The agent whose AGT_BIND is programmable counter 0. -/
def agentOfProgrammable : Nat := 0x11300

def pierOfProgrammable : PierNet := ⟨3, 3, [(agentOfProgrammable, 20)], true⟩

/-- The started die, whose pier's one agent programmable counter 0 binds to tenant 255; one more command issued clears BOUND. -/
def dieOfProgrammable : State :=
  withFields { startedDie with net := ⟨[pierOfProgrammable], 1⟩ }
    [(⟨rObsCval 0, 0, 64⟩, 0x1FF), (fObsCfg0Event 0, 0x01), (fObsCfg0En 0, 1)]

/-- Tenant 255's object 5, a SEQ of value 6 that agent 10's WAIT_GE waits to see at 8. -/
def watchedSeq : Slot := { newSlot .seq 0 6 255 0 5 1000 false with waiters := [endlessWaiter] }

def additionOfTwo : List Word := packetWords 1 0 0 5 2 0

def additionIssued : State :=
  setQueue (withResident dieOfProgrammable watchedSeq) agentOfProgrammable 0
    { Queue.zero with items := [unissued additionOfTwo], tail := 2 }

theorem value_after_addition :
    seenAfter (.sigAdd agentOfProgrammable 0) additionIssued (fun u => (slotAt u (slotKey 3 9)).map (·.value)) = some (some 6) := by
  decide +kernel

/-- Refutes O53: the SIG_ADD passes its pier's checks in the state before, and is to bring the SEQ from 6 to 8; counted by the counter
that is its agent's binding it ends with PROT at the pier, and the SEQ stays at 6. -/
theorem not_wakesGoOut : ¬ Obligations.WakesGoOut := by
  intro h
  have hsignal := (h additionIssued (by decide +kernel) (by decide +kernel)).1 agentOfProgrammable 0 (slotKey 3 9) pierOfProgrammable
    (unissued additionOfTwo) watchedSeq endlessWaiter
  obtain ⟨u, y, hu, ⟨hslot, -⟩, hvalue, -⟩ := hsignal (by decide +kernel) (by decide +kernel) (by decide +kernel) (by decide)
    rfl rfl rfl (by decide) (by decide) (by decide +kernel) (by decide)
  have hseen := seen_of_seenAfter hu value_after_addition
  rw [hslot, Option.map_some, hvalue] at hseen
  exact absurd hseen (by decide)

end Sys2Proof.Machine
end

section
/-! The report of a combine entry whose status word is itself a counter. The statement on releases takes any context number, where a die has
1024 (R214), and the model reads ABC_CSR1 at 0x62008 + 32 k for any k. For context 28938 that is fixed counter 41, which counts the
phases completed in format 0 (R438), and the completion counts after it has stored the word. -/
namespace Sys2Proof.Machine

/-- The context whose ABC_CSR1 is fixed counter 41. -/
def ctxOfCounter : Nat := 28938

/-- Its root entry, bound to object 5 of this die: phase 1 is closed with its results written, in format 0 with arithmetic status 5. -/
def closedRoot : Ctx :=
  { abortedStage with root := true, bhandle := 5, desc := 0x010, st := .closed, phase := true, parts := [], aborted := false, arith := 5 }

/-- Barrier 5 in phase 1 with its three arrivals, held back for the entry's report. -/
def reportedBarrier : Slot :=
  { newSlot .barrier 3 (barWord true 3 false true 0) 7 0 5 1000 false with combine := true, role := true }

/-- The entry's report is under way to the barrier. -/
def reportUnderWay : State :=
  let s := setCtx (withResident startedDie reportedBarrier) ctxOfCounter closedRoot
  { s with gir := { s.gir with reports := [(ctxOfCounter, (7, 0), 5, false)] } }

/-- The entry's status word 5 has become 6 with the phase's count. -/
theorem status_after_report : seenAfter (.combineReport ctxOfCounter) reportUnderWay (rd · (rAbcCsr ctxOfCounter 1)) = some 6 := by
  decide +kernel

/-- Refutes O55: the report is to leave the phase's arithmetic word in the entry's ABC_CSR1; where that is the counter of the phases
completed, the completion counts on top of the word. -/
theorem not_timedReleases : ¬ Obligations.TimedReleases := by
  intro h
  have hparts := h 3 9 reportUnderWay (by decide +kernel) (by decide +kernel) (by decide) reportedBarrier (by decide +kernel) rfl
    (by decide) rfl rfl (by decide +kernel)
  have hreport := (hparts.2.2 ctxOfCounter 7 0 5 5 closedRoot false [] (by decide +kernel) rfl (by decide +kernel) (by decide +kernel)
    (by decide +kernel) (by decide +kernel) (by decide +kernel)).1
  obtain ⟨u, hu, -, -, -, -, hstatus, -⟩ := hreport rfl (by decide +kernel) (by decide +kernel) rfl (by decide +kernel) rfl rfl
    (by decide +kernel)
  have hseen := (seen_of_seenAfter hu status_after_report).symm.trans hstatus
  exact absurd hseen (by decide)

end Sys2Proof.Machine
end

section
/-! The registers of the lanes (R160, R164 to R166). -/
namespace Sys2Proof.Machine

/-! The end of a served write. -/

/-- A command that is a served write is that write and nothing more where it leaves nothing to do. -/
theorem exec_of_served {c : Instr} {s u : State} {r : Requester} {off : Nat} {f : State → State}
    (hc : exec c s = .next (finishStep (access s r off f))) (hs : served s r off = true) (hw : f s = u) (hcalm : calm u = true) :
    exec c s = .next u := by
  rw [hc, finishStep_access hs (hw ▸ hcalm), hw]

/-- Registers that are no FINJ and not FW_UPDST leave nothing to do when they change. -/
theorem calm_of_plainRegs {s t : State} {offs : List Nat} (hq : quiet s = true) (h : RegsOnly s t offs)
    (ho : ∀ o ∈ offs, o % 65536 ≠ 0xF020 ∧ o ≠ rFwUpdst) : calm t = true :=
  calm_of_regsOnly (calm_of_quiet hq) h (fun b hb => (ho _ hb).1 (rFinj_mod b)) fun hu => (ho _ hu).2 rfl

/-- A lane's state has no part in what the end of a command does. -/
theorem calm_setLane {s : State} (l : Nat) (x : Lane) (h : calm s = true) : calm (setLane s l x) = true :=
  calm_congr rfl rfl (fun _ => rfl) rfl rfl rfl rfl h

/-! Bits, fields and masks. -/

theorem nbit_eq_wbits (w : Word) (i : Nat) : nbit w.toNat i = decide (wbits w i 1 = 1) :=
  Nat.testBit_eq_decide_div_mod_eq

theorem on_wr_other (s : State) {off : Nat} (v : Word) (f : Fld) (h : f.off ≠ off) : on (wr s off v) f = on s f := by
  rw [on, on, get, get, rd_wr_other s v h]

/-- The low bits of a word, as a mask and as a remainder. -/
theorem and_lowMask (w : Word) {n : Nat} (hn : n ≤ 64) : w &&& w64 (2 ^ n - 1) = w64 (w.toNat % 2 ^ n) := by
  have hpow : 2 ^ n ≤ 2 ^ 64 := Nat.pow_le_pow_right (by decide) hn
  have hpos := Nat.two_pow_pos n
  have hmod := Nat.mod_lt w.toNat hpos
  apply BitVec.eq_of_toNat_eq
  rw [BitVec.toNat_and, BitVec.toNat_ofNat, BitVec.toNat_ofNat, Nat.mod_eq_of_lt (a := 2 ^ n - 1) (by omega),
    Nat.mod_eq_of_lt (a := w.toNat % 2 ^ n) (by omega)]
  exact Nat.and_two_pow_sub_one_eq_mod w.toNat n

/-! Trestle's gate (R409, R413). -/

theorem openGate_trestle (s : State) : openGate s 97 = put (put s ⟨rClkGopen1, 33, 1⟩ 1) ⟨rClkGopen0, 0, 1⟩ 1 := rfl

theorem openGate_trestle_regsOnly (s : State) : RegsOnly s (openGate s 97) [rClkGopen0, rClkGopen1] := by
  rw [openGate_trestle]
  exact ((RegsOnly.refl s _).put _ (by simp) _).put _ (by simp) _

theorem trestleOn_eq (s : State) : trestleOn s = decide (get s ⟨rClkGopen1, 33, 1⟩ = 1) := nbit_eq_wbits _ 33

theorem trestleOn_openGate (s : State) : trestleOn (openGate s 97) = true := by
  rw [trestleOn_eq, openGate_trestle, get_put_off _ _ _ _ (by decide), get_put_same _ _ _ (by decide)]
  rfl

/-- Trestle's gate is in CLK_GOPEN1. -/
theorem trestleOn_wr {s : State} {off : Nat} (v : Word) (h : off ≠ rClkGopen1) : trestleOn (wr s off v) = trestleOn s := by
  rw [trestleOn_eq, trestleOn_eq, get, get, rd_wr_other _ _ (Ne.symm h)]

/-! Whether a lane decides (R155, R163). -/

/-- A lane on which nothing has arrived, and that FORCELANE has not marked, is not complete. -/
theorem localAnd_of_none {s : State} {l : Nat} (hf : (laneSt s l).forced = false) (hr : (laneSt s l).raised = [])
    (hw : (laneSt s l).waiting = []) : localAnd s l = false := by
  simp [localAnd, hf, hr, hw]

/-- What keeps a lane from deciding: it is not enabled, nothing has arrived on it, it is broken or armed, or Trestle is closed. -/
def laneStands (s : State) (l : Nat) : Prop :=
  on s (fTrsLcfgEn l) = false ∨
    ((laneSt s l).forced = false ∧ (laneSt s l).raised = [] ∧ (laneSt s l).waiting = []) ∨
    (laneSt s l).broken = true ∨ (laneSt s l).armed ≠ none ∨ gateOn s 97 = false

theorem decideLane_of_stands {s : State} {l : Nat} (h : laneStands s l) : decideLane s l = s := by
  unfold decideLane
  rcases h with hen | ⟨hf, hr, hw⟩ | hb | ha | hg
  · simp [hen]
  · simp [localAnd_of_none hf hr hw]
  · simp [hb]
  · simp [Option.isSome_iff_ne_none.2 ha]
  · simp [trestleOn, hg]

/-! TRS_LEN (R160, R164). -/

/-- A write to TRS_LEN leaves what decides a lane's fate but its enabled agents. -/
theorem laneStands_wr_len {s : State} {l w : Nat} (d : Word) (hw : w < 32) (hl : l < 64) (h : laneStands s l) :
    laneStands (wr s (rTrsLen l w) d) l := by
  have hen : on (wr s (rTrsLen l w) d) (fTrsLcfgEn l) = on s (fTrsLcfgEn l) :=
    on_wr_other s d _ (by simp only [rTrsLen]; omega)
  have hgate : gateOn (wr s (rTrsLen l w) d) 97 = gateOn s 97 :=
    trestleOn_wr d (by simp only [rTrsLen, rClkGopen1]; omega)
  rw [laneStands, hen, hgate]
  exact h

theorem wTrsLen_of_sent {s : State} {r : Requester} {l : Nat} (w : Nat) (d : Word) (hm : isManager s r = true)
    (hs : (laneSt s l).sent = true) :
    wTrsLen s r l w d = setLane s l { laneSt s l with lenNext := mput (laneSt s l).lenNext w d } := by
  rw [wTrsLen, hm, withRight_true, lenWrite, if_pos hs]

theorem wTrsLen_of_stands {s : State} {r : Requester} {l w : Nat} (d : Word) (hm : isManager s r = true) (hl : l < 64) (hw : w < 32)
    (hs : (laneSt s l).sent = false) (h : laneStands s l) : wTrsLen s r l w d = wr s (rTrsLen l w) d := by
  rw [wTrsLen, hm, withRight_true, lenWrite, if_neg (by simp [hs]), decideLane_of_stands (laneStands_wr_len d hw hl h)]

/-! TRS_LCFG and TRS_LXDIE (R166, R345, R413). -/

theorem laneBusy_iff {s : State} {l : Nat} :
    laneBusy s l = true ↔ (laneSt s l).raised ≠ [] ∨ (laneSt s l).waiting ≠ [] ∨ (laneSt s l).armed ≠ none := by
  simp [laneBusy, Option.isSome_iff_ne_none, or_assoc]

theorem laneBusy_of_idle {s : State} {l : Nat} (hr : (laneSt s l).raised = []) (hw : (laneSt s l).waiting = [])
    (ha : (laneSt s l).armed = none) : laneBusy s l = false := by
  simp [laneBusy, hr, hw, ha]

/-- A write that leaves EN clear, keeps an enabled lane with its tenant, or finds the tenant below its share has its lane. -/
theorem lanesFull_of_room {s : State} {l : Nat} {d : Word}
    (h : wbits d 8 1 = 0 ∨ (on s (fTrsLcfgEn l) = true ∧ get s (fTrsLcfgTenant l) = wbits d 0 8) ∨
      lanesOf s (wbits d 0 8) < get s (fTenShare1Lanes (wbits d 0 8))) : lanesFull s l d = false := by
  rw [lanesFull, nbit_eq_wbits]
  rcases h with hen | ⟨hon, ht⟩ | hroom
  · simp [hen]
  · simp [hon, ht]
  · simp [Nat.not_le.2 hroom]

theorem wTrsLcfg_of_busy {s : State} {r : Requester} {l : Nat} (xdie : Bool) (d : Word) (hm : isManager s r = true)
    (hb : laneBusy s l = true) : wTrsLcfg s r l xdie d = raise s bTrs 3 (dLane l (dieOf s)) := by
  simp only [wTrsLcfg, hm, withRight_true, hb, Bool.true_or, if_true]

theorem wTrsLxdie_of_idle {s : State} {r : Requester} {l : Nat} (d : Word) (hm : isManager s r = true)
    (hb : laneBusy s l = false) : wTrsLcfg s r l true d = wr s (rTrsLxdie l) d := by
  have hen : on (wr s (rTrsLxdie l) d) (fTrsLcfgEn l) = on s (fTrsLcfgEn l) :=
    on_wr_other s d _ (by simp only [rTrsLxdie]; omega)
  simp only [wTrsLcfg, hm, withRight_true, hb, if_true, hen, Bool.not_true, Bool.false_and, Bool.or_self, Bool.false_eq_true,
    if_false, Bool.not_and_self]

/-- TRS_LCFG as written: the defined bits of the data. -/
def lcfgWritten (s : State) (l : Nat) (d : Word) : State := wr s (rTrsLcfg l) (d &&& 0x3fffffffff)

theorem on_lcfgWritten (s : State) (l : Nat) (d : Word) : on (lcfgWritten s l d) (fTrsLcfgEn l) = decide (wbits d 8 1 = 1) := by
  rw [on, lcfgWritten, get_wr_mask _ _ _ _ (by decide)]

theorem trestleOn_lcfgWritten (s : State) {l : Nat} (d : Word) (hl : l < 64) : trestleOn (lcfgWritten s l d) = gateOn s 97 :=
  trestleOn_wr _ (by simp only [rTrsLcfg, rClkGopen1]; omega)

/-- Trestle is opened where the write enables the lane and finds it closed. -/
theorem wTrsLcfg_of_idle {s : State} {r : Requester} {l : Nat} {d : Word} (hl : l < 64) (hm : isManager s r = true)
    (hb : laneBusy s l = false) (hf : lanesFull s l d = false) :
    wTrsLcfg s r l false d =
      if wbits d 8 1 = 0 ∨ on s (fTrsLcfgEn l) = true ∨ gateOn s 97 = true then lcfgWritten s l d
      else openGate (lcfgWritten s l d) 97 := by
  have hbit : wbits d 8 1 < 2 := wbits_lt d 8 1
  have hen : (wbits d 8 1 = 1) ↔ ¬ wbits d 8 1 = 0 := by omega
  have hwr : wTrsLcfg s r l false d =
      if !on s (fTrsLcfgEn l) && on (lcfgWritten s l d) (fTrsLcfgEn l) && !trestleOn (lcfgWritten s l d) then
        openGate (lcfgWritten s l d) 97 else lcfgWritten s l d := by
    rw [wTrsLcfg, hm, hb, hf]
    rfl
  rw [hwr, on_lcfgWritten, trestleOn_lcfgWritten s d hl]
  by_cases h0 : wbits d 8 1 = 0
  · simp [h0]
  · cases on s (fTrsLcfgEn l) <;> cases gateOn s 97 <;> simp [h0, hen]

/-- The registers that a write to TRS_LCFG can change ask for nothing at its end. -/
theorem lcfgRegs_plain {l : Nat} (hl : l < 64) :
    ∀ o ∈ [rTrsLcfg l, rClkGopen0, rClkGopen1], o % 65536 ≠ 0xF020 ∧ o ≠ rFwUpdst := by
  intro o ho
  simp only [List.mem_cons, List.not_mem_nil, or_false] at ho
  rcases ho with rfl | rfl | rfl
  · simp only [rTrsLcfg, rFwUpdst]
    omega
  · decide
  · decide

theorem exec_trsLcfg_of_idle {s : State} {r : Requester} {l : Nat} {d : Word} (hq : quiet s = true) (hl : l < 64)
    (hm : manages s r (rTrsLcfg l) = true) (hb : laneBusy s l = false) (hf : lanesFull s l d = false) :
    ∃ u, exec (.trsLcfg r l false d) s = .next u ∧ rd u (rTrsLcfg l) = w64 (d.toNat % 2 ^ 38) ∧
      RegsOnly s u (if wbits d 8 1 = 0 ∨ on s (fTrsLcfgEn l) = true ∨ gateOn s 97 = true then [rTrsLcfg l]
        else [rTrsLcfg l, rClkGopen0, rClkGopen1]) ∧
      (wbits d 8 1 = 1 → on s (fTrsLcfgEn l) = false → gateOn u 97 = true) := by
  have hwr := wTrsLcfg_of_idle hl (isManager_of_manages hm) hb hf
  have hmask : rd (lcfgWritten s l d) (rTrsLcfg l) = w64 (d.toNat % 2 ^ 38) :=
    (rd_wr_same _ _ _).trans (and_lowMask d (n := 38) (by decide))
  have hone : RegsOnly s (lcfgWritten s l d) [rTrsLcfg l] := wr_regsOnly _ _ _
  have hfirst : RegsOnly s (lcfgWritten s l d) [rTrsLcfg l, rClkGopen0, rClkGopen1] := hone.mono (by simp)
  by_cases h : wbits d 8 1 = 0 ∨ on s (fTrsLcfgEn l) = true ∨ gateOn s 97 = true
  · rw [if_pos h] at hwr ⊢
    have hcalm : calm (lcfgWritten s l d) = true := calm_of_plainRegs hq hfirst (lcfgRegs_plain hl)
    refine ⟨_, exec_of_served rfl (served_of_manages hm) hwr hcalm, hmask, hone, fun hset hen => ?_⟩
    have hopen : gateOn s 97 = true := by simpa [hset, hen] using h
    exact (trestleOn_lcfgWritten s d hl).trans hopen
  · rw [if_neg h] at hwr ⊢
    have hgate := openGate_trestle_regsOnly (lcfgWritten s l d)
    have hall : RegsOnly s (openGate (lcfgWritten s l d) 97) [rTrsLcfg l, rClkGopen0, rClkGopen1] :=
      hfirst.trans (hgate.mono (by simp))
    have hcalm : calm (openGate (lcfgWritten s l d) 97) = true := calm_of_plainRegs hq hall (lcfgRegs_plain hl)
    have hother : rTrsLcfg l ∉ [rClkGopen0, rClkGopen1] := by
      simp only [List.mem_cons, List.not_mem_nil, or_false, rTrsLcfg, rClkGopen0, rClkGopen1]
      omega
    exact ⟨_, exec_of_served rfl (served_of_manages hm) hwr hcalm, (hgate.2 _ hother).trans hmask, hall,
      fun _ _ => trestleOn_openGate _⟩

theorem exec_trsLcfg_of_busy {s : State} {r : Requester} {l : Nat} {xdie : Bool} {d : Word} (hq : quiet s = true)
    (hm : manages s r (if xdie then rTrsLxdie l else rTrsLcfg l) = true) (hb : laneBusy s l = true) (hs : s.flt.shadows = [])
    (hr : resetsNothing s bTrs 3 = true) : ∃ u, exec (.trsLcfg r l xdie d) s = .next u ∧ Recorded s u bTrs 3 := by
  have hwr := wTrsLcfg_of_busy xdie d (isManager_of_manages hm) hb
  obtain ⟨hrec, hres⟩ := raise_recorded (dLane l (dieOf s)) hs hr (by decide) (by decide)
  have hcalm := calm_of_recorded (calm_of_quiet hq) hrec hres
  exact ⟨_, exec_of_served rfl (served_of_manages hm) hwr hcalm, hrec⟩

/-! TRS_LSTAT (R165). -/

theorem wTrsLstat_of_zero {s : State} {l : Nat} {d : Word} (h : wbits d 28 1 = 0) : wTrsLstat s l d = s := by
  rw [wTrsLstat, nbit_eq_wbits, h]
  rfl

/-- A lane on which nothing has arrived stays as it is when BROKEN is cleared. -/
theorem wTrsLstat_of_none {s : State} {l : Nat} {d : Word} (h : wbits d 28 1 = 1) (hr : (laneSt s l).raised = [])
    (hw : (laneSt s l).waiting = []) (hf : (laneSt s l).forced = false) :
    wTrsLstat s l d = setLane s l { laneSt s l with broken := false } := by
  rw [wTrsLstat, nbit_eq_wbits, h]
  exact decideLane_of_stands (.inr (.inl (by rw [laneSt_setLane]; exact ⟨hf, hr, hw⟩)))

/-- Settles O60: a write to TRS_LEN decides nothing where the lane stands, one to TRS_LCFG or TRS_LXDIE is carried out or recorded as
the lane is in use or not, and TRS_LSTAT clears BROKEN alone. -/
theorem laneRegisters : Obligations.LaneRegisters := by
  intro r l w d s hq hl hw x
  have hlane (y : Lane) : calm (setLane s l y) = true := calm_setLane l y (calm_of_quiet hq)
  refine ⟨fun hm => ⟨fun hs => ?sent, fun hs hidle => ?len⟩,
    fun hm => ⟨fun hr hwt ha hroom => ?lcfg, fun hb hs hn => ?refused⟩, fun hm hr hwt ha => ?lxdie, fun hm hb hs hn => ?xrefused,
    fun hs => ⟨fun h0 => ?stays, fun h1 hr hwt hf => ?clears⟩⟩
  case sent =>
    have hwr := wTrsLen_of_sent w d (isManager_of_manages hm) hs
    exact ⟨_, exec_of_served rfl (served_of_manages hm) hwr (hlane _), laneSt_setLane _ _ _,
      fun k hk => laneSt_setLane_other _ _ hk, rfl⟩
  case len =>
    have hwr := wTrsLen_of_stands d (isManager_of_manages hm) hl hw hs hidle
    exact ⟨_, exec_of_wr rfl hq (served_of_manages hm) hwr (by simp only [rTrsLen]; omega)
      (by simp only [rTrsLen, rFwUpdst]; omega), rd_wr_same _ _ _, wr_regsOnly _ _ _⟩
  case lcfg => exact exec_trsLcfg_of_idle hq hl hm (laneBusy_of_idle hr hwt ha) (lanesFull_of_room hroom)
  case refused => exact exec_trsLcfg_of_busy hq hm (laneBusy_iff.2 hb) hs hn
  case lxdie =>
    have hwr := wTrsLxdie_of_idle d (isManager_of_manages hm) (laneBusy_of_idle hr hwt ha)
    exact ⟨_, exec_of_wr rfl hq (served_of_manages hm) hwr (by simp only [rTrsLxdie]; omega)
      (by simp only [rTrsLxdie, rFwUpdst]; omega), rd_wr_same _ _ _, wr_regsOnly _ _ _⟩
  case xrefused => exact exec_trsLcfg_of_busy hq hm (laneBusy_iff.2 hb) hs hn
  case stays => exact exec_of_served rfl hs (wTrsLstat_of_zero h0) (calm_of_quiet hq)
  case clears =>
    have hwr := wTrsLstat_of_none h1 hr hwt hf
    exact ⟨_, exec_of_served rfl hs hwr (hlane _), laneSt_setLane _ _ _,
      fun k hk => laneSt_setLane_other _ _ hk, rfl⟩

end Sys2Proof.Machine
end

section
/-! An ARRIVE_COMBINE at a slot whose object belongs to no tenant of the die. The statement on combine arrivals takes the slot to which the
bank leads whatever tenant its object names, where the architecture has 256 tenants (R340), and the model reads TEN_CFG at
0x20000 + 256 t for any t. For tenant 0x1230 that is programmable counter 0, which counts the operations applied to objects (R434). -/
namespace Sys2Proof.Machine

/-- The tenant whose TEN_CFG is programmable counter 0. -/
def tenantOfProgrammable : Nat := 0x1230

/-- Tenant 7's object 5 leads to a BARRIER of that tenant: three arrivals expected, none made. -/
def strayBarrier : Slot := newSlot .barrier 3 0 tenantOfProgrammable 0 5 1000 false

/-- The open root entry of tenant 7's object 5: two arrivals expected, none made. -/
def openRoot : Ctx := { abortedStage with root := true, bhandle := 5, st := .open, parts := [], aborted := false }

/-- Agent 10's SPLIT arrival at entry 3, payload at 0 and results at 128. -/
def splitCombine : Cmd := agentCmd (packetWords 9 16 3 5 (w64 (2 ^ 39)) 0)

/-- Its drain is over, and it goes on. -/
def drainedCombine : Item := queued splitCombine.words (.stalled .bound) (some splitCombine)

/-- A mirrored die of a torus that serves the tenant as its primary, if it is MIRRORED: one more operation on an object makes it so. -/
def combineAtStray : State :=
  let s := withFields startedDie
    [(fCoreSpancfgMode, 1), (fCoreSpancfgMirror, 1), (⟨rCoreMirrole (tenantOfProgrammable / 64), tenantOfProgrammable % 64, 1⟩, 1),
      (fObsCfg0Event 0, 0x04), (fObsCfg0En 0, 1), (fSemaHtwLen 7, 1)]
  let s := setSlot (setHtm s 5 ⟨.resident, 3, 9, .barrier⟩) (slotKey 3 9) strayBarrier
  withQueued (setCtx s 3 openRoot) drainedCombine

/-- The arrival counts, and makes the barrier's tenant a mirrored one: its record leaves for the pair. -/
theorem sent_after_combine :
    seenAfter (.arriveCombine 10 0) combineAtStray (fun u => (portSt u 6).sent.length) = some 1 := by decide +kernel

/-- Refutes O49: the slot takes the arrival in the state before, which is to be answered and to change no port; counted by the counter
that is the TEN_CFG of the slot's tenant it finds that tenant mirrored, and its reply waits behind a mirror record on port 6. -/
theorem not_combineArrivals : ¬ Obligations.CombineArrivals := by
  intro h
  have harrive := ((h 10 0 3 onePier drainedCombine splitCombine combineAtStray).2 openRoot (by decide +kernel)).1
    (by decide +kernel) (by decide +kernel) (by decide +kernel) ⟨_, rfl⟩ (by decide) (by decide) (by decide +kernel)
    (by decide +kernel) (by decide +kernel)
  have hrecord := harrive.2.2 (by decide) (Or.inl rfl) (by decide) rfl (by decide) (slotKey 3 9) strayBarrier (by decide +kernel)
    rfl (by decide) (by decide) (by decide) (by decide) (by decide) rfl (by decide +kernel) (Or.inl (by decide))
  obtain ⟨u, -, hu, -, -, -, -, -, -, -, -, -, -, -, -, -, hports, -⟩ := hrecord
  have hsent := seen_of_seenAfter hu sent_after_combine
  rw [portSt, hports] at hsent
  exact absurd hsent (by decide +kernel)

end Sys2Proof.Machine
end

section
/-! The report of a ROUTE's part as a chain of equations, from the port where it arrives to the reply (R177, R281). -/
namespace Sys2Proof.Machine

/-! Check words and passages with no injection armed and no word bad. -/

theorem bad_of_quiet {s : State} (h : quiet s = true) : s.flt.bad = [] := by
  simp only [quiet, Bool.and_eq_true, List.isEmpty_iff] at h
  exact h.1.2

theorem finjHits_of_quiet {s : State} (h : quiet s = true) {b : Nat} (hb : b < 17) (target unit : Nat) :
    finjHits s b target unit = false := by
  simp only [quiet, Bool.and_eq_true, List.all_eq_true, List.mem_range, decide_eq_true_eq] at h
  simp [finjHits, h.2 b hb]

theorem chkRead_of_quiet {s : State} (h : quiet s = true) (b target unit index : Nat) :
    chkRead s b target unit index = (s, .good) := by
  simp [chkRead, bad_of_quiet h, takeFirst]

theorem routerPass_of_quiet {s : State} (h : quiet s = true) (r : Nat) : routerPass s r = (s, .whole) := by
  have hbus (target : Nat) : busWord s bCore target r = (s, .good) := by
    simp [busWord, finjHits_of_quiet h (b := bCore) (by decide)]
  simp [routerPass, hbus, chkRead_of_quiet h]

theorem passRouters_of_quiet {s : State} (h : quiet s = true) (rs : List Nat) : passRouters rs s = (s, .whole) := by
  induction rs with
  | nil => rfl
  | cons r rs ih => simp [passRouters, routerPass_of_quiet h, ih]

theorem girderPass_of_quiet {s : State} (h : quiet s = true) (a b : Nat) : girderPass s a b = (s, .whole) :=
  passRouters_of_quiet h _

theorem bufRead_of_quiet {s : State} (h : quiet s = true) (n target word : Nat) : bufRead s n target word = (s, false) := by
  simp [bufRead, chkRead_of_quiet h]

/-! From the port to the issuing pier. -/

/-- Giving credits back for a message touches its port alone. -/
theorem takeRaw_eq_setPort (s : State) (n : Nat) (m : Msg) : takeRaw s n m = s ∨ ∃ x, takeRaw s n m = setPort s n x := by
  simp only [takeRaw]
  split
  · exact .inl rfl
  · exact .inr ⟨_, rfl⟩

theorem delivers_takeRaw {s : State} {n : Nat} {h : Hdr} {m : Msg} (hd : delivers s n h = true) :
    quiet (takeRaw s n m) = true ∧ degradedOn (takeRaw s n m) = false ∧ h.dst = dieOf (takeRaw s n m) := by
  simp only [delivers, Bool.and_eq_true, Bool.not_eq_true', decide_eq_true_eq, and_assoc] at hd
  obtain ⟨hquiet, -, -, -, -, hdeg, hdst⟩ := hd
  rcases takeRaw_eq_setPort s n m with ht | ⟨x, ht⟩ <;> rw [ht] <;> exact ⟨hquiet, hdeg, hdst⟩

theorem recvMsg_of_delivers {s : State} {n : Nat} {h : Hdr} (hd : delivers s n h = true) (m : Msg) :
    recvMsg s n h m = onward (takeRaw s n (stampMsg s.now h m)) n h (stampMsg s.now h m) := by
  simp only [delivers, Bool.and_eq_true, Bool.not_eq_true', decide_eq_true_eq, and_assoc] at hd
  obtain ⟨hquiet, hn, hclk, hup, hfrz, -, -⟩ := hd
  have hwrite : chkWrite s (bVia n) 1 0 0 = s := chkWrite_of_quiet hquiet (by unfold bVia; omega) 1 0 0
  simp [recvMsg, hclk, hup, hfrz, hwrite, bufRead_of_quiet hquiet]

theorem recvMsg_preport_of_delivers {s : State} {n : Nat} {h : Hdr} (hd : delivers s n h = true) (c : Cmd) (r : PReport) :
    recvMsg s n h (.preport c r) = recvPreport (takeRaw s n (.preport c r)) h c r := by
  obtain ⟨hquiet, hdeg, hdst⟩ := delivers_takeRaw (m := .preport c r) hd
  rw [recvMsg_of_delivers hd]
  simp [stampMsg, onward, pairMsg, hdst.symm, actOn, degradedMsg, hdeg, unitRouter, girderPass_of_quiet hquiet, atUnit]

theorem takeRaw_of_empty {s : State} {n : Nat} (hrx : (portSt s n).rxMsgs = []) (m : Msg) : takeRaw s n m = s := by
  simp [takeRaw, hrx, takeFirst]

/-! From the pier to the reply. -/

/-- A report that the ROUTE waits for is merged into its gathering, and returns the part's credit. -/
theorem recvPreport_of_waiting {s : State} {h : Hdr} {c : Cmd} {r : PReport} (hepoch : isOlder (epochOf s h.tenant) h.epoch = false)
    (hown : ownCmd s c = some c) (hwait : (s.rt.gathers.any fun g => decide (g.cmd = c) && g.waiting.contains (h.src, r.tag)) = true)
    (hlate : r.status ≠ .dataLate) :
    recvPreport s h c r = gatherReport (freeCredit s c (firstPort s h.src)) c h.src r.tag r.mask (idxOn c.words h.src) r.status r.dt := by
  simp only [recvPreport, hepoch, hown, hwait, hlate, Bool.not_true, Bool.false_eq_true, if_false]

/-- A part's report merged into the ROUTE's gathering (R177). -/
def mergedReport (s : State) (c : Cmd) (d tag mask : Nat) (entries : List Nat) (st : Status) (dt : Option Nat) : State :=
  updGather s c fun g =>
    { g with
      waiting := g.waiting.filter fun w => decide (w ≠ (d, tag)), resend := g.resend.filter fun w => decide (w.1 ≠ d)
      failed := g.failed ++ (entries.filter fun i => nbit mask i).map fun i => (i, st)
      dt := match g.dt, dt with
        | some a, some b => some (max a b)
        | none, b => b
        | a, none => a }

theorem gatherReport_eq (s : State) (c : Cmd) (d tag mask : Nat) (entries : List Nat) (st : Status) (dt : Option Nat) :
    gatherReport s c d tag mask entries st dt = gatherDone (mergedReport s c d tag mask entries st dt) c := rfl

/-- The status of the lowest failed entry of a gathering (R177). -/
def lowStatus (g : Gather) : Status :=
  ((List.range 32).findSome? fun i => (g.failed.find? fun x => decide (x.1 = i)).map (·.2)).getD .ok

/-- The ROUTE's gathering taken away, its pier's Deck Time read, and its COMPLETE counted. -/
def countedRoute (s : State) (c : Cmd) (st : Status) : State :=
  let rest := s.rt.gathers.filter fun h => decide (h.cmd ≠ c)
  countEv (timeRead { s with rt := { s.rt with gathers := rest } } c.pier) (Ev.ofCmd 0x02 c none (some st))

/-- Without a commit time the ROUTE answers the Deck Time that its pier reads once COMPLETE is counted. -/
theorem gatherDone_of_untimed {s : State} {c : Cmd} {g : Gather} (hg : (s.rt.gathers.find? fun g => decide (g.cmd = c)) = some g)
    (hwait : g.waiting = []) (hresend : g.resend = []) (hdt : g.dt = none) :
    gatherDone s c = settle (countedRoute s c (lowStatus g)) c
      ⟨w64 (g.failed.foldl (fun n x => n ||| 2 ^ x.1) 0), lowStatus g,
        BitVec.ofNat 8 (128 * b2n ((routeEntries c.words).any fun e => decide (e.die ≠ dieOf s))),
        pierTime (countedRoute s c (lowStatus g)) c.pier⟩ := by
  simp only [gatherDone, hg, hwait, hresend, hdt, ne_eq, not_true, or_self, if_false, Option.getD_none]
  rfl

/-! The Deck Time of an ordinary pier just before its counter jumps, by the pier's number. -/

/-- Pier n is an ordinary pier p of unmeasured offset, and the die's counter is about to jump from 0: whatever the lag with which the
pier hears it (log entry 110), it hears 0. -/
structure HearsZero (s : State) (n : Nat) (p : PierNet) (after : Nat) : Prop where
  found : pierNet s n = some p
  ordinary : p.priv = false
  unmeasured : on s (fDtPofsValid p.pier) = false
  jump : s.dt.jump = some (0, after)
  before : s.now < after

/-- Such a pier reads its offset, and never less than it read before. -/
theorem pierTime_of_hearsZero {s : State} {n after : Nat} {p : PierNet} (h : HearsZero s n p after) :
    pierTime s n = max (pierSt s p.pier).lastDt (ofsNow s p.pier).toNat := by
  simp only [pierTime, h.found, pierNow_of_jump h.jump h.before h.ordinary h.unmeasured]

theorem timeRead_of_hearsZero {s : State} {n after : Nat} {p : PierNet} (h : HearsZero s n p after) :
    timeRead s n = setPier s n { pierSt s n with lastDt := pierTime s n } := by
  simp [timeRead, pierTime, h.found, h.ordinary]

end Sys2Proof.Machine
end

section
/-! The report of a ROUTE that moves its own pier's Deck Time. The statement on parts takes any pier number the netlist has, and the
model reads DT_POFS at 0x101000 + 8 p for any p, where the register map ends at p = 2047. The offset of pier 33792 is programmable
counter 0 (R434), and the model counts the ROUTE's COMPLETE before it reads the pier's time for the reply. -/
namespace Sys2Proof.Machine

/-- An ordinary pier whose offset register is programmable counter 0. -/
def pierOfCompletions : PierNet := ⟨33792, 3, [(10, 20)], false⟩

/-- Agent 10's ROUTE of one entry, through that pier: it adds 3 to object 5 of die 1. -/
def farRoute : Cmd := { agentCmd ([w64 0x10, 5, w64 (2 ^ 18 + 3)] ++ List.replicate 13 0) with pier := 33792 }

def farRouteItem : Item := queued farRoute.words .out (some farRoute)

/-- The ROUTE waits for the one part, tag 6 of die 1. -/
def farGather : Gather := ⟨farRoute, [(1, 6)], [], [], none, [(1, 0)]⟩

/-- The part's entry failed with BADOP, so that nothing was committed and the report has no commit time. -/
def farReport : PReport := ⟨6, 1, .badop, none⟩

/-- Die 0 of two, where programmable counter 0 counts COMPLETE and stands at 7. As the pier's offset that is 7 sixteenths of a tick,
which is none; the die's counter is about to jump from 0, so that the pier reads the offset alone. -/
def reportAwaited : State :=
  let s := withFields { dieOfTwo with net := ⟨[pierOfCompletions], 1⟩ }
    [(fObsCvalValue 0, 7), (fObsCfg0Event 0, 0x02), (fObsCfg0En 0, 1)]
  let s := withQueued { s with dt := { s.dt with jump := some (0, 10000) } } farRouteItem
  { s with rt := { s.rt with gathers := [farGather] } }

theorem delivers_reportAwaited : delivers reportAwaited 0 fromDieOne = true := by decide +kernel

/-- The state once the report is merged, with the gathering about to end. -/
def reportMerged : State := mergedReport (freeCredit reportAwaited farRoute 0) farRoute 1 6 1 [0] .badop none

/-- The gathering then: no part is waited for, and entry 0 has failed. -/
def farGatherDone : Gather := { farGather with waiting := [], failed := [(0, .badop)] }

def gatheringGone : State := { reportMerged with rt := { reportMerged.rt with gathers := [] } }

/-- The pier has read 0, and COMPLETE is counted. -/
def completeCounted : State :=
  countEv (setPier gatheringGone 33792 { pierSt gatheringGone 33792 with lastDt := 0 }) (Ev.ofCmd 0x02 farRoute none (some .badop))

/-- The ROUTE with its reply. -/
def farRouteReplied : State := settle completeCounted farRoute ⟨1, .badop, 128, 1⟩

theorem hearsZero_reportAwaited : HearsZero reportAwaited 33792 pierOfCompletions 10000 :=
  ⟨by decide +kernel, rfl, by decide +kernel, by decide +kernel, by decide +kernel⟩

/-- Before the report the pier reads 0. -/
theorem pierTime_reportAwaited : pierTime reportAwaited farRoute.pier = 0 :=
  (pierTime_of_hearsZero hearsZero_reportAwaited).trans (by decide +kernel)

theorem hearsZero_gatheringGone : HearsZero gatheringGone 33792 pierOfCompletions 10000 :=
  ⟨by decide +kernel, rfl, by decide +kernel, by decide +kernel, by decide +kernel⟩

theorem hearsZero_completeCounted : HearsZero completeCounted 33792 pierOfCompletions 10000 :=
  ⟨by decide +kernel, rfl, by decide +kernel, by decide +kernel, by decide +kernel⟩

/-- The count of COMPLETE made the offset 8 sixteenths, which is a tick. -/
theorem pierTime_completeCounted : pierTime completeCounted 33792 = 1 :=
  (pierTime_of_hearsZero hearsZero_completeCounted).trans (by decide +kernel)

theorem countedRoute_reportMerged : countedRoute reportMerged farRoute .badop = completeCounted := by
  have hrest : (reportMerged.rt.gathers.filter fun h => decide (h.cmd ≠ farRoute)) = [] := by decide +kernel
  have hzero : pierTime gatheringGone 33792 = 0 := (pierTime_of_hearsZero hearsZero_gatheringGone).trans (by decide +kernel)
  have htime := timeRead_of_hearsZero hearsZero_gatheringGone
  rw [hzero] at htime
  simp only [countedRoute, hrest]
  exact congrArg (fun s => countEv s (Ev.ofCmd 0x02 farRoute none (some .badop))) htime

theorem gatherDone_reportMerged : gatherDone reportMerged farRoute = farRouteReplied := by
  have hlow : lowStatus farGatherDone = .badop := by decide
  have hremote : ((routeEntries farRoute.words).any fun e => decide (e.die ≠ dieOf reportMerged)) = true := by decide +kernel
  rw [gatherDone_of_untimed (g := farGatherDone) (by decide +kernel) rfl rfl rfl, hlow, countedRoute_reportMerged, hremote]
  exact congrArg (fun t => settle completeCounted farRoute ⟨1, .badop, 128, t⟩) pierTime_completeCounted

theorem exec_reportAwaited :
    exec (.preport 0 fromDieOne farRoute farReport) reportAwaited = .next (finishStep farRouteReplied) := by
  have hraw : takeRaw reportAwaited 0 (.preport farRoute farReport) = reportAwaited := takeRaw_of_empty (by decide +kernel) _
  have hfirst : firstPort reportAwaited 1 = 0 := by decide +kernel
  have hidx : idxOn farRoute.words 1 = [0] := by decide
  have hmerge : recvPreport reportAwaited fromDieOne farRoute farReport =
      gatherReport (freeCredit reportAwaited farRoute (firstPort reportAwaited 1)) farRoute 1 6 1 (idxOn farRoute.words 1) .badop none :=
    recvPreport_of_waiting (by decide +kernel) (by decide +kernel) (by decide +kernel) (by decide)
  have hdone : recvMsg reportAwaited 0 fromDieOne (.preport farRoute farReport) = farRouteReplied := by
    rw [recvMsg_preport_of_delivers delivers_reportAwaited, hraw, hmerge, hfirst, hidx, gatherReport_eq]
    exact gatherDone_reportMerged
  exact congrArg (fun t => Host.Outcome.next (finishStep t)) hdone

/-- The ROUTE answers 1, the Deck Time once its COMPLETE is counted. -/
theorem states_after_report :
    seenAfter (.preport 0 fromDieOne farRoute farReport) reportAwaited (fun u => (dropSkips (queueOf u 10 0).items).map (·.st)) =
      some [.done ⟨1, .badop, 128, 1⟩ .nothing] := by
  rw [seenAfter, exec_reportAwaited]
  decide +kernel

/-- Refutes O51: the last part's report holds no commit time, and the ROUTE is to answer the Deck Time of its pier; the model counts
its COMPLETE first, by the counter that is the pier's offset, and answers a tick later. -/
theorem not_routesAcrossDies : ¬ Obligations.RoutesAcrossDies := by
  intro h
  have hreport := ((h 0 fromDieOne reportAwaited delivers_reportAwaited).2 farRouteItem farRoute farGather farReport
    (by decide +kernel) (by decide +kernel) rfl (by decide +kernel) (by decide +kernel) (by decide) (by decide +kernel)
    (by decide +kernel) rfl rfl (by decide) rfl rfl).1
  obtain ⟨u, hu, -, ⟨hitems, -⟩, -⟩ := hreport rfl rfl
  have hstates := (seen_of_seenAfter hu states_after_report).symm.trans (congrArg (List.map (fun i : Item => i.st)) hitems)
  rw [pierTime_reportAwaited] at hstates
  exact absurd hstates (by decide +kernel)

end Sys2Proof.Machine
end

section
/-! A release drain that does not begin (R243): the issue of the command, which is counted, has unbound its agent before the pier's
checks, as for the commands of `agentOfCounter` above. -/
namespace Sys2Proof.Machine

/-- SIG_SUB of 1 from object 5, with REL at the AGENT scope. -/
def releasingSubtraction : List Word := packetWords 2 1 0 5 1 0

/-- It waits at the head of its queue, and fixed counter 22, which counts the SIG_SUBs issued, is its agent's binding. -/
def releaseIssued : State := withUnissued (dieOfCounter 22) 22 releasingSubtraction

/-- Its stamp, made before it is counted, passes the pier's checks. -/
theorem passes_release :
    passes releaseIssued (stamp releaseIssued (pierOfCounter 22) (agentOfCounter 22) 0 (unissued releasingSubtraction)) = true := by
  decide +kernel

/-- No drain begins. -/
theorem drain_after_release :
    seenAfter (rowOf (agentOfCounter 22) 0 releasingSubtraction) releaseIssued
      (fun u => (queueOf u (agentOfCounter 22) 0).drain) = some none := by decide +kernel

/-- Refutes O45: the SIG_SUB with REL passes the pier's checks in the state before, and its drain is to begin; counted by the
counter that is its agent's binding it ends with PROT, and its queue has no drain. -/
theorem not_releaseDrains : ¬ Obligations.ReleaseDrains := by
  intro h
  have hbegin := (h (agentOfCounter 22) 0 0 (pierOfCounter 22) (unissued releasingSubtraction)
    (newSlot .count 0 6 255 0 5 1000 false) releaseIssued).1
  have hnotFence : pOp releasingSubtraction ≠ some .fence := by decide
  obtain ⟨u, hu, -, hdrain, -⟩ := hbegin (pScope releasingSubtraction) (by decide +kernel) passes_release (by decide +kernel)
    (Or.inl ⟨by decide, rfl⟩) fun hfence => absurd hfence hnotFence
  have hnone := seen_of_seenAfter hu drain_after_release
  exact Option.some_ne_none _ (hdrain.symm.trans hnone)

end Sys2Proof.Machine
end
